-- ==== Sys2Proof/Word.lean ====
section
/-!
DEFINITION. The word types of the Tsumor T9 and their plainest arithmetic: 32-bit registers and instruction words,
bytes, and the register codes of R25. Everything a test could mend (bit fields, sign extension, byte order) stands
under Machine/.
-/
namespace Sys2Proof

/-- A 32-bit register or instruction word (R23, R25). -/
abbrev Word := BitVec 32

/-- One byte of memory (R5). -/
abbrev Byte := BitVec 8

/-- A 6-bit register code of an instruction field (R24, R25). -/
abbrev RegCode := BitVec 6

end Sys2Proof
end

