-- ==== Sys2Proof/Syntax.lean ====
section
/-!
DEFINITION. The syntax of the machine's steps: one constructor of Instr per row of spec/opcode_table.json. The first
part are the 187 instruction words of R45 to R57, each with the raw bit fields of its encoding; the second part are the
112 steps that have no word (events of the engines, of the host and of the management controller), each with the
operands that name which instance of the step takes place.
-/
namespace Sys2Proof

/-- The agents that execute instruction words (R15, R74, R231, R378): a gang of a warp, named by core, warp slot and
its lowest slice; a Collie thread of a core; the management controller. -/
inductive Agent where
  | gang (core slot lead : Nat)
  | collie (core thread : Nat)
  | mc
deriving DecidableEq, Repr, Inhabited

/-- What another device of the domain asks of this one (R16, R374): a read, a write of bytes, or an atomic. -/
inductive RemoteAccess where
  | read (pa size : Nat)
  | write (pa : Nat) (bytes : List Byte)
  | atom (op pa size : Nat) (v v2 : BitVec 64)
deriving DecidableEq, Repr

/-- The steps of the machine: every row of the opcode table. -/
inductive Instr where
  /-- MODE (R94). Writes the selected fields of each issuing slice's mode register. -/
  | mode (mguard : BitVec 1) (mtype : BitVec 1) (mrnd : BitVec 1) (msat : BitVec 1) (msub : BitVec 1) (value : BitVec 15)
  /-- TRL (R40). Ends the current run, deferring up to three named pending results and waiting for every other one. -/
  | trl (count : BitVec 2) (x1 : BitVec 6) (x2 : BitVec 6) (x3 : BitVec 6)
  /-- TRL_RANGE (R40). Ends the current run, deferring every pending result in a register range. -/
  | trlRange (x1 : BitVec 6) (x2 : BitVec 6)
  /-- NOP (R95). Counts as one word of its run and look window and does nothing else. -/
  | nop
  /-- BR (R149). Sends each slice to the target or to PC + 4 by a slice-uniform condition. -/
  | br (cond : BitVec 4) (off : BitVec 20)
  /-- BRD (R150). Defers the lanes whose condition holds to the target by pushing a divergence-stack entry. -/
  | brd (cond : BitVec 4) (off : BitVec 20)
  /-- RJOIN (R151). Closes one arm of a divergent region, switching to deferred lanes or popping the joined entry. -/
  | rjoin (off : BitVec 20)
  /-- REGANG (R153). Parks the gang until every named live slice waits, then merges them or raises REGANG-MISMATCH. -/
  | regang (slices : BitVec 16)
  /-- CALL (R155). Slides every slice's window up by n, stores the return address in w42:w43 and jumps by offset. -/
  | call (n : BitVec 6) (off : BitVec 18)
  /-- CALLI (R155). Calls through a target held in a register pair, sliding the window up by n. -/
  | calli (n : BitVec 6) (a : BitVec 6)
  /-- RET (R156). Reads the return address from w42:w43, slides the window down by n and returns. -/
  | ret (n : BitVec 6)
  /-- BRX (R154). Sends each slice to the address held in a register pair. -/
  | brx (a : BitVec 6)
  /-- YIELD (R157). Parks the gang so other gangs run, to resume at its continuation. -/
  | yield (off : BitVec 20)
  /-- YIELD_B (R158). Arrives the warp at a named barrier and parks until the phase completes. -/
  | yieldB (b : BitVec 4) (off : BitVec 20)
  /-- WAITMON (R159). Reads a word and arms a line monitor indivisibly, parking when the word equals the expected value. -/
  | waitmon (lvl : BitVec 2) (c : BitVec 4) (a : BitVec 6) (b : BitVec 6) (tmo : BitVec 6)
  /-- EXIT (R162). Ends the executing lanes and discards their pending results, performing any held deposits. -/
  | exit
  /-- IADD (R96). Adds packed elements under mode.type, wrapping or saturating. -/
  | iadd (d : BitVec 6) (a : BitVec 6) (b : BitVec 6)
  /-- ISUB (R96). Subtracts packed elements under mode.type, wrapping or saturating. -/
  | isub (d : BitVec 6) (a : BitVec 6) (b : BitVec 6)
  /-- IMIN (R96). Signed element-wise minimum. -/
  | imin (d : BitVec 6) (a : BitVec 6) (b : BitVec 6)
  /-- IMAX (R96). Signed element-wise maximum. -/
  | imax (d : BitVec 6) (a : BitVec 6) (b : BitVec 6)
  /-- NMIN (R96). Natural element-wise minimum. -/
  | nmin (d : BitVec 6) (a : BitVec 6) (b : BitVec 6)
  /-- NMAX (R96). Natural element-wise maximum. -/
  | nmax (d : BitVec 6) (a : BitVec 6) (b : BitVec 6)
  /-- IABSD (R96). Element-wise absolute difference as a natural result. -/
  | iabsd (d : BitVec 6) (a : BitVec 6) (b : BitVec 6)
  /-- AND (R99). Bitwise and of two 32-bit values. -/
  | and (d : BitVec 6) (a : BitVec 6) (b : BitVec 6)
  /-- OR (R99). Bitwise or of two 32-bit values. -/
  | or (d : BitVec 6) (a : BitVec 6) (b : BitVec 6)
  /-- XOR (R99). Bitwise exclusive or of two 32-bit values. -/
  | xor (d : BitVec 6) (a : BitVec 6) (b : BitVec 6)
  /-- ANDN (R99). a and not b. -/
  | andn (d : BitVec 6) (a : BitVec 6) (b : BitVec 6)
  /-- ORN (R99). a or not b. -/
  | orn (d : BitVec 6) (a : BitVec 6) (b : BitVec 6)
  /-- SHL (R100). Logical shift left by a natural count. -/
  | shl (d : BitVec 6) (a : BitVec 6) (b : BitVec 6)
  /-- SHR (R100). Logical shift right by a natural count. -/
  | shr (d : BitVec 6) (a : BitVec 6) (b : BitVec 6)
  /-- SAR (R100). Arithmetic shift right by a natural count. -/
  | sar (d : BitVec 6) (a : BitVec 6) (b : BitVec 6)
  /-- ROL (R100). Rotate left by the count modulo 32. -/
  | rol (d : BitVec 6) (a : BitVec 6) (b : BitVec 6)
  /-- ROR (R100). Rotate right by the count modulo 32. -/
  | ror (d : BitVec 6) (a : BitVec 6) (b : BitVec 6)
  /-- IMAD24 (R101). Signed 24-bit multiply and 32-bit add at full rate. -/
  | imad24 (d : BitVec 6) (a : BitVec 6) (b : BitVec 6) (c : BitVec 6)
  /-- NMAD24 (R101). Natural 24-bit multiply and 32-bit add at full rate. -/
  | nmad24 (d : BitVec 6) (a : BitVec 6) (b : BitVec 6) (c : BitVec 6)
  /-- IMUL32_LO (R102). Quarter-rate long-latency 32-bit multiply giving the low word. -/
  | imul32Lo (d : BitVec 6) (a : BitVec 6) (b : BitVec 6) (look : BitVec 4)
  /-- IMUL32_HI (R102). Quarter-rate long-latency signed 32-bit multiply giving the high word. -/
  | imul32Hi (d : BitVec 6) (a : BitVec 6) (b : BitVec 6) (look : BitVec 4)
  /-- IMUL32_NHI (R102). Quarter-rate long-latency natural 32-bit multiply giving the high word. -/
  | imul32Nhi (d : BitVec 6) (a : BitVec 6) (b : BitVec 6) (look : BitVec 4)
  /-- BFE (R103). Extracts a bit field with sign or zero extension. -/
  | bfe (d : BitVec 6) (a : BitVec 6) (b : BitVec 6) (c : BitVec 6)
  /-- BFI (R104). Inserts the low bits of b into a copy of a. -/
  | bfi (d : BitVec 6) (a : BitVec 6) (b : BitVec 6) (c : BitVec 6)
  /-- POPC (R105). Counts the 1 bits. -/
  | popc (d : BitVec 6) (a : BitVec 6)
  /-- CLZ (R105). Counts leading zero bits. -/
  | clz (d : BitVec 6) (a : BitVec 6)
  /-- BREV (R105). Reverses the bit order. -/
  | brev (d : BitVec 6) (a : BitVec 6)
  /-- FFS (R105). Finds the index of the lowest 1 bit. -/
  | ffs (d : BitVec 6) (a : BitVec 6)
  /-- SEL (R108). Selects per lane between a and b by a predicate. -/
  | sel (d : BitVec 6) (a : BitVec 6) (b : BitVec 6) (c : BitVec 6)
  /-- ICMP (R106). Compares two 32-bit values and writes one predicate bit per executing lane. -/
  | icmp (d : BitVec 6) (a : BitVec 6) (b : BitVec 6) (fn : BitVec 6)
  /-- PAND (R107). Predicate and. -/
  | pand (d : BitVec 6) (a : BitVec 6) (b : BitVec 6)
  /-- POR (R107). Predicate or. -/
  | por (d : BitVec 6) (a : BitVec 6) (b : BitVec 6)
  /-- PXOR (R107). Predicate exclusive or. -/
  | pxor (d : BitVec 6) (a : BitVec 6) (b : BitVec 6)
  /-- PANDN (R107). Predicate a and not b. -/
  | pandn (d : BitVec 6) (a : BitVec 6) (b : BitVec 6)
  /-- IADDI (R97). Adds a sign-extended 12-bit immediate. -/
  | iaddi (d : BitVec 6) (a : BitVec 6) (imm : BitVec 12)
  /-- ANDI (R97). Ands with a zero-extended 12-bit immediate. -/
  | andi (d : BitVec 6) (a : BitVec 6) (imm : BitVec 12)
  /-- ORI (R97). Ors with a zero-extended 12-bit immediate. -/
  | ori (d : BitVec 6) (a : BitVec 6) (imm : BitVec 12)
  /-- MOVI (R98). Writes a sign-extended 18-bit constant. -/
  | movi (d : BitVec 6) (imm : BitVec 18)
  /-- MOVHI (R98). Writes bits 31:16 and keeps bits 15:0 of the destination. -/
  | movhi (d : BitVec 6) (imm : BitVec 16)
  /-- LEA (R109). Forms a + (b << sh) modulo 2^32. -/
  | lea (d : BitVec 6) (a : BitVec 6) (b : BitVec 6) (sh : BitVec 4)
  /-- IADD64 (R110). Adds 64-bit register pairs. -/
  | iadd64 (d : BitVec 6) (a : BitVec 6) (b : BitVec 6)
  /-- ISUB64 (R110). Subtracts 64-bit register pairs. -/
  | isub64 (d : BitVec 6) (a : BitVec 6) (b : BitVec 6)
  /-- SMOV_SS (R111). Moves one scalar of s0–s31 to another. -/
  | smovSs (x : BitVec 6) (y : BitVec 6)
  /-- SMOV_SR (R111). Moves the lowest executing lane of a register to a scalar of s0–s31. -/
  | smovSr (x : BitVec 6) (y : BitVec 6)
  /-- SMOV_RS (R111). Broadcasts a scalar of s0–s31 into a register of each executing lane. -/
  | smovRs (x : BitVec 6) (y : BitVec 6)
  /-- SOP (R112). Warp-uniform scalar arithmetic on s0–s31 selected by fn. -/
  | sop (fn : BitVec 4) (d : BitVec 5) (a : BitVec 5) (b : BitVec 5)
  /-- FFMA (R130). Fused multiply-add with one rounding. -/
  | ffma (d : BitVec 6) (a : BitVec 6) (b : BitVec 6) (c : BitVec 6)
  /-- FADD (R131). Float addition. -/
  | fadd (d : BitVec 6) (a : BitVec 6) (b : BitVec 6)
  /-- FSUB (R131). Float subtraction. -/
  | fsub (d : BitVec 6) (a : BitVec 6) (b : BitVec 6)
  /-- FMUL (R131). Float multiplication. -/
  | fmul (d : BitVec 6) (a : BitVec 6) (b : BitVec 6)
  /-- FMIN (R131). Float minimum with NaN and signed-zero rules. -/
  | fmin (d : BitVec 6) (a : BitVec 6) (b : BitVec 6)
  /-- FMAX (R131). Float maximum with NaN and signed-zero rules. -/
  | fmax (d : BitVec 6) (a : BitVec 6) (b : BitVec 6)
  /-- FCMP (R132). Compares two floats and writes one predicate bit per executing lane. -/
  | fcmp (d : BitVec 6) (a : BitVec 6) (b : BitVec 6) (fn : BitVec 6)
  /-- RCP (R137). Long-latency correctly rounded reciprocal. -/
  | rcp (d : BitVec 6) (a : BitVec 6) (look : BitVec 4)
  /-- RSQRT (R137). Long-latency reciprocal square root. -/
  | rsqrt (d : BitVec 6) (a : BitVec 6) (look : BitVec 4)
  /-- SQRT (R137). Long-latency correctly rounded square root. -/
  | sqrt (d : BitVec 6) (a : BitVec 6) (look : BitVec 4)
  /-- DIV (R137). Long-latency correctly rounded division. -/
  | div (d : BitVec 6) (a : BitVec 6) (b : BitVec 6) (look : BitVec 4)
  /-- EXP2 (R137). Long-latency base-2 exponential. -/
  | exp2 (d : BitVec 6) (a : BitVec 6) (look : BitVec 4)
  /-- LOG2 (R137). Long-latency base-2 logarithm. -/
  | log2 (d : BitVec 6) (a : BitVec 6) (look : BitVec 4)
  /-- SIN (R137). Long-latency sine. -/
  | sin (d : BitVec 6) (a : BitVec 6) (look : BitVec 4)
  /-- COS (R137). Long-latency cosine. -/
  | cos (d : BitVec 6) (a : BitVec 6) (look : BitVec 4)
  /-- TANH (R137). Long-latency hyperbolic tangent. -/
  | tanh (d : BitVec 6) (a : BitVec 6) (look : BitVec 4)
  /-- SIGM (R137). Long-latency logistic sigmoid. -/
  | sigm (d : BitVec 6) (a : BitVec 6) (look : BitVec 4)
  /-- CVT (R136). Converts one element between FP32 and a narrower float or tapered format. -/
  | cvt (d : BitVec 6) (a : BitVec 6) (op : BitVec 4) (sel : BitVec 2)
  /-- F2I (R135). Converts a float to a signed 32-bit integer. -/
  | f2i (d : BitVec 6) (a : BitVec 6)
  /-- I2F (R135). Converts a signed 32-bit integer to a float. -/
  | i2f (d : BitVec 6) (a : BitVec 6)
  /-- F2N (R135). Converts a float to a natural 32-bit integer. -/
  | f2n (d : BitVec 6) (a : BitVec 6)
  /-- N2F (R135). Converts a natural 32-bit integer to a float. -/
  | n2f (d : BitVec 6) (a : BitVec 6)
  /-- FRND (R135). Rounds a float to an integral value in the same format. -/
  | frnd (d : BitVec 6) (a : BitVec 6)
  /-- FFMA2 (R133). Packed-pair fused multiply-add. -/
  | ffma2 (d : BitVec 6) (a : BitVec 6) (b : BitVec 6) (c : BitVec 6)
  /-- FADD2 (R133). Packed-pair addition. -/
  | fadd2 (d : BitVec 6) (a : BitVec 6) (b : BitVec 6)
  /-- FMUL2 (R133). Packed-pair multiplication. -/
  | fmul2 (d : BitVec 6) (a : BitVec 6) (b : BitVec 6)
  /-- FMIN2 (R133). Packed-pair minimum. -/
  | fmin2 (d : BitVec 6) (a : BitVec 6) (b : BitVec 6)
  /-- FMAX2 (R133). Packed-pair maximum. -/
  | fmax2 (d : BitVec 6) (a : BitVec 6) (b : BitVec 6)
  /-- FABS (R134). Clears the sign bit of each element. -/
  | fabs (d : BitVec 6) (a : BitVec 6)
  /-- FNEG (R134). Inverts the sign bit of each element. -/
  | fneg (d : BitVec 6) (a : BitVec 6)
  /-- FCLASS (R134). Writes the one-hot class of a float pattern. -/
  | fclass (d : BitVec 6) (a : BitVec 6)
  /-- SHFL (R140). Reads a from another participating lane chosen by the selector. -/
  | shfl (d : BitVec 6) (a : BitVec 6) (b : BitVec 6) (fn : BitVec 6)
  /-- VOTE (R141). Combines a predicate over each group of participating lanes. -/
  | vote (d : BitVec 6) (a : BitVec 6) (b : BitVec 6) (fn : BitVec 6)
  /-- RED (R142). Reduces a over each group and writes the result to every participating lane. -/
  | red (d : BitVec 6) (a : BitVec 6) (b : BitVec 6) (fn : BitVec 6)
  /-- SCAN (R143). Forms inclusive or exclusive prefix sums over each group. -/
  | scan (d : BitVec 6) (a : BitVec 6) (b : BitVec 6) (fn : BitVec 6)
  /-- MATCH (R144). Writes to each participating lane the mask of lanes with an equal key. -/
  | matchKey (d : BitVec 6) (a : BitVec 6)
  /-- BCAST (R145). Gives every participating lane of a group the value of the group's lowest lane. -/
  | bcast (d : BitVec 6) (a : BitVec 6) (b : BitVec 6)
  /-- LDL (R166). Long-latency load from the lane-private slice. -/
  | ldl (d : BitVec 6) (a : BitVec 6) (b : BitVec 6) (look : BitVec 4) (wd : BitVec 2)
  /-- STL (R166). Store to the lane-private slice. -/
  | stl (d : BitVec 6) (a : BitVec 6) (b : BitVec 6) (wd : BitVec 2)
  /-- LDS (R166). Long-latency load from the core scratchpad. -/
  | lds (d : BitVec 6) (a : BitVec 6) (b : BitVec 6) (look : BitVec 4) (wd : BitVec 2)
  /-- STS (R166). Store to the core scratchpad. -/
  | sts (d : BitVec 6) (a : BitVec 6) (b : BitVec 6) (wd : BitVec 2)
  /-- LDC (R166). Long-latency load from the cluster window. -/
  | ldc (d : BitVec 6) (a : BitVec 6) (b : BitVec 6) (look : BitVec 4) (wd : BitVec 2)
  /-- STC (R166). Store to the cluster window. -/
  | stc (d : BitVec 6) (a : BitVec 6) (b : BitVec 6) (wd : BitVec 2)
  /-- LDD (R166). Long-latency load from the die scratchpad. -/
  | ldd (d : BitVec 6) (a : BitVec 6) (b : BitVec 6) (look : BitVec 4) (wd : BitVec 2)
  /-- STD (R166). Store to the die scratchpad. -/
  | std (d : BitVec 6) (a : BitVec 6) (b : BitVec 6) (wd : BitVec 2)
  /-- GLQ (R170). Enqueues one global load per executing lane as one entry of a load queue. -/
  | glq (q : BitVec 1) (wd : BitVec 2) (c : BitVec 4) (a : BitVec 6) (x : BitVec 1)
  /-- GSQ (R174). Enqueues one asynchronous global store per executing lane. -/
  | gsq (wd : BitVec 2) (c : BitVec 4) (a : BitVec 6) (d : BitVec 6) (x : BitVec 1)
  /-- WAITQ (R172). Waits until the n oldest queue entries are ready and sets the coverage count. -/
  | waitq (q : BitVec 1) (n : BitVec 5)
  /-- POPQ (R173). Removes the oldest queue entry and writes its data, decrementing the coverage count. -/
  | popq (q : BitVec 1) (wd : BitVec 2) (d : BitVec 6)
  /-- ATOM (R176). Read-modify-write per executing lane in lane order, optionally returning old values to a queue. -/
  | atom (op : BitVec 4) (wd : BitVec 1) (rq : BitVec 2) (sp : BitVec 5) (a : BitVec 6) (b : BitVec 6)
  /-- ATOM_SC (R177). Atomic that first takes a sequencer ticket per lane and is performed in ticket order. -/
  | atomSc (op : BitVec 4) (wd : BitVec 1) (rq : BitVec 2) (dom : BitVec 1) (c : BitVec 4) (a : BitVec 6) (b : BitVec 6)
  /-- BIND (R181). Binds a region to a synchronisation object or dissolves the binding. -/
  | bind (c : BitVec 4) (o : BitVec 4) (a : BitVec 6) (unb : BitVec 1)
  /-- ACQ (R182). Reads an object's release count atomically, making covered writes visible to later accesses. -/
  | acq (d : BitVec 6) (o : BitVec 4) (a : BitVec 6) (scope : BitVec 3)
  /-- REL (R182). Waits for covered writes and increments the object's release count. -/
  | rel (o : BitVec 4) (a : BitVec 6) (scope : BitVec 3)
  /-- FENCE (R179). Orders the gang's LS and FB accesses at the named scope. -/
  | fence (scope : BitVec 3)
  /-- FENCE_X (R180). Orders accesses on from-paths before accesses on to-paths at the named scope. -/
  | fenceX (scope : BitVec 3) (src : BitVec 5) (dst : BitVec 5)
  /-- MPOST (R236). Posts a 16-byte request record to the workgroup's Collie mailbox. -/
  | mpost (d : BitVec 6)
  /-- CMOV (R185). Copies a capability with its valid bit and seal. -/
  | cmov (d : BitVec 4) (a : BitVec 4)
  /-- CSETB (R185). Narrows a capability's bounds. -/
  | csetb (d : BitVec 4) (a : BitVec 4) (off : BitVec 6) (len : BitVec 6)
  /-- CANDP (R185). Narrows a capability's permissions. -/
  | candp (d : BitVec 4) (a : BitVec 4) (perm : BitVec 5)
  /-- CSEAL (R186). Seals a capability with a sealing key's type. -/
  | cseal (d : BitVec 4) (a : BitVec 4) (k : BitVec 4)
  /-- CUNSEAL (R186). Unseals a capability with a matching key. -/
  | cunseal (d : BitVec 4) (a : BitVec 4) (k : BitVec 4)
  /-- CGET (R187). Writes one field of a capability to a scalar. -/
  | cget (d : BitVec 6) (a : BitVec 4) (f : BitVec 3)
  /-- CLDC (R188). Loads a capability from a tagged 16-byte unit, stalling until it arrives. -/
  | cldc (d : BitVec 4) (c : BitVec 4) (a : BitVec 6)
  /-- CSTC (R188). Stores a capability to a 16-byte unit and sets its tag. -/
  | cstc (d : BitVec 4) (c : BitVec 4) (a : BitVec 6)
  /-- KGW (R259). Writes the warp's skein geometry. -/
  | kgw (pc : BitVec 2) (qc : BitVec 2) (g : BitVec 5) (sa : BitVec 1) (sb : BitVec 1) (stride : BitVec 7)
  /-- KGW_RD (R259). Reads the geometry, a pair count or the overflow record into a scalar. -/
  | kgwRd (sel : BitVec 3) (d : BitVec 6)
  /-- KPACK (R260). Places one element from each executing lane into a skein. -/
  | kpack (k : BitVec 3) (a : BitVec 6) (mode : BitVec 2) (role : BitVec 1) (acc : BitVec 1) (base : BitVec 7)
  /-- KEXT (R261). Extracts one skein coefficient into each executing lane. -/
  | kext (d : BitVec 6) (k : BitVec 3) (pr : BitVec 1) (mode : BitVec 2) (sel : BitVec 2) (base : BitVec 8)
  /-- KMUL (R262). Multiplies two skeins on a bobbin into a pair. -/
  | kmul (d : BitVec 3) (a : BitVec 3) (b : BitVec 3)
  /-- KMAC (R262). Multiplies two skeins on a bobbin and adds the product to a pair. -/
  | kmac (d : BitVec 3) (a : BitVec 3) (b : BitVec 3)
  /-- KADD (R263). Adds skeins coefficient by coefficient. -/
  | kadd (d : BitVec 3) (a : BitVec 3) (b : BitVec 3) (pr : BitVec 1) (sel : BitVec 2)
  /-- KSUB (R263). Subtracts skeins coefficient by coefficient. -/
  | ksub (d : BitVec 3) (a : BitVec 3) (b : BitVec 3) (pr : BitVec 1) (sel : BitVec 2)
  /-- KSHL (R263). Moves coefficients up by m slots. -/
  | kshl (d : BitVec 3) (a : BitVec 3) (pr : BitVec 1) (sel : BitVec 2) (m : BitVec 8)
  /-- KSHR (R263). Moves coefficients down by m slots. -/
  | kshr (d : BitVec 3) (a : BitVec 3) (pr : BitVec 1) (sel : BitVec 2) (m : BitVec 8)
  /-- KMOV (R264). Copies or zeroes a skein or pair bit for bit. -/
  | kmov (d : BitVec 3) (a : BitVec 3) (pr : BitVec 1) (zero : BitVec 1)
  /-- KLD (R265). Loads a skein or pair from memory, stalling until it arrives. -/
  | kld (k : BitVec 3) (pr : BitVec 1) (sp : BitVec 5) (a : BitVec 6)
  /-- KST (R265). Stores a skein or pair to memory. -/
  | kst (k : BitVec 3) (pr : BitVec 1) (sp : BitVec 5) (a : BitVec 6)
  /-- TMMA (R274). Issues a paired 256 × 256 tile product on both cores of the pair. -/
  | tmma (a : BitVec 6) (b : BitVec 6) (grp : BitVec 1) (fresh : BitVec 1)
  /-- TMMA_S (R274). Issues a single-core 128 × 256 tile product. -/
  | tmmaS (a : BitVec 6) (b : BitVec 6) (grp : BitVec 1) (fresh : BitVec 1)
  /-- TMMA_RESUME (R282). Restarts the warp's stopped tile operation at the kstep count. -/
  | tmmaResume (a : BitVec 6) (b : BitVec 6)
  /-- TWAIT (R283). Stalls until at most n tile words of the warp are incomplete, entering the guard handler for a stopped one. -/
  | twait (n : BitVec 2)
  /-- TZERO (R284). Zeroes, maps afresh or releases an accumulator name. -/
  | tzero (d : BitVec 4) (form : BitVec 1) (span : BitVec 1) (fresh : BitVec 1) (rel : BitVec 1)
  /-- TLDA (R285). Loads one tile of a name from scratch. -/
  | tlda (a : BitVec 4) (h : BitVec 1) (fmt : BitVec 1) (sp : BitVec 2) (off : BitVec 6) (st : BitVec 6)
  /-- TSTA (R285). Stores one tile of a name to scratch. -/
  | tsta (a : BitVec 4) (h : BitVec 1) (fmt : BitVec 1) (sp : BitVec 2) (off : BitVec 6) (st : BitVec 6)
  /-- SCACC (R286). Applies scale-memory scales to an integer tile and accumulates into an AF32 tile. -/
  | scacc (d : BitVec 4) (a : BitVec 4) (sm : BitVec 2) (fresh : BitVec 1) (off : BitVec 6)
  /-- AXR (R287). Reads single accumulator elements lane by lane. -/
  | axr (d : BitVec 6) (n : BitVec 4) (b : BitVec 6) (part : BitVec 1)
  /-- AXW (R287). Writes single accumulator elements lane by lane. -/
  | axw (a : BitVec 6) (n : BitVec 4) (b : BitVec 6) (part : BitVec 1)
  /-- TDESC (R288). Checks a tile operand descriptor and writes the result code to a scalar. -/
  | tdesc (d : BitVec 6) (a : BitVec 6)
  /-- CPY (R239). Checks a copy descriptor and starts a copy to a local space. -/
  | cpy (q : BitVec 2)
  /-- CPY_SC (R239). Starts a copy into scale memory. -/
  | cpySc (q : BitVec 2)
  /-- CPY_X (R239). Starts a copy into a named die's scratchpad. -/
  | cpyX (q : BitVec 2)
  /-- CPY_R (R239). Starts a copy to memory of another device of the domain. -/
  | cpyR (q : BitVec 2)
  /-- ARRIVE (R247). Adds one member arrival at a named barrier from the Collie. -/
  | arrive (b : BitVec 4)
  /-- MBX (R237). Takes the oldest mailbox record if any and sets a predicate. -/
  | mbx (q : BitVec 3) (x : BitVec 3)
  /-- MBXW (R237). Parks until the mailbox holds a record and takes it. -/
  | mbxw (q : BitVec 3)
  /-- CWAIT (R242). Parks the Collie thread until at most n of its copies are unretired. -/
  | cwait (n : BitVec 6)
  /-- CSTAT (R242). Writes a copy or mailbox status value to a scalar. -/
  | cstat (d : BitVec 6) (sel : BitVec 3)
  /-- LAUNCH (R302). Submits a launch packet, parking while the queue and ring are full. -/
  | launch (d : BitVec 6) (sp : BitVec 5) (a : BitVec 6)
  /-- LAUNCH_NB (R302). Submits a launch packet, or returns 0x80000000 when the queue and ring are full. -/
  | launchNb (d : BitVec 6) (sp : BitVec 5) (a : BitVec 6)
  /-- JOIN (R303). Parks the gang until the named child grids retire and writes a status. -/
  | join (d : BitVec 6) (a : BitVec 6)
  /-- POST (R307). Sends a task record to its address-hashed home queue. -/
  | post (a : BitVec 6)
  /-- FORK (R309). Pushes a task record onto the issuing core's deque. -/
  | fork (a : BitVec 6)
  /-- JOINT (R309). Parks the gang until every task the warp forked has ended. -/
  | joint
  /-- BEQUEATH (R318). Reserves and holds an estate deposit per executing lane, performed by the next EXIT. -/
  | bequeath (f : BitVec 6) (n : BitVec 3) (w : BitVec 3) (k : BitVec 6)
  /-- ESTAT (R326). Writes each executing lane's inheritance status, optionally clearing it. -/
  | estat (d : BitVec 6) (clr : BitVec 1)
  /-- ECLAIM (R327). Claims an estate at run time into a pending register block. -/
  | eclaim (f : BitVec 6) (n : BitVec 3) (w : BitVec 3) (k : BitVec 6) (l : BitVec 3) (slot : BitVec 2)
  /-- ERELEASE (R328). Turns every unclaimed estate of a lineage into a stray. -/
  | erelease (l : BitVec 3)
  /-- ERELEASE_KEY (R328). Turns the estate of each executing lane's key into a stray. -/
  | ereleaseKey (l : BitVec 3) (k : BitVec 6)
  /-- EPROBE (R329). Writes a snapshot of the estate a lane's key names. -/
  | eprobe (d : BitVec 6) (k : BitVec 6) (l : BitVec 3)
  /-- BAR_INIT (R247). Sets a barrier's count, completing the phase at once if arrivals already reach it. -/
  | barInit (b : BitVec 4) (n : BitVec 12)
  /-- BAR_ARRIVE (R247). Marks the issuing slices at a barrier without parking. -/
  | barArrive (b : BitVec 4)
  /-- BAR_WAIT (R247). Marks (unless pw) and parks until the barrier's phase completes. -/
  | barWait (b : BitVec 4) (pw : BitVec 1)
  /-- TRAP (R225). Raises a task-terminating SOFTWARE trap when a lane executes. -/
  | trap (code : BitVec 12)
  /-- RDSR (R226). Reads a special register into every executing lane. -/
  | rdsr (d : BitVec 6) (sr : BitVec 8)
  /-- WRSR (R226). Writes a special register from the lowest executing lane. -/
  | wrsr (a : BitVec 6) (sr : BitVec 8)
  /-- EMUGET (R227). Reads an operand-window entry into a handler register. -/
  | emuget (d : BitVec 6) (o : BitVec 3)
  /-- EMUPUT (R227). Writes a handler register into an operand-window entry. -/
  | emuput (o : BitVec 3) (a : BitVec 6)
  /-- EMURD (R228). Reads caller state of the frame below. -/
  | emurd (d : BitVec 6) (kind : BitVec 3) (idx : BitVec 6) (part : BitVec 4)
  /-- EMUWR (R228). Writes caller state of the frame below. -/
  | emuwr (a : BitVec 6) (kind : BitVec 3) (idx : BitVec 6) (part : BitVec 4)
  /-- EMURET (R229). Closes the emulation frame, optionally writing o3, and resumes the caller. -/
  | emuret (nc : BitVec 1) (at_ : BitVec 2) (a : BitVec 6)
  /-- DFMA (R57). Architected FP64 fused multiply-add, fused off on the T9 and always emulated. -/
  | dfma (d : BitVec 6) (a : BitVec 6) (b : BitVec 6) (c : BitVec 6)
  /-- DOP (R57). Architected FP64 add, subtract, multiply, min or max, fused off on the T9. -/
  | dop (d : BitVec 6) (a : BitVec 6) (b : BitVec 6) (fn : BitVec 6)
  /-- DCMP (R57). Architected FP64 compare into a predicate, fused off on the T9. -/
  | dcmp (d : BitVec 6) (a : BitVec 6) (b : BitVec 6) (fn : BitVec 6)
  /-- DCVT (R57). Architected FP64 conversion, fused off on the T9. -/
  | dcvt (d : BitVec 6) (a : BitVec 6) (dir : BitVec 2)
  /-- END_OF_TEXT (R45). A fetched word of major 0x00 raises the task-terminating END-OF-TEXT trap. -/
  | endOfText (word : BitVec 32)
  /-- RESERVED_WORD (R45). A fetched word of major 0xFF raises the task-terminating RESERVED-WORD trap. -/
  | reservedWord (word : BitVec 32)
  /-- EMULATION_ENTRY (R221). After pending results arrive, the gang saves a frame and enters the emulation handler. -/
  | emulationEntry (word : BitVec 32) (reason : Nat)
  /-- COLLIE_HANDLER_ENTRY (R234). An undefined word on a Collie thread enters the Collie handler. -/
  | collieHandlerEntry (word : BitVec 32) (reason : Nat)
  /-- GUARD_HANDLER_ENTRY (R223). A GUARD-OVERFLOW with a guard handler enters it at the skein word or TWAIT. -/
  | guardHandlerEntry (word : BitVec 32)
  /-- MC_VECTOR_ENTRY (R378). A controller event saves epc, eword and etrap and continues at its vector. -/
  | mcVectorEntry (entry : Nat) (word : BitVec 32) (etrap : Nat) (reason : Nat)
  /-- RUN_START (R87). Each cycle every free port begins a run for the best-ranked ready gang. -/
  | runStart (core : Nat)
  /-- RESULT_ARRIVAL (R34). A pending long-latency result arrives and its destination stops being pending. -/
  | resultArrival (who : Agent) (id : Nat)
  /-- WINDOW_SPILL_FILL_DONE (R42). A CALL's spill or RET's fill completes and the slice continues. -/
  | windowSpillFillDone (core : Nat) (slot : Nat) (lead : Nat)
  /-- YIELD_WAKE (R157). A yielded gang becomes ready after another run start or 64 cycles. -/
  | yieldWake (core : Nat) (slot : Nat) (lead : Nat)
  /-- MONITOR_WRITE_WAKE (R160). A write to a monitored line wakes the parked gang or thread. -/
  | monitorWriteWake (who : Agent)
  /-- WAITMON_TIMEOUT (R159). The WAITMON time limit expires and the gang wakes. -/
  | waitmonTimeout (who : Agent)
  /-- SPURIOUS_WAKE (R160). A parked WAITMON wakes without cause. -/
  | spuriousWake (who : Agent)
  /-- QUEUE_DATA_ARRIVAL (R171). A load-queue entry's data arrive and the entry becomes ready. -/
  | queueDataArrival (core : Nat) (slot : Nat) (q : Nat) (idx : Nat)
  /-- STORE_PERFORM (R391). An asynchronous store or atomic is performed at its home or level. -/
  | storePerform (id : Nat)
  /-- FB_REMOTE_ACCESS_ARRIVAL (R16). A store, atomic or load arriving from another device is performed under its mapped owner tag. -/
  | fbRemoteAccessArrival (src : Nat) (owner : Nat) (acc : RemoteAccess)
  /-- FB_ACKNOWLEDGEMENT (R175). A target device acknowledges an FB store or atomic. -/
  | fbAcknowledgement (id : Nat)
  /-- FB_GRANT (R375). A receiving port returns reservation-window grants to a sender. -/
  | fbGrant (dst : Nat) (flits : Nat)
  /-- FB_ACCESS_TIMEOUT (R376). An FB access waits 2^24 cycles for acknowledgement and is ended as failed. -/
  | fbAccessTimeout (id : Nat)
  /-- DOMAIN_LINK_DOWN (R376). A link toward a device goes down and fails to retrain within 2^20 cycles, failing outstanding accesses. -/
  | domainLinkDown (device : Nat)
  /-- TRAP_REPORT_WRITE (R211). Once the task has ended and the ring has room, the trap report is written. -/
  | trapReportWrite (idx : Nat)
  /-- VERSION_COMMIT (R215). A task's version commits once its warps end and its events are performed, or when it outgrows its quota and is oldest. -/
  | versionCommit (wg : Nat)
  /-- WORKGROUP_SAVE (R218). A workgroup whose warps and Collie have all stopped is saved and its resources released. -/
  | workgroupSave (wg : Nat)
  /-- PREEMPTION_DEADLINE (R219). The cooperative deadline expires with unsaved workgroups and the partition is reset. -/
  | preemptionDeadline (part : Nat)
  /-- URGENT_SCAN_OUT (R220). A gated unit's state is scanned out when the urgent context claims its storage. -/
  | urgentScanOut (core : Nat)
  /-- TRANSLATION_FAULT_RECORD (R344). A failed translation parks its access and appends a record when the fault queue has room. -/
  | translationFaultRecord (idx : Nat)
  /-- PACKET_ACCEPT (R294). The distributor accepts the head packet of a queue, checking it, loading the context and assigning a lineage. -/
  | packetAccept (die : Nat) (part : Nat)
  /-- WORKGROUP_PLACEMENT (R298). The distributor places an unstarted workgroup on a core with free resources. -/
  | workgroupPlacement (die : Nat)
  /-- WARP_BIRTH (R75). A placed workgroup's warps are born, receiving arguments and issuing inheritance claims. -/
  | warpBirth (wg : Nat)
  /-- WARP_RELEASE (R77). A warp whose slices have ended and results arrived releases its slot and rows. -/
  | warpRelease (core : Nat) (slot : Nat)
  /-- DIE_STEAL_REQUEST (R299). A dry distributor's steal message makes the victim die cede half its unstarted workgroups. -/
  | dieStealRequest (ctx : Nat) (lineage : Nat) (thief : Nat)
  /-- DIE_STEAL_REPLY (R299). The ceded workgroups, or an empty answer, reach the thief die. -/
  | dieStealReply (idx : Nat)
  /-- WORKGROUP_SUSPEND (R304). Suspendable workgroups are saved to make room for waiting work. -/
  | workgroupSuspend (wg : Nat)
  /-- WORKGROUP_RESTORE (R304). A suspended workgroup whose join is satisfied is restored. -/
  | workgroupRestore (wg : Nat)
  /-- TASK_START (R308). A core's queue engine starts a queued or forked task as a one-warp workgroup. -/
  | taskStart (core : Nat) (part : Nat)
  /-- TASK_STEAL_REQUEST (R310). A victim's queue engine answers a steal request from its deque's tail. -/
  | taskStealRequest (thief : Nat) (part : Nat)
  /-- TASK_STEAL_REPLY (R310). A stolen record or empty answer reaches the thief core. -/
  | taskStealReply (idx : Nat)
  /-- STEAL_BACKOFF_EXPIRY (R310). The thief's backoff wait after an empty answer expires. -/
  | stealBackoffExpiry (core : Nat) (part : Nat)
  /-- GRID_RETIRE (R20). A grid retires once its items end and writes are performed, settling energy and writing its completion word. -/
  | gridRetire (ctx : Nat) (lineage : Nat)
  /-- ENERGY_REFILL (R301). Every 2^20 cycles each partition's balance rises by its allowance up to its cap. -/
  | energyRefill
  /-- COPY_UNIT_MOVE (R240). The copy unit reads, decompresses, tag-checks and writes a copy's 16-byte units. -/
  | copyUnitMove (id : Nat)
  /-- COPY_COMPLETE (R240). A copy's destination writes are performed; it performs its flag and barrier arrival. -/
  | copyComplete (id : Nat)
  /-- TILE_OP_START (R277). A queued tile operation starts once earlier sharing words finish and bobbins are free. -/
  | tileOpStart (id : Nat)
  /-- TILE_DRAIN (R275). A tile operation drains its slot sums into the accumulators, or stops on overflow. -/
  | tileDrain (id : Nat)
  /-- TILE_OP_COMPLETE (R277). A tile operation's final drain is written and it completes. -/
  | tileOpComplete (id : Nat)
  /-- ESTATE_ARRIVAL (R323). A claimed estate's values arrive on ES and clear the pending bits. -/
  | estateArrival (id : Nat)
  /-- ESTATE_EXPIRY (R330). An estate's age reaches its expiry and it becomes a stray. -/
  | estateExpiry (ctx : Nat) (key : Nat)
  /-- STRAY_RECORD_WRITE (R331). A stray's record is written to the ring when it has room, then the tail and a report. -/
  | strayRecordWrite (ctx : Nat)
  /-- LQDOOR (R366). A doorbell write submits a packet to a die's launch queue. -/
  | lqdoor (fn : Nat) (die : Nat) (value : BitVec 64)
  /-- FQANSWER (R344). The driver's answer retries a parked access or declares it unresolvable. -/
  | fqanswer (fn : Nat) (seq : Nat) (unresolvable : Bool)
  /-- PSTAT_LOST_CLEAR (R362). Writing 1 to PSTAT bit 3 clears the lost flag. -/
  | pstatLostClear (fn : Nat)
  /-- REGISTER_WRITE (R362). A write to a BAR0 register with no behaviour of its own. -/
  | registerWrite (fn : Nat) (off : Nat) (value : BitVec 64)
  /-- APERTURE_ACCESS (R361). A host BAR2 access to device memory under the function's owner tag. -/
  | apertureAccess (fn : Nat) (off : Nat) (write : Bool) (data : List (BitVec 8))
  /-- PREEMPT (R218). Command 1 requests cooperative pre-emption of a context. -/
  | preempt (fn : Nat)
  /-- URGENT (R220). Command 2 stops a context's units urgently with state in place. -/
  | urgent (fn : Nat)
  /-- RESUME (R367). Command 3 reloads a context's entry and lets it run. -/
  | resume (fn : Nat)
  /-- INVAL (R343). Command 4 invalidates translations of a context and range. -/
  | inval (fn : Nat)
  /-- REPLACE (R356). Command 5 swaps a kernel table entry's text and descriptor. -/
  | replace (fn : Nat)
  /-- CTXKILL (R367). Command 6 ends a context's tasks, destroys its estates and unloads it. -/
  | ctxkill (fn : Nat)
  /-- LAYOUT (R369). Command 16 installs a partition layout image. -/
  | layout (fn : Nat)
  /-- CARVE (R340). Command 17 changes a die's carve-out and shares. -/
  | carve (fn : Nat)
  /-- CARVE_SWITCH (R340). After write-back and drain, the new carve-out and limits take effect. -/
  | carveSwitch
  /-- PRESET (R372). Command 18 resets a partition. -/
  | preset (fn : Nat)
  /-- DOMMAP (R374). Command 19 installs the domain map. -/
  | dommap (fn : Nat)
  /-- COMMAND_COMPLETE (R367). A command that waited finishes and posts event 1 with its status. -/
  | commandComplete (fn : Nat)
  /-- REPLACE_RETIRED (R356). Every grid accepted under the old pair has retired and event 9 is posted. -/
  | replaceRetired (idx : Nat)
  /-- EVENT_RING_WRITE (R368). An event record is written to the event ring when it has room and MSI-X vector 0 raised. -/
  | eventRingWrite (fn : Nat)
  /-- PARTITION_RESET (R372). A partition is stopped, its versions and estates discarded, its keys erased and scrub begun. -/
  | partitionReset (part : Nat) (cause : Nat)
  /-- FUNCTION_LEVEL_RESET (R384). An FLR of a virtual function resets its partition with cause 5. -/
  | functionLevelReset (vf : Nat)
  /-- VF_DISABLE (R372). Clearing VF Enable resets every partition in increasing order. -/
  | vfDisable
  /-- MEMORY_ERROR (R349). An uncorrectable error resets the owning or accessing partition. -/
  | memoryError (pa : Nat) (accessor : Nat)
  /-- SCRUB_COMPLETE (R350). Every line of the partition is scrubbed or written; scrubdone is set and event 7 posted. -/
  | scrubComplete (part : Nat)
  /-- IDE_KM (R373). IDE key programming within an SPDM session sets stream key sets. -/
  | ideKm (stream : Nat) (rx : Bool) (keySet : Nat) (key : BitVec 256)
  /-- ERESET (R382). A write to ERESET requests an engine reset. -/
  | ereset (unit : Nat) (index : Nat)
  /-- ENGINE_RESET (R384). At its idle point the engine is reset. -/
  | engineReset
  /-- ENGINE_ACTIVATION (R383). At its idle point an engine loads its new firmware component and MR2 is extended. -/
  | engineActivation (component : Nat) (ok : Bool)
  /-- PACKAGE_COLD_RESET (R384). Power-on or PERST# resets everything except flash, then boot and self-test. -/
  | packageColdReset
  /-- WARM (R384). The controller command WARM resets the package except flash, fuses and DRAM cells. -/
  | warm
  /-- SELF_TEST_COMPLETE (R385). Self-test finishes, MR4 is extended, and compute leaves reset or enters the safe state. -/
  | selfTestComplete (failing : List Nat)
  /-- CONTROLLER_RESET (R384). The management controller resets, boots its firmware and re-extends MR0–MR4. -/
  | controllerReset
  /-- WATCHDOG (R378). 2^24 cycles pass without a WRSR to mwdog. -/
  | watchdog
  /-- TELEMETRY_REFRESH (R381). Every 2^20 cycles the 25 telemetry records are refreshed. -/
  | telemetryRefresh
  /-- GETTELEM (R381). An MCTP request returns a telemetry record. -/
  | gettelem (index : Nat)
  /-- GET_VERSION (R380). SPDM request answered with the supported version. -/
  | getVersion (req : List (BitVec 8))
  /-- GET_CAPABILITIES (R380). SPDM request answered with the responder's capabilities. -/
  | getCapabilities (req : List (BitVec 8))
  /-- NEGOTIATE_ALGORITHMS (R380). SPDM request answered with the selected algorithms. -/
  | negotiateAlgorithms (req : List (BitVec 8))
  /-- GET_CERTIFICATE (R380). SPDM request answered with the slot 0 certificate chain. -/
  | getCertificate (req : List (BitVec 8))
  /-- CHALLENGE (R380). SPDM request answered with a signed CHALLENGE_AUTH. -/
  | challenge (req : List (BitVec 8))
  /-- GET_MEASUREMENTS (R380). SPDM request answered with signed measurement blocks. -/
  | getMeasurements (req : List (BitVec 8)) (index : Nat)
  /-- KEY_EXCHANGE (R380). SPDM request opening a secured session. -/
  | keyExchange (req : List (BitVec 8))
  /-- HEARTBEAT (R380). SPDM heartbeat within a session. -/
  | heartbeat (session : Nat)
  /-- RELEASE (R377). Vendor request installing a context's tag key, or refused with STALE-LAYOUT. -/
  | release (session : Nat) (part : Nat) (ctx : Nat) (gen : Nat) (key : BitVec 256)
  /-- REQUEST_UPDATE (R383). PLDM request entering update mode, or ALREADY_IN_UPDATE_MODE. -/
  | requestUpdate (session : Nat)
  /-- VERIFY_COMPLETE (R383). PLDM verification of the written image's signature and security version. -/
  | verifyComplete (signatureOk : Bool) (svn : Nat)
  /-- ACTIVATE_FIRMWARE (R383). PLDM request marking the inactive bank current and setting pend. -/
  | activateFirmware
  /-- REQUEST_DELIVERY (R388). The MCTP layer writes a request into RX and then RXLEN. -/
  | requestDelivery (req : List (BitVec 8))
  /-- MOVE (R387). Message-unit command copying bytes. -/
  | move (src : Nat) (dst : Nat) (len : Nat)
  /-- HASH (R387). Message-unit command writing a SHA-256 digest. -/
  | hash (src : Nat) (dst : Nat) (len : Nat)
  /-- RAND (R387). Message-unit command writing random bytes. -/
  | rand (dst : Nat) (len : Nat)
  /-- MRREAD (R387). Message-unit command writing a measurement register. -/
  | mrread (src : Nat) (dst : Nat)
  /-- MU_RESET (R387). Message-unit command emptying transcript slots. -/
  | muReset (mask : Nat)
  /-- ABSORB (R387). Message-unit command appending bytes to transcript slots. -/
  | absorb (mask : Nat) (src : Nat) (len : Nat)
  /-- COPY (R387). Message-unit command copying one transcript slot to others. -/
  | copy (mask : Nat) (src : Nat)
  /-- SIGN (R387). Message-unit command writing an SLH-DSA signature of a slot's signing message. -/
  | sign (sctx : Bool) (src : Nat) (dst : Nat)
  /-- SEND (R387). Message-unit command absorbing and transmitting a reply and clearing RXLEN. -/
  | send (mask : Nat) (src : Nat) (len : Nat)
  /-- MUSYNC (R388). A load of MUSYNC waits for earlier commands and returns and clears the failure flag. -/
  | musync (d : BitVec 6)
  /-- ACCESS_DATA_ARRIVAL (R265). The data of a KLD, a CLDC or a Collie atomic's old value arrive and the stalled gang or thread continues. -/
  | accessDataArrival (who : Agent)
  /-- SC_TICKET_REQUEST (R177). A ticket request for an ATOM.SC with dom = 1 reaches the domain sequencer device, which assigns tickets in arrival order. -/
  | scTicketRequest (id : Nat)
  /-- MU_COMMAND_COMPLETE (R388). A message-unit command, such as a SIGN of about 2^22 cycles, finishes and the next queued command begins. -/
  | muCommandComplete
  /-- IMAGE_TRANSFER (R383). PLDM firmware image data arrive within the session and are written to the bank not booted. -/
  | imageTransfer (off : Nat) (data : List (BitVec 8))
  /-- COMPLETION_ARRIVAL (R373). A completion TLP for a non-posted request the device sent arrives and is decrypted with the key set it names. -/
  | completionArrival (tag : Nat) (keySet : Nat)
  /-- COMPLETION_TIMEOUT (R373). A non-posted request the device sent reaches its completion timeout, which may end the life of a former receive key set. -/
  | completionTimeout (tag : Nat)
deriving DecidableEq, Repr

/-- Something begun that is taken further: an access is performed, asks for its ticket or is answered; a copy moves a unit or
completes; a tile word starts, drains or completes; a version commits. -/
inductive Due where
  | access (id : Nat)
  | ticket (id : Nat)
  | answer (id : Nat)
  | unit (id : Nat)
  | copy (id : Nat)
  | start (id : Nat)
  | drain (id : Nat)
  | complete (id : Nat)
  | commit (wg : Nat)
deriving DecidableEq, Repr, Inhabited

/-- One act of the machine: an agent takes its next word, one of the other steps takes place, or something due is taken further. -/
inductive Act where
  | word (a : Agent)
  | event (i : Instr)
  | due (d : Due)
deriving DecidableEq, Repr, Inhabited

/-- A turn: some cycles pass, then one act takes place. DEDUCED (log entry 119). -/
structure Turn where
  cycles : Nat
  act : Act
deriving DecidableEq, Repr, Inhabited

end Sys2Proof
end

