-- ==== Sys2Proof/Config.lean ====
section
/-!
DEFINITION. What one T9 package fixes (R1, R13, R15, R49, R73), and the free values: the values the manual leaves open.
A free value is an opaque constant without a body, so no proof can see what it is.
-/
namespace Sys2Proof.Config

/-- Compute dies of the package (R1, R13). -/
abbrev dies : Nat := 4
/-- Cores of one die (R13). -/
abbrev coresPerDie : Nat := 48
/-- Cores of the package (R13). -/
abbrev cores : Nat := 192
/-- Warp slots of a core (R76). -/
abbrev warpSlots : Nat := 80
/-- Register rows of a core (R76). -/
abbrev registerRows : Nat := 8192
/-- Scratchpad rows of 256 bytes of a core (R76). -/
abbrev scratchRows : Nat := 4096
/-- Barrier entries of a core (R76). -/
abbrev barrierEntries : Nat := 1280
/-- Issue ports of a core (R15). -/
abbrev ports : Nat := 4
/-- Longest run in words (R33). -/
abbrev runLimit : Nat := 24
/-- Starvation count at which a gang is boosted (R88). -/
abbrev boostAt : Nat := 64
/-- Entries of a core's line-monitor table (R161). -/
abbrev monitorEntries : Nat := 64
/-- Lines a task may write through versioned capabilities (R216). -/
abbrev versionQuota : Nat := 4096
/-- Entries of a bind table (R181). -/
abbrev bindEntries : Nat := 1024
/-- Flits of a reservation window (R375). -/
abbrev windowFlits : Nat := 256
/-- Entries of a load queue (R170). -/
abbrev queueEntries : Nat := 16
/-- Majors fused off on this device (R49). -/
abbrev fusedOff : List Nat := [0xF8, 0xF9, 0xFA, 0xFB]
/-- Translation-cache entries of a core and of a die (R343). -/
abbrev tlbCore : Nat := 256
abbrev tlbDie : Nat := 4096

/-- FREE VALUE. A 32-bit value the manual calls undefined: temporaries of lanes that did not write them (R36), lane
registers above the window after RET (R42), a handler's w0 to w43 (R221). The first argument is the counter
State.sched.free at the moment the value is needed, the second says which of several values of that moment. DESIGN CHOICE (log entry 11). -/
opaque freeWord : Nat → Nat → BitVec 32

/-- FREE VALUE. Bytes whose content the manual does not give: random bytes (R387), what a device answers. Indexed as
freeWord. -/
opaque freeByte : Nat → Nat → BitVec 8

/-- FREE VALUE. What a location reads as while it holds noise (R346, R348, R350): the first argument says under which owner tag
and after how many changes of its key, the second is the location's key. DEDUCED (log entry 13). -/
opaque noiseByte : Nat → Nat → BitVec 8

/-- FREE VALUE. The IDE stream that serves a function (R373), which the manual's registers do not give. DESIGN CHOICE (log entry 100). -/
opaque ideStream : Nat → Nat

/-- FREE VALUE. The domain port that leads to a device (R376), for which the manual gives no table. DESIGN CHOICE (log entry 99). -/
opaque portOf : Nat → Nat

/-- FREE VALUE. Bytes of installed second-tier memory (R336): from the bottom upward, up to 1.5 TiB (installed bounds it). -/
opaque secondTier : Nat

/-- FREE VALUE. The schedule: which turn is the n-th where State.sched.agenda names none. It stands for every choice of
the issue ports, of the engines' timing and of the outside world (doorbells, register writes, messages, resets); a turn
whose act is not enabled changes nothing. So a statement about the machine holds for every order of its steps. -/
opaque schedule : Nat → Turn

/-- FREE VALUE. How many turns of the schedule pass before the oldest access that can be performed is, in round n (R207): some
finite number, so that every access is performed within finite time. DESIGN CHOICE (log entry 128). -/
opaque fairGap : Nat → Nat

/-- What a live-state entry lists (R69): the offset of its word in TEXT, masks of registers by kind, ranges of group bytes
as offset and length. -/
structure LiveEntry where
  pc : Nat
  wmask : Nat
  smask : Nat
  pmask : Nat
  kmask : Nat
  cmask : Nat
  qmask : Nat
  amask : Nat
  ranges : List (Nat × Nat)
deriving DecidableEq, Repr, Inhabited

/-- FREE VALUE. Entry i of the LIVE section of the object whose TEXT stands at a code address (R69): the manual does not say
where the loaded section stands. DEDUCED (log entry 66). -/
opaque live : Nat → Nat → LiveEntry

/-- Where the loader has placed the Collie program at an offset of the COLLIE section of the kernel whose text is at an address, in
units of 256 bytes (R72): the descriptor does not say. -/
opaque colliePage : Nat → Nat → Nat

/-- FREE VALUE. A choice among several that the manual allows (which enabled act comes next, which of the unordered
units moves first). Indexed as freeWord; callers reduce it modulo the number of choices. -/
opaque freeChoice : Nat → Nat → Nat

/-- FREE VALUE. How many of the latest writes to a 16-byte unit a read overlooks, among those that no rule orders before it (R189,
R206): by the read, and the unit's key. Readers reduce it. DESIGN CHOICE (log entry 29). -/
opaque overlooked : Nat → Nat → Nat

/-- FREE VALUE. RSQRT on FP32 patterns: used where it lies within the bound of R138. DESIGN CHOICE (log entry 23). -/
opaque rsqrtCandidate : BitVec 32 → BitVec 32
/-- FREE VALUE. EXP2 on FP32 patterns, as rsqrtCandidate. -/
opaque exp2Candidate : BitVec 32 → BitVec 32
/-- FREE VALUE. LOG2 on FP32 patterns, as rsqrtCandidate. -/
opaque log2Candidate : BitVec 32 → BitVec 32
/-- FREE VALUE. SIN on FP32 patterns, as rsqrtCandidate. -/
opaque sinCandidate : BitVec 32 → BitVec 32
/-- FREE VALUE. COS on FP32 patterns, as rsqrtCandidate. -/
opaque cosCandidate : BitVec 32 → BitVec 32
/-- FREE VALUE. TANH on FP32 patterns, as rsqrtCandidate. -/
opaque tanhCandidate : BitVec 32 → BitVec 32
/-- FREE VALUE. SIGM on FP32 patterns, as rsqrtCandidate. -/
opaque sigmCandidate : BitVec 32 → BitVec 32

/-- FREE VALUE. The measured energy of a retired grid in microjoules (R301), by its lineage. -/
opaque measuredEnergy : Nat → Nat
/-- FREE VALUE. Byte i of the device's SLH-DSA signature of a digest under one of the two signing contexts (R387). DESIGN CHOICE (log entry 108). -/
opaque signatureByte : BitVec 256 → Bool → Nat → BitVec 8
/-- FREE VALUE. Byte i of the signature of KEY_EXCHANGE_RSP over a digest and of the verify data after it (R380). PRESUMED (log entry 95). -/
opaque exchangeByte : BitVec 256 → Nat → BitVec 8
/-- FREE VALUE. The SHA-256 digest of the boot ROM (R379). -/
opaque romDigest : BitVec 256
/-- FREE VALUE. The SHA-256 digest of the fuse record (R379). -/
opaque fuseDigest : BitVec 256
/-- FREE VALUE. The SHA-256 digest of the controller firmware of an image (R379), by the number of the image. -/
opaque firmwareDigest : Nat → BitVec 256
/-- FREE VALUE. The SHA-256 digest of an engine's firmware component (R379), by the numbers of image and component. -/
opaque componentDigest : Nat → Nat → BitVec 256
/-- FREE VALUE. The fused minimum security version (R383). -/
opaque fusedMinSvn : Nat
/-- FREE VALUE. A telemetry field the manual does not fix (power, temperature, throttling; R381): record index and refresh
count, byte offset. -/
opaque telemetryByte : Nat → Nat → Nat → BitVec 8

/-- FREE VALUE. The engine that a unit code of ERESET names (R382 gives no numbers): 0 core, 1 Collie, 2 pillow, 3 Kennel,
4 distributor, 5 copy unit, 6 memory channel, 7 fabric port, anything else the management controller. -/
opaque unitKind : Nat → Nat

/-- FREE VALUE. Memory channels beyond the one of each core, and fabric ports: the manual gives no numbers. DESIGN CHOICE (log entry 99). -/
opaque moreChannels : Nat
opaque fabricPorts : Nat

/-- The units of a kind of engine, numbered from 0 (R13, R383). -/
def unitCount (kind : Nat) : Nat :=
  match kind with
  | 4 => dies
  | 6 => cores + moreChannels
  | 7 => fabricPorts
  | _ => cores

end Sys2Proof.Config
end

