-- ==== Sys2Proof/Machine/Bits.lean ====
section
/-!
DEFINITION. Bit fields, sign extension, clamping and byte order: the helpers that every meaning shares. The machine is
little-endian throughout (R5).
-/
namespace Sys2Proof.Machine

/-- Bits lo + n - 1 down to lo of a natural number. -/
def field (x lo n : Nat) : Nat := x / 2 ^ lo % 2 ^ n

/-- The natural number x with bits lo + n - 1 down to lo replaced by the low n bits of v. -/
def setField (x lo n v : Nat) : Nat :=
  x / 2 ^ (lo + n) * 2 ^ (lo + n) + (v % 2 ^ n) * 2 ^ lo + x % 2 ^ lo

/-- The value of the low n bits of x as a two's-complement number. -/
def sext (x n : Nat) : Int :=
  if x % 2 ^ n < 2 ^ (n - 1) then (x % 2 ^ n : Nat) else (x % 2 ^ n : Nat) - (2 ^ n : Nat)

/-- v held to the range lo to hi. -/
def clampInt (lo hi v : Int) : Int := if v < lo then lo else if hi < v then hi else v

/-- The low 32 bits of an exact integer. -/
def word32 (v : Int) : BitVec 32 := BitVec.ofInt 32 v

/-- The n bytes of v, lowest first (R5). -/
def bytesOf (n v : Nat) : List (BitVec 8) :=
  match n with
  | 0 => []
  | k + 1 => BitVec.ofNat 8 v :: bytesOf k (v / 256)

/-- The number whose bytes, lowest first, are bs (R5). -/
def natOf : List (BitVec 8) → Nat
  | [] => 0
  | b :: bs => b.toNat + 256 * natOf bs

/-- The indices i below n at which the natural number m has bit i set, lowest first. -/
def bitsBelow (n m : Nat) : List Nat := (List.range n).filter fun i => m.testBit i

/-- The natural number whose set bits are the listed positions. -/
def maskOf (l : List Nat) : Nat := l.foldl (fun a i => a ||| 2 ^ i) 0

/-- Number of set bits among the low n. -/
def popcount (n m : Nat) : Nat := (bitsBelow n m).length

/-- Quotient rounded up. -/
def ceilDiv (a b : Nat) : Nat := (a + b - 1) / b

/-- The two halves of a 64-bit value, low word first. -/
def lo32 (v : BitVec 64) : BitVec 32 := v.setWidth 32
def hi32 (v : BitVec 64) : BitVec 32 := (v >>> 32).setWidth 32
/-- The 64-bit value with the given low and high words. -/
def pair64 (lo hi : BitVec 32) : BitVec 64 := BitVec.ofNat 64 (lo.toNat + hi.toNat * 2 ^ 32)

/-- Element k of e bits of a packed word (R92, R113). -/
def elem (x : BitVec 32) (e k : Nat) : Nat := field x.toNat (k * e) e

/-- The list with position i replaced, unchanged when i is out of range. -/
def setNth {α : Type} : List α → Nat → α → List α
  | [], _, _ => []
  | _ :: t, 0, v => v :: t
  | h :: t, n + 1, v => h :: setNth t n v

end Sys2Proof.Machine
end

