-- ==== Sys2Proof/Machine/Crypto.lean ====
section
/-!
DEFINITION. SHA-256 and HMAC-SHA-256 (R245, R379, R387), CRC32C (R243), and the four block-compression methods of R244.
-/
namespace Sys2Proof.Machine

/-! ### SHA-256 -/

/-- The greatest `v` whose power `e` is at most `x`, found bit by bit below `acc + 2 ^ n`. -/
def rootFrom (e x : Nat) : Nat → Nat → Nat
  | 0, acc => acc
  | n + 1, acc => rootFrom e x n (if (acc + 2 ^ n) ^ e ≤ x then acc + 2 ^ n else acc)

/-- The first 32 bits of the fractional part of the root `e` of a small number. -/
def rootWord (e p : Nat) : BitVec 32 := BitVec.ofNat 32 (rootFrom e (p * 2 ^ (32 * e)) 37 0)

/-- The 64 primes below 312. -/
def shaPrimes : List Nat := (List.range' 2 310).filter fun n => (List.range' 2 16).all fun d => decide (n ≤ d ∨ n % d ≠ 0)

/-- The round constants of the standard (R4): of the cube roots of the primes. -/
def shaK : List (BitVec 32) := shaPrimes.map (rootWord 3)

/-- The initial hash value of the standard (R4): of the square roots of the first eight primes. -/
def shaInit : List (BitVec 32) := (shaPrimes.take 8).map (rootWord 2)

/-- The 16 big-endian words of a block. -/
def shaWords (block : List (BitVec 8)) : List (BitVec 32) :=
  (List.range 16).map fun i =>
    BitVec.ofNat 32 ((List.range 4).foldl (fun v k => v * 256 + (block.getD (4 * i + k) 0).toNat) 0)

/-- The message schedule, newest word first. -/
def shaSchedule (ws : List (BitVec 32)) : List (BitVec 32) :=
  (List.range 48).foldl (fun (l : List (BitVec 32)) _ =>
    let w (n : Nat) : BitVec 32 := l.getD (n - 1) 0
    let a := w 15
    let b := w 2
    let s0 := a.rotateRight 7 ^^^ a.rotateRight 18 ^^^ (a >>> 3)
    let s1 := b.rotateRight 17 ^^^ b.rotateRight 19 ^^^ (b >>> 10)
    (w 16 + s0 + w 7 + s1) :: l) ws.reverse

/-- One round on the eight working words. -/
def shaRound (h : List (BitVec 32)) (k w : BitVec 32) : List (BitVec 32) :=
  let x (n : Nat) : BitVec 32 := h.getD n 0
  let s1 := (x 4).rotateRight 6 ^^^ (x 4).rotateRight 11 ^^^ (x 4).rotateRight 25
  let ch := (x 4 &&& x 5) ^^^ (~~~ (x 4) &&& x 6)
  let t1 := x 7 + s1 + ch + k + w
  let s0 := (x 0).rotateRight 2 ^^^ (x 0).rotateRight 13 ^^^ (x 0).rotateRight 22
  let mj := (x 0 &&& x 1) ^^^ (x 0 &&& x 2) ^^^ (x 1 &&& x 2)
  [t1 + (s0 + mj), x 0, x 1, x 2, x 3 + t1, x 4, x 5, x 6]

/-- The hash value after one block. -/
def shaBlock (h : List (BitVec 32)) (block : List (BitVec 8)) : List (BitVec 32) :=
  let ws := (shaSchedule (shaWords block)).reverse
  let out := (shaK.zip ws).foldl (fun x e => shaRound x e.1 e.2) h
  h.zipWith (· + ·) out

/-- The message with its padding. -/
def shaPad (m : List (BitVec 8)) : List (BitVec 8) :=
  let n := m.length
  let zeros := (119 - n % 64) % 64
  m ++ [0x80] ++ List.replicate zeros 0 ++ (bytesOf 8 (8 * n)).reverse

/-- The SHA-256 digest as 32 bytes. -/
def sha256 (m : List (BitVec 8)) : List (BitVec 8) :=
  let p := shaPad m
  let h := (List.range (p.length / 64)).foldl (fun x i => shaBlock x ((p.drop (64 * i)).take 64)) shaInit
  h.flatMap fun w => (bytesOf 4 w.toNat).reverse

/-- HMAC-SHA-256 under a key of at most 64 bytes. -/
def hmac (key m : List (BitVec 8)) : List (BitVec 8) :=
  let k := key ++ List.replicate (64 - key.length) 0
  sha256 ((k.map (· ^^^ 0x5C)) ++ sha256 ((k.map (· ^^^ 0x36)) ++ m))

/-! ### CRC32C -/

/-- One bit of the reflected CRC. -/
def crcBit (c : BitVec 32) : BitVec 32 := if c.getLsbD 0 then (c >>> 1) ^^^ 0x82F63B78 else c >>> 1

/-- CRC32C of a list of bytes. -/
def crc32c (m : List (BitVec 8)) : BitVec 32 :=
  (m.foldl (fun (c : BitVec 32) b =>
    (List.range 8).foldl (fun x _ => crcBit x) (c ^^^ b.setWidth 32)) 0xFFFFFFFF) ^^^ 0xFFFFFFFF

/-! ### Block compression (R244); none stands for "fail" -/

/-- NZB: the bytes of the bitmap's set bits in order, zero elsewhere. -/
def nzb (p : List (BitVec 8)) : Option (List (BitVec 8)) :=
  let bit (i : Nat) : Bool := (p.getD (i / 8) 0).getLsbD (i % 8)
  let n := ((List.range 4096).filter bit).length
  if p.length ≠ 512 + n then none
  else
    let r := (List.range 4096).foldl (fun (s : List (BitVec 8) × List (BitVec 8)) i =>
      if bit i then
        match s.1 with
        | b :: t => (t, b :: s.2)
        | [] => ([], 0 :: s.2)
      else (s.1, 0 :: s.2)) (p.drop 512, [])
    some r.2.reverse

/-- The 32-bit words of a payload; a trailing part word is no word. -/
def wordsIn (p : List (BitVec 8)) : List Nat :=
  (List.range (p.length / 4)).map fun i => natOf ((p.drop (4 * i)).take 4)

/-- RLW from payload words on, i output words done; fuel bounds the tokens. -/
def rlwFrom : Nat → List Nat → Nat → Option (List Nat × List Nat)
  | 0, ws, i => if i = 1024 then some ([], ws) else none
  | fuel + 1, ws, i =>
    if i = 1024 then some ([], ws)
    else
      match ws with
      | [] => none
      | t :: rest =>
        let c := field t 0 11
        if field t 11 20 ≠ 0 ∨ c = 0 ∨ 1024 < i + c then none
        else if t.testBit 31 then
          match rest with
          | [] => none
          | v :: rest' => (rlwFrom fuel rest' (i + c)).map fun r => (List.replicate c v ++ r.1, r.2)
        else if rest.length < c then none
        else (rlwFrom fuel (rest.drop c) (i + c)).map fun r => (rest.take c ++ r.1, r.2)

/-- RLW. -/
def rlw (p : List (BitVec 8)) : Option (List (BitVec 8)) :=
  if p.length % 4 ≠ 0 then none
  else
    match rlwFrom 1024 (wordsIn p) 0 with
    | some (out, []) => some (out.flatMap fun v => bytesOf 4 v)
    | _ => none

/-- DPK: 32 groups of 64 halfwords, each the running sum of sign-extended deltas. -/
def dpk (p : List (BitVec 8)) : Option (List (BitVec 8)) :=
  let w (g : Nat) : Nat := (p.getD g 0).toNat
  if p.length < 32 ∨ (List.range 32).any (fun g => decide (16 < w g)) then none
  else if p.length ≠ 32 + ((List.range 32).map fun g => 8 * w g).sum then none
  else
    let bits := natOf p
    let r := (List.range 32).foldl (fun (s : Nat × Nat × List Nat) g =>
      (List.range 64).foldl (fun (s : Nat × Nat × List Nat) _ =>
        let delta := if w g = 0 then 0 else sext (field bits s.1 (w g)) (w g)
        let v := ((s.2.1 : Int) + delta) % 2 ^ 16
        (s.1 + w g, v.toNat, v.toNat :: s.2.2)) s) (256, 0, [])
    some (r.2.2.reverse.flatMap fun v => bytesOf 2 v)

/-- A payload of the given method decoded to 4,096 bytes. -/
def decompress (method : Nat) (p : List (BitVec 8)) : Option (List (BitVec 8)) :=
  match method with
  | 0 => if p.length = 4096 then some p else none
  | 1 => nzb p
  | 2 => rlw p
  | _ => dpk p

end Sys2Proof.Machine
end

