-- ==== Sys2Proof/Decode.lean ====
section
/-!
DEFINITION. Decoding and encoding (R23, R45, R46, R52 to R57): the decoder is total on 32-bit words and rejects by name;
the encoder is written from the same tables. A decoded word carries the raw fields of its encoding; which register codes
and field values the executing profile defines is judged by WellFormed (R45 step 6).
-/
namespace Sys2Proof

open Sys2Proof.Machine

/-- Why a word is no instruction (R45 steps 1, 2, 5 and 6). -/
inductive DecodeError where
  /-- Major 0x00 (step 1). -/
  | endOfText
  /-- Major 0xFF (step 2). -/
  | reservedWord
  /-- A major that no instruction holds (step 5). -/
  | unallocatedMajor
  /-- A function code that R52 to R57 do not list (step 6). -/
  | badFunction
  /-- A field that must be 0 is not (R46, step 6). -/
  | reservedNonzero
  /-- Fewer than four bytes. -/
  | truncated
deriving DecidableEq, Repr

/-- Bits lo + n - 1 down to lo of a word, as a bit vector of n bits. -/
def fld (w lo n : Nat) : BitVec n := BitVec.ofNat n (field w lo n)

/-- Major 0x01: MODE. -/
def decode01 (w : Nat) : Except DecodeError Instr :=
  if field w 15 4 = 0 then .ok (.mode (fld w 23 1) (fld w 22 1) (fld w 21 1) (fld w 20 1) (fld w 19 1) (fld w 0 15))
  else .error .reservedNonzero

/-- Major 0x02: TRL, TRL.RANGE. -/
def decode02 (w : Nat) : Except DecodeError Instr :=
  if field w 18 2 = 0 ∧ field w 22 2 = 0 then .ok (.trl (fld w 20 2) (fld w 12 6) (fld w 6 6) (fld w 0 6))
  else if field w 0 6 = 0 ∧ field w 18 6 = 16 then .ok (.trlRange (fld w 12 6) (fld w 6 6))
  else .error .badFunction

/-- Major 0x03: NOP. -/
def decode03 (w : Nat) : Except DecodeError Instr :=
  if field w 0 24 = 0 then .ok .nop
  else .error .reservedNonzero

/-- Major 0x04: BR. -/
def decode04 (w : Nat) : Except DecodeError Instr :=
  .ok (.br (fld w 20 4) (fld w 0 20))

/-- Major 0x05: BRD. -/
def decode05 (w : Nat) : Except DecodeError Instr :=
  .ok (.brd (fld w 20 4) (fld w 0 20))

/-- Major 0x06: RJOIN. -/
def decode06 (w : Nat) : Except DecodeError Instr :=
  if field w 20 4 = 0 then .ok (.rjoin (fld w 0 20))
  else .error .reservedNonzero

/-- Major 0x07: REGANG. -/
def decode07 (w : Nat) : Except DecodeError Instr :=
  if field w 16 8 = 0 then .ok (.regang (fld w 0 16))
  else .error .reservedNonzero

/-- Major 0x08: CALL. -/
def decode08 (w : Nat) : Except DecodeError Instr :=
  .ok (.call (fld w 18 6) (fld w 0 18))

/-- Major 0x09: CALLI. -/
def decode09 (w : Nat) : Except DecodeError Instr :=
  if field w 0 12 = 0 then .ok (.calli (fld w 18 6) (fld w 12 6))
  else .error .reservedNonzero

/-- Major 0x0A: RET. -/
def decode0A (w : Nat) : Except DecodeError Instr :=
  if field w 0 18 = 0 then .ok (.ret (fld w 18 6))
  else .error .reservedNonzero

/-- Major 0x0B: BRX. -/
def decode0B (w : Nat) : Except DecodeError Instr :=
  if field w 0 12 = 0 ∧ field w 18 6 = 0 then .ok (.brx (fld w 12 6))
  else .error .reservedNonzero

/-- Major 0x0C: YIELD. -/
def decode0C (w : Nat) : Except DecodeError Instr :=
  if field w 20 4 = 0 then .ok (.yield (fld w 0 20))
  else .error .reservedNonzero

/-- Major 0x0D: YIELD.B. -/
def decode0D (w : Nat) : Except DecodeError Instr :=
  .ok (.yieldB (fld w 20 4) (fld w 0 20))

/-- Major 0x0E: WAITMON. -/
def decode0E (w : Nat) : Except DecodeError Instr :=
  .ok (.waitmon (fld w 22 2) (fld w 18 4) (fld w 12 6) (fld w 6 6) (fld w 0 6))

/-- Major 0x0F: EXIT. -/
def decode0F (w : Nat) : Except DecodeError Instr :=
  if field w 0 24 = 0 then .ok .exit
  else .error .reservedNonzero

/-- Major 0x10: IADD, ISUB, IMIN, IMAX, NMIN, NMAX, IABSD. -/
def decode10 (w : Nat) : Except DecodeError Instr :=
  if field w 0 6 = 0 then .ok (.iadd (fld w 18 6) (fld w 12 6) (fld w 6 6))
  else if field w 0 6 = 1 then .ok (.isub (fld w 18 6) (fld w 12 6) (fld w 6 6))
  else if field w 0 6 = 2 then .ok (.imin (fld w 18 6) (fld w 12 6) (fld w 6 6))
  else if field w 0 6 = 3 then .ok (.imax (fld w 18 6) (fld w 12 6) (fld w 6 6))
  else if field w 0 6 = 4 then .ok (.nmin (fld w 18 6) (fld w 12 6) (fld w 6 6))
  else if field w 0 6 = 5 then .ok (.nmax (fld w 18 6) (fld w 12 6) (fld w 6 6))
  else if field w 0 6 = 6 then .ok (.iabsd (fld w 18 6) (fld w 12 6) (fld w 6 6))
  else .error .badFunction

/-- Major 0x11: AND, OR, XOR, ANDN, ORN. -/
def decode11 (w : Nat) : Except DecodeError Instr :=
  if field w 0 6 = 0 then .ok (.and (fld w 18 6) (fld w 12 6) (fld w 6 6))
  else if field w 0 6 = 1 then .ok (.or (fld w 18 6) (fld w 12 6) (fld w 6 6))
  else if field w 0 6 = 2 then .ok (.xor (fld w 18 6) (fld w 12 6) (fld w 6 6))
  else if field w 0 6 = 3 then .ok (.andn (fld w 18 6) (fld w 12 6) (fld w 6 6))
  else if field w 0 6 = 4 then .ok (.orn (fld w 18 6) (fld w 12 6) (fld w 6 6))
  else .error .badFunction

/-- Major 0x12: SHL, SHR, SAR, ROL, ROR. -/
def decode12 (w : Nat) : Except DecodeError Instr :=
  if field w 0 6 = 0 then .ok (.shl (fld w 18 6) (fld w 12 6) (fld w 6 6))
  else if field w 0 6 = 1 then .ok (.shr (fld w 18 6) (fld w 12 6) (fld w 6 6))
  else if field w 0 6 = 2 then .ok (.sar (fld w 18 6) (fld w 12 6) (fld w 6 6))
  else if field w 0 6 = 3 then .ok (.rol (fld w 18 6) (fld w 12 6) (fld w 6 6))
  else if field w 0 6 = 4 then .ok (.ror (fld w 18 6) (fld w 12 6) (fld w 6 6))
  else .error .badFunction

/-- Major 0x13: IMAD24. -/
def decode13 (w : Nat) : Except DecodeError Instr :=
  .ok (.imad24 (fld w 18 6) (fld w 12 6) (fld w 6 6) (fld w 0 6))

/-- Major 0x14: NMAD24. -/
def decode14 (w : Nat) : Except DecodeError Instr :=
  .ok (.nmad24 (fld w 18 6) (fld w 12 6) (fld w 6 6) (fld w 0 6))

/-- Major 0x15: IMUL32.LO, IMUL32.HI, IMUL32.NHI. -/
def decode15 (w : Nat) : Except DecodeError Instr :=
  if field w 0 2 = 0 then .ok (.imul32Lo (fld w 18 6) (fld w 12 6) (fld w 6 6) (fld w 2 4))
  else if field w 0 2 = 1 then .ok (.imul32Hi (fld w 18 6) (fld w 12 6) (fld w 6 6) (fld w 2 4))
  else if field w 0 2 = 2 then .ok (.imul32Nhi (fld w 18 6) (fld w 12 6) (fld w 6 6) (fld w 2 4))
  else .error .badFunction

/-- Major 0x16: BFE. -/
def decode16 (w : Nat) : Except DecodeError Instr :=
  .ok (.bfe (fld w 18 6) (fld w 12 6) (fld w 6 6) (fld w 0 6))

/-- Major 0x17: BFI. -/
def decode17 (w : Nat) : Except DecodeError Instr :=
  .ok (.bfi (fld w 18 6) (fld w 12 6) (fld w 6 6) (fld w 0 6))

/-- Major 0x18: POPC, CLZ, BREV, FFS. -/
def decode18 (w : Nat) : Except DecodeError Instr :=
  if field w 0 12 = 0 then .ok (.popc (fld w 18 6) (fld w 12 6))
  else if field w 0 12 = 1 then .ok (.clz (fld w 18 6) (fld w 12 6))
  else if field w 0 12 = 2 then .ok (.brev (fld w 18 6) (fld w 12 6))
  else if field w 0 12 = 3 then .ok (.ffs (fld w 18 6) (fld w 12 6))
  else .error .badFunction

/-- Major 0x19: SEL. -/
def decode19 (w : Nat) : Except DecodeError Instr :=
  .ok (.sel (fld w 18 6) (fld w 12 6) (fld w 6 6) (fld w 0 6))

/-- Major 0x1A: ICMP. -/
def decode1A (w : Nat) : Except DecodeError Instr :=
  .ok (.icmp (fld w 18 6) (fld w 12 6) (fld w 6 6) (fld w 0 6))

/-- Major 0x1B: PAND, POR, PXOR, PANDN. -/
def decode1B (w : Nat) : Except DecodeError Instr :=
  if field w 0 6 = 0 then .ok (.pand (fld w 18 6) (fld w 12 6) (fld w 6 6))
  else if field w 0 6 = 1 then .ok (.por (fld w 18 6) (fld w 12 6) (fld w 6 6))
  else if field w 0 6 = 2 then .ok (.pxor (fld w 18 6) (fld w 12 6) (fld w 6 6))
  else if field w 0 6 = 3 then .ok (.pandn (fld w 18 6) (fld w 12 6) (fld w 6 6))
  else .error .badFunction

/-- Major 0x1C: IADDI. -/
def decode1C (w : Nat) : Except DecodeError Instr :=
  .ok (.iaddi (fld w 18 6) (fld w 12 6) (fld w 0 12))

/-- Major 0x1D: ANDI. -/
def decode1D (w : Nat) : Except DecodeError Instr :=
  .ok (.andi (fld w 18 6) (fld w 12 6) (fld w 0 12))

/-- Major 0x1E: ORI. -/
def decode1E (w : Nat) : Except DecodeError Instr :=
  .ok (.ori (fld w 18 6) (fld w 12 6) (fld w 0 12))

/-- Major 0x1F: MOVI. -/
def decode1F (w : Nat) : Except DecodeError Instr :=
  .ok (.movi (fld w 18 6) (fld w 0 18))

/-- Major 0x20: MOVHI. -/
def decode20 (w : Nat) : Except DecodeError Instr :=
  if field w 16 2 = 0 then .ok (.movhi (fld w 18 6) (fld w 0 16))
  else .error .reservedNonzero

/-- Major 0x21: LEA. -/
def decode21 (w : Nat) : Except DecodeError Instr :=
  if field w 4 2 = 0 then .ok (.lea (fld w 18 6) (fld w 12 6) (fld w 6 6) (fld w 0 4))
  else .error .reservedNonzero

/-- Major 0x22: IADD64, ISUB64. -/
def decode22 (w : Nat) : Except DecodeError Instr :=
  if field w 0 6 = 0 then .ok (.iadd64 (fld w 18 6) (fld w 12 6) (fld w 6 6))
  else if field w 0 6 = 1 then .ok (.isub64 (fld w 18 6) (fld w 12 6) (fld w 6 6))
  else .error .badFunction

/-- Major 0x23: SMOV.SS, SMOV.SR, SMOV.RS. -/
def decode23 (w : Nat) : Except DecodeError Instr :=
  if field w 0 10 = 0 ∧ field w 22 2 = 0 then .ok (.smovSs (fld w 16 6) (fld w 10 6))
  else if field w 0 10 = 0 ∧ field w 22 2 = 1 then .ok (.smovSr (fld w 16 6) (fld w 10 6))
  else if field w 0 10 = 0 ∧ field w 22 2 = 2 then .ok (.smovRs (fld w 16 6) (fld w 10 6))
  else .error .badFunction

/-- Major 0x24: SOP. -/
def decode24 (w : Nat) : Except DecodeError Instr :=
  if field w 0 5 = 0 then .ok (.sop (fld w 20 4) (fld w 15 5) (fld w 10 5) (fld w 5 5))
  else .error .reservedNonzero

/-- Major 0x40: FFMA. -/
def decode40 (w : Nat) : Except DecodeError Instr :=
  .ok (.ffma (fld w 18 6) (fld w 12 6) (fld w 6 6) (fld w 0 6))

/-- Major 0x41: FADD, FSUB, FMUL, FMIN, FMAX. -/
def decode41 (w : Nat) : Except DecodeError Instr :=
  if field w 0 6 = 0 then .ok (.fadd (fld w 18 6) (fld w 12 6) (fld w 6 6))
  else if field w 0 6 = 1 then .ok (.fsub (fld w 18 6) (fld w 12 6) (fld w 6 6))
  else if field w 0 6 = 2 then .ok (.fmul (fld w 18 6) (fld w 12 6) (fld w 6 6))
  else if field w 0 6 = 3 then .ok (.fmin (fld w 18 6) (fld w 12 6) (fld w 6 6))
  else if field w 0 6 = 4 then .ok (.fmax (fld w 18 6) (fld w 12 6) (fld w 6 6))
  else .error .badFunction

/-- Major 0x42: FCMP. -/
def decode42 (w : Nat) : Except DecodeError Instr :=
  .ok (.fcmp (fld w 18 6) (fld w 12 6) (fld w 6 6) (fld w 0 6))

/-- Major 0x43: RCP, RSQRT, SQRT, DIV. -/
def decode43 (w : Nat) : Except DecodeError Instr :=
  if field w 0 2 = 0 ∧ field w 6 6 = 0 then .ok (.rcp (fld w 18 6) (fld w 12 6) (fld w 2 4))
  else if field w 0 2 = 1 ∧ field w 6 6 = 0 then .ok (.rsqrt (fld w 18 6) (fld w 12 6) (fld w 2 4))
  else if field w 0 2 = 2 ∧ field w 6 6 = 0 then .ok (.sqrt (fld w 18 6) (fld w 12 6) (fld w 2 4))
  else if field w 0 2 = 3 then .ok (.div (fld w 18 6) (fld w 12 6) (fld w 6 6) (fld w 2 4))
  else .error .badFunction

/-- Major 0x44: EXP2, LOG2, SIN, COS. -/
def decode44 (w : Nat) : Except DecodeError Instr :=
  if field w 0 2 = 0 ∧ field w 6 6 = 0 then .ok (.exp2 (fld w 18 6) (fld w 12 6) (fld w 2 4))
  else if field w 0 2 = 1 ∧ field w 6 6 = 0 then .ok (.log2 (fld w 18 6) (fld w 12 6) (fld w 2 4))
  else if field w 0 2 = 2 ∧ field w 6 6 = 0 then .ok (.sin (fld w 18 6) (fld w 12 6) (fld w 2 4))
  else if field w 0 2 = 3 ∧ field w 6 6 = 0 then .ok (.cos (fld w 18 6) (fld w 12 6) (fld w 2 4))
  else .error .badFunction

/-- Major 0x45: TANH, SIGM. -/
def decode45 (w : Nat) : Except DecodeError Instr :=
  if field w 0 2 = 0 ∧ field w 6 6 = 0 then .ok (.tanh (fld w 18 6) (fld w 12 6) (fld w 2 4))
  else if field w 0 2 = 1 ∧ field w 6 6 = 0 then .ok (.sigm (fld w 18 6) (fld w 12 6) (fld w 2 4))
  else .error .badFunction

/-- Major 0x46: CVT. -/
def decode46 (w : Nat) : Except DecodeError Instr :=
  if field w 0 6 = 0 then .ok (.cvt (fld w 18 6) (fld w 12 6) (fld w 8 4) (fld w 6 2))
  else .error .reservedNonzero

/-- Major 0x47: F2I, I2F, F2N, N2F, FRND. -/
def decode47 (w : Nat) : Except DecodeError Instr :=
  if field w 0 12 = 0 then .ok (.f2i (fld w 18 6) (fld w 12 6))
  else if field w 0 12 = 1 then .ok (.i2f (fld w 18 6) (fld w 12 6))
  else if field w 0 12 = 2 then .ok (.f2n (fld w 18 6) (fld w 12 6))
  else if field w 0 12 = 3 then .ok (.n2f (fld w 18 6) (fld w 12 6))
  else if field w 0 12 = 4 then .ok (.frnd (fld w 18 6) (fld w 12 6))
  else .error .badFunction

/-- Major 0x48: FFMA2. -/
def decode48 (w : Nat) : Except DecodeError Instr :=
  .ok (.ffma2 (fld w 18 6) (fld w 12 6) (fld w 6 6) (fld w 0 6))

/-- Major 0x49: FADD2, FMUL2, FMIN2, FMAX2. -/
def decode49 (w : Nat) : Except DecodeError Instr :=
  if field w 0 6 = 0 then .ok (.fadd2 (fld w 18 6) (fld w 12 6) (fld w 6 6))
  else if field w 0 6 = 1 then .ok (.fmul2 (fld w 18 6) (fld w 12 6) (fld w 6 6))
  else if field w 0 6 = 2 then .ok (.fmin2 (fld w 18 6) (fld w 12 6) (fld w 6 6))
  else if field w 0 6 = 3 then .ok (.fmax2 (fld w 18 6) (fld w 12 6) (fld w 6 6))
  else .error .badFunction

/-- Major 0x4A: FABS, FNEG, FCLASS. -/
def decode4A (w : Nat) : Except DecodeError Instr :=
  if field w 0 12 = 0 then .ok (.fabs (fld w 18 6) (fld w 12 6))
  else if field w 0 12 = 1 then .ok (.fneg (fld w 18 6) (fld w 12 6))
  else if field w 0 12 = 2 then .ok (.fclass (fld w 18 6) (fld w 12 6))
  else .error .badFunction

/-- Major 0x70: SHFL. -/
def decode70 (w : Nat) : Except DecodeError Instr :=
  .ok (.shfl (fld w 18 6) (fld w 12 6) (fld w 6 6) (fld w 0 6))

/-- Major 0x71: VOTE. -/
def decode71 (w : Nat) : Except DecodeError Instr :=
  .ok (.vote (fld w 18 6) (fld w 12 6) (fld w 6 6) (fld w 0 6))

/-- Major 0x72: RED. -/
def decode72 (w : Nat) : Except DecodeError Instr :=
  .ok (.red (fld w 18 6) (fld w 12 6) (fld w 6 6) (fld w 0 6))

/-- Major 0x73: SCAN. -/
def decode73 (w : Nat) : Except DecodeError Instr :=
  .ok (.scan (fld w 18 6) (fld w 12 6) (fld w 6 6) (fld w 0 6))

/-- Major 0x74: MATCH. -/
def decode74 (w : Nat) : Except DecodeError Instr :=
  if field w 0 12 = 0 then .ok (.matchKey (fld w 18 6) (fld w 12 6))
  else .error .reservedNonzero

/-- Major 0x75: BCAST. -/
def decode75 (w : Nat) : Except DecodeError Instr :=
  if field w 0 6 = 0 then .ok (.bcast (fld w 18 6) (fld w 12 6) (fld w 6 6))
  else .error .reservedNonzero

/-- Major 0x80: LDL. -/
def decode80 (w : Nat) : Except DecodeError Instr :=
  .ok (.ldl (fld w 18 6) (fld w 12 6) (fld w 6 6) (fld w 2 4) (fld w 0 2))

/-- Major 0x81: STL. -/
def decode81 (w : Nat) : Except DecodeError Instr :=
  if field w 2 4 = 0 then .ok (.stl (fld w 18 6) (fld w 12 6) (fld w 6 6) (fld w 0 2))
  else .error .reservedNonzero

/-- Major 0x82: LDS. -/
def decode82 (w : Nat) : Except DecodeError Instr :=
  .ok (.lds (fld w 18 6) (fld w 12 6) (fld w 6 6) (fld w 2 4) (fld w 0 2))

/-- Major 0x83: STS. -/
def decode83 (w : Nat) : Except DecodeError Instr :=
  if field w 2 4 = 0 then .ok (.sts (fld w 18 6) (fld w 12 6) (fld w 6 6) (fld w 0 2))
  else .error .reservedNonzero

/-- Major 0x84: LDC. -/
def decode84 (w : Nat) : Except DecodeError Instr :=
  .ok (.ldc (fld w 18 6) (fld w 12 6) (fld w 6 6) (fld w 2 4) (fld w 0 2))

/-- Major 0x85: STC. -/
def decode85 (w : Nat) : Except DecodeError Instr :=
  if field w 2 4 = 0 then .ok (.stc (fld w 18 6) (fld w 12 6) (fld w 6 6) (fld w 0 2))
  else .error .reservedNonzero

/-- Major 0x86: LDD. -/
def decode86 (w : Nat) : Except DecodeError Instr :=
  .ok (.ldd (fld w 18 6) (fld w 12 6) (fld w 6 6) (fld w 2 4) (fld w 0 2))

/-- Major 0x87: STD. -/
def decode87 (w : Nat) : Except DecodeError Instr :=
  if field w 2 4 = 0 then .ok (.std (fld w 18 6) (fld w 12 6) (fld w 6 6) (fld w 0 2))
  else .error .reservedNonzero

/-- Major 0x88: GLQ. -/
def decode88 (w : Nat) : Except DecodeError Instr :=
  if field w 0 10 = 0 then .ok (.glq (fld w 23 1) (fld w 21 2) (fld w 17 4) (fld w 11 6) (fld w 10 1))
  else .error .reservedNonzero

/-- Major 0x89: GSQ. -/
def decode89 (w : Nat) : Except DecodeError Instr :=
  if field w 0 5 = 0 then .ok (.gsq (fld w 22 2) (fld w 18 4) (fld w 12 6) (fld w 6 6) (fld w 5 1))
  else .error .reservedNonzero

/-- Major 0x8A: WAITQ. -/
def decode8A (w : Nat) : Except DecodeError Instr :=
  if field w 0 18 = 0 then .ok (.waitq (fld w 23 1) (fld w 18 5))
  else .error .reservedNonzero

/-- Major 0x8B: POPQ. -/
def decode8B (w : Nat) : Except DecodeError Instr :=
  if field w 0 15 = 0 then .ok (.popq (fld w 23 1) (fld w 21 2) (fld w 15 6))
  else .error .reservedNonzero

/-- Major 0x8C: ATOM. -/
def decode8C (w : Nat) : Except DecodeError Instr :=
  .ok (.atom (fld w 20 4) (fld w 19 1) (fld w 17 2) (fld w 12 5) (fld w 6 6) (fld w 0 6))

/-- Major 0x8D: ATOM.SC. -/
def decode8D (w : Nat) : Except DecodeError Instr :=
  .ok (.atomSc (fld w 20 4) (fld w 19 1) (fld w 17 2) (fld w 16 1) (fld w 12 4) (fld w 6 6) (fld w 0 6))

/-- Major 0x8E: BIND. -/
def decode8E (w : Nat) : Except DecodeError Instr :=
  if field w 0 9 = 0 then .ok (.bind (fld w 20 4) (fld w 16 4) (fld w 10 6) (fld w 9 1))
  else .error .reservedNonzero

/-- Major 0x8F: ACQ. -/
def decode8F (w : Nat) : Except DecodeError Instr :=
  if field w 0 5 = 0 then .ok (.acq (fld w 18 6) (fld w 14 4) (fld w 8 6) (fld w 5 3))
  else .error .reservedNonzero

/-- Major 0x90: REL. -/
def decode90 (w : Nat) : Except DecodeError Instr :=
  if field w 0 5 = 0 ∧ field w 18 6 = 0 then .ok (.rel (fld w 14 4) (fld w 8 6) (fld w 5 3))
  else .error .reservedNonzero

/-- Major 0x91: FENCE. -/
def decode91 (w : Nat) : Except DecodeError Instr :=
  if field w 0 21 = 0 then .ok (.fence (fld w 21 3))
  else .error .reservedNonzero

/-- Major 0x92: FENCE.X. -/
def decode92 (w : Nat) : Except DecodeError Instr :=
  if field w 0 11 = 0 then .ok (.fenceX (fld w 21 3) (fld w 16 5) (fld w 11 5))
  else .error .reservedNonzero

/-- Major 0x93: MPOST. -/
def decode93 (w : Nat) : Except DecodeError Instr :=
  if field w 0 18 = 0 then .ok (.mpost (fld w 18 6))
  else .error .reservedNonzero

/-- Major 0xA0: CMOV. -/
def decodeA0 (w : Nat) : Except DecodeError Instr :=
  if field w 0 16 = 0 then .ok (.cmov (fld w 20 4) (fld w 16 4))
  else .error .reservedNonzero

/-- Major 0xA1: CSETB. -/
def decodeA1 (w : Nat) : Except DecodeError Instr :=
  if field w 0 4 = 0 then .ok (.csetb (fld w 20 4) (fld w 16 4) (fld w 10 6) (fld w 4 6))
  else .error .reservedNonzero

/-- Major 0xA2: CANDP. -/
def decodeA2 (w : Nat) : Except DecodeError Instr :=
  if field w 0 11 = 0 then .ok (.candp (fld w 20 4) (fld w 16 4) (fld w 11 5))
  else .error .reservedNonzero

/-- Major 0xA3: CSEAL. -/
def decodeA3 (w : Nat) : Except DecodeError Instr :=
  if field w 0 12 = 0 then .ok (.cseal (fld w 20 4) (fld w 16 4) (fld w 12 4))
  else .error .reservedNonzero

/-- Major 0xA4: CUNSEAL. -/
def decodeA4 (w : Nat) : Except DecodeError Instr :=
  if field w 0 12 = 0 then .ok (.cunseal (fld w 20 4) (fld w 16 4) (fld w 12 4))
  else .error .reservedNonzero

/-- Major 0xA5: CGET. -/
def decodeA5 (w : Nat) : Except DecodeError Instr :=
  if field w 0 11 = 0 then .ok (.cget (fld w 18 6) (fld w 14 4) (fld w 11 3))
  else .error .reservedNonzero

/-- Major 0xA6: CLDC. -/
def decodeA6 (w : Nat) : Except DecodeError Instr :=
  if field w 0 10 = 0 then .ok (.cldc (fld w 20 4) (fld w 16 4) (fld w 10 6))
  else .error .reservedNonzero

/-- Major 0xA7: CSTC. -/
def decodeA7 (w : Nat) : Except DecodeError Instr :=
  if field w 0 10 = 0 then .ok (.cstc (fld w 20 4) (fld w 16 4) (fld w 10 6))
  else .error .reservedNonzero

/-- Major 0xB0: KGW, KGW.RD. -/
def decodeB0 (w : Nat) : Except DecodeError Instr :=
  if field w 0 5 = 0 ∧ field w 23 1 = 0 then .ok (.kgw (fld w 21 2) (fld w 19 2) (fld w 14 5) (fld w 13 1) (fld w 12 1) (fld w 5 7))
  else if field w 0 14 = 0 ∧ field w 23 1 = 1 then .ok (.kgwRd (fld w 20 3) (fld w 14 6))
  else .error .badFunction

/-- Major 0xB1: KPACK. -/
def decodeB1 (w : Nat) : Except DecodeError Instr :=
  if field w 0 4 = 0 then .ok (.kpack (fld w 21 3) (fld w 15 6) (fld w 13 2) (fld w 12 1) (fld w 11 1) (fld w 4 7))
  else .error .reservedNonzero

/-- Major 0xB2: KEXT. -/
def decodeB2 (w : Nat) : Except DecodeError Instr :=
  if field w 0 2 = 0 then .ok (.kext (fld w 18 6) (fld w 15 3) (fld w 14 1) (fld w 12 2) (fld w 10 2) (fld w 2 8))
  else .error .reservedNonzero

/-- Major 0xB3: KMUL. -/
def decodeB3 (w : Nat) : Except DecodeError Instr :=
  if field w 0 15 = 0 then .ok (.kmul (fld w 21 3) (fld w 18 3) (fld w 15 3))
  else .error .reservedNonzero

/-- Major 0xB4: KMAC. -/
def decodeB4 (w : Nat) : Except DecodeError Instr :=
  if field w 0 15 = 0 then .ok (.kmac (fld w 21 3) (fld w 18 3) (fld w 15 3))
  else .error .reservedNonzero

/-- Major 0xB5: KADD. -/
def decodeB5 (w : Nat) : Except DecodeError Instr :=
  if field w 0 12 = 0 then .ok (.kadd (fld w 21 3) (fld w 18 3) (fld w 15 3) (fld w 14 1) (fld w 12 2))
  else .error .reservedNonzero

/-- Major 0xB6: KSUB. -/
def decodeB6 (w : Nat) : Except DecodeError Instr :=
  if field w 0 12 = 0 then .ok (.ksub (fld w 21 3) (fld w 18 3) (fld w 15 3) (fld w 14 1) (fld w 12 2))
  else .error .reservedNonzero

/-- Major 0xB7: KSHL. -/
def decodeB7 (w : Nat) : Except DecodeError Instr :=
  if field w 0 7 = 0 then .ok (.kshl (fld w 21 3) (fld w 18 3) (fld w 17 1) (fld w 15 2) (fld w 7 8))
  else .error .reservedNonzero

/-- Major 0xB8: KSHR. -/
def decodeB8 (w : Nat) : Except DecodeError Instr :=
  if field w 0 7 = 0 then .ok (.kshr (fld w 21 3) (fld w 18 3) (fld w 17 1) (fld w 15 2) (fld w 7 8))
  else .error .reservedNonzero

/-- Major 0xB9: KMOV. -/
def decodeB9 (w : Nat) : Except DecodeError Instr :=
  if field w 0 16 = 0 then .ok (.kmov (fld w 21 3) (fld w 18 3) (fld w 17 1) (fld w 16 1))
  else .error .reservedNonzero

/-- Major 0xBA: KLD. -/
def decodeBA (w : Nat) : Except DecodeError Instr :=
  if field w 0 9 = 0 then .ok (.kld (fld w 21 3) (fld w 20 1) (fld w 15 5) (fld w 9 6))
  else .error .reservedNonzero

/-- Major 0xBB: KST. -/
def decodeBB (w : Nat) : Except DecodeError Instr :=
  if field w 0 9 = 0 then .ok (.kst (fld w 21 3) (fld w 20 1) (fld w 15 5) (fld w 9 6))
  else .error .reservedNonzero

/-- Major 0xC0: TMMA. -/
def decodeC0 (w : Nat) : Except DecodeError Instr :=
  if field w 0 10 = 0 then .ok (.tmma (fld w 18 6) (fld w 12 6) (fld w 11 1) (fld w 10 1))
  else .error .reservedNonzero

/-- Major 0xC1: TMMA.S. -/
def decodeC1 (w : Nat) : Except DecodeError Instr :=
  if field w 0 10 = 0 then .ok (.tmmaS (fld w 18 6) (fld w 12 6) (fld w 11 1) (fld w 10 1))
  else .error .reservedNonzero

/-- Major 0xC2: TMMA.RESUME. -/
def decodeC2 (w : Nat) : Except DecodeError Instr :=
  if field w 0 12 = 0 then .ok (.tmmaResume (fld w 18 6) (fld w 12 6))
  else .error .reservedNonzero

/-- Major 0xC3: TWAIT. -/
def decodeC3 (w : Nat) : Except DecodeError Instr :=
  if field w 0 22 = 0 then .ok (.twait (fld w 22 2))
  else .error .reservedNonzero

/-- Major 0xC4: TZERO. -/
def decodeC4 (w : Nat) : Except DecodeError Instr :=
  if field w 0 16 = 0 then .ok (.tzero (fld w 20 4) (fld w 19 1) (fld w 18 1) (fld w 17 1) (fld w 16 1))
  else .error .reservedNonzero

/-- Major 0xC5: TLDA. -/
def decodeC5 (w : Nat) : Except DecodeError Instr :=
  if field w 0 4 = 0 then .ok (.tlda (fld w 20 4) (fld w 19 1) (fld w 18 1) (fld w 16 2) (fld w 10 6) (fld w 4 6))
  else .error .reservedNonzero

/-- Major 0xC6: TSTA. -/
def decodeC6 (w : Nat) : Except DecodeError Instr :=
  if field w 0 4 = 0 then .ok (.tsta (fld w 20 4) (fld w 19 1) (fld w 18 1) (fld w 16 2) (fld w 10 6) (fld w 4 6))
  else .error .reservedNonzero

/-- Major 0xC7: SCACC. -/
def decodeC7 (w : Nat) : Except DecodeError Instr :=
  if field w 0 7 = 0 then .ok (.scacc (fld w 20 4) (fld w 16 4) (fld w 14 2) (fld w 13 1) (fld w 7 6))
  else .error .reservedNonzero

/-- Major 0xC8: AXR. -/
def decodeC8 (w : Nat) : Except DecodeError Instr :=
  if field w 0 7 = 0 then .ok (.axr (fld w 18 6) (fld w 14 4) (fld w 8 6) (fld w 7 1))
  else .error .reservedNonzero

/-- Major 0xC9: AXW. -/
def decodeC9 (w : Nat) : Except DecodeError Instr :=
  if field w 0 7 = 0 then .ok (.axw (fld w 18 6) (fld w 14 4) (fld w 8 6) (fld w 7 1))
  else .error .reservedNonzero

/-- Major 0xCA: TDESC. -/
def decodeCA (w : Nat) : Except DecodeError Instr :=
  if field w 0 12 = 0 then .ok (.tdesc (fld w 18 6) (fld w 12 6))
  else .error .reservedNonzero

/-- Major 0xD0: CPY. -/
def decodeD0 (w : Nat) : Except DecodeError Instr :=
  if field w 0 22 = 0 then .ok (.cpy (fld w 22 2))
  else .error .reservedNonzero

/-- Major 0xD1: CPY.SC. -/
def decodeD1 (w : Nat) : Except DecodeError Instr :=
  if field w 0 22 = 0 then .ok (.cpySc (fld w 22 2))
  else .error .reservedNonzero

/-- Major 0xD2: CPY.X. -/
def decodeD2 (w : Nat) : Except DecodeError Instr :=
  if field w 0 22 = 0 then .ok (.cpyX (fld w 22 2))
  else .error .reservedNonzero

/-- Major 0xD3: CPY.R. -/
def decodeD3 (w : Nat) : Except DecodeError Instr :=
  if field w 0 22 = 0 then .ok (.cpyR (fld w 22 2))
  else .error .reservedNonzero

/-- Major 0xD4: ARRIVE. -/
def decodeD4 (w : Nat) : Except DecodeError Instr :=
  if field w 0 20 = 0 then .ok (.arrive (fld w 20 4))
  else .error .reservedNonzero

/-- Major 0xD5: MBX. -/
def decodeD5 (w : Nat) : Except DecodeError Instr :=
  if field w 0 18 = 0 then .ok (.mbx (fld w 21 3) (fld w 18 3))
  else .error .reservedNonzero

/-- Major 0xD6: MBXW. -/
def decodeD6 (w : Nat) : Except DecodeError Instr :=
  if field w 0 21 = 0 then .ok (.mbxw (fld w 21 3))
  else .error .reservedNonzero

/-- Major 0xD7: CWAIT. -/
def decodeD7 (w : Nat) : Except DecodeError Instr :=
  if field w 0 18 = 0 then .ok (.cwait (fld w 18 6))
  else .error .reservedNonzero

/-- Major 0xD8: CSTAT. -/
def decodeD8 (w : Nat) : Except DecodeError Instr :=
  if field w 0 15 = 0 then .ok (.cstat (fld w 18 6) (fld w 15 3))
  else .error .reservedNonzero

/-- Major 0xE0: LAUNCH. -/
def decodeE0 (w : Nat) : Except DecodeError Instr :=
  if field w 0 7 = 0 then .ok (.launch (fld w 18 6) (fld w 13 5) (fld w 7 6))
  else .error .reservedNonzero

/-- Major 0xE1: LAUNCH.NB. -/
def decodeE1 (w : Nat) : Except DecodeError Instr :=
  if field w 0 7 = 0 then .ok (.launchNb (fld w 18 6) (fld w 13 5) (fld w 7 6))
  else .error .reservedNonzero

/-- Major 0xE2: JOIN. -/
def decodeE2 (w : Nat) : Except DecodeError Instr :=
  if field w 0 12 = 0 then .ok (.join (fld w 18 6) (fld w 12 6))
  else .error .reservedNonzero

/-- Major 0xE3: POST. -/
def decodeE3 (w : Nat) : Except DecodeError Instr :=
  if field w 0 18 = 0 then .ok (.post (fld w 18 6))
  else .error .reservedNonzero

/-- Major 0xE4: FORK. -/
def decodeE4 (w : Nat) : Except DecodeError Instr :=
  if field w 0 18 = 0 then .ok (.fork (fld w 18 6))
  else .error .reservedNonzero

/-- Major 0xE5: JOINT. -/
def decodeE5 (w : Nat) : Except DecodeError Instr :=
  if field w 0 24 = 0 then .ok .joint
  else .error .reservedNonzero

/-- Major 0xE6: BEQUEATH. -/
def decodeE6 (w : Nat) : Except DecodeError Instr :=
  if field w 0 6 = 0 then .ok (.bequeath (fld w 18 6) (fld w 15 3) (fld w 12 3) (fld w 6 6))
  else .error .reservedNonzero

/-- Major 0xE7: ESTAT. -/
def decodeE7 (w : Nat) : Except DecodeError Instr :=
  if field w 0 17 = 0 then .ok (.estat (fld w 18 6) (fld w 17 1))
  else .error .reservedNonzero

/-- Major 0xE8: ECLAIM. -/
def decodeE8 (w : Nat) : Except DecodeError Instr :=
  if field w 0 1 = 0 then .ok (.eclaim (fld w 18 6) (fld w 15 3) (fld w 12 3) (fld w 6 6) (fld w 3 3) (fld w 1 2))
  else .error .reservedNonzero

/-- Major 0xE9: ERELEASE, ERELEASE.KEY. -/
def decodeE9 (w : Nat) : Except DecodeError Instr :=
  if field w 0 20 = 0 ∧ field w 23 1 = 0 then .ok (.erelease (fld w 20 3))
  else if field w 0 14 = 0 ∧ field w 23 1 = 1 then .ok (.ereleaseKey (fld w 20 3) (fld w 14 6))
  else .error .badFunction

/-- Major 0xEA: EPROBE. -/
def decodeEA (w : Nat) : Except DecodeError Instr :=
  if field w 0 9 = 0 then .ok (.eprobe (fld w 18 6) (fld w 12 6) (fld w 9 3))
  else .error .reservedNonzero

/-- Major 0xEB: BAR.INIT. -/
def decodeEB (w : Nat) : Except DecodeError Instr :=
  if field w 0 8 = 0 then .ok (.barInit (fld w 20 4) (fld w 8 12))
  else .error .reservedNonzero

/-- Major 0xEC: BAR.ARRIVE. -/
def decodeEC (w : Nat) : Except DecodeError Instr :=
  if field w 0 20 = 0 then .ok (.barArrive (fld w 20 4))
  else .error .reservedNonzero

/-- Major 0xED: BAR.WAIT. -/
def decodeED (w : Nat) : Except DecodeError Instr :=
  if field w 0 19 = 0 then .ok (.barWait (fld w 20 4) (fld w 19 1))
  else .error .reservedNonzero

/-- Major 0xF0: TRAP. -/
def decodeF0 (w : Nat) : Except DecodeError Instr :=
  if field w 0 12 = 0 then .ok (.trap (fld w 12 12))
  else .error .reservedNonzero

/-- Major 0xF1: RDSR. -/
def decodeF1 (w : Nat) : Except DecodeError Instr :=
  if field w 0 10 = 0 then .ok (.rdsr (fld w 18 6) (fld w 10 8))
  else .error .reservedNonzero

/-- Major 0xF2: WRSR. -/
def decodeF2 (w : Nat) : Except DecodeError Instr :=
  if field w 0 10 = 0 then .ok (.wrsr (fld w 18 6) (fld w 10 8))
  else .error .reservedNonzero

/-- Major 0xF3: EMUGET. -/
def decodeF3 (w : Nat) : Except DecodeError Instr :=
  if field w 0 15 = 0 then .ok (.emuget (fld w 18 6) (fld w 15 3))
  else .error .reservedNonzero

/-- Major 0xF4: EMUPUT. -/
def decodeF4 (w : Nat) : Except DecodeError Instr :=
  if field w 0 12 = 0 ∧ field w 18 3 = 0 then .ok (.emuput (fld w 21 3) (fld w 12 6))
  else .error .reservedNonzero

/-- Major 0xF5: EMURD. -/
def decodeF5 (w : Nat) : Except DecodeError Instr :=
  if field w 0 5 = 0 then .ok (.emurd (fld w 18 6) (fld w 15 3) (fld w 9 6) (fld w 5 4))
  else .error .reservedNonzero

/-- Major 0xF6: EMUWR. -/
def decodeF6 (w : Nat) : Except DecodeError Instr :=
  if field w 0 5 = 0 then .ok (.emuwr (fld w 18 6) (fld w 15 3) (fld w 9 6) (fld w 5 4))
  else .error .reservedNonzero

/-- Major 0xF7: EMURET. -/
def decodeF7 (w : Nat) : Except DecodeError Instr :=
  if field w 0 12 = 0 ∧ field w 18 3 = 0 then .ok (.emuret (fld w 23 1) (fld w 21 2) (fld w 12 6))
  else .error .reservedNonzero

/-- Major 0xF8: DFMA. -/
def decodeF8 (w : Nat) : Except DecodeError Instr :=
  .ok (.dfma (fld w 18 6) (fld w 12 6) (fld w 6 6) (fld w 0 6))

/-- Major 0xF9: DOP. -/
def decodeF9 (w : Nat) : Except DecodeError Instr :=
  .ok (.dop (fld w 18 6) (fld w 12 6) (fld w 6 6) (fld w 0 6))

/-- Major 0xFA: DCMP. -/
def decodeFA (w : Nat) : Except DecodeError Instr :=
  .ok (.dcmp (fld w 18 6) (fld w 12 6) (fld w 6 6) (fld w 0 6))

/-- Major 0xFB: DCVT. -/
def decodeFB (w : Nat) : Except DecodeError Instr :=
  if field w 0 10 = 0 then .ok (.dcvt (fld w 18 6) (fld w 12 6) (fld w 10 2))
  else .error .reservedNonzero

/-- The majors 0x00 to 0x0F, by their low four bits. -/
def decodeGroup0 (low w : Nat) : Except DecodeError Instr :=
  match low with
  | 1 => decode01 w
  | 2 => decode02 w
  | 3 => decode03 w
  | 4 => decode04 w
  | 5 => decode05 w
  | 6 => decode06 w
  | 7 => decode07 w
  | 8 => decode08 w
  | 9 => decode09 w
  | 10 => decode0A w
  | 11 => decode0B w
  | 12 => decode0C w
  | 13 => decode0D w
  | 14 => decode0E w
  | 15 => decode0F w
  | 0 => .error .endOfText
  | _ => .error .unallocatedMajor

/-- The majors 0x10 to 0x1F, by their low four bits. -/
def decodeGroup1 (low w : Nat) : Except DecodeError Instr :=
  match low with
  | 0 => decode10 w
  | 1 => decode11 w
  | 2 => decode12 w
  | 3 => decode13 w
  | 4 => decode14 w
  | 5 => decode15 w
  | 6 => decode16 w
  | 7 => decode17 w
  | 8 => decode18 w
  | 9 => decode19 w
  | 10 => decode1A w
  | 11 => decode1B w
  | 12 => decode1C w
  | 13 => decode1D w
  | 14 => decode1E w
  | 15 => decode1F w
  | _ => .error .unallocatedMajor

/-- The majors 0x20 to 0x2F, by their low four bits. -/
def decodeGroup2 (low w : Nat) : Except DecodeError Instr :=
  match low with
  | 0 => decode20 w
  | 1 => decode21 w
  | 2 => decode22 w
  | 3 => decode23 w
  | 4 => decode24 w
  | _ => .error .unallocatedMajor

/-- The majors 0x40 to 0x4F, by their low four bits. -/
def decodeGroup4 (low w : Nat) : Except DecodeError Instr :=
  match low with
  | 0 => decode40 w
  | 1 => decode41 w
  | 2 => decode42 w
  | 3 => decode43 w
  | 4 => decode44 w
  | 5 => decode45 w
  | 6 => decode46 w
  | 7 => decode47 w
  | 8 => decode48 w
  | 9 => decode49 w
  | 10 => decode4A w
  | _ => .error .unallocatedMajor

/-- The majors 0x70 to 0x7F, by their low four bits. -/
def decodeGroup7 (low w : Nat) : Except DecodeError Instr :=
  match low with
  | 0 => decode70 w
  | 1 => decode71 w
  | 2 => decode72 w
  | 3 => decode73 w
  | 4 => decode74 w
  | 5 => decode75 w
  | _ => .error .unallocatedMajor

/-- The majors 0x80 to 0x8F, by their low four bits. -/
def decodeGroup8 (low w : Nat) : Except DecodeError Instr :=
  match low with
  | 0 => decode80 w
  | 1 => decode81 w
  | 2 => decode82 w
  | 3 => decode83 w
  | 4 => decode84 w
  | 5 => decode85 w
  | 6 => decode86 w
  | 7 => decode87 w
  | 8 => decode88 w
  | 9 => decode89 w
  | 10 => decode8A w
  | 11 => decode8B w
  | 12 => decode8C w
  | 13 => decode8D w
  | 14 => decode8E w
  | 15 => decode8F w
  | _ => .error .unallocatedMajor

/-- The majors 0x90 to 0x9F, by their low four bits. -/
def decodeGroup9 (low w : Nat) : Except DecodeError Instr :=
  match low with
  | 0 => decode90 w
  | 1 => decode91 w
  | 2 => decode92 w
  | 3 => decode93 w
  | _ => .error .unallocatedMajor

/-- The majors 0xA0 to 0xAF, by their low four bits. -/
def decodeGroupA (low w : Nat) : Except DecodeError Instr :=
  match low with
  | 0 => decodeA0 w
  | 1 => decodeA1 w
  | 2 => decodeA2 w
  | 3 => decodeA3 w
  | 4 => decodeA4 w
  | 5 => decodeA5 w
  | 6 => decodeA6 w
  | 7 => decodeA7 w
  | _ => .error .unallocatedMajor

/-- The majors 0xB0 to 0xBF, by their low four bits. -/
def decodeGroupB (low w : Nat) : Except DecodeError Instr :=
  match low with
  | 0 => decodeB0 w
  | 1 => decodeB1 w
  | 2 => decodeB2 w
  | 3 => decodeB3 w
  | 4 => decodeB4 w
  | 5 => decodeB5 w
  | 6 => decodeB6 w
  | 7 => decodeB7 w
  | 8 => decodeB8 w
  | 9 => decodeB9 w
  | 10 => decodeBA w
  | 11 => decodeBB w
  | _ => .error .unallocatedMajor

/-- The majors 0xC0 to 0xCF, by their low four bits. -/
def decodeGroupC (low w : Nat) : Except DecodeError Instr :=
  match low with
  | 0 => decodeC0 w
  | 1 => decodeC1 w
  | 2 => decodeC2 w
  | 3 => decodeC3 w
  | 4 => decodeC4 w
  | 5 => decodeC5 w
  | 6 => decodeC6 w
  | 7 => decodeC7 w
  | 8 => decodeC8 w
  | 9 => decodeC9 w
  | 10 => decodeCA w
  | _ => .error .unallocatedMajor

/-- The majors 0xD0 to 0xDF, by their low four bits. -/
def decodeGroupD (low w : Nat) : Except DecodeError Instr :=
  match low with
  | 0 => decodeD0 w
  | 1 => decodeD1 w
  | 2 => decodeD2 w
  | 3 => decodeD3 w
  | 4 => decodeD4 w
  | 5 => decodeD5 w
  | 6 => decodeD6 w
  | 7 => decodeD7 w
  | 8 => decodeD8 w
  | _ => .error .unallocatedMajor

/-- The majors 0xE0 to 0xEF, by their low four bits. -/
def decodeGroupE (low w : Nat) : Except DecodeError Instr :=
  match low with
  | 0 => decodeE0 w
  | 1 => decodeE1 w
  | 2 => decodeE2 w
  | 3 => decodeE3 w
  | 4 => decodeE4 w
  | 5 => decodeE5 w
  | 6 => decodeE6 w
  | 7 => decodeE7 w
  | 8 => decodeE8 w
  | 9 => decodeE9 w
  | 10 => decodeEA w
  | 11 => decodeEB w
  | 12 => decodeEC w
  | 13 => decodeED w
  | _ => .error .unallocatedMajor

/-- The majors 0xF0 to 0xFF, by their low four bits. -/
def decodeGroupF (low w : Nat) : Except DecodeError Instr :=
  match low with
  | 0 => decodeF0 w
  | 1 => decodeF1 w
  | 2 => decodeF2 w
  | 3 => decodeF3 w
  | 4 => decodeF4 w
  | 5 => decodeF5 w
  | 6 => decodeF6 w
  | 7 => decodeF7 w
  | 8 => decodeF8 w
  | 9 => decodeF9 w
  | 10 => decodeFA w
  | 11 => decodeFB w
  | 15 => .error .reservedWord
  | _ => .error .unallocatedMajor

/-- The instruction a 32-bit word holds (R45, R52 to R57). -/
def decodeWord (w : Nat) : Except DecodeError Instr :=
  match field w 28 4 with
  | 0 => decodeGroup0 (field w 24 4) w
  | 1 => decodeGroup1 (field w 24 4) w
  | 2 => decodeGroup2 (field w 24 4) w
  | 4 => decodeGroup4 (field w 24 4) w
  | 7 => decodeGroup7 (field w 24 4) w
  | 8 => decodeGroup8 (field w 24 4) w
  | 9 => decodeGroup9 (field w 24 4) w
  | 10 => decodeGroupA (field w 24 4) w
  | 11 => decodeGroupB (field w 24 4) w
  | 12 => decodeGroupC (field w 24 4) w
  | 13 => decodeGroupD (field w 24 4) w
  | 14 => decodeGroupE (field w 24 4) w
  | 15 => decodeGroupF (field w 24 4) w
  | _ => .error .unallocatedMajor

/-- The first instruction of a byte list, with the bytes after it; words are little-endian (R5, R23). DEDUCED (log entry 121). -/
def decode (bs : List Byte) : Except DecodeError (Instr × List Byte) :=
  match bs with
  | b0 :: b1 :: b2 :: b3 :: rest =>
    match decodeWord (natOf [b0, b1, b2, b3]) with
    | .ok i => .ok (i, rest)
    | .error e => .error e
  | _ => .error .truncated

/-- The instruction the decoder reads from a word whose bits are w, numbered as the opcode table numbers them. Every word
is 32 bits long. -/
def decodeTableWord (nbits w : Nat) : Option Instr :=
  match decode (bytesOf 4 (w % 2 ^ min nbits 32)) with
  | .ok (i, _) => some i
  | .error _ => none

/-- The word with the given fixed bits and the given fields, each a value with the position of its lowest bit. -/
def mkWord (fixed : Nat) (fields : List (Nat × Nat)) : BitVec 32 :=
  BitVec.ofNat 32 (fields.foldl (fun acc p => acc + p.1 * 2 ^ p.2) fixed)

/-- The word of an instruction, from the encoding tables (R23, R52 to R57 and the entries); none for the steps that have no
word. -/
def encode (i : Instr) : Option (BitVec 32) :=
  match i with
  | .mode mguard mtype mrnd msat msub value => some (mkWord 0x1000000 [(mguard.toNat, 23), (mtype.toNat, 22), (mrnd.toNat, 21), (msat.toNat, 20), (msub.toNat, 19), (value.toNat, 0)])
  | .trl count x1 x2 x3 => some (mkWord 0x2000000 [(count.toNat, 20), (x1.toNat, 12), (x2.toNat, 6), (x3.toNat, 0)])
  | .trlRange x1 x2 => some (mkWord 0x2400000 [(x1.toNat, 12), (x2.toNat, 6)])
  | .nop => some 0x3000000
  | .br cond off => some (mkWord 0x4000000 [(cond.toNat, 20), (off.toNat, 0)])
  | .brd cond off => some (mkWord 0x5000000 [(cond.toNat, 20), (off.toNat, 0)])
  | .rjoin off => some (mkWord 0x6000000 [(off.toNat, 0)])
  | .regang slices => some (mkWord 0x7000000 [(slices.toNat, 0)])
  | .call n off => some (mkWord 0x8000000 [(n.toNat, 18), (off.toNat, 0)])
  | .calli n a => some (mkWord 0x9000000 [(n.toNat, 18), (a.toNat, 12)])
  | .ret n => some (mkWord 0xa000000 [(n.toNat, 18)])
  | .brx a => some (mkWord 0xb000000 [(a.toNat, 12)])
  | .yield off => some (mkWord 0xc000000 [(off.toNat, 0)])
  | .yieldB b off => some (mkWord 0xd000000 [(b.toNat, 20), (off.toNat, 0)])
  | .waitmon lvl c a b tmo => some (mkWord 0xe000000 [(lvl.toNat, 22), (c.toNat, 18), (a.toNat, 12), (b.toNat, 6), (tmo.toNat, 0)])
  | .exit => some 0xf000000
  | .iadd d a b => some (mkWord 0x10000000 [(d.toNat, 18), (a.toNat, 12), (b.toNat, 6)])
  | .isub d a b => some (mkWord 0x10000001 [(d.toNat, 18), (a.toNat, 12), (b.toNat, 6)])
  | .imin d a b => some (mkWord 0x10000002 [(d.toNat, 18), (a.toNat, 12), (b.toNat, 6)])
  | .imax d a b => some (mkWord 0x10000003 [(d.toNat, 18), (a.toNat, 12), (b.toNat, 6)])
  | .nmin d a b => some (mkWord 0x10000004 [(d.toNat, 18), (a.toNat, 12), (b.toNat, 6)])
  | .nmax d a b => some (mkWord 0x10000005 [(d.toNat, 18), (a.toNat, 12), (b.toNat, 6)])
  | .iabsd d a b => some (mkWord 0x10000006 [(d.toNat, 18), (a.toNat, 12), (b.toNat, 6)])
  | .and d a b => some (mkWord 0x11000000 [(d.toNat, 18), (a.toNat, 12), (b.toNat, 6)])
  | .or d a b => some (mkWord 0x11000001 [(d.toNat, 18), (a.toNat, 12), (b.toNat, 6)])
  | .xor d a b => some (mkWord 0x11000002 [(d.toNat, 18), (a.toNat, 12), (b.toNat, 6)])
  | .andn d a b => some (mkWord 0x11000003 [(d.toNat, 18), (a.toNat, 12), (b.toNat, 6)])
  | .orn d a b => some (mkWord 0x11000004 [(d.toNat, 18), (a.toNat, 12), (b.toNat, 6)])
  | .shl d a b => some (mkWord 0x12000000 [(d.toNat, 18), (a.toNat, 12), (b.toNat, 6)])
  | .shr d a b => some (mkWord 0x12000001 [(d.toNat, 18), (a.toNat, 12), (b.toNat, 6)])
  | .sar d a b => some (mkWord 0x12000002 [(d.toNat, 18), (a.toNat, 12), (b.toNat, 6)])
  | .rol d a b => some (mkWord 0x12000003 [(d.toNat, 18), (a.toNat, 12), (b.toNat, 6)])
  | .ror d a b => some (mkWord 0x12000004 [(d.toNat, 18), (a.toNat, 12), (b.toNat, 6)])
  | .imad24 d a b c => some (mkWord 0x13000000 [(d.toNat, 18), (a.toNat, 12), (b.toNat, 6), (c.toNat, 0)])
  | .nmad24 d a b c => some (mkWord 0x14000000 [(d.toNat, 18), (a.toNat, 12), (b.toNat, 6), (c.toNat, 0)])
  | .imul32Lo d a b look => some (mkWord 0x15000000 [(d.toNat, 18), (a.toNat, 12), (b.toNat, 6), (look.toNat, 2)])
  | .imul32Hi d a b look => some (mkWord 0x15000001 [(d.toNat, 18), (a.toNat, 12), (b.toNat, 6), (look.toNat, 2)])
  | .imul32Nhi d a b look => some (mkWord 0x15000002 [(d.toNat, 18), (a.toNat, 12), (b.toNat, 6), (look.toNat, 2)])
  | .bfe d a b c => some (mkWord 0x16000000 [(d.toNat, 18), (a.toNat, 12), (b.toNat, 6), (c.toNat, 0)])
  | .bfi d a b c => some (mkWord 0x17000000 [(d.toNat, 18), (a.toNat, 12), (b.toNat, 6), (c.toNat, 0)])
  | .popc d a => some (mkWord 0x18000000 [(d.toNat, 18), (a.toNat, 12)])
  | .clz d a => some (mkWord 0x18000001 [(d.toNat, 18), (a.toNat, 12)])
  | .brev d a => some (mkWord 0x18000002 [(d.toNat, 18), (a.toNat, 12)])
  | .ffs d a => some (mkWord 0x18000003 [(d.toNat, 18), (a.toNat, 12)])
  | .sel d a b c => some (mkWord 0x19000000 [(d.toNat, 18), (a.toNat, 12), (b.toNat, 6), (c.toNat, 0)])
  | .icmp d a b fn => some (mkWord 0x1a000000 [(d.toNat, 18), (a.toNat, 12), (b.toNat, 6), (fn.toNat, 0)])
  | .pand d a b => some (mkWord 0x1b000000 [(d.toNat, 18), (a.toNat, 12), (b.toNat, 6)])
  | .por d a b => some (mkWord 0x1b000001 [(d.toNat, 18), (a.toNat, 12), (b.toNat, 6)])
  | .pxor d a b => some (mkWord 0x1b000002 [(d.toNat, 18), (a.toNat, 12), (b.toNat, 6)])
  | .pandn d a b => some (mkWord 0x1b000003 [(d.toNat, 18), (a.toNat, 12), (b.toNat, 6)])
  | .iaddi d a imm => some (mkWord 0x1c000000 [(d.toNat, 18), (a.toNat, 12), (imm.toNat, 0)])
  | .andi d a imm => some (mkWord 0x1d000000 [(d.toNat, 18), (a.toNat, 12), (imm.toNat, 0)])
  | .ori d a imm => some (mkWord 0x1e000000 [(d.toNat, 18), (a.toNat, 12), (imm.toNat, 0)])
  | .movi d imm => some (mkWord 0x1f000000 [(d.toNat, 18), (imm.toNat, 0)])
  | .movhi d imm => some (mkWord 0x20000000 [(d.toNat, 18), (imm.toNat, 0)])
  | .lea d a b sh => some (mkWord 0x21000000 [(d.toNat, 18), (a.toNat, 12), (b.toNat, 6), (sh.toNat, 0)])
  | .iadd64 d a b => some (mkWord 0x22000000 [(d.toNat, 18), (a.toNat, 12), (b.toNat, 6)])
  | .isub64 d a b => some (mkWord 0x22000001 [(d.toNat, 18), (a.toNat, 12), (b.toNat, 6)])
  | .smovSs x y => some (mkWord 0x23000000 [(x.toNat, 16), (y.toNat, 10)])
  | .smovSr x y => some (mkWord 0x23400000 [(x.toNat, 16), (y.toNat, 10)])
  | .smovRs x y => some (mkWord 0x23800000 [(x.toNat, 16), (y.toNat, 10)])
  | .sop fn d a b => some (mkWord 0x24000000 [(fn.toNat, 20), (d.toNat, 15), (a.toNat, 10), (b.toNat, 5)])
  | .ffma d a b c => some (mkWord 0x40000000 [(d.toNat, 18), (a.toNat, 12), (b.toNat, 6), (c.toNat, 0)])
  | .fadd d a b => some (mkWord 0x41000000 [(d.toNat, 18), (a.toNat, 12), (b.toNat, 6)])
  | .fsub d a b => some (mkWord 0x41000001 [(d.toNat, 18), (a.toNat, 12), (b.toNat, 6)])
  | .fmul d a b => some (mkWord 0x41000002 [(d.toNat, 18), (a.toNat, 12), (b.toNat, 6)])
  | .fmin d a b => some (mkWord 0x41000003 [(d.toNat, 18), (a.toNat, 12), (b.toNat, 6)])
  | .fmax d a b => some (mkWord 0x41000004 [(d.toNat, 18), (a.toNat, 12), (b.toNat, 6)])
  | .fcmp d a b fn => some (mkWord 0x42000000 [(d.toNat, 18), (a.toNat, 12), (b.toNat, 6), (fn.toNat, 0)])
  | .rcp d a look => some (mkWord 0x43000000 [(d.toNat, 18), (a.toNat, 12), (look.toNat, 2)])
  | .rsqrt d a look => some (mkWord 0x43000001 [(d.toNat, 18), (a.toNat, 12), (look.toNat, 2)])
  | .sqrt d a look => some (mkWord 0x43000002 [(d.toNat, 18), (a.toNat, 12), (look.toNat, 2)])
  | .div d a b look => some (mkWord 0x43000003 [(d.toNat, 18), (a.toNat, 12), (b.toNat, 6), (look.toNat, 2)])
  | .exp2 d a look => some (mkWord 0x44000000 [(d.toNat, 18), (a.toNat, 12), (look.toNat, 2)])
  | .log2 d a look => some (mkWord 0x44000001 [(d.toNat, 18), (a.toNat, 12), (look.toNat, 2)])
  | .sin d a look => some (mkWord 0x44000002 [(d.toNat, 18), (a.toNat, 12), (look.toNat, 2)])
  | .cos d a look => some (mkWord 0x44000003 [(d.toNat, 18), (a.toNat, 12), (look.toNat, 2)])
  | .tanh d a look => some (mkWord 0x45000000 [(d.toNat, 18), (a.toNat, 12), (look.toNat, 2)])
  | .sigm d a look => some (mkWord 0x45000001 [(d.toNat, 18), (a.toNat, 12), (look.toNat, 2)])
  | .cvt d a op sel => some (mkWord 0x46000000 [(d.toNat, 18), (a.toNat, 12), (op.toNat, 8), (sel.toNat, 6)])
  | .f2i d a => some (mkWord 0x47000000 [(d.toNat, 18), (a.toNat, 12)])
  | .i2f d a => some (mkWord 0x47000001 [(d.toNat, 18), (a.toNat, 12)])
  | .f2n d a => some (mkWord 0x47000002 [(d.toNat, 18), (a.toNat, 12)])
  | .n2f d a => some (mkWord 0x47000003 [(d.toNat, 18), (a.toNat, 12)])
  | .frnd d a => some (mkWord 0x47000004 [(d.toNat, 18), (a.toNat, 12)])
  | .ffma2 d a b c => some (mkWord 0x48000000 [(d.toNat, 18), (a.toNat, 12), (b.toNat, 6), (c.toNat, 0)])
  | .fadd2 d a b => some (mkWord 0x49000000 [(d.toNat, 18), (a.toNat, 12), (b.toNat, 6)])
  | .fmul2 d a b => some (mkWord 0x49000001 [(d.toNat, 18), (a.toNat, 12), (b.toNat, 6)])
  | .fmin2 d a b => some (mkWord 0x49000002 [(d.toNat, 18), (a.toNat, 12), (b.toNat, 6)])
  | .fmax2 d a b => some (mkWord 0x49000003 [(d.toNat, 18), (a.toNat, 12), (b.toNat, 6)])
  | .fabs d a => some (mkWord 0x4a000000 [(d.toNat, 18), (a.toNat, 12)])
  | .fneg d a => some (mkWord 0x4a000001 [(d.toNat, 18), (a.toNat, 12)])
  | .fclass d a => some (mkWord 0x4a000002 [(d.toNat, 18), (a.toNat, 12)])
  | .shfl d a b fn => some (mkWord 0x70000000 [(d.toNat, 18), (a.toNat, 12), (b.toNat, 6), (fn.toNat, 0)])
  | .vote d a b fn => some (mkWord 0x71000000 [(d.toNat, 18), (a.toNat, 12), (b.toNat, 6), (fn.toNat, 0)])
  | .red d a b fn => some (mkWord 0x72000000 [(d.toNat, 18), (a.toNat, 12), (b.toNat, 6), (fn.toNat, 0)])
  | .scan d a b fn => some (mkWord 0x73000000 [(d.toNat, 18), (a.toNat, 12), (b.toNat, 6), (fn.toNat, 0)])
  | .matchKey d a => some (mkWord 0x74000000 [(d.toNat, 18), (a.toNat, 12)])
  | .bcast d a b => some (mkWord 0x75000000 [(d.toNat, 18), (a.toNat, 12), (b.toNat, 6)])
  | .ldl d a b look wd => some (mkWord 0x80000000 [(d.toNat, 18), (a.toNat, 12), (b.toNat, 6), (look.toNat, 2), (wd.toNat, 0)])
  | .stl d a b wd => some (mkWord 0x81000000 [(d.toNat, 18), (a.toNat, 12), (b.toNat, 6), (wd.toNat, 0)])
  | .lds d a b look wd => some (mkWord 0x82000000 [(d.toNat, 18), (a.toNat, 12), (b.toNat, 6), (look.toNat, 2), (wd.toNat, 0)])
  | .sts d a b wd => some (mkWord 0x83000000 [(d.toNat, 18), (a.toNat, 12), (b.toNat, 6), (wd.toNat, 0)])
  | .ldc d a b look wd => some (mkWord 0x84000000 [(d.toNat, 18), (a.toNat, 12), (b.toNat, 6), (look.toNat, 2), (wd.toNat, 0)])
  | .stc d a b wd => some (mkWord 0x85000000 [(d.toNat, 18), (a.toNat, 12), (b.toNat, 6), (wd.toNat, 0)])
  | .ldd d a b look wd => some (mkWord 0x86000000 [(d.toNat, 18), (a.toNat, 12), (b.toNat, 6), (look.toNat, 2), (wd.toNat, 0)])
  | .std d a b wd => some (mkWord 0x87000000 [(d.toNat, 18), (a.toNat, 12), (b.toNat, 6), (wd.toNat, 0)])
  | .glq q wd c a x => some (mkWord 0x88000000 [(q.toNat, 23), (wd.toNat, 21), (c.toNat, 17), (a.toNat, 11), (x.toNat, 10)])
  | .gsq wd c a d x => some (mkWord 0x89000000 [(wd.toNat, 22), (c.toNat, 18), (a.toNat, 12), (d.toNat, 6), (x.toNat, 5)])
  | .waitq q n => some (mkWord 0x8a000000 [(q.toNat, 23), (n.toNat, 18)])
  | .popq q wd d => some (mkWord 0x8b000000 [(q.toNat, 23), (wd.toNat, 21), (d.toNat, 15)])
  | .atom op wd rq sp a b => some (mkWord 0x8c000000 [(op.toNat, 20), (wd.toNat, 19), (rq.toNat, 17), (sp.toNat, 12), (a.toNat, 6), (b.toNat, 0)])
  | .atomSc op wd rq dom c a b => some (mkWord 0x8d000000 [(op.toNat, 20), (wd.toNat, 19), (rq.toNat, 17), (dom.toNat, 16), (c.toNat, 12), (a.toNat, 6), (b.toNat, 0)])
  | .bind c o a unb => some (mkWord 0x8e000000 [(c.toNat, 20), (o.toNat, 16), (a.toNat, 10), (unb.toNat, 9)])
  | .acq d o a scope => some (mkWord 0x8f000000 [(d.toNat, 18), (o.toNat, 14), (a.toNat, 8), (scope.toNat, 5)])
  | .rel o a scope => some (mkWord 0x90000000 [(o.toNat, 14), (a.toNat, 8), (scope.toNat, 5)])
  | .fence scope => some (mkWord 0x91000000 [(scope.toNat, 21)])
  | .fenceX scope src dst => some (mkWord 0x92000000 [(scope.toNat, 21), (src.toNat, 16), (dst.toNat, 11)])
  | .mpost d => some (mkWord 0x93000000 [(d.toNat, 18)])
  | .cmov d a => some (mkWord 0xa0000000 [(d.toNat, 20), (a.toNat, 16)])
  | .csetb d a off len => some (mkWord 0xa1000000 [(d.toNat, 20), (a.toNat, 16), (off.toNat, 10), (len.toNat, 4)])
  | .candp d a perm => some (mkWord 0xa2000000 [(d.toNat, 20), (a.toNat, 16), (perm.toNat, 11)])
  | .cseal d a k => some (mkWord 0xa3000000 [(d.toNat, 20), (a.toNat, 16), (k.toNat, 12)])
  | .cunseal d a k => some (mkWord 0xa4000000 [(d.toNat, 20), (a.toNat, 16), (k.toNat, 12)])
  | .cget d a f => some (mkWord 0xa5000000 [(d.toNat, 18), (a.toNat, 14), (f.toNat, 11)])
  | .cldc d c a => some (mkWord 0xa6000000 [(d.toNat, 20), (c.toNat, 16), (a.toNat, 10)])
  | .cstc d c a => some (mkWord 0xa7000000 [(d.toNat, 20), (c.toNat, 16), (a.toNat, 10)])
  | .kgw pc qc g sa sb stride => some (mkWord 0xb0000000 [(pc.toNat, 21), (qc.toNat, 19), (g.toNat, 14), (sa.toNat, 13), (sb.toNat, 12), (stride.toNat, 5)])
  | .kgwRd sel d => some (mkWord 0xb0800000 [(sel.toNat, 20), (d.toNat, 14)])
  | .kpack k a mode role acc base => some (mkWord 0xb1000000 [(k.toNat, 21), (a.toNat, 15), (mode.toNat, 13), (role.toNat, 12), (acc.toNat, 11), (base.toNat, 4)])
  | .kext d k pr mode sel base => some (mkWord 0xb2000000 [(d.toNat, 18), (k.toNat, 15), (pr.toNat, 14), (mode.toNat, 12), (sel.toNat, 10), (base.toNat, 2)])
  | .kmul d a b => some (mkWord 0xb3000000 [(d.toNat, 21), (a.toNat, 18), (b.toNat, 15)])
  | .kmac d a b => some (mkWord 0xb4000000 [(d.toNat, 21), (a.toNat, 18), (b.toNat, 15)])
  | .kadd d a b pr sel => some (mkWord 0xb5000000 [(d.toNat, 21), (a.toNat, 18), (b.toNat, 15), (pr.toNat, 14), (sel.toNat, 12)])
  | .ksub d a b pr sel => some (mkWord 0xb6000000 [(d.toNat, 21), (a.toNat, 18), (b.toNat, 15), (pr.toNat, 14), (sel.toNat, 12)])
  | .kshl d a pr sel m => some (mkWord 0xb7000000 [(d.toNat, 21), (a.toNat, 18), (pr.toNat, 17), (sel.toNat, 15), (m.toNat, 7)])
  | .kshr d a pr sel m => some (mkWord 0xb8000000 [(d.toNat, 21), (a.toNat, 18), (pr.toNat, 17), (sel.toNat, 15), (m.toNat, 7)])
  | .kmov d a pr zero => some (mkWord 0xb9000000 [(d.toNat, 21), (a.toNat, 18), (pr.toNat, 17), (zero.toNat, 16)])
  | .kld k pr sp a => some (mkWord 0xba000000 [(k.toNat, 21), (pr.toNat, 20), (sp.toNat, 15), (a.toNat, 9)])
  | .kst k pr sp a => some (mkWord 0xbb000000 [(k.toNat, 21), (pr.toNat, 20), (sp.toNat, 15), (a.toNat, 9)])
  | .tmma a b grp fresh => some (mkWord 0xc0000000 [(a.toNat, 18), (b.toNat, 12), (grp.toNat, 11), (fresh.toNat, 10)])
  | .tmmaS a b grp fresh => some (mkWord 0xc1000000 [(a.toNat, 18), (b.toNat, 12), (grp.toNat, 11), (fresh.toNat, 10)])
  | .tmmaResume a b => some (mkWord 0xc2000000 [(a.toNat, 18), (b.toNat, 12)])
  | .twait n => some (mkWord 0xc3000000 [(n.toNat, 22)])
  | .tzero d form span fresh rel => some (mkWord 0xc4000000 [(d.toNat, 20), (form.toNat, 19), (span.toNat, 18), (fresh.toNat, 17), (rel.toNat, 16)])
  | .tlda a h fmt sp off st => some (mkWord 0xc5000000 [(a.toNat, 20), (h.toNat, 19), (fmt.toNat, 18), (sp.toNat, 16), (off.toNat, 10), (st.toNat, 4)])
  | .tsta a h fmt sp off st => some (mkWord 0xc6000000 [(a.toNat, 20), (h.toNat, 19), (fmt.toNat, 18), (sp.toNat, 16), (off.toNat, 10), (st.toNat, 4)])
  | .scacc d a sm fresh off => some (mkWord 0xc7000000 [(d.toNat, 20), (a.toNat, 16), (sm.toNat, 14), (fresh.toNat, 13), (off.toNat, 7)])
  | .axr d n b part => some (mkWord 0xc8000000 [(d.toNat, 18), (n.toNat, 14), (b.toNat, 8), (part.toNat, 7)])
  | .axw a n b part => some (mkWord 0xc9000000 [(a.toNat, 18), (n.toNat, 14), (b.toNat, 8), (part.toNat, 7)])
  | .tdesc d a => some (mkWord 0xca000000 [(d.toNat, 18), (a.toNat, 12)])
  | .cpy q => some (mkWord 0xd0000000 [(q.toNat, 22)])
  | .cpySc q => some (mkWord 0xd1000000 [(q.toNat, 22)])
  | .cpyX q => some (mkWord 0xd2000000 [(q.toNat, 22)])
  | .cpyR q => some (mkWord 0xd3000000 [(q.toNat, 22)])
  | .arrive b => some (mkWord 0xd4000000 [(b.toNat, 20)])
  | .mbx q x => some (mkWord 0xd5000000 [(q.toNat, 21), (x.toNat, 18)])
  | .mbxw q => some (mkWord 0xd6000000 [(q.toNat, 21)])
  | .cwait n => some (mkWord 0xd7000000 [(n.toNat, 18)])
  | .cstat d sel => some (mkWord 0xd8000000 [(d.toNat, 18), (sel.toNat, 15)])
  | .launch d sp a => some (mkWord 0xe0000000 [(d.toNat, 18), (sp.toNat, 13), (a.toNat, 7)])
  | .launchNb d sp a => some (mkWord 0xe1000000 [(d.toNat, 18), (sp.toNat, 13), (a.toNat, 7)])
  | .join d a => some (mkWord 0xe2000000 [(d.toNat, 18), (a.toNat, 12)])
  | .post a => some (mkWord 0xe3000000 [(a.toNat, 18)])
  | .fork a => some (mkWord 0xe4000000 [(a.toNat, 18)])
  | .joint => some 0xe5000000
  | .bequeath f n w k => some (mkWord 0xe6000000 [(f.toNat, 18), (n.toNat, 15), (w.toNat, 12), (k.toNat, 6)])
  | .estat d clr => some (mkWord 0xe7000000 [(d.toNat, 18), (clr.toNat, 17)])
  | .eclaim f n w k l slot => some (mkWord 0xe8000000 [(f.toNat, 18), (n.toNat, 15), (w.toNat, 12), (k.toNat, 6), (l.toNat, 3), (slot.toNat, 1)])
  | .erelease l => some (mkWord 0xe9000000 [(l.toNat, 20)])
  | .ereleaseKey l k => some (mkWord 0xe9800000 [(l.toNat, 20), (k.toNat, 14)])
  | .eprobe d k l => some (mkWord 0xea000000 [(d.toNat, 18), (k.toNat, 12), (l.toNat, 9)])
  | .barInit b n => some (mkWord 0xeb000000 [(b.toNat, 20), (n.toNat, 8)])
  | .barArrive b => some (mkWord 0xec000000 [(b.toNat, 20)])
  | .barWait b pw => some (mkWord 0xed000000 [(b.toNat, 20), (pw.toNat, 19)])
  | .trap code => some (mkWord 0xf0000000 [(code.toNat, 12)])
  | .rdsr d sr => some (mkWord 0xf1000000 [(d.toNat, 18), (sr.toNat, 10)])
  | .wrsr a sr => some (mkWord 0xf2000000 [(a.toNat, 18), (sr.toNat, 10)])
  | .emuget d o => some (mkWord 0xf3000000 [(d.toNat, 18), (o.toNat, 15)])
  | .emuput o a => some (mkWord 0xf4000000 [(o.toNat, 21), (a.toNat, 12)])
  | .emurd d kind idx part => some (mkWord 0xf5000000 [(d.toNat, 18), (kind.toNat, 15), (idx.toNat, 9), (part.toNat, 5)])
  | .emuwr a kind idx part => some (mkWord 0xf6000000 [(a.toNat, 18), (kind.toNat, 15), (idx.toNat, 9), (part.toNat, 5)])
  | .emuret nc at_ a => some (mkWord 0xf7000000 [(nc.toNat, 23), (at_.toNat, 21), (a.toNat, 12)])
  | .dfma d a b c => some (mkWord 0xf8000000 [(d.toNat, 18), (a.toNat, 12), (b.toNat, 6), (c.toNat, 0)])
  | .dop d a b fn => some (mkWord 0xf9000000 [(d.toNat, 18), (a.toNat, 12), (b.toNat, 6), (fn.toNat, 0)])
  | .dcmp d a b fn => some (mkWord 0xfa000000 [(d.toNat, 18), (a.toNat, 12), (b.toNat, 6), (fn.toNat, 0)])
  | .dcvt d a dir => some (mkWord 0xfb000000 [(d.toNat, 18), (a.toNat, 12), (dir.toNat, 10)])
  | .endOfText _ => none
  | .reservedWord _ => none
  | .emulationEntry _ _ => none
  | .collieHandlerEntry _ _ => none
  | .guardHandlerEntry _ => none
  | .mcVectorEntry _ _ _ _ => none
  | .runStart _ => none
  | .resultArrival _ _ => none
  | .windowSpillFillDone _ _ _ => none
  | .yieldWake _ _ _ => none
  | .monitorWriteWake _ => none
  | .waitmonTimeout _ => none
  | .spuriousWake _ => none
  | .queueDataArrival _ _ _ _ => none
  | .storePerform _ => none
  | .fbRemoteAccessArrival _ _ _ => none
  | .fbAcknowledgement _ => none
  | .fbGrant _ _ => none
  | .fbAccessTimeout _ => none
  | .domainLinkDown _ => none
  | .trapReportWrite _ => none
  | .versionCommit _ => none
  | .workgroupSave _ => none
  | .preemptionDeadline _ => none
  | .urgentScanOut _ => none
  | .translationFaultRecord _ => none
  | .packetAccept _ _ => none
  | .workgroupPlacement _ => none
  | .warpBirth _ => none
  | .warpRelease _ _ => none
  | .dieStealRequest _ _ _ => none
  | .dieStealReply _ => none
  | .workgroupSuspend _ => none
  | .workgroupRestore _ => none
  | .taskStart _ _ => none
  | .taskStealRequest _ _ => none
  | .taskStealReply _ => none
  | .stealBackoffExpiry _ _ => none
  | .gridRetire _ _ => none
  | .energyRefill => none
  | .copyUnitMove _ => none
  | .copyComplete _ => none
  | .tileOpStart _ => none
  | .tileDrain _ => none
  | .tileOpComplete _ => none
  | .estateArrival _ => none
  | .estateExpiry _ _ => none
  | .strayRecordWrite _ => none
  | .lqdoor _ _ _ => none
  | .fqanswer _ _ _ => none
  | .pstatLostClear _ => none
  | .registerWrite _ _ _ => none
  | .apertureAccess _ _ _ _ => none
  | .preempt _ => none
  | .urgent _ => none
  | .resume _ => none
  | .inval _ => none
  | .replace _ => none
  | .ctxkill _ => none
  | .layout _ => none
  | .carve _ => none
  | .carveSwitch => none
  | .preset _ => none
  | .dommap _ => none
  | .commandComplete _ => none
  | .replaceRetired _ => none
  | .eventRingWrite _ => none
  | .partitionReset _ _ => none
  | .functionLevelReset _ => none
  | .vfDisable => none
  | .memoryError _ _ => none
  | .scrubComplete _ => none
  | .ideKm _ _ _ _ => none
  | .ereset _ _ => none
  | .engineReset => none
  | .engineActivation _ _ => none
  | .packageColdReset => none
  | .warm => none
  | .selfTestComplete _ => none
  | .controllerReset => none
  | .watchdog => none
  | .telemetryRefresh => none
  | .gettelem _ => none
  | .getVersion _ => none
  | .getCapabilities _ => none
  | .negotiateAlgorithms _ => none
  | .getCertificate _ => none
  | .challenge _ => none
  | .getMeasurements _ _ => none
  | .keyExchange _ => none
  | .heartbeat _ => none
  | .release _ _ _ _ _ => none
  | .requestUpdate _ => none
  | .verifyComplete _ _ => none
  | .activateFirmware => none
  | .requestDelivery _ => none
  | .move _ _ _ => none
  | .hash _ _ _ => none
  | .rand _ _ => none
  | .mrread _ _ => none
  | .muReset _ => none
  | .absorb _ _ _ => none
  | .copy _ _ => none
  | .sign _ _ _ => none
  | .send _ _ _ => none
  | .musync _ => none
  | .accessDataArrival _ => none
  | .scTicketRequest _ => none
  | .muCommandComplete => none
  | .imageTransfer _ _ => none
  | .completionArrival _ _ => none
  | .completionTimeout _ => none

end Sys2Proof
end

