-- ==== Sys2Proof/Machine/Float.lean ====
section
/-!
DEFINITION. The float formats and their arithmetic (R114 to R117, R130 to R135, R57): a pattern is decoded to an exact
value, the operation is computed exactly on dyadic numbers, and one rounding gives the pattern of the result.
-/
namespace Sys2Proof.Machine

/-- A binary float format: exponent and fraction widths (R114); the bias is 2^(ebits-1) - 1. -/
structure FloatFmt where
  ebits : Nat
  mbits : Nat
deriving DecidableEq, Repr

def FloatFmt.f32 : FloatFmt := ⟨8, 23⟩
def FloatFmt.f16 : FloatFmt := ⟨5, 10⟩
def FloatFmt.bf16 : FloatFmt := ⟨8, 7⟩
def FloatFmt.f64 : FloatFmt := ⟨11, 52⟩

/-- The bit of the sign, so the number of bits below it. -/
def FloatFmt.signBit (f : FloatFmt) : Nat := f.ebits + f.mbits
/-- The exponent of the smallest subnormal: that value is 2^emin. -/
def FloatFmt.emin (f : FloatFmt) : Int := 2 - 2 ^ (f.ebits - 1) - f.mbits
/-- The magnitude pattern of infinity. -/
def FloatFmt.infMag (f : FloatFmt) : Nat := (2 ^ f.ebits - 1) * 2 ^ f.mbits
/-- The canonical NaN (R114). -/
def FloatFmt.nan (f : FloatFmt) : Nat := f.infMag + 2 ^ (f.mbits - 1)
/-- A magnitude pattern with its sign. -/
def FloatFmt.signed (f : FloatFmt) (neg : Bool) (mag : Nat) : Nat := if neg then mag + 2 ^ f.signBit else mag

/-- An exact value: NaN, an infinity, or (-1)^neg * m * 2^e, where m = 0 gives the signed zeros. -/
inductive FVal where
  | nan
  | inf (neg : Bool)
  | fin (neg : Bool) (m : Nat) (e : Int)
deriving DecidableEq, Repr

/-- The value of a pattern (R114). -/
def FloatFmt.decode (f : FloatFmt) (x : Nat) : FVal :=
  let neg := x.testBit f.signBit
  let ex := field x f.mbits f.ebits
  let fr := x % 2 ^ f.mbits
  if ex = 2 ^ f.ebits - 1 then (if fr = 0 then .inf neg else .nan)
  else if ex = 0 then .fin neg fr f.emin
  else .fin neg (fr + 2 ^ f.mbits) (f.emin + ((ex : Int) - 1))

/-- A subnormal pattern reads as the zero of its sign when sub is set (R115). -/
def FloatFmt.flushIn (f : FloatFmt) (sub : Bool) (x : Nat) : Nat :=
  if sub && field x f.mbits f.ebits == 0 then f.signed (x.testBit f.signBit) 0 else x % 2 ^ (f.signBit + 1)

/-- m * 2^k for a positive or negative k, rounded down. -/
def shiftNat (m : Nat) (k : Int) : Nat := if 0 ≤ k then m * 2 ^ k.toNat else m / 2 ^ (-k).toNat

/-- Whether the magnitude is increased when rem / den of a unit is cut off, above a last kept digit of the given
parity (R117). sticky says that a nonzero amount below rem was cut off already. -/
def roundUp (rnd : Nat) (neg odd : Bool) (rem den : Nat) (sticky : Bool) : Bool :=
  let any := rem != 0 || sticky
  match rnd with
  | 0 => 2 * rem > den || (2 * rem == den && (sticky || odd))
  | 1 => false
  | 2 => neg && any
  | 3 => !neg && any
  | _ => 2 * rem ≥ den

/-- The magnitude pattern of overflow (R117). -/
def FloatFmt.overflow (f : FloatFmt) (rnd : Nat) (sat neg : Bool) : Nat :=
  let inf := if sat then f.infMag - 1 else f.infMag
  match rnd with
  | 1 => f.infMag - 1
  | 2 => if neg then inf else f.infMag - 1
  | 3 => if neg then f.infMag - 1 else inf
  | _ => inf

/-- Rounds (-1)^neg * m * 2^e, plus a nonzero amount below one unit of m when sticky, to a pattern (R117). A sticky
argument needs m of at least mbits + 3 bits. -/
def FloatFmt.round (f : FloatFmt) (rnd : Nat) (sat neg : Bool) (m : Nat) (e : Int) (sticky : Bool := false) : Nat :=
  if m = 0 then f.signed neg 0
  else
    let q := max f.emin (e + m.log2 - f.mbits)
    let sh := q - e
    let keep := shiftNat m (-sh)
    let den := 2 ^ sh.toNat
    let rem := if 0 < sh then m % den else 0
    let k := if roundUp rnd neg (keep % 2 == 1) rem den sticky then keep + 1 else keep
    let mag := (q - f.emin).toNat * 2 ^ f.mbits + k
    f.signed neg (if f.infMag ≤ mag then f.overflow rnd sat neg else mag)

/-- A result that is subnormal after rounding is written as zero of its sign when sub is set (R115). -/
def FloatFmt.flushOut (f : FloatFmt) (sub : Bool) (x : Nat) : Nat := f.flushIn sub x

/-- What an arithmetic instruction takes from the mode register (R117, R115). -/
structure RoundCfg where
  rnd : Nat
  sat : Bool
  sub : Bool
deriving DecidableEq, Repr

/-- The pattern of an exact value, rounded once; an infinity stays one and NaN is canonical (R115, R117). -/
def FloatFmt.ofVal (f : FloatFmt) (c : RoundCfg) : FVal → Nat
  | .nan => f.nan
  | .inf neg => f.signed neg f.infMag
  | .fin neg m e => f.flushOut c.sub (f.round c.rnd c.sat neg m e)

/-- The signed integer (-1)^neg * m * 2^(e - base), for e at or above base. -/
def dyadicInt (neg : Bool) (m : Nat) (e base : Int) : Int :=
  let v : Int := ((m * 2 ^ (e - base).toNat : Nat) : Int)
  if neg then -v else v

/-- The sum of two exact values. An exact zero sum of opposite signs is +0, or -0 under RDN (R117). -/
def FVal.add (rnd : Nat) : FVal → FVal → FVal
  | .nan, _ => .nan
  | _, .nan => .nan
  | .inf a, .inf b => if a = b then .inf a else .nan
  | .inf a, .fin _ _ _ => .inf a
  | .fin _ _ _, .inf b => .inf b
  | .fin na ma ea, .fin nb mb eb =>
    let base := min ea eb
    let v := dyadicInt na ma ea base + dyadicInt nb mb eb base
    if v = 0 then
      (if ma = 0 ∧ mb = 0 ∧ na = nb then .fin na 0 base else .fin (rnd == 2) 0 base)
    else .fin (v < 0) v.natAbs base

/-- The exact product of two values; 0 times infinity is NaN (R115). -/
def FVal.mul : FVal → FVal → FVal
  | .nan, _ => .nan
  | _, .nan => .nan
  | .inf a, .inf b => .inf (a != b)
  | .inf a, .fin nb mb _ => if mb = 0 then .nan else .inf (a != nb)
  | .fin na ma _, .inf b => if ma = 0 then .nan else .inf (na != b)
  | .fin na ma ea, .fin nb mb eb => .fin (na != nb) (ma * mb) (ea + eb)

def FVal.neg : FVal → FVal
  | .nan => .nan
  | .inf n => .inf (!n)
  | .fin n m e => .fin (!n) m e

/-- a < b on exact values, neither NaN; the two zeros are equal. -/
def FVal.lt : FVal → FVal → Bool
  | .nan, _ => false
  | _, .nan => false
  | .inf a, .inf b => a && !b
  | .inf a, .fin _ _ _ => a
  | .fin _ _ _, .inf b => !b
  | .fin na ma ea, .fin nb mb eb =>
    let base := min ea eb
    dyadicInt na ma ea base < dyadicInt nb mb eb base

def FVal.isNan : FVal → Bool
  | .nan => true
  | _ => false

/-- FFMA (R130): one rounding of a * b + c. -/
def FloatFmt.fma (f : FloatFmt) (c : RoundCfg) (x y z : Nat) : Nat :=
  f.ofVal c (((f.decode (f.flushIn c.sub x)).mul (f.decode (f.flushIn c.sub y))).add c.rnd
    (f.decode (f.flushIn c.sub z)))
/-- FADD, FSUB, FMUL (R131). -/
def FloatFmt.fadd (f : FloatFmt) (c : RoundCfg) (x y : Nat) : Nat :=
  f.ofVal c ((f.decode (f.flushIn c.sub x)).add c.rnd (f.decode (f.flushIn c.sub y)))
def FloatFmt.fsub (f : FloatFmt) (c : RoundCfg) (x y : Nat) : Nat :=
  f.ofVal c ((f.decode (f.flushIn c.sub x)).add c.rnd (f.decode (f.flushIn c.sub y)).neg)
def FloatFmt.fmul (f : FloatFmt) (c : RoundCfg) (x y : Nat) : Nat :=
  f.ofVal c ((f.decode (f.flushIn c.sub x)).mul (f.decode (f.flushIn c.sub y)))

/-- The order of FMIN and FMAX: by value, with -0 below +0 (R131). -/
def FloatFmt.before (f : FloatFmt) (x y : Nat) : Bool :=
  (f.decode x).lt (f.decode y) || (!(f.decode y).lt (f.decode x) && x.testBit f.signBit && !y.testBit f.signBit)

/-- FMIN and FMAX (R131): an operand's pattern as read. -/
def FloatFmt.fminmax (f : FloatFmt) (sub isMax : Bool) (x0 y0 : Nat) : Nat :=
  let x := f.flushIn sub x0
  let y := f.flushIn sub y0
  if (f.decode x).isNan && (f.decode y).isNan then f.nan
  else if (f.decode x).isNan then y
  else if (f.decode y).isNan then x
  else if isMax then (if f.before x y then y else x)
  else (if f.before y x then y else x)

/-- FCMP (R132): the relation of function code fn. -/
def FloatFmt.fcmp (f : FloatFmt) (sub : Bool) (fn : Nat) (x0 y0 : Nat) : Bool :=
  let x := f.decode (f.flushIn sub x0)
  let y := f.decode (f.flushIn sub y0)
  let u := x.isNan || y.isNan
  match fn with
  | 0 => !u && !x.lt y && !y.lt x
  | 1 => u || x.lt y || y.lt x
  | 2 => !u && x.lt y
  | 3 => !u && !y.lt x
  | _ => u

/-- FCLASS (R134). -/
def FloatFmt.fclass (f : FloatFmt) (x : Nat) : Nat :=
  let neg := x.testBit f.signBit
  let ex := field x f.mbits f.ebits
  let fr := x % 2 ^ f.mbits
  if ex = 2 ^ f.ebits - 1 then
    (if fr = 0 then (if neg then 1 else 2 ^ 7) else (if fr.testBit (f.mbits - 1) then 2 ^ 9 else 2 ^ 8))
  else if ex = 0 then
    (if fr = 0 then (if neg then 2 ^ 3 else 2 ^ 4) else (if neg then 2 ^ 2 else 2 ^ 5))
  else (if neg then 2 ^ 1 else 2 ^ 6)

/-- An exact finite value rounded to an integer (R117, R135). -/
def roundInt (rnd : Nat) (neg : Bool) (m : Nat) (e : Int) : Int :=
  let den := 2 ^ (-e).toNat
  let keep := shiftNat m e
  let rem := if e < 0 then m % den else 0
  let k := if roundUp rnd neg (keep % 2 == 1) rem den false then keep + 1 else keep
  if neg then -(k : Int) else k

/-- F2I and F2N (R135) and DCVT to i32 (R57): nanv stands for NaN and, without saturation, for out of range. -/
def floatToInt (rnd : Nat) (sat : Bool) (lo hi : Int) (bad : BitVec 32) (v : FVal) : BitVec 32 :=
  match v with
  | .nan => if sat then 0 else bad
  | .inf neg => if sat then word32 (if neg then lo else hi) else bad
  | .fin neg m e =>
    let r := roundInt rnd neg m e
    if r < lo ∨ hi < r then (if sat then word32 (clampInt lo hi r) else bad) else word32 r

/-- FRND (R135): an integral value in the same format, keeping the sign of zero. -/
def FloatFmt.frnd (f : FloatFmt) (rnd : Nat) (sub : Bool) (x : Nat) : Nat :=
  match f.decode (f.flushIn sub x) with
  | .nan => f.nan
  | .inf neg => f.signed neg f.infMag
  | .fin neg m e => f.signed neg (f.round 1 false false (roundInt rnd neg m e).natAbs 0)

/-- I2F and N2F (R135): an integer rounded into the format. -/
def FloatFmt.ofInt (f : FloatFmt) (c : RoundCfg) (v : Int) : Nat :=
  f.flushOut c.sub (f.round c.rnd c.sat (v < 0) v.natAbs 0)

/-- A value of one format rounded into another (CVT, R136; DCVT, R57; R138). -/
def FloatFmt.convert (src dst : FloatFmt) (subIn : Bool) (c : RoundCfg) (x : Nat) : Nat :=
  dst.ofVal c (src.decode (src.flushIn subIn x))

/-- The quotient of two exact values rounded once (R138). Saturation replaces only infinite results of finite
operands, division by zero among them. -/
def FloatFmt.fdiv (f : FloatFmt) (c : RoundCfg) (x y : Nat) : Nat :=
  match f.decode (f.flushIn c.sub x), f.decode (f.flushIn c.sub y) with
  | .nan, _ => f.nan
  | _, .nan => f.nan
  | .inf _, .inf _ => f.nan
  | .inf a, .fin b _ _ => f.signed (a != b) f.infMag
  | .fin a _ _, .inf b => f.signed (a != b) 0
  | .fin a ma ea, .fin b mb eb =>
    if mb = 0 then
      (if ma = 0 then f.nan else f.signed (a != b) (if c.sat then f.infMag - 1 else f.infMag))
    else if ma = 0 then f.signed (a != b) 0
    else
      let k := f.mbits + 4 + mb.log2
      let num := ma * 2 ^ k
      f.flushOut c.sub (f.round c.rnd c.sat (a != b) (num / mb) (ea - eb - k) (num % mb != 0))

/-- RCP (R138). -/
def FloatFmt.frcp (f : FloatFmt) (c : RoundCfg) (x : Nat) : Nat :=
  f.fdiv c (f.round 0 false false 1 0) x

/-- The integer square root by n binary digits: the greatest r below 2^n above acc's digits with r * r at most m. -/
def isqrtGo (m : Nat) : Nat → Nat → Nat
  | 0, acc => acc
  | n + 1, acc =>
    let t := acc + 2 ^ n
    isqrtGo m n (if t * t ≤ m then t else acc)

/-- The integer square root of m. -/
def isqrt (m : Nat) : Nat := isqrtGo m (m.log2 / 2 + 1) 0

/-- SQRT (R138). -/
def FloatFmt.fsqrt (f : FloatFmt) (c : RoundCfg) (x : Nat) : Nat :=
  match f.decode (f.flushIn c.sub x) with
  | .nan => f.nan
  | .inf neg => if neg then f.nan else f.infMag
  | .fin neg m e =>
    if m = 0 then f.signed neg 0
    else if neg then f.nan
    else
      let k := 2 * (f.mbits + 4)
      let big := if e % 2 = 0 then m * 2 ^ k else m * 2 ^ (k + 1)
      let r := isqrt big
      let e' := (if e % 2 = 0 then e - k else e - k - 1) / 2
      f.flushOut c.sub (f.round c.rnd c.sat false r e' (r * r != big))

/-- The float format a scalar type code names (R30): f32, f16, bf16; and for the packed types that of a half. -/
def fmtOfType (type : Nat) : FloatFmt :=
  match type with
  | 0x10 => .f32
  | 0x11 => .f16
  | 0x13 => .f16
  | _ => .bf16

/-- mode.sub affects the 16-bit formats only (R29, R115). -/
def subFor (type : Nat) (sub : Bool) : Bool := sub && type != 0x10

/-- A scalar float operation on one lane: the operand is read from the low bits of its register, and a 16-bit
result is written with the upper half zero (R128). -/
def floatOperand (type : Nat) (x : BitVec 32) : Nat := if type = 0x10 then x.toNat else x.toNat % 2 ^ 16

/-- An operation applied to both halves of a packed pair (R116, R133). -/
def bothHalves (g : Nat → Nat → Nat → Nat) (x y z : BitVec 32) : BitVec 32 :=
  BitVec.ofNat 32 (g (elem x 16 0) (elem y 16 0) (elem z 16 0) % 2 ^ 16
    + (g (elem x 16 1) (elem y 16 1) (elem z 16 1) % 2 ^ 16) * 2 ^ 16)

end Sys2Proof.Machine
end

