-- ==== Sys2Proof/Machine/IntAlu.lean ====
section
/-!
DEFINITION. Integer arithmetic on words and packed elements (R92 to R112): what one lane or one scalar computes.
-/
namespace Sys2Proof.Machine

/-- The element width of an integer type code (R92). -/
def intWidth (type : Nat) : Nat :=
  if type < 2 then 32 else if type < 4 then 16 else if type < 6 then 8 else if type < 8 then 4 else 2

/-- An integer type code is signed when it is even (R30, R92). -/
def intSigned (type : Nat) : Bool := type % 2 == 0

/-- The operations of major 0x10 on elements (R96). -/
inductive AddOp where
  | add | sub | imin | imax | nmin | nmax | absd
deriving DecidableEq, Repr

/-- The value of an element by the signedness of its type (R92). -/
def elemVal (sgn : Bool) (e x : Nat) : Int := if sgn then sext x e else ((x % 2 ^ e : Nat) : Int)

/-- One element of R96, as the exact value before the low e bits are kept. -/
def addElem (op : AddOp) (sgn : Bool) (e : Nat) (sat : Bool) (x y : Nat) : Int :=
  let a := elemVal sgn e x
  let b := elemVal sgn e y
  let lo : Int := if sgn then -(2 ^ (e - 1) : Nat) else 0
  let hi : Int := if sgn then (2 ^ (e - 1) : Nat) - 1 else (2 ^ e : Nat) - 1
  match op with
  | .add => if sat then clampInt lo hi (a + b) else a + b
  | .sub => if sat then clampInt lo hi (a - b) else a - b
  | .imin => if sext x e ≤ sext y e then a else b
  | .imax => if sext y e ≤ sext x e then a else b
  | .nmin => if x % 2 ^ e ≤ y % 2 ^ e then a else b
  | .nmax => if y % 2 ^ e ≤ x % 2 ^ e then a else b
  | .absd => |a - b|

/-- The low e bits of an exact value. -/
def lowBits (e : Nat) (v : Int) : Nat := (v % (2 ^ e : Nat)).toNat

/-- The word whose element k of e bits, k below n, is f k (R92 put). -/
def packElems (e : Nat) (f : Nat → Nat) : Nat → Nat
  | 0 => 0
  | k + 1 => packElems e f k + (f k % 2 ^ e) * 2 ^ (k * e)

/-- R96 on a whole word. -/
def addWord (op : AddOp) (type : Nat) (sat : Bool) (a b : BitVec 32) : BitVec 32 :=
  let e := intWidth type
  BitVec.ofNat 32 (packElems e
    (fun k => lowBits e (addElem op (intSigned type) e sat (elem a e k) (elem b e k))) (32 / e))

/-- Major 0x11 (R99). -/
def andn (a b : BitVec 32) : BitVec 32 := a &&& ~~~ b
def orn (a b : BitVec 32) : BitVec 32 := a ||| ~~~ b

/-- Major 0x12 (R100). -/
def shl (a n : BitVec 32) : BitVec 32 := if 32 ≤ n.toNat then 0 else a <<< n.toNat
def shr (a n : BitVec 32) : BitVec 32 := if 32 ≤ n.toNat then 0 else a >>> n.toNat
def sar (a n : BitVec 32) : BitVec 32 :=
  if 32 ≤ n.toNat then (if a.msb then 0xFFFFFFFF else 0) else a.sshiftRight n.toNat
def rol (a n : BitVec 32) : BitVec 32 := a.rotateLeft (n.toNat % 32)
def ror (a n : BitVec 32) : BitVec 32 := a.rotateRight (n.toNat % 32)

/-- IMAD24 (R101). -/
def imad24 (sat : Bool) (a b c : BitVec 32) : BitVec 32 :=
  let v := sext a.toNat 24 * sext b.toNat 24 + c.toInt
  word32 (if sat then clampInt (-2 ^ 31) (2 ^ 31 - 1) v else v)
/-- NMAD24 (R101). -/
def nmad24 (sat : Bool) (a b c : BitVec 32) : BitVec 32 :=
  let v := (a.toNat % 2 ^ 24) * (b.toNat % 2 ^ 24) + c.toNat
  BitVec.ofNat 32 (if sat then min v (2 ^ 32 - 1) else v)

/-- IMUL32 (R102). -/
def imulLo (sat : Bool) (a b : BitVec 32) : BitVec 32 :=
  let v := a.toInt * b.toInt
  word32 (if sat then clampInt (-2 ^ 31) (2 ^ 31 - 1) v else v)
def imulHi (a b : BitVec 32) : BitVec 32 := word32 (a.toInt * b.toInt / 2 ^ 32)
def imulNhi (a b : BitVec 32) : BitVec 32 := BitVec.ofNat 32 (a.toNat * b.toNat / 2 ^ 32)

/-- BFE (R103). DEDUCED (log entry 24). -/
def bfe (type : Nat) (a b c : BitVec 32) : BitVec 32 :=
  let off := b.toNat % 32
  let w := min (c.toNat % 64) (32 - off)
  if w = 0 then 0
  else if type = 0 then word32 (sext (field a.toNat off w) w)
  else BitVec.ofNat 32 (field a.toNat off w)

/-- BFI (R104). -/
def bfi (a b c : BitVec 32) : BitVec 32 :=
  let off := c.toNat % 32
  let w := min (field c.toNat 8 6) (32 - off)
  if w = 0 then a else BitVec.ofNat 32 (setField a.toNat off w b.toNat)

/-- POPC, CLZ, BREV, FFS (R105). -/
def popc (a : BitVec 32) : BitVec 32 := BitVec.ofNat 32 (popcount 32 a.toNat)
def clz (a : BitVec 32) : BitVec 32 := if a = 0 then 32 else BitVec.ofNat 32 (31 - a.toNat.log2)
def brev (a : BitVec 32) : BitVec 32 := BitVec.ofNat 32 (maskOf ((bitsBelow 32 a.toNat).map (31 - ·)))
def ffs (a : BitVec 32) : BitVec 32 :=
  match bitsBelow 32 a.toNat with
  | [] => 0xFFFFFFFF
  | i :: _ => BitVec.ofNat 32 i

/-- LEA (R109). -/
def lea (sh : Nat) (a b : BitVec 32) : BitVec 32 := a + (b <<< sh)

/-- The functions of SOP (R112). -/
def sopFn (fn : Nat) (a b : BitVec 32) : BitVec 32 :=
  match fn with
  | 0 => a + b
  | 1 => a - b
  | 2 => a &&& b
  | 3 => a ||| b
  | 4 => a ^^^ b
  | 5 => shl a b
  | 6 => shr a b
  | 7 => sar a b
  | 8 => a * b
  | 9 => if a.toInt ≤ b.toInt then a else b
  | 10 => if a.toNat ≤ b.toNat then a else b
  | 11 => if b.toInt ≤ a.toInt then a else b
  | _ => if b.toNat ≤ a.toNat then a else b

end Sys2Proof.Machine
end

