-- ==== Sys2Proof/Machine/Sparse.lean ====
section
/-!
DEFINITION. Sparse tables: lists of key and value pairs in one canonical form (keys strictly rising, no entry equal to the
default). Memory, register files and every other table indexed by a number are held so, and equal tables are equal lists.
-/
namespace Sys2Proof.Machine

/-- A table from numbers to values; a key that is not listed holds the default of its reader. -/
abbrev Sparse (α : Type) := List (Nat × α)

/-- The value at key i. -/
def sparseGet {α : Type} (dflt : α) : Sparse α → Nat → α
  | [], _ => dflt
  | (k, v) :: t, i => if i = k then v else sparseGet dflt t i

/-- The table with value v at key i; a default value removes the entry. -/
def sparseSet {α : Type} [DecidableEq α] (dflt : α) : Sparse α → Nat → α → Sparse α
  | [], i, v => if v = dflt then [] else [(i, v)]
  | (k, w) :: t, i, v =>
    if i < k then (if v = dflt then (k, w) :: t else (i, v) :: (k, w) :: t)
    else if i = k then (if v = dflt then t else (i, v) :: t)
    else (k, w) :: sparseSet dflt t i v

/-- Keys strictly rise from above lo, and no value is the default. -/
def sparseWfFrom {α : Type} [DecidableEq α] (dflt : α) : Nat → Sparse α → Bool
  | _, [] => true
  | lo, (k, v) :: t => decide (lo ≤ k) && decide (v ≠ dflt) && sparseWfFrom dflt (k + 1) t

/-- The canonical form. -/
def sparseWf {α : Type} [DecidableEq α] (dflt : α) (l : Sparse α) : Bool := sparseWfFrom dflt 0 l

/-- Several entries set in turn. -/
def sparseSetAll {α : Type} [DecidableEq α] (dflt : α) (l : Sparse α) (kvs : List (Nat × α)) : Sparse α :=
  kvs.foldl (fun t p => sparseSet dflt t p.1 p.2) l

/-- The table without its entries at keys the test picks. -/
def sparseDrop {α : Type} (p : Nat → Bool) (l : Sparse α) : Sparse α := l.filter fun e => !p e.1

end Sys2Proof.Machine
end

