-- ==== Sys2Proof/Machine/State.lean ====
section
/-!
DEFINITION. The state of the machine as plain data, and the state after reset. One structure per engine; every table is
held in the canonical form of Sparse.lean.
-/
namespace Sys2Proof.Machine

/-- A guarded capability with its hidden valid bit (R168). -/
structure Cap where
  bits : BitVec 128 := 0
  valid : Bool := false
deriving DecidableEq, Repr, Inhabited

/-- A register that a pending result will write: a lane register by logical index, a temporary, a scalar, or z (R34, R35).
A name stands for the register in every slice of the warp, so a slice that names it stalls on another slice's result.
DEDUCED (log entry 122). -/
inductive RegName where
  | lane (idx : Nat)
  | temp (n : Nat)
  | scalar (n : Nat)
  | z
deriving DecidableEq, Repr

/-- Where one value of a pending result goes: a key of the lane-register table, a key of the temporaries, a scalar. -/
inductive Dest where
  | lane (key : Nat)
  | temp (key : Nat)
  | scalar (n : Nat)
deriving DecidableEq, Repr

/-- A pending long-latency result (R34, R35): who issued it, which registers it holds pending, and what arrives. lanes
are the lanes whose loaded words are still to be read, with the places of those words. -/
structure Pending where
  id : Nat
  slices : List Nat
  names : List RegName
  writes : List (Dest × BitVec 32)
  lanes : List (Nat × List Dest) := []
  deferred : Bool := false
deriving DecidableEq, Repr

/-- An open look window (R34): the pending result, the register codes no word of it may name, the words left. -/
structure Window where
  pend : Nat
  codes : List Nat
  left : Nat
deriving DecidableEq, Repr

/-- An open run (R33, R36): words issued so far, the valid temporaries as a mask of 8 bits, the look windows. -/
structure Run where
  words : Nat := 0
  temps : Nat := 0
  windows : List Window := []
deriving DecidableEq, Repr, Inhabited

/-- A divergence-stack entry (R82, R151). -/
structure StackEntry where
  pc : BitVec 48
  mask : BitVec 4
  joined : Bool := false
deriving DecidableEq, Repr

/-- An emulation frame of one slice (R221, R223). owin is the operand window o0 to o7: key 64 * o + lane. temps are the
caller's temporaries of the slice, members the slices of the gang that entered. -/
structure Frame where
  epc : BitVec 48
  eword : BitVec 32
  emask : BitVec 64
  ecause : BitVec 32
  etrap : BitVec 32
  mode : BitVec 32
  lanemask : BitVec 4
  stack : List StackEntry
  base : Nat
  run : Run
  temps : Sparse (BitVec 32)
  cover0 : Nat
  cover1 : Nat
  members : List Nat
  owin : Sparse (BitVec 32)
deriving DecidableEq, Repr

/-- A slice (R74): pc, window base, the low end of the resident range, mode, lane mask, divergence stack, the emulation
frames (innermost first), whether it still lives. -/
structure Slice where
  pc : BitVec 48
  base : Nat := 0
  lo : Nat := 0
  mode : BitVec 32 := 0
  lanemask : BitVec 4 := 0xF
  stack : List StackEntry := []
  frames : List Frame := []
  live : Bool := true
deriving DecidableEq, Repr, Inhabited

/-- Why a gang is parked (R86, R157 to R160, R247, R303, R309). -/
inductive Park where
  | none
  | yield (cont : BitVec 48) (since starts : Nat)
  | yieldB (b : Nat) (cont : BitVec 48) (phase : Nat)
  | monitor
  | regang (set : Nat)
  | barWait (b phase : Nat)
  | join (d : Nat) (lineages : List Nat)
  | joint
  | space
deriving DecidableEq, Repr, Inhabited

/-- What a gang or thread inside its run is held by: nothing, the data of the word at its pc, by the word number of its
accesses (R188, R265, R176), or a translation fault of that word, by the number of the fault (R213). -/
inductive Hold where
  | none
  | data (word : Nat)
  | xlate (fault : Nat)
deriving DecidableEq, Repr, Inhabited

/-- A gang (R78, R86 to R88): its slices in increasing order, its open run, its port and the number of the run start that gave it,
the run of its caller that goes on once it has a port again (R229), why it is parked and the address of the
word that ended its last run (R69), its starvation count, the order of its boost, whether a spill or fill holds it, whether
its next word must be EXIT (R318). -/
structure Gang where
  slices : List Nat
  run : Option Run := none
  port : Nat := 0
  began : Nat := 0
  resume : Option Run := none
  park : Park := .none
  word : BitVec 48 := 0
  hold : Hold := .none
  starv : Nat := 0
  boost : Option Nat := none
  spill : Bool := false
  mustExit : Bool := false
deriving DecidableEq, Repr, Inhabited

/-- A load-queue entry (R170, R171): width in words per lane, the lanes of its mask, the data so far (key
4 * lane + word), the lanes whose data have not arrived. -/
structure QEntry where
  id : Nat
  width : Nat
  mask : BitVec 64
  data : Sparse (BitVec 32)
  waiting : List Nat
deriving DecidableEq, Repr

/-- The skein registers of a warp (R252 to R254, R259): geometry, the four counts, the overflow record. -/
structure Geometry where
  geom : BitVec 32 := 0x00100800
  counts : Sparse Nat := []
  ovf : BitVec 32 := 0
deriving DecidableEq, Repr, Inhabited

/-- An estate (R314, R315): context, key, the widths code of its registers, the values, the depositing core, where it
stands, when it was deposited, its number in the order of deposits, its stray status once it is a stray (R330) and the step
in which it became one; in the estate area its address; whether it is moving there or to a reserve (R319, R329), and the
translation fault it is parked on (R344). -/
inductive EstatePlace where
  | kennel (core : Nat)
  | reserve (cluster : Nat)
  | area (die : Nat)
deriving DecidableEq, Repr

structure Estate where
  id : Nat
  part : Nat
  ctx : Nat
  key : Nat
  count : Nat
  widths : Nat
  vals : List Nat
  core : Nat
  place : EstatePlace
  born : Nat
  stray : Option Nat := none
  strayAt : Nat := 0
  addr : Nat := 0
  moving : Bool := false
  parked : Option Nat := none
deriving DecidableEq, Repr

/-- A claim that has not been answered (R323, R327): its lane and claim index, its key, for each entry the register of the
estate, the width and the logical indices it fills, what a birth claim expects (R324), and the estate once taken. -/
structure Claim where
  id : Nat
  lane : Nat
  slot : Nat
  key : Nat
  entries : List (Nat × Nat × List Nat)
  expect : Option (Nat × Nat) := none
  taken : Option Estate := none
deriving DecidableEq, Repr

/-- A held deposit of a lane after BEQUEATH, with the place reserved for it (R318, R319). -/
structure Deposit where
  lane : Nat
  key : Nat
  count : Nat
  widths : Nat
  values : List Nat
deriving DecidableEq, Repr

/-- What an agent's reads may not precede (R195 to R206), in moments of Memory.clock: floors by scope from its fences and carriers,
tf and cp those of the tile words and of the copies that it asks for from now on (R197), high the latest moment of its accesses so
far, paths by path (1 CP, 2 TF) that of the writes which a carrier has ordered before it (R180), seen the moment of its last
read of a 32-bit word, by key divided by 4, taint by register (RegName.key) the moments of its reads that the register's value
depends on. DESIGN CHOICE (log entry 29). -/
structure View where
  floors : Sparse Nat := []
  tf : Sparse Nat := []
  cp : Sparse Nat := []
  high : Nat := 0
  paths : Sparse Nat := []
  seen : Sparse Nat := []
  taint : Sparse Nat := []
deriving DecidableEq, Repr, Inhabited

/-- A warp (R28, R73 to R75). wg names its workgroup, index its place in it, wid and wgWarps what lid, wid and gid read.
regs is the lane registers, key 64 * logical index + lane; temps key 64 * t + lane. views are its slices' views, and tiled is the
latest moment of what its completed tile words have stored (R283). -/
structure Warp where
  core : Nat
  slot : Nat
  wg : Nat
  index : Nat
  birth : Nat
  wid : Nat
  wgWarps : Nat
  width : Nat
  alloc : Nat
  slices : List Slice
  gangs : List Gang
  regs : Sparse (BitVec 32) := []
  temps : Sparse (BitVec 32) := []
  s : Sparse (BitVec 32) := []
  p : Sparse (BitVec 64) := []
  c : Sparse Cap := []
  k : Sparse (BitVec 512) := []
  geo : Geometry := {}
  q0 : List QEntry := []
  q1 : List QEntry := []
  cover0 : Nat := 0
  cover1 : Nat := 0
  pend : List Pending := []
  claims : List Claim := []
  deposits : List Deposit := []
  estat : Sparse (BitVec 32) := []
  kstep : BitVec 32 := 0
  forks : Nat := 0
  views : Sparse View := []
  tiled : Nat := 0
deriving DecidableEq, Repr, Inhabited

/-- Why a Collie thread is parked (R232, R159). At MBXW and CWAIT the thread waits at the word itself. -/
inductive ColliePark where
  | none
  | monitor
deriving DecidableEq, Repr, Inhabited

/-- An agent of the scalar profile (R93, R231, R378): pc, mode, scalars, predicates (bit 0 of each), run, pending results.
-/
structure Scalar where
  pc : BitVec 48 := 0
  mode : BitVec 32 := 0
  s : Sparse (BitVec 32) := []
  p : Sparse (BitVec 64) := []
  run : Run := {}
  pend : List Pending := []
  hold : Hold := .none
deriving DecidableEq, Repr, Inhabited

/-- The frame of a Collie handler (R234): the program's bank of scalars and predicates and its run, with the exception
registers. -/
structure CollieFrame where
  epc : BitVec 48
  eword : BitVec 32
  emask : BitVec 32
  ecause : BitVec 32
  mode : BitVec 32
  s : Sparse (BitVec 32)
  p : Sparse (BitVec 64)
  run : Run
  owin : Sparse (BitVec 32)
deriving DecidableEq, Repr

/-- A Collie thread (R231, R239, R242); copied is the latest moment of what its retired copies have written. -/
structure Collie where
  core : Nat
  thread : Nat
  wg : Nat
  x : Scalar
  c : Sparse Cap := []
  frame : Option CollieFrame := none
  park : ColliePark := .none
  started : Nat := 0
  retired : Nat := 0
  stopped : Bool := false
  view : View := {}
  copied : Nat := 0
deriving DecidableEq, Repr, Inhabited

/-- A completed phase of a barrier whose gangs wait for accesses that precede its arrivals (R200), with the moments that they
will follow. -/
structure Waking where
  phase : Nat
  before : List Nat
  high : Nat
  cp : Nat
deriving DecidableEq, Repr, Inhabited

/-- A named barrier of a workgroup (R246): marks are warp index and slice pairs of the current phase, arrived the warps
that have arrived in it, before the accesses that precede those arrivals and are not performed yet, high the latest moment of
those that are and of the arrived copies' writes, cp of the latter alone (R200); waking holds the completed phases whose gangs
wait for such accesses, with these, and doneHigh and doneCp are the moments of the phases that no access holds back. -/
structure Barrier where
  count : Nat
  arrivals : Nat := 0
  phase : Nat := 0
  marks : List (Nat × Nat) := []
  arrived : List Nat := []
  before : List Nat := []
  high : Nat := 0
  cp : Nat := 0
  waking : List Waking := []
  doneHigh : Nat := 0
  doneCp : Nat := 0
deriving DecidableEq, Repr, Inhabited

/-- A trap before its report is written (R209 to R211), with the cycle in which it was raised and the lead slice that orders
it among others of that cycle (R210). -/
structure Report where
  id : Nat := 0
  cycle : Nat := 0
  lead : Nat := 0
  ctx : Nat
  owner : Nat
  taskid : Nat
  lineage : Nat
  cause : Nat
  pc : BitVec 48
  detail : Nat
  lane : Nat
  addr : Nat
  arg0 : Nat
  arg1 : Nat
  core : Nat
  slot : Nat
  inHandler : Bool
  ctxFault : Bool
  more : Nat := 0
  discarded : Bool := false
  nonVersioned : Bool := false
deriving DecidableEq, Repr

/-- A held write of an open version (R202, R215): physical address, owner tag, size, bytes as a number, the tag a CSTC
sets, and the virtual address it was issued to. -/
structure HeldWrite where
  pa : Nat
  owner : Nat
  size : Nat
  data : Nat
  tag : Option Bool := none
  va : Nat := 0
deriving DecidableEq, Repr

/-- What a tile word does after its issue (R274, R284 to R286). grp is the group of eight
names; off, st and sc are the scalars it read, af32 the form that a stored tile has by the words issued before (R269). -/
inductive TileKind where
  | product (paired : Bool) (grp : Nat) (a b : BitVec 128) (ca cb : Cap)
  | zero (af32 : Bool)
  | load (w32 : Bool) (window : Bool) (off st : Nat)
  | store (w32 window af32 : Bool) (off st : Nat)
  | scale (sm off : Nat) (fresh : Bool) (src : List Nat)
deriving DecidableEq, Repr

/-- Why a tile operation stopped (R280, R281). -/
structure TileStop where
  cause : Nat
  detail : Nat := 0
  addr : Nat := 0
  elem : Nat := 0
deriving DecidableEq, Repr

/-- A tile word that has not completed (R277, R278, R280): who issued it, the tiles it writes in the order of their names
and halves, whether it runs, the k-steps drained or the store's units that have left, the fault it is parked on, why it stopped, the outermost
epc where a handler's word issued it (R211), what its reads may not precede (R197), the latest moment of its writes. -/
structure TileOp where
  id : Nat
  core : Nat
  slot : Nat
  wg : Nat
  part : Nat
  ctx : Nat
  pc : BitVec 48
  kind : TileKind
  tiles : List Nat
  running : Bool := false
  drained : Nat := 0
  parked : Option Nat := none
  stop : Option TileStop := none
  outer : Option (BitVec 48) := none
  floors : Sparse Nat := []
  high : Nat := 0
deriving DecidableEq, Repr

/-- A tile of a saved workgroup (R290): the tile that held it (32 * core + tile), its place in the span of its name, or none
where only a stopped operation holds it, its form and its elements. -/
structure SavedTile where
  old : Nat
  name : Option Nat
  place : Nat := 0
  form : Bool
  elems : Sparse (BitVec 48)
deriving DecidableEq, Repr

/-- A placed workgroup or task (R76, R215, R231, R246, R269, R308). rows and privRows are the scratchpad rows it took for
its group bytes and its lane-private slices; acc are the accumulator names a0 to a15, each with the tiles it maps
(32 * core + tile); opdis is the context's opcode-disable mask as its core read it at placement (R49); forker is the warp that forked the task (R309), record its
task record (R306); mailbox holds the records posted, each with what the copies that it asks for may not precede (R197, R236); placed orders workgroups by their last placement (R304); discarded that a version was discarded as the task ended (R211); savedW, savedC, savedG, savedP, savedT and
savedOps hold its warps, its Collie thread, its group and lane-private bytes by offset, its tiles and its stopped tile
operations while it is saved (R69, R218, R290, R304), scanned that it was an urgent scan-out (R220). -/
structure Workgroup where
  uid : Nat
  grid : Nat
  ctx : Nat
  part : Nat
  core : Nat
  lineage : Nat
  wi : Nat
  width : Nat
  warps : Nat
  alloc : Nat
  groupB : Nat
  privB : Nat
  sliceB : Nat
  rows : List Nat
  privRows : List Nat
  bars : List Barrier
  thread : Option Nat := none
  mailbox : List (BitVec 128 × Sparse Nat) := []
  acc : Sparse (List Nat) := []
  taskid : Nat := 0
  depth : Nat := 0
  isTask : Bool := false
  entry : BitVec 48 := 0
  opdis : BitVec 256 := 0
  born : Bool := false
  birth : Nat := 0
  placed : Nat := 0
  versionOpen : Bool := false
  committed : Bool := false
  irr : Bool := false
  outgrown : Bool := false
  lines : List Nat := []
  held : List HeldWrite := []
  nonVersioned : Bool := false
  fault : Option Report := none
  reported : Bool := false
  ended : Bool := false
  discarded : Bool := false
  released : Bool := false
  children : List Nat := []
  childStatus : List (Nat × Nat) := []
  forker : Option (Nat × Nat) := none
  record : BitVec 128 := 0
  saved : Bool := false
  suspended : Bool := false
  scanned : Bool := false
  savedW : List Warp := []
  savedC : Option Collie := none
  savedG : List Host.Cell := []
  savedP : List Host.Cell := []
  savedT : List SavedTile := []
  savedOps : List TileOp := []
deriving DecidableEq, Repr, Inhabited

/-- An accepted grid (R296): its launch packet (R293), kernel descriptor (R68) and text as read at acceptance (R355), the
argument capabilities, its unstarted workgroups by die and linear index (R297), the order of its acceptance, what it waits
for (R322), the sequence of its tasks (R296), the traps counted (R305), and the dies whose last steal request was answered
empty (R299). -/
structure Grid where
  uid : Nat
  part : Nat
  ctx : Nat
  lineage : Nat
  packet : BitVec 512
  desc : BitVec 512
  text : BitVec 48
  caps : List Cap
  depth : Nat
  parent : Option Nat := none
  inh : BitVec 512 := 0
  heirOf : Option Nat := none
  unstarted : List (Nat × Nat) := []
  taskSeq : Nat := 0
  traps : Nat := 0
  dry : List Nat := []
deriving DecidableEq, Repr, Inhabited

/-- A submitted packet that waits in a launch queue or ring (R300, R302, R366): a doorbell's value, or the packet that
LAUNCH read with its arguments, lineage, depth and parent workgroup; seq is the order of its arrival. -/
structure Submission where
  part : Nat
  ctx : Nat
  doorbell : Option Nat := none
  packet : BitVec 512 := 0
  caps : List Cap := []
  lineage : Nat := 0
  depth : Nat := 0
  parent : Option Nat := none
  seq : Nat := 0
  parked : Option Nat := none
deriving DecidableEq, Repr, Inhabited

/-- A task record in a queue, ring or deque (R306, R309): its grid, the warp that forked it, the order of its arrival
(R307), and the translation fault its place in a ring is parked on (R344). -/
structure TaskRec where
  grid : Nat
  bits : BitVec 128
  forker : Option (Nat × Nat) := none
  seq : Nat := 0
  parked : Option Nat := none
deriving DecidableEq, Repr, Inhabited

/-- A message of the distributors (R299) or the queue engines (R310) under way to the core or die that asked. -/
structure DieReply where
  grid : Nat
  thief : Nat
  ceded : List Nat
deriving DecidableEq, Repr, Inhabited
structure TaskReply where
  part : Nat
  thief : Nat
  task : Option TaskRec
deriving DecidableEq, Repr, Inhabited

/-- A core's stealing for a partition (R310): the last wait in cycles, until when it waits, whether a request is out. -/
structure Thief where
  wait : Nat := 0
  until_ : Nat := 0
  asking : Bool := false
deriving DecidableEq, Repr, Inhabited

/-- An overflow ring or task ring of a context on a die (R300, R307). -/
structure Ring (α : Type) where
  die : Nat
  part : Nat
  ctx : Nat
  items : List α
deriving DecidableEq, Repr, Inhabited

/-- The distributors and queue engines (R293 to R311): launch queues by 20 * die + partition, rings, grids, task queues and
deques by 20 * core + partition, replies, stealing, the shift registers that draw victims (0 stands for the seed), energy
balances and net charges by partition (R301, R381) and the time of the last refill. -/
structure Dist where
  queues : Sparse (List Submission) := []
  rings : List (Ring Submission) := []
  grids : List Grid := []
  tasks : Sparse (List TaskRec) := []
  taskRings : List (Ring TaskRec) := []
  deques : Sparse (List TaskRec) := []
  dieReplies : List DieReply := []
  taskReplies : List TaskReply := []
  thieves : Sparse Thief := []
  lfsr : Sparse (BitVec 16) := []
  balance : Sparse Int := []
  charged : Sparse Int := []
  refilled : Nat := 0
deriving DecidableEq, Repr, Inhabited

/-- The pillows (R269, R270): elements by 4096 * (32 * core + tile) + 64 * row + column, forms by 32 * core + tile as the
last issued word sets them (true is AF32), tile words in issue order. -/
structure Pillows where
  elems : Sparse (BitVec 48) := []
  forms : Sparse Bool := []
  ops : List TileOp := []
deriving DecidableEq, Repr, Inhabited

/-- The schedule (R87): the turns to come, the agent whose word exec runs, by slice the moment of the reads that this word's addresses
depend on (R196), the cycle, the number of steps, the counter of
free values, the counter that names new things, the runs begun on each core. issued holds, by core, the cycle of the last
word of a gang and 1 + its port (R83), by 1000 + core the cycle of the last word of a Collie thread and 1 + its number
(R232), and by 2000 + core the cycle of the last unit of a copy and 1 + the copy's number (R240); gap counts the turns until the
machine takes one thing further by itself that it has begun, and rounds how often it has (R207).
DESIGN CHOICE (log entry 10). -/
structure Sched where
  agenda : List Turn := []
  cur : Option Agent := none
  dep : Sparse Nat := []
  issued : Sparse (Nat × Nat) := []
  now : Nat := 0
  steps : Nat := 0
  free : Nat := 0
  uid : Nat := 0
  starts : Sparse Nat := []
  gap : Nat := 0
  rounds : Nat := 0
deriving DecidableEq, Repr, Inhabited

/-- Where a loaded or old value goes: to a lane of a load-queue entry (R170, R176), to a lane of a pending result (R166,
R176), to a capability register (R188), or to n bytes of the skeins from k upward (R265). -/
inductive LoadRet where
  | queue (q entry lane : Nat)
  | pend (id lane : Nat)
  | cap (d : Nat)
  | skein (k at_ n : Nat)
deriving DecidableEq, Repr

/-- What an access in flight does (R166, R170, R174, R176, R188). A versioned store joins the task's version (R183). -/
inductive AccessAct where
  | load (ret : LoadRet)
  | store (data : Nat) (tag : Option Bool) (versioned : Bool)
  | atom (op : Nat) (v1 v2 : Nat) (ret : Option LoadRet)
deriving DecidableEq, Repr

/-- An access in flight on LS or FB (R174, R175, R391): the slice or scalar agent that issued it, the number, pc and lane of its word,
its task, the owner tag it carries, whether addr is a global virtual address or a memory key, the ticket sequencer it
waits on and its ticket (R177), the translation fault it is parked on, the device it has been sent to, at which physical
address and when; for an access of a copy, the address of its source and the copy (R240, R248); the outermost epc, where a
handler's word issued it (R211); the moment that a read may not precede for its address (R196); for the increment of a REL its
scope and the moment of the writes it covers (R199). DEDUCED (log entry 31). -/
structure Access where
  id : Nat
  who : Agent
  word : Nat
  pc : BitVec 48
  lane : Nat
  wg : Nat
  part : Nat
  ctx : Nat
  owner : Nat
  global : Bool
  addr : Nat
  size : Nat
  act : AccessAct
  seqr : Option Nat := none
  ticket : Option Nat := none
  parked : Option Nat := none
  sent : Option Nat := none
  sentPa : Nat := 0
  sentAt : Nat := 0
  note : Option (Nat × Nat) := none
  outer : Option (BitVec 48) := none
  floor : Nat := 0
  rel : Option (Nat × Nat) := none
deriving DecidableEq, Repr

/-- An entry of a core's line-monitor table (R161): who waits, the line by its memory key divided by 64, when it parked, its
time limit, whether a write has hit it. -/
structure Monitor where
  who : Agent
  core : Nat
  line : Nat
  since : Nat
  limit : Nat
  hit : Bool := false
deriving DecidableEq, Repr

/-- A failed translation (R344): its number, the sequence number of its record once written, and what the record holds.
-/
structure XFault where
  id : Nat
  seq : Nat := 0
  recorded : Bool := false
  part : Nat
  ctx : Nat
  va : Nat
  path : Nat
  kind : Nat
  reason : Nat
  level : Nat
  core : Nat
deriving DecidableEq, Repr

/-- A cached translation entry (R343): the core, or 1000 + the die, whose cache holds it; context, level 0 to 4, the
virtual address divided by what the entry covers, the entry. -/
structure TlbEntry where
  scope : Nat
  part : Nat
  ctx : Nat
  level : Nat
  page : Nat
  word : BitVec 64
deriving DecidableEq, Repr

/-- A range of physical addresses that reads as noise (R346, R350): scrub tells whether the scrub of partition part will
still write it to zero. -/
structure Noise where
  lo : Nat
  hi : Nat
  part : Nat
  scrub : Bool
deriving DecidableEq, Repr

/-- A binding of the bind table (R181): context, region, object. -/
structure Binding where
  part : Nat
  ctx : Nat
  base : Nat
  length : Nat
  object : Nat
deriving DecidableEq, Repr

/-- Where an agent stands, for the scopes of R178: its core, its warp slot or a number that stands for a Collie thread or an
engine, its workgroup, and its slice (R191). -/
structure Place where
  core : Nat
  slot : Nat
  wg : Nat
  slice : Nat := 0
deriving DecidableEq, Repr

/-- A write that reads may still overlook (R189), within one 16-byte unit: its first byte and its bytes, its moment, the owner tag,
what the whole unit held before it, who made it, and its virtual address where it has one (R199). -/
structure Past where
  lo : Nat
  n : Nat
  at_ : Nat
  owner : Nat
  old : Nat
  writer : Place
  va : Option Nat := none
deriving DecidableEq, Repr

/-- A REL that has been performed (R199): the key of the count, the moments of its increment and of the latest write it covers,
its scope, who issued it. -/
structure Release where
  key : Nat
  at_ : Nat
  high : Nat
  scope : Nat
  place : Place
deriving DecidableEq, Repr

/-- The memories. cells holds every byte that differs from the value an unlisted byte reads as: physical memory, core
scratchpads, die scratchpads, scale memories, the controller's SRAM and host memory in one table of keys (Ops.lean gives
the keys). tags are the hidden tag bits by unit of 16 bytes. writers holds, for a physical line written under an owner tag,
1 + that tag (R346), scrubbed the ranges that a scrub has written under a tag, the latest first, each with 1 + the tag (R350).
epochs counts the changes of the key of an owner tag, and by its key divided by 2^17 the resets of a scale memory (R346, R384).
clock counts the writes that reads may overlook, and past lists them, the latest first (R189); no write that past does not list is
later than horizon, and releases are the RELs performed (R199).
-/
structure Memory where
  cells : List Host.Cell := []
  tags : Sparse Bool := []
  writers : Sparse Nat := []
  noise : List Noise := []
  epochs : Sparse Nat := []
  scrubbed : List (Nat × Nat × Nat) := []
  clock : Nat := 0
  horizon : Nat := 0
  past : List Past := []
  releases : List Release := []
  access : List Access := []
  monitors : List Monitor := []
  xfaults : List XFault := []
  xseq : Sparse Nat := []
  tlb : List TlbEntry := []
  binds : List Binding := []
  tickets : Sparse Nat := []
deriving DecidableEq, Repr, Inhabited

/-- A core's resources granted to a partition (R369). -/
structure Share where
  slotFirst : Nat := 0
  slots : Nat := 0
  rgFirst : Nat := 0
  rg : Nat := 0
  spFirst : Nat := 0
  sp : Nat := 0
  exported : Nat := 0
  barFirst : Nat := 0
  bars : Nat := 0
  colFirst : Nat := 0
  col : Nat := 0
  accFirst : Nat := 0
  acc : Nat := 0
  knFirst : Nat := 0
  kn : Nat := 0
  scFirst : Nat := 0
  sc : Nat := 0
deriving DecidableEq, Repr, Inhabited

/-- A die's share of a partition (R369): die-scratchpad share in units of 64 KiB, estate reserves by cluster. -/
structure DieShare where
  off : Nat := 0
  len : Nat := 0
  reserve : List Nat := []
deriving DecidableEq, Repr, Inhabited

/-- A range record (R369), in bytes. -/
structure RangeRec where
  base : Nat
  length : Nat
  owner : Nat
deriving DecidableEq, Repr, Inhabited

/-- The partition layout (R369, R392): generation, carve-out by die, core shares by 192 * partition + core, die shares by
4 * partition + die, energy allowance and cap by partition, physical ranges. At reset one range makes all memory
host-shared. -/
structure Layout where
  gen : Nat := 0
  carve : List Nat := [0, 0, 0, 0]
  shares : Sparse Share := []
  dies : Sparse DieShare := []
  energy : Sparse (Nat × Nat) := []
  ranges : List RangeRec := [⟨0, 0x28000000000, 20⟩]
deriving DecidableEq, Repr, Inhabited

/-- An event record (R368) before the ring has room for it. -/
structure HostEvent where
  code : Nat
  status : Nat := 0
  ctx : Nat := 0xFFFF
  gen : Nat
  arg0 : Nat := 0
  arg1 : Nat := 0
deriving DecidableEq, Repr, Inhabited

/-- A command that has started and has not ended (R367): its code and arguments, and the status it will end with once
what it waits for has happened. -/
structure Command where
  code : Nat
  args : List Nat
  status : Nat := 0
  arg1 : Nat := 0
deriving DecidableEq, Repr, Inhabited

/-- The registers of one function (R362) and its events that wait for room. DESIGN CHOICE (log entry 6). -/
structure HostFn where
  ctxbase : Nat := 0
  ctxcount : Nat := 0
  cmdarg : List Nat := [0, 0, 0, 0]
  cmd : Option Command := none
  cmddrop : Bool := false
  evbase : Nat := 0
  evsize : Nat := 0
  evhead : Nat := 0
  evtail : Nat := 0
  fqbase : Nat := 0
  fqsize : Nat := 0
  fqhead : Nat := 0
  fqtail : Nat := 0
  aperbase : Nat := 0
  lost : Bool := false
  events : List HostEvent := []
  msix : Nat := 0
deriving DecidableEq, Repr, Inhabited

/-- The domain as this device sees it (R374 to R376): its number and the sequencer's, the map of source owners by source
device, flits in flight toward each device, the devices lost, and those among them that a later map names again (R376). -/
structure Domain where
  domid : Nat := 0
  domseq : Nat := 0
  map : Sparse (List (Option Nat)) := []
  flits : Sparse Nat := []
  lost : List Nat := []
  remapped : List Nat := []
deriving DecidableEq, Repr, Inhabited

/-- A copy in progress (R238 to R240): who started it and its number, form and descriptor, the capabilities as read at
issue, the word's address; the units moved, the block of the stream and its position (R243), the tile in the shadow buffer
and the address of its source (R245), the tile that is being staged and what has been read of it by position, whether its flag
has left (R240), the device of its destination once known, the fault it is parked on, the epc of the Collie handler that started it
(R211), what its reads may not precede (R197), the latest moment of its writes, whether it has faulted or completed. -/
structure Copy where
  id : Nat
  core : Nat
  thread : Nat
  wg : Nat
  ctx : Nat
  seq : Nat
  form : Nat
  desc : BitVec 256
  src : Cap
  dst : Cap
  flag : Cap
  tag : Cap
  pc : BitVec 48
  moved : List Nat := []
  block : Nat := 0
  streamPos : Nat := 0
  staged : Option (Nat × List (BitVec 8)) := none
  stagedAt : Nat := 0
  aim : Option Nat := none
  got : List (Nat × List (BitVec 8)) := []
  flagged : Bool := false
  home : Option Nat := none
  parked : Option Nat := none
  outer : Option (BitVec 48) := none
  floors : Sparse Nat := []
  high : Nat := 0
  faulted : Bool := false
  done : Bool := false
deriving DecidableEq, Repr

/-- A context (R214, R316, R363 to R365): its number and partition, whether it is loaded, and what its entry and records
say; laid says that a LAYOUT pre-empts it, after which it goes on (R369). ringHead and ringTail are the trap ring's indices (R211, R362); fwd the forwarding records (R358). -/
structure Context where
  num : Nat
  owner : Nat
  loaded : Bool := false
  stopped : Bool := false
  preempting : Option Nat := none
  saved : Bool := false
  gated : Bool := false
  laid : Bool := false
  root : Cap := {}
  troot : Nat := 0
  opdis : BitVec 256 := 0
  emuentry : BitVec 48 := 0
  emunest : Nat := 2
  collieentry : BitVec 48 := 0
  guardentry : BitVec 48 := 0
  ringbase : Nat := 0
  ringsize : Nat := 64
  ringHead : Nat := 0
  ringTail : Nat := 0
  deadline : Nat := 1
  area : Cap := {}
  strayRing : Nat := 0
  straySize : Nat := 64
  expiry : Nat := 0
  strayPtr : Nat := 0
  lring : List Nat := []
  lk : List Nat := []
  tring : List Nat := []
  tk : List Nat := []
  saveArea : Cap := {}
  ktab : Nat := 0
  kcount : Nat := 0
  fwd : List (Nat × Nat × Nat) := []
  tagkey : Option (BitVec 256) := none
  nextLineage : Nat := 1
deriving DecidableEq, Repr, Inhabited

/-- A REPLACE whose old pair still serves grids (R356): the function, the context, kref, the new gen and those grids. -/
structure Replaced where
  fn : Nat
  ctx : Nat
  kref : Nat
  gen : Nat
  grids : List Nat
deriving DecidableEq, Repr

/-- A carve-out change under way (R340): the die, its new carve-out, the new shares by partition. -/
structure CarveChange where
  die : Nat
  w : Nat
  shares : List DieShare
deriving DecidableEq, Repr

/-- The IDE streams of the host link (R373): keys by 4 * stream + 2 * direction + set (direction 1 receives), the set in
use by 2 * stream + direction, the former receive set that is still live by stream (1 + set), the non-posted requests
outstanding as tag, stream and whether a former set serves them, dropped packets. -/
structure Ide where
  keys : Sparse (BitVec 256) := []
  inUse : Sparse Nat := []
  former : Sparse Nat := []
  requests : List (Nat × Nat × Bool) := []
  dropped : Nat := 0
deriving DecidableEq, Repr, Inhabited

/-- The management controller (R378, R386): its scalar state and exception registers. DESIGN CHOICE (log entry 8). -/
structure Mc where
  x : Scalar := {}
  parked : Bool := false
  mvec : BitVec 32 := 0
  ecause : BitVec 32 := 0
  epc : BitVec 48 := 0
  eword : BitVec 32 := 0
  etrap : BitVec 32 := 0
  resetAt : Nat := 0
  wdogAt : Nat := 0
deriving DecidableEq, Repr, Inhabited

/-- A command of the message unit (R387): the number of the access that stored it, and its four words. -/
structure MuCmd where
  id : Nat
  cmd : Nat
  src : Nat
  dst : Nat
  len : Nat
deriving DecidableEq, Repr, Inhabited

/-- A message the controller's firmware has answered with: its SPDM, PLDM or vendor code, its parameters, its payload. DEDUCED (log entry 96). -/
structure Reply where
  code : Nat
  params : List Nat := []
  data : List (BitVec 8) := []
deriving DecidableEq, Repr, Inhabited

/-- A telemetry record (R381) but for its schema and kind, which its index gives. -/
structure Telemetry where
  seq : Nat := 0
  time : Nat := 0
  flags : Nat := 0
  energy : Nat := 0
  balance : Int := 0
  ce : Nat := 0
  ue : Nat := 0
  idedrop : Nat := 0
deriving DecidableEq, Repr, Inhabited

/-- The management functions around the controller (R379 to R388): RXLEN, the requests that wait in the MCTP layer, the
message unit's commands, whether one has failed and whether the oldest has had its effect, the bytes absorbed in the three
transcript slots, the messages sent; the SPDM stage reached (0 none, 1 version, 2 capabilities, 3 algorithms), the
transcript VCA and the running transcripts, open sessions; the replies; measurement registers; the banks: which was booted,
which is current, whether the other one is valid, security versions, the numbers of the images they hold and the next
number, the image each of the eight kinds of engine runs, the bytes last written to each bank; an update's session, the security
version of its verified image, its bytes; the engines awaiting activation as kind and unit; whether the controller is to reset
for an activation (due), and whether it tests itself after one (testing); self-test outcome; engine resets that wait;
telemetry. -/
structure Mgmt where
  rxlen : Nat := 0
  rxwait : List (List (BitVec 8)) := []
  muq : List MuCmd := []
  mufail : Bool := false
  mudone : Bool := false
  slots : List (List (BitVec 8)) := [[], [], []]
  sent : List (List (BitVec 8)) := []
  stage : Nat := 0
  vca : List (BitVec 8) := []
  m1 : List (BitVec 8) := []
  l1 : List (BitVec 8) := []
  sessions : List Nat := []
  nextSession : Nat := 1
  replies : List Reply := []
  mr : Sparse (BitVec 256) := []
  bootedB : Bool := false
  currentB : Bool := false
  otherValid : Bool := false
  otherSvn : Nat := 0
  svn : Nat := 0
  imgA : Nat := 0
  imgB : Nat := 1
  images : Nat := 2
  engines : List Nat := [0, 0, 0, 0, 0, 0, 0, 0]
  bankA : Sparse (BitVec 8) := []
  bankB : Sparse (BitVec 8) := []
  update : Option Nat := none
  verified : Option Nat := none
  image : Sparse (BitVec 8) := []
  pend : List (Nat × Nat) := []
  due : Bool := false
  testing : Bool := false
  safe : Bool := false
  ready : Bool := false
  failing : List Nat := []
  ereset : List (Nat × Nat) := []
  telem : Sparse Telemetry := []
  refreshed : Nat := 0
  ce : Sparse Nat := []
  ue : Sparse Nat := []
deriving DecidableEq, Repr, Inhabited

/-- The machine. resetting lists the partitions under a reset (R372) and resetCause its cause for each (R368). -/
structure State where
  sched : Sched := {}
  mem : Memory := {}
  layout : Layout := {}
  newLayout : Option Layout := none
  carving : Option CarveChange := none
  fns : Sparse HostFn := []
  resetting : List Nat := []
  resetCause : Sparse Nat := []
  replaced : List Replaced := []
  domain : Domain := {}
  ide : Ide := {}
  warps : List Warp := []
  wgs : List Workgroup := []
  collies : List Collie := []
  copies : List Copy := []
  pillows : Pillows := {}
  estates : List Estate := []
  dist : Dist := {}
  ctxs : List Context := []
  late : List Report := []
  mc : Mc := {}
  mgmt : Mgmt := {}
deriving DecidableEq, Repr, Inhabited

/-- Why a step stops without a next state. noAgent: exec was asked for a word while no agent is named in
State.sched.cur; raised by exec only, never by step. Safe: the hardware has no such step. -/
inductive Fault where
  | noAgent
deriving DecidableEq, Repr

/-- Why a step has no meaning. notModelled: the instruction's meaning is not written; raised by an arm of exec. Safe. -/
inductive Refusal where
  | notModelled (mnemonic : String)
deriving DecidableEq, Repr

/-- The machine right after a package reset. The controller's SRAM holds what the boot ROM places there, the firmware of the
booted bank and the certificate chain, whose bytes are free values (R384, R386, R387). DEDUCED (log entry 5). -/
def State.reset : State :=
  { mem := { noise := [⟨2 ^ 55, 2 ^ 55 + 0x20000, 0, false⟩, ⟨2 ^ 55 + 0x70000, 2 ^ 55 + 0x80000, 0, false⟩] } }

end Sys2Proof.Machine
end

