-- ==== Sys2Proof/Machine/Flags.lean ====
section
/-!
DEFINITION. The mode register and what it decides (R29 to R32, R93), predicates, and the conditions and relations of
compares and branches (R106, R148). The machine keeps no arithmetic flags: a compare writes predicate bits.
-/
namespace Sys2Proof.Machine

/-- Fields of a mode register (R29). -/
def modeType (m : BitVec 32) : Nat := field m.toNat 5 5
def modeRnd (m : BitVec 32) : Nat := field m.toNat 10 3
def modeSat (m : BitVec 32) : Bool := m.getLsbD 13
def modeSub (m : BitVec 32) : Bool := m.getLsbD 14
def modeGidx (m : BitVec 32) : Nat := field m.toNat 0 3
def modeGen (m : BitVec 32) : Bool := m.getLsbD 3
def modeGneg (m : BitVec 32) : Bool := m.getLsbD 4

/-- The bits of mode that hold something (R29); reserved bits read as zero (R7). -/
abbrev modeMaskAll : BitVec 32 := 0x7FFF

/-- Bit L of predicate n. -/
def predBit (p : Sparse (BitVec 64)) (n L : Nat) : Bool := (sparseGet 0 p n).getLsbD L

/-- The guard of R32 for lane L under mode m. -/
def guardHolds (m : BitVec 32) (p : Sparse (BitVec 64)) (L : Nat) : Bool :=
  !modeGen m || (predBit p (modeGidx m) L != modeGneg m)

/-- A predicate value with the given bits replaced. -/
def setBits (v : BitVec 64) (vals : List (Nat × Bool)) : BitVec 64 :=
  vals.foldl (fun acc e => if e.2 then acc ||| BitVec.twoPow 64 e.1 else acc &&& ~~~ BitVec.twoPow 64 e.1) v

/-- The predicate table with bits of predicate n replaced (R83, R106). -/
def setPred (p : Sparse (BitVec 64)) (n : Nat) (vals : List (Nat × Bool)) : Sparse (BitVec 64) :=
  sparseSet 0 p n (setBits (sparseGet 0 p n) vals)

/-- What a rounding takes from the mode under element type ty (R115, R117). -/
def roundCfg (m : BitVec 32) (ty : Nat) : RoundCfg := ⟨modeRnd m, modeSat m, subFor ty (modeSub m)⟩

/-- The lane condition of BR and BRD (R148). -/
def condHolds (cond : Nat) (p : Sparse (BitVec 64)) (L : Nat) : Bool :=
  if cond = 0 then true else if cond < 8 then predBit p cond L else !predBit p (cond - 8) L

/-- The relations of ICMP (R106). -/
def icmpRel (fn : Nat) (a b : BitVec 32) : Bool :=
  match fn with
  | 0 => a == b
  | 1 => a != b
  | 2 => a.slt b
  | 3 => a.sle b
  | 4 => a.ult b
  | _ => a.ule b

end Sys2Proof.Machine
end

