-- ==== Sys2Proof/Machine/Operands.lean ====
section
/-!
DEFINITION. The field checks of R45 step 6 and the operands of every word: which codes each field may hold in the executing
profile (R25 to R28, R40, R93, R110, R139, R154, R166, R184, R235, R378 and the entries), which register codes a word reads
and which it writes (R34, R36), which element types and roundings it accepts (R91, R129, R139), whether it is the last
word of its run (R33), its look value if it is long-latency (R24), and who may execute it (R51).
-/
namespace Sys2Proof.Machine

/-- The executing profile: a SIMT warp of the given width in lanes, a Collie thread, the management controller. -/
inductive Profile where
  | simt (width : Nat)
  | collie
  | mc
deriving DecidableEq, Repr

def Profile.isSimt : Profile → Bool
  | .simt _ => true
  | _ => false

/-- REGANG names no slice beyond the warp (R153). -/
def Profile.slicesOk (pr : Profile) (slices : Nat) : Bool :=
  match pr with
  | .simt w => decide (slices < 2 ^ (w / 4))
  | _ => true

/-- A readable register code (R25, R27). -/
def srcOk (pr : Profile) (c : Nat) : Bool := pr.isSimt || decide (c < 32) || c == 60
/-- A writable register code (R26, R27). -/
def dstOk (pr : Profile) (c : Nat) : Bool := if pr.isSimt then decide (c < 61) else decide (c < 32) || c == 60
/-- A lane-register pair (R139). -/
def lanePair (c : Nat) : Bool := decide (c % 2 = 0 ∧ c ≤ 42)
/-- A pair that is not z (R154): a lane pair or a scalar pair. -/
def pairNz (pr : Profile) (c : Nat) : Bool :=
  if pr.isSimt then lanePair c || decide (c % 2 = 0 ∧ 52 ≤ c ∧ c ≤ 58) else decide (c % 2 = 0 ∧ c ≤ 30)
/-- A pair or z (R110). -/
def pairOk (pr : Profile) (c : Nat) : Bool := pairNz pr c || c == 60
/-- The key pair of the estate words (R317). -/
def keyPair (c : Nat) : Bool := lanePair c || decide (c % 2 = 0 ∧ 52 ≤ c ∧ c ≤ 58)
/-- A quad of lane registers (R274). -/
def laneQuad (c : Nat) : Bool := decide (c % 4 = 0 ∧ c ≤ 40)
/-- A 128-bit group (R166, R236): a lane quad, s0 to s3, s4 to s7, or z. -/
def quadOk (pr : Profile) (c : Nat) : Bool :=
  if pr.isSimt then laneQuad c || c == 52 || c == 56 || c == 60 else decide (c % 4 = 0 ∧ c ≤ 28) || c == 60
/-- The record quad of POST and FORK (R306). -/
def recordQuad (c : Nat) : Bool := laneQuad c || c == 52 || c == 56
/-- The data group of a load or store by width (R166). -/
def groupOk (pr : Profile) (load : Bool) (wd c : Nat) : Bool :=
  match wd with
  | 0 => if load then dstOk pr c else srcOk pr c
  | 1 => pairOk pr c
  | _ => quadOk pr c
/-- A scalar operand code (R184), without and with z. -/
def scalarCode (pr : Profile) (c : Nat) : Bool := if pr.isSimt then decide (52 ≤ c ∧ c ≤ 59) else decide (c < 32)
def scalarCodeZ (pr : Profile) (c : Nat) : Bool := scalarCode pr c || c == 60
/-- The pair fields of CSETB (R184). -/
def capPair (pr : Profile) (c : Nat) : Bool :=
  (if pr.isSimt then decide (c % 2 = 0 ∧ 52 ≤ c ∧ c ≤ 58) else decide (c % 2 = 0 ∧ c ≤ 30)) || c == 60
/-- With a pair bit set, an index is even (R256). -/
def evenIf (pr : BitVec 1) (k : Nat) : Bool := decide (pr = 0) || decide (k % 2 = 0)

/-- The register codes of a pair; z stands alone. -/
def pairCodes (c : Nat) : List Nat := if c = 60 then [60] else [c, c + 1]
/-- The register codes of a group of 2^wd registers; z stands alone. -/
def groupCodes (wd c : Nat) : List Nat := if c = 60 then [60] else List.range' c (2 ^ wd)
/-- The register code under which scalar s(n) can be pending; 64, no code, when it has none (R25, R111). -/
def scalarName (pr : Profile) (n : Nat) : Nat := if pr.isSimt then (if n < 8 then 52 + n else 64) else n

/-- MODE: a value bit outside the selected fields is 0 (R94). -/
def modeMask (mguard mtype mrnd msat msub : BitVec 1) : BitVec 32 :=
  (if mguard = 1 then 0x001F else 0) ||| (if mtype = 1 then 0x03E0 else 0) ||| (if mrnd = 1 then 0x1C00 else 0)
    ||| (if msat = 1 then 0x2000 else 0) ||| (if msub = 1 then 0x4000 else 0)
def modeFields (mguard mtype mrnd msat msub : BitVec 1) (value : BitVec 15) : Bool :=
  decide (value.setWidth 32 &&& ~~~ modeMask mguard mtype mrnd msat msub = 0)

/-- A register TRL may name (R40). -/
def trlName (pr : Profile) (c : Nat) : Bool :=
  if pr.isSimt then decide (c ≤ 43 ∨ (52 ≤ c ∧ c ≤ 60)) else decide (c ≤ 31) || c == 60
/-- The names form of TRL (R40). -/
def trlOk (pr : Profile) (count x1 x2 x3 : Nat) : Bool :=
  (if 1 ≤ count then trlName pr x1 else x1 == 0) && (if 2 ≤ count then trlName pr x2 else x2 == 0)
    && (if 3 ≤ count then trlName pr x3 else x3 == 0)
/-- The range form of TRL (R40). -/
def trlRangeOk (pr : Profile) (x1 x2 : Nat) : Bool :=
  decide (x1 ≤ x2) &&
    (if pr.isSimt then decide (x2 ≤ 43 ∨ (52 ≤ x1 ∧ x2 ≤ 59)) else decide (x2 ≤ 31))

/-- WAITMON's level and capability fields (R159). -/
def waitmonOk (pr : Profile) (lvl c : Nat) : Bool :=
  (lvl == 0 || c == 0) &&
    (match pr with
    | .simt _ => true
    | .collie => decide (lvl ≤ 1)
    | .mc => lvl == 1)

/-- ATOM and ATOM.SC: operation, width, return queue, operand (R176). -/
def atomOk (pr : Profile) (op wd rq b : Nat) : Bool :=
  decide (op ≤ 10) && !(op == 10 && wd == 1) && decide (rq ≠ 3) && (pr.isSimt || rq == 0) &&
    (if op = 9 then
      (if wd = 0 then (if pr.isSimt then lanePair b else decide (b % 2 = 0 ∧ b ≤ 30))
       else (if pr.isSimt then laneQuad b else decide (b % 4 = 0 ∧ b ≤ 28)))
     else if wd = 0 then srcOk pr b else pairOk pr b)
/-- The operand registers of ATOM. -/
def atomCodes (op wd b : Nat) : List Nat :=
  if op = 9 then groupCodes (wd + 1) b else groupCodes wd b
/-- The registers a Collie's ATOM writes its old value to. -/
def atomRet (wd b : Nat) : List Nat := groupCodes wd b

/-- The special registers of each agent (R226, R235, R378). -/
def Profile.srOk (pr : Profile) (sr : Nat) : Bool :=
  match pr with
  | .simt _ => decide (sr ≤ 0x11)
  | .collie => decide (sr ≤ 0x11) && !(sr == 2 || sr == 7 || sr == 8 || sr == 9 || sr == 0xC)
  | .mc => sr == 0 || sr == 0xA || (decide (0xD ≤ sr) && decide (sr ≤ 0x10)) ||
      (decide (0x20 ≤ sr) && decide (sr ≤ 0x23))

/-- The kinds of EMURD and EMUWR (R228, R234); EMUWR of kind c is undefined on the Collie too. DESIGN CHOICE (log entry 138). -/
def emuKindOk (pr : Profile) (write : Bool) (kind idx part : Nat) : Bool :=
  match kind with
  | 0 => pr.isSimt && decide (idx ≤ 43) && part == 0
  | 1 => pr.isSimt && decide (idx ≤ 7) && part == 0
  | 2 => decide (idx ≤ 31) && part == 0
  | 3 => decide (idx ≤ 7) && decide (part ≤ 1)
  | 4 => !write && decide (idx ≤ 15) && decide (part ≤ 3)
  | 5 => pr.isSimt && decide (idx ≤ 7)
  | _ => false

/-- Every field of the word holds a value that its entry admits (R45 step 6). -/
def entryFieldsOk (pr : Profile) (i : Instr) : Bool :=
  match i with
  | .mode mguard mtype mrnd msat msub value => modeFields mguard mtype mrnd msat msub value
  | .trl count x1 x2 x3 => trlOk pr count.toNat x1.toNat x2.toNat x3.toNat
  | .trlRange x1 x2 => trlRangeOk pr x1.toNat x2.toNat
  | .br cond _ => decide (cond.toNat ≠ 8)
  | .brd cond _ => decide (cond.toNat ≠ 8 ∧ cond.toNat ≠ 0)
  | .regang slices => pr.slicesOk slices.toNat
  | .call n _ => decide (1 ≤ n.toNat ∧ n.toNat ≤ 44)
  | .calli n a => pairNz pr a.toNat && decide (1 ≤ n.toNat ∧ n.toNat ≤ 44)
  | .ret n => decide (1 ≤ n.toNat ∧ n.toNat ≤ 44)
  | .brx a => pairNz pr a.toNat
  | .waitmon lvl c a b _ => srcOk pr a.toNat && srcOk pr b.toNat && waitmonOk pr lvl.toNat c.toNat
  | .iadd d a b => dstOk pr d.toNat && srcOk pr a.toNat && srcOk pr b.toNat
  | .isub d a b => dstOk pr d.toNat && srcOk pr a.toNat && srcOk pr b.toNat
  | .imin d a b => dstOk pr d.toNat && srcOk pr a.toNat && srcOk pr b.toNat
  | .imax d a b => dstOk pr d.toNat && srcOk pr a.toNat && srcOk pr b.toNat
  | .nmin d a b => dstOk pr d.toNat && srcOk pr a.toNat && srcOk pr b.toNat
  | .nmax d a b => dstOk pr d.toNat && srcOk pr a.toNat && srcOk pr b.toNat
  | .iabsd d a b => dstOk pr d.toNat && srcOk pr a.toNat && srcOk pr b.toNat
  | .and d a b => dstOk pr d.toNat && srcOk pr a.toNat && srcOk pr b.toNat
  | .or d a b => dstOk pr d.toNat && srcOk pr a.toNat && srcOk pr b.toNat
  | .xor d a b => dstOk pr d.toNat && srcOk pr a.toNat && srcOk pr b.toNat
  | .andn d a b => dstOk pr d.toNat && srcOk pr a.toNat && srcOk pr b.toNat
  | .orn d a b => dstOk pr d.toNat && srcOk pr a.toNat && srcOk pr b.toNat
  | .shl d a b => dstOk pr d.toNat && srcOk pr a.toNat && srcOk pr b.toNat
  | .shr d a b => dstOk pr d.toNat && srcOk pr a.toNat && srcOk pr b.toNat
  | .sar d a b => dstOk pr d.toNat && srcOk pr a.toNat && srcOk pr b.toNat
  | .rol d a b => dstOk pr d.toNat && srcOk pr a.toNat && srcOk pr b.toNat
  | .ror d a b => dstOk pr d.toNat && srcOk pr a.toNat && srcOk pr b.toNat
  | .imad24 d a b c => dstOk pr d.toNat && srcOk pr a.toNat && srcOk pr b.toNat && srcOk pr c.toNat
  | .nmad24 d a b c => dstOk pr d.toNat && srcOk pr a.toNat && srcOk pr b.toNat && srcOk pr c.toNat
  | .imul32Lo d a b _ => dstOk pr d.toNat && srcOk pr a.toNat && srcOk pr b.toNat
  | .imul32Hi d a b _ => dstOk pr d.toNat && srcOk pr a.toNat && srcOk pr b.toNat
  | .imul32Nhi d a b _ => dstOk pr d.toNat && srcOk pr a.toNat && srcOk pr b.toNat
  | .bfe d a b c => dstOk pr d.toNat && srcOk pr a.toNat && srcOk pr b.toNat && srcOk pr c.toNat
  | .bfi d a b c => dstOk pr d.toNat && srcOk pr a.toNat && srcOk pr b.toNat && srcOk pr c.toNat
  | .popc d a => dstOk pr d.toNat && srcOk pr a.toNat
  | .clz d a => dstOk pr d.toNat && srcOk pr a.toNat
  | .brev d a => dstOk pr d.toNat && srcOk pr a.toNat
  | .ffs d a => dstOk pr d.toNat && srcOk pr a.toNat
  | .sel d a b c => dstOk pr d.toNat && srcOk pr a.toNat && srcOk pr b.toNat && decide (c.toNat < 8)
  | .icmp d a b fn => decide (d.toNat < 8) && srcOk pr a.toNat && srcOk pr b.toNat && decide (fn.toNat ≤ 5)
  | .pand d a b => decide (d.toNat < 8) && decide (a.toNat < 8) && decide (b.toNat < 8)
  | .por d a b => decide (d.toNat < 8) && decide (a.toNat < 8) && decide (b.toNat < 8)
  | .pxor d a b => decide (d.toNat < 8) && decide (a.toNat < 8) && decide (b.toNat < 8)
  | .pandn d a b => decide (d.toNat < 8) && decide (a.toNat < 8) && decide (b.toNat < 8)
  | .iaddi d a _ => dstOk pr d.toNat && srcOk pr a.toNat
  | .andi d a _ => dstOk pr d.toNat && srcOk pr a.toNat
  | .ori d a _ => dstOk pr d.toNat && srcOk pr a.toNat
  | .movi d _ => dstOk pr d.toNat
  | .movhi d _ => dstOk pr d.toNat
  | .lea d a b _ => dstOk pr d.toNat && srcOk pr a.toNat && srcOk pr b.toNat
  | .iadd64 d a b => pairOk pr d.toNat && pairOk pr a.toNat && pairOk pr b.toNat
  | .isub64 d a b => pairOk pr d.toNat && pairOk pr a.toNat && pairOk pr b.toNat
  | .smovSs x y => decide (x.toNat < 32) && decide (y.toNat < 32)
  | .smovSr x y => decide (x.toNat < 32) && srcOk pr y.toNat && pr.isSimt
  | .smovRs x y => dstOk pr x.toNat && decide (y.toNat < 32) && pr.isSimt
  | .sop fn _ _ _ => decide (fn.toNat ≤ 12)
  | .ffma d a b c => dstOk pr d.toNat && srcOk pr a.toNat && srcOk pr b.toNat && srcOk pr c.toNat
  | .fadd d a b => dstOk pr d.toNat && srcOk pr a.toNat && srcOk pr b.toNat
  | .fsub d a b => dstOk pr d.toNat && srcOk pr a.toNat && srcOk pr b.toNat
  | .fmul d a b => dstOk pr d.toNat && srcOk pr a.toNat && srcOk pr b.toNat
  | .fmin d a b => dstOk pr d.toNat && srcOk pr a.toNat && srcOk pr b.toNat
  | .fmax d a b => dstOk pr d.toNat && srcOk pr a.toNat && srcOk pr b.toNat
  | .fcmp d a b fn => decide (d.toNat < 8) && srcOk pr a.toNat && srcOk pr b.toNat && decide (fn.toNat ≤ 4)
  | .rcp d a _ => dstOk pr d.toNat && srcOk pr a.toNat
  | .rsqrt d a _ => dstOk pr d.toNat && srcOk pr a.toNat
  | .sqrt d a _ => dstOk pr d.toNat && srcOk pr a.toNat
  | .div d a b _ => dstOk pr d.toNat && srcOk pr a.toNat && srcOk pr b.toNat
  | .exp2 d a _ => dstOk pr d.toNat && srcOk pr a.toNat
  | .log2 d a _ => dstOk pr d.toNat && srcOk pr a.toNat
  | .sin d a _ => dstOk pr d.toNat && srcOk pr a.toNat
  | .cos d a _ => dstOk pr d.toNat && srcOk pr a.toNat
  | .tanh d a _ => dstOk pr d.toNat && srcOk pr a.toNat
  | .sigm d a _ => dstOk pr d.toNat && srcOk pr a.toNat
  | .cvt d a op sel => dstOk pr d.toNat && srcOk pr a.toNat && decide (op.toNat ≤ 7) && (decide (4 ≤ op.toNat) || decide (sel.toNat < 2))
  | .f2i d a => dstOk pr d.toNat && srcOk pr a.toNat
  | .i2f d a => dstOk pr d.toNat && srcOk pr a.toNat
  | .f2n d a => dstOk pr d.toNat && srcOk pr a.toNat
  | .n2f d a => dstOk pr d.toNat && srcOk pr a.toNat
  | .frnd d a => dstOk pr d.toNat && srcOk pr a.toNat
  | .ffma2 d a b c => dstOk pr d.toNat && srcOk pr a.toNat && srcOk pr b.toNat && srcOk pr c.toNat
  | .fadd2 d a b => dstOk pr d.toNat && srcOk pr a.toNat && srcOk pr b.toNat
  | .fmul2 d a b => dstOk pr d.toNat && srcOk pr a.toNat && srcOk pr b.toNat
  | .fmin2 d a b => dstOk pr d.toNat && srcOk pr a.toNat && srcOk pr b.toNat
  | .fmax2 d a b => dstOk pr d.toNat && srcOk pr a.toNat && srcOk pr b.toNat
  | .fabs d a => dstOk pr d.toNat && srcOk pr a.toNat
  | .fneg d a => dstOk pr d.toNat && srcOk pr a.toNat
  | .fclass d a => dstOk pr d.toNat && srcOk pr a.toNat
  | .shfl d a b fn => dstOk pr d.toNat && srcOk pr a.toNat && srcOk pr b.toNat && decide (fn.toNat ≤ 3)
  | .vote d a b fn => decide (a.toNat < 8) && (lanePair b.toNat || b.toNat == 60) && decide (fn.toNat ≤ 2) && (if fn.toNat = 2 then lanePair d.toNat else decide (d.toNat < 8))
  | .red d a b fn => dstOk pr d.toNat && srcOk pr a.toNat && (lanePair b.toNat || b.toNat == 60) && decide (fn.toNat ≤ 4)
  | .scan d a b fn => dstOk pr d.toNat && srcOk pr a.toNat && (lanePair b.toNat || b.toNat == 60) && decide (fn.toNat ≤ 1)
  | .matchKey d a => lanePair d.toNat && srcOk pr a.toNat
  | .bcast d a b => dstOk pr d.toNat && srcOk pr a.toNat && (lanePair b.toNat || b.toNat == 60)
  | .ldl d a b _ wd => decide (wd.toNat < 3) && groupOk pr true wd.toNat d.toNat && srcOk pr a.toNat && srcOk pr b.toNat
  | .stl d a b wd => decide (wd.toNat < 3) && groupOk pr false wd.toNat d.toNat && srcOk pr a.toNat && srcOk pr b.toNat
  | .lds d a b _ wd => decide (wd.toNat < 3) && groupOk pr true wd.toNat d.toNat && srcOk pr a.toNat && srcOk pr b.toNat
  | .sts d a b wd => decide (wd.toNat < 3) && groupOk pr false wd.toNat d.toNat && srcOk pr a.toNat && srcOk pr b.toNat
  | .ldc d a b _ wd => decide (wd.toNat < 3) && groupOk pr true wd.toNat d.toNat && srcOk pr a.toNat && srcOk pr b.toNat
  | .stc d a b wd => decide (wd.toNat < 3) && groupOk pr false wd.toNat d.toNat && srcOk pr a.toNat && srcOk pr b.toNat
  | .ldd d a b _ wd => decide (wd.toNat < 3) && groupOk pr true wd.toNat d.toNat && srcOk pr a.toNat && srcOk pr b.toNat
  | .std d a b wd => decide (wd.toNat < 3) && groupOk pr false wd.toNat d.toNat && srcOk pr a.toNat && srcOk pr b.toNat
  | .glq _ wd _ a x => decide (wd.toNat < 3) && (if x = 1 then pairNz pr a.toNat else srcOk pr a.toNat)
  | .gsq wd _ a d x => decide (wd.toNat < 3) && (if x = 1 then pairNz pr a.toNat else srcOk pr a.toNat) && groupOk pr false wd.toNat d.toNat
  | .waitq _ n => decide (n.toNat ≤ 16)
  | .popq _ wd d => decide (wd.toNat < 3) && groupOk pr true wd.toNat d.toNat
  | .atom op wd rq sp a b => atomOk pr op.toNat wd.toNat rq.toNat b.toNat && srcOk pr a.toNat && decide (sp.toNat < 19)
  | .atomSc op wd rq _ _ a b => atomOk pr op.toNat wd.toNat rq.toNat b.toNat && srcOk pr a.toNat
  | .bind _ o a unb => (scalarCodeZ pr a.toNat) && (if unb = 1 then decide (o = 0 ∧ a.toNat = 60) else true)
  | .acq d _ a scope => scalarCodeZ pr d.toNat && scalarCodeZ pr a.toNat && decide (2 ≤ scope.toNat ∧ scope.toNat ≤ 6)
  | .rel _ a scope => scalarCodeZ pr a.toNat && decide (2 ≤ scope.toNat ∧ scope.toNat ≤ 6)
  | .fence scope => decide (scope.toNat ≠ 7)
  | .fenceX scope src dst => decide (scope.toNat ≠ 7 ∧ src ≠ 0 ∧ dst ≠ 0)
  | .mpost d => quadOk pr d.toNat
  | .csetb _ _ off len => capPair pr off.toNat && capPair pr len.toNat
  | .cget d _ _ => scalarCode pr d.toNat
  | .cldc _ _ a => scalarCodeZ pr a.toNat
  | .cstc _ _ a => scalarCodeZ pr a.toNat
  | .kgw _ _ _ _ _ stride => decide (stride ≠ 0)
  | .kgwRd sel d => scalarCode pr d.toNat && decide (sel.toNat ≤ 5)
  | .kpack _ a mode _ _ _ => srcOk pr a.toNat && decide (mode.toNat < 3)
  | .kext d k pr_ mode sel _ => dstOk pr d.toNat && decide (mode.toNat < 3) && decide (sel.toNat < 3) && evenIf pr_ k.toNat
  | .kmul d _ _ => decide (d.toNat % 2 = 0)
  | .kmac d _ _ => decide (d.toNat % 2 = 0)
  | .kadd d a b pr_ sel => decide (sel.toNat < 3) && evenIf pr_ d.toNat && evenIf pr_ a.toNat && evenIf pr_ b.toNat
  | .ksub d a b pr_ sel => decide (sel.toNat < 3) && evenIf pr_ d.toNat && evenIf pr_ a.toNat && evenIf pr_ b.toNat
  | .kshl d a pr_ sel _ => decide (sel.toNat < 3) && evenIf pr_ d.toNat && evenIf pr_ a.toNat
  | .kshr d a pr_ sel _ => decide (sel.toNat < 3) && evenIf pr_ d.toNat && evenIf pr_ a.toNat
  | .kmov d a pr_ zero => evenIf pr_ d.toNat && evenIf pr_ a.toNat && (decide (zero = 0) || decide (a = 0))
  | .kld k pr_ sp a => evenIf pr_ k.toNat && decide (sp.toNat ≤ 16) && scalarCodeZ pr a.toNat
  | .kst k pr_ sp a => evenIf pr_ k.toNat && decide (sp.toNat ≤ 16) && scalarCodeZ pr a.toNat
  | .tmma a b _ _ => laneQuad a.toNat && laneQuad b.toNat
  | .tmmaS a b _ _ => laneQuad a.toNat && laneQuad b.toNat
  | .tmmaResume a b => laneQuad a.toNat && laneQuad b.toNat
  | .tzero _ form span fresh rel => (decide (rel = 0) || decide (form = 0 ∧ span = 0 ∧ fresh = 0))
  | .tlda _ _ _ sp off st => scalarCode pr off.toNat && scalarCode pr st.toNat && decide (sp.toNat = 1 ∨ sp.toNat = 2)
  | .tsta _ _ _ sp off st => scalarCode pr off.toNat && scalarCode pr st.toNat && decide (sp.toNat = 1 ∨ sp.toNat = 2)
  | .scacc _ _ _ _ off => scalarCode pr off.toNat
  | .axr d _ b _ => dstOk pr d.toNat && srcOk pr b.toNat
  | .axw a _ b _ => srcOk pr a.toNat && srcOk pr b.toNat
  | .tdesc d a => scalarCode pr d.toNat && laneQuad a.toNat
  | .cwait n => decide (n.toNat ≤ 32)
  | .cstat d sel => dstOk .collie d.toNat && decide (sel.toNat ≤ 4)
  | .launch d sp a => scalarCodeZ pr d.toNat && scalarCodeZ pr a.toNat && decide (sp.toNat ≤ 16)
  | .launchNb d sp a => scalarCodeZ pr d.toNat && scalarCodeZ pr a.toNat && decide (sp.toNat ≤ 16)
  | .join d a => scalarCodeZ pr d.toNat && scalarCodeZ pr a.toNat
  | .post a => recordQuad a.toNat
  | .fork a => recordQuad a.toNat
  | .bequeath f _ _ k => decide (f.toNat ≤ 43) && (keyPair k.toNat || k.toNat == 60)
  | .estat d _ => dstOk pr d.toNat
  | .eclaim f _ _ k _ _ => decide (f.toNat ≤ 43) && keyPair k.toNat
  | .ereleaseKey _ k => keyPair k.toNat
  | .eprobe d k _ => dstOk pr d.toNat && keyPair k.toNat
  | .barInit _ n => decide (n ≠ 0)
  | .rdsr d sr => dstOk pr d.toNat && pr.srOk sr.toNat
  | .wrsr a sr => srcOk pr a.toNat && pr.srOk sr.toNat
  | .emuget d _ => dstOk pr d.toNat
  | .emuput _ a => srcOk pr a.toNat
  | .emurd d kind idx part => dstOk pr d.toNat && emuKindOk pr false kind.toNat idx.toNat part.toNat
  | .emuwr a kind idx part => srcOk pr a.toNat && emuKindOk pr true kind.toNat idx.toNat part.toNat
  | .emuret _ at_ a => decide (at_.toNat < 3) && (if at_.toNat = 2 then pairNz pr a.toNat else decide (a = 0))
  | .dfma d a b c => lanePair d.toNat && lanePair a.toNat && lanePair b.toNat && lanePair c.toNat
  | .dop d a b fn => lanePair d.toNat && lanePair a.toNat && lanePair b.toNat && decide (fn.toNat ≤ 4)
  | .dcmp d a b fn => decide (d.toNat < 8) && lanePair a.toNat && lanePair b.toNat && decide (fn.toNat ≤ 4)
  | .dcvt d a dir => (if dir.toNat = 0 ∨ dir.toNat = 2 then lanePair d.toNat else dstOk pr d.toNat) && (if dir.toNat = 1 ∨ dir.toNat = 3 then lanePair a.toNat else srcOk pr a.toNat)
  | _ => true

/-- The scalar of its warp that EMURD or EMUWR names by kind and idx (R228): a warp has one set of scalars. -/
def callerScalar (pr : Profile) (kind idx : Nat) : List Nat := if pr.isSimt ∧ kind = 2 ∧ idx < 8 then [52 + idx] else []

/-- The register codes a word reads, and those that its other fields name; 64 stands for none. -/
def srcCodes (pr : Profile) (i : Instr) : List Nat :=
  match i with
  | .calli _ a => pairCodes a.toNat
  | .brx a => pairCodes a.toNat
  | .waitmon _ _ a b _ => [a.toNat] ++ [b.toNat]
  | .iadd _ a b => [a.toNat] ++ [b.toNat]
  | .isub _ a b => [a.toNat] ++ [b.toNat]
  | .imin _ a b => [a.toNat] ++ [b.toNat]
  | .imax _ a b => [a.toNat] ++ [b.toNat]
  | .nmin _ a b => [a.toNat] ++ [b.toNat]
  | .nmax _ a b => [a.toNat] ++ [b.toNat]
  | .iabsd _ a b => [a.toNat] ++ [b.toNat]
  | .and _ a b => [a.toNat] ++ [b.toNat]
  | .or _ a b => [a.toNat] ++ [b.toNat]
  | .xor _ a b => [a.toNat] ++ [b.toNat]
  | .andn _ a b => [a.toNat] ++ [b.toNat]
  | .orn _ a b => [a.toNat] ++ [b.toNat]
  | .shl _ a b => [a.toNat] ++ [b.toNat]
  | .shr _ a b => [a.toNat] ++ [b.toNat]
  | .sar _ a b => [a.toNat] ++ [b.toNat]
  | .rol _ a b => [a.toNat] ++ [b.toNat]
  | .ror _ a b => [a.toNat] ++ [b.toNat]
  | .imad24 _ a b c => [a.toNat] ++ [b.toNat] ++ [c.toNat]
  | .nmad24 _ a b c => [a.toNat] ++ [b.toNat] ++ [c.toNat]
  | .imul32Lo _ a b _ => [a.toNat] ++ [b.toNat]
  | .imul32Hi _ a b _ => [a.toNat] ++ [b.toNat]
  | .imul32Nhi _ a b _ => [a.toNat] ++ [b.toNat]
  | .bfe _ a b c => [a.toNat] ++ [b.toNat] ++ [c.toNat]
  | .bfi _ a b c => [a.toNat] ++ [b.toNat] ++ [c.toNat]
  | .popc _ a => [a.toNat]
  | .clz _ a => [a.toNat]
  | .brev _ a => [a.toNat]
  | .ffs _ a => [a.toNat]
  | .sel _ a b _ => [a.toNat] ++ [b.toNat]
  | .icmp _ a b _ => [a.toNat] ++ [b.toNat]
  | .iaddi _ a _ => [a.toNat]
  | .andi _ a _ => [a.toNat]
  | .ori _ a _ => [a.toNat]
  | .movhi d _ => [d.toNat]
  | .lea _ a b _ => [a.toNat] ++ [b.toNat]
  | .iadd64 _ a b => pairCodes a.toNat ++ pairCodes b.toNat
  | .isub64 _ a b => pairCodes a.toNat ++ pairCodes b.toNat
  | .smovSs _ y => [scalarName pr y.toNat]
  | .smovSr _ y => [y.toNat]
  | .smovRs _ y => [scalarName pr y.toNat]
  | .sop _ _ a b => [scalarName pr a.toNat] ++ [scalarName pr b.toNat]
  | .ffma _ a b c => [a.toNat] ++ [b.toNat] ++ [c.toNat]
  | .fadd _ a b => [a.toNat] ++ [b.toNat]
  | .fsub _ a b => [a.toNat] ++ [b.toNat]
  | .fmul _ a b => [a.toNat] ++ [b.toNat]
  | .fmin _ a b => [a.toNat] ++ [b.toNat]
  | .fmax _ a b => [a.toNat] ++ [b.toNat]
  | .fcmp _ a b _ => [a.toNat] ++ [b.toNat]
  | .rcp _ a _ => [a.toNat]
  | .rsqrt _ a _ => [a.toNat]
  | .sqrt _ a _ => [a.toNat]
  | .div _ a b _ => [a.toNat] ++ [b.toNat]
  | .exp2 _ a _ => [a.toNat]
  | .log2 _ a _ => [a.toNat]
  | .sin _ a _ => [a.toNat]
  | .cos _ a _ => [a.toNat]
  | .tanh _ a _ => [a.toNat]
  | .sigm _ a _ => [a.toNat]
  | .cvt d a op _ => [a.toNat] ++ (if op.toNat = 0 ∨ op.toNat = 1 ∨ op.toNat = 4 ∨ op.toNat = 6 then [d.toNat] else [])
  | .f2i _ a => [a.toNat]
  | .i2f _ a => [a.toNat]
  | .f2n _ a => [a.toNat]
  | .n2f _ a => [a.toNat]
  | .frnd _ a => [a.toNat]
  | .ffma2 _ a b c => [a.toNat] ++ [b.toNat] ++ [c.toNat]
  | .fadd2 _ a b => [a.toNat] ++ [b.toNat]
  | .fmul2 _ a b => [a.toNat] ++ [b.toNat]
  | .fmin2 _ a b => [a.toNat] ++ [b.toNat]
  | .fmax2 _ a b => [a.toNat] ++ [b.toNat]
  | .fabs _ a => [a.toNat]
  | .fneg _ a => [a.toNat]
  | .fclass _ a => [a.toNat]
  | .shfl _ a b _ => [a.toNat] ++ [b.toNat]
  | .vote _ _ b _ => pairCodes b.toNat
  | .red _ a b _ => [a.toNat] ++ pairCodes b.toNat
  | .scan _ a b _ => [a.toNat] ++ pairCodes b.toNat
  | .matchKey _ a => [a.toNat]
  | .bcast _ a b => [a.toNat] ++ pairCodes b.toNat
  | .ldl _ a b _ _ => [a.toNat] ++ [b.toNat]
  | .stl d a b wd => groupCodes wd.toNat d.toNat ++ [a.toNat] ++ [b.toNat]
  | .lds _ a b _ _ => [a.toNat] ++ [b.toNat]
  | .sts d a b wd => groupCodes wd.toNat d.toNat ++ [a.toNat] ++ [b.toNat]
  | .ldc _ a b _ _ => [a.toNat] ++ [b.toNat]
  | .stc d a b wd => groupCodes wd.toNat d.toNat ++ [a.toNat] ++ [b.toNat]
  | .ldd _ a b _ _ => [a.toNat] ++ [b.toNat]
  | .std d a b wd => groupCodes wd.toNat d.toNat ++ [a.toNat] ++ [b.toNat]
  | .glq _ _ _ a x => (if x = 1 then pairCodes a.toNat else [a.toNat])
  | .gsq wd _ a d x => (if x = 1 then pairCodes a.toNat else [a.toNat]) ++ groupCodes wd.toNat d.toNat
  | .atom op wd _ _ a b => [a.toNat] ++ atomCodes op.toNat wd.toNat b.toNat
  | .atomSc op wd _ _ _ a b => [a.toNat] ++ atomCodes op.toNat wd.toNat b.toNat
  | .bind _ _ a _ => [a.toNat]
  | .acq _ _ a _ => [a.toNat]
  | .rel _ a _ => [a.toNat]
  | .mpost d => groupCodes 2 d.toNat
  | .csetb _ _ off len => pairCodes off.toNat ++ pairCodes len.toNat
  | .cldc _ _ a => [a.toNat]
  | .cstc _ _ a => [a.toNat]
  | .kpack _ a _ _ _ _ => [a.toNat]
  | .kld _ _ _ a => [a.toNat]
  | .kst _ _ _ a => [a.toNat]
  | .tmma a b _ _ => groupCodes 2 a.toNat ++ groupCodes 2 b.toNat
  | .tmmaS a b _ _ => groupCodes 2 a.toNat ++ groupCodes 2 b.toNat
  | .tmmaResume a b => groupCodes 2 a.toNat ++ groupCodes 2 b.toNat
  | .tlda _ _ _ _ off st => [off.toNat] ++ [st.toNat]
  | .tsta _ _ _ _ off st => [off.toNat] ++ [st.toNat]
  | .scacc _ _ _ _ off => [off.toNat]
  | .axr _ _ b _ => [b.toNat]
  | .axw a _ b _ => [a.toNat] ++ [b.toNat]
  | .tdesc _ a => groupCodes 2 a.toNat
  | .cpy q => List.range' (8 * q.toNat) 8
  | .cpySc q => List.range' (8 * q.toNat) 8
  | .cpyX q => List.range' (8 * q.toNat) 8
  | .cpyR q => List.range' (8 * q.toNat) 8
  | .launch _ _ a => [a.toNat]
  | .launchNb _ _ a => [a.toNat]
  | .join _ a => [a.toNat]
  | .post a => groupCodes 2 a.toNat
  | .fork a => groupCodes 2 a.toNat
  | .bequeath f _ w k => [f.toNat] ++ [scalarName pr w.toNat] ++ pairCodes k.toNat
  | .eclaim f _ w k l _ => [f.toNat] ++ [scalarName pr w.toNat] ++ [scalarName pr l.toNat] ++ pairCodes k.toNat
  | .erelease l => [scalarName pr l.toNat]
  | .ereleaseKey l k => [scalarName pr l.toNat] ++ pairCodes k.toNat
  | .eprobe _ k l => [scalarName pr l.toNat] ++ pairCodes k.toNat
  | .wrsr a _ => [a.toNat]
  | .emuput _ a => [a.toNat]
  | .emurd _ kind idx _ => callerScalar pr kind.toNat idx.toNat
  | .emuwr a kind idx _ => [a.toNat] ++ callerScalar pr kind.toNat idx.toNat
  | .emuret _ at_ a => (if at_.toNat = 2 then pairCodes a.toNat else [])
  | .dfma _ a b c => pairCodes a.toNat ++ pairCodes b.toNat ++ pairCodes c.toNat
  | .dop _ a b _ => pairCodes a.toNat ++ pairCodes b.toNat
  | .dcmp _ a b _ => pairCodes a.toNat ++ pairCodes b.toNat
  | .dcvt _ a dir => (if dir.toNat = 1 ∨ dir.toNat = 3 then pairCodes a.toNat else [a.toNat])
  | _ => []

/-- The register codes a word writes. -/
def dstCodes (pr : Profile) (i : Instr) : List Nat :=
  match i with
  | .iadd d _ _ => [d.toNat]
  | .isub d _ _ => [d.toNat]
  | .imin d _ _ => [d.toNat]
  | .imax d _ _ => [d.toNat]
  | .nmin d _ _ => [d.toNat]
  | .nmax d _ _ => [d.toNat]
  | .iabsd d _ _ => [d.toNat]
  | .and d _ _ => [d.toNat]
  | .or d _ _ => [d.toNat]
  | .xor d _ _ => [d.toNat]
  | .andn d _ _ => [d.toNat]
  | .orn d _ _ => [d.toNat]
  | .shl d _ _ => [d.toNat]
  | .shr d _ _ => [d.toNat]
  | .sar d _ _ => [d.toNat]
  | .rol d _ _ => [d.toNat]
  | .ror d _ _ => [d.toNat]
  | .imad24 d _ _ _ => [d.toNat]
  | .nmad24 d _ _ _ => [d.toNat]
  | .imul32Lo d _ _ _ => [d.toNat]
  | .imul32Hi d _ _ _ => [d.toNat]
  | .imul32Nhi d _ _ _ => [d.toNat]
  | .bfe d _ _ _ => [d.toNat]
  | .bfi d _ _ _ => [d.toNat]
  | .popc d _ => [d.toNat]
  | .clz d _ => [d.toNat]
  | .brev d _ => [d.toNat]
  | .ffs d _ => [d.toNat]
  | .sel d _ _ _ => [d.toNat]
  | .iaddi d _ _ => [d.toNat]
  | .andi d _ _ => [d.toNat]
  | .ori d _ _ => [d.toNat]
  | .movi d _ => [d.toNat]
  | .movhi d _ => [d.toNat]
  | .lea d _ _ _ => [d.toNat]
  | .iadd64 d _ _ => pairCodes d.toNat
  | .isub64 d _ _ => pairCodes d.toNat
  | .smovSs x _ => [scalarName pr x.toNat]
  | .smovSr x _ => [scalarName pr x.toNat]
  | .smovRs x _ => [x.toNat]
  | .sop _ d _ _ => [scalarName pr d.toNat]
  | .ffma d _ _ _ => [d.toNat]
  | .fadd d _ _ => [d.toNat]
  | .fsub d _ _ => [d.toNat]
  | .fmul d _ _ => [d.toNat]
  | .fmin d _ _ => [d.toNat]
  | .fmax d _ _ => [d.toNat]
  | .rcp d _ _ => [d.toNat]
  | .rsqrt d _ _ => [d.toNat]
  | .sqrt d _ _ => [d.toNat]
  | .div d _ _ _ => [d.toNat]
  | .exp2 d _ _ => [d.toNat]
  | .log2 d _ _ => [d.toNat]
  | .sin d _ _ => [d.toNat]
  | .cos d _ _ => [d.toNat]
  | .tanh d _ _ => [d.toNat]
  | .sigm d _ _ => [d.toNat]
  | .cvt d _ _ _ => [d.toNat]
  | .f2i d _ => [d.toNat]
  | .i2f d _ => [d.toNat]
  | .f2n d _ => [d.toNat]
  | .n2f d _ => [d.toNat]
  | .frnd d _ => [d.toNat]
  | .ffma2 d _ _ _ => [d.toNat]
  | .fadd2 d _ _ => [d.toNat]
  | .fmul2 d _ _ => [d.toNat]
  | .fmin2 d _ _ => [d.toNat]
  | .fmax2 d _ _ => [d.toNat]
  | .fabs d _ => [d.toNat]
  | .fneg d _ => [d.toNat]
  | .fclass d _ => [d.toNat]
  | .shfl d _ _ _ => [d.toNat]
  | .vote d _ _ fn => (if fn.toNat = 2 then pairCodes d.toNat else [])
  | .red d _ _ _ => [d.toNat]
  | .scan d _ _ _ => [d.toNat]
  | .matchKey d _ => pairCodes d.toNat
  | .bcast d _ _ => [d.toNat]
  | .ldl d _ _ _ wd => groupCodes wd.toNat d.toNat
  | .lds d _ _ _ wd => groupCodes wd.toNat d.toNat
  | .ldc d _ _ _ wd => groupCodes wd.toNat d.toNat
  | .ldd d _ _ _ wd => groupCodes wd.toNat d.toNat
  | .popq _ wd d => groupCodes wd.toNat d.toNat
  | .atom _ wd _ _ _ b => (if pr.isSimt then [] else atomRet wd.toNat b.toNat)
  | .acq d _ _ _ => [d.toNat]
  | .cget d _ _ => [d.toNat]
  | .kgwRd _ d => [d.toNat]
  | .kext d _ _ _ _ _ => [d.toNat]
  | .axr d _ _ _ => [d.toNat]
  | .tdesc d _ => [d.toNat]
  | .mbx q _ => List.range' (4 * q.toNat) 4
  | .mbxw q => List.range' (4 * q.toNat) 4
  | .cstat d _ => [d.toNat]
  | .launch d _ _ => [d.toNat]
  | .launchNb d _ _ => [d.toNat]
  | .join d _ => [d.toNat]
  | .estat d _ => [d.toNat]
  | .eprobe d _ _ => [d.toNat]
  | .rdsr d _ => [d.toNat]
  | .emuget d _ => [d.toNat]
  | .emurd d _ _ _ => [d.toNat]
  | .dfma d _ _ _ => pairCodes d.toNat
  | .dop d _ _ _ => pairCodes d.toNat
  | .dcvt d _ dir => (if dir.toNat = 0 ∨ dir.toNat = 2 then pairCodes d.toNat else [d.toNat])
  | _ => []

/-- Every register code in a field of the word is one of the executing profile's (R27, R45 step 6); RET reads its pair
without naming it in a field. -/
def namesDefined (pr : Profile) (i : Instr) : Bool :=
  match i with
  | .ret _ => true
  | _ => pr.isSimt || (srcCodes pr i ++ dstCodes pr i).all fun c => decide (c < 32) || c == 60

/-- Every field of the word holds a value that its entry and the profile define (R45 step 6). -/
def fieldsOk (pr : Profile) (i : Instr) : Bool := entryFieldsOk pr i && namesDefined pr i

/-- The look value of a long-latency word (R24). -/
def lookOf (i : Instr) : Option Nat :=
  match i with
  | .imul32Lo _ _ _ look => some look.toNat
  | .imul32Hi _ _ _ look => some look.toNat
  | .imul32Nhi _ _ _ look => some look.toNat
  | .rcp _ _ look => some look.toNat
  | .rsqrt _ _ look => some look.toNat
  | .sqrt _ _ look => some look.toNat
  | .div _ _ _ look => some look.toNat
  | .exp2 _ _ look => some look.toNat
  | .log2 _ _ look => some look.toNat
  | .sin _ _ look => some look.toNat
  | .cos _ _ look => some look.toNat
  | .tanh _ _ look => some look.toNat
  | .sigm _ _ look => some look.toNat
  | .ldl _ _ _ look _ => some look.toNat
  | .lds _ _ _ look _ => some look.toNat
  | .ldc _ _ _ look _ => some look.toNat
  | .ldd _ _ _ look _ => some look.toNat
  | _ => none

/-- The last word of its run (R33): TRL and the control transfers. -/
def endsRun (i : Instr) : Bool :=
  match i with
  | .trl _ _ _ _ => true
  | .trlRange _ _ => true
  | .br _ _ => true
  | .brd _ _ => true
  | .rjoin _ => true
  | .regang _ => true
  | .call _ _ => true
  | .calli _ _ => true
  | .ret _ => true
  | .brx _ => true
  | .yield _ => true
  | .yieldB _ _ => true
  | .waitmon _ _ _ _ _ => true
  | .exit => true
  | .emuret _ _ _ => true
  | .barWait _ _ => true
  | .join _ _ => true
  | .joint => true
  | .launch _ _ _ => true
  | .launchNb _ _ _ => true
  | .post _ => true
  | .fork _ => true
  | _ => false

/-- The major opcode of an instruction word (R23). -/
def majorOf (i : Instr) : Nat :=
  match i with
  | .mode _ _ _ _ _ _ => 0x1
  | .trl _ _ _ _ => 0x2
  | .trlRange _ _ => 0x2
  | .nop => 0x3
  | .br _ _ => 0x4
  | .brd _ _ => 0x5
  | .rjoin _ => 0x6
  | .regang _ => 0x7
  | .call _ _ => 0x8
  | .calli _ _ => 0x9
  | .ret _ => 0xa
  | .brx _ => 0xb
  | .yield _ => 0xc
  | .yieldB _ _ => 0xd
  | .waitmon _ _ _ _ _ => 0xe
  | .exit => 0xf
  | .iadd _ _ _ => 0x10
  | .isub _ _ _ => 0x10
  | .imin _ _ _ => 0x10
  | .imax _ _ _ => 0x10
  | .nmin _ _ _ => 0x10
  | .nmax _ _ _ => 0x10
  | .iabsd _ _ _ => 0x10
  | .and _ _ _ => 0x11
  | .or _ _ _ => 0x11
  | .xor _ _ _ => 0x11
  | .andn _ _ _ => 0x11
  | .orn _ _ _ => 0x11
  | .shl _ _ _ => 0x12
  | .shr _ _ _ => 0x12
  | .sar _ _ _ => 0x12
  | .rol _ _ _ => 0x12
  | .ror _ _ _ => 0x12
  | .imad24 _ _ _ _ => 0x13
  | .nmad24 _ _ _ _ => 0x14
  | .imul32Lo _ _ _ _ => 0x15
  | .imul32Hi _ _ _ _ => 0x15
  | .imul32Nhi _ _ _ _ => 0x15
  | .bfe _ _ _ _ => 0x16
  | .bfi _ _ _ _ => 0x17
  | .popc _ _ => 0x18
  | .clz _ _ => 0x18
  | .brev _ _ => 0x18
  | .ffs _ _ => 0x18
  | .sel _ _ _ _ => 0x19
  | .icmp _ _ _ _ => 0x1a
  | .pand _ _ _ => 0x1b
  | .por _ _ _ => 0x1b
  | .pxor _ _ _ => 0x1b
  | .pandn _ _ _ => 0x1b
  | .iaddi _ _ _ => 0x1c
  | .andi _ _ _ => 0x1d
  | .ori _ _ _ => 0x1e
  | .movi _ _ => 0x1f
  | .movhi _ _ => 0x20
  | .lea _ _ _ _ => 0x21
  | .iadd64 _ _ _ => 0x22
  | .isub64 _ _ _ => 0x22
  | .smovSs _ _ => 0x23
  | .smovSr _ _ => 0x23
  | .smovRs _ _ => 0x23
  | .sop _ _ _ _ => 0x24
  | .ffma _ _ _ _ => 0x40
  | .fadd _ _ _ => 0x41
  | .fsub _ _ _ => 0x41
  | .fmul _ _ _ => 0x41
  | .fmin _ _ _ => 0x41
  | .fmax _ _ _ => 0x41
  | .fcmp _ _ _ _ => 0x42
  | .rcp _ _ _ => 0x43
  | .rsqrt _ _ _ => 0x43
  | .sqrt _ _ _ => 0x43
  | .div _ _ _ _ => 0x43
  | .exp2 _ _ _ => 0x44
  | .log2 _ _ _ => 0x44
  | .sin _ _ _ => 0x44
  | .cos _ _ _ => 0x44
  | .tanh _ _ _ => 0x45
  | .sigm _ _ _ => 0x45
  | .cvt _ _ _ _ => 0x46
  | .f2i _ _ => 0x47
  | .i2f _ _ => 0x47
  | .f2n _ _ => 0x47
  | .n2f _ _ => 0x47
  | .frnd _ _ => 0x47
  | .ffma2 _ _ _ _ => 0x48
  | .fadd2 _ _ _ => 0x49
  | .fmul2 _ _ _ => 0x49
  | .fmin2 _ _ _ => 0x49
  | .fmax2 _ _ _ => 0x49
  | .fabs _ _ => 0x4a
  | .fneg _ _ => 0x4a
  | .fclass _ _ => 0x4a
  | .shfl _ _ _ _ => 0x70
  | .vote _ _ _ _ => 0x71
  | .red _ _ _ _ => 0x72
  | .scan _ _ _ _ => 0x73
  | .matchKey _ _ => 0x74
  | .bcast _ _ _ => 0x75
  | .ldl _ _ _ _ _ => 0x80
  | .stl _ _ _ _ => 0x81
  | .lds _ _ _ _ _ => 0x82
  | .sts _ _ _ _ => 0x83
  | .ldc _ _ _ _ _ => 0x84
  | .stc _ _ _ _ => 0x85
  | .ldd _ _ _ _ _ => 0x86
  | .std _ _ _ _ => 0x87
  | .glq _ _ _ _ _ => 0x88
  | .gsq _ _ _ _ _ => 0x89
  | .waitq _ _ => 0x8a
  | .popq _ _ _ => 0x8b
  | .atom _ _ _ _ _ _ => 0x8c
  | .atomSc _ _ _ _ _ _ _ => 0x8d
  | .bind _ _ _ _ => 0x8e
  | .acq _ _ _ _ => 0x8f
  | .rel _ _ _ => 0x90
  | .fence _ => 0x91
  | .fenceX _ _ _ => 0x92
  | .mpost _ => 0x93
  | .cmov _ _ => 0xa0
  | .csetb _ _ _ _ => 0xa1
  | .candp _ _ _ => 0xa2
  | .cseal _ _ _ => 0xa3
  | .cunseal _ _ _ => 0xa4
  | .cget _ _ _ => 0xa5
  | .cldc _ _ _ => 0xa6
  | .cstc _ _ _ => 0xa7
  | .kgw _ _ _ _ _ _ => 0xb0
  | .kgwRd _ _ => 0xb0
  | .kpack _ _ _ _ _ _ => 0xb1
  | .kext _ _ _ _ _ _ => 0xb2
  | .kmul _ _ _ => 0xb3
  | .kmac _ _ _ => 0xb4
  | .kadd _ _ _ _ _ => 0xb5
  | .ksub _ _ _ _ _ => 0xb6
  | .kshl _ _ _ _ _ => 0xb7
  | .kshr _ _ _ _ _ => 0xb8
  | .kmov _ _ _ _ => 0xb9
  | .kld _ _ _ _ => 0xba
  | .kst _ _ _ _ => 0xbb
  | .tmma _ _ _ _ => 0xc0
  | .tmmaS _ _ _ _ => 0xc1
  | .tmmaResume _ _ => 0xc2
  | .twait _ => 0xc3
  | .tzero _ _ _ _ _ => 0xc4
  | .tlda _ _ _ _ _ _ => 0xc5
  | .tsta _ _ _ _ _ _ => 0xc6
  | .scacc _ _ _ _ _ => 0xc7
  | .axr _ _ _ _ => 0xc8
  | .axw _ _ _ _ => 0xc9
  | .tdesc _ _ => 0xca
  | .cpy _ => 0xd0
  | .cpySc _ => 0xd1
  | .cpyX _ => 0xd2
  | .cpyR _ => 0xd3
  | .arrive _ => 0xd4
  | .mbx _ _ => 0xd5
  | .mbxw _ => 0xd6
  | .cwait _ => 0xd7
  | .cstat _ _ => 0xd8
  | .launch _ _ _ => 0xe0
  | .launchNb _ _ _ => 0xe1
  | .join _ _ => 0xe2
  | .post _ => 0xe3
  | .fork _ => 0xe4
  | .joint => 0xe5
  | .bequeath _ _ _ _ => 0xe6
  | .estat _ _ => 0xe7
  | .eclaim _ _ _ _ _ _ => 0xe8
  | .erelease _ => 0xe9
  | .ereleaseKey _ _ => 0xe9
  | .eprobe _ _ _ => 0xea
  | .barInit _ _ => 0xeb
  | .barArrive _ => 0xec
  | .barWait _ _ => 0xed
  | .trap _ => 0xf0
  | .rdsr _ _ => 0xf1
  | .wrsr _ _ => 0xf2
  | .emuget _ _ => 0xf3
  | .emuput _ _ => 0xf4
  | .emurd _ _ _ _ => 0xf5
  | .emuwr _ _ _ _ => 0xf6
  | .emuret _ _ _ => 0xf7
  | .dfma _ _ _ _ => 0xf8
  | .dop _ _ _ _ => 0xf9
  | .dcmp _ _ _ _ => 0xfa
  | .dcvt _ _ _ => 0xfb
  | _ => 0

/-- The element types an instruction accepts (R91, R129, R139); none when it does not consume the type. -/
def typesOf (i : Instr) : Option (List Nat) :=
  match i with
  | .iadd _ _ _ => (some [0, 1, 2, 3, 4, 5, 6, 7, 8, 9])
  | .isub _ _ _ => (some [0, 1, 2, 3, 4, 5, 6, 7, 8, 9])
  | .imin _ _ _ => (some [0, 1, 2, 3, 4, 5, 6, 7, 8, 9])
  | .imax _ _ _ => (some [0, 1, 2, 3, 4, 5, 6, 7, 8, 9])
  | .nmin _ _ _ => (some [0, 1, 2, 3, 4, 5, 6, 7, 8, 9])
  | .nmax _ _ _ => (some [0, 1, 2, 3, 4, 5, 6, 7, 8, 9])
  | .iabsd _ _ _ => (some [0, 1, 2, 3, 4, 5, 6, 7, 8, 9])
  | .bfe _ _ _ _ => some [0, 1]
  | .ffma _ _ _ _ => some [0x10, 0x11, 0x12]
  | .fadd _ _ _ => some [0x10, 0x11, 0x12]
  | .fsub _ _ _ => some [0x10, 0x11, 0x12]
  | .fmul _ _ _ => some [0x10, 0x11, 0x12]
  | .fmin _ _ _ => some [0x10, 0x11, 0x12]
  | .fmax _ _ _ => some [0x10, 0x11, 0x12]
  | .fcmp _ _ _ _ => some [0x10, 0x11, 0x12]
  | .rcp _ _ _ => some [0x10, 0x11, 0x12]
  | .rsqrt _ _ _ => some [0x10, 0x11, 0x12]
  | .sqrt _ _ _ => some [0x10, 0x11, 0x12]
  | .div _ _ _ _ => some [0x10, 0x11, 0x12]
  | .exp2 _ _ _ => some [0x10, 0x11, 0x12]
  | .log2 _ _ _ => some [0x10, 0x11, 0x12]
  | .sin _ _ _ => some [0x10, 0x11, 0x12]
  | .cos _ _ _ => some [0x10, 0x11, 0x12]
  | .tanh _ _ _ => some [0x10, 0x11, 0x12]
  | .sigm _ _ _ => some [0x10, 0x11, 0x12]
  | .f2i _ _ => some [0x10, 0x11, 0x12]
  | .i2f _ _ => some [0x10, 0x11, 0x12]
  | .f2n _ _ => some [0x10, 0x11, 0x12]
  | .n2f _ _ => some [0x10, 0x11, 0x12]
  | .frnd _ _ => some [0x10, 0x11, 0x12]
  | .fclass _ _ => some [0x10, 0x11, 0x12]
  | .ffma2 _ _ _ _ => some [0x13, 0x14]
  | .fadd2 _ _ _ => some [0x13, 0x14]
  | .fmul2 _ _ _ => some [0x13, 0x14]
  | .fmin2 _ _ _ => some [0x13, 0x14]
  | .fmax2 _ _ _ => some [0x13, 0x14]
  | .fabs _ _ => some [0x10, 0x11, 0x12, 0x13, 0x14]
  | .fneg _ _ => some [0x10, 0x11, 0x12, 0x13, 0x14]
  | .red _ _ _ fn => if fn.toNat < 3 then some [0, 1, 0x10] else none
  | .scan _ _ _ _ => some [0, 1, 0x10]
  | _ => none

/-- The instruction rounds by mode.rnd under element type ty (R129, R136, R139, R57). -/
def roundsUnder (i : Instr) (ty : Nat) : Bool :=
  match i with
  | .ffma _ _ _ _ => true
  | .fadd _ _ _ => true
  | .fsub _ _ _ => true
  | .fmul _ _ _ => true
  | .rcp _ _ _ => true
  | .sqrt _ _ _ => true
  | .div _ _ _ _ => true
  | .f2i _ _ => true
  | .i2f _ _ => true
  | .f2n _ _ => true
  | .n2f _ _ => true
  | .frnd _ _ => true
  | .ffma2 _ _ _ _ => true
  | .fadd2 _ _ _ => true
  | .fmul2 _ _ _ => true
  | .dfma _ _ _ _ => true
  | .cvt _ _ op _ => op.toNat == 0 || op.toNat == 1 || op.toNat == 4 || op.toNat == 6
  | .red _ _ _ fn => fn.toNat == 0 && ty == 0x10
  | .scan _ _ _ _ => ty == 0x10
  | .dop _ _ _ fn => decide (fn.toNat < 3)
  | .dcvt _ _ dir => dir.toNat == 1 || dir.toNat == 3
  | _ => false

/-- A word only an emulation handler may execute (R51). -/
def handlerOnly (major : Nat) : Bool := decide (0xF3 ≤ major) && decide (major ≤ 0xF7)

/-- The words of R51's table that an agent may execute; inHandler says that an emulation or Collie handler runs. -/
def permitted (pr : Profile) (inHandler : Bool) (major : Nat) : Bool :=
  match pr with
  | .simt _ => (major < 0xD0 || decide (0xE0 ≤ major)) && (!handlerOnly major || inHandler)
  | .collie =>
    if major < 0x10 then [0x01, 0x02, 0x03, 0x04, 0x0B, 0x0E].contains major
    else if major < 0x40 then true
    else if major < 0x80 then false
    else if major < 0xA0 then [0x82, 0x83, 0x8C, 0x91, 0x92].contains major
    else if major < 0xB0 then true
    else if major < 0xD0 then false
    else if major < 0xE0 then true
    else if major < 0xF0 then false
    else !handlerOnly major || inHandler
  | .mc =>
    if major < 0x10 then [0x01, 0x02, 0x03, 0x04, 0x0B, 0x0E].contains major
    else if major < 0x40 then true
    else [0x82, 0x83, 0x91, 0xF0, 0xF1, 0xF2].contains major

end Sys2Proof.Machine
end

