-- ==== Sys2Proof/Machine/Exe.lean ====
section
/-!
DEFINITION. The registers as an issuing agent sees them: a gang of a warp reads and writes per lane (R25, R26, R32, R83),
a scalar agent acts on one value (R27, R93). Every register access of a word goes through these operations.
-/
namespace Sys2Proof.Machine

/-- The key of a lane register or temporary: logical index or number, and lane. -/
def regKey (idx lane : Nat) : Nat := 64 * idx + lane

/-- The issuing agent: a warp with the slices of the gang, or a scalar agent. -/
inductive Exe where
  | simt (w : Warp) (sl : List Nat)
  | scal (x : Scalar)
deriving DecidableEq, Repr

/-- Slice j of a warp. -/
def Warp.slice (w : Warp) (j : Nat) : Slice := w.slices.getD j default

/-- The warp with slice j replaced. -/
def Warp.setSlice (w : Warp) (j : Nat) (x : Slice) : Warp := { w with slices := setNth w.slices j x }

/-- The warp with f applied to each listed slice. -/
def Warp.mapSlices (w : Warp) (js : List Nat) (f : Nat → Slice → Slice) : Warp :=
  js.foldl (fun v j => v.setSlice j (f j (v.slice j))) w

/-- The lanes of slice j; a warp has at most 16 slices, 64 lanes (R28, R74). DEDUCED (log entry 18). -/
def lanesOf (j : Nat) : List Nat := if j < 16 then [4 * j, 4 * j + 1, 4 * j + 2, 4 * j + 3] else []

/-- The lanes of slice j whose lanemask bit is set (R146). -/
def Warp.active (w : Warp) (j : Nat) : List Nat := (lanesOf j).filter fun L => (w.slice j).lanemask.getLsbD (L % 4)

/-- The lanes of the slices that execute (R32). -/
def Warp.execLanes (w : Warp) (sl : List Nat) : List Nat :=
  sl.flatMap fun j => (w.active j).filter fun L => guardHolds (w.slice j).mode w.p L

/-- lid of lane L (R25, R73). -/
def Warp.lid (w : Warp) (L : Nat) : Nat := w.index * w.width + L

/-- What the register code c reads in lane L (R25). -/
def Warp.read (w : Warp) (c L : Nat) : BitVec 32 :=
  if c < 44 then sparseGet 0 w.regs (regKey ((w.slice (L / 4)).base + c) L)
  else if c < 52 then sparseGet 0 w.temps (regKey (c - 44) L)
  else if c < 60 then sparseGet 0 w.s (c - 52)
  else if c = 60 then 0
  else if c = 61 then BitVec.ofNat 32 (w.lid L)
  else if c = 62 then BitVec.ofNat 32 w.wid
  else BitVec.ofNat 32 (w.wid * (w.wgWarps * w.width) + w.lid L)

/-- The warp with values written to register code c, lane by lane in increasing order; a scalar takes the value of the
lowest lane (R25, R26). -/
def Warp.write (w : Warp) (c : Nat) (vals : List (Nat × BitVec 32)) : Warp :=
  if c < 44 then
    { w with regs := sparseSetAll 0 w.regs (vals.map fun e => (regKey ((w.slice (e.1 / 4)).base + c) e.1, e.2)) }
  else if c < 52 then { w with temps := sparseSetAll 0 w.temps (vals.map fun e => (regKey (c - 44) e.1, e.2)) }
  else if c < 60 then
    match vals with
    | [] => w
    | e :: _ => { w with s := sparseSet 0 w.s (c - 52) e.2 }
  else w

/-- The lanes in which the word executes; a scalar agent has the one lane 0 (R32, R93). -/
def Exe.lanes : Exe → List Nat
  | .simt w sl => w.execLanes sl
  | .scal x => if guardHolds x.mode x.p 0 then [0] else []

/-- The value of a register code in a lane. -/
def Exe.rd : Exe → Nat → Nat → BitVec 32
  | .simt w _, c, L => w.read c L
  | .scal x, c, _ => if c < 32 then sparseGet 0 x.s c else 0

/-- Values written to a register code, in increasing lane order. -/
def Exe.wr : Exe → Nat → List (Nat × BitVec 32) → Exe
  | .simt w sl, c, vals => .simt (w.write c vals) sl
  | .scal x, c, vals =>
    match vals with
    | [] => .scal x
    | e :: _ => .scal (if c < 32 then { x with s := sparseSet 0 x.s c e.2 } else x)

/-- The mode that governs lane L (R32, R93). -/
def Exe.modeAt : Exe → Nat → BitVec 32
  | .simt w _, L => (w.slice (L / 4)).mode
  | .scal x, _ => x.mode

/-- Predicates and scalars by number. -/
def Exe.preds : Exe → Sparse (BitVec 64)
  | .simt w _ => w.p
  | .scal x => x.p
def Exe.setPreds : Exe → Sparse (BitVec 64) → Exe
  | .simt w sl, p => .simt { w with p := p } sl
  | .scal x, p => .scal { x with p := p }
def Exe.scalars : Exe → Sparse (BitVec 32)
  | .simt w _ => w.s
  | .scal x => x.s
def Exe.setScalars : Exe → Sparse (BitVec 32) → Exe
  | .simt w sl, t => .simt { w with s := t } sl
  | .scal x, t => .scal { x with s := t }

def Exe.srd (x : Exe) (n : Nat) : BitVec 32 := sparseGet 0 x.scalars n
def Exe.swr (x : Exe) (n : Nat) (v : BitVec 32) : Exe := x.setScalars (sparseSet 0 x.scalars n v)
def Exe.pr (x : Exe) (n L : Nat) : Bool := predBit x.preds n L
def Exe.wrPr (x : Exe) (n : Nat) (vals : List (Nat × Bool)) : Exe := x.setPreds (setPred x.preds n vals)

/-- A 64-bit pair: the named code holds the low word; z reads zero (R110). -/
def Exe.rd64 (x : Exe) (c L : Nat) : BitVec 64 := if c = 60 then 0 else pair64 (x.rd c L) (x.rd (c + 1) L)
def Exe.wr64 (x : Exe) (c : Nat) (vals : List (Nat × BitVec 64)) : Exe :=
  if c = 60 then x
  else (x.wr c (vals.map fun e => (e.1, lo32 e.2))).wr (c + 1) (vals.map fun e => (e.1, hi32 e.2))

/-- The value of a group of 2^wd registers as a number, lowest register lowest (R166). -/
def Exe.rdGroup (x : Exe) (wd c L : Nat) : Nat :=
  if c = 60 then 0
  else ((List.range (2 ^ wd)).map fun k => (x.rd (c + k) L).toNat * 2 ^ (32 * k)).sum

/-- A group of 2^wd registers written from a number per lane (R166). -/
def Exe.wrGroup (x : Exe) (wd c : Nat) (vals : List (Nat × Nat)) : Exe :=
  if c = 60 then x
  else (List.range (2 ^ wd)).foldl
    (fun y k => y.wr (c + k) (vals.map fun e => (e.1, BitVec.ofNat 32 (e.2 / 2 ^ (32 * k))))) x

/-- Every executing lane of register d takes the value f gives it; all sources are read first (R12, R91). -/
def Exe.lanewise (x : Exe) (d : Nat) (f : Nat → BitVec 32) : Exe := x.wr d (x.lanes.map fun L => (L, f L))

/-- The value a word-level operand has: that of the lowest executing lane. -/
def Exe.lowest (x : Exe) (c : Nat) : Option (BitVec 32) := x.lanes.head?.map fun L => x.rd c L

/-- The profile of the agent (R25, R27). -/
def Exe.profile : Exe → Profile
  | .simt w _ => .simt w.width
  | .scal _ => .collie

end Sys2Proof.Machine
end

