-- ==== Sys2Proof/Machine/Taint.lean ====
section
/-!
DEFINITION. Dependencies (R195, R196): by which registers the value of a read reaches a later word. Each slice keeps, for every
register that its reads have reached, the moment of the latest of these reads. DESIGN CHOICE (log entry 29).
-/
namespace Sys2Proof.Machine

/-! ### Registers as keys -/

/-- The register a code names in slice j of a warp (R34). -/
def Warp.nameOf (w : Warp) (j c : Nat) : Option RegName :=
  if c < 44 then some (.lane ((w.slice j).base + c))
  else if c < 52 then some (.temp (c - 44))
  else if c < 60 then some (.scalar (c - 52))
  else none

/-- The registers that codes name in the slices of a gang. -/
def Warp.namesOf (w : Warp) (sl codes : List Nat) : List RegName :=
  sl.flatMap fun j => codes.filterMap (w.nameOf j)

/-- A key of the tables of taints: a kind, the number of the register, and the slice that holds it; 16 stands for the warp. -/
def taintKey (kind n holder : Nat) : Nat := 17 * (8 * n + kind) + holder
def scalarKey (n : Nat) : Nat := taintKey 2 n 16
def predKey (n j : Nat) : Nat := taintKey 3 n j
def capKey (n : Nat) : Nat := taintKey 4 n 16
def skeinKey (n : Nat) : Nat := taintKey 5 n 16
/-- The part of a load-queue entry that holds a slice's lanes. -/
def entryKey (id j : Nat) : Nat := taintKey 6 id j

/-- The key of a register in slice j; z holds no value. -/
def RegName.key (j : Nat) : RegName → Option Nat
  | .lane i => some (taintKey 0 i j)
  | .temp n => some (taintKey 1 n j)
  | .scalar n => some (scalarKey n)
  | .z => none

/-- The key of the place where a word of a loaded value goes. -/
def Dest.key : Dest → Nat
  | .lane k => taintKey 0 (k / 64) (k % 64 / 4)
  | .temp k => taintKey 1 (k / 64) (k % 64 / 4)
  | .scalar n => scalarKey n

/-! ### What flows through a word -/

/-- The registers besides the named codes that a word reads, in the slices of a gang: predicates, scalars, capabilities, skeins. -/
def alsoReads (sl : List Nat) (i : Instr) : List Nat :=
  let preds (n : Nat) : List Nat := sl.map (predKey n)
  let space (sp : Nat) : List Nat := if sp < 16 then [capKey sp] else []
  match i with
  | .sel _ _ _ c => preds c.toNat
  | .pand _ a b => preds a.toNat ++ preds b.toNat
  | .por _ a b => preds a.toNat ++ preds b.toNat
  | .pxor _ a b => preds a.toNat ++ preds b.toNat
  | .pandn _ a b => preds a.toNat ++ preds b.toNat
  | .vote _ a _ _ => preds a.toNat
  | .smovSs _ y => [scalarKey y.toNat]
  | .smovRs _ y => [scalarKey y.toNat]
  | .sop _ _ a b => [scalarKey a.toNat, scalarKey b.toNat]
  | .waitmon lvl c _ _ _ => if lvl = 0 then [capKey c.toNat] else []
  | .glq _ _ c _ _ => [capKey c.toNat]
  | .gsq _ c _ _ _ => [capKey c.toNat]
  | .atom _ _ _ sp _ _ => space sp.toNat
  | .atomSc _ _ _ _ c _ _ => [capKey c.toNat]
  | .bind c o _ _ => [capKey c.toNat, capKey o.toNat]
  | .acq _ o _ _ => [capKey o.toNat]
  | .rel o _ _ => [capKey o.toNat]
  | .cmov _ a => [capKey a.toNat]
  | .csetb _ a _ _ => [capKey a.toNat]
  | .candp _ a _ => [capKey a.toNat]
  | .cseal _ a k => [capKey a.toNat, capKey k.toNat]
  | .cunseal _ a k => [capKey a.toNat, capKey k.toNat]
  | .cget _ a _ => [capKey a.toNat]
  | .cldc _ c _ => [capKey c.toNat]
  | .cstc d c _ => [capKey d.toNat, capKey c.toNat]
  | .kpack k _ _ _ acc _ => if acc = 1 then [skeinKey k.toNat] else []
  | .kext _ k pr _ _ _ => skeinKey k.toNat :: (if pr = 1 then [skeinKey (k.toNat + 1)] else [])
  | .kmul _ a b => [skeinKey a.toNat, skeinKey b.toNat]
  | .kmac d a b => [skeinKey d.toNat, skeinKey (d.toNat + 1), skeinKey a.toNat, skeinKey b.toNat]
  | .kadd _ a b _ _ => [skeinKey a.toNat, skeinKey (a.toNat + 1), skeinKey b.toNat, skeinKey (b.toNat + 1)]
  | .ksub _ a b _ _ => [skeinKey a.toNat, skeinKey (a.toNat + 1), skeinKey b.toNat, skeinKey (b.toNat + 1)]
  | .kshl _ a _ _ _ => [skeinKey a.toNat, skeinKey (a.toNat + 1)]
  | .kshr _ a _ _ _ => [skeinKey a.toNat, skeinKey (a.toNat + 1)]
  | .kmov _ a _ zero => if zero = 1 then [] else [skeinKey a.toNat, skeinKey (a.toNat + 1)]
  | .kld _ _ sp _ => space sp.toNat
  | .kst _ _ sp _ => space sp.toNat
  | .launch _ sp _ => space sp.toNat
  | .launchNb _ sp _ => space sp.toNat
  | .dcmp _ _ _ _ => []
  | _ => []

/-- The registers of the whole warp that a word writes besides the named codes. -/
def alsoWrites (i : Instr) : List Nat :=
  let pair (d : Nat) (pr : BitVec 1) : List Nat := skeinKey d :: (if pr = 1 then [skeinKey (d + 1)] else [])
  match i with
  | .smovSs x _ => [scalarKey x.toNat]
  | .smovSr x _ => [scalarKey x.toNat]
  | .sop _ d _ _ => [scalarKey d.toNat]
  | .cmov d _ => [capKey d.toNat]
  | .csetb d _ _ _ => [capKey d.toNat]
  | .candp d _ _ => [capKey d.toNat]
  | .cseal d _ _ => [capKey d.toNat]
  | .cunseal d _ _ => [capKey d.toNat]
  | .cldc d _ _ => [capKey d.toNat]
  | .kpack k _ _ _ _ _ => [skeinKey k.toNat]
  | .kmul d _ _ => [skeinKey d.toNat, skeinKey (d.toNat + 1)]
  | .kmac d _ _ => [skeinKey d.toNat, skeinKey (d.toNat + 1)]
  | .kadd d _ _ pr _ => pair d.toNat pr
  | .ksub d _ _ pr _ => pair d.toNat pr
  | .kshl d _ pr _ _ => pair d.toNat pr
  | .kshr d _ pr _ _ => pair d.toNat pr
  | .kmov d _ pr _ => pair d.toNat pr
  | .kld k pr _ _ => pair k.toNat pr
  | _ => []

/-- The predicate that a word writes lane by lane. -/
def predWritten (i : Instr) : Option Nat :=
  match i with
  | .icmp d _ _ _ => some d.toNat
  | .fcmp d _ _ _ => some d.toNat
  | .dcmp d _ _ _ => some d.toNat
  | .pand d _ _ => some d.toNat
  | .por d _ _ => some d.toNat
  | .pxor d _ _ => some d.toNat
  | .pandn d _ _ => some d.toNat
  | .vote d _ _ fn => if fn.toNat = 2 then none else some d.toNat
  | .mbx _ x => some x.toNat
  | _ => none

/-- The codes that an access's address is formed from (R195): all that a load reads, the offset of an atomic. -/
def addrCodes (pr : Profile) (i : Instr) : List Nat :=
  match i with
  | .atom _ _ _ _ a _ => [a.toNat]
  | .atomSc _ _ _ _ _ a _ => [a.toNat]
  | .waitmon _ _ a _ _ => [a.toNat]
  | _ => srcCodes pr i

/-- The words through which a handler reads what its caller has left behind: values of any register (R227 to R229). -/
def readsFrames (i : Instr) : Bool :=
  match i with
  | .emuget _ _ => true
  | .emurd _ _ _ _ => true
  | .emuwr _ _ _ _ => true
  | .emuret _ _ _ => true
  | _ => false

/-- What flows through a word: the keys it reads, those it writes, each with whether its whole value is replaced, and whether it
may carry on any value that the slice has read. -/
structure Flow where
  srcs : List Nat
  dsts : List (Nat × Bool)
  frames : Bool
deriving DecidableEq, Repr

/-- The predicate that guards the lanes of a slice (R32). -/
def guardKey (m : BitVec 32) (j : Nat) : List Nat := if modeGen m then [predKey (modeGidx m) j] else []

/-- A word that reads memory at issue, and so gives its register a dependency of its own. -/
def readsNow (i : Instr) : Bool :=
  match i with
  | .acq _ _ _ _ => true
  | _ => false

/-- The flow of a gang's word. A register takes a wholly new value in a slice where all four lanes execute, and one of the warp
where any lane does; a value written under a guard depends on its predicate. -/
def Warp.flow (w : Warp) (sl : List Nat) (i : Instr) : Flow :=
  let pr := Profile.simt w.width
  let lanes := w.execLanes sl
  let keys (l : List Nat) (j : Nat) : List Nat := l.filterMap fun c => (w.nameOf j c).bind fun n => n.key j
  let whole (j : Nat) : Bool := (lanesOf j).all lanes.contains
  let popped : List Nat := match i with
    | .popq q _ _ =>
      (match (if q = 0 then w.q0 else w.q1) with
      | e :: _ => sl.map (entryKey e.id)
      | [] => [])
    | _ => []
  { srcs := (sl.flatMap fun j => keys (srcCodes pr i) j ++ guardKey (w.slice j).mode j) ++ alsoReads sl i ++ popped
    dsts := (sl.flatMap fun j => (keys (dstCodes pr i) j ++ ((predWritten i).map fun n => predKey n j).toList).map fun k =>
        (k, !readsNow i && if k % 17 = 16 then !lanes.isEmpty else whole j)) ++
      (alsoWrites i).map fun k => (k, !lanes.isEmpty)
    frames := readsFrames i }

/-- The flow of a scalar agent's word. -/
def Scalar.flow (x : Scalar) (i : Instr) : Flow :=
  let keys (l : List Nat) : List Nat := (l.filter fun c => decide (c < 32)).map scalarKey
  let runs := guardHolds x.mode x.p 0
  { srcs := keys (srcCodes .collie i) ++ guardKey x.mode 0 ++ alsoReads [0] i
    dsts := (keys (dstCodes .collie i) ++ ((predWritten i).map fun n => predKey n 0).toList ++ alsoWrites i).map fun k => (k, runs)
    frames := readsFrames i }

/-! ### Views -/

/-- A floor of a scope, or another entry of a table of moments, raised. -/
def raiseFloor (f : Sparse Nat) (scope m : Nat) : Sparse Nat := sparseSet 0 f scope (max m (sparseGet 0 f scope))

/-- A table raised to the entries of another. -/
def raiseAll (f l : Sparse Nat) : Sparse Nat := l.foldl (fun t e => raiseFloor t e.1 e.2) f

/-- The latest of the moments that a table holds at some keys. -/
def latestOf (t : Sparse Nat) (keys : List Nat) : Nat := keys.foldl (fun m k => max m (sparseGet 0 t k)) 0

/-- The moment of the reads that some registers depend on. -/
def View.taintOf (v : View) (keys : List Nat) : Nat := latestOf v.taint keys

/-- Registers come to depend on reads up to a moment. -/
def View.stain (v : View) (keys : List Nat) (m : Nat) : View :=
  { v with taint := keys.foldl (fun t k => raiseFloor t k m) v.taint }

/-- The moment of the slice's reads that a word's results depend on. -/
def Flow.moment (f : Flow) (v : View) : Nat := max (v.taintOf f.srcs) (if f.frames then v.high else 0)

/-- Before a word has its effect, what it writes comes to depend on what it reads as well. -/
def Flow.before (f : Flow) (v : View) : View := v.stain (f.dsts.map (·.1)) (f.moment v)

/-- Once a word has had its effect, what it has replaced depends on what it read alone. -/
def Flow.after (f : Flow) (v : View) : View :=
  let m := f.moment v
  { v with taint := f.dsts.foldl (fun t d => if d.2 then sparseSet 0 t d.1 m else raiseFloor t d.1 m) v.taint }

/-- Views of the listed slices of a warp changed. -/
def Warp.mapViews (w : Warp) (sl : List Nat) (f : View → View) : Warp :=
  { w with views := sl.foldl (fun t j => sparseSet {} t j (f (sparseGet {} t j))) w.views }

/-- The view of a slice. -/
def Warp.viewOf (w : Warp) (j : Nat) : View := sparseGet {} w.views j

/-- Every view that a warp holds, changed. -/
def Warp.mapHeldViews (w : Warp) (f : View → View) : Warp := w.mapViews (w.views.map (·.1)) f

end Sys2Proof.Machine
end

