-- ==== Sys2Proof/Machine/Base.lean ====
section
/-!
DEFINITION. The named operations over memory and agents that every file above shares: bytes of memory with their tags,
monitors and noise; looking up and replacing agents; runs and their promises; taking a trap; the seat of a gang.
-/
namespace Sys2Proof.Machine

/-! ### Memory -/

/-- Keys of the byte table: physical memory at its address, then core scratchpads, die scratchpads, scale memories, the
controller's SRAM and host memory, each at a base above it. DEDUCED (log entry 14). -/
def padKey (core off : Nat) : Nat := 2 ^ 52 + core * 2 ^ 20 + off
def dieKey (die off : Nat) : Nat := 2 ^ 53 + die * 2 ^ 26 + off
def scaleKey (core off : Nat) : Nat := 2 ^ 54 + core * 2 ^ 17 + off
def sramKey (off : Nat) : Nat := 2 ^ 55 + off
def hostKey (a : Nat) : Nat := 2 ^ 64 + a

/-- What a byte that nothing has written reads as: zero (a design choice of the model's assumption log). DESIGN CHOICE (log entry 4). -/
abbrev unlisted : BitVec 8 := 0

/-- The owner tag under which memory without one is reached, and the host-shared tag (R345). -/
abbrev hostShared : Nat := 20

/-- The canonical form of the memories: of the byte table, of the tags and of the owners of lines. -/
def Memory.wf (m : Memory) : Bool := sparseWf unlisted m.cells && sparseWf false m.tags && sparseWf 0 m.writers

/-- 1 + the tag under which the line of key k was last written or scrubbed (R346, R350); 0 where nothing has written it. -/
def Memory.writer (m : Memory) (k : Nat) : Nat :=
  let w := sparseGet 0 m.writers (k / 64)
  if w ≠ 0 then w else ((m.scrubbed.find? fun r => decide (r.1 ≤ k ∧ k < r.2.1)).map (·.2.2)).getD 0

/-- The line of key k was last written under another owner tag than o (R346). -/
def Memory.foreign (m : Memory) (o k : Nat) : Bool := m.writer k != 0 && m.writer k != o + 1

/-- Which noise key k shows to owner o: that of the tag's key, or that of its scale memory since the last reset (R346, R384). -/
def Memory.noiseKey (m : Memory) (o k : Nat) : Nat := 32 * sparseGet 0 m.epochs (if k < 2 ^ 52 then o else k / 2 ^ 17) + o

/-- The noise of some keys is drawn anew. -/
def bumpEpochs (t : Sparse Nat) (l : List Nat) : Sparse Nat := sparseSetAll 0 t (l.map fun i => (i, sparseGet 0 t i + 1))

/-- Key k reads as noise to owner o (R346, R348, R350). DEDUCED (log entry 13). -/
def Memory.noisy (m : Memory) (o k : Nat) : Bool :=
  m.foreign o k || m.noise.any fun r => decide (r.lo ≤ k ∧ k < r.hi)

/-- The byte at a key as owner o reads it. -/
def Memory.byte (m : Memory) (o k : Nat) : BitVec 8 :=
  if m.noisy o k then Config.noiseByte (m.noiseKey o k) k else sparseGet unlisted m.cells k

/-- The n bytes from key k upward. -/
def Memory.bytes (m : Memory) (o k n : Nat) : List (BitVec 8) := (List.range n).map fun i => m.byte o (k + i)

/-- The n bytes from key k as a number (R5). -/
def Memory.read (m : Memory) (o k n : Nat) : Nat := natOf (m.bytes o k n)

/-- The tag of the unit of 16 bytes that holds key k (R169); noise has none (R348). -/
def Memory.tag (m : Memory) (o k : Nat) : Bool := sparseGet false m.tags (k / 16) && !m.noisy o k

/-- The multiples of u that n bytes at k touch, divided by u. -/
def unitsOf (u k n : Nat) : List Nat := List.range' (k / u) ((k + n - 1) / u + 1 - k / u)

/-- The noise after a write of n bytes at k: a written line is not scrubbed any more, and its other bytes keep their
noise (R350). -/
def quietNoise (k n : Nat) (l : List Noise) : List Noise :=
  let A := 64 * (k / 64)
  let B := 64 * ((k + n - 1) / 64 + 1)
  l.flatMap fun r =>
    ([⟨r.lo, min r.hi A, r.part, r.scrub⟩, ⟨max r.lo B, r.hi, r.part, r.scrub⟩,
      ⟨max r.lo A, min (min r.hi B) k, r.part, false⟩, ⟨max r.lo (k + n), min r.hi B, r.part, false⟩] : List Noise).filter
      fun x => decide (x.lo < x.hi)

/-- The memory before owner o writes n bytes at k: physical lines that another owner wrote last fill with noise and lose
their tags (R345, R346, R348), and carry o from now on. -/
def Memory.claim (m : Memory) (o k n : Nat) : Memory :=
  if 2 ^ 52 ≤ k then m
  else
    let ls := unitsOf 64 k n
    let bad := ls.filter fun l => m.foreign o (64 * l)
    { m with
      writers := sparseSetAll 0 m.writers (ls.map fun l => (l, o + 1))
      noise := (bad.map fun l => ⟨64 * l, 64 * l + 64, 0, false⟩) ++ m.noise
      tags := if bad.isEmpty then m.tags else sparseDrop (fun u => bad.contains (u / 4)) m.tags }

/-- The monitors of the lines from lo to hi are hit (R160). -/
def Memory.hitLines (m : Memory) (lo hi : Nat) : Memory :=
  { m with monitors := m.monitors.map fun t => if lo ≤ t.line ∧ t.line ≤ hi then { t with hit := true } else t }

/-- Ranges of bytes that meet. -/
def meets (x n y m : Nat) : Bool := decide (x < y + m) && decide (y < x + n)

/-- No read overlooks an earlier write to n bytes at k any more, nor what is written there now. -/
def Memory.settle (m : Memory) (k n : Nat) : Memory :=
  { m with past := m.past.filter fun e => !meets e.lo e.n k n, horizon := m.clock }

/-- Bytes written from key k upward by owner o, for every agent at once: the tags of the units are cleared (R169) and the
monitors of the lines are hit (R160). -/
def Memory.write (m : Memory) (o k : Nat) (bs : List (BitVec 8)) : Memory :=
  if bs.isEmpty then m
  else
    let c := (m.settle k bs.length).claim o k bs.length
    { c with
      cells := sparseSetAll unlisted c.cells (bs.mapIdx fun i b => (k + i, b))
      tags := sparseSetAll false c.tags ((unitsOf 16 k bs.length).map fun u => (u, false))
      noise := quietNoise k bs.length c.noise }.hitLines (k / 64) ((k + bs.length - 1) / 64)

/-- The n low bytes of v written at key k. -/
def Memory.writeNat (m : Memory) (o k n v : Nat) : Memory := m.write o k (bytesOf n v)

/-- The unit of a write that reads may overlook. -/
def Past.unit (e : Past) : Nat := e.lo / 16

/-- A write of n bytes at k, unit by unit, with what owner o reads in each unit before it. -/
def Memory.pasts (m : Memory) (p : Place) (moment o k n : Nat) (va : Option Nat) : List Past :=
  (unitsOf 16 k n).map fun u =>
    let lo := max k (16 * u)
    ⟨lo, min (k + n) (16 * u + 16) - lo, moment, o, m.read o (16 * u) 16, p, va.map fun v => v + (lo - k)⟩

/-- Bytes written by an agent at a place as part of the event that takes effect at a moment (R202): a unit that the event has
written already counts as written whole, and keeps what it held before the event. -/
def Memory.publishAt (m : Memory) (p : Place) (moment o k : Nat) (bs : List (BitVec 8)) (va : Option Nat := none) : Memory :=
  let same (d e : Past) : Bool := d.unit == e.unit && d.at_ == e.at_
  let new := m.pasts p moment o k bs.length va
  { m.write o k bs with
    horizon := m.horizon
    past := (new.filter fun e => !m.past.any fun d => same d e) ++
      m.past.map fun d => if new.any (same d) then { d with lo := 16 * d.unit, n := 16 } else d }

/-- Bytes written by an agent at a place: reads that no rule orders after the write may still overlook it (R189, R206).
DESIGN CHOICE (log entry 29). -/
def Memory.publish (m : Memory) (p : Place) (o k : Nat) (bs : List (BitVec 8)) (va : Option Nat := none) : Memory :=
  { m.publishAt p (m.clock + 1) o k bs va with clock := m.clock + 1 }

/-- The tag of the unit at key k set. -/
def Memory.setTag (m : Memory) (k : Nat) (t : Bool) : Memory := { m with tags := sparseSet false m.tags (k / 16) t }

/-- The table with the picked keys at zero and their tags clear. -/
def Memory.clear (m : Memory) (p : Nat → Bool) : Memory :=
  { m with cells := sparseDrop p m.cells, tags := sparseDrop (fun u => p (16 * u)) m.tags
           past := m.past.filter fun e => !p (16 * e.unit), horizon := m.clock }

/-! ### Small updates of the state -/

def State.tick (s : State) (n : Nat) : State :=
  { s with sched := { s.sched with now := s.sched.now + n, steps := s.sched.steps + 1 } }
def State.nextFree (s : State) : State := { s with sched := { s.sched with free := s.sched.free + 1 } }
def State.nextUid (s : State) : State := { s with sched := { s.sched with uid := s.sched.uid + 1 } }
def State.withMem (s : State) (m : Memory) : State := { s with mem := m }

/-- The warp in a slot of a core. -/
def State.findWarp (s : State) (core slot : Nat) : Option Warp :=
  s.warps.find? fun w => w.core == core && w.slot == slot
/-- The state with the warp in its slot replaced. -/
def State.putWarp (s : State) (w : Warp) : State :=
  { s with warps := s.warps.map fun v => if v.core = w.core ∧ v.slot = w.slot then w else v }
/-- A gang by its lowest slice. -/
def Warp.findGang (w : Warp) (lead : Nat) : Option Gang := w.gangs.find? fun g => g.slices.head? == some lead
/-- The warp with a gang replaced by its lowest slice. -/
def Warp.putGang (w : Warp) (lead : Nat) (g : Gang) : Warp :=
  { w with gangs := w.gangs.map fun h => if h.slices.head? = some lead then g else h }
def State.findWg (s : State) (uid : Nat) : Option Workgroup := s.wgs.find? fun g => g.uid == uid
def State.wg (s : State) (uid : Nat) : Workgroup := (s.findWg uid).getD default
def State.putWg (s : State) (g : Workgroup) : State :=
  { s with wgs := s.wgs.map fun h => if h.uid = g.uid then g else h }
def State.findCollie (s : State) (core thread : Nat) : Option Collie :=
  s.collies.find? fun c => c.core == core && c.thread == thread
def State.putCollie (s : State) (c : Collie) : State :=
  { s with collies := s.collies.map fun d => if d.core = c.core ∧ d.thread = c.thread then c else d }
def State.findCtx (s : State) (owner num : Nat) : Option Context :=
  s.ctxs.find? fun c => c.owner == owner && c.num == num
def State.ctx (s : State) (owner num : Nat) : Context := (s.findCtx owner num).getD default
def State.putCtx (s : State) (c : Context) : State :=
  { s with ctxs := s.ctxs.map fun d => if d.owner = c.owner ∧ d.num = c.num then c else d }
/-- The context of a workgroup. -/
def State.ctxOf (s : State) (uid : Nat) : Context := s.ctx (s.wg uid).part (s.wg uid).ctx

/-! ### Runs -/

/-- The run after one more word (R33 to R36): temps are the temporaries it made valid, win the look window it opened. -/
def Run.after (r : Run) (temps : Nat) (win : Option Window) : Run :=
  { words := r.words + 1
    temps := r.temps ||| temps
    windows := (r.windows.filter fun v => v.left != 0).map (fun v => { v with left := v.left - 1 }) ++ win.toList }

/-- The mask of temporaries among register codes. -/
def tempMask (codes : List Nat) : Nat := maskOf ((codes.filter fun c => decide (44 ≤ c ∧ c < 52)).map (· - 44))

/-- The promise a word breaks, by code, the lowest first (R38); cover is the coverage count a POPQ reads. DEDUCED (log entry 20). -/
def brokenPromise (pr : Profile) (i : Instr) (r : Run) (cover : Nat) : Option Nat :=
  let named := srcCodes pr i ++ dstCodes pr i
  if Config.runLimit ≤ r.words ∧ endsRun i = false then some 1
  else if pr.isSimt && (srcCodes pr i).any (fun c => decide (44 ≤ c ∧ c < 52) && !r.temps.testBit (c - 44)) then some 2
  else if r.windows.any (fun v => v.left != 0 && v.codes.any (fun c => c != 60 && named.contains c)) then some 3
  else if endsRun i && r.windows.any (fun v => v.left != 0) then some 4
  else
    match i with
    | .popq _ _ _ => if cover = 0 then some 5 else none
    | _ => none

/-- The registers that codes name on a scalar agent. -/
def scalarNames (codes : List Nat) : List RegName := (codes.filter fun c => decide (c < 32)).map .scalar

/-- TRL names the pending result (R40). -/
def trailerNames (i : Instr) (names : List Nat → List RegName) : List RegName :=
  match i with
  | .trl count x1 x2 x3 => names ([x1.toNat, x2.toNat, x3.toNat].take count.toNat)
  | .trlRange x1 x2 => names (List.range' x1.toNat (x2.toNat + 1 - x1.toNat))
  | _ => []

/-- The word waits for a pending result before it can issue (R34, R35). -/
def waitsFor (pr : Profile) (i : Instr) (r : Run) (sl : List Nat) (names : List Nat → List RegName)
    (pend : List Pending) : Bool :=
  let touched := names (srcCodes pr i ++ dstCodes pr i)
  let trailer := trailerNames i names
  pend.any fun p =>
    p.names.any touched.contains
    || (!endsRun i && r.windows.any fun v => v.left == 0 && v.pend == p.id)
    || (endsRun i && p.slices.any sl.contains && !p.names.any trailer.contains)

/-- The pending results after a trailer: the named ones are deferred (R35, R40); a trailer that names one register of a
group defers the whole result. DEDUCED (log entry 122). -/
def deferNamed (sl : List Nat) (trailer : List RegName) (pend : List Pending) : List Pending :=
  pend.map fun p => if p.slices.any sl.contains && p.names.any trailer.contains then { p with deferred := true } else p

/-! ### Traps -/

/-- What a trap's entry reports beyond the pc (R211). -/
structure Trap where
  cause : Nat
  detail : Nat := 0
  lane : Nat := 0xFF
  addr : Nat := 0
  arg0 : Nat := 0
  arg1 : Nat := 0
  ctxFault : Bool := false
  lead : Nat := 0
deriving DecidableEq, Repr

/-- The warp with every slice ended and nothing left to wait for (R209). -/
def Warp.kill (w : Warp) : Warp :=
  { w with
    slices := w.slices.map fun x => { x with live := false, lanemask := 0, stack := [], frames := [] }
    gangs := [], pend := [], claims := [], deposits := [], q0 := [], q1 := [] }

/-- The agents of a workgroup. -/
def State.agentsOf (s : State) (uid : Nat) (a : Agent) : Bool :=
  match a with
  | .gang c sl _ => s.warps.any fun w => w.core == c && w.slot == sl && w.wg == uid
  | .collie c t => s.collies.any fun d => d.core == c && d.thread == t && d.wg == uid
  | .mc => false

/-- The unstarted work of a task's child grids is discarded (R209). -/
def Dist.orphan (d : Dist) (uid : Nat) : Dist :=
  { d with
    grids := d.grids.map fun g => if g.parent = some uid then { g with unstarted := [] } else g
    dieReplies := d.dieReplies.map fun r =>
      if d.grids.any fun g => g.uid == r.grid && g.parent == some uid then { r with ceded := [] } else r
    queues := (d.queues.map fun e => (e.1, e.2.filter fun x => x.parent != some uid)).filter fun e => !e.2.isEmpty
    rings := d.rings.map fun r => { r with items := r.items.filter fun x => x.parent != some uid } }

/-- The warps of a workgroup, whether they stand on a core or are saved, changed by f. -/
def State.mapWarps (s : State) (uid : Nat) (f : Warp → Warp) : State :=
  { s with
    warps := s.warps.map fun w => if w.wg = uid then f w else w
    wgs := s.wgs.map fun g => if g.uid = uid then { g with savedW := g.savedW.map f } else g }

/-- A task that a warp forked has ended; the last one lets its gangs at JOINT go on (R309). -/
def Warp.forkEnds (w : Warp) : Warp :=
  { w with
    forks := w.forks - 1
    gangs := if w.forks ≤ 1 then w.gangs.map fun g => if g.park = .joint then { g with park := .none } else g else w.gangs }

/-- A forked task is over: its forker counts it, once (R309, R311). -/
def State.forkDone (s : State) (uid : Nat) : State :=
  match (s.wg uid).forker with
  | some (u, i) =>
    let t := s.mapWarps u fun w => if w.index = i then w.forkEnds else w
    t.putWg { t.wg uid with forker := none }
  | none => s

/-- A store that joins the open version of the task (R183, R202). -/
def AccessAct.joins (act : AccessAct) (g : Workgroup) : Bool :=
  match act with
  | .store _ _ v => v && g.versionOpen && !g.irr
  | _ => false

/-- An access that a trap of its task ends with it: a load, or a store of the version (R202, R209). -/
def AccessAct.dies (act : AccessAct) (g : Workgroup) : Bool :=
  match act with
  | .load _ => true
  | _ => act.joins g

/-- The task of a workgroup ends (R209): its warps end at their current words, its Collie thread stops, its version is
discarded with the stores on their way to it, its loads and monitors go, its children's unstarted work is discarded. -/
def State.endTask (s : State) (uid : Nat) : State :=
  { s with
    warps := s.warps.map fun w => if w.wg = uid then w.kill else w
    collies := s.collies.map fun c => if c.wg = uid then { c with stopped := true } else c
    wgs := s.wgs.map fun g =>
      if g.uid = uid then
        { g with ended := true, discarded := g.discarded || g.versionOpen, born := true, held := [], lines := [], versionOpen := false, savedW := [], savedC := none, savedG := [], savedP := [], savedT := [], savedOps := [] }
      else g
    dist := s.dist.orphan uid
    mem := { s.mem with
      monitors := s.mem.monitors.filter fun m => !s.agentsOf uid m.who
      access := s.mem.access.filter fun a => !(a.wg == uid && a.act.dies (s.wg uid)) } }

/-- Every task of a context ends and the context stops (R208). -/
def State.endContext (s : State) (owner num : Nat) : State :=
  let t := (s.wgs.filter fun g => g.part == owner && g.ctx == num).foldl (fun u g => u.endTask g.uid) s
  t.putCtx { t.ctx owner num with stopped := true }

/-- A grid counts a trap of its tasks (R305). -/
def Dist.countTrap (d : Dist) (grid : Nat) : Dist :=
  { d with grids := d.grids.map fun g => if g.uid = grid then { g with traps := min 65535 (g.traps + 1) } else g }

/-- Of two traps of one task raised in the same cycle, the new one comes first: by warp slot, then by lead slice (R210). -/
def Report.comesAfter (old new : Report) : Bool :=
  old.cycle == new.cycle && (decide (new.slot < old.slot) || (new.slot == old.slot && decide (new.lead < old.lead)))

/-- A trap of a workgroup's task (R208 to R211): the first is kept for the report, later ones are counted, one that
comes after the report has been written gets its own (R210); a context fault stops the context. DEDUCED (log entry 39). DEDUCED (log entry 40). -/
def State.addReport (s : State) (uid : Nat) (rep : Report) : State :=
  let g := s.wg uid
  let u := { s.nextUid with dist := s.dist.countTrap g.grid }
  let v := match g.reported, g.fault with
    | true, _ => { u with late := u.late ++ [rep] }
    | false, some r =>
      let kept := if r.comesAfter rep then { rep with discarded := r.discarded, ctxFault := r.ctxFault || rep.ctxFault } else r
      u.putWg { g with fault := some { kept with more := min 255 (r.more + 1) } }
    | false, none => u.putWg { g with fault := some rep }
  let w := v.endTask uid
  if rep.ctxFault then w.endContext g.part g.ctx else w

/-- A trap raised in a workgroup's task, with what its report says (R211): an irrevocable task's trap is a context fault (R209), and
the version counts as discarded where this trap, or what has ended the task before it, discards one (R208). -/
def State.raise (s : State) (uid core slot : Nat) (pc : BitVec 48) (outer : Option (BitVec 48)) (t : Trap) : State :=
  let g := s.wg uid
  s.addReport uid
    { id := s.sched.uid, cycle := s.sched.now, lead := t.lead, ctx := g.ctx, owner := g.part, taskid := g.taskid, lineage := g.lineage, cause := t.cause, pc := pc
      detail := t.detail, lane := t.lane, addr := t.addr, arg0 := t.arg0
      arg1 := (match outer with | some e => e.toNat | none => t.arg1)
      core := core, slot := slot, inHandler := outer.isSome, ctxFault := t.ctxFault || g.irr
      discarded := g.versionOpen || g.discarded, nonVersioned := g.nonVersioned }

/-- A code address under the forwarding records of a context (R358): one in an old range goes to the new range. -/
def Context.moved (c : Context) (pc : BitVec 48) : BitVec 48 :=
  match c.fwd.find? fun r => decide (r.1 ≤ pc.toNat ∧ pc.toNat < r.1 + 256 * r.2.2) with
  | some (old, new, _) => BitVec.ofNat 48 (new + (pc.toNat - old))
  | none => pc

/-- A target of BRX, CALLI, RET or EMURET in a range that was moved goes to the new range (R358). -/
def State.forward (s : State) (uid : Nat) (pc : BitVec 48) : BitVec 48 := (s.ctxOf uid).moved pc

/-! ### The seat of a gang -/

/-- A gang that issues, with its warp. -/
structure Seat where
  w : Warp
  g : Gang
deriving DecidableEq, Repr

def Seat.lead (q : Seat) : Nat := q.g.slices.headD 0
/-- The pc of the gang: its slices agree (R78). -/
def Seat.pc (q : Seat) : BitVec 48 := (q.w.slice q.lead).pc
def Seat.run (q : Seat) : Run := q.g.run.getD {}
def Seat.exe (q : Seat) : Exe := .simt q.w q.g.slices
def Seat.profile (q : Seat) : Profile := .simt q.w.width
/-- An emulation handler runs (R226). -/
def Seat.inHandler (q : Seat) : Bool := !(q.w.slice q.lead).frames.isEmpty
/-- The innermost frame of the gang's lowest slice. -/
def Seat.frame (q : Seat) : Option Frame := (q.w.slice q.lead).frames.head?
/-- The outermost epc, inside a handler (R211). -/
def Seat.outer (q : Seat) : Option (BitVec 48) := (q.w.slice q.lead).frames.getLast?.map (·.epc)

/-- The seat of the gang an agent names. -/
def State.seat (s : State) (core slot lead : Nat) : Option Seat :=
  match s.findWarp core slot with
  | none => none
  | some w =>
    match w.findGang lead with
    | none => none
    | some g => some ⟨w, g⟩

/-- The numbers rise, and all lie below n. -/
def risingBelow (n : Nat) : List Nat → Bool
  | [] => true
  | a :: t => decide (a < n) && t.all (fun b => decide (a < b)) && risingBelow n t

/-- The gang may issue: it holds a port inside a run, nothing parks or holds it (R33, R86), and its slices are slices of its
warp in increasing order (R78). -/
def Seat.ready (q : Seat) : Bool :=
  q.g.run.isSome && q.g.park == .none && q.g.hold == .none && !q.g.spill && risingBelow q.w.slices.length q.g.slices

/-- The state with the seat's warp and gang put back. -/
def State.putSeat (s : State) (q : Seat) : State := s.putWarp (q.w.putGang q.lead q.g)

/-- A trap raised by the word at the gang's pc. -/
def State.raiseAt (s : State) (q : Seat) (t : Trap) : State := 
  s.raise q.w.wg q.w.core q.w.slot q.pc q.outer { t with lead := q.lead }

/-- The gang's slices at the next word, the run one word longer (R33, R36), and what the word has replaced depends on what it
read alone (R195). -/
def Seat.advance (q : Seat) (i : Instr) (win : Option Window) : Seat :=
  { w := (q.w.mapHeldViews (q.w.flow q.g.slices i).after).mapSlices q.g.slices fun _ x => { x with pc := x.pc + 4 }
    g := { q.g with run := some (q.run.after (tempMask (dstCodes q.profile i)) win) } }

/-- PC + 4 would leave the code space (R147). -/
def pcWraps (pc : BitVec 48) : Bool := pc.toNat + 4 == 2 ^ 48

/-- Lanes of a temporary a word makes valid but does not write hold undefined values (R36): they become free values. DESIGN CHOICE (log entry 17). -/
def Seat.freshTemps (q : Seat) (n : Nat) (i : Instr) : Seat :=
  let idle := (q.g.slices.flatMap lanesOf).filter fun L => !(q.w.execLanes q.g.slices).contains L
  let ts := (dstCodes q.profile i).filter fun c => decide (44 ≤ c ∧ c < 52) && !q.run.temps.testBit (c - 44)
  let vals := ts.flatMap fun c => idle.map fun L => (regKey (c - 44) L, Config.freeWord n (regKey c L))
  { q with w := { q.w with temps := sparseSetAll 0 q.w.temps vals } }

/-! ### What a word waits for (R34, R35, R317) -/

/-- The width code of register j of a widths value (R68). -/
def widthCode (widths j : Nat) : Nat := field widths (2 * j) 2

/-- The registers of a block: first code and width code of each, and the code after the last (R317). -/
def blockCodes (f n widths : Nat) : List (Nat × Nat) × Nat :=
  (List.range n).foldl (fun acc j => (acc.1 ++ [(acc.2, widthCode widths j)], acc.2 + 2 ^ widthCode widths j)) ([], f)

/-- The lane registers of a block of n registers from code f, whose widths scalar is s[w] (R317). -/
def Seat.blockNames (q : Seat) (f n w : Nat) : List RegName :=
  let top := (blockCodes f n (sparseGet 0 q.w.s w).toNat).2
  q.w.namesOf q.g.slices ((List.range' f (top - f)).filter fun c => decide (c < 44))

/-- The register of the frame below that kind and idx name (R228): a lane register or a scalar. -/
def Seat.callerNames (q : Seat) (kind idx : Nat) : List RegName :=
  match kind with
  | 0 => q.g.slices.flatMap fun j => ((q.w.slice j).frames.head?.map fun f => RegName.lane (f.base + idx)).toList
  | 2 => [.scalar idx]
  | _ => []

/-- The destination of an emulated word, which EMURET writes (R229). -/
def Seat.resultNames (q : Seat) : List RegName :=
  q.g.slices.flatMap fun j =>
    match (q.w.slice j).frames with
    | f :: _ =>
      let d := field f.eword.toNat 18 6
      if d < 44 then [.lane (f.base + d)] else if 52 ≤ d ∧ d < 60 then [.scalar (d - 52)] else []
    | [] => []

/-- Registers that a word reads or writes without a field that names each of them: the return address of RET (R156), those of the
frame below (R228, R229) and the blocks of the estate words (R317, R318, R327). -/
def Seat.reaches (q : Seat) (i : Instr) : List RegName :=
  match i with
  | .ret _ => q.w.namesOf q.g.slices [42, 43]
  | .emurd _ kind idx _ => q.callerNames kind.toNat idx.toNat
  | .emuwr _ kind idx _ => q.callerNames kind.toNat idx.toNat
  | .emuret nc _ _ => if nc = 0 then q.resultNames else []
  | .bequeath f n w _ => q.blockNames f.toNat (n.toNat + 1) w.toNat
  | .eclaim f n w _ _ _ => q.blockNames f.toNat (n.toNat + 1) w.toNat
  | _ => []

/-- Slice j goes on after an EXIT: some active lane does not execute, or its divergence stack holds others (R162). -/
def Warp.outlives (w : Warp) (j : Nat) : Bool :=
  (w.active j).any (fun L => !guardHolds (w.slice j).mode w.p L) || !(w.slice j).stack.isEmpty

/-- The pending results a word may have to wait for: EXIT discards those of the slices it ends (R162). -/
def Warp.pendingFor (w : Warp) (sl : List Nat) (i : Instr) : List Pending :=
  match i with
  | .exit => w.pend.filter fun p => p.slices.any fun j => !sl.contains j || w.outlives j
  | _ => w.pend

/-- A Collie thread takes no word under cooperative pre-emption: once its copies have completed it stands still at its word
boundary, and until then it starts no copy (R218). DEDUCED (log entry 69). -/
def State.collieStops (s : State) (c : Collie) (i : Instr) : Bool :=
  (s.ctxOf c.wg).preempting.isSome &&
  match i with
  | .cpy _ => true
  | .cpySc _ => true
  | .cpyX _ => true
  | .cpyR _ => true
  | _ => s.copies.all fun d => d.wg != c.wg

/-- The lowest lane whose deposit the gang holds (R334); 0xFF where there is none. DEDUCED (log entry 65). -/
def Seat.heldLane (q : Seat) : Nat :=
  ((q.w.deposits.filter fun d => q.g.slices.contains (d.lane / 4)).map (·.lane)).foldl min 0xFF

/-- The registers that a word names or reaches in the gang's slices. -/
def Seat.touches (q : Seat) (i : Instr) : List RegName :=
  q.w.namesOf q.g.slices (srcCodes q.profile i ++ dstCodes q.profile i) ++ q.reaches i

/-- A word of the gang waits for a pending result before it can issue (R34, R35). -/
def Seat.waits (q : Seat) (i : Instr) : Bool :=
  let pend := q.w.pendingFor q.g.slices i
  waitsFor q.profile i q.run q.g.slices (q.w.namesOf q.g.slices) pend ||
    pend.any fun p => p.names.any (q.reaches i).contains

/-- The scalar agent at its next word. -/
def Scalar.advance (x : Scalar) (win : Option Window) : Scalar :=
  { x with pc := x.pc + 4, run := x.run.after 0 win }

/-- The Collie thread at the next word, and what the word has replaced depends on what it read alone (R195). -/
def Collie.advance (c : Collie) (i : Instr) (win : Option Window) : Collie :=
  { c with view := (c.x.flow i).after c.view, x := c.x.advance win }

/-- A KLD has not yet written one of the given skeins of the warp, or its partner of an even pair (R257). -/
def State.skeinBusy (s : State) (w : Warp) (ks : List Nat) : Bool :=
  s.mem.access.any fun a =>
    match a.who, a.act with
    | .gang c sl _, .load (.skein k b _) => c == w.core && sl == w.slot && (ks.map (· / 2)).contains ((k + b / 64) / 2)
    | _, _ => false

end Sys2Proof.Machine
end

