-- ==== Sys2Proof/Machine/Views.lean ====
section
/-!
DEFINITION. Which earlier value a read may return (R189 to R206): the writes that it may overlook, the moment at which it takes
effect, and how fences, carriers and dependencies bound it. DESIGN CHOICE (log entry 29).
-/
namespace Sys2Proof.Machine

/-! ### Scopes (R178, R198) -/

/-- The agent at place e belongs to the instance of a scope around the agent at place p. -/
def Place.covers (p : Place) (scope : Nat) (e : Place) : Bool :=
  match scope with
  | 0 => p == e
  | 1 => p.core == e.core && p.slot == e.slot && p.wg == e.wg
  | 2 => p.wg == e.wg
  | 3 => p.core / 4 == e.core / 4
  | 4 => p.core / Config.coresPerDie == e.core / Config.coresPerDie
  | _ => true

/-- The places of the agents without a warp slot: a Collie thread, the copy unit and the tile fetch unit of a core, and the
engines without a core (R191). -/
def colliePlace (core thread wg : Nat) : Place := ⟨core, 100 + thread, wg, 0⟩
def copyPlace (core wg : Nat) : Place := ⟨core, 99, wg, 0⟩
def tilePlace (core wg : Nat) : Place := ⟨core, 98, wg, 0⟩
def enginePlace : Place := ⟨0xFFFF, 97, 0, 0⟩

/-- Where an access comes from: a unit of a copy or of a tile store from its engine. -/
def Access.place (a : Access) : Place :=
  match a.who with
  | .gang c sl j => if a.note.isSome then tilePlace c a.wg else ⟨c, sl, a.wg, j⟩
  | .collie c t => if a.note.isSome then copyPlace c a.wg else colliePlace c t a.wg
  | .mc => enginePlace

/-! ### Reads -/

/-- A read at place p, of owner o, may overlook a write: the owner is the same, the write is not the reader's own (R204), it is
later than the moment the read may not precede, and no fence or carrier of a scope that covers the writer comes after it
(R197, R198, R200). -/
def Past.free (e : Past) (p : Place) (o floor : Nat) (floors : Sparse Nat) : Bool :=
  e.owner == o && e.writer != p && decide (floor < e.at_) &&
    floors.all fun f => !p.covers f.1 e.writer || decide (f.2 < e.at_)

/-- The writes to n bytes at k that can still be overlooked at all, the latest first. -/
def Memory.recent (m : Memory) (k n : Nat) : List Past := m.past.filter fun e => meets e.lo e.n k n

/-- Those that a read may overlook: it overlooks a write only with every later one to its bytes (R193). -/
def Memory.older (m : Memory) (p : Place) (o floor : Nat) (floors : Sparse Nat) (k n : Nat) : List Past :=
  if m.noisy o k then [] else (m.recent k n).takeWhile fun e => e.free p o floor floors

/-- The moment of the latest of some writes; where none is remembered, no later than the horizon. -/
def Memory.momentOf (m : Memory) (l : List Past) : Nat := (l.head?.map (·.at_)).getD m.horizon

/-- The moment of the latest write to n bytes at k. -/
def Memory.lastAt (m : Memory) (k n : Nat) : Nat := m.momentOf (m.recent k n)

/-- A read of n bytes at key k, within one unit of 16 bytes, that overlooks the latest i writes of those it may: the bytes, and
the earliest moment at which it can take effect (R206). -/
def Memory.glance (m : Memory) (i : Nat) (p : Place) (o floor : Nat) (floors : Sparse Nat) (k n : Nat) : List (BitVec 8) × Nat :=
  let l := m.older p o floor floors k n
  let j := i % (l.length + 1)
  let moment := m.momentOf ((m.recent k n).drop j)
  match (l.take j).getLast? with
  | none => (m.bytes o k n, max floor moment)
  | some e => (((bytesOf 16 e.old).drop (k % 16)).take n, max floor (min moment (e.at_ - 1)))

/-- A read of n bytes at key k, each part of it within one unit as a read of its own (R194); what follows it follows all. -/
def Memory.glances (m : Memory) (i : Nat → Nat) (p : Place) (o floor : Nat) (floors : Sparse Nat) (k n : Nat) : List (BitVec 8) × Nat :=
  (unitsOf 16 k n).foldl (fun acc u =>
    let lo := max k (16 * u)
    let r := m.glance (i u) p o floor floors lo (min (k + n) (16 * u + 16) - lo)
    (acc.1 ++ r.1, max acc.2 r.2)) ([], floor)

/-- What the copy unit or the tile fetch unit reads: n bytes at key k, unit by unit (R190). -/
def State.fetchUnits (s : State) (p : Place) (floors : Sparse Nat) (o k n : Nat) : List (BitVec 8) :=
  (s.mem.glances (Config.overlooked (2 * s.sched.free + 1)) p o 0 floors k n).1

/-! ### Views -/

/-- The latest moment that a fence or a carrier of any scope binds a read to. -/
def View.bound (v : View) : Nat := v.floors.foldl (fun m f => max m f.2) 0

/-- The moment of the agent's last read of any of n bytes at k. -/
def View.seenAt (v : View) (k n : Nat) : Nat := latestOf v.seen (unitsOf 4 k n)

/-- A read of n bytes at k has taken effect at a moment, and registers hold its value: what depends on it follows what the read
itself follows. -/
def View.noteRead (v : View) (k n m : Nat) (keys : List Nat) : View :=
  let r := max m v.bound
  { v.stain keys r with
    high := max v.high r
    seen := (unitsOf 4 k n).foldl (fun t u => raiseFloor t u m) v.seen }

/-- A write of the agent has been performed. -/
def View.noteWrite (v : View) (m : Nat) : View := { v with high := max v.high (max m v.bound) }

/-- A fence or a carrier of a scope: later reads follow a moment (R197, R200). -/
def View.follow (v : View) (scope m : Nat) : View := { v with floors := raiseFloor v.floors scope m }

/-- Everything later, on every path, follows a moment: a launch, a retirement, a commit (R200, R202). -/
def View.start (v : View) (m : Nat) : View :=
  { v.follow 5 m with tf := raiseFloor v.tf 5 m, cp := raiseFloor v.cp 5 m, paths := raiseFloor v.paths 0 m }

/-- A gang has passed a barrier: it follows, at scope wg, the events and the copies' writes that the phase puts before it (R200). -/
def View.passed (v : View) (high cp : Nat) : View :=
  { v.follow 2 (max high cp) with paths := raiseFloor (raiseFloor v.paths 0 high) 1 cp }

/-- The view of the agent that issued an access. -/
def State.viewOf (s : State) (who : Agent) : View :=
  match who with
  | .gang c sl j => ((s.findWarp c sl).map fun (w : Warp) => w.viewOf j).getD {}
  | .collie c t => ((s.findCollie c t).map fun (x : Collie) => x.view).getD {}
  | .mc => {}

/-- The view of an agent changed. -/
def State.mapView (s : State) (who : Agent) (f : View → View) : State :=
  match who with
  | .gang c sl j =>
    (match s.findWarp c sl with
    | some w => s.putWarp (w.mapViews [j] f)
    | none => s)
  | .collie c t =>
    (match s.findCollie c t with
    | some x => s.putCollie { x with view := f x.view }
    | none => s)
  | .mc => s

/-- The slices of a warp, each with a view. -/
def Warp.mapAllViews (w : Warp) (f : View → View) : Warp := w.mapViews (List.range w.slices.length) f

/-- The views of a workgroup's agents changed, those of its saved warps too. -/
def State.mapViews (s : State) (uid : Nat) (f : View → View) : State :=
  let t := s.mapWarps uid fun w => w.mapAllViews f
  { t with collies := t.collies.map fun (c : Collie) => if c.wg = uid then { c with view := f c.view } else c }

/-- Every event of a workgroup from here on, on every path, follows what has been performed (R200, R202). -/
def State.startViews (s : State) (uid : Nat) : State := s.mapViews uid fun v => v.start s.mem.clock

/-- The keys of the registers that a returned value reaches. -/
def State.retKeys (s : State) (who : Agent) (ret : LoadRet) : List Nat :=
  match ret with
  | .queue _ e L => [entryKey e (L / 4)]
  | .pend id L =>
    let l : List Pending := match who with
      | .gang c sl _ => ((s.findWarp c sl).map fun (w : Warp) => w.pend).getD []
      | .collie c t => ((s.findCollie c t).map fun (x : Collie) => x.x.pend).getD []
      | .mc => []
    (l.filter fun p => p.id == id).flatMap fun p => ((p.lanes.filter fun e => e.1 == L).flatMap (·.2)).map Dest.key
  | .cap d => [capKey d]
  | .skein k b n => [skeinKey (k + b / 64), skeinKey (k + (b + n - 1) / 64)]

/-! ### Dependencies (R195, R196) -/

/-- What flows through a gang's word: a handler's word that writes registers of the frame below passes its own dependencies to
those as well (R228, R229). -/
def Seat.flow (q : Seat) (i : Instr) : Flow :=
  let f := q.w.flow q.g.slices i
  if f.frames then
    { f with dsts := f.dsts ++ (q.reaches i).flatMap fun n => q.g.slices.filterMap fun j => (n.key j).map fun k => (k, false) }
  else f

/-- The moment of slice j's reads that the address of its access depends on (R196). -/
def Warp.addrMoment (w : Warp) (i : Instr) (j : Nat) : Nat :=
  let codes := (addrCodes (.simt w.width) i).filterMap fun c => (w.nameOf j c).bind fun n => n.key j
  (w.viewOf j).taintOf (codes ++ alsoReads [j] i)

/-- The state in which an agent's word runs has passed its dependencies on. -/
def State.passDeps (s : State) (a : Agent) (i : Instr) : State :=
  match a with
  | .gang core slot lead =>
    (match s.seat core slot lead with
    | some q =>
      { s.putWarp (q.w.mapHeldViews (q.flow i).before) with
        sched := { s.sched with dep := sparseSetAll 0 [] (q.g.slices.map fun j => (j, q.w.addrMoment i j)) } }
    | none => s)
  | .collie core thread =>
    (match s.findCollie core thread with
    | some c =>
      let codes := (addrCodes .collie i).filter fun c => decide (c < 32)
      { s.putCollie { c with view := (c.x.flow i).before c.view } with
        sched := { s.sched with dep := sparseSetAll 0 [] [(0, c.view.taintOf (codes.map scalarKey ++ alsoReads [0] i))] } }
    | none => s)
  | .mc => s

end Sys2Proof.Machine
end

