-- ==== Sys2Proof/Machine/Translate.lean ====
section
/-!
DEFINITION. Physical memory and translation: the physical map and who owns it (R336, R345, R347), the walk of a context's
tables through the translation caches (R341 to R343), and the record a failure leaves (R344).
-/
namespace Sys2Proof.Machine

/-! ### The physical map -/

/-- A physical address of this device that holds installed memory (R336). DESIGN CHOICE (log entry 12). -/
def installed (pa : Nat) : Bool :=
  decide (pa < 0x3000000000) ||
    (decide (0x10000000000 ≤ pa ∧ pa < 0x28000000000) && decide (pa < 0x10000000000 + Config.secondTier))

/-- A physical address of another device (R336), and that device. -/
def isRemote (pa : Nat) : Bool := decide (2 ^ 51 ≤ pa) && decide (pa < 2 ^ 52)
def deviceOf (pa : Nat) : Nat := field pa 43 8

/-- The address that pa names here: one that names this device by its own number is the address within it (R336, R374). -/
def State.atHome (s : State) (pa : Nat) : Nat :=
  if isRemote pa && deviceOf pa == s.domain.domid then pa % 2 ^ 43 else pa

/-- The owner tag of the range that holds pa (R347). -/
def Layout.owner (l : Layout) (pa : Nat) : Option Nat :=
  (l.ranges.find? fun r => decide (r.base ≤ pa ∧ pa < r.base + r.length)).map (·.owner)

/-- An access under owner o may reach pa of this device (R336, R347). -/
def Layout.opens (l : Layout) (o pa : Nat) : Bool :=
  installed pa && (l.owner pa == some o || l.owner pa == some hostShared)

/-- The home die of a physical address (R336, R337): what the manual lays out; nothing a program sees depends on it. DEDUCED (log entry 34). -/
def homeDie (pa : Nat) : Nat := if pa < 0x3000000000 then field pa 30 8 / 48 else field pa 12 2
/-- The home slice of a line on its die (R337). -/
def homeSlice (pa : Nat) : Nat :=
  Nat.xor (Nat.xor (field pa 6 4) (field pa 10 4)) (Nat.xor (field pa 14 4) (field pa 18 4))

/-- A core's share for a partition (R369). -/
def Layout.share (l : Layout) (part core : Nat) : Share := sparseGet {} l.shares (192 * part + core)
/-- A die's share for a partition (R369). -/
def Layout.dieShare (l : Layout) (part die : Nat) : DieShare := sparseGet {} l.dies (4 * part + die)
/-- The die of a core, and its cluster of 4 cores (R13). -/
def dieOf (core : Nat) : Nat := core / Config.coresPerDie
def clusterCores (core : Nat) : List Nat := List.range' (4 * (core / 4)) 4

/-- The estate reserve of a core's cluster, in bytes (R370). -/
def Layout.reserve (l : Layout) (part core : Nat) : Nat :=
  16 * (l.dieShare part (dieOf core)).reserve.getD (core % Config.coresPerDie / 4) 0

/-- The exported rows of a core, lowest first, as core and row (R370). -/
def Layout.exports (l : Layout) (part core : Nat) : List (Nat × Nat × Nat) :=
  (clusterCores core).map fun c =>
    let h := l.share part c
    (c, h.spFirst + h.sp - h.exported, h.exported)

/-- The key of byte off of a cluster window that is counted from its very first row (R370). -/
def Layout.windowKey (l : Layout) (part core off : Nat) : Nat :=
  let rec go : List (Nat × Nat × Nat) → Nat → Nat
    | [], _ => 0
    | (c, first, n) :: t, o => if o < 256 * n then padKey c (256 * first + o) else go t (o - 256 * n)
  go (l.exports part core) off

/-- The window's bytes beyond the estate reserve (R370). -/
def Layout.windowSize (l : Layout) (part core : Nat) : Nat :=
  ((l.exports part core).map fun e => 256 * e.2.2).sum - l.reserve part core

/-- The partition's share of a die scratchpad in bytes (R165, R369). DEDUCED (log entry 114). -/
def Layout.dieSize (l : Layout) (part die : Nat) : Nat := 65536 * (l.dieShare part die).len

/-! ### The walk -/

/-- What one entry of a level covers, as a power of two (R341). -/
def levelShift (lvl : Nat) : Nat := [48, 39, 30, 21, 16].getD lvl 16
/-- Index bits of a level (R341). -/
def levelBits (lvl : Nat) : Nat := [8, 9, 9, 9, 5].getD lvl 5
/-- The address of the entry for va in a table (R341). -/
def entryAddr (table lvl va : Nat) : Nat := table + 8 * field va (levelShift lvl) (levelBits lvl)

/-- A malformed entry (R342). -/
def malformed (lvl e : Nat) : Bool :=
  field e 52 12 != 0 || field e 5 3 != 0
    || (decide (lvl < 2) && !e.testBit 1) || (lvl == 4 && e.testBit 1)
    || (if e.testBit 1 then 256 * field e 8 44 % (if lvl = 3 then 256 else 4096) != 0
        else 256 * field e 8 44 % 2 ^ levelShift lvl != 0)

/-- The walk from a level on (R341 to R344): get answers the entry of a level in a table, or none where the table is not
readable. need are the leaf bits R, W, X that must be set, as a mask of entry bits. The answer is the physical address
and the entries used, or reason and level. -/
def walkFrom (get : Nat → Nat → Option Nat) (va need : Nat) : Nat → Nat → Nat → List (Nat × Nat) →
    Except (Nat × Nat) (Nat × List (Nat × Nat))
  | 0, lvl, _, _ => .error (3, lvl)
  | fuel + 1, lvl, table, used =>
    match get lvl table with
    | none => .error (4, 0)
    | some e =>
      if !e.testBit 0 then .error (1, lvl)
      else if malformed lvl e then .error (3, lvl)
      else if e.testBit 1 then walkFrom get va need fuel (lvl + 1) (256 * field e 8 44) (used ++ [(lvl, e)])
      else if e &&& need ≠ need then .error (2, lvl)
      else .ok (256 * field e 8 44 + va % 2 ^ levelShift lvl, used ++ [(lvl, e)])

/-- The cache entries that may serve an access of a core (R343); 0xFFFF stands for the distributor and the estate unit,
served by the cache of a die: which one is free. DESIGN CHOICE (log entry 32). -/
def Memory.cached (m : Memory) (n core part ctx lvl va : Nat) : Option Nat :=
  (m.tlb.find? fun e =>
    (e.scope == core || e.scope == 1000 + dieOf core || (core == 0xFFFF && decide (1000 ≤ e.scope))) &&
      e.part == part && e.ctx == ctx && e.level == lvl &&
      e.page == va / 2 ^ levelShift lvl && Config.freeChoice n e.page % 2 == 0).map fun e => e.word.toNat

/-- The walk of a context, from the deepest cached entry that serves va (R343). DEDUCED (log entry 32). -/
def State.walk (s : State) (core part ctx va need : Nat) : Except (Nat × Nat) (Nat × List (Nat × Nat)) :=
  let get (cachedHere : Bool) (lvl table : Nat) : Option Nat :=
    let mem := s.atHome (entryAddr table lvl va)
    if cachedHere then s.mem.cached s.sched.free core part ctx lvl va
    else if s.layout.opens hostShared mem then some (s.mem.read hostShared mem 8) else none
  let r := match [4, 3, 2, 1, 0].find? fun l => (s.mem.cached s.sched.free core part ctx l va).isSome with
    | some l => walkFrom (fun l' t => get (l' == l) l' t) va need (5 - l) l 0 []
    | none => walkFrom (get false) va need 5 0 (s.ctx part ctx).troot []
  r.map fun e => (s.atHome e.1, e.2)

/-- The entries of a scope after one is added; a full cache loses one of its entries (R343). -/
def cacheAdd (n cap : Nat) (e : TlbEntry) (l : List TlbEntry) : List TlbEntry :=
  let same := l.filter fun x => x.scope == e.scope
  let others := l.filter fun x => !(x.scope == e.scope && x.part == e.part && x.ctx == e.ctx && x.level == e.level
    && x.page == e.page)
  if cap ≤ same.length then
    match same.getD (Config.freeChoice n cap % cap) e with
    | v => (others.filter fun x => x != v) ++ [e]
  else others ++ [e]

/-- The caches after a walk that used the listed entries. -/
def Memory.cache (m : Memory) (n core part ctx va : Nat) (used : List (Nat × Nat)) : Memory :=
  { m with tlb := used.foldl (fun l u =>
      let e (scope : Nat) : TlbEntry := ⟨scope, part, ctx, u.1, va / 2 ^ levelShift u.1, BitVec.ofNat 64 u.2⟩
      if core = 0xFFFF then cacheAdd n Config.tlbDie (e (1000 + Config.freeChoice n va % Config.dies)) l
      else cacheAdd n Config.tlbDie (e (1000 + dieOf core)) (cacheAdd n Config.tlbCore (e core) l)) m.tlb }

/-- A translation for an access under owner tag o (R341 to R344, R347): the physical address with the caches filled, or
reason and level. Remote addresses are not checked here: their target does (R344, R374). DEDUCED (log entry 33). -/
def State.translate (s : State) (core part ctx o va need : Nat) : Except (Nat × Nat) (Nat × State) :=
  match s.walk core part ctx va need with
  | .error e => .error e
  | .ok (pa, used) =>
    if isRemote pa || s.layout.opens o pa then .ok (pa, s.withMem (s.mem.cache s.sched.free core part ctx va used))
    else .error (4, 0)

/-- The leaf bits that reads, writes and instruction fetch need (R342), as masks of an entry. -/
abbrev needR : Nat := 4
abbrev needW : Nat := 8
abbrev needRW : Nat := 12
abbrev needX : Nat := 16

/-! ### Other devices (R375, R376) -/

/-- A device whose accesses fail (R376). -/
def Domain.isLost (d : Domain) (dev : Nat) : Bool := d.lost.contains dev

/-- The window that a device has granted is used up (R375). -/
def Domain.isFull (d : Domain) (dev : Nat) : Bool := decide (Config.windowFlits ≤ sparseGet 0 d.flits dev)

/-- A flit leaves for a device (R375). -/
def State.spendFlit (s : State) (dev : Nat) : State :=
  { s with domain := { s.domain with flits := sparseSet 0 s.domain.flits dev (sparseGet 0 s.domain.flits dev + 1) } }

/-- What a read that is made in one step answers: a value with the state after it, a failed translation of an address, a device
that is lost (R376), or that the device's window has no room (R375). -/
inductive Got (α : Type) where
  | got (v : α) (s : State)
  | xlate (va reason level : Nat)
  | lost (device : Nat)
  | full

/-- The read goes on with a value that it has got. -/
def Got.andThen {α β : Type} (g : Got α) (f : α → State → Got β) : Got β :=
  match g with
  | .got v s => f v s
  | .xlate va r l => .xlate va r l
  | .lost dev => .lost dev
  | .full => .full

/-- n bytes at pa of another device, which that device gives: free values. -/
def State.readFar (s : State) (pa n : Nat) : Got (List (BitVec 8)) :=
  if s.domain.isLost (deviceOf pa) then .lost (deviceOf pa)
  else if s.domain.isFull (deviceOf pa) then .full
  else .got ((List.range n).map fun j => Config.freeByte s.sched.free (pa + j)) (s.spendFlit (deviceOf pa)).nextFree

/-- A read of n bytes at va under owner tag o for a context: here reads memory of this device at a physical address. -/
def State.readGlobal (s : State) (core part ctx o va n need : Nat) (here : State → Nat → List (BitVec 8)) :
    Got (Nat × List (BitVec 8)) :=
  match s.translate core part ctx o va need with
  | .error e => .xlate va e.1 e.2
  | .ok (pa, t) =>
    if isRemote pa then (t.readFar pa n).andThen fun bs u => .got (pa, bs) u
    else .got (pa, here t pa) t

/-- A translation fault noted (R213, R344); its number is the State.sched.uid it used. kind is bit 0 read, bit 1 write,
bit 2 fetch. -/
def State.noteFault (s : State) (core part ctx va path kind : Nat) (rl : Nat × Nat) : State :=
  { s.nextUid with mem := { s.mem with
      xfaults := s.mem.xfaults ++ [{ id := s.sched.uid, part := part, ctx := ctx, va := va, path := path, kind := kind
                                     reason := rl.1, level := rl.2, core := core }] } }

/-- A translation fault of the distributor or another unit without a core, noted once while its record stands (R344). -/
def State.noteOnce (s : State) (part ctx va path kind : Nat) (rl : Nat × Nat) : State :=
  if s.mem.xfaults.any fun f => f.core == 0xFFFF && f.part == part && f.ctx == ctx && f.va == va && f.kind == kind then s
  else s.noteFault 0xFFFF part ctx va path kind rl

/-- The first of n bytes at va, in pieces of a size, that such a unit cannot reach under the partition's tag, with reason and
level. -/
def State.failing (s : State) (part ctx va n size need : Nat) : Option (Nat × Nat × Nat) :=
  (unitsOf size va n).findSome? fun u =>
    let a := max va (size * u)
    match s.translate 0xFFFF part ctx part a need with
    | .ok _ => none
    | .error rl => some (a, rl)

/-- n bytes of a context's memory read in units of at most 16 bytes through its root capability by the distributor or
another unit without a core; none when a byte cannot be read. Each unit has its own translation. -/
def State.rootBytes (s : State) (part ctx va n : Nat) : Option (List (BitVec 8)) :=
  let c := s.ctx part ctx
  let root := c.root
  let base := field root.bits.toNat 0 56
  let len := field root.bits.toNat 56 44
  if !root.valid || va < base || base + len < va + n then none
  else
    (unitsOf 16 va n).foldl (fun acc u =>
      match acc, s.walk 0xFFFF part ctx (16 * u) needR with
      | some l, .ok (pa, _) =>
        let o := field root.bits.toNat 122 5
        if s.layout.opens o pa then
          let lo := max va (16 * u)
          let hi := min (va + n) (16 * u + 16)
          some (l ++ s.mem.bytes o (pa + (lo - 16 * u)) (hi - lo))
        else none
      | _, _ => none) (some [])

/-- The tag of the 16-byte unit at va as the root capability reads it. -/
def State.rootTag (s : State) (part ctx va : Nat) : Bool :=
  match s.walk 0xFFFF part ctx va needR with
  | .ok (pa, _) => s.mem.tag part pa
  | .error _ => false

/-- A die's translation cache after its distributor has read n bytes of a context (R343). -/
def State.fillDie (s : State) (die part ctx va n : Nat) : State :=
  (unitsOf 4096 va n).foldl (fun t u =>
    match t.walk 0xFFFF part ctx (max va (4096 * u)) needR with
    | .error _ => t
    | .ok (_, used) => t.withMem { t.mem with tlb := used.foldl (fun l e =>
        cacheAdd t.sched.free Config.tlbDie
          ⟨1000 + die, part, ctx, e.1, 4096 * u / 2 ^ levelShift e.1, BitVec.ofNat 64 e.2⟩ l) t.mem.tlb }) s

/-- A list in an order that is free: each element is put in at a free place (R190). -/
def freeOrder {α : Type} (n : Nat) (l : List α) : List α :=
  (l.mapIdx fun i x => (i, x)).foldl (fun acc e => acc.insertIdx (Config.freeChoice n e.1 % (acc.length + 1)) e.2) []

/-- Bytes written through the root capability of a context, at most 16 to a unit, the units in no order (R190); none when they
cannot be. -/
def State.rootWrite (s : State) (part ctx va : Nat) (bs : List (BitVec 8)) : Option State :=
  (freeOrder s.sched.free (unitsOf 16 va bs.length)).foldl (fun acc u =>
    match acc with
    | none => none
    | some t =>
      match t.walk 0xFFFF part ctx (16 * u) needW with
      | .error _ => none
      | .ok (pa, used) =>
        if t.layout.opens part pa then
          let lo := max va (16 * u)
          let hi := min (va + bs.length) (16 * u + 16)
          let m := t.mem.cache t.sched.free 0xFFFF part ctx (16 * u) used
          some (t.withMem (m.publish enginePlace part (pa + (lo - 16 * u)) ((bs.drop (lo - va)).take (hi - lo))))
        else none) (some s)

end Sys2Proof.Machine
end

