-- ==== Sys2Proof/Machine/Ready.lean ====
section
/-!
DEFINITION. Fetching a word (R5, R147, R342, R344, R378), the ready test of R86 that looks at it, and what the start of a run
does to the other gangs of the core (R88).
-/
namespace Sys2Proof.Machine

/-- A word fetched for an agent of a workgroup. -/
def State.fetchFor (s : State) (core uid : Nat) (pc : BitVec 48) : Got (BitVec 32) :=
  let g := s.wg uid
  (s.readGlobal core g.part g.ctx g.part pc.toNat 4 needX fun t pa => t.mem.bytes g.part pa 4).andThen fun r t =>
    .got (BitVec.ofNat 32 (natOf r.2)) t

/-- The controller's word: its text stands in its SRAM (R378, R386); none beyond it. -/
def State.fetchMc (s : State) : Option (BitVec 32) :=
  let pc := s.mc.x.pc.toNat
  if pc + 4 ≤ 0x80000 then some (BitVec.ofNat 32 (s.mem.read 0 (sramKey pc) 4)) else none

/-- The next word of a gang names a register that is still pending (R86). -/
def State.nextPending (s : State) (q : Seat) : Bool :=
  match s.fetchFor q.w.core q.w.wg q.pc with
  | .got word _ =>
    (match decodeWord word.toNat with
    | .error _ => false
    | .ok i => (q.w.pendingFor q.g.slices i).any fun p => p.names.any (q.touches i).contains)
  | _ => false

/-- The gangs of a core with an open run that are not stopped in place. -/
def State.openRuns (s : State) (core : Nat) : List Gang :=
  (s.warps.filter fun w => w.core == core && !(s.ctxOf w.wg).gated).flatMap fun w => w.gangs.filter fun g => g.run.isSome

/-- The gang is ready (R86). DEDUCED (log entry 19). -/
def State.gangReady (s : State) (q : Seat) : Bool :=
  q.g.run.isNone && q.g.park == .none && q.g.hold == .none && !q.g.spill && !(s.ctxOf q.w.wg).gated &&
  !(s.ctxOf q.w.wg).stopped && !s.nextPending q

/-- The ready gangs of a core. -/
def State.readySeats (s : State) (core : Nat) : List Seat :=
  (s.warps.filter fun w => w.core == core).flatMap fun w =>
    (w.gangs.map fun g => (⟨w, g⟩ : Seat)).filter s.gangReady

/-- A ready gang that another one was preferred to (R88): gangs that one run start boosts share the order of their boost. -/
def Gang.loses (g : Gang) (order : Nat) : Gang :=
  { g with starv := g.starv + 1
           boost := if Config.boostAt ≤ g.starv + 1 ∧ g.boost.isNone then some order else g.boost }

/-- A port of a core begins a run for the gang with the given slot and lead slice: every other gang of the core that is
ready loses (R88), and the core's run starts are counted (R157). -/
def State.runBegins (s : State) (core slot lead : Nat) : State :=
  let t := (s.readySeats core).foldl (fun u r =>
    if r.w.slot = slot ∧ r.lead = lead then u
    else
      match u.seat core r.w.slot r.lead with
      | some x => u.putSeat { x with g := x.g.loses s.sched.uid }
      | none => u) s
  { t.nextUid with sched := { t.nextUid.sched with
      starts := sparseSet 0 t.sched.starts core (sparseGet 0 t.sched.starts core + 1) } }

end Sys2Proof.Machine
end

