-- ==== Sys2Proof/Machine/Ops.lean ====
section
/-!
DEFINITION. The named operations that every meaning shares: entering and leaving an emulation frame, and issuing a word for
each kind of agent in the order of R45, R389 and R38.
-/
namespace Sys2Proof.Machine

/-- The result of a step. -/
abbrev Out := Host.Outcome State Fault Refusal

/-- What a word's own effect answers: done, its slices continuing at the next word; a long-latency result of the given
pending number and look value; a control transfer that has set everything itself; not issued yet; a trap; an overflow of
the guard bits with the state that records it (R266). -/
inductive Eff where
  | done (s : State)
  | long (s : State) (id look : Nat)
  | jump (s : State)
  | stay (s : State)
  | trap (t : Trap)
  | guardOvf (s : State) (t : Trap)
deriving Repr

/-! ### Windows, frames, emulation (R42, R43, R221, R229) -/

/-- Lane registers of slice j from logical index lo to hi - 1 take the values that f gives their keys. -/
def Warp.fillRegs (w : Warp) (j lo hi : Nat) (f : Nat → BitVec 32) : Warp :=
  let keys := (List.range' lo (hi - lo)).flatMap fun i => (lanesOf j).map (regKey i)
  { w with regs := sparseSetAll 0 w.regs (keys.map fun k => (k, f k)) }

/-- Lane registers of slice j from logical index lo to hi - 1 become free values. -/
def Warp.freeRegs (w : Warp) (n j lo hi : Nat) : Warp := w.fillRegs j lo hi (Config.freeWord n)

/-- An undefined value that is no other warp's: zero, or one of the values that the warp's lane registers hold (R42).
DESIGN CHOICE (log entry 17). -/
def Warp.ownValue (w : Warp) (n k : Nat) : BitVec 32 :=
  (0 :: w.regs.map (·.2)).getD (Config.freeChoice n k % (w.regs.length + 1)) 0

/-- Lane registers of slice j from logical index lo to hi - 1 become undefined by R42. -/
def Warp.staleRegs (w : Warp) (n j lo hi : Nat) : Warp := w.fillRegs j lo hi (w.ownValue n)

/-- A slice's base raised by k spills past the end of the spill area (R43). -/
def Warp.overflows (w : Warp) (privB sliceB : Nat) (j k : Nat) : Bool :=
  let x := w.slice j
  decide (x.lo + w.alloc < x.base + k + 44) && decide (sliceB - privB < 4 * (x.base + k + 44 - w.alloc))

/-- A slice's base raised by k (R42): registers that become resident hold undefined values. -/
def Warp.raiseBase (w : Warp) (n j k : Nat) : Warp :=
  let x := w.slice j
  let lo := max x.lo (x.base + k + 44 - w.alloc)
  (w.staleRegs n j (max (x.lo + w.alloc) (x.base + 44)) (lo + w.alloc)).setSlice j { x with base := x.base + k, lo := lo }

/-- A slice's base lowered to b (R42): registers above the window become undefined. -/
def Warp.lowerBase (w : Warp) (n j b : Nat) : Warp :=
  let x := w.slice j
  let lo := min x.lo b
  (w.staleRegs n j (b + 44) (lo + w.alloc)).setSlice j { x with base := b, lo := lo }

/-- The operand window of a frame (R221 step 5). -/
def Seat.window (q : Seat) (word : BitVec 32) : Sparse (BitVec 32) :=
  let lanes := q.g.slices.flatMap lanesOf
  let d := field word.toNat 18 6
  let put (o : Nat) (f : Nat → BitVec 32) : List (Nat × BitVec 32) := lanes.map fun L => (regKey o L, f L)
  sparseSetAll 0 []
    (put 0 (q.w.read (field word.toNat 12 6)) ++ put 1 (q.w.read (field word.toNat 6 6)) ++
      put 2 (q.w.read (field word.toNat 0 6)) ++ put 3 (fun L => if d < 61 then q.w.read d L else 0))

/-- A new frame for every slice of the gang, and the handler's state (R221 steps 4 to 9, R223). -/
def Seat.enter (q : Seat) (n : Nat) (entry : BitVec 48) (word : BitVec 32) (ecause etrap : BitVec 32) : Seat :=
  let emask := BitVec.ofNat 64 (maskOf (q.w.execLanes q.g.slices))
  let owin := q.window word
  let w1 := q.w.mapSlices q.g.slices fun j x =>
    { x with
      frames := { epc := x.pc, eword := word, emask := emask, ecause := ecause, etrap := etrap, mode := x.mode
                  lanemask := x.lanemask, stack := x.stack, base := x.base, run := q.run
                  temps := q.w.temps.filter fun e => decide (e.1 % 64 / 4 = j)
                  cover0 := q.w.cover0, cover1 := q.w.cover1, members := q.g.slices, owin := owin } :: x.frames
      mode := 0, lanemask := 0xF, stack := [], pc := entry }
  let w2 := q.g.slices.foldl (fun w j =>
    let b := (w.slice j).base + 44
    (w.raiseBase n j 44).freeRegs n j b (b + 44)) w1
  { w := w2, g := { q.g with run := none } }

/-- The gang has results to wait for before a handler's entry (R39): pending ones of its slices, and claims of its lanes
(R323). -/
def Seat.owed (q : Seat) : Bool :=
  (q.w.pend.any fun p => p.slices.any q.g.slices.contains) || q.w.claims.any fun c => q.g.slices.contains (c.lane / 4)

/-- The handler of a context is entered, or the trap that stands in its place (R221, R223). The gang leaves its port, and its
handler's run begins when it is the best ready gang, with the class, age and count that it has (R86, R87).
DEDUCED (log entry 19). -/
def State.enterHandler (s : State) (q : Seat) (entry : BitVec 48) (word : BitVec 32) (ecause etrap reason : Nat) :
    State :=
  let c := s.ctxOf q.w.wg
  let g := s.wg q.w.wg
  if c.emunest ≤ (q.w.slice q.lead).frames.length then s.raiseAt q { cause := 0x30, detail := reason, ctxFault := true }
  else if entry = 0 then s.raiseAt q { cause := 0x29, detail := reason }
  else if q.owed then s
  else if q.g.slices.any (fun j => q.w.overflows g.privB g.sliceB j 44) then s.raiseAt q { cause := 5 }
  else
    let r := q.enter s.sched.free entry word (BitVec.ofNat 32 ecause) (BitVec.ofNat 32 etrap)
    let spills := q.g.slices.any fun j => decide ((q.w.slice j).lo < (r.w.slice j).lo)
    (s.putSeat { r with g := { r.g with spill := spills } }).nextFree

/-- Emulation entry of a SIMT word (R221, R389): a 25th word of a run raises RUN-LENGTH instead, and a word after BEQUEATH
raises ESTATE-ORDER (R318). -/
def State.emulate (s : State) (q : Seat) (word : BitVec 32) (reason : Nat) : State :=
  if q.g.mustExit then s.raiseAt q { cause := 0x58, detail := 1, lane := q.heldLane }
  else if Config.runLimit ≤ q.run.words then s.raiseAt q { cause := 4, detail := 1 }
  else s.enterHandler q (s.ctxOf q.w.wg).emuentry word reason 0 reason

/-! ### What becomes of a word (R45) -/

/-- The fate of a defined word: an emulation reason, PRIVILEGE, or execution. -/
inductive Fate where
  | emulate (reason : Nat)
  | privilege
  | go
deriving DecidableEq, Repr

/-- A major the context's mask disables (R49). -/
def disabled (opdis : BitVec 256) (major : Nat) : Bool :=
  opdis.getLsbD major && !(major < 0x10 || major == 0xFF || (decide (0xF0 ≤ major) && decide (major ≤ 0xF7)))

/-- A WRSR that names a read-only register, or a frame register outside a handler (R226, R235, R378). -/
def wrsrDenied (pr : Profile) (inHandler : Bool) (i : Instr) : Bool :=
  match i with
  | .wrsr _ sr =>
    (match pr with
    | .simt _ => !(sr == 0 || sr == 8 || (inHandler && (sr == 9 || sr == 0xB || sr == 0xC)))
    | .collie => !(sr == 0 || (inHandler && sr == 0xB))
    | .mc => !(sr == 0 || sr == 0xA || sr == 0x10 || sr == 0x20 || sr == 0x23))
  | _ => false

/-- Steps 3 to 10 of R45 for a decoded word; modes are the modes of the issuing slices. -/
def fateOf (pr : Profile) (inHandler : Bool) (opdis : BitVec 256) (modes : List (BitVec 32)) (i : Instr) : Fate :=
  let m := majorOf i
  if Config.fusedOff.contains m then .emulate 4
  else if disabled opdis m then .emulate 3
  else if !fieldsOk pr i then .emulate 2
  else if !permitted pr inHandler m || wrsrDenied pr inHandler i then .privilege
  else if modes.any (fun md => match typesOf i with | none => false | some l => !l.contains (modeType md)) then .emulate 5
  else if modes.any (fun md => roundsUnder i (modeType md) && decide (5 ≤ modeRnd md)) then .emulate 6
  else .go

/-- The instruction's word (R23); zero for a step that has none. -/
def wordOf (i : Instr) : BitVec 32 := (encode i).getD 0

/-- The coverage count that a POPQ reads (R37). -/
def coverOf (w : Warp) (i : Instr) : Nat :=
  match i with
  | .popq q _ _ => if q = 0 then w.cover0 else w.cover1
  | _ => 0

/-- After the word the agent goes on at PC + 4, if it does not trap (R147): a TRAP that executes ends the task (R225), and
of the control transfers those without a target of their own fall through. -/
def fallsThrough (i : Instr) (x : Exe) : Bool :=
  match i with
  | .trap _ => x.lanes.isEmpty
  | .waitmon _ _ _ _ _ => true
  | .regang _ => true
  | .barWait _ _ => true
  | .join _ _ => true
  | .joint => true
  | .launch _ _ _ => true
  | .launchNb _ _ _ => true
  | .post _ => true
  | .fork _ => true
  | _ => !endsRun i

/-- A word of a gang: R45, then the promises of R38, then PC-WRAP, then its own effect (R389). eff is given the seat with
fresh temporaries and the state. DEDUCED (log entry 15). -/
def issueGang (i : Instr) (core slot lead : Nat) (s : State) (eff : Seat → State → Eff) : State :=
  match s.seat core slot lead with
  | none => s
  | some q =>
    if !q.ready || (s.ctxOf q.w.wg).gated then s
    else
      match fateOf q.profile q.inHandler (s.wg q.w.wg).opdis (q.g.slices.map fun j => (q.w.slice j).mode) i with
      | .emulate r => s.emulate q (wordOf i) r
      | .privilege => s.raiseAt q { cause := 3, arg0 := (wordOf i).toNat }
      | .go =>
        if q.g.mustExit && i != .exit then s.raiseAt q { cause := 0x58, detail := 1, lane := q.heldLane }
        else
        match brokenPromise q.profile i q.run (coverOf q.w i) with
        | some code => s.raiseAt q { cause := 4, detail := code }
        | none =>
          if fallsThrough i q.exe && pcWraps q.pc then s.raiseAt q { cause := 0xB }
          else if q.waits i then s
          else
            match eff (q.freshTemps s.sched.free i) s.nextFree with
            | .done t =>
              (match t.seat core slot lead with
              | some r => t.putSeat (r.advance i none)
              | none => t)
            | .long t id look =>
              (match t.seat core slot lead with
              | some r => t.putSeat (r.advance i (some ⟨id, dstCodes q.profile i, look⟩))
              | none => t)
            | .jump t => t
            | .stay t => t
            | .trap t => s.raiseAt q t
            | .guardOvf t tr =>
              (match t.seat core slot lead with
              | some r =>
                if (t.ctxOf r.w.wg).guardentry = 0 then t.raiseAt r tr
                else t.enterHandler r (t.ctxOf r.w.wg).guardentry (wordOf i) 0 0x25 0
              | none => t)

/-! ### Scalar agents -/

/-- The register values a Collie word sees are those of its thread (R93). A trap of a Collie thread (R234). -/
def State.raiseCollie (s : State) (c : Collie) (t : Trap) : State :=
  s.raise c.wg c.core 80 c.x.pc (c.frame.map (·.epc)) { t with lane := 0xFF }

/-- The scalar agent at a new pc, its run ended (R33). -/
def Scalar.goto (x : Scalar) (pc : BitVec 48) : Scalar := { x with pc := pc, run := {} }

/-- The Collie handler is entered (R234), or the trap in its place. Its bank of scalars and predicates holds free values.
DESIGN CHOICE (log entry 138). -/
def State.collieEnter (s : State) (c : Collie) (word : BitVec 32) (reason : Nat) : State :=
  let k := s.ctxOf c.wg
  if Config.runLimit ≤ c.x.run.words then s.raiseCollie c { cause := 4, detail := 1 }
  else if c.frame.isSome then s.raiseCollie c { cause := 0x30, detail := reason, ctxFault := true }
  else if k.collieentry = 0 then s.raiseCollie c { cause := 0x29, detail := reason }
  else if !c.x.pend.isEmpty then s
  else
    let rd (lo : Nat) : BitVec 32 := Exe.rd (.scal c.x) (field word.toNat lo 6) 0
    let fr : CollieFrame :=
      { epc := c.x.pc, eword := word, emask := if guardHolds c.x.mode c.x.p 0 then 1 else 0
        ecause := BitVec.ofNat 32 reason, mode := c.x.mode, s := c.x.s, p := c.x.p, run := c.x.run
        owin := sparseSetAll 0 [] [(0, rd 12), (1, rd 6), (2, rd 0), (3, rd 18)] }
    let n := s.sched.free
    s.nextFree.putCollie { c with
      frame := some fr
      x := { c.x with
        pc := k.collieentry, mode := 0, run := {}
        s := sparseSetAll 0 [] ((List.range 32).map fun i => (i, Config.freeWord n i))
        p := sparseSetAll 0 [] ((List.range 8).map fun i => (i, BitVec.ofNat 64 ((Config.freeWord n (32 + i)).toNat % 2))) } }

/-- A word of a Collie thread (R232, R234, R389). -/
def issueCollie (i : Instr) (core thread : Nat) (s : State) (eff : Collie → State → Eff) : State :=
  match s.findCollie core thread with
  | none => s
  | some c =>
    if c.stopped || c.park != .none || c.x.hold != .none || (s.ctxOf c.wg).gated || s.collieStops c i then s
    else
      match fateOf .collie c.frame.isSome (s.wg c.wg).opdis [c.x.mode] i with
      | .emulate r => s.collieEnter c (wordOf i) r
      | .privilege => s.raiseCollie c { cause := 3, arg0 := (wordOf i).toNat }
      | .go =>
        match brokenPromise .collie i c.x.run 0 with
        | some code => s.raiseCollie c { cause := 4, detail := code }
        | none =>
          if fallsThrough i (.scal c.x) && pcWraps c.x.pc then s.raiseCollie c { cause := 0xB }
          else if waitsFor .collie i c.x.run [0] scalarNames c.x.pend then s
          else
            match eff c s with
            | .done t =>
              (match t.findCollie core thread with
              | some d => t.putCollie (d.advance i none)
              | none => t)
            | .long t id look =>
              (match t.findCollie core thread with
              | some d => t.putCollie (d.advance i (some ⟨id, dstCodes .collie i, look⟩))
              | none => t)
            | .jump t => t
            | .stay t => t
            | .trap t => s.raiseCollie c t
            | .guardOvf _ t => s.raiseCollie c t

/-- The 32 bytes of a digest held in a register. -/
def digestBytes (v : BitVec 256) : List (BitVec 8) := bytesOf 32 v.toNat

/-- Measurement register i extended with a digest (R379). DEDUCED (log entry 98). -/
def Mgmt.extend (m : Mgmt) (i : Nat) (x : List (BitVec 8)) : Mgmt :=
  { m with mr := sparseSet 0 m.mr i (BitVec.ofNat 256 (natOf (sha256 (digestBytes (sparseGet 0 m.mr i) ++ x)))) }

/-- The number of the image in the bank booted. -/
def Mgmt.bootedImage (m : Mgmt) : Nat := if m.bootedB then m.imgB else m.imgA

/-- The result record of the self-test (R385). -/
def selfTestRecord (failing : List Nat) : List (BitVec 8) :=
  bytesOf 4 failing.length ++ (List.range 12).flatMap (fun i => bytesOf 2 (failing.getD i 0)) ++ bytesOf 4 0

/-- The measurement registers as boot leaves them (R379): MR2 once with each component as its engine runs it. -/
def Mgmt.measureBoot (m : Mgmt) : Mgmt :=
  let a := ({ m with mr := [] }).extend 0 (digestBytes Config.romDigest)
  let b := a.extend 1 (digestBytes (Config.firmwareDigest m.bootedImage) ++ [if m.bootedB then 1 else 0])
  let c := (List.range 8).foldl (fun x i => x.extend 2 (digestBytes (Config.componentDigest (m.engines.getD i 0) i))) b
  (c.extend 3 (digestBytes Config.fuseDigest)).extend 4 (sha256 (selfTestRecord m.failing))

/-- What a reset of the controller does to the management functions (R379, R383, R384, R387): sessions, transcripts, the
message unit's commands, the telemetry of the interval under way and a transfer that was not activated are lost, the current
bank is booted, but for the safe state, where an update waits for a package reset (R385), and MR0 to MR4 are extended afresh
once the self-test has ended. DEDUCED (log entry 102). -/
def Mgmt.mcReset (m : Mgmt) (now : Nat) : Mgmt :=
  let waits := m.safe && m.due
  let other := m.bootedB != m.currentB && !waits
  let n := { m with
    muq := [], mufail := false, mudone := false, slots := [[], [], []], stage := 0, vca := [], m1 := [], l1 := []
    sessions := [], refreshed := now, update := none, verified := none, image := []
    bootedB := if waits then m.bootedB else m.currentB
    due := waits, testing := other
    svn := if other then m.otherSvn else m.svn
    otherSvn := if other then m.svn else m.otherSvn
    otherValid := other || m.otherValid }
  if m.ready then n.measureBoot else { n with mr := [] }

/-- The boot ROM places the firmware in the controller's SRAM, whose bytes are free values (R384, R386). -/
def Memory.loadFirmware (m : Memory) : Memory :=
  let lo := sramKey 0
  let hi := sramKey 0x20000
  let c := m.clear fun k => decide (lo ≤ k) && decide (k < hi)
  { c with noise := ⟨lo, hi, 0, false⟩ :: quietNoise lo (hi - lo) c.noise, epochs := bumpEpochs c.epochs [lo / 2 ^ 17] }

/-- A reset of the controller (R384, R386): its registers are as at reset and execution begins at offset 0. -/
def State.mcReset (s : State) : State :=
  let m := s.mem.loadFirmware
  { s with
    mc := { resetAt := s.sched.now, wdogAt := s.sched.now }
    mgmt := s.mgmt.mcReset s.sched.now
    mem := { m with
      access := m.access.filter fun a => !(a.who == Agent.mc && (match a.act with | .load _ => true | _ => false))
      monitors := m.monitors.filter fun t => t.who != Agent.mc } }

/-- A vector entry of the controller (R378); while etrap is not 0 the controller is reset instead. Loads under way still
reach their registers. -/
def State.mcEnter (s : State) (entry : Nat) (word : BitVec 32) (etrap reason : Nat) : State :=
  if s.mc.etrap ≠ 0 then s.mcReset
  else
    { s with
      mem := { s.mem with monitors := s.mem.monitors.filter fun t => t.who != Agent.mc }
      mc := { s.mc with
        parked := false
        epc := s.mc.x.pc, eword := word, etrap := BitVec.ofNat 32 etrap
        ecause := if entry = 1 then BitVec.ofNat 32 reason else s.mc.ecause
        x := { s.mc.x with
          pc := BitVec.ofNat 48 (s.mc.mvec.toNat + 16 * entry), run := {}, hold := .none
          pend := s.mc.x.pend.map fun p => { p with deferred := true } } } }

/-- The controller at an undefined word (R51, R378): the 25th word of a run is RUN-LENGTH here too (R389).
DEDUCED (log entry 81). -/
def State.mcEmulate (s : State) (word : BitVec 32) (reason : Nat) : State :=
  if Config.runLimit ≤ s.mc.x.run.words then s.mcEnter 5 word 4 0 else s.mcEnter 1 word 0x62 reason

/-- A word of the management controller (R51, R378). -/
def issueMc (i : Instr) (s : State) (eff : Scalar → State → Eff) : State :=
  let x := s.mc.x
  if x.hold != .none || s.mc.parked then s
  else
    match fateOf .mc false 0 [x.mode] i with
    | .emulate r => s.mcEmulate (wordOf i) r
    | .privilege => s.mcEnter 5 (wordOf i) 3 0
    | .go =>
      match brokenPromise .mc i x.run 0 with
      | some _ => s.mcEnter 5 (wordOf i) 4 0
      | none =>
        if fallsThrough i (.scal x) && pcWraps x.pc then s.mcEnter 5 (wordOf i) 0xB 0
        else if waitsFor .mc i x.run [0] scalarNames x.pend then s
        else
          match eff x s with
          | .done t => { t with mc := { t.mc with x := t.mc.x.advance none } }
          | .long t id look => { t with mc := { t.mc with x := t.mc.x.advance (some ⟨id, dstCodes .mc i, look⟩) } }
          | .jump t => t
          | .stay t => t
          | .trap t => s.mcEnter 5 (wordOf i) t.cause 0
          | .guardOvf _ t => s.mcEnter 5 (wordOf i) t.cause 0

/-! ### The shapes of most words -/

/-- A word by whichever agent is current. -/
def issue (i : Instr) (s : State) (g : Seat → State → Eff) (c : Collie → State → Eff) (m : Scalar → State → Eff) :
    Out :=
  match s.sched.cur with
  | none => .fault .noAgent
  | some (.gang core slot lead) => .next (issueGang i core slot lead s g)
  | some (.collie core thread) => .next (issueCollie i core thread s c)
  | some .mc => .next (issueMc i s m)

/-- The agent's registers after f, in a seat. -/
def Exe.warpOf (w : Warp) : Exe → Warp
  | .simt v _ => v
  | .scal _ => w
def Exe.scalarOf (x : Scalar) : Exe → Scalar
  | .simt _ _ => x
  | .scal y => y

/-- A word that only computes on registers (R91): f maps the agent's registers. -/
def aluWord (i : Instr) (s : State) (f : Exe → Exe) : Out :=
  issue i s
    (fun q t => .done (t.putWarp ((f q.exe).warpOf q.w)))
    (fun c t => .done (t.putCollie { c with x := (f (.scal c.x)).scalarOf c.x }))
    (fun x t => .done { t with mc := { t.mc with x := (f (.scal x)).scalarOf x } })

/-- The destinations of register code c of lane L in a warp. -/
def Warp.dest (w : Warp) (c L : Nat) : Option Dest :=
  if c < 44 then some (.lane (regKey ((w.slice (L / 4)).base + c) L))
  else if c < 52 then some (.temp (regKey (c - 44) L))
  else if c < 60 then some (.scalar (c - 52))
  else none

/-- The writes of a pending result: values per lane for code c; a scalar takes that of the lowest lane (R25). -/
def Warp.dests (w : Warp) (c : Nat) (vals : List (Nat × BitVec 32)) : List (Dest × BitVec 32) :=
  (if c < 52 then vals else vals.take 1).filterMap fun e => (w.dest c e.1).map fun d => (d, e.2)

/-- A result that arrives later (R34): its registers are pending from now on. -/
def Seat.pendLong (q : Seat) (id : Nat) (codes : List Nat) (writes : List (Dest × BitVec 32)) : Warp :=
  let ns := q.w.namesOf q.g.slices codes
  { q.w with pend := q.w.pend ++ [{ id := id, slices := q.g.slices, names := if ns.isEmpty then [.z] else ns, writes := writes }] }

/-- A pending result of a scalar agent. -/
def Scalar.pendLong (x : Scalar) (id : Nat) (codes : List Nat) (vals : List (Nat × BitVec 32)) : Scalar :=
  let ns := scalarNames codes
  { x with pend := x.pend ++ [{ id := id, slices := [0], names := if ns.isEmpty then [.z] else ns
                                writes := (vals.filter fun e => decide (e.1 < 32)).map fun e => (.scalar e.1, e.2) }] }

/-- A long-latency word that computes on registers: f gives the value of each executing lane. -/
def longWord (i : Instr) (d look : Nat) (s : State) (f : Exe → Nat → BitVec 32) : Out :=
  let id := s.sched.uid
  issue i s
    (fun q t => .long ((t.putWarp (q.pendLong id [d]
      (q.w.dests d (q.exe.lanes.map fun L => (L, f q.exe L))))).nextUid) id look)
    (fun c t =>
      let vals := (Exe.lanes (.scal c.x)).map fun L => (d, f (.scal c.x) L)
      .long ((t.putCollie { c with x := c.x.pendLong id [d] vals }).nextUid) id look)
    (fun x t =>
      let vals := (Exe.lanes (.scal x)).map fun L => (d, f (.scal x) L)
      .long { t.nextUid with mc := { t.mc with x := x.pendLong id [d] vals } } id look)

/-- A word that only SIMT slices may execute (R51): the other agents never get past its fate. -/
def simtWord (i : Instr) (s : State) (g : Seat → State → Eff) : Out :=
  issue i s g (fun _ t => .stay t) (fun _ t => .stay t)

/-- A word that only Collie threads may execute. -/
def collieWord (i : Instr) (s : State) (c : Collie → State → Eff) : Out :=
  issue i s (fun _ t => .stay t) c (fun _ t => .stay t)

end Sys2Proof.Machine
end

