-- ==== Sys2Proof/Machine/Barrier.lean ====
section
/-!
DEFINITION. Named barriers (R158, R246, R247): marking, arriving, completing a phase, and the wakes that follow.
-/
namespace Sys2Proof.Machine

/-- The live slices of a warp. -/
def Warp.liveSlices (w : Warp) : List Nat := (List.range w.slices.length).filter fun j => (w.slice j).live

/-- A gang is parked on barrier b for the given phase. -/
def Gang.waitsAt (g : Gang) (b phase : Nat) : Bool :=
  match g.park with
  | .yieldB b' _ ph => b' == b && ph == phase
  | .barWait b' ph => b' == b && ph == phase
  | _ => false

/-- The gangs of a warp parked on barrier b for a phase become ready (R246), and their later accesses follow the moments of the
phase, at scope wg (R200). -/
def Warp.passBarrier (w : Warp) (b : Nat) (p : Waking) : Warp :=
  let on := w.gangs.filter fun g => g.waitsAt b p.phase
  { w.mapViews (on.flatMap (·.slices)) fun v => v.passed p.high p.cp with
    gangs := w.gangs.map fun g => if g.waitsAt b p.phase then { g with park := .none } else g }

/-- The gangs of a workgroup parked on barrier b for the given phase become ready (R246). -/
def State.wakeBarrier (s : State) (uid b : Nat) (p : Waking) : State :=
  { s with warps := s.warps.map fun w => if w.wg = uid then w.passBarrier b p else w }

/-- The phase under way as one whose gangs may go on. -/
def Barrier.current (x : Barrier) : Waking := ⟨x.phase, x.before, x.high, x.cp⟩

/-- A phase whose gangs go on: what passes the barrier from here on follows its moments too (R200). -/
def Barrier.release (x : Barrier) (p : Waking) : Barrier :=
  { x with doneHigh := max x.doneHigh p.high, doneCp := max x.doneCp p.cp }

/-- No access holds back the gangs of the phase that completes. -/
def Barrier.clear (x : Barrier) : Bool := x.before.isEmpty && x.waking.isEmpty

/-- The barrier after its phase has completed (R246); its gangs wait for the accesses that precede the arrivals (R200). -/
def Barrier.complete (x : Barrier) : Barrier :=
  { (if x.clear then x.release x.current else { x with waking := x.waking ++ [x.current] }) with
    arrivals := 0, phase := x.phase + 1, marks := [], arrived := [], before := [], high := 0, cp := 0 }

/-- The barrier b of a workgroup replaced; when its arrivals reach its count the phase completes (R246), and its gangs go on
once the accesses that precede the arrivals are performed (R200). DEDUCED (log entry 38). -/
def State.setBarrier (s : State) (uid b : Nat) (x : Barrier) : State :=
  let g := s.wg uid
  if x.count ≤ x.arrivals then
    let t := s.putWg { g with bars := setNth g.bars b x.complete }
    if x.clear then t.wakeBarrier uid b x.current else t
  else s.putWg { g with bars := setNth g.bars b x }

/-- One member arrival at barrier b (R19, R246), of a copy with the moment of its writes (R200). DEDUCED (log entry 38). -/
def State.memberArrive (s : State) (uid b : Nat) (cp : Nat := 0) : State :=
  let x := (s.wg uid).bars.getD b default
  s.setBarrier uid b { x with arrivals := x.arrivals + 1, cp := max x.cp cp }

/-- A warp whose live slices have all marked at b arrives, once per phase (R246). -/
def State.warpArrive (s : State) (w : Warp) (b : Nat) : State :=
  let x := (s.wg w.wg).bars.getD b default
  if w.liveSlices.all (fun j => x.marks.contains (w.index, j)) && !w.liveSlices.isEmpty
      && !x.arrived.contains w.index then
    s.setBarrier w.wg b { x with arrivals := x.arrivals + 1, arrived := x.arrived ++ [w.index] }
  else s

/-- An access that a phase follows took effect at a moment. -/
def Waking.settle (p : Waking) (id moment : Nat) : Waking :=
  if p.before.contains id then { p with before := p.before.filter fun i => i != id, high := max p.high moment } else p

/-- The barrier once an access has taken effect at a moment, and the phases whose gangs go on with that, in order. -/
def Barrier.settle (x : Barrier) (id moment : Nat) : Barrier × List Waking :=
  let w := x.waking.map fun p => p.settle id moment
  let c := x.current.settle id moment
  let y := (w.takeWhile fun p => p.before.isEmpty).foldl Barrier.release x
  ({ y with before := c.before, high := c.high, waking := w.dropWhile fun p => p.before.isEmpty },
    w.takeWhile fun p => p.before.isEmpty)

/-- An access has been performed: no barrier waits for it any longer (R200). -/
def State.settleBarriers (s : State) (uid id moment : Nat) : State :=
  (List.range (s.wg uid).bars.length).foldl (fun t b =>
    let g := t.wg uid
    let r := (g.bars.getD b default).settle id moment
    r.2.foldl (fun u p => u.wakeBarrier uid b p) (t.putWg { g with bars := setNth g.bars b r.1 })) s

/-- The numbers of the accesses in flight of slices of a warp. -/
def State.inFlight (s : State) (w : Warp) (sl : List Nat) : List Nat :=
  (s.mem.access.filter fun a => a.note.isNone && a.wg == w.wg && match a.who with
    | .gang c k j => c == w.core && k == w.slot && sl.contains j
    | _ => false).map (·.id)

/-- The slices of a gang mark at barrier b (R246). -/
def State.mark (s : State) (w : Warp) (sl : List Nat) (b : Nat) : State :=
  let g := s.wg w.wg
  let x := g.bars.getD b default
  let new := (sl.map fun j => (w.index, j)).filter fun m => !x.marks.contains m
  (s.putWg { g with bars := setNth g.bars b { x with
      marks := x.marks ++ new
      before := x.before ++ s.inFlight w sl
      high := (sl.map fun j => (w.viewOf j).high).foldl max x.high } }).warpArrive w b

/-- After slices of a warp have ended, the barriers at which its other slices have marked are looked at again (R246). -/
def State.recheckBarriers (s : State) (w : Warp) : State :=
  (List.range (s.wg w.wg).bars.length).foldl (fun t b =>
    if ((t.wg w.wg).bars.getD b default).marks.any (fun m => m.1 == w.index) then t.warpArrive w b else t) s

end Sys2Proof.Machine
end

