-- ==== Sys2Proof/Machine/Control.lean ====
section
/-!
DEFINITION. Control transfers: branches, divergence, calls and the register window, REGANG, YIELD, YIELD.B, EXIT
(R78, R79, R82, R146 to R158, R162).
-/
namespace Sys2Proof.Machine

/-- The address off words from pc, when it lies in the code space (R147). -/
def target (pc : BitVec 48) (off : Int) : Option (BitVec 48) :=
  let t : Int := pc.toNat + 4 * off
  if 0 ≤ t ∧ t < 2 ^ 48 then some (BitVec.ofInt 48 t) else none

/-- The next word's address, when it lies in the code space (R147). -/
def nextPc (pc : BitVec 48) : Option (BitVec 48) := target pc 1

/-- Slices grouped by their pc, groups in order of their first slice (R78); fuel bounds the groups. -/
def groupByPc (w : Warp) : Nat → List Nat → List (List Nat)
  | 0, _ => []
  | _, [] => []
  | n + 1, j :: t =>
    (j :: t.filter fun i => (w.slice i).pc == (w.slice j).pc) ::
      groupByPc w n (t.filter fun i => (w.slice i).pc != (w.slice j).pc)

/-- The gang ends its run and parts by the new pcs of its live slices (R33, R78); each part keeps the former gang's
starvation count (R88) and takes the park. -/
def Seat.part (q : Seat) (w : Warp) (park : Park) (spill : Bool) : Warp :=
  let live := q.g.slices.filter fun j => (w.slice j).live
  let parts := (groupByPc w live.length live).map fun js =>
    { q.g with slices := js, run := none, resume := none, park := park, word := q.pc, spill := spill, mustExit := false }
  { w with gangs := (w.gangs.filter fun h => h.slices.head? != some q.lead) ++ parts }

/-- A control transfer: every slice of the gang goes to the pc that f gives (R146). -/
def Seat.transfer (q : Seat) (s : State) (w : Warp) (f : Nat → BitVec 48) (park : Park := .none)
    (spill : Bool := false) : Eff :=
  .jump (s.putWarp (q.part (w.mapSlices q.g.slices fun j x => { x with pc := f j }) park spill))

/-- A control transfer after which every slice goes on at the next word, in a new run. -/
def Seat.fallThrough (q : Seat) (s : State) (w : Warp) (park : Park := .none) : Eff :=
  match nextPc q.pc with
  | none => .trap { cause := 0xB }
  | some p => q.transfer s w (fun _ => p) park

/-- The active lanes of slice j whose branch condition holds (R149). DEDUCED (log entry 21). -/
def Seat.taken (q : Seat) (cond j : Nat) : List Nat := (q.w.active j).filter (condHolds cond q.w.p)

/-- BR (R149, R93). The mask that BRANCH-SPLIT reports has the bits of the warp's lane numbers. DEDUCED (log entry 125). -/
def execBr (cond : BitVec 4) (off : BitVec 20) (s : State) : Out :=
  let scalarBr (x : Scalar) : Option (BitVec 48) :=
    if condHolds cond.toNat x.p 0 then target x.pc off.toInt else nextPc x.pc
  issue (.br cond off) s
    (fun q t =>
      let goes (j : Nat) : Option (BitVec 48) :=
        if q.taken cond.toNat j = q.w.active j then target q.pc off.toInt else nextPc q.pc
      let split (j : Nat) : Bool :=
        !(q.taken cond.toNat j).isEmpty && q.taken cond.toNat j != q.w.active j
      if q.g.slices.any (fun j => !split j && (goes j).isNone) then .trap { cause := 0xB }
      else
        match q.g.slices.find? split with
        | some j => .trap { cause := 9, arg0 := j, arg1 := maskOf (q.taken cond.toNat j) }
        | none => q.transfer t q.w fun j => (goes j).getD 0)
    (fun c t =>
      match scalarBr c.x with
      | none => .trap { cause := 0xB }
      | some p => .jump (t.putCollie { c with x := c.x.goto p }))
    (fun x t =>
      match scalarBr x with
      | none => .trap { cause := 0xB }
      | some p => .jump { t with mc := { t.mc with x := x.goto p } })

/-- BRD (R150): lanes whose condition holds are deferred to the target. -/
def execBrd (cond : BitVec 4) (off : BitVec 20) (s : State) : Out :=
  simtWord (.brd cond off) s fun q t =>
    let T (j : Nat) : List Nat := q.taken cond.toNat j
    let N (j : Nat) : List Nat := (q.w.active j).filter fun L => !(T j).contains L
    let splits (j : Nat) : Bool := !(T j).isEmpty && !(N j).isEmpty
    let needsTarget := q.g.slices.any fun j => splits j || (N j).isEmpty
    let needsNext := q.g.slices.any fun j => !(N j).isEmpty
    match target q.pc off.toInt, nextPc q.pc with
    | tg, nx =>
      if (needsTarget && tg.isNone) || (needsNext && nx.isNone) then .trap { cause := 0xB }
      else if q.g.slices.any (fun j => splits j && decide (8 ≤ (q.w.slice j).stack.length)) then .trap { cause := 8 }
      else
        let w := q.w.mapSlices q.g.slices fun j x =>
          if splits j then
            { x with stack := ⟨tg.getD 0, BitVec.ofNat 4 (maskOf ((T j).map (· % 4))), false⟩ :: x.stack
                     lanemask := BitVec.ofNat 4 (maskOf ((N j).map (· % 4))) }
          else x
        q.transfer t w fun j => if (N j).isEmpty then tg.getD 0 else nx.getD 0

/-- RJOIN (R151). -/
def execRjoin (off : BitVec 20) (s : State) : Out :=
  simtWord (.rjoin off) s fun q t =>
    let J := target q.pc off.toInt
    let nx := nextPc q.pc
    let firstArm (j : Nat) : Bool :=
      match (q.w.slice j).stack with
      | e :: _ => !e.joined && some e.pc == nx
      | [] => false
    if J.isNone then .trap { cause := 0xB }
    else
      let w := q.w.mapSlices q.g.slices fun j x =>
        match x.stack with
        | e :: rest =>
          if firstArm j then { x with stack := ⟨J.getD 0, x.lanemask, true⟩ :: rest, lanemask := e.mask }
          else if e.joined ∧ some e.pc = J then { x with stack := rest, lanemask := x.lanemask ||| e.mask }
          else x
        | [] => x
      q.transfer t w fun j => if firstArm j then nx.getD 0 else J.getD 0

/-- The 64-bit target of slice j in a pair, read from its lowest active lane, and the active lanes that hold another
(R154). -/
def Seat.pairTarget (q : Seat) (a j : Nat) : Nat × List Nat :=
  let v (L : Nat) : Nat := (q.exe.rd64 a L).toNat
  match q.w.active j with
  | [] => (v (4 * j), [])
  | M :: rest => (v M, rest.filter fun L => v L != v M)

/-- The check that a register target fails in slice j: the lanes disagree, or the address is no code address (R147,
R154). -/
def Seat.pairFaultAt (q : Seat) (a j : Nat) : Option Trap :=
  let (v, differ) := q.pairTarget a j
  if !differ.isEmpty then some { cause := 9, arg0 := j, arg1 := maskOf differ }
  else if 2 ^ 48 ≤ v ∨ v % 4 ≠ 0 then some { cause := 0xA, arg0 := v }
  else none

/-- The first slice's failing check. -/
def Seat.pairFault (q : Seat) (a : Nat) : Option Trap := q.g.slices.findSome? (q.pairFaultAt a)

/-- BRX of a scalar agent: s(a):s(a+1) (R154). -/
def scalarTarget (x : Scalar) (a : Nat) : Except Trap (BitVec 48) :=
  let v := (Exe.rd64 (.scal x) a 0).toNat
  if 2 ^ 48 ≤ v ∨ v % 4 ≠ 0 then .error { cause := 0xA, arg0 := v } else .ok (BitVec.ofNat 48 v)

/-- BRX (R154, R358). -/
def execBrx (a : RegCode) (s : State) : Out :=
  issue (.brx a) s
    (fun q t =>
      match q.pairFault a.toNat with
      | some tr => .trap tr
      | none => q.transfer t q.w fun j => t.forward q.w.wg (BitVec.ofNat 48 (q.pairTarget a.toNat j).1))
    (fun c t =>
      match scalarTarget c.x a.toNat with
      | .error tr => .trap tr
      | .ok p => .jump (t.putCollie { c with x := c.x.goto (t.forward c.wg p) }))
    (fun x t =>
      match scalarTarget x a.toNat with
      | .error tr => .trap tr
      | .ok p => .jump { t with mc := { t.mc with x := x.goto p } })

/-- The effect of a call (R155): every slice's base rises by n, the return address goes to w42:w43 of all four lanes. -/
def Seat.callEff (q : Seat) (s : State) (n : Nat) (dest : Nat → BitVec 48) : Eff :=
  let g := s.wg q.w.wg
  if q.g.slices.any (fun j => q.w.overflows g.privB g.sliceB j n) then .trap { cause := 5 }
  else
    let ret := q.pc + 4
    let w1 := q.g.slices.foldl (fun w j => w.raiseBase s.sched.free j n) q.w
    let all := q.g.slices.flatMap lanesOf
    let w2 := (w1.write 42 (all.map fun L => (L, ret.setWidth 32))).write 43
      (all.map fun L => (L, (ret >>> 32).setWidth 32))
    let spills := q.g.slices.any fun j => decide ((q.w.slice j).lo < (w1.slice j).lo)
    q.transfer s w2 dest .none spills

/-- CALL (R155). -/
def execCall (n : BitVec 6) (off : BitVec 18) (s : State) : Out :=
  simtWord (.call n off) s fun q t =>
    match target q.pc off.toInt with
    | none => .trap { cause := 0xB }
    | some p => q.callEff t n.toNat fun _ => p

/-- CALLI (R155): the targets of all slices are checked before any slice's spill. DESIGN CHOICE (log entry 136). -/
def execCalli (n a : RegCode) (s : State) : Out :=
  simtWord (.calli n a) s fun q t =>
    match q.pairFault a.toNat with
    | some tr => .trap tr
    | none => q.callEff t n.toNat fun j => t.forward q.w.wg (BitVec.ofNat 48 (q.pairTarget a.toNat j).1)

/-- The check that RET fails in slice j, in the order of R156. -/
def Seat.retFault (q : Seat) (n j : Nat) : Option Trap :=
  let (v, differ) := q.pairTarget 42 j
  if !differ.isEmpty then some { cause := 9, arg0 := j, arg1 := maskOf differ }
  else if 2 ^ 48 ≤ v then some { cause := 0xA, arg0 := v }
  else if (q.w.slice j).base < n then some { cause := 6, arg0 := (q.w.slice j).base, arg1 := n }
  else if v % 4 ≠ 0 then some { cause := 0xA, arg0 := v }
  else none

/-- RET (R156). -/
def execRet (n : BitVec 6) (s : State) : Out :=
  simtWord (.ret n) s fun q t =>
    match q.g.slices.findSome? (q.retFault n.toNat) with
    | some tr => .trap tr
    | none =>
      let w := q.g.slices.foldl (fun w j => w.lowerBase t.sched.free j ((w.slice j).base - n.toNat)) q.w
      let fills := q.g.slices.any fun j => decide ((w.slice j).lo < (q.w.slice j).lo)
      q.transfer t w (fun j => t.forward q.w.wg (BitVec.ofNat 48 (q.pairTarget 42 j).1)) .none fills

/-! ### REGANG -/

/-- The slices a parked gang waits for (R79, R153). -/
def regangSet (w : Warp) (g : Gang) (set : Nat) : List Nat :=
  w.liveSlices.filter fun j => g.slices.contains j || (if set = 0 then true else set.testBit j)

/-- Slice j waits at a REGANG. -/
def Warp.atRegang (w : Warp) (j : Nat) : Bool :=
  w.gangs.any fun g => g.slices.contains j && (match g.park with | .regang _ => true | _ => false)

/-- The first item on which the waiting slices differ from the lowest (R79). -/
def regangMismatch (w : Warp) (js : List Nat) : Option Trap :=
  let l := w.slice (js.headD 0)
  let bad (item : Nat) (p : Nat → Bool) : Option Trap :=
    if js.any p then some { cause := 7, detail := item, arg0 := l.pc.toNat, arg1 := maskOf (js.filter p) } else none
  ((bad 1 fun j => (w.slice j).pc != l.pc).orElse fun _ => bad 2 fun j => (w.slice j).base != l.base).orElse fun _ =>
    bad 3 fun j => (w.slice j).mode != l.mode

/-- The listed slices become one gang that goes on at pc + 4; slices outside keep their gangs (R79). The new gang has the
earliest boost of the merged gangs. DEDUCED (log entry 124). -/
def Warp.merge (w : Warp) (js : List Nat) : Warp :=
  let from_ := w.gangs.filter fun g => g.slices.any js.contains
  let rest := (w.gangs.map fun g => { g with slices := g.slices.filter fun j => !js.contains j }).filter
    fun g => !g.slices.isEmpty
  let starv := from_.foldl (fun m g => max m g.starv) 0
  let boost := from_.foldl (fun b g =>
    match b, g.boost with
    | some x, some y => some (min x y)
    | none, y => y
    | x, none => x) none
  { (w.mapSlices js fun _ x => { x with pc := x.pc + 4 }) with
    gangs := rest ++ [{ slices := js, starv := starv, boost := boost }] }

/-- A gang parked at REGANG whose named slices all wait: it merges, or the mismatch is raised for the arriving gang's word
(R79). -/
def State.tryRegang (s : State) (core slot lead : Nat) (arriving : Option Seat) : State :=
  match s.seat core slot lead with
  | none => s
  | some q =>
    match q.g.park with
    | .regang set =>
      let js := regangSet q.w q.g set
      if js.all q.w.atRegang then
        match regangMismatch q.w js with
        | some t => s.raiseAt (arriving.getD q) t
        | none => s.putWarp (q.w.merge js)
      else s
    | _ => s

/-- Every gang of a warp parked at REGANG is tried, the given one first and the others in the warp's order; arriving is the
gang that has just reached its REGANG (R79), none where a slice has ended. DEDUCED (log entry 115). -/
def State.settleRegang (s : State) (core slot lead : Nat) (arriving : Option Seat := none) : State :=
  let t := s.tryRegang core slot lead arriving
  match t.findWarp core slot with
  | none => t
  | some w => (w.gangs.map fun g => g.slices.headD 0).foldl (fun u l => u.tryRegang core slot l arriving) t

/-- REGANG (R153, R79). -/
def execRegang (slices : BitVec 16) (s : State) : Out :=
  simtWord (.regang slices) s fun q t =>
    let g := { q.g with run := none, park := .regang slices.toNat }
    .jump ((t.putSeat { q with g := g }).settleRegang q.w.core q.w.slot q.lead (some q))

/-! ### Waiting and ending -/

/-- YIELD (R157). -/
def execYield (off : BitVec 20) (s : State) : Out :=
  simtWord (.yield off) s fun q t =>
    match target q.pc off.toInt with
    | none => .trap { cause := 0xB }
    | some p => q.transfer t q.w (fun _ => p) (.yield p t.sched.now (sparseGet 0 t.sched.starts q.w.core))

/-- The barrier a gang is parked at by YIELD.B. -/
def Gang.yieldBar (g : Gang) : Option Nat :=
  match g.park with
  | .yieldB b _ _ => some b
  | _ => none

/-- YIELD.B (R158, R246): the slices mark and the gang parks; the last slice of a warp to park at different barriers
raises BARRIER-SPLIT. Where the last other slice ends instead of parking, nothing is raised. DEDUCED (log entry 126). -/
def execYieldB (b : BitVec 4) (off : BitVec 20) (s : State) : Out :=
  simtWord (.yieldB b off) s fun q t =>
    match target q.pc off.toInt with
    | none => .trap { cause := 0xB }
    | some p =>
      let bars := (t.wg q.w.wg).bars
      if bars.length ≤ b.toNat then .trap { cause := 0xC, arg0 := b.toNat }
      else
        let others := q.w.gangs.filter fun g => g.slices.head? != some q.lead
        let differ := others.filter fun g => g.yieldBar != some b.toNat
        if others.all (fun g => g.yieldBar.isSome) && !differ.isEmpty then
          .trap { cause := 0xD
                  arg0 := maskOf (b.toNat :: others.filterMap (·.yieldBar))
                  arg1 := maskOf (differ.flatMap (·.slices)) }
        else
          let park := Park.yieldB b.toNat p (bars.getD b.toNat default).phase
          match q.transfer t q.w (fun _ => p) park with
          | .jump u => .jump (u.mark q.w q.g.slices b.toNat)
          | e => e

/-- A slice left without active lanes pops its stack, entries without lanes too, or ends (R82, R162). -/
def Slice.settleLanes (y : Slice) : Slice :=
  if y.lanemask ≠ 0 then y
  else
    match y.stack.dropWhile fun e => e.mask == 0 with
    | e :: rest => { y with pc := e.pc, lanemask := e.mask, stack := rest }
    | [] => { y with live := false, frames := [] }

/-- A slice after the listed lanes of it have ended (R82, R162): a slice left without lanes pops its stack or ends. nx is
the next word. Lanes that end inside a handler end in the callers' frames too. DEDUCED (log entry 115). -/
def Slice.endLanes (x : Slice) (m : BitVec 4) (nx : BitVec 48) : Slice :=
  let frames := x.frames.map fun f =>
    { f with lanemask := f.lanemask &&& ~~~ m, stack := f.stack.map fun e => { e with mask := e.mask &&& ~~~ m } }
  { x with lanemask := x.lanemask &&& ~~~ m, frames := frames, pc := nx }.settleLanes

/-- Slices of a warp have ended: the barriers at which its other slices have marked and its REGANG sets are looked at again
(R79, R246). -/
def State.endedSlices (s : State) (w : Warp) (core slot : Nat) : State :=
  match (s.recheckBarriers w).findWarp core slot with
  | some v => (s.recheckBarriers w).settleRegang core slot ((v.gangs.map fun g => g.slices.headD 0).headD 0)
  | none => s.recheckBarriers w

/-- The results of ended slices are discarded (R162). -/
def Warp.dropPending (w : Warp) : Warp :=
  let kept := w.pend.map fun p => { p with slices := p.slices.filter fun j => (w.slice j).live }
  { w with pend := kept.filter fun p => !p.slices.isEmpty || w.claims.any fun c => c.id == p.id }

end Sys2Proof.Machine
end

