-- ==== Sys2Proof/Machine/Access.lean ====
section
/-!
DEFINITION. Accesses in flight on LS and FB (R166, R167, R170 to R177, R391): how each is held back by program order and
tickets, how it is performed, and how it ends when it leaves for another device (R374 to R376).
-/
namespace Sys2Proof.Machine

/-- The new value of an atomic on size bytes, or none where a compare-and-swap fails and writes nothing (R176). -/
def atomNew (op size old v1 v2 : Nat) : Option Nat :=
  let n := 8 * size
  let m := 2 ^ n
  match op with
  | 0 => some ((old + v1) % m)
  | 1 => some (if sext v1 n < sext old n then v1 % m else old)
  | 2 => some (if sext old n < sext v1 n then v1 % m else old)
  | 3 => some (min old (v1 % m))
  | 4 => some (max old (v1 % m))
  | 5 => some (old &&& v1 % m)
  | 6 => some (old ||| v1 % m)
  | 7 => some (Nat.xor old (v1 % m))
  | 8 => some (v1 % m)
  | 9 => if old = v1 % m then some (v2 % m) else none
  | _ => some (FloatFmt.f32.fadd ⟨0, false, false⟩ old v1 % m)

/-- The core of an agent; the controller has none. -/
def agentCore : Agent → Nat
  | .gang c _ _ => c
  | .collie c _ => c
  | .mc => 0xFFFF
/-- The warp slot a report names (R211); a Collie thread has none. -/
def agentSlot : Agent → Nat
  | .gang _ sl _ => sl
  | _ => 80

/-- The slice of a gang's access; a scalar agent is one slice. -/
def agentSlice : Agent → Nat
  | .gang _ _ j => j
  | _ => 0

/-- Where an access lands: its memory key, when its address translates. -/
def State.spot (s : State) (a : Access) : Option Nat :=
  if a.global then
    match s.walk (agentCore a.who) a.part a.ctx a.addr 0 with
    | .ok (pa, _) => some pa
    | .error _ => none
  else some a.addr

/-- Two accesses touch a common byte. -/
def State.overlap (s : State) (a b : Access) : Bool :=
  (a.global == b.global && (!a.global || (a.part == b.part && a.ctx == b.ctx)) && meets a.addr a.size b.addr b.size)
    || (match s.spot a, s.spot b with
      | some x, some y => meets x a.size y b.size
      | _, _ => false)

/-- The earlier accesses of its slice or of its word that meet an access (R167, R175, R176). -/
def State.before (s : State) (a : Access) : List Access :=
  (s.mem.access.takeWhile fun b => b.id != a.id).filter fun b =>
    ((b.who == a.who && b.wg == a.wg) || b.word == a.word) && b.note.isSome == a.note.isSome && s.overlap a b

/-- An access that may not be performed yet: an earlier one of its slice or of its word meets it (R167, R175, R176), or
its ticket's turn has not come (R177). -/
def State.blocked (s : State) (a : Access) : Bool :=
  !(s.before a).isEmpty
    || (match a.seqr, a.ticket with
      | none, _ => false
      | some _, none => true
      | some q, some n => s.mem.access.any fun b =>
          b.seqr == some q && (match b.ticket with | some m => decide (m < n) | none => false))

/-- The state without an access, which took effect at a moment; the barriers it preceded are looked at again (R200). -/
def State.dropAccess (s : State) (a : Access) (moment : Nat := 0) : State :=
  let t := s.withMem { s.mem with access := s.mem.access.filter fun b => b.id != a.id }
  t.settleBarriers a.wg a.id moment

/-- An access replaced. -/
def State.putAccess (s : State) (a : Access) : State :=
  s.withMem { s.mem with access := s.mem.access.map fun b => if b.id = a.id then a else b }

/-- The 32-bit words of a value, lowest first. -/
def wordsOf (n v : Nat) : List (BitVec 32) := (List.range n).map fun k => BitVec.ofNat 32 (v / 2 ^ (32 * k))

/-- A loaded value takes its places in a pending result (R34, R166). -/
def Pending.arrive (p : Pending) (id lane v : Nat) : Pending :=
  if p.id ≠ id then p
  else
    match p.lanes.find? fun e => e.1 == lane with
    | none => p
    | some (_, ds) =>
      { p with writes := p.writes ++ ds.zip (wordsOf ds.length v), lanes := p.lanes.filter fun e => e.1 != lane }

/-- A loaded value takes its place in a queue entry (R170). -/
def QEntry.arrive (e : QEntry) (id lane v : Nat) : QEntry :=
  if e.id ≠ id then e
  else
    { e with
      data := sparseSetAll 0 e.data ((wordsOf e.width v).mapIdx fun k x => (4 * lane + k, x))
      waiting := e.waiting.filter fun L => L != lane }

/-- The n bytes from byte b on of the skeins from k upward replaced (R265). -/
def skeinBytes (ks : Sparse (BitVec 512)) (k b n v : Nat) : Sparse (BitVec 512) :=
  (List.range n).foldl (fun t i =>
    let x := k + (b + i) / 64
    sparseSet 0 t x (BitVec.ofNat 512 (setField (sparseGet 0 t x).toNat (8 * ((b + i) % 64)) 8 (field v (8 * i) 8)))) ks

/-- A loaded value reaches a warp. valid says whether a capability loaded so is valid (R188). -/
def Warp.take (w : Warp) (ret : LoadRet) (v : Nat) (valid : Bool) : Warp :=
  match ret with
  | .queue q e L =>
    if q = 0 then { w with q0 := w.q0.map fun x => x.arrive e L v } else { w with q1 := w.q1.map fun x => x.arrive e L v }
  | .pend id L => { w with pend := w.pend.map fun p => p.arrive id L v }
  | .cap d => { w with c := sparseSet {} w.c d { bits := BitVec.ofNat 128 v, valid := valid } }
  | .skein k b n =>
    let pairs := [(k + b / 64) / 2, (k + (b + n - 1) / 64) / 2]
    { w with k := skeinBytes w.k k b n v, geo := { w.geo with counts := sparseSetAll 0 w.geo.counts (pairs.map fun j => (j, 0)) } }

/-- A loaded value reaches a scalar agent. -/
def Scalar.take (x : Scalar) (ret : LoadRet) (v : Nat) : Scalar :=
  match ret with
  | .pend id L => { x with pend := x.pend.map fun p => p.arrive id L v }
  | _ => x

/-- A loaded value reaches the agent that issued the load; an agent that has ended takes nothing. -/
def State.deliver (s : State) (who : Agent) (ret : LoadRet) (v : Nat) (valid : Bool := false) : State :=
  match who with
  | .gang core slot _ =>
    (match s.findWarp core slot with
    | none => s
    | some w => s.putWarp (w.take ret v valid))
  | .collie core thread =>
    (match s.findCollie core thread with
    | none => s
    | some c =>
      match ret with
      | .cap d => s.putCollie { c with c := sparseSet {} c.c d { bits := BitVec.ofNat 128 v, valid := valid } }
      | _ => s.putCollie { c with x := c.x.take ret v })
  | .mc => { s with mc := { s.mc with x := s.mc.x.take ret v } }

/-- Whether an agent's loads may read from the held writes of its task: a warp's may (R202). -/
def warpAgent : Agent → Bool
  | .gang _ _ _ => true
  | _ => false

/-- Bytes read at physical address pa with a task's held writes over them (R202). -/
def Workgroup.overlay (g : Workgroup) (pa : Nat) (bs : List (BitVec 8)) : List (BitVec 8) :=
  if g.versionOpen then
    bs.mapIdx fun i b =>
      g.held.foldl (fun x h => if h.pa ≤ pa + i ∧ pa + i < h.pa + h.size then BitVec.ofNat 8 (h.data / 2 ^ (8 * (pa + i - h.pa))) else x) b
  else bs

/-- The value of n bytes at physical address pa at this moment, with a task's held writes over it (R202). -/
def State.readHeld (s : State) (uid o pa n : Nat) : Nat := natOf ((s.wg uid).overlay pa (s.mem.bytes o pa n))

/-- The tag of the 16-byte unit at pa with a task's held writes over it (R169, R202). -/
def State.tagHeld (s : State) (uid o pa : Nat) : Bool :=
  let g := s.wg uid
  if g.versionOpen then
    g.held.foldl (fun t h => if meets h.pa h.size (16 * (pa / 16)) 16 then h.tag.getD false else t) (s.mem.tag o pa)
  else s.mem.tag o pa

/-- A task has made n writes outside its version (R211). -/
def State.noteWrite (s : State) (uid n : Nat) : State :=
  if n = 0 then s else s.putWg { s.wg uid with nonVersioned := true }

/-- The lines a version is charged for, with one more (R216). -/
def chargeLine (lines : List Nat) (l : Nat) : List Nat := if lines.contains l then lines else lines ++ [l]

/-- A unit of a copy or of a tile word has been written at a moment, which a carrier will order (R200). -/
def State.unitDone (s : State) (id moment : Nat) : State :=
  { s with
    copies := s.copies.map fun c => if c.id = id then { c with high := max c.high moment } else c
    pillows := { s.pillows with ops := s.pillows.ops.map fun o => if o.id = id then { o with high := max o.high moment } else o } }

/-- Bytes written by an access at a key; the later events of its agent follow the write where a fence orders them (R197), and a
REL is remembered with what it covers (R199). -/
def State.publish (s : State) (a : Access) (k : Nat) (bs : List (BitVec 8)) : State :=
  let m := s.mem.publish a.place a.owner k bs (if a.global then some a.addr else none)
  let rel : List Release := match a.rel with
    | some (scope, high) => [⟨k, m.clock, high, scope, a.place⟩]
    | none => []
  let t := s.withMem { m with releases := m.releases ++ rel }
  match a.note, a.act with
  | some (_, id), .store _ _ _ => t.unitDone id m.clock
  | some _, _ => t
  | none, _ => t.mapView a.who fun v => v.noteWrite m.clock

/-- A store that joins its task's open version (R183, R202). -/
def State.joins (s : State) (a : Access) : Bool := a.act.joins (s.wg a.wg)

/-- A store performed at a key: into the version while it is open, its line charged (R183, R202, R216), else into memory; a
CSTC sets the tag (R169, R188). -/
def State.store (s : State) (a : Access) (k data : Nat) (tag : Option Bool) (versioned : Bool) : State :=
  let g := s.wg a.wg
  if versioned && g.versionOpen && !g.irr then
    s.putWg { g with held := g.held ++ [{ pa := k, owner := a.owner, size := a.size, data := data, tag := tag, va := a.addr }]
                     lines := chargeLine g.lines (k / 64) }
  else
    let t := s.publish a k (bytesOf a.size data)
    (match tag with | some b => t.withMem (t.mem.setTag k b) | none => t).noteWrite a.wg (if versioned then 1 else 0)

/-- What a read of a gang or a Collie may find at a key, and the moment at which it then takes effect: it may overlook writes that
no rule orders before it (R193, R206). DESIGN CHOICE (log entry 29). -/
def State.glanceAt (s : State) (a : Access) (k : Nat) : List (BitVec 8) × Nat :=
  let v := s.viewOf a.who
  s.mem.glances (Config.overlooked (2 * a.id)) a.place a.owner (max a.floor (v.seenAt k a.size)) v.floors k a.size

/-- What a read finds that overlooks nothing. -/
def State.presentAt (s : State) (a : Access) (k : Nat) : List (BitVec 8) × Nat :=
  (s.mem.bytes a.owner k a.size, max a.floor (s.mem.lastAt k a.size))

/-- What a load finds; a capability is read as it stands. DESIGN CHOICE (log entry 29). -/
def State.sample (s : State) (a : Access) (ret : LoadRet) (k : Nat) : List (BitVec 8) × Nat :=
  match ret with
  | .cap _ => s.presentAt a k
  | _ => s.glanceAt a k

/-- The old value that an atomic finds: a compare-and-swap that fails is a read, and may overlook what a load may (R190, R205). -/
def State.oldValue (s : State) (a : Access) (k op v1 : Nat) : List (BitVec 8) × Nat :=
  if op = 9 ∧ natOf (s.glanceAt a k).1 ≠ v1 % 2 ^ (8 * a.size) then s.glanceAt a k else s.presentAt a k

/-- The moment that what follows an access of an agent follows: its own, and all that binds it. -/
def State.boundFor (s : State) (a : Access) (moment : Nat) : Nat := max moment (s.viewOf a.who).bound

/-- The agent of an access has read at a moment, and what the value reaches depends on that read (R195). -/
def State.noteRead (s : State) (a : Access) (k moment : Nat) (keys : List Nat) : State :=
  s.mapView a.who fun v => v.noteRead k a.size moment keys

/-- What a load of the controller reads in the message unit's window (R387, R388): the value, and whether the read clears
the failure flag. -/
def Mgmt.windowRead (m : Mgmt) (off : Nat) : Nat × Bool :=
  if off = 0x80000 then (m.rxlen, false)
  else if off = 0x80020 then (if m.mufail then 1 else 0, true)
  else (0, false)

/-- A store of the controller (R387): RX, the chain and the window take none, and a 128-bit store to MUCMD starts a
command. -/
def State.mcStore (s : State) (a : Access) (off data : Nat) : State :=
  if (0x60000 ≤ off ∧ off < 0x64000) ∨ (0x70000 ≤ off ∧ off < 0x80000) then s
  else if off < 0x80000 then s.withMem (s.mem.writeNat 0 (sramKey off) a.size data)
  else if off = 0x80010 ∧ a.size = 16 then
    { s with mgmt := { s.mgmt with
        muq := s.mgmt.muq ++ [⟨a.id, field data 0 32, field data 32 32, field data 64 32, field data 96 32⟩] } }
  else s

/-- A store that starts a command of the message unit (R387). -/
def Access.commands (a : Access) : Bool :=
  a.who == .mc && a.addr == sramKey 0x80010 && a.size == 16 && match a.act with | .store _ _ _ => true | _ => false

/-- A load of MUSYNC waits for the commands stored before it, whether their stores have been performed or not (R388). -/
def State.muWaits (s : State) (a : Access) : Bool :=
  a.who == .mc && a.addr == sramKey 0x80020 &&
    (s.mgmt.muq.any (fun c => decide (c.id < a.id)) || s.mem.access.any fun b => b.commands && decide (b.id < a.id))

/-- An access performed at key k of this device (R166, R170, R174, R176, R188, R387). -/
def State.land (s : State) (a : Access) (k : Nat) : State :=
  let t := s.dropAccess a (s.boundFor a (s.mem.clock + 1))
  let off := k - sramKey 0
  match a.who, a.act with
  | .mc, .load ret =>
    if 0x80000 ≤ off then
      let r := s.mgmt.windowRead off
      let u := t.deliver a.who ret r.1
      if r.2 then { u with mgmt := { u.mgmt with mufail := false } } else u
    else t.deliver a.who ret (s.mem.read 0 k a.size)
  | .mc, .store data _ _ => t.mcStore a off data
  | _, .load ret =>
    let r := s.sample a ret k
    let v := natOf (if a.global && warpAgent a.who then (s.wg a.wg).overlay k r.1 else r.1)
    let tag := if warpAgent a.who then s.tagHeld a.wg a.owner k else s.mem.tag a.owner k
    let o := field v 122 5
    ((s.dropAccess a (s.boundFor a r.2)).deliver a.who ret v (tag && (o == a.part || o == hostShared))).noteRead a k r.2
      (s.retKeys a.who ret)
  | _, .store data tag v =>
    (if s.joins a then s.dropAccess a else t).store a k data tag v
  | _, .atom op v1 v2 ret =>
    let r := s.oldValue a k op v1
    let old := natOf r.1
    let u := match atomNew op a.size old v1 v2 with
      | none => s.dropAccess a (s.boundFor a r.2)
      | some v => (t.publish a k (bytesOf a.size v)).noteWrite a.wg 1
    let moment := if (atomNew op a.size old v1 v2).isSome then u.mem.clock else r.2
    match ret with
    | some r => (u.deliver a.who r old).noteRead a k moment (s.retKeys a.who r)
    | none => if a.note.isSome then u else u.noteRead a k moment []

/-- A trap raised by an access after its word has issued: in its task if the task runs, else a late report of the
context (R210). -/
def State.raiseAccess (s : State) (a : Access) (t : Trap) : State :=
  s.raise a.wg (agentCore a.who) (agentSlot a.who) a.pc a.outer
    { t with lane := a.lane, lead := match a.who with | .gang _ _ j => j | _ => 0 }

/-- A copy writes nothing further (R248). -/
def State.haltCopy (s : State) (c : Copy) : State :=
  let mine (a : Access) : Bool := match a.note with | some (_, id) => id == c.id && a.sent.isNone | none => false
  { s with
    copies := s.copies.map fun (d : Copy) =>
      if d.id = c.id then { d with faulted := true, staged := none, got := [], parked := none } else d
    mem := { s.mem with access := s.mem.access.filter fun a => !mine a } }

/-- A copy faults (R248): its task takes the trap. -/
def State.faultCopy (s : State) (c : Copy) (t : Trap) : State :=
  (s.haltCopy c).raise c.wg c.core 80 c.pc c.outer { t with lane := 0xFF, arg0 := c.seq }

/-- An access to another device ends as failed (R376): loads become zero, the task takes FABRIC-LOST. -/
def State.failAccess (s : State) (a : Access) (dev : Nat) : State :=
  let t := s.dropAccess a
  let u := match a.act with
    | .load ret => t.deliver a.who ret 0
    | .atom _ _ _ (some r) => t.deliver a.who r 0
    | _ => t
  match a.note with
  | none => u.raiseAccess a { cause := 0x63, arg0 := dev, addr := a.addr }
  | some (src, id) =>
    match u.copies.find? fun c => c.id == id && !c.faulted with
    | some c => u.faultCopy c { cause := 0x63, addr := src }
    | none => u

/-- An access leaves for another device when the device's window has room (R375). -/
def State.send (s : State) (a : Access) (pa : Nat) : State :=
  let dev := deviceOf pa
  if s.domain.isLost dev then s.failAccess a dev
  else if s.domain.isFull dev then s
  else (s.spendFlit dev).putAccess { a with sent := some dev, sentPa := pa, sentAt := s.sched.now }

/-- The kind of an access for the fault record (R344): bit 0 read, bit 1 write; and the leaf bits it needs (R342). -/
def AccessAct.kind : AccessAct → Nat
  | .load _ => 1
  | .store _ _ _ => 2
  | .atom _ _ _ _ => 3
def AccessAct.need : AccessAct → Nat
  | .load _ => needR
  | .store _ _ _ => needW
  | .atom _ _ _ _ => needRW

/-- A store that would charge its task's version with one line too many at pa (R216). -/
def State.overQuota (s : State) (a : Access) (pa : Nat) : Bool :=
  let g := s.wg a.wg
  s.joins a && decide (Config.versionQuota ≤ g.lines.length) && !g.lines.contains (pa / 64)

/-- The task waits to become irrevocable (R203, R216). -/
def State.outgrow (s : State) (uid : Nat) : State := s.putWg { s.wg uid with outgrown := true }

/-- A task that a trap of its own or a context fault has ended: its translation faults are discarded (R210). -/
def State.ending (s : State) (uid : Nat) : Bool := (s.wg uid).fault.isSome || (s.wg uid).ended

/-- The value that a load reads early from its own agent's latest earlier store to its bytes, before that store is performed
(R175, R206). -/
def State.ownValue (s : State) (a : Access) : Option (LoadRet × Nat) :=
  match a.act, (s.before a).getLast? with
  | .load ret, some b =>
    (match ret, b.act with
    | .cap _, _ => none
    | _, .store data _ _ =>
      if b.word != a.word && b.global == a.global && a.who != Agent.mc && decide (b.addr ≤ a.addr ∧ a.addr + a.size ≤ b.addr + b.size)
      then some (ret, field data (8 * (a.addr - b.addr)) (8 * a.size)) else none
    | _, _ => none)
  | _, _ => none

/-- A load that may not be performed yet reads its own agent's write early, where it can. DEDUCED (log entry 29). -/
def State.readOwn (s : State) (a : Access) : State :=
  match s.ownValue a with
  | none => s
  | some (ret, v) =>
    if a.global then
      match s.translate (agentCore a.who) a.part a.ctx a.owner a.addr needR with
      | .ok (pa, t) =>
        ((t.dropAccess a (s.boundFor a a.floor)).deliver a.who ret v).noteRead a pa a.floor (s.retKeys a.who ret)
      | .error _ => s
    else ((s.dropAccess a (s.boundFor a a.floor)).deliver a.who ret v).noteRead a a.addr a.floor (s.retKeys a.who ret)

/-- An access is performed, leaves for its device, or parks on a translation fault (R39, R213); one that may not be
performed yet changes nothing, but for a load that reads its own agent's write early. DEDUCED (log entry 29). -/
def State.performAccess (s : State) (id : Nat) : State :=
  match s.mem.access.find? fun a => a.id == id with
  | none => s
  | some a =>
    if a.parked.isSome || a.sent.isSome || s.muWaits a then s
    else if s.blocked a then s.readOwn a
    else if a.global then
      match s.translate (agentCore a.who) a.part a.ctx a.owner a.addr a.act.need with
      | .ok (pa, t) =>
        if t.overQuota a pa then t.outgrow a.wg
        else if isRemote pa && !t.joins a then t.send a pa
        else t.land a pa
      | .error rl =>
        if s.ending a.wg then s.dropAccess a
        else
          (s.noteFault (agentCore a.who) a.part a.ctx a.addr (if a.note.isSome then 1 else 0) a.act.kind rl).putAccess { a with parked := some s.sched.uid }
    else if isRemote a.addr then s.send a a.addr
    else s.land a a.addr

/-- An access that a turn would perform, send or park. -/
def State.performable (s : State) (a : Access) : Bool :=
  a.parked.isNone && a.sent.isNone && !s.muWaits a && !s.blocked a &&
  match s.spot a with
  | some pa => !s.overQuota a pa && !(isRemote pa && s.domain.isFull (deviceOf pa) && !s.domain.isLost (deviceOf pa))
  | none => true

/-- New accesses join those in flight; each takes a number of its own, and the moment that the word's address dependencies
give it (R196). DEDUCED (log entry 28). -/
def State.addAccesses (s : State) (as : List Access) : State :=
  as.foldl (fun t a => { t.nextUid with mem := { t.mem with
    access := t.mem.access ++ [{ a with id := t.sched.uid, floor := sparseGet 0 t.sched.dep (agentSlice a.who) }] } }) s

/-- The accesses in flight of the slices of a gang. -/
def State.gangAccesses (s : State) (core slot : Nat) (sl : List Nat) : List Access :=
  s.mem.access.filter fun a => a.note.isNone && (s.findWarp core slot).map (·.wg) == some a.wg && match a.who with
    | .gang c k j => c == core && k == slot && sl.contains j
    | _ => false

/-- An access that writes. -/
def Access.writes (a : Access) : Bool := match a.act with | .load _ => false | _ => true

end Sys2Proof.Machine
end

