-- ==== Sys2Proof/Machine/Memory.lean ====
section
/-!
DEFINITION. The instructions of majors 0x80 to 0x8D: the on-chip levels, the decoupling queues and the atomics (R164 to
R177, R387, R388), and the checks that they share with the rest of the memory group (R164, R166, R169, R390).
-/
namespace Sys2Proof.Machine

/-! ### Capabilities (R168) -/

def Cap.base (c : Cap) : Nat := field c.bits.toNat 0 56
def Cap.length (c : Cap) : Nat := field c.bits.toNat 56 44
def Cap.objid (c : Cap) : Nat := field c.bits.toNat 100 16
/-- R, W, X, V, B in bits 4 to 0. -/
def Cap.perms (c : Cap) : Nat := field c.bits.toNat 117 5
def Cap.owner (c : Cap) : Nat := field c.bits.toNat 122 5
def Cap.sealed (c : Cap) : Bool := c.bits.getLsbD 127
def Cap.versioned (c : Cap) : Bool := c.bits.getLsbD 118
/-- A sealing key (R168). -/
def Cap.isKey (c : Cap) : Bool := c.valid && !c.sealed && c.length == 0 && c.objid != 0
/-- The capability with some fields replaced. -/
def Cap.put (c : Cap) (lo n v : Nat) : Cap := { c with bits := BitVec.ofNat 128 (setField c.bits.toNat lo n v) }

abbrev permR : Nat := 16
abbrev permW : Nat := 8
abbrev permV : Nat := 2
abbrev permB : Nat := 1

/-- The first lane of a list that fails a test. -/
def failing (offs : List (Nat × Nat)) (p : Nat → Bool) : Option (Nat × Nat) := offs.find? fun e => p e.2

/-- The checks of R169 for capability number k at the given lanes and offsets: the first failing check, at its lowest
lane (R164, R390). ctx is the context's owner tag. -/
def capFault (c : Cap) (k ctx need size : Nat) (offs : List (Nat × Nat)) : Option Trap :=
  match offs with
  | [] => none
  | (L, _) :: _ =>
    if !c.valid then some { cause := 0x13, lane := L, arg0 := k }
    else if c.sealed then some { cause := 0x14, lane := L, arg0 := k }
    else if c.perms &&& need ≠ need then some { cause := 0x12, lane := L, arg0 := k, arg1 := need }
    else
      match failing offs fun o => decide (c.length < o + size) with
      | some (M, o) => some { cause := 0x10, lane := M, addr := o, arg0 := k }
      | none =>
        match failing offs fun o => o % size != 0 with
        | some (M, o) => some { cause := 0x11, lane := M, addr := o }
        | none => if c.owner != ctx && c.owner != hostShared then some { cause := 0x15, lane := L, arg0 := k } else none

/-! ### The four levels (R165, R166) -/

/-- The key of byte off of a list of scratchpad rows. -/
def rowKey (core : Nat) (rows : List Nat) (off : Nat) : Nat := padKey core (256 * rows.getD (off / 256) 0 + off % 256)

/-- The offset limit of a level for a workgroup (R165). -/
def State.levelLimit (s : State) (g : Workgroup) (lvl : Nat) : Nat :=
  match lvl with
  | 0 => g.privB
  | 1 => g.groupB
  | 2 => s.layout.windowSize g.part g.core
  | _ => s.layout.dieSize g.part (dieOf g.core)

/-- The memory key of byte off of a level; lane is the lane's number in the workgroup, for the lane-private slices. -/
def State.levelKey (s : State) (g : Workgroup) (lvl lane off : Nat) : Nat :=
  match lvl with
  | 0 => rowKey g.core g.privRows (lane * g.sliceB + off)
  | 1 => rowKey g.core g.rows off
  | 2 => s.layout.windowKey g.part g.core (s.layout.reserve g.part g.core + off)
  | _ => dieKey (dieOf g.core) (65536 * (s.layout.dieShare g.part (dieOf g.core)).off + off)

/-- The checks of R166 at a level: the bounds of every lane, then the alignment of every lane. -/
def levelFault (lvl limit size : Nat) (offs : List (Nat × Nat)) : Option Trap :=
  match failing offs fun o => decide (limit < o + size) with
  | some (M, o) => some { cause := 0x10, lane := M, addr := o, arg0 := 0x100 + lvl }
  | none => (failing offs fun o => o % size != 0).map fun e => { cause := 0x11, lane := e.1, addr := e.2 }

/-- Bytes of an access of width code wd. -/
def widthBytes (wd : Nat) : Nat := 4 * 2 ^ wd

/-- Where the words of a load land, lane by lane (R25, R166). -/
def Warp.loadDests (w : Warp) (lanes : List Nat) (d n : Nat) : List (Nat × List Dest) :=
  lanes.mapIdx fun i L => (L, if d < 52 ∨ i = 0 then (List.range n).filterMap fun k => w.dest (d + k) L else [])

/-- An access by a lane of a gang, of a Collie thread, of the controller. -/
def Seat.access (q : Seat) (g : Workgroup) (word L addr size : Nat) (act : AccessAct) : Access :=
  { id := 0, who := .gang q.w.core q.w.slot (L / 4), word := word, pc := q.pc, lane := L, wg := g.uid, part := g.part
    ctx := g.ctx, owner := g.part, global := false, addr := addr, size := size, act := act, outer := q.outer }
def Collie.access (c : Collie) (g : Workgroup) (word addr size : Nat) (act : AccessAct) : Access :=
  { id := 0, who := .collie c.core c.thread, word := word, pc := c.x.pc, lane := 0xFF, wg := g.uid, part := g.part
    ctx := g.ctx, owner := g.part, global := false, addr := addr, size := size, act := act, outer := c.frame.map (·.epc) }
def mcAccess (x : Scalar) (word addr size : Nat) (act : AccessAct) : Access :=
  { id := 0, who := .mc, word := word, pc := x.pc, lane := 0xFF, wg := 0, part := 0, ctx := 0, owner := 0
    global := false, addr := addr, size := size, act := act }

/-- The controller's level 1 ends with the message unit's window (R387). -/
abbrev mcLimit : Nat := 0x80040

/-- Offsets of the executing lanes: the sum of two 32-bit naturals (R166). -/
def Exe.offsets (x : Exe) (a b : Nat) : List (Nat × Nat) :=
  x.lanes.map fun L => (L, (x.rd a L).toNat + (x.rd b L).toNat)

/-- A pending result for a load into the group of n registers from d. -/
def Scalar.pendLoad (x : Scalar) (id d n : Nat) (run : Bool) : Scalar :=
  let codes := if d = 60 then [] else List.range' d n
  { x with pend := x.pend ++ [{ id := id, slices := [0]
                                names := if codes.isEmpty then [.z] else scalarNames codes, writes := []
                                lanes := if run then [(0, codes.map .scalar)] else [] }] }
def Seat.pendLoad (q : Seat) (id d n : Nat) : Warp :=
  let ns := q.w.namesOf q.g.slices (if d = 60 then [] else List.range' d n)
  { q.w with pend := q.w.pend ++ [{ id := id, slices := q.g.slices, names := if ns.isEmpty then [.z] else ns, writes := []
                                    lanes := q.w.loadDests q.exe.lanes d n }] }

/-- A load from an on-chip level (R166). -/
def loadWord (i : Instr) (lvl d a b look wd : Nat) (s : State) : Out :=
  let size := widthBytes wd
  let n := 2 ^ wd
  issue i s
    (fun q t =>
      let g := t.wg q.w.wg
      let offs := q.exe.offsets a b
      match levelFault lvl (t.levelLimit g lvl) size offs with
      | some tr => .trap tr
      | none =>
        let id := t.sched.uid
        let accs := offs.map fun e =>
          q.access g id e.1 (t.levelKey g lvl (q.w.lid e.1) e.2) size (.load (.pend id e.1))
        .long ((t.putWarp (q.pendLoad id d n)).nextUid.addAccesses accs) id look)
    (fun c t =>
      let g := t.wg c.wg
      let offs := (Exe.scal c.x).offsets a b
      match levelFault lvl (t.levelLimit g lvl) size offs with
      | some tr => .trap tr
      | none =>
        let id := t.sched.uid
        let accs := offs.map fun e => c.access g id (t.levelKey g lvl 0 e.2) size (.load (.pend id 0))
        .long ((t.putCollie { c with x := c.x.pendLoad id d n (!offs.isEmpty) }).nextUid.addAccesses accs) id look)
    (fun x t =>
      let offs := (Exe.scal x).offsets a b
      match levelFault lvl mcLimit size offs with
      | some tr => .trap tr
      | none =>
        let id := t.sched.uid
        let accs := offs.map fun e => mcAccess x id (sramKey e.2) size (.load (.pend id 0))
        .long (({ t with mc := { t.mc with x := x.pendLoad id d n (!offs.isEmpty) } }).nextUid.addAccesses accs) id look)

/-- A store to an on-chip level (R166, R167, R391): the data are read at issue. -/
def storeWord (i : Instr) (lvl d a b wd : Nat) (s : State) : Out :=
  let size := widthBytes wd
  issue i s
    (fun q t =>
      let g := t.wg q.w.wg
      let offs := q.exe.offsets a b
      match levelFault lvl (t.levelLimit g lvl) size offs with
      | some tr => .trap tr
      | none =>
        let accs := offs.map fun e =>
          q.access g t.sched.uid e.1 (t.levelKey g lvl (q.w.lid e.1) e.2) size
            (.store (q.exe.rdGroup wd d e.1) none false)
        .done ((t.noteWrite g.uid accs.length).nextUid.addAccesses accs))
    (fun c t =>
      let g := t.wg c.wg
      let offs := (Exe.scal c.x).offsets a b
      match levelFault lvl (t.levelLimit g lvl) size offs with
      | some tr => .trap tr
      | none =>
        let accs := offs.map fun e => c.access g t.sched.uid (t.levelKey g lvl 0 e.2) size
          (.store ((Exe.scal c.x).rdGroup wd d 0) none false)
        .done ((t.noteWrite g.uid accs.length).nextUid.addAccesses accs))
    (fun x t =>
      let offs := (Exe.scal x).offsets a b
      match levelFault lvl mcLimit size offs with
      | some tr => .trap tr
      | none =>
        let accs := offs.map fun e => mcAccess x t.sched.uid (sramKey e.2) size
          (.store ((Exe.scal x).rdGroup wd d 0) none false)
        .done (t.nextUid.addAccesses accs))

/-- LDL, STL (R165, R166). -/
def execLdl (d a b : RegCode) (look : BitVec 4) (wd : BitVec 2) (s : State) : Out :=
  loadWord (.ldl d a b look wd) 0 d.toNat a.toNat b.toNat look.toNat wd.toNat s
def execStl (d a b : RegCode) (wd : BitVec 2) (s : State) : Out :=
  storeWord (.stl d a b wd) 0 d.toNat a.toNat b.toNat wd.toNat s
/-- LDS, STS (R165, R166, R233, R387). -/
def execLds (d a b : RegCode) (look : BitVec 4) (wd : BitVec 2) (s : State) : Out :=
  loadWord (.lds d a b look wd) 1 d.toNat a.toNat b.toNat look.toNat wd.toNat s
def execSts (d a b : RegCode) (wd : BitVec 2) (s : State) : Out :=
  storeWord (.sts d a b wd) 1 d.toNat a.toNat b.toNat wd.toNat s
/-- LDC, STC (R165, R166, R370). DEDUCED (log entry 113). -/
def execLdc (d a b : RegCode) (look : BitVec 4) (wd : BitVec 2) (s : State) : Out :=
  loadWord (.ldc d a b look wd) 2 d.toNat a.toNat b.toNat look.toNat wd.toNat s
def execStc (d a b : RegCode) (wd : BitVec 2) (s : State) : Out :=
  storeWord (.stc d a b wd) 2 d.toNat a.toNat b.toNat wd.toNat s
/-- LDD, STD (R165, R166). -/
def execLdd (d a b : RegCode) (look : BitVec 4) (wd : BitVec 2) (s : State) : Out :=
  loadWord (.ldd d a b look wd) 3 d.toNat a.toNat b.toNat look.toNat wd.toNat s
def execStd (d a b : RegCode) (wd : BitVec 2) (s : State) : Out :=
  storeWord (.std d a b wd) 3 d.toNat a.toNat b.toNat wd.toNat s

/-! ### The queues (R170 to R174) -/

/-- The offsets of GLQ and GSQ: 32 bits, or a 64-bit pair (R170). DEDUCED (log entry 27). -/
def Exe.globalOffsets (x : Exe) (a : Nat) (wide : BitVec 1) : List (Nat × Nat) :=
  x.lanes.map fun L => (L, if wide = 1 then (x.rd64 a L).toNat else (x.rd a L).toNat)

/-- A global access of a gang through a capability (R169). -/
def Seat.globalAccess (q : Seat) (g : Workgroup) (cap : Cap) (word L off size : Nat) (act : AccessAct) : Access :=
  { q.access g word L ((cap.base + off) % 2 ^ 56) size act with global := true, owner := cap.owner }

def Warp.queue (w : Warp) (q : Nat) : List QEntry := if q = 0 then w.q0 else w.q1
def Warp.setQueue (w : Warp) (q : Nat) (l : List QEntry) : Warp :=
  if q = 0 then { w with q0 := l } else { w with q1 := l }
def Warp.cap (w : Warp) (k : Nat) : Cap := sparseGet {} w.c k

/-- GLQ (R170, R171). -/
def execGlq (qn : BitVec 1) (wd : BitVec 2) (c : BitVec 4) (a : RegCode) (x : BitVec 1) (s : State) : Out :=
  simtWord (.glq qn wd c a x) s fun q t =>
    let g := t.wg q.w.wg
    let size := widthBytes wd.toNat
    let cap := q.w.cap c.toNat
    let offs := q.exe.globalOffsets a.toNat x
    match capFault cap c.toNat g.part permR size offs with
    | some tr => .trap tr
    | none =>
      let es := q.w.queue qn.toNat
      if Config.queueEntries ≤ es.length then .trap { cause := 0x17, arg0 := qn.toNat, arg1 := es.length }
      else
        let id := t.sched.uid
        let lanes := offs.map (·.1)
        let e : QEntry := { id := id, width := 2 ^ wd.toNat, mask := BitVec.ofNat 64 (maskOf lanes), data := [], waiting := lanes }
        let accs := offs.map fun o => q.globalAccess g cap id o.1 o.2 size (.load (.queue qn.toNat id o.1))
        .done ((t.putWarp (q.w.setQueue qn.toNat (es ++ [e]))).nextUid.addAccesses accs)

/-- WAITQ (R172). -/
def execWaitq (qn : BitVec 1) (n : BitVec 5) (s : State) : Out :=
  simtWord (.waitq qn n) s fun q t =>
    let es := q.w.queue qn.toNat
    if es.length < n.toNat then .trap { cause := 0x18, arg0 := qn.toNat, arg1 := es.length }
    else if (es.take n.toNat).any fun e => !e.waiting.isEmpty then .stay t
    else .done (t.putWarp (if qn = 0 then { q.w with cover0 := n.toNat } else { q.w with cover1 := n.toNat }))

/-- The value of a queue entry's lane as a number. -/
def QEntry.value (e : QEntry) (L : Nat) : Nat :=
  ((List.range e.width).map fun k => (sparseGet 0 e.data (4 * L + k)).toNat * 2 ^ (32 * k)).sum

/-- POPQ (R173). DEDUCED (log entry 26). -/
def execPopq (qn : BitVec 1) (wd : BitVec 2) (d : RegCode) (s : State) : Out :=
  simtWord (.popq qn wd d) s fun q t =>
    match q.w.queue qn.toNat with
    | [] => .trap { cause := 0x18, arg0 := qn.toNat }
    | e :: rest =>
      if !e.waiting.isEmpty then .stay t
      else if e.width ≠ 2 ^ wd.toNat then .trap { cause := 0x19, arg0 := qn.toNat, arg1 := e.width.log2 }
      else
        let w := q.w.setQueue qn.toNat rest
        let w := if qn = 0 then { w with cover0 := w.cover0 - 1 } else { w with cover1 := w.cover1 - 1 }
        let lanes := q.exe.lanes.filter fun L => e.mask.getLsbD L
        let x := (Exe.simt w q.g.slices).wrGroup wd.toNat d.toNat (lanes.map fun L => (L, e.value L))
        .done (t.putWarp (x.warpOf w))

/-- The lines of 64 bytes that ranges of bytes touch. -/
def linesOf (rs : List (Nat × Nat)) : List Nat := (rs.flatMap fun r => unitsOf 64 r.1 r.2).dedup

/-- The physical lines that writes to ranges of virtual addresses reach; a line whose address does not translate charges
nothing until its write is retried (R216). -/
def State.linesAt (s : State) (core : Nat) (g : Workgroup) (o : Nat) (ranges : List (Nat × Nat)) : List Nat :=
  ((linesOf ranges).filterMap fun l =>
    match s.translate core g.part g.ctx o (64 * l) needW with
    | .ok (pa, _) => some (pa / 64)
    | .error _ => none).dedup

/-- A write to the given ranges through a capability (R183, R216): the state in which the lines it newly touches are
charged and it may issue, or none where it must wait for the version's commit. DEDUCED (log entry 45). -/
def State.charge (s : State) (uid core : Nat) (cap : Cap) (ranges : List (Nat × Nat)) : Option State :=
  let g := s.wg uid
  if cap.versioned && g.versionOpen && !g.irr then
    let new := (s.linesAt core g cap.owner ranges).filter fun l => !g.lines.contains l
    if Config.versionQuota < g.lines.length + new.length then none else some (s.putWg { g with lines := g.lines ++ new })
  else some (s.noteWrite uid ranges.length)

/-- The permissions of a GSQ or KST: W, and V with it for a capability that carries V (R174, R265). -/
def Cap.storePerms (c : Cap) : Nat := if c.versioned then permW + permV else permW

/-- GSQ (R174, R183). -/
def execGsq (wd : BitVec 2) (c : BitVec 4) (a d : RegCode) (x : BitVec 1) (s : State) : Out :=
  simtWord (.gsq wd c a d x) s fun q t =>
    let g := t.wg q.w.wg
    let size := widthBytes wd.toNat
    let cap := q.w.cap c.toNat
    let offs := q.exe.globalOffsets a.toNat x
    match capFault cap c.toNat g.part cap.storePerms size offs with
    | some tr => .trap tr
    | none =>
      match t.charge g.uid q.w.core cap (offs.map fun o => ((cap.base + o.2) % 2 ^ 56, size)) with
      | none => .stay (t.outgrow g.uid)
      | some u =>
        let accs := offs.map fun o => q.globalAccess g cap t.sched.uid o.1 o.2 size
          (.store (q.exe.rdGroup wd.toNat d.toNat o.1) none cap.versioned)
        .done (u.nextUid.addAccesses accs)

/-! ### Atomics (R176, R177) -/

/-- The operands of an atomic in a lane: v, or v1 and v2 of a compare-and-swap (R176). -/
def Exe.atomOperands (x : Exe) (op wd b L : Nat) : Nat × Nat :=
  if op = 9 then
    let v := x.rdGroup (wd + 1) b L
    (v % 2 ^ (32 * 2 ^ wd), v / 2 ^ (32 * 2 ^ wd))
  else (x.rdGroup wd b L, 0)

/-- The atomic's accesses and its queue entry (R176, R177). -/
def Seat.atomic (q : Seat) (t : State) (op wd rq : Nat) (offs : List (Nat × Nat)) (b : Nat)
    (mk : Nat → Nat → AccessAct → Access) (seqr : Option Nat) : Eff :=
  let id := t.sched.uid
  let qn := rq - 1
  let es := q.w.queue qn
  if rq ≠ 0 ∧ Config.queueEntries ≤ es.length then .trap { cause := 0x17, arg0 := qn, arg1 := es.length }
  else
    let lanes := offs.map (·.1)
    let base := sparseGet 0 t.mem.tickets 0
    let accs := offs.mapIdx fun i o =>
      let v := q.exe.atomOperands op wd b o.1
      { mk o.1 o.2 (.atom op v.1 v.2 (if rq = 0 then none else some (.queue qn id o.1))) with
        seqr := seqr, ticket := if seqr = some 0 then some (base + i) else none }
    let u := t.nextUid.addAccesses accs
    let u := if seqr = some 0 then u.withMem { u.mem with tickets := sparseSet 0 u.mem.tickets 0 (base + accs.length) } else u
    let e : QEntry := { id := id, width := 2 ^ wd, mask := BitVec.ofNat 64 (maskOf lanes), data := [], waiting := lanes }
    .done (if rq = 0 then u else u.putWarp (q.w.setQueue qn (es ++ [e])))

/-- Offsets of an atomic: 32 bits (R176). -/
def Exe.atomOffsets (x : Exe) (a : Nat) : List (Nat × Nat) := x.lanes.map fun L => (L, (x.rd a L).toNat)

/-- An atomic of a gang on global memory; one through a versioned capability waits until the task is irrevocable
(R203). -/
def Seat.globalAtomic (q : Seat) (t : State) (op wd rq c a b : Nat) (seqr : Option Nat) : Eff :=
  let g := t.wg q.w.wg
  let size := widthBytes wd
  let cap := q.w.cap c
  let offs := q.exe.atomOffsets a
  match capFault cap c g.part (permR + permW) size offs with
  | some tr => .trap tr
  | none =>
    if cap.versioned && g.versionOpen && !g.irr && !offs.isEmpty then .stay (t.outgrow g.uid)
    else q.atomic t op wd rq offs b (fun L o act => q.globalAccess g cap t.sched.uid L o size act) seqr

/-- A Collie's atomic (R176, R233): the thread stalls in its run until the old value arrives. -/
def Collie.atomic (c : Collie) (t : State) (op wd sp a b : Nat) : Eff :=
  let g := t.wg c.wg
  let size := widthBytes wd
  let x := Exe.scal c.x
  let offs := x.atomOffsets a
  let cap := sparseGet {} c.c sp
  let lvl := sp - 15
  let fault := if sp < 16 then capFault cap sp g.part (permR + permW) size offs
    else levelFault lvl (t.levelLimit g lvl) size offs
  match fault, offs with
  | some tr, _ => .trap tr
  | none, [] => .done t
  | none, (_, o) :: _ =>
    if sp < 16 && cap.versioned && g.versionOpen && !g.irr then .stay (t.outgrow g.uid)
    else
      let id := t.sched.uid
      let v := x.atomOperands op wd b 0
      let act := AccessAct.atom op v.1 v.2 (some (.pend id 0))
      let acc : Access := if sp < 16 then
          { c.access g id ((cap.base + o) % 2 ^ 56) size act with global := true, owner := cap.owner }
        else c.access g id (t.levelKey g lvl 0 o) size act
      .jump ((t.putCollie { c with x := { c.x.pendLoad id b (2 ^ wd) true with hold := .data id } }).nextUid.addAccesses
        [acc])

/-- ATOM (R176). -/
def execAtom (op : BitVec 4) (wd : BitVec 1) (rq : BitVec 2) (sp : BitVec 5) (a b : RegCode) (s : State) : Out :=
  issue (.atom op wd rq sp a b) s
    (fun q t =>
      if sp.toNat < 16 then q.globalAtomic t op.toNat wd.toNat rq.toNat sp.toNat a.toNat b.toNat none
      else
        let g := t.wg q.w.wg
        let lvl := sp.toNat - 15
        let size := widthBytes wd.toNat
        let offs := q.exe.atomOffsets a.toNat
        match levelFault lvl (t.levelLimit g lvl) size offs with
        | some tr => .trap tr
        | none =>
          q.atomic t op.toNat wd.toNat rq.toNat offs b.toNat
            (fun L o act => q.access g t.sched.uid L (t.levelKey g lvl 0 o) size act) none)
    (fun c t => c.atomic t op.toNat wd.toNat sp.toNat a.toNat b.toNat)
    (fun _ t => .stay t)

/-- ATOM.SC (R177): dom 0 takes its tickets at issue from the device's sequencer, dom 1 asks the domain's. -/
def execAtomSc (op : BitVec 4) (wd : BitVec 1) (rq : BitVec 2) (dom : BitVec 1) (c : BitVec 4) (a b : RegCode)
    (s : State) : Out :=
  simtWord (.atomSc op wd rq dom c a b) s fun q t =>
    q.globalAtomic t op.toNat wd.toNat rq.toNat c.toNat a.toNat b.toNat (some dom.toNat)

end Sys2Proof.Machine
end

