-- ==== Sys2Proof/Machine/Sync.lean ====
section
/-!
DEFINITION. Fences (R178 to R180), entry consistency (R181, R182), WAITMON and its monitors (R159 to R161), and the
barrier words (R246, R247).
-/
namespace Sys2Proof.Machine

/-- A gang held by a translation fault of the word at its pc (R39, R213). -/
def Seat.heldBy (q : Seat) (t : State) (va kind : Nat) (rl : Nat × Nat) : State :=
  let g := t.wg q.w.wg
  ((t.noteFault q.w.core g.part g.ctx va 0 kind rl).putSeat { q with g := { q.g with hold := .xlate t.sched.uid } })

/-! ### Fences -/

/-- The accesses of one scalar agent in flight. -/
def State.ownAccesses (s : State) (who : Agent) : List Access :=
  let uid := match who with
    | .collie c t => (s.findCollie c t).map (·.wg)
    | _ => some 0
  s.mem.access.filter fun a => a.who == who && a.note.isNone && some a.wg == uid

/-- A fence: it waits until every earlier access of the issuing gang or agent is performed (R179), then bounds what the later
accesses of each of its slices may overlook; after is given the views of all of them. DEDUCED (log entry 37). -/
def fenceWord (i : Instr) (waits : Bool) (after : List View → View → View) (s : State) : Out :=
  issue i s
    (fun q t =>
      if waits && !(t.gangAccesses q.w.core q.w.slot q.g.slices).isEmpty then .stay t
      else .done (t.putWarp (q.w.mapViews q.g.slices (after (q.g.slices.map q.w.viewOf)))))
    (fun c t =>
      if waits && !(t.ownAccesses (.collie c.core c.thread)).isEmpty then .stay t
      else .done (t.putCollie { c with view := after [c.view] c.view }))
    (fun _ t => if waits && !(t.ownAccesses .mc).isEmpty then .stay t else .done t)

/-- The latest moment of the accesses on LS and FB that the slices of a fence have made (R197). -/
def ownHigh (vs : List View) : Nat := vs.foldl (fun m v => max m v.high) 0

/-- The latest moment of the accesses on a path that a carrier has ordered before a fence (R180): 0 LS, 1 CP, 2 TF. -/
def carriedHigh (vs : List View) (path : Nat) : Nat := vs.foldl (fun m v => max m (sparseGet 0 v.paths path)) 0

/-- FENCE (R179, R197): the later accesses on LS and FB of the gang follow, at the scope, all those that it has made. -/
def execFence (scope : BitVec 3) (s : State) : Out :=
  fenceWord (.fence scope) true (fun vs v => v.follow scope.toNat (ownHigh vs)) s

/-- The latest moment of the first set of a FENCE.X (R180): the accesses on its from-paths before it. -/
def fenceFrom (src : BitVec 5) (vs : List View) : Nat :=
  max (if src &&& 0x11 != 0 then max (ownHigh vs) (carriedHigh vs 0) else 0)
    (max (if src.getLsbD 1 then carriedHigh vs 1 else 0) (if src.getLsbD 2 then carriedHigh vs 2 else 0))

/-- After a FENCE.X the accesses on the to-paths follow its first set at its scope, and where it names LS or FB those of FENCE
follow too (R180, R197). DEDUCED (log entry 37). -/
def View.crossed (scope : Nat) (src dst : BitVec 5) (vs : List View) (v : View) : View :=
  let m := fenceFrom src vs
  let v := if dst &&& 0x11 != 0 then v.follow scope m else v
  let v := if (src ||| dst) &&& 0x11 != 0 then v.follow scope (ownHigh vs) else v
  let v := if dst.getLsbD 1 then { v with cp := raiseFloor v.cp scope m } else v
  if dst.getLsbD 2 then { v with tf := raiseFloor v.tf scope m } else v

/-- FENCE.X (R180): the earlier accesses on CP, TF and ES that a carrier has ordered before it are performed when the
carrier is passed; those on LS and FB are waited for. -/
def execFenceX (scope : BitVec 3) (src dst : BitVec 5) (s : State) : Out :=
  fenceWord (.fenceX scope src dst) ((src ||| dst) &&& 0x11 != 0) (View.crossed scope.toNat src dst) s

/-! ### Entry consistency -/

/-- The offset a scalar field names (R181, R184, R265). -/
def Exe.scalarOffset (x : Exe) (a : Nat) : Nat := (x.rd a 0).toNat

/-- The object that capability o at a scalar offset names, checked (R181, R182): its virtual address, or the fault. -/
def Seat.object (q : Seat) (part o a : Nat) : Except Trap Nat :=
  let cap := q.w.cap o
  let off := q.exe.scalarOffset a
  match capFault cap o part (permR + permW) 8 [(0xFF, off)] with
  | some tr => .error tr
  | none => .ok ((cap.base + off) % 2 ^ 56)

/-- BIND (R181). -/
def execBind (c o : BitVec 4) (a : RegCode) (unb : BitVec 1) (s : State) : Out :=
  simtWord (.bind c o a unb) s fun q t =>
    let g := t.wg q.w.wg
    let r := q.w.cap c.toNat
    let mine (b : Binding) : Bool := b.part == g.part && b.ctx == g.ctx
    let rest := t.mem.binds.filter fun b => !(mine b && b.base == r.base && b.length == r.length)
    if !r.valid then .trap { cause := 0x13, arg0 := c.toNat }
    else if r.sealed then .trap { cause := 0x14, arg0 := c.toNat }
    else if r.perms &&& permB = 0 then .trap { cause := 0x12, arg0 := c.toNat, arg1 := permB }
    else if unb = 1 then .done (t.withMem { t.mem with binds := rest })
    else
      match q.object g.part o.toNat a.toNat with
      | .error tr => .trap tr
      | .ok obj =>
        if Config.bindEntries ≤ (rest.filter mine).length then .trap { cause := 0x1A }
        else .done (t.withMem { t.mem with binds := rest ++ [⟨g.part, g.ctx, r.base, r.length, obj⟩] })

/-- n bytes at a virtual address lie within a region bound to an object (R181). -/
def State.bound (s : State) (g : Workgroup) (obj va n : Nat) : Bool :=
  s.mem.binds.any fun b =>
    b.part == g.part && b.ctx == g.ctx && b.object == obj && decide (b.base ≤ va ∧ va + n ≤ b.base + b.length)

/-- A write in flight lies within a region bound to an object. -/
def State.covered (s : State) (g : Workgroup) (obj : Nat) (a : Access) : Bool :=
  a.global && a.writes && s.bound g obj a.addr a.size

/-- The moment of the latest write of a gang's slices to the regions bound to an object, among those that reads may still
overlook (R199). -/
def Seat.coveredHigh (q : Seat) (t : State) (g : Workgroup) (obj : Nat) : Nat :=
  (t.mem.past.filter fun e =>
    q.g.slices.any (fun j => e.writer == ⟨q.w.core, q.w.slot, q.w.wg, j⟩) &&
    match e.va with | some va => t.bound g obj va e.n | none => false).foldl (fun m e => max m e.at_) 0

/-- REL (R182): it waits for the warp's earlier writes to the regions bound to the object, then increments the count as
one atomic at the object's home, at once also through a capability with V. DESIGN CHOICE (log entry 137). -/
def execRel (o : BitVec 4) (a : RegCode) (scope : BitVec 3) (s : State) : Out :=
  simtWord (.rel o a scope) s fun q t =>
    let g := t.wg q.w.wg
    match q.object g.part o.toNat a.toNat with
    | .error tr => .trap tr
    | .ok obj =>
      let all := List.range q.w.slices.length
      if (t.gangAccesses q.w.core q.w.slot all).any (t.covered g obj) then .stay t
      else
        let cap := q.w.cap o.toNat
        let acc := q.globalAccess g cap t.sched.uid (4 * q.lead) (q.exe.scalarOffset a.toNat) 8 (.atom 0 1 0 none)
        .done (t.nextUid.addAccesses [{ acc with rel := some (scope.toNat, q.coveredHigh t g obj) }])

/-- The n bytes at va as a gang reads them at this moment (R159, R302): the physical address and the value. -/
def Seat.readNow (q : Seat) (t : State) (cap : Cap) (va n : Nat) : Got (Nat × Nat) :=
  let g := t.wg q.w.wg
  (t.readGlobal q.w.core g.part g.ctx cap.owner va n needR fun u pa => g.overlay pa (u.mem.bytes cap.owner pa n)).andThen
    fun r u => .got (r.1, natOf r.2) u

/-- A word whose read has been tried: it goes on with what it has got; a translation fault holds its gang (R39, R213), a device
without room lets it wait (R375), and one that is lost is FABRIC-LOST at lane L (R376). -/
def Seat.afterRead {α : Type} (q : Seat) (t : State) (L va : Nat) (r : Got α) (go : α → State → Eff) : Eff :=
  match r with
  | .got v u => go v u
  | .xlate at_ reason level => .jump (q.heldBy t at_ 1 (reason, level))
  | .lost dev => .trap { cause := 0x63, lane := L, addr := va, arg0 := dev }
  | .full => .stay t

/-- An access of the gang in flight meets n bytes at va (R167, R175). -/
def Seat.conflicts (q : Seat) (t : State) (js : List Nat) (acc : Access) : Bool :=
  (t.gangAccesses q.w.core q.w.slot js).any fun b => t.overlap b acc

/-- The RELs on the count at a key that a read of it observes (R199): no later than the read, and each in the other's instance
at its own scope (R198); the moment of the latest write that they cover. -/
def Memory.released (m : Memory) (key moment scope : Nat) (p : Place) : Nat :=
  (m.releases.filter fun r => r.key == key && decide (r.at_ ≤ moment) && r.place.covers r.scope p && p.covers scope r.place).foldl
    (fun h r => max h r.high) 0

/-- The place of a slice of a gang. -/
def Seat.place (q : Seat) (j : Nat) : Place := ⟨q.w.core, q.w.slot, q.w.wg, j⟩

/-- The gang has read a count (R182, R199): its lead slice is the reader, and all its slices follow what the RELs that the read
observes cover. The register holds nothing but the count. DEDUCED (log entry 135). -/
def Seat.acquire (q : Seat) (t : State) (scope d pa moment : Nat) : Warp :=
  let keys := (q.w.namesOf q.g.slices [d]).filterMap fun n => n.key 0
  let w := q.w.mapViews [q.lead] fun v => ({ v with taint := sparseSetAll 0 v.taint (keys.map fun k => (k, 0)) }).noteRead pa 8 moment keys
  w.mapViews q.g.slices fun v => v.follow 5 (t.mem.released pa moment scope (q.place q.lead))

/-- ACQ (R182): the count is read at issue; it may overlook what a load may, and later accesses follow what it has acquired. -/
def execAcq (d : RegCode) (o : BitVec 4) (a : RegCode) (scope : BitVec 3) (s : State) : Out :=
  simtWord (.acq d o a scope) s fun q t =>
    let g := t.wg q.w.wg
    match q.object g.part o.toNat a.toNat with
    | .error tr => .trap tr
    | .ok obj =>
      let cap := q.w.cap o.toNat
      let acc := { q.globalAccess g cap t.sched.uid (4 * q.lead) (q.exe.scalarOffset a.toNat) 8 (.load (.pend 0 0)) with
        id := t.sched.uid, floor := sparseGet 0 t.sched.dep q.lead }
      if q.conflicts t q.g.slices acc then .stay t
      else
        q.afterRead t (4 * q.lead) obj
          (t.readGlobal q.w.core g.part g.ctx cap.owner obj 8 needR fun u pa => g.overlay pa (u.glanceAt acc pa).1) fun r u =>
          let moment := if isRemote r.1 then u.mem.clock else (u.glanceAt acc r.1).2
          .done (u.nextUid.putWarp ((q.acquire u scope.toNat d.toNat r.1 moment).write d.toNat [(0, BitVec.ofNat 32 (natOf r.2))]))

/-! ### WAITMON -/

/-- A parked agent goes on and its monitor is gone (R160). -/
def State.wake (s : State) (who : Agent) : State :=
  let t := s.withMem { s.mem with monitors := s.mem.monitors.filter fun m => m.who != who }
  match who with
  | .gang core slot lead =>
    (match t.seat core slot lead with
    | some q => if q.g.park = .monitor then t.putSeat { q with g := { q.g with park := .none } } else t
    | none => t)
  | .collie core thread =>
    (match t.findCollie core thread with
    | some c => if c.park = .monitor then t.putCollie { c with park := .none } else t
    | none => t)
  | .mc => { t with mc := { t.mc with parked := false } }

/-- A monitor is armed; a full table first evicts the entry parked longest, which wakes (R161). DEDUCED (log entry 36). -/
def State.arm (s : State) (who : Agent) (key tmo : Nat) : State :=
  let core := agentCore who
  let here := s.mem.monitors.filter fun m => m.core == core
  let t := if Config.monitorEntries ≤ here.length then
      match here with
      | m :: _ => s.wake m.who
      | [] => s
    else s
  t.withMem { t.mem with monitors := t.mem.monitors ++
    [{ who := who, core := core, line := key / 64, since := s.sched.now, limit := 4096 * tmo }] }

/-- The gang goes on at the next word, parked when the word that slice j has read is the word expected (R159). -/
def Seat.waitOn (q : Seat) (t : State) (j key tmo : Nat) (park : Bool) : Eff :=
  let w := q.w.mapViews [j] fun v => v.noteRead key 4 (t.mem.lastAt key 4) []
  match q.fallThrough t w (if park then .monitor else .none) with
  | .jump u => .jump (if park then u.arm (.gang q.w.core q.w.slot q.lead) key tmo else u)
  | e => e

/-- WAITMON (R159). -/
def execWaitmon (lvl : BitVec 2) (c : BitVec 4) (a b tmo : RegCode) (s : State) : Out :=
  issue (.waitmon lvl c a b tmo) s
    (fun q t =>
        match q.exe.lanes with
        | [] => q.fallThrough t q.w
        | M :: _ =>
          let g := t.wg q.w.wg
          let off := (q.w.read a.toNat M).toNat
          let want := q.w.read b.toNat M
          if lvl = 0 then
            let cap := q.w.cap c.toNat
            match capFault cap c.toNat g.part permR 4 [(M, off)] with
            | some tr => .trap tr
            | none =>
              let acc := q.globalAccess g cap t.sched.uid M off 4 (.load (.cap 0))
              if q.conflicts t [M / 4] acc then .stay t
              else
                q.afterRead t M ((cap.base + off) % 2 ^ 56) (q.readNow t cap ((cap.base + off) % 2 ^ 56) 4) fun r u =>
                  q.waitOn u (M / 4) r.1 tmo.toNat (BitVec.ofNat 32 r.2 == want)
          else
            match levelFault lvl.toNat (t.levelLimit g lvl.toNat) 4 [(M, off)] with
            | some tr => .trap tr
            | none =>
              let k := t.levelKey g lvl.toNat 0 off
              if q.conflicts t [M / 4] (q.access g t.sched.uid M k 4 (.load (.cap 0))) then .stay t
              else q.waitOn t (M / 4) k tmo.toNat (BitVec.ofNat 32 (t.mem.read 0 k 4) == want))
    (fun w t =>
      let x := Exe.scal w.x
      let g := t.wg w.wg
      match nextPc w.x.pc, x.lanes with
      | none, _ => .trap { cause := 0xB }
      | some p, [] => .jump (t.putCollie { w with x := w.x.goto p })
      | some p, _ =>
        let off := (x.rd a.toNat 0).toNat
        let go (u : State) (k v : Nat) : Eff :=
          let c := { w with x := w.x.goto p, view := w.view.noteRead k 4 (u.mem.lastAt k 4) [] }
          if BitVec.ofNat 32 v = x.rd b.toNat 0 then
            .jump ((u.putCollie { c with park := .monitor }).arm (.collie w.core w.thread) k tmo.toNat)
          else .jump (u.putCollie c)
        let busy (acc : Access) : Bool := (t.ownAccesses (.collie w.core w.thread)).any fun e => t.overlap e acc
        if lvl = 0 then
          let cap := sparseGet {} w.c c.toNat
          let va := (cap.base + off) % 2 ^ 56
          match capFault cap c.toNat g.part permR 4 [(0xFF, off)] with
          | some tr => .trap tr
          | none =>
            if busy { w.access g 0 va 4 (.load (.cap 0)) with global := true, owner := cap.owner } then .stay t
            else
              match t.readGlobal w.core g.part g.ctx cap.owner va 4 needR fun u pa => u.mem.bytes cap.owner pa 4 with
              | .xlate _ r l =>
                .jump ((t.noteFault w.core g.part g.ctx va 0 1 (r, l)).putCollie
                  { w with x := { w.x with hold := .xlate t.sched.uid } })
              | .lost dev => .trap { cause := 0x63, addr := va, arg0 := dev }
              | .full => .stay t
              | .got r u => go u r.1 (natOf r.2)
        else
          match levelFault 1 (t.levelLimit g 1) 4 [(0xFF, off)] with
          | some tr => .trap tr
          | none =>
            let k := t.levelKey g 1 0 off
            if busy (w.access g 0 k 4 (.load (.cap 0))) then .stay t else go t k (t.mem.read 0 k 4))
    (fun x t =>
      let e := Exe.scal x
      match nextPc x.pc, e.lanes with
      | none, _ => .trap { cause := 0xB }
      | some p, [] => .jump { t with mc := { t.mc with x := x.goto p } }
      | some p, _ =>
        let off := (e.rd a.toNat 0).toNat
        match levelFault 1 mcLimit 4 [(0xFF, off)] with
        | some tr => .trap tr
        | none =>
          let k := sramKey off
          let read := { mcAccess x 0 k 4 (.load (.cap 0)) with id := t.sched.uid }
          if t.muWaits read || (t.ownAccesses .mc).any fun b => t.overlap b read then .stay t
          else
            let r := if 0x80000 ≤ off then t.mgmt.windowRead off else (t.mem.read 0 k 4, false)
            let u := { t with mgmt := { t.mgmt with mufail := t.mgmt.mufail && !r.2 } }
            if BitVec.ofNat 32 r.1 = e.rd b.toNat 0 then
              .jump (({ u with mc := { u.mc with x := x.goto p, parked := true } }).arm .mc k tmo.toNat)
            else .jump { u with mc := { u.mc with x := x.goto p } })

/-! ### Barrier words (R247) -/

/-- A barrier word of a gang: the range check of R246, then its effect. -/
def barrierWord (i : Instr) (b : Nat) (s : State) (f : Seat → State → Eff) : Out :=
  simtWord i s fun q t =>
    if (t.wg q.w.wg).bars.length ≤ b then .trap { cause := 0xC, arg0 := b } else f q t

/-- BAR.INIT (R247). -/
def execBarInit (b : BitVec 4) (n : BitVec 12) (s : State) : Out :=
  barrierWord (.barInit b n) b.toNat s fun q t =>
    let x := (t.wg q.w.wg).bars.getD b.toNat default
    .done (t.setBarrier q.w.wg b.toNat { x with count := n.toNat })

/-- BAR.ARRIVE (R247). -/
def execBarArrive (b : BitVec 4) (s : State) : Out :=
  barrierWord (.barArrive b) b.toNat s fun q t => .done (t.mark q.w q.g.slices b.toNat)

/-- BAR.WAIT (R247): with pw it parks only where the issuing slices have marked in the current phase; where it passes, it follows
what the completed phases have put before it, and where accesses of these are still in flight it is parked until they are performed
(R200). -/
def execBarWait (b : BitVec 4) (pw : BitVec 1) (s : State) : Out :=
  barrierWord (.barWait b pw) b.toNat s fun q t =>
    let x := (t.wg q.w.wg).bars.getD b.toNat default
    let marked := q.g.slices.all fun j => x.marks.contains (q.w.index, j)
    if pw = 1 ∧ !marked then
      match x.waking.getLast? with
      | none => q.fallThrough t (q.w.mapViews q.g.slices fun v => v.passed x.doneHigh x.doneCp)
      | some p => q.fallThrough t q.w (.barWait b.toNat p.phase)
    else
      match q.fallThrough t q.w (.barWait b.toNat x.phase) with
      | .jump u => .jump (if pw = 1 then u else u.mark q.w q.g.slices b.toNat)
      | e => e

end Sys2Proof.Machine
end

