-- ==== Sys2Proof/Machine/Caps.lean ====
section
/-!
DEFINITION. The capability instructions of majors 0xA0 to 0xA7 (R184 to R188), for SIMT gangs and Collie threads alike.
-/
namespace Sys2Proof.Machine

/-- What a capability instruction sees and writes: the agent's registers and its capability registers. -/
structure CapView where
  x : Exe
  c : Sparse Cap

def CapView.get (v : CapView) (n : Nat) : Cap := sparseGet {} v.c n
def CapView.set (v : CapView) (n : Nat) (k : Cap) : CapView := { v with c := sparseSet {} v.c n k }

/-- A capability instruction that only touches registers (R164, R184): it acts once, whatever the guard. -/
def capWord (i : Instr) (s : State) (f : CapView → Except Trap CapView) : Out :=
  issue i s
    (fun q t =>
      match f ⟨q.exe, q.w.c⟩ with
      | .error tr => .trap tr
      | .ok v => .done (t.putWarp { (v.x).warpOf q.w with c := v.c }))
    (fun c t =>
      match f ⟨.scal c.x, c.c⟩ with
      | .error tr => .trap tr
      | .ok v => .done (t.putCollie { c with x := (v.x).scalarOf c.x, c := v.c }))
    (fun _ t => .stay t)

/-- A valid and unsealed source (R184). -/
def CapView.source (v : CapView) (n : Nat) : Except Trap Cap :=
  if !(v.get n).valid then .error { cause := 0x13, arg0 := n }
  else if (v.get n).sealed then .error { cause := 0x14, arg0 := n }
  else .ok (v.get n)

/-- CMOV (R185). -/
def execCmov (d a : BitVec 4) (s : State) : Out :=
  capWord (.cmov d a) s fun v => .ok (v.set d.toNat (v.get a.toNat))

/-- CSETB (R185). -/
def execCsetb (d a : BitVec 4) (off len : RegCode) (s : State) : Out :=
  capWord (.csetb d a off len) s fun v => do
    let c ← v.source a.toNat
    let u := (v.x.rd64 off.toNat 0).toNat
    let n := (v.x.rd64 len.toNat 0).toNat
    if c.length < u + n then .error { cause := 0x16, arg0 := u, arg1 := n }
    else .ok (v.set d.toNat ((c.put 0 56 (c.base + u)).put 56 44 n))

/-- CANDP (R185). -/
def execCandp (d a : BitVec 4) (perm : BitVec 5) (s : State) : Out :=
  capWord (.candp d a perm) s fun v => do
    let c ← v.source a.toNat
    .ok (v.set d.toNat (c.put 117 5 (c.perms &&& perm.toNat)))

/-- A sealing key (R186). -/
def CapView.key (v : CapView) (k : Nat) : Except Trap Cap :=
  if (v.get k).isKey then .ok (v.get k) else .error { cause := 0x14, arg0 := k }

/-- CSEAL (R186). DEDUCED (log entry 25). -/
def execCseal (d a k : BitVec 4) (s : State) : Out :=
  capWord (.cseal d a k) s fun v => do
    let key ← v.key k.toNat
    let c ← v.source a.toNat
    .ok (v.set d.toNat ((c.put 127 1 1).put 100 16 key.objid))

/-- CUNSEAL (R186). -/
def execCunseal (d a k : BitVec 4) (s : State) : Out :=
  capWord (.cunseal d a k) s fun v => do
    let key ← v.key k.toNat
    let c := v.get a.toNat
    if !c.valid then .error { cause := 0x13, arg0 := a.toNat }
    else if !c.sealed || c.objid != key.objid then .error { cause := 0x14, arg0 := a.toNat }
    else .ok (v.set d.toNat (c.put 127 1 0))

/-- The field of a capability that selector f names (R187). -/
def Cap.view (c : Cap) (f : Nat) : Nat :=
  match f with
  | 0 => c.base % 2 ^ 32
  | 1 => c.base / 2 ^ 32
  | 2 => c.length % 2 ^ 32
  | 3 => c.length / 2 ^ 32
  | 4 => c.perms
  | 5 => c.owner
  | 6 => c.objid
  | _ => (if c.valid then 1 else 0) + (if c.sealed then 2 else 0)

/-- CGET (R187). -/
def execCget (d : RegCode) (a : BitVec 4) (f : BitVec 3) (s : State) : Out :=
  capWord (.cget d a f) s fun v =>
    .ok { v with x := v.x.wr d.toNat [(0, BitVec.ofNat 32 ((v.get a.toNat).view f.toNat))] }

/-- The lane a report of a warp-uniform word names (R211). -/
abbrev noLane : Nat := 0xFF

/-- CLDC (R188): the gang or thread is held until the data arrive. A gang's one access is its lead slice's. DESIGN CHOICE (log
entry 137). -/
def execCldc (d c : BitVec 4) (a : RegCode) (s : State) : Out :=
  issue (.cldc d c a) s
    (fun q t =>
      let g := t.wg q.w.wg
      let cap := q.w.cap c.toNat
      let off := q.exe.scalarOffset a.toNat
      match capFault cap c.toNat g.part permR 16 [(noLane, off)] with
      | some tr => .trap tr
      | none =>
        let id := t.sched.uid
        let acc := q.globalAccess g cap id (4 * q.lead) off 16 (.load (.cap d.toNat))
        .jump ((t.putSeat { q with g := { q.g with hold := .data id } }).nextUid.addAccesses [acc]))
    (fun k t =>
      let g := t.wg k.wg
      let cap := sparseGet {} k.c c.toNat
      let off := (Exe.scal k.x).scalarOffset a.toNat
      match capFault cap c.toNat g.part permR 16 [(noLane, off)] with
      | some tr => .trap tr
      | none =>
        let id := t.sched.uid
        let acc := { k.access g id ((cap.base + off) % 2 ^ 56) 16 (.load (.cap d.toNat)) with
                     global := true, owner := cap.owner }
        .jump ((t.putCollie { k with x := { k.x with hold := .data id } }).nextUid.addAccesses [acc]))
    (fun _ t => .stay t)

/-- CSTC (R188, R183). A gang's one access is its lead slice's. DESIGN CHOICE (log entry 137). -/
def execCstc (d c : BitVec 4) (a : RegCode) (s : State) : Out :=
  issue (.cstc d c a) s
    (fun q t =>
      let g := t.wg q.w.wg
      let cap := q.w.cap c.toNat
      let v := q.w.cap d.toNat
      let off := q.exe.scalarOffset a.toNat
      match capFault cap c.toNat g.part permW 16 [(noLane, off)] with
      | some tr => .trap tr
      | none =>
        match t.charge g.uid q.w.core cap [((cap.base + off) % 2 ^ 56, 16)] with
        | none => .stay (t.outgrow g.uid)
        | some u =>
          .done (u.nextUid.addAccesses [q.globalAccess g cap t.sched.uid (4 * q.lead) off 16
            (.store v.bits.toNat (some v.valid) cap.versioned)]))
    (fun k t =>
      let g := t.wg k.wg
      let cap := sparseGet {} k.c c.toNat
      let v : Cap := sparseGet {} k.c d.toNat
      let off := (Exe.scal k.x).scalarOffset a.toNat
      match capFault cap c.toNat g.part permW 16 [(noLane, off)] with
      | some tr => .trap tr
      | none =>
        match t.charge g.uid k.core cap [((cap.base + off) % 2 ^ 56, 16)] with
        | none => .stay (t.outgrow g.uid)
        | some u =>
          let acc := { k.access g t.sched.uid ((cap.base + off) % 2 ^ 56) 16
                        (.store v.bits.toNat (some v.valid) cap.versioned) with global := true, owner := cap.owner }
          .done (u.nextUid.addAccesses [acc]))
    (fun _ t => .stay t)

end Sys2Proof.Machine
end

