-- ==== Sys2Proof/Machine/Copy.lean ====
section
/-!
DEFINITION. The Collie's mailbox and status words (R236, R237, R242), ARRIVE (R247), and copies: the descriptor and its
checks (R238, R239), the movement of units, decompression and tag checks (R240 to R245), and completion.
-/
namespace Sys2Proof.Machine

/-! ### The descriptor (R238) -/

abbrev CopyDesc := BitVec 256

namespace CopyField

def get (d : CopyDesc) (lo n : Nat) : Nat := field d.toNat lo n
def srcOff (d : CopyDesc) : Nat := get d 0 44
def srcCap (d : CopyDesc) : Nat := get d 44 4
def srcSp (d : CopyDesc) : Nat := get d 48 4
def dstOff (d : CopyDesc) : Nat := get d 64 44
def dstCap (d : CopyDesc) : Nat := get d 108 4
def dstSp (d : CopyDesc) : Nat := get d 112 4
def die (d : CopyDesc) : Nat := get d 116 2
def length (d : CopyDesc) : Nat := get d 128 32
def arr (d : CopyDesc) : Bool := get d 160 1 == 1
def bar (d : CopyDesc) : Nat := get d 161 4
def dcmp (d : CopyDesc) : Bool := get d 165 1 == 1
def tag (d : CopyDesc) : Bool := get d 166 1 == 1
def flag (d : CopyDesc) : Bool := get d 167 1 == 1
def flagCap (d : CopyDesc) : Nat := get d 168 4
def tagCap (d : CopyDesc) : Nat := get d 172 4
def reserved (d : CopyDesc) : Bool := get d 52 12 != 0 || get d 118 10 != 0 || get d 176 16 != 0
def version (d : CopyDesc) : Nat := get d 192 32
def tagOff (d : CopyDesc) : Nat := get d 224 32
/-- The bytes of the source extent that check 2 of R239 covers. -/
def srcSize (d : CopyDesc) : Nat := if dcmp d then 8 else length d
/-- Units of 16 bytes and tiles of 4,096 of the destination. -/
def units (d : CopyDesc) : Nat := length d / 16
def tiles (d : CopyDesc) : Nat := length d / 4096
/-- Units are staged by tiles (R243, R245). -/
def staging (d : CopyDesc) : Bool := dcmp d || tag d

end CopyField
open CopyField

/-- The descriptor in the scalars of block q. -/
def copyDesc (x : Exe) (q : Nat) : CopyDesc :=
  BitVec.ofNat 256 ((List.range 8).map fun i => (x.rd (8 * q + i) 0).toNat * 2 ^ (32 * i)).sum

/-- The destination spaces that a form admits; forms are 0 CPY, 1 CPY.SC, 2 CPY.X, 3 CPY.R (R239). -/
def formAdmits (form sp : Nat) : Bool :=
  match form with
  | 0 => decide (sp ≤ 3)
  | 1 => sp == 4
  | 2 => sp == 5
  | _ => sp == 0

/-- Check 1 of R239: the lowest detail among its failing conditions. -/
def descDetail (form bars : Nat) (d : CopyDesc) : Option Nat :=
  if reserved d then some 1
  else if length d < 16 ∨ 2 ^ 26 < length d ∨ length d % 16 ≠ 0 ∨ (staging d ∧ length d % 4096 ≠ 0) then some 2
  else if dstOff d % 16 ≠ 0 ∨ srcOff d % (if dcmp d then 8 else 16) ≠ 0 then some 3
  else if 3 < srcSp d ∨ !formAdmits form (dstSp d) then some 4
  else if arr d ∧ bars ≤ bar d then some 8
  else none

/-- The bytes of an on-chip copy space for a workgroup (R238). -/
def State.spaceLimit (s : State) (g : Workgroup) (die sp : Nat) : Nat :=
  match sp with
  | 4 => 1024 * (s.layout.share g.part g.core).sc
  | 5 => s.layout.dieSize g.part die
  | _ => s.levelLimit g sp

/-- The memory key of byte off of an on-chip copy space. -/
def State.spaceKey (s : State) (g : Workgroup) (die sp off : Nat) : Nat :=
  match sp with
  | 4 => scaleKey g.core (1024 * (s.layout.share g.part g.core).scFirst + off)
  | 5 => dieKey die (65536 * (s.layout.dieShare g.part die).off + off)
  | _ => s.levelKey g sp 0 off

/-- The checks of R169 over a whole extent; align is the alignment its accesses need. -/
def capExtent (c : Cap) (ctx need off n align : Nat) : Option Trap :=
  if !c.valid then some { cause := 0x13 }
  else if c.sealed then some { cause := 0x14 }
  else if c.perms &&& need ≠ need then some { cause := 0x12 }
  else if c.length < off + n then some { cause := 0x10 }
  else if off % align ≠ 0 then some { cause := 0x11 }
  else if c.owner != ctx && c.owner != hostShared then some { cause := 0x15 }
  else none

/-- An extent of a copy space checked: by R169, or against the space's limit. -/
def State.extentFault (s : State) (g : Workgroup) (c : Cap) (die sp need off n : Nat) : Option Trap :=
  if sp = 0 then capExtent c g.part need off n 1
  else if s.spaceLimit g die sp < off + n then some { cause := 0x10 }
  else none

/-- A range of a copy for check 6: what it lies in (0 global memory, 1 + a die the scratchpad of that die, 10 + another
space), first byte, bytes. -/
def copyRange (g : Workgroup) (c : Cap) (die sp off n : Nat) : Nat × Nat × Nat :=
  match sp with
  | 0 => (0, c.base + off, n)
  | 3 => (1 + dieOf g.core, off, n)
  | 5 => (1 + die, off, n)
  | _ => (10 + sp, off, n)

/-- Some two ranges meet. -/
def rangesMeet : List (Nat × Nat × Nat) → Bool
  | [] => false
  | r :: t => t.any (fun q => r.1 == q.1 && meets r.2.1 r.2.2 q.2.1 q.2.2) || rangesMeet t

/-- The address of byte off of the source: a virtual address or a level offset (R245, R248). -/
def sourceAddr (c : Cap) (d : CopyDesc) (off : Nat) : Nat := if srcSp d = 0 then (c.base + off) % 2 ^ 56 else off

/-- The fault of the checks of R239 but the last, if any. -/
def State.copyFault (s : State) (g : Workgroup) (form : Nat) (d : CopyDesc) (src dst flg tg : Cap) : Option Trap :=
  match descDetail form g.bars.length d with
  | some n => some { cause := 0x40, detail := n }
  | none =>
    (s.extentFault g src (die d) (srcSp d) permR (srcOff d) (srcSize d)).orElse fun _ =>
    (s.extentFault g dst (die d) (dstSp d) permW (dstOff d) (length d)).orElse fun _ =>
    (if dstSp d == 0 && dst.versioned then some { cause := 0x40, detail := 5 } else none).orElse fun _ =>
    (if flag d then capExtent flg g.part permW 0 4 4 else none).orElse fun _ =>
    (if tag d then capExtent tg g.part permR (tagOff d) (8 * tiles d) 8 else none).orElse fun _ =>
    let rs := [copyRange g src (die d) (srcSp d) (srcOff d) (srcSize d), copyRange g dst (die d) (dstSp d) (dstOff d) (length d)]
      ++ (if flag d then [(0, flg.base, 4)] else []) ++ (if tag d then [(0, tg.base + tagOff d, 8 * tiles d)] else [])
    if rangesMeet rs then some { cause := 0x40, detail := 7 } else none

/-- A copy word (R239). -/
def copyWord (i : Instr) (form q : Nat) (s : State) : Out :=
  collieWord i s fun c t =>
    let x := Exe.scal c.x
    if x.lanes.isEmpty then .done t
    else
      let g := t.wg c.wg
      let d := copyDesc x q
      let cap (n : Nat) : Cap := sparseGet {} c.c n
      let src := cap (srcCap d)
      match t.copyFault g form d src (cap (dstCap d)) (cap (flagCap d)) (cap (tagCap d)) with
      | some tr => .trap { tr with lane := 0xFF, addr := sourceAddr src d (srcOff d), arg0 := c.started % 2 ^ 32, arg1 := 0 }
      | none =>
        if 32 ≤ c.started - c.retired then .stay t
        else
          let k : Copy :=
            { id := t.sched.uid, core := c.core, thread := c.thread, wg := c.wg, ctx := g.ctx, seq := c.started % 2 ^ 32
              form := form, desc := d, src := src, dst := cap (dstCap d), flag := cap (flagCap d), tag := cap (tagCap d)
              pc := c.x.pc, streamPos := srcOff d, outer := c.frame.map (·.epc), floors := c.view.cp }
          let u := t.nextUid.putCollie { c with started := c.started + 1 }
          .done { u with copies := u.copies ++ [k] }

/-- CPY (R239). DEDUCED (log entry 76). -/
def execCpy (q : BitVec 2) (s : State) : Out := copyWord (.cpy q) 0 q.toNat s
/-- CPY.SC (R239). -/
def execCpySc (q : BitVec 2) (s : State) : Out := copyWord (.cpySc q) 1 q.toNat s
/-- CPY.X (R239). -/
def execCpyX (q : BitVec 2) (s : State) : Out := copyWord (.cpyX q) 2 q.toNat s
/-- CPY.R (R239). -/
def execCpyR (q : BitVec 2) (s : State) : Out := copyWord (.cpyR q) 3 q.toNat s

/-! ### Moving units (R240, R241) -/

/-- n bytes of global memory from va as a copy reads them, translated unit by unit, each unit as it stands or as it stood before
writes that no rule orders before the copy (R180, R190). -/
def State.copyGlobal (s : State) (k : Copy) (c : Cap) (va n : Nat) : Got (List (BitVec 8)) :=
  let g := s.wg k.wg
  (unitsOf 16 va n).foldl (fun acc u => acc.andThen fun l t =>
    let lo := max va (16 * u)
    let m := min (va + n) (16 * u + 16) - lo
    (t.readGlobal k.core g.part k.ctx c.owner lo m needR fun v pa =>
      v.fetchUnits (copyPlace k.core k.wg) k.floors c.owner pa m).andThen fun r v => .got (l ++ r.2) v) (.got [] s)

/-- n bytes of the source from an offset. -/
def State.copyRead (s : State) (k : Copy) (off n : Nat) : Got (List (BitVec 8)) :=
  if srcSp k.desc = 0 then s.copyGlobal k k.src ((k.src.base + off) % 2 ^ 56) n
  else
    let g := s.wg k.wg
    .got ((unitsOf 16 off n).flatMap fun u =>
      let lo := max off (16 * u)
      s.fetchUnits (copyPlace k.core k.wg) k.floors g.part (s.spaceKey g 0 (srcSp k.desc) lo) (min (off + n) (16 * u + 16) - lo)) s

def State.putCopy (s : State) (k : Copy) : State :=
  { s with copies := s.copies.map fun d => if d.id = k.id then k else d }

/-- A copy stalls at a translation fault (R213); one of a task that is ending goes no further (R210). -/
def State.parkCopy (s : State) (k : Copy) (va kind reason level : Nat) : State :=
  if s.ending k.wg then s.haltCopy k
  else
    (s.noteFault k.core (s.wg k.wg).part k.ctx va 1 kind (reason, level)).putCopy { k with parked := some s.sched.uid }

/-- The first byte of destination unit u in physical memory; none while a global address does not translate. -/
def State.unitHome (s : State) (k : Copy) (u : Nat) : Option Nat :=
  let g := s.wg k.wg
  let off := dstOff k.desc + 16 * u
  if dstSp k.desc ≠ 0 then some (s.spaceKey g (die k.desc) (dstSp k.desc) off)
  else
    match s.translate k.core g.part k.ctx k.dst.owner ((k.dst.base + off) % 2 ^ 56) needW with
    | .ok (pa, _) => some pa
    | .error _ => none

/-- Unit u may not be written yet: an earlier copy of the thread has still to write it, through whichever mapping (R241). A unit
that does not translate yet holds no other back. DEDUCED (log entry 77). -/
def State.unitBlocked (s : State) (k : Copy) (u : Nat) : Bool :=
  (s.copies.takeWhile fun d => d.id != k.id).any fun d =>
    d.core == k.core && d.thread == k.thread && !d.faulted && !d.done &&
      match s.unitHome k u with
      | none => false
      | some a => (List.range (units d.desc)).any fun v =>
          !d.moved.contains v && (s.unitHome d v).any fun b => meets b 16 a 16

/-- Unit u with its 16 bytes leaves for its destination: the write is performed later (R240). A unit found homed wrongly raises
detail 6, after whatever units were written before (R239). DESIGN CHOICE (log entry 136). -/
def State.unitWrite (s : State) (k : Copy) (u src : Nat) (bs : List (BitVec 8)) : State :=
  let g := s.wg k.wg
  let off := dstOff k.desc + 16 * u
  let acc (key : Nat) : Access :=
    { id := 0, who := .collie k.core k.thread, word := k.id, pc := k.pc, lane := 0xFF, wg := k.wg, part := g.part
      ctx := k.ctx, owner := if dstSp k.desc = 0 then k.dst.owner else g.part, global := false, addr := key, size := 16
      act := .store (natOf bs) none false, note := some (src, k.id), outer := k.outer }
  let send (t : State) (home key : Nat) : State :=
    ((t.putCopy { k with moved := k.moved ++ [u], home := some home }).noteWrite k.wg 1).addAccesses [acc key]
  if dstSp k.desc ≠ 0 then send s s.domain.domid (s.spaceKey g (die k.desc) (dstSp k.desc) off)
  else
    let va := (k.dst.base + off) % 2 ^ 56
    match s.translate k.core g.part k.ctx k.dst.owner va needW with
    | .error e => s.parkCopy k va 2 e.1 e.2
    | .ok (pa, t) =>
      let home := if isRemote pa then deviceOf pa else t.domain.domid
      let wrong := if k.form = 3 then !isRemote pa || (k.home.isSome && k.home != some home) else isRemote pa
      if wrong then s.faultCopy k { cause := 0x40, detail := 6, addr := src }
      else if k.form = 3 && k.home.isNone && flag k.desc then
        match t.translate k.core g.part k.ctx k.flag.owner (k.flag.base % 2 ^ 56) needRW with
        | .error e => s.parkCopy k (k.flag.base % 2 ^ 56) 3 e.1 e.2
        | .ok (fpa, v) =>
          if isRemote fpa && deviceOf fpa == home then send v home pa
          else s.faultCopy k { cause := 0x40, detail := 6, addr := src }
      else send t home pa

/-- The tag that tile i must carry (R245): HMAC-SHA-256 over A_i, the version and the bytes, its first 8 bytes. -/
def tileTag (key : BitVec 256) (addr version : Nat) (bs : List (BitVec 8)) : List (BitVec 8) :=
  (hmac (bytesOf 32 key.toNat) (bytesOf 8 addr ++ bytesOf 4 version ++ bs)).take 8

/-- A tile in the shadow buffer, its tag checked first when the copy says so (R245). k is the copy as it goes on. A mismatch is
raised once the writes of the tiles checked earlier have been performed, for they remain written. -/
def State.stageTile (s : State) (k : Copy) (i addr : Nat) (bs : List (BitVec 8)) : State :=
  let staged : Copy := { k with staged := some (i, bs), stagedAt := addr, aim := none, got := [] }
  if !tag k.desc then s.putCopy staged
  else
    match s.copyGlobal k k.tag ((k.tag.base + tagOff k.desc + 8 * i) % 2 ^ 56) 8 with
    | .xlate va r l => s.parkCopy ((s.copies.find? fun d => d.id == k.id).getD k) va 1 r l
    | .lost _ => s.faultCopy k { cause := 0x63, addr := addr }
    | .full => s
    | .got want t =>
      match (t.ctx (t.wg k.wg).part k.ctx).tagkey with
      | some key =>
        if tileTag key addr (version k.desc) bs = want then t.putCopy staged
        else if t.mem.access.any fun a => a.sent.isNone && (match a.note with | some (_, id) => id == k.id | none => false) then t
        else t.faultCopy k { cause := 0x21, addr := addr }
      | none => t.faultCopy k { cause := 0x21, addr := addr }

/-- The elements of a list that the choice counter picks from. -/
def pick {α : Type} (n : Nat) (l : List α) : Option α := l[Config.freeChoice n l.length % l.length]?

/-- n bytes of the source from position off, cut at the boundaries of its aligned 16-byte units: position and length. -/
def Copy.pieces (k : Copy) (off n : Nat) : List (Nat × Nat) :=
  let base := if srcSp k.desc = 0 then k.src.base else 0
  if n = 0 then []
  else (unitsOf 16 (base + off) n).map fun u =>
    let lo := max (base + off) (16 * u)
    (lo - base, min (base + off + n) (16 * u + 16) - lo)

/-- One more unit of n bytes of the source from off is read, whichever (R190, R241); once all are there, go takes them. addr is
what a report names. -/
def State.gatherUnit (s : State) (k : Copy) (off n addr : Nat) (go : List (BitVec 8) → State) : State :=
  let ps := k.pieces off n
  match pick s.sched.free (ps.filter fun p => !k.got.any fun e => e.1 == p.1) with
  | none => go (ps.flatMap fun p => ((k.got.find? fun e => e.1 == p.1).map (·.2)).getD [])
  | some p =>
    match s.copyRead k p.1 p.2 with
    | .got bs v => v.putCopy { k with got := k.got ++ [(p.1, bs)] }
    | .xlate va r l => s.parkCopy k va 1 r l
    | .lost _ => s.faultCopy k { cause := 0x63, addr := addr }
    | .full => s.putCopy k

/-- The next block of a compressed stream is read, decoded and checked (R243, R244). DEDUCED (log entry 78). Of several faults the
first in the order of these checks is raised. DESIGN CHOICE (log entry 136). -/
def State.stageBlock (s : State) (k : Copy) : State :=
  let P := k.streamPos
  let addr := sourceAddr k.src k.desc P
  let limit := if srcSp k.desc = 0 then k.src.length else s.spaceLimit (s.wg k.wg) 0 (srcSp k.desc)
  if limit < P + 8 then s.faultCopy k { cause := 0x10, addr := addr }
  else
    s.gatherUnit k P 8 addr fun hb =>
      let h := natOf hb
      let m := field h 60 4
      let n := field h 44 16
      if 3 < m then s.faultCopy k { cause := 0x22, detail := m, addr := addr }
      else if field h 32 12 ≠ 0 then s.faultCopy k { cause := 0x41, detail := m, addr := addr }
      else if limit < P + 8 + n then s.faultCopy k { cause := 0x10, addr := addr }
      else
        s.gatherUnit k (P + 8) n addr fun payload =>
          match decompress m payload with
          | none => s.faultCopy k { cause := 0x41, detail := m, addr := addr }
          | some bs =>
            if (crc32c bs).toNat ≠ field h 0 32 then s.faultCopy k { cause := 0x23, detail := m, addr := addr }
            else s.stageTile { k with block := k.block + 1, streamPos := (P + 8 + n + 7) / 8 * 8 } k.block addr bs

/-- The units whose bytes are at hand, in the source or in the shadow buffer, and that may be written now (R241). -/
def State.unitsFree (s : State) (k : Copy) : List Nat :=
  let l := match k.staged with
    | some (i, _) => List.range' (256 * i) 256
    | none => if staging k.desc then [] else List.range (units k.desc)
  l.filter fun u => !k.moved.contains u && !s.unitBlocked k u

/-- The tiles of a tag-checked copy that are still to be staged. -/
def Copy.tilesLeft (k : Copy) : List Nat :=
  (List.range (tiles k.desc)).filter fun i => (List.range 256).all fun j => !k.moved.contains (256 * i + j)

/-- The next tile or block may be staged: the shadow buffer is empty or written out, and something is left (R245). -/
def Copy.stages (k : Copy) : Bool :=
  staging k.desc && (match k.staged with | some (i, _) => (List.range' (256 * i) 256).all k.moved.contains | none => true) &&
    (if dcmp k.desc then decide (k.block < tiles k.desc) else !k.tilesLeft.isEmpty)

/-- A copy has a unit to move or to stage. -/
def State.movable (s : State) (k : Copy) : Bool :=
  !k.faulted && !k.done && k.parked.isNone && !(s.ctx (s.wg k.wg).part k.ctx).gated && (!(s.unitsFree k).isEmpty || k.stages)

/-- The copies of a core move one unit each in round-robin order, by their numbers from the last one that moved (R240).
DEDUCED (log entry 127). -/
def State.copyFirst (s : State) (k : Copy) : Bool :=
  let l := (sparseGet (0, 0) s.sched.issued (2000 + k.core)).2
  let rank (c : Copy) : Nat := if l ≤ c.id then c.id - l else c.id + s.sched.uid
  s.copies.all fun c => c.core != k.core || decide (rank k ≤ rank c) || !s.movable c

/-- One unit of a copy is read and its write leaves, or one unit of the next tile is read, or the tile is staged (R240, R241,
R243, R245). Which unit or tile comes next is a free choice. -/
def State.moveUnit (s : State) (k : Copy) : State :=
  match pick s.sched.free (s.unitsFree k) with
  | some u =>
    let addr := sourceAddr k.src k.desc (srcOff k.desc + 16 * u)
    (match k.staged with
    | some (i, bs) =>
      s.unitWrite k u (if dcmp k.desc then k.stagedAt else addr) ((bs.drop (16 * (u - 256 * i))).take 16)
    | none =>
      match s.copyRead k (srcOff k.desc + 16 * u) 16 with
      | .got bs v => v.unitWrite k u addr bs
      | .xlate va r l => s.parkCopy k va 1 r l
      | .lost _ => s.faultCopy k { cause := 0x63, addr := addr }
      | .full => s)
  | none =>
    if !k.stages then s
    else if dcmp k.desc then s.stageBlock k
    else
      match k.aim.orElse fun _ => pick s.sched.free k.tilesLeft with
      | none => s
      | some i =>
        let off := srcOff k.desc + 4096 * i
        let addr := sourceAddr k.src k.desc off
        s.gatherUnit { k with aim := some i } off 4096 addr fun bs => s.stageTile k i addr bs

/-- COPY_UNIT_MOVE (R240, R241, R243, R245). DEDUCED (log entry 77). -/
def execCopyUnitMove (id : Nat) (s : State) : Out :=
  .next <|
    match s.copies.find? fun k => k.id == id with
    | none => s
    | some k =>
      if !s.movable k || !s.copyFirst k then s
      else
        { s.nextFree with sched := { s.nextFree.sched with
            issued := sparseSet (0, 0) s.sched.issued (2000 + k.core) (s.sched.now, k.id + 1) } }.moveUnit k

/-- A copy has no write under way. -/
def State.copyQuiet (s : State) (id : Nat) : Bool :=
  s.mem.access.all fun a => match a.note with | some (_, i) => i != id | none => true

/-- The copies of a thread that have retired are counted: each has ended, and so has every earlier one (R240). -/
def State.retireCopies (s : State) (core thread : Nat) : State :=
  let mine := s.copies.filter fun k => k.core == core && k.thread == thread
  let gone := mine.takeWhile fun k => k.done || k.faulted
  let t := { s with copies := s.copies.filter fun k => !gone.any fun d => d.id == k.id && !d.faulted }
  match t.findCollie core thread with
  | none => t
  | some c =>
    t.putCollie { c with
      retired := c.retired + (gone.filter fun k => !k.faulted).length
      copied := gone.foldl (fun m k => max m k.high) c.copied }

/-- The arrival of a copy, and its retirement (R19, R240). A copy whose task has ended by a trap arrives at no barrier
(R209). -/
def State.copyArrive (s : State) (k : Copy) : State :=
  let g := s.wg k.wg
  let t := s.putCopy { k with done := true, staged := none }
  (if arr k.desc && g.fault.isNone && !g.ended then t.memberArrive k.wg (bar k.desc) k.high else t).retireCopies k.core k.thread

/-- The flag of a copy leaves for its home (R240). -/
def State.copyFlag (s : State) (k : Copy) (pa : Nat) : State :=
  (s.putCopy { k with flagged := true }).addAccesses
    [{ id := 0, who := .collie k.core k.thread, word := k.id, pc := k.pc, lane := 0xFF, wg := k.wg, part := (s.wg k.wg).part
       ctx := k.ctx, owner := k.flag.owner, global := false, addr := pa, size := 4
       act := .atom 0 1 0 none, note := some (sourceAddr k.src k.desc (srcOff k.desc), k.id), outer := k.outer }]

/-- COPY_COMPLETE (R240): every write has been performed. The flag is translated and leaves; the arrival is made in the same
step or by a later one, since the two are unordered, but only after the flag's acknowledgement where the flag is homed on
another device, since a copy whose flag fails does not arrive (R376). DEDUCED (log entry 130). -/
def execCopyComplete (id : Nat) (s : State) : Out :=
  .next <|
    match s.copies.find? fun k => k.id == id with
    | none => s
    | some k =>
      if k.faulted || k.done || k.parked.isSome || !(List.range (units k.desc)).all k.moved.contains then s
      else if k.flagged then
        if s.mem.access.any fun a => a.note.map (·.2) == some id && isRemote a.addr then s else s.copyArrive k
      else if !s.copyQuiet id then s
      else if !flag k.desc then s.copyArrive k
      else
        let va := k.flag.base % 2 ^ 56
        match s.translate k.core (s.wg k.wg).part k.ctx k.flag.owner va needRW with
        | .error e => s.parkCopy k va 3 e.1 e.2
        | .ok (pa, t) =>
          let u := t.nextFree.copyFlag k pa
          if isRemote pa || Config.freeChoice s.sched.free id % 2 = 0 then u
          else u.copyArrive { k with flagged := true }

/-! ### The mailbox (R236, R237), CWAIT and CSTAT (R242), ARRIVE (R247) -/

/-- The floors that the slices of a gang pass to what the gang asks an engine for (R197). -/
def Seat.floorsOf (q : Seat) (f : View → Sparse Nat) : Sparse Nat :=
  q.g.slices.foldl (fun t j => raiseAll t (f (q.w.viewOf j))) []

/-- MPOST (R236): with the record go the floors of the copies that it asks for. -/
def execMpost (d : RegCode) (s : State) : Out :=
  simtWord (.mpost d) s fun q t =>
    let g := t.wg q.w.wg
    if g.thread.isNone then .trap { cause := 0x42 }
    else if 16 ≤ g.mailbox.length then .stay t
    else
      let L := (q.g.slices.flatMap q.w.active).headD 0
      .done (t.putWg { g with mailbox := g.mailbox ++ [(BitVec.ofNat 128 (q.exe.rdGroup 2 d.toNat L), q.floorsOf (·.cp))] })

/-- A thread has taken a record: the copies that it starts from now on follow what its poster's fences put before them (R197). -/
def Collie.taken (c : Collie) (floors : Sparse Nat) : Collie := { c with view := { c.view with cp := raiseAll c.view.cp floors } }

/-- A record taken into scalars 4q to 4q + 3 (R237). -/
def Exe.takeRecord (x : Exe) (q : Nat) (r : BitVec 128) : Exe :=
  (List.range 4).foldl (fun y k => y.swr (4 * q + k) (BitVec.ofNat 32 (r.toNat / 2 ^ (32 * k)))) x

/-- MBX (R237). -/
def execMbx (q x : BitVec 3) (s : State) : Out :=
  collieWord (.mbx q x) s fun c t =>
    let e := Exe.scal c.x
    let g := t.wg c.wg
    if e.lanes.isEmpty then .done t
    else
      match g.mailbox with
      | [] => .done (t.putCollie { c with x := (e.wrPr x.toNat [(0, false)]).scalarOf c.x })
      | r :: rest =>
        .done ((t.putWg { g with mailbox := rest }).putCollie
          { c.taken r.2 with x := ((e.takeRecord q.toNat r.1).wrPr x.toNat [(0, true)]).scalarOf c.x })

/-- MBXW (R237): the thread waits at the word until a record is there. -/
def execMbxw (q : BitVec 3) (s : State) : Out :=
  collieWord (.mbxw q) s fun c t =>
    let e := Exe.scal c.x
    let g := t.wg c.wg
    if e.lanes.isEmpty then .done t
    else
      match g.mailbox with
      | [] => .stay t
      | r :: rest =>
        .done ((t.putWg { g with mailbox := rest }).putCollie
          { c.taken r.2 with x := (e.takeRecord q.toNat r.1).scalarOf c.x })

/-- After CWAIT the thread's later accesses, and the copies that it starts later, follow at scope dom what its retired copies have
written (R242). -/
def View.copied (v : View) (m : Nat) : View :=
  { v.follow 6 m with cp := raiseFloor v.cp 6 m, paths := raiseFloor v.paths 1 m }

/-- CWAIT (R242): the thread waits at the word until at most n copies have not retired. -/
def execCwait (n : BitVec 6) (s : State) : Out :=
  collieWord (.cwait n) s fun c t =>
    if (Exe.scal c.x).lanes.isEmpty then .done t
    else if n.toNat < c.started - c.retired then .stay t
    else .done (t.putCollie { c with view := c.view.copied c.copied })

/-- CSTAT (R242). DEDUCED (log entry 80). -/
def execCstat (d : RegCode) (sel : BitVec 3) (s : State) : Out :=
  collieWord (.cstat d sel) s fun c t =>
    let x := Exe.scal c.x
    let v : Nat := match sel.toNat with
      | 0 => c.started - c.retired
      | 1 => (t.wg c.wg).mailbox.length
      | 2 => c.started
      | 3 => c.retired
      | _ => c.thread
    .done (t.putCollie { c with x := (x.lanewise d.toNat fun _ => BitVec.ofNat 32 v).scalarOf c.x })

/-- ARRIVE (R247). -/
def execArrive (b : BitVec 4) (s : State) : Out :=
  collieWord (.arrive b) s fun c t =>
    if (Exe.scal c.x).lanes.isEmpty then .done t
    else if (t.wg c.wg).bars.length ≤ b.toNat then .trap { cause := 0xC, arg0 := b.toNat }
    else .done (t.memberArrive c.wg b.toNat)

end Sys2Proof.Machine
end

