-- ==== Sys2Proof/Machine/CrossLane.lean ====
section
/-!
DEFINITION. The cross-lane instructions (R84, R139 to R145). The participating lanes are the lanes that execute in the
issuing gang; every source of every lane is read before any lane is written.
-/
namespace Sys2Proof.Machine

/-- The effective mask of lane L under scope field b (R84): the named lanes that participate. -/
def effMask (x : Exe) (ps : List Nat) (b L : Nat) : Nat := (x.rd64 b L).toNat &&& maskOf ps

/-- The group of a participating lane L, lanes increasing (R84); z names no scope. -/
def groupOf (x : Exe) (ps : List Nat) (b L : Nat) : List Nat :=
  if b = 60 then ps
  else if (effMask x ps b L).testBit L then
    ps.filter fun M => (effMask x ps b M).testBit M && effMask x ps b M == effMask x ps b L
  else [L]

/-- The source lane of SHFL, or none (R140). -/
def shflSrc (fn w L b : Nat) : Option Nat :=
  match fn with
  | 0 => some (b % w)
  | 1 => if b ≤ L then some (L - b) else none
  | 2 => if L + b < w then some (L + b) else none
  | _ => some (Nat.xor L (b % w))

/-- The width of the agent's warp. -/
def Exe.width : Exe → Nat
  | .simt w _ => w.width
  | .scal _ => 1

/-- SHFL (R140). -/
def execShfl (d a b fn : RegCode) (s : State) : Out :=
  aluWord (.shfl d a b fn) s fun x =>
    x.lanewise d.toNat fun L =>
      match shflSrc fn.toNat x.width L (x.rd b.toNat L).toNat with
      | some src => if x.lanes.contains src then x.rd a.toNat src else x.rd a.toNat L
      | none => x.rd a.toNat L

/-- VOTE (R141). -/
def execVote (d a b fn : RegCode) (s : State) : Out :=
  aluWord (.vote d a b fn) s fun x =>
    let ps := x.lanes
    let g (L : Nat) : List Nat := groupOf x ps b.toNat L
    match fn.toNat with
    | 0 => x.wrPr d.toNat (ps.map fun L => (L, (g L).any (x.pr a.toNat)))
    | 1 => x.wrPr d.toNat (ps.map fun L => (L, (g L).all (x.pr a.toNat)))
    | _ => x.wr64 d.toNat (ps.map fun L => (L, BitVec.ofNat 64 (maskOf ((g L).filter (x.pr a.toNat)))))

/-- The sum of values over a group as RED.ADD forms it (R142): integers exactly and then narrowed, floats in increasing
order with a rounding at each step; a lone NaN is canonical. DEDUCED (log entry 22). -/
def groupSum (ty : Nat) (sat : Bool) (r : RoundCfg) (vs : List (BitVec 32)) : BitVec 32 :=
  match ty with
  | 0x10 =>
    (match vs with
    | [] => 0
    | v :: [] => if (FloatFmt.f32.decode v.toNat).isNan then 0x7FC00000 else v
    | v :: t => BitVec.ofNat 32 (t.foldl (fun acc u => FloatFmt.f32.fadd r acc u.toNat) v.toNat))
  | 0 =>
    let t := (vs.map (·.toInt)).sum
    word32 (if sat then clampInt (-2 ^ 31) (2 ^ 31 - 1) t else t)
  | _ =>
    let t := (vs.map (·.toNat)).sum
    BitVec.ofNat 32 (if sat then min t (2 ^ 32 - 1) else t)

/-- The minimum or maximum over a group (R142). -/
def groupMinMax (ty : Nat) (isMax : Bool) (vs : List (BitVec 32)) : BitVec 32 :=
  match vs with
  | [] => 0
  | v :: t =>
    match ty with
    | 0x10 =>
      BitVec.ofNat 32 (t.foldl (fun acc u => FloatFmt.f32.fminmax false isMax acc u.toNat)
        (if (FloatFmt.f32.decode v.toNat).isNan then 0x7FC00000 else v.toNat))
    | 0 => t.foldl (fun acc u => if isMax then (if u.toInt ≤ acc.toInt then acc else u)
        else (if acc.toInt ≤ u.toInt then acc else u)) v
    | _ => t.foldl (fun acc u => if isMax then (if u.toNat ≤ acc.toNat then acc else u)
        else (if acc.toNat ≤ u.toNat then acc else u)) v

/-- RED (R142). -/
def execRed (d a b fn : RegCode) (s : State) : Out :=
  aluWord (.red d a b fn) s fun x =>
    let ps := x.lanes
    x.lanewise d.toNat fun L =>
      let m := x.modeAt L
      let vs := (groupOf x ps b.toNat L).map (x.rd a.toNat)
      match fn.toNat with
      | 0 => groupSum (modeType m) (modeSat m) (roundCfg m 0x10) vs
      | 1 => groupMinMax (modeType m) false vs
      | 2 => groupMinMax (modeType m) true vs
      | 3 => vs.foldl (· &&& ·) 0xFFFFFFFF
      | _ => vs.foldl (· ||| ·) 0

/-- SCAN (R143). -/
def execScan (d a b fn : RegCode) (s : State) : Out :=
  aluWord (.scan d a b fn) s fun x =>
    let ps := x.lanes
    x.lanewise d.toNat fun L =>
      let m := x.modeAt L
      let g := groupOf x ps b.toNat L
      let upTo := if fn = 0 then g.filter (· ≤ L) else g.filter (· < L)
      groupSum (modeType m) (modeSat m) (roundCfg m 0x10) (upTo.map (x.rd a.toNat))

/-- MATCH (R144). -/
def execMatchKey (d a : RegCode) (s : State) : Out :=
  aluWord (.matchKey d a) s fun x =>
    let ps := x.lanes
    x.wr64 d.toNat (ps.map fun L =>
      (L, BitVec.ofNat 64 (maskOf (ps.filter fun M => x.rd a.toNat M == x.rd a.toNat L))))

/-- BCAST (R145). -/
def execBcast (d a b : RegCode) (s : State) : Out :=
  aluWord (.bcast d a b) s fun x =>
    let ps := x.lanes
    x.lanewise d.toNat fun L => x.rd a.toNat ((groupOf x ps b.toNat L).headD L)

end Sys2Proof.Machine
end

