-- ==== Sys2Proof/Machine/Packet.lean ====
section
/-!
DEFINITION. Launch packets (R293), kernel descriptors (R68) and tables (R354, R355), argument blocks (R295), inheritance
descriptors (R321), the records a context is loaded from (R214, R316, R358, R363 to R365), and the resources a workgroup
takes (R76).
-/
namespace Sys2Proof.Machine

/-! ### Fields of a packet (R293) -/

def pkKernel (p : BitVec 512) : Nat := field p.toNat 0 32
def pkVersion (p : BitVec 512) : Nat := field p.toNat 32 8
/-- Warps of a workgroup. -/
def pkWarps (p : BitVec 512) : Nat := field p.toNat 40 4 + 1
def pkPrio (p : BitVec 512) : Nat := field p.toNat 44 2
def pkTaskmode (p : BitVec 512) : Nat := field p.toNat 46 2
def pkAff (p : BitVec 512) : Nat := field p.toNat 48 2
def pkGran (p : BitVec 512) : Nat := field p.toNat 50 4
def pkSx (p : BitVec 512) : Nat := field p.toNat 54 4
def pkSy (p : BitVec 512) : Nat := field p.toNat 58 4
def pkPass (p : BitVec 512) : Bool := p.getLsbD 62
def pkGx (p : BitVec 512) : Nat := field p.toNat 64 24
def pkSz (p : BitVec 512) : Nat := field p.toNat 88 4
def pkNargs (p : BitVec 512) : Nat := field p.toNat 92 4
def pkGy (p : BitVec 512) : Nat := field p.toNat 96 16
def pkGz (p : BitVec 512) : Nat := field p.toNat 112 16
def pkEnergy (p : BitVec 512) : Nat := field p.toNat 128 32
def pkSarg (p : BitVec 512) (k : Nat) : Nat := field p.toNat (160 + 32 * k) 32
def pkArgs (p : BitVec 512) : Nat := field p.toNat 288 56
def pkInh (p : BitVec 512) : Nat := field p.toNat 352 56
def pkDone (p : BitVec 512) : Nat := field p.toNat 416 56
def pkReserved (p : BitVec 512) : Bool :=
  p.getLsbD 63 || field p.toNat 344 8 != 0 || field p.toNat 408 8 != 0 || field p.toNat 472 40 != 0

/-! ### Fields of a kernel descriptor (R68) -/

def kdWidthCode (d : BitVec 512) : Nat := field d.toNat 62 2
/-- Lanes of a warp. -/
def kdWidth (d : BitVec 512) : Nat := 16 * 2 ^ kdWidthCode d
def kdRegs (d : BitVec 512) : Nat := field d.toNat 58 4
/-- The allocation A. -/
def kdAlloc (d : BitVec 512) : Nat := 48 + 16 * kdRegs d
def kdBars (d : BitVec 512) : Nat := field d.toNat 53 5
/-- Lane-private slice and declared private part, in units of 16 bytes; group in units of 256. -/
def kdSlice (d : BitVec 512) : Nat := field d.toNat 44 9
def kdPrivate (d : BitVec 512) : Nat := field d.toNat 35 9
def kdGroup (d : BitVec 512) : Nat := field d.toNat 22 13
def kdTaskmode (d : BitVec 512) : Nat := field d.toNat 20 2
def kdBeq (d : BitVec 512) : Bool := d.getLsbD 19
def kdClass (d : BitVec 512) : Nat := field d.toNat 8 8
def kdVersion (d : BitVec 512) : Nat := field d.toNat 0 8
def kdEntry (d : BitVec 512) : Nat := field d.toNat 64 32
def kdTextlen (d : BitVec 512) : Nat := field d.toNat 96 32
def kdCollieoff (d : BitVec 512) : Nat := field d.toNat 128 32
def kdCollielen (d : BitVec 512) : Nat := field d.toNat 160 32
def kdLivefirst (d : BitVec 512) : Nat := field d.toNat 192 32
def kdLivecount (d : BitVec 512) : Nat := field d.toNat 240 16
def kdIkeys (d : BitVec 512) : Nat := field d.toNat 409 3
def kdIcount (d : BitVec 512) : Nat := field d.toNat 412 4
def kdIcode (d : BitVec 512) (j : Nat) : Nat := field d.toNat (448 + 6 * j) 6
def kdIwidth (d : BitVec 512) (j : Nat) : Nat := field d.toNat (496 + 2 * j) 2

/-- The descriptor keeps every rule of R68 on a T9. -/
def kdValid (d : BitVec 512) : Bool :=
  field d.toNat 16 3 == 0 && field d.toNat 224 16 == 0 && field d.toNat 288 121 == 0 && field d.toNat 416 32 == 0 &&
  kdVersion d == 1 && (kdClass d == 0 || kdClass d == 9) && kdWidthCode d != 3 && decide (kdRegs d < 14) &&
  kdTaskmode d != 3 && decide (kdBars d ≤ 16) && decide (kdSlice d ≤ 256) && decide (kdPrivate d ≤ kdSlice d) &&
  decide (kdGroup d ≤ 4096) && kdTextlen d % 4 == 0 && decide (4 ≤ kdTextlen d) &&
  decide (kdIcount d ≤ 8) && decide (kdIkeys d ≤ 4) && ((kdIkeys d == 0) == (kdIcount d == 0)) &&
  ((List.range 8).all fun j =>
    if j < kdIcount d then decide (kdIcode d j ≤ 43) && kdIwidth d j != 3 else kdIcode d j == 0 && kdIwidth d j == 0) &&
  (kdClass d != 0 || (decide (kdAlloc d ≤ 64) && decide (kdGroup d ≤ 384) && decide (kdBars d ≤ 8)))

/-! ### The kernel table (R354, R355) -/

/-- A value of n bytes at a virtual address of a context, read through its root capability. -/
def State.rootNat (s : State) (part ctx va n : Nat) : Option Nat := (s.rootBytes part ctx va n).map natOf

/-- The fields of a kernel-table entry that must be zero are (R7, R354). -/
def plainEntry (e : Nat) : Bool :=
  field e 48 16 == 0 && field e 120 8 == 0 && field e 193 7 == 0 && field e 200 56 == 0

/-- The current text address and descriptor of the kernel that kref names; none where not exactly one valid entry names
it, where that one breaks the form of R354 (R7), or where its descriptor cannot be read. DEDUCED (log entry 50). -/
def State.kernel (s : State) (part ctx kref : Nat) : Option (BitVec 48 × BitVec 512) :=
  let c := s.ctx part ctx
  let hits := (List.range c.kcount).filterMap fun i =>
    match s.rootNat part ctx (c.ktab + 32 * i) 32 with
    | some e => if field e 192 1 = 1 ∧ field e 128 32 = kref then some e else none
    | none => none
  match hits with
  | [e] =>
    if !plainEntry e then none
    else (s.rootNat part ctx (field e 64 56) 64).map fun d => (BitVec.ofNat 48 e, BitVec.ofNat 512 d)
  | _ => none

/-! ### Arguments (R295) -/

/-- The fields of a derivation request that must be 0 are: seal, owner, objid and the reserved bit (R295). -/
def plainRequest (bits : Nat) : Bool :=
  let r : Cap := { bits := BitVec.ofNat 128 bits, valid := true }
  !r.sealed && r.owner == 0 && r.objid == 0 && field bits 116 1 == 0

/-- A capability laid out as a derivation request, narrowed from the root (R295); none where it would widen the root or a
field that must be 0 is not. DEDUCED (log entry 48). -/
def derive (root : Cap) (bits : Nat) : Option Cap :=
  let r : Cap := { bits := BitVec.ofNat 128 bits, valid := true }
  if !plainRequest bits then none
  else if r.base < root.base || root.base + root.length < r.base + r.length || r.perms &&& root.perms != r.perms then none
  else some ((((root.put 0 56 r.base).put 56 44 r.length).put 117 5 r.perms))

/-- Entry k of the argument block at va, or none. -/
def State.argument (s : State) (part ctx va k : Nat) : Option Cap :=
  match s.rootNat part ctx (va + 16 * k) 16 with
  | none => none
  | some v =>
    if s.rootTag part ctx (va + 16 * k) then some { bits := BitVec.ofNat 128 v, valid := true }
    else derive (s.ctx part ctx).root v

/-- The argument capabilities of a packet; the index of the first that cannot be had. pass is the launching warp's
capabilities. -/
def State.gather (s : State) (part ctx : Nat) (p : BitVec 512) (pass : Sparse Cap) : Except Nat (List Cap) :=
  (List.range (pkNargs p)).foldl (fun acc k =>
    match acc with
    | .error e => .error e
    | .ok l =>
      let a := if pkPass p then
          (let c : Cap := sparseGet {} pass k
           if c.valid && !c.sealed then some c else none)
        else if pkArgs p = 0 then none
        else s.argument part ctx (pkArgs p) k
      match a with
      | some c => .ok (l ++ [c])
      | none => .error k) (.ok [])

/-! ### Inheritance descriptors (R321) -/

def inhLineage (d : BitVec 512) : Nat := field d.toNat 464 24
def inhKeys (d : BitVec 512) : Nat := field d.toNat 177 3
def inhCount (d : BitVec 512) : Nat := field d.toNat 180 4
def inhWidths (d : BitVec 512) : Nat := field d.toNat 184 16
/-- Heir entry i: the claim and the register of its estate. -/
def inhMap (d : BitVec 512) (i : Nat) : Nat × Nat := (field d.toNat (203 + 5 * i) 2, field d.toNat (200 + 5 * i) 3)

/-- The key of claim j of a lane: its local index and its workgroup. -/
def inhKey (d : BitVec 512) (loc x y z j : Nat) : Nat :=
  let co (lo : Nat) : Int := sext (field d.toNat lo 32) 32
  let v : Int := (field d.toNat 424 40 : Nat) + co 392 * loc + co 360 * x + co 328 * y + co 296 * z + co 264 * j
  inhLineage d * 2 ^ 40 + (v % 2 ^ 40).toNat

/-- The inheritance descriptor keeps every rule of R321 for a kernel. -/
def inhValid (d kd : BitVec 512) : Bool :=
  let n := kdIcount kd
  field d.toNat 488 24 == 0 && field d.toNat 240 24 == 0 && field d.toNat 0 177 == 0 && inhLineage d != 0 &&
  inhKeys d == kdIkeys kd && decide (1 ≤ inhCount d) && decide (inhCount d ≤ 8) &&
  ((List.range (inhCount d)).all fun r => field (inhWidths d) (2 * r) 2 != 3) &&
  ((List.range n).all fun i => decide ((inhMap d i).1 < inhKeys d) && kdIwidth kd i != 3) &&
  field d.toNat (200 + 5 * n) (40 - 5 * n) == 0

/-! ### Resources (R76) -/

/-- Register rows, and scratchpad rows for the group bytes and for the lane-private slices of n warps. -/
def kdRegRows (d : BitVec 512) (n : Nat) : Nat := n * kdAlloc d * kdWidth d / 16
def kdPrivRows (d : BitVec 512) (n : Nat) : Nat := n * kdWidth d * kdSlice d / 16

/-- A core's whole share could hold one workgroup (R294 detail 7). -/
def Share.holds (h : Share) (d : BitVec 512) (n : Nat) : Bool :=
  decide (n ≤ h.slots) && decide (kdRegRows d n ≤ h.rg) && decide (kdGroup d + kdPrivRows d n ≤ h.sp - h.exported) &&
  decide (kdBars d ≤ h.bars)

/-- The cores of a partition: those on which the layout gives it a warp slot. DEDUCED (log entry 55). -/
def Layout.coresOf (l : Layout) (part : Nat) : List Nat :=
  (List.range Config.cores).filter fun c => decide (0 < (l.share part c).slots)
/-- The dies that hold such cores (R297). -/
def Layout.diesOf (l : Layout) (part : Nat) : List Nat :=
  (List.range Config.dies).filter fun d => (l.coresOf part).any fun c => dieOf c == d

/-! ### The checks of a packet (R294) -/

/-- The kernel, the inheritance descriptor (0 for none), or the detail with which the packet is rejected; details 11 and 9
are the callers'. DEDUCED (log entry 49). -/
def State.checkPacket (s : State) (part ctx : Nat) (host : Bool) (p : BitVec 512) :
    Except Nat (BitVec 48 × BitVec 512 × BitVec 512) :=
  if pkReserved p || pkVersion p != 1 then .error 1
  else
    match s.kernel part ctx (pkKernel p) with
    | none => .error 2
    | some (text, d) =>
      if !kdValid d then .error 2
      else if pkGx p = 0 ∨ pkGy p = 0 ∨ pkGz p = 0 then .error 3
      else if 1024 < pkWarps p * kdWidth d then .error 4
      else if pkTaskmode p ≠ kdTaskmode d then .error 5
      else if pkAff p = 3 ∨ (pkAff p = 2 ∧ pkInh p = 0) ∨ (pkInh p ≠ 0 ∧ kdIcount d = 0) then .error 6
      else if host && pkPass p then .error 8
      else
        let inh := if pkInh p = 0 then some 0 else (s.rootNat part ctx (pkInh p) 64).map (BitVec.ofNat 512)
        match inh with
        | none => .error 10
        | some e =>
          if pkInh p ≠ 0 ∧ !inhValid e d then .error 10
          else if !((s.layout.coresOf part).any fun c => (s.layout.share part c).holds d (pkWarps p)) then .error 7
          else .ok (text, d, e)

/-! ### Loading a context (R363 to R365) -/

/-- The function that serves a partition (R361). -/
def State.fnOf (s : State) (part : Nat) : HostFn := sparseGet {} s.fns (part + 1)

def isPow2From (lo hi n : Nat) : Bool := decide (lo ≤ n) && decide (n ≤ hi) && 2 ^ n.log2 == n

/-- Bytes lo to lo + n - 1 of a record read as a number. -/
def byteField (v lo n : Nat) : Nat := field v (8 * lo) (8 * n)

/-- The context's own entry (R363): none where it breaks a rule. -/
def entryContext (c : Context) (e : Nat) : Option Context :=
  let root : Cap := { bits := BitVec.ofNat 128 (byteField e 0 16), valid := true }
  if byteField e 56 1 ≠ 1 ∨ byteField e 57 7 ≠ 0 then none
  else if root.sealed || root.owner != c.owner || root.perms != 31 || field (byteField e 0 16) 116 1 != 0 then none
  else if byteField e 16 8 % 2048 ≠ 0 ∨ 2 ^ 52 ≤ byteField e 16 8 then none
  else if [(24, 128), (32, 64), (40, 128), (48, 32)].any fun (q : Nat × Nat) =>
      byteField e q.1 8 % q.2 != 0 || decide (2 ^ 56 ≤ byteField e q.1 8) then none
  else some { c with root := root, troot := byteField e 16 8 }

/-- The control record (R214). -/
def controlContext (c : Context) (r : Nat) : Option Context :=
  let b := byteField r
  if 3 < b 38 1 ∨ b 39 1 ≠ 0 ∨ b 46 2 ≠ 0 ∨ b 54 2 ≠ 0 ∨ b 70 58 ≠ 0 then none
  else if b 32 6 % 4 ≠ 0 ∨ b 40 6 % 4 ≠ 0 ∨ b 48 6 % 4 ≠ 0 then none
  else if 2 ^ 56 ≤ b 56 8 ∨ b 56 8 % 64 ≠ 0 ∨ !isPow2From 64 65536 (b 64 4) ∨ b 68 2 = 0 then none
  else some { c with
    opdis := BitVec.ofNat 256 (b 0 32), emuentry := BitVec.ofNat 48 (b 32 6)
    emunest := if b 38 1 = 0 then 2 else b 38 1
    collieentry := BitVec.ofNat 48 (b 40 6), guardentry := BitVec.ofNat 48 (b 48 6)
    ringbase := b 56 8, ringsize := b 64 4, deadline := b 68 2 }

/-- A derivation request in a record; length 0 means none, and its other fields keep their form (R7, R316, R364). -/
def requestOf (root : Cap) (bits : Nat) : Option Cap :=
  if field bits 56 44 = 0 then (if plainRequest bits then some {} else none) else derive root bits

/-- A capability in a record that is a derivation request with R and W, a multiple of 4 KiB long; length 0 means none
(R316). -/
def areaOf (root : Cap) (bits : Nat) : Option Cap :=
  match requestOf root bits with
  | none => none
  | some a => if a.length = 0 ∨ a.perms &&& (permR + permW) = permR + permW ∧ a.length % 4096 = 0 then some a else none

/-- The estate record (R316). -/
def estateContext (c : Context) (r : Nat) : Option Context :=
  let b := byteField r
  match areaOf c.root (b 0 16) with
  | none => none
  | some a =>
    if b 40 24 ≠ 0 ∨ 2 ^ 56 ≤ b 16 8 ∨ b 16 8 % 16 ≠ 0 ∨ !isPow2From 64 65536 (b 24 4) ∨ 2 ^ 56 ≤ b 32 8 ∨ b 32 8 % 8 ≠ 0
    then none
    else some { c with area := a, strayRing := b 16 8, straySize := b 24 4, expiry := b 28 4, strayPtr := b 32 8 }

/-- The launch record (R364). -/
def launchContext (c : Context) (r : Nat) : Option Context :=
  let b := byteField r
  let dies := List.range Config.dies
  let bad := dies.any fun d =>
    b (24 * d + 18) 6 != 0 || decide (2 ^ 56 ≤ b (24 * d) 8) || decide (2 ^ 56 ≤ b (24 * d + 8) 8) ||
    [b (24 * d + 16) 1, b (24 * d + 17) 1].any fun k => decide (k < 6) || decide (16 < k)
  if bad ∨ b 112 16 ≠ 0 then none
  else (requestOf c.root (b 96 16)).map fun a =>
    { c with
      lring := dies.map fun d => b (24 * d) 8, lk := dies.map fun d => b (24 * d + 16) 1
      tring := dies.map fun d => b (24 * d + 8) 8, tk := dies.map fun d => b (24 * d + 17) 1, saveArea := a }

/-- Two ranges of a forwarding table that overlap. -/
def fwdMeet (x n y m : Nat) : Bool := decide (x < y + 256 * m) && decide (y < x + 256 * n)

/-- The forwarding table (R358): none where it breaks a rule. -/
def forwardTable (l : List Nat) : Option (List (Nat × Nat × Nat)) :=
  let t := l.map fun v => (byteField v 0 6, byteField v 8 6, byteField v 14 2)
  let bad := (l.any fun v => byteField v 6 2 != 0) ||
    t.any fun r => r.2.2 == 0 || r.1 % 256 != 0 || r.2.1 % 256 != 0 || t.any fun q => fwdMeet r.2.1 r.2.2 q.1 q.2.2
  let rec apart : List (Nat × Nat × Nat) → Bool
    | [] => true
    | r :: rest => (rest.all fun q => !fwdMeet r.1 r.2.2 q.1 q.2.2) && apart rest
  if bad || !apart t then none else some t

/-- Every value of a list, or none. -/
def allSome {α : Type} : List (Option α) → Option (List α)
  | [] => some []
  | none :: _ => none
  | some x :: t => (allSome t).map (x :: ·)

/-- The code record with the kernel table and the forwarding table that it names (R354, R358, R364). -/
def State.codeContext (s : State) (c : Context) (r : Nat) : Option Context :=
  let b := byteField r
  let rd (base size n : Nat) : Option (List Nat) :=
    allSome ((List.range n).map fun i => s.rootNat c.owner c.num (base + size * i) size)
  if b 24 8 ≠ 0 ∨ 2 ^ 56 ≤ b 0 8 ∨ b 8 4 = 0 ∨ 4096 < b 8 4 ∨ 2 ^ 56 ≤ b 12 8 ∨ 64 < b 20 4 then none
  else
    match rd (b 0 8) 32 (b 8 4), rd (b 12 8) 16 (b 20 4) with
    | some ks, some fs =>
      if ks.any fun e => !plainEntry e then none
      else (forwardTable fs).map fun f => { c with ktab := b 0 8, kcount := b 8 4, fwd := f }
    | _, _ => none

/-- A context as its entry and records say, or the failing record (event 3 of R368); 255 stands for an entry whose flag says
that it is not valid, which is no rejection (R365, R366). -/
def State.readContext (s : State) (part num : Nat) : Except Nat Context :=
  let va := (s.fnOf part).ctxbase + 64 * num
  let old := s.ctx part num
  let c0 : Context := { old with num := num, owner := part }
  if !s.layout.opens hostShared va || !s.layout.opens hostShared (va + 63) then .error 0
  else
    let e := s.mem.read hostShared va 64
    match entryContext c0 e with
    | none => .error (if byteField e 56 1 = 0 then 255 else 0)
    | some c1 =>
      let u (c : Context) : State := (if (s.findCtx part num).isSome then s else { s with ctxs := s.ctxs ++ [c] }).putCtx c
      let rec_ (c : Context) (off n : Nat) : Option Nat := (u c).rootNat part num (byteField e off 8) n
      match (rec_ c1 24 128).bind (controlContext c1) with
      | none => .error 1
      | some c2 =>
        match (if byteField e 32 8 = 0 then some { c2 with area := {}, strayRing := 0, expiry := 0, strayPtr := 0 }
               else (rec_ c2 32 64).bind (estateContext c2)) with
        | none => .error 2
        | some c3 =>
          match (rec_ c3 40 128).bind (launchContext c3) with
          | none => .error 3
          | some c4 =>
            match (rec_ c4 48 32).bind ((u c4).codeContext c4) with
            | none => .error 4
            | some c5 => .ok { c5 with loaded := true }

/-! ### Events to the host (R368) -/

/-- An event joins those of a function that wait for room in its ring. -/
def State.post (s : State) (fn : Nat) (e : HostEvent) : State :=
  let f : HostFn := sparseGet {} s.fns fn
  { s with fns := sparseSet {} s.fns fn { f with events := f.events ++ [{ e with gen := s.layout.gen }] } }

end Sys2Proof.Machine
end

