-- ==== Sys2Proof/Machine/Launch.lean ====
section
/-!
DEFINITION. The launch queues and their rings (R300), lineages (R296), LAUNCH, LAUNCH.NB and JOIN (R302, R303), and POST,
FORK and JOINT with their queues and deques (R306 to R309).
-/
namespace Sys2Proof.Machine

/-! ### Queues and rings (R300) -/

/-- Keys of the tables of the distributors and of the queue engines. -/
def dieQueue (die part : Nat) : Nat := 20 * die + part
def coreQueue (core part : Nat) : Nat := 20 * core + part

/-- The items of a context's ring on a die. DEDUCED (log entry 52). -/
def ringItems {α : Type} (rs : List (Ring α)) (die part ctx : Nat) : List α :=
  ((rs.find? fun r => r.die == die && r.part == part && r.ctx == ctx).map (·.items)).getD []

/-- A ring with its items replaced; an empty ring is not listed. -/
def ringSet {α : Type} (rs : List (Ring α)) (die part ctx : Nat) (l : List α) : List (Ring α) :=
  let rest := rs.filter fun r => !(r.die == die && r.part == part && r.ctx == ctx)
  if l.isEmpty then rest else rest ++ [⟨die, part, ctx, l⟩]

/-- The physical places of n bytes at a virtual address of a context, in pieces of at most 4 KiB, where the device may write them
(R342, R347). -/
def State.spansOf (s : State) (part ctx va n : Nat) : List (Nat × Nat) :=
  (unitsOf 4096 va n).filterMap fun u =>
    let lo := max va (4096 * u)
    match s.translate 0xFFFF part ctx part lo needW with
    | .ok (pa, _) => some (pa, pa + (min (va + n) (4096 * (u + 1)) - lo))
    | .error _ => none

/-- Memory that the device keeps for itself, or has written in a form that the manual does not give: it reads as free values. -/
def State.obscure (s : State) (part ctx va n : Nat) : State :=
  if n = 0 then s
  else s.withMem { s.mem with noise := ((s.spansOf part ctx va n).map fun e => ⟨e.1, e.2, 0, false⟩) ++ s.mem.noise }

/-- Software has written into memory that State.obscure covered. -/
def State.disturbed (s : State) (part ctx va n : Nat) : Bool :=
  (s.spansOf part ctx va n).any fun e => (List.range (e.2 - e.1)).any fun i =>
    s.mem.noise.all fun r => !(decide (r.lo ≤ e.1 + i) && decide (e.1 + i < r.hi))

/-- The place and the length of a context's launch ring and task ring on a die (R364): 64 and 16 bytes an entry. -/
def Context.launchRing (c : Context) (die : Nat) : Nat × Nat := (c.lring.getD die 0, 64 * 2 ^ c.lk.getD die 6)
def Context.taskRing (c : Context) (die : Nat) : Nat × Nat := (c.tring.getD die 0, 16 * 2 ^ c.tk.getD die 6)

/-- A number of n words that are free values. -/
def freeNat (k i n : Nat) : Nat := natOf ((List.range n).flatMap fun j => bytesOf 4 (Config.freeWord k (64 * i + j)).toNat)

/-- Pending work of a ring whose memory software has written: undefined (R364), so its packet or record is a free value.
DESIGN CHOICE (log entry 132). -/
def Submission.undefined (x : Submission) (n : Nat) : Submission :=
  { x with
    doorbell := x.doorbell.map fun v => v / 2 ^ 56 * 2 ^ 56 + freeNat n 0 2 % 2 ^ 56
    packet := BitVec.ofNat 512 (freeNat n 1 16) }
def TaskRec.undefined (x : TaskRec) (n : Nat) : TaskRec := { x with bits := BitVec.ofNat 128 (freeNat n 2 4) }

/-- The ring whose head arrived first. -/
def oldestRing {α : Type} (seq : α → Nat) (rs : List (Ring α)) : Option (Ring α × α) :=
  (rs.filterMap fun r => r.items.head?.map fun x => (r, x)).foldl (fun m e =>
    match m with
    | some b => if seq e.2 < seq b.2 then some e else some b
    | none => some e) none

/-- What the device writes or reads at an entry of a ring: which entry an item takes is free, with its seq. A failed translation is
recorded and parks the item (R344), with the number of the fault. DESIGN CHOICE (log entry 132). -/
def State.ringEntry (s : State) (part ctx seq size kind need : Nat) (ring : Nat × Nat) : Option Nat × State :=
  let va := ring.1 + size * (Config.freeChoice seq (ring.2 / size) % (ring.2 / size))
  match s.translate 0xFFFF part ctx part va need with
  | .ok _ => (none, s)
  | .error rl => (some s.sched.uid, s.noteFault 0xFFFF part ctx va 0 kind rl)

/-- An item waits for the driver's answer to its translation fault. -/
def State.awaits (s : State) (parked : Option Nat) : Bool :=
  parked.any fun id => s.mem.xfaults.any fun f => f.id == id

/-- A die's launch queue refills from the rings of its partition while it has room, in the order of arrival (R300, R366); fuel
bounds the packets. -/
def State.refillQueue (s : State) (die part : Nat) : Nat → State
  | 0 => s
  | fuel + 1 =>
    let d := s.dist
    let q := sparseGet [] d.queues (dieQueue die part)
    match oldestRing Submission.seq (d.rings.filter fun r => r.die == die && r.part == part) with
    | none => s
    | some (r, x) =>
      if 64 ≤ q.length || s.awaits x.parked then s
      else
        let (va, n) := (s.ctx part r.ctx).launchRing die
        match s.ringEntry part r.ctx x.seq 64 3 needRW (va, n) with
        | (some id, t) =>
          { t with dist := { d with rings := ringSet d.rings die part r.ctx ({ x with parked := some id } :: r.items.drop 1) } }
        | (none, _) =>
          let y := if s.disturbed part r.ctx va n then x.undefined s.sched.free else x
          State.refillQueue { s.nextFree with dist := { d with
            queues := sparseSet [] d.queues (dieQueue die part) (q ++ [{ y with parked := none }])
            rings := ringSet d.rings die part r.ctx (r.items.drop 1) } } die part fuel

/-- A submission joins a die's launch queue, or the context's ring behind it; none where both are full (R300). A context
that has not been loaded has no ring yet. DEDUCED (log entry 52). -/
def State.submit (s0 : State) (die : Nat) (x0 : Submission) : Option State :=
  let s := s0.refillQueue die x0.part 64
  let x := { x0 with seq := s.sched.uid }
  let d := s.dist
  let q := sparseGet [] d.queues (dieQueue die x.part)
  let r := ringItems d.rings die x.part x.ctx
  let c := s.ctx x.part x.ctx
  if r.isEmpty && decide (q.length < 64) then
    some { s.nextUid with dist := { d with queues := sparseSet [] d.queues (dieQueue die x.part) (q ++ [x]) } }
  else if c.loaded && decide (r.length < 2 ^ c.lk.getD die 6) then
    let (va, n) := c.launchRing die
    let (id, u) := (if r.isEmpty then s.obscure x.part x.ctx va n else s).nextUid.ringEntry x.part x.ctx x.seq 64 2 needW (va, n)
    some { u with dist := { d with rings := ringSet d.rings die x.part x.ctx (r ++ [{ x with parked := id }]) } }
  else none

/-- Gangs that wait for queue space issue their words again (R302, R307, R309). -/
def State.wakeSpace (s : State) (part : Nat) : State :=
  { s with warps := s.warps.map fun w =>
      if (s.wg w.wg).part = part then
        { w with gangs := w.gangs.map fun g => if g.park = .space then { g with park := .none } else g }
      else w }

/-! ### Lineages (R296) -/

/-- The grids of a context that have not retired. -/
def State.gridsOf (s : State) (part ctx : Nat) : List Grid := s.dist.grids.filter fun g => g.part == part && g.ctx == ctx
def State.findGrid (s : State) (uid : Nat) : Option Grid := s.dist.grids.find? fun g => g.uid == uid
def State.grid (s : State) (uid : Nat) : Grid := (s.findGrid uid).getD default
def State.putGrid (s : State) (g : Grid) : State :=
  { s with dist := { s.dist with grids := s.dist.grids.map fun h => if h.uid = g.uid then g else h } }

/-- Every submission that waits in a queue or ring. -/
def Dist.waiting (d : Dist) : List Submission := d.queues.flatMap (·.2) ++ d.rings.flatMap (·.items)

/-- The lineages that the counter skips. -/
def State.lineagesTaken (s : State) (part ctx : Nat) : List Nat :=
  (s.gridsOf part ctx).flatMap (fun g => [g.lineage, inhLineage g.inh]) ++
  (s.dist.waiting.filter fun x => x.part == part && x.ctx == ctx).map (·.lineage) ++
  (s.estates.filter fun e => e.part == part && e.ctx == ctx).map fun e => e.key / 2 ^ 40

/-- The first 24-bit value from v on that is not 0 and not taken. DEDUCED (log entry 53). -/
def freshLineage (taken : List Nat) : Nat → Nat → Nat
  | 0, v => v
  | fuel + 1, v => if v = 0 ∨ taken.contains v then freshLineage taken fuel ((v + 1) % 2 ^ 24) else v

/-- The next lineage of a context, with the counter moved past it. -/
def State.newLineage (s : State) (part ctx : Nat) : Nat × State :=
  let c := s.ctx part ctx
  let taken := s.lineagesTaken part ctx
  let v := freshLineage taken (taken.length + 2) c.nextLineage
  (v, s.putCtx { c with nextLineage := (v + 1) % 2 ^ 24 })

/-! ### LAUNCH and LAUNCH.NB (R302) -/

/-- The checks of the packet's 64 bytes: those of R169 or R166 with an offset that is a multiple of 16. -/
def packetFault (f : Nat → List (Nat × Nat) → Option Trap) (off : Nat) : Option Trap :=
  (f 16 [(noLane, off + 48)]).map fun t => if t.cause = 0x10 ∨ t.cause = 0x11 then { t with addr := off } else t

/-- n bytes at a virtual address as the gang reads them now, in units of 16. -/
def Seat.readRange (q : Seat) (t : State) (cap : Cap) (va n : Nat) : Got Nat :=
  (unitsOf 16 va n).foldl (fun acc u => acc.andThen fun v st =>
    let lo := max va (16 * u)
    (q.readNow st cap lo (min (va + n) (16 * u + 16) - lo)).andThen fun r st' => .got (v + r.2 * 2 ^ (8 * (lo - va))) st') (.got 0 t)

/-- Writes of the gang on LS and FB that have not been performed. -/
def State.writesPending (t : State) (q : Seat) : Bool :=
  (t.gangAccesses q.w.core q.w.slot q.g.slices).any Access.writes

/-- The gang parks at the word and will issue it again (R302). -/
def Seat.parkSpace (q : Seat) (t : State) : Eff := q.transfer t q.w (fun _ => q.pc) .space

/-- The packet at an offset in global memory (sp below 16) or in the core scratchpad is read, and go goes on with it; a fault or
a translation failure is the word's, and an earlier access of the gang or a device without room holds the word back. -/
def Seat.withPacket (q : Seat) (t : State) (sp off : Nat) (go : BitVec 512 → State → Eff) : Eff :=
  let g := t.wg q.w.wg
  if sp < 16 then
    let cap := q.w.cap sp
    match packetFault (capFault cap sp g.part permR) off with
    | some tr => .trap tr
    | none =>
      if q.conflicts t q.g.slices (q.globalAccess g cap t.sched.uid (4 * q.lead) off 64 (.load (.cap 0))) then .stay t
      else
        let va := (cap.base + off) % 2 ^ 56
        q.afterRead t noLane va (q.readRange t cap va 64) fun v u => go (BitVec.ofNat 512 v) u
  else
    match packetFault (levelFault 1 (t.levelLimit g 1)) off with
    | some tr => .trap tr
    | none =>
      let parts := (List.range 4).map fun i => t.levelKey g 1 0 (off + 16 * i)
      if parts.any fun k => q.conflicts t q.g.slices (q.access g t.sched.uid (4 * q.lead) k 16 (.load (.cap 0))) then
        .stay t
      else go (BitVec.ofNat 512 (natOf (parts.flatMap fun k => t.mem.bytes g.part k 16))) t

/-- The effect of LAUNCH and LAUNCH.NB (R302). The gang's earlier writes are performed before the packet and the arguments
it points to are read (R18). -/
def Seat.launch (q : Seat) (t : State) (nb : Bool) (d sp a : Nat) : Eff :=
  let g := t.wg q.w.wg
  if q.exe.lanes.isEmpty then q.fallThrough t q.w
  else if g.depth = 9 then .trap { cause := 0x51, arg0 := 9 }
  else if t.writesPending q then .stay t
  else
    q.withPacket t sp (q.exe.scalarOffset a) fun p u =>
      match u.checkPacket g.part g.ctx false p with
      | .error detail => .trap { cause := 0x50, detail := detail }
      | .ok _ =>
        match u.gather g.part g.ctx p q.w.c with
        | .error k => .trap { cause := 0x52, arg0 := k }
        | .ok caps =>
            let die := dieOf q.w.core
            let (ln, v) := u.newLineage g.part g.ctx
            match v.submit die { part := g.part, ctx := g.ctx, packet := p, caps := caps, lineage := ln
                                 depth := g.depth + 1, parent := some g.uid } with
            | none => if nb then q.fallThrough u (q.w.write d [(0, 0x80000000)]) else q.parkSpace u
            | some x =>
              q.fallThrough (x.putWg { x.wg g.uid with children := g.children ++ [ln] }) (q.w.write d [(0, BitVec.ofNat 32 ln)])

/-- LAUNCH (R302). -/
def execLaunch (d : RegCode) (sp : BitVec 5) (a : RegCode) (s : State) : Out :=
  simtWord (.launch d sp a) s fun q t => q.launch t false d.toNat sp.toNat a.toNat
/-- LAUNCH.NB (R302). -/
def execLaunchNb (d : RegCode) (sp : BitVec 5) (a : RegCode) (s : State) : Out :=
  simtWord (.launchNb d sp a) s fun q t => q.launch t true d.toNat sp.toNat a.toNat

/-! ### JOIN (R303) -/

/-- The status of named grids that are not all running: bit 0, one retired faulted; none while one has not retired. -/
def joinStatus (g : Workgroup) (named : List Nat) : Option Nat :=
  if named.all fun l => g.childStatus.any fun e => e.1 == l then
    some (if named.any fun l => g.childStatus.any fun e => e.1 == l && e.2 != 0 then 1 else 0)
  else none

/-- JOIN (R303). -/
def execJoin (d a : RegCode) (s : State) : Out :=
  simtWord (.join d a) s fun q t =>
    let g := t.wg q.w.wg
    let named := if a = 60 then g.children else [(q.w.read a.toNat (4 * q.lead)).toNat % 2 ^ 24]
    let ok := a == 60 || named.all g.children.contains
    let out (v : Nat) : Warp := q.w.write d.toNat [(0, BitVec.ofNat 32 v)]
    if !ok then q.fallThrough t (out 2)
    else
      match joinStatus g named with
      | some v => q.fallThrough t (out v)
      | none => q.fallThrough t q.w (.join d.toNat named)

/-- The gangs of a workgroup whose joins are satisfied take their status and go on (R303). -/
def State.settleJoins (s : State) (uid : Nat) : State :=
  let wg := s.wg uid
  s.mapWarps uid fun w =>
    w.gangs.foldl (fun v g =>
      match g.park with
      | .join d named =>
        (match joinStatus wg named with
        | some x =>
          { v.write d [(0, BitVec.ofNat 32 x)] with
            gangs := v.gangs.map fun h => if h.slices = g.slices then { h with park := .none } else h }
        | none => v)
      | _ => v) w

/-! ### POST, FORK, JOINT (R306 to R309) -/

def trEntry (r : BitVec 128) : Nat := field r.toNat 0 26
def trData (r : BitVec 128) : Nat := field r.toNat 32 56
def trArg (r : BitVec 128) : Nat := field r.toNat 88 32
def trReserved (r : BitVec 128) : Bool := field r.toNat 26 6 != 0 || field r.toNat 120 8 != 0

/-- The record of a POST or FORK, checked (R307). -/
def Seat.record (q : Seat) (t : State) (mode a : Nat) : Except Trap (Option (BitVec 128)) :=
  let gr := t.grid (t.wg q.w.wg).grid
  match q.exe.lanes with
  | [] => .ok none
  | M :: _ =>
    let r := BitVec.ofNat 128 (q.exe.rdGroup 2 a M)
    if pkTaskmode gr.packet ≠ mode then .error { cause := 0x53, arg0 := pkTaskmode gr.packet }
    else if trReserved r then .error { cause := 0x54, detail := 1, arg0 := trEntry r }
    else if kdTextlen gr.desc ≤ 4 * trEntry r then .error { cause := 0x54, detail := 2, arg0 := trEntry r }
    else .ok (some r)

/-- The home of a task record (R307): its die and core. -/
def Layout.taskHome (l : Layout) (part : Nat) (r : BitVec 128) : Nat × Nat :=
  let v := (field (trData r) 6 50 * 0x9E3779B97F4A7C15) % 2 ^ 64
  let dies := l.diesOf part
  let die := dies.getD (v / 2 ^ 32 % dies.length) 0
  let cores := (l.coresOf part).filter fun c => dieOf c == die
  (die, cores.getD (v % 2 ^ 32 % cores.length) 0)

/-- The records for a core leave the task rings of its die while its queue has room, in the order of their arrival (R307); fuel
bounds the records. -/
def State.refillTasks (s : State) (core part : Nat) : Nat → State
  | 0 => s
  | fuel + 1 =>
    let d := s.dist
    let q := sparseGet [] d.tasks (coreQueue core part)
    let die := dieOf core
    let mine (x : TaskRec) : Bool := (s.layout.taskHome part x.bits).2 == core
    match oldestRing TaskRec.seq ((d.taskRings.filter fun r => r.die == die && r.part == part).map fun r =>
        { r with items := r.items.filter mine }) with
    | none => s
    | some (r, x) =>
      if 64 ≤ q.length || s.awaits x.parked then s
      else
        let ring := (s.ctx part r.ctx).taskRing die
        let items := ringItems d.taskRings die part r.ctx
        match s.ringEntry part r.ctx x.seq 16 3 needRW ring with
        | (some id, t) =>
          let kept := items.map fun (y : TaskRec) => if y.seq = x.seq then { y with parked := some id } else y
          { t with dist := { d with taskRings := ringSet d.taskRings die part r.ctx kept } }
        | (none, _) =>
          let y := if s.disturbed part r.ctx ring.1 ring.2 then x.undefined s.sched.free else x
          State.refillTasks { s.nextFree with dist := { d with
            tasks := sparseSet [] d.tasks (coreQueue core part) (q ++ [{ y with parked := none }])
            taskRings := ringSet d.taskRings die part r.ctx (items.eraseP mine) } } core part fuel

/-- A record joins its home queue once the older records for that core have, or the context's task ring on that die; none where
both are full (R307). -/
def State.postTask (s0 : State) (part ctx : Nat) (r0 : TaskRec) : Option State :=
  let (die, core) := s0.layout.taskHome part r0.bits
  let s := s0.refillTasks core part 64
  let r := { r0 with seq := s.sched.uid }
  let d := s.dist
  let q := sparseGet [] d.tasks (coreQueue core part)
  let ring := ringItems d.taskRings die part ctx
  let c := s.ctx part ctx
  let behind := d.taskRings.any fun e => e.die == die && e.part == part && e.items.any fun x => (s.layout.taskHome part x.bits).2 == core
  if q.length < 64 && !behind then
    some { s.nextUid with dist := { d with tasks := sparseSet [] d.tasks (coreQueue core part) (q ++ [r]) } }
  else if ring.length < 2 ^ c.tk.getD die 6 then
    let (va, n) := c.taskRing die
    let (id, t) := (if ring.isEmpty then s.obscure part ctx va n else s).nextUid.ringEntry part ctx r.seq 16 2 needW (va, n)
    some { t with dist := { d with taskRings := ringSet d.taskRings die part ctx (ring ++ [{ r with parked := id }]) } }
  else none

/-- POST and FORK: the checks, the wait for earlier writes, then the record's way. -/
def Seat.task (q : Seat) (t : State) (mode a : Nat) (send : State → TaskRec → Option (State × Warp)) : Eff :=
  match q.record t mode a with
  | .error tr => .trap tr
  | .ok none => q.fallThrough t q.w
  | .ok (some r) =>
    if t.writesPending q then .stay t
    else
      match send t { grid := (t.wg q.w.wg).grid, bits := r } with
      | none => q.parkSpace t
      | some (u, w) => q.fallThrough u w

/-- POST (R307). -/
def execPost (a : RegCode) (s : State) : Out :=
  simtWord (.post a) s fun q t =>
    q.task t 1 a.toNat fun u r => (u.postTask (u.wg q.w.wg).part (u.wg q.w.wg).ctx r).map fun v => (v, q.w)

/-- FORK (R309). -/
def execFork (a : RegCode) (s : State) : Out :=
  simtWord (.fork a) s fun q t =>
    q.task t 2 a.toNat fun u r =>
      let key := coreQueue q.w.core (u.wg q.w.wg).part
      let l := sparseGet [] u.dist.deques key
      if 64 ≤ l.length then none
      else
        let r := { r with forker := some (q.w.wg, q.w.index) }
        some ({ u with dist := { u.dist with deques := sparseSet [] u.dist.deques key (r :: l) } },
          { q.w with forks := q.w.forks + 1 })

/-- JOINT (R309). -/
def execJoint (s : State) : Out :=
  simtWord .joint s fun q t => q.fallThrough t q.w (if q.w.forks = 0 then .none else .joint)

end Sys2Proof.Machine
end

