-- ==== Sys2Proof/Machine/Skein.lean ====
section
/-!
DEFINITION. The skein instructions (R250 to R266): geometry, packing, multiplication, and the guard overflow they raise.
-/
namespace Sys2Proof.Machine

/-! ### Geometry and coefficients (R252, R253) -/

/-- Element widths by code: 2, 4, 8, 16 (R252). -/
def skeinWidth (code : Nat) : Nat := 2 * 2 ^ code
def Geometry.p (g : Geometry) : Nat := skeinWidth (field g.geom.toNat 0 2)
def Geometry.q (g : Geometry) : Nat := skeinWidth (field g.geom.toNat 2 2)
def Geometry.guard (g : Geometry) : Nat := field g.geom.toNat 4 5
def Geometry.sb (g : Geometry) : Bool := g.geom.getLsbD 9
def Geometry.sa (g : Geometry) : Bool := g.geom.getLsbD 10
def Geometry.stride (g : Geometry) : Nat := field g.geom.toNat 11 7
/-- The slot width s. -/
def Geometry.s (g : Geometry) : Nat := field g.geom.toNat 18 6
/-- The signedness that sel names: A role, B role, product. -/
def Geometry.sign (g : Geometry) (sel : Nat) : Bool :=
  match sel with
  | 0 => g.sa
  | 1 => g.sb
  | _ => g.sa || g.sb

/-- Slots of a value of wx bits. -/
def slots (s wx : Nat) : Nat := wx / s

/-- Coefficient j with the borrow correction (R253). -/
def coef (x s j : Nat) (sg : Bool) : Int :=
  let f := field x (s * j) s
  if sg then sext f s + (if 0 < j ∧ x.testBit (s * j - 1) then 1 else 0) else f

/-- The slot range (R253). -/
def inSlot (s : Nat) (sg : Bool) (e : Int) : Bool :=
  if sg then decide (-(2 ^ (s - 1) - 1 : Int) ≤ e ∧ e ≤ 2 ^ (s - 1) - 1) else decide (0 ≤ e ∧ e < 2 ^ s)

/-- The coefficients written as a value of wx bits, or the lowest slot that overflows (R253). -/
def kput (s wx : Nat) (sg : Bool) (es : List Int) : Except Nat Nat :=
  match es.findIdx? fun e => !inSlot s sg e with
  | some j => .error j
  | none =>
    let sum : Int := (es.mapIdx fun (j : Nat) (e : Int) => e * 2 ^ (s * j)).sum
    .ok (sum % 2 ^ wx).toNat

/-- The value of skein k, or of the pair from k. -/
def Warp.skein (w : Warp) (pair : Bool) (k : Nat) : Nat :=
  let v (n : Nat) : Nat := (sparseGet 0 w.k n).toNat
  if pair then v k + v (k + 1) * 2 ^ 512 else v k

/-- A skein or pair written; the accumulation count of its pair becomes n (R254). -/
def Warp.putSkein (w : Warp) (pair : Bool) (k v n : Nat) : Warp :=
  let ks := sparseSet 0 w.k k (BitVec.ofNat 512 v)
  let ks := if pair then sparseSet 0 ks (k + 1) (BitVec.ofNat 512 (v / 2 ^ 512)) else ks
  { w with k := ks, geo := { w.geo with counts := sparseSet 0 w.geo.counts (k / 2) n } }

/-- The skeins that a field names. -/
def skeinsOf (pair : Bool) (k : Nat) : List Nat := if pair then [k, k + 1] else [k]

/-- A skein word that writes coefficients: the write, or GUARD-OVERFLOW with the overflow record (R254, R266). -/
def Seat.kwrite (q : Seat) (t : State) (pair : Bool) (d : Nat) (sg : Bool) (es : List Int) (step count : Nat) : Eff :=
  match kput q.w.geo.s (if pair then 1024 else 512) sg es with
  | .ok v => .done (t.putWarp (q.w.putSkein pair d v count))
  | .error j =>
    let w := { q.w with geo := { q.w.geo with ovf := BitVec.ofNat 32 (j % 256 + step % 2 ^ 16 * 2 ^ 16) } }
    .guardOvf (t.putWarp w) { cause := 0x25, arg0 := j, arg1 := step }

/-- A skein word that names the listed skeins (R257). -/
def skeinWord (i : Instr) (ks : List Nat) (s : State) (f : Seat → State → Eff) : Out :=
  simtWord i s fun q t => if t.skeinBusy q.w ks then .stay t else f q t

/-! ### The instructions -/

/-- KGW (R259). -/
def execKgw (pc qc : BitVec 2) (g : BitVec 5) (sa sb : BitVec 1) (stride : BitVec 7) (s : State) : Out :=
  skeinWord (.kgw pc qc g sa sb stride) [] s fun q t =>
    let sw := skeinWidth pc.toNat + skeinWidth qc.toNat + g.toNat
    let v := pc.toNat + qc.toNat * 4 + g.toNat * 16 + sb.toNat * 512 + sa.toNat * 1024 + stride.toNat * 2048 + sw * 2 ^ 18
    .done (t.putWarp { q.w with geo := { q.w.geo with geom := BitVec.ofNat 32 v } })

/-- What KGW.RD reads (R259). -/
def Geometry.view (g : Geometry) (sel : Nat) : BitVec 32 :=
  match sel with
  | 0 => g.geom
  | 5 => g.ovf
  | n => BitVec.ofNat 32 (sparseGet 0 g.counts (n - 1))

/-- KGW.RD (R259). -/
def execKgwRd (sel : BitVec 3) (d : RegCode) (s : State) : Out :=
  skeinWord (.kgwRd sel d) [2 * (sel.toNat - 1)] s fun q t =>
    .done (t.putWarp (q.w.write d.toNat [(0, q.w.geo.view sel.toNat)]))

/-- The slot of lane L (R260). -/
def skeinPos (mode base stride L : Nat) : Int :=
  match mode with
  | 0 => base + L
  | 1 => (base : Int) - L
  | _ => base + stride * L

/-- KPACK (R260). -/
def execKpack (k : BitVec 3) (a : RegCode) (mode : BitVec 2) (role acc : BitVec 1) (base : BitVec 7) (s : State) : Out :=
  skeinWord (.kpack k a mode role acc base) [k.toNat] s fun q t =>
    let g := q.w.geo
    let sg := g.sign role.toNat
    let e := if role = 0 then g.p else g.q
    let x := q.w.skein false k.toNat
    let adds := q.exe.lanes.map fun L =>
      let v := (q.w.read a.toNat L).toNat
      (skeinPos mode.toNat base.toNat g.stride L, if sg then sext v e else (field v 0 e : Int))
    let es := (List.range (slots g.s 512)).map fun j =>
      (if acc = 1 then coef x g.s j sg else 0) + ((adds.filter fun e => e.1 == (j : Int)).map (·.2)).sum
    q.kwrite t false k.toNat sg es 0 0

/-- KEXT (R261). -/
def execKext (d : RegCode) (k : BitVec 3) (pr : BitVec 1) (mode sel : BitVec 2) (base : BitVec 8) (s : State) : Out :=
  skeinWord (.kext d k pr mode sel base) (skeinsOf (pr == 1) k.toNat) s fun q t =>
    let g := q.w.geo
    let sg := g.sign sel.toNat
    let x := q.w.skein (pr == 1) k.toNat
    let n := slots g.s (if pr = 1 then 1024 else 512)
    let val (L : Nat) : BitVec 32 :=
      let pos := skeinPos mode.toNat base.toNat g.stride L
      let v : Int := if 0 ≤ pos ∧ pos < n then coef x g.s pos.toNat sg else 0
      word32 (if modeSat (q.exe.modeAt L) then (if sg then clampInt (-2 ^ 31) (2 ^ 31 - 1) v else clampInt 0 (2 ^ 32 - 1) v) else v)
    .done (t.putWarp ((q.exe.lanewise d.toNat val).warpOf q.w))

/-- A bobbin of the core is free: no tile product holds them (R251). -/
def State.bobbinFree (s : State) (core : Nat) : Bool :=
  !s.pillows.ops.any fun o =>
    o.running && o.stop.isNone && (match o.kind with
      | .product paired _ _ _ _ _ => o.core == core || (paired && o.core + 1 == core)
      | _ => false)

/-- The product of skeins a and b slot by slot (R262). -/
def Geometry.product (g : Geometry) (x y : Nat) : List Int :=
  let n := slots g.s 512
  let xs := (List.range n).map fun i => coef x g.s i g.sa
  let ys := (List.range n).map fun j => coef y g.s j g.sb
  (List.range (slots g.s 1024)).map fun k =>
    ((List.range n).map fun i => if i ≤ k ∧ k - i < n then xs.getD i 0 * ys.getD (k - i) 0 else 0).sum

/-- KMUL and KMAC (R251, R254, R262). -/
def Seat.kproduct (q : Seat) (t : State) (d a b : Nat) (acc : Bool) : Eff :=
  if !t.bobbinFree q.w.core then .stay t
  else
    let g := q.w.geo
    let sg := g.sa || g.sb
    let ts := g.product (q.w.skein false a) (q.w.skein false b)
    let count := sparseGet 0 g.counts (d / 2)
    let old := q.w.skein true d
    let es := if acc then ts.mapIdx fun k e => coef old g.s k sg + e else ts
    q.kwrite t true d sg es (if acc then count + 1 else 1) (if acc then min (count + 1) 65535 else 1)

/-- KMUL (R262). -/
def execKmul (d a b : BitVec 3) (s : State) : Out :=
  skeinWord (.kmul d a b) [d.toNat, a.toNat, b.toNat] s fun q t => q.kproduct t d.toNat a.toNat b.toNat false
/-- KMAC (R262). -/
def execKmac (d a b : BitVec 3) (s : State) : Out :=
  skeinWord (.kmac d a b) [d.toNat, a.toNat, b.toNat] s fun q t => q.kproduct t d.toNat a.toNat b.toNat true

/-- The coefficients of a skein or pair. -/
def Warp.coefs (w : Warp) (pair : Bool) (k : Nat) (sg : Bool) : List Int :=
  (List.range (slots w.geo.s (if pair then 1024 else 512))).map fun j => coef (w.skein pair k) w.geo.s j sg

/-- A skein word that maps coefficients to coefficients (R263). -/
def Seat.kmap (q : Seat) (t : State) (pr : BitVec 1) (sel d : Nat) (f : Bool → List Int) : Eff :=
  let sg := q.w.geo.sign sel
  q.kwrite t (pr == 1) d sg (f sg) 0 0

/-- KADD (R263). -/
def execKadd (d a b : BitVec 3) (pr : BitVec 1) (sel : BitVec 2) (s : State) : Out :=
  skeinWord (.kadd d a b pr sel) [d.toNat, a.toNat, b.toNat] s fun q t =>
    q.kmap t pr sel.toNat d.toNat fun sg =>
      (q.w.coefs (pr == 1) a.toNat sg).zipWith (· + ·) (q.w.coefs (pr == 1) b.toNat sg)
/-- KSUB (R263). -/
def execKsub (d a b : BitVec 3) (pr : BitVec 1) (sel : BitVec 2) (s : State) : Out :=
  skeinWord (.ksub d a b pr sel) [d.toNat, a.toNat, b.toNat] s fun q t =>
    q.kmap t pr sel.toNat d.toNat fun sg =>
      (q.w.coefs (pr == 1) a.toNat sg).zipWith (· - ·) (q.w.coefs (pr == 1) b.toNat sg)
/-- KSHL (R263). -/
def execKshl (d a : BitVec 3) (pr : BitVec 1) (sel : BitVec 2) (m : BitVec 8) (s : State) : Out :=
  skeinWord (.kshl d a pr sel m) [d.toNat, a.toNat] s fun q t =>
    q.kmap t pr sel.toNat d.toNat fun sg =>
      let es := q.w.coefs (pr == 1) a.toNat sg
      es.mapIdx fun j _ => if m.toNat ≤ j then es.getD (j - m.toNat) 0 else 0
/-- KSHR (R263). -/
def execKshr (d a : BitVec 3) (pr : BitVec 1) (sel : BitVec 2) (m : BitVec 8) (s : State) : Out :=
  skeinWord (.kshr d a pr sel m) [d.toNat, a.toNat] s fun q t =>
    q.kmap t pr sel.toNat d.toNat fun sg =>
      let es := q.w.coefs (pr == 1) a.toNat sg
      es.mapIdx fun j _ => es.getD (j + m.toNat) 0

/-- KMOV (R264). -/
def execKmov (d a : BitVec 3) (pr zero : BitVec 1) (s : State) : Out :=
  skeinWord (.kmov d a pr zero) [d.toNat, a.toNat] s fun q t =>
    .done (t.putWarp (q.w.putSkein (pr == 1) d.toNat (if zero = 1 then 0 else q.w.skein (pr == 1) a.toNat) 0))

/-- A part of the value that KLD or KST moves: its first byte and its bytes, its offset in the space. -/
structure SkeinPart where
  at_ : Nat
  n : Nat
  off : Nat
deriving DecidableEq, Repr

/-- A value of size bytes at an offset, in the parts that the aligned 16-byte units of the space cut it into (R265): base is the
address of offset 0. -/
def skeinParts (base off size : Nat) : List SkeinPart :=
  (unitsOf 16 (base + off) size).map fun u =>
    let lo := max (base + off) (16 * u)
    ⟨lo - (base + off), min (base + off + size) (16 * u + 16) - lo, lo - base⟩

/-- The checks of KLD and KST, and the parts that they move (R265). -/
def Seat.skeinUnits (q : Seat) (t : State) (pr : BitVec 1) (sp a need : Nat) : Except Trap (List SkeinPart) :=
  let g := t.wg q.w.wg
  let size := if pr = 1 then 128 else 64
  let off := q.exe.scalarOffset a
  if sp < 16 then
    match capFault (q.w.cap sp) sp g.part need size [(noLane, off)] with
    | some tr => .error tr
    | none => .ok (skeinParts (q.w.cap sp).base off size)
  else
    match levelFault 1 g.groupB size [(noLane, off)] with
    | some tr => .error tr
    | none => .ok (skeinParts 0 off size)

/-- The access to one part. -/
def Seat.unitAccess (q : Seat) (t : State) (sp word : Nat) (e : SkeinPart) (act : AccessAct) : Access :=
  let g := t.wg q.w.wg
  if sp < 16 then q.globalAccess g (q.w.cap sp) word (4 * q.lead) e.off e.n act
  else q.access g word (4 * q.lead) (t.levelKey g 1 0 e.off) e.n act

/-- KLD (R265): the gang is held until every unit has arrived. -/
def execKld (k : BitVec 3) (pr : BitVec 1) (sp : BitVec 5) (a : RegCode) (s : State) : Out :=
  skeinWord (.kld k pr sp a) (skeinsOf (pr == 1) k.toNat) s fun q t =>
    match q.skeinUnits t pr sp.toNat a.toNat permR with
    | .error tr => .trap tr
    | .ok us =>
      let id := t.sched.uid
      let accs := us.map fun e => q.unitAccess t sp.toNat id e (.load (.skein k.toNat e.at_ e.n))
      .jump ((t.putSeat { q with g := { q.g with hold := .data id } }).nextUid.addAccesses accs)

/-- KST (R265). -/
def execKst (k : BitVec 3) (pr : BitVec 1) (sp : BitVec 5) (a : RegCode) (s : State) : Out :=
  skeinWord (.kst k pr sp a) (skeinsOf (pr == 1) k.toNat) s fun q t =>
    match q.skeinUnits t pr sp.toNat a.toNat (q.w.cap sp.toNat).storePerms with
    | .error tr => .trap tr
    | .ok us =>
      let cap := q.w.cap sp.toNat
      let v := q.w.skein (pr == 1) k.toNat
      let ver := decide (sp.toNat < 16) && cap.versioned
      let ranges := us.map fun e => ((cap.base + e.off) % 2 ^ 56, e.n)
      match (if ver then t.charge q.w.wg q.w.core cap ranges else some (t.noteWrite q.w.wg 1)) with
      | none => .stay (t.outgrow q.w.wg)
      | some u =>
        .done (u.nextUid.addAccesses (us.map fun e =>
          q.unitAccess t sp.toNat t.sched.uid e (.store (field v (8 * e.at_) (8 * e.n)) none ver)))

end Sys2Proof.Machine
end

