-- ==== Sys2Proof/Machine/Tapered.lean ====
section
/-!
DEFINITION. The tapered formats TF8 and TF6 (R118 to R123), ternary bytes (R126), the shuffled order of 2-bit and 4-bit
tile operands (R127), and CVT (R136).
-/
namespace Sys2Proof.Machine

/-- The number of bits equal to lead from bit i - 1 of b downward. -/
def regimeRun (b : Nat) (lead : Bool) : Nat → Nat
  | 0 => 0
  | i + 1 => if b.testBit i == lead then 1 + regimeRun b lead i else 0

/-- The internal form (R123) of a nonzero magnitude code b of n bits: its exponent E and significand M. -/
def taperedIF (n b : Nat) : Int × Nat :=
  let lead := b.testBit (n - 1)
  let m := regimeRun b lead n
  let regime : Int := if lead then (m : Int) - 1 else -(m : Int)
  let left := n - m - 1
  let e : Int := if 1 ≤ left ∧ b.testBit (left - 1) then 1 else 0
  let w := left - 1
  let f := b % 2 ^ w
  (2 * regime + e, 16 + f * 2 ^ (4 - w))

/-- tapered_decode (R118): NaR is NaN. -/
def taperedDecode (n x : Nat) : FVal :=
  let b := x % 2 ^ n
  let s := x.testBit n
  if b = 0 then (if s then .nan else .fin false 0 0)
  else .fin s (taperedIF n b).2 ((taperedIF n b).1 - 4)

/-- a * 2^ea at most b * 2^eb. -/
def dyadicLe (a : Nat) (ea : Int) (b : Nat) (eb : Int) : Bool :=
  let base := min ea eb
  a * 2 ^ (ea - base).toNat ≤ b * 2 ^ (eb - base).toNat

/-- The greatest magnitude code from c downward whose value is at most m * 2^e; 0 when none is. -/
def taperedFloor (n m : Nat) (e : Int) : Nat → Nat
  | 0 => 0
  | c + 1 =>
    if dyadicLe (taperedIF n (c + 1)).2 ((taperedIF n (c + 1)).1 - 4) m e then c + 1
    else taperedFloor n m e c

/-- The magnitude code of a nonzero m * 2^e (R121). -/
def taperedMag (n rnd : Nat) (neg : Bool) (m : Nat) (e : Int) : Nat :=
  let top := 2 ^ n - 1
  let lo := taperedFloor n m e top
  if lo = 0 then 1
  else if lo = top then top
  else
    let (el, ml) := taperedIF n lo
    let (eh, mh) := taperedIF n (lo + 1)
    let base := min e (min (el - 4) (eh - 4))
    let a := m * 2 ^ (e - base).toNat
    let l := ml * 2 ^ (el - 4 - base).toNat
    let h := mh * 2 ^ (eh - 4 - base).toNat
    if a = l then lo
    else
      match rnd with
      | 1 => lo
      | 2 => if neg then lo + 1 else lo
      | 3 => if neg then lo else lo + 1
      | _ =>
        if a - l < h - a then lo
        else if h - a < a - l then lo + 1
        else if rnd = 4 then lo + 1
        else if lo % 2 = 0 then lo else lo + 1

/-- tapered_encode (R121). -/
def taperedEncode (n rnd : Nat) : FVal → Nat
  | .nan => 2 ^ n
  | .inf _ => 2 ^ n
  | .fin neg m e =>
    if m = 0 then 0 else taperedMag n rnd neg m e + (if neg then 2 ^ n else 0)

/-- Digit k of a ternary byte as an element value (R126); none for the reserved codes 243 to 255. -/
def ternaryDigit (v k : Nat) : Option Int :=
  if 243 ≤ v then none
  else match v / 3 ^ k % 3 with
    | 0 => some 0
    | 1 => some 1
    | _ => some (-1)

/-- The position of element i of a unit of 64 elements of b bits (R127). -/
def shufflePos (b i : Nat) : Nat :=
  let f := 8 / b
  let B := 64 / f
  f * (i % B) + i / B

/-- CVT (R136) on one lane: old is the destination's value, kept outside the written element. -/
def cvtWord (op sel : Nat) (c : RoundCfg) (old a : BitVec 32) : BitVec 32 :=
  let half := elem a 16 (sel % 2)
  let byte := elem a 8 sel
  let v := FloatFmt.f32.decode a.toNat
  match op with
  | 0 => BitVec.ofNat 32 (setField old.toNat (16 * (sel % 2)) 16 (FloatFmt.f16.ofVal c v))
  | 1 => BitVec.ofNat 32 (setField old.toNat (16 * (sel % 2)) 16 (FloatFmt.bf16.ofVal c v))
  | 2 => BitVec.ofNat 32 (FloatFmt.convert .f16 .f32 c.sub ⟨0, false, false⟩ half)
  | 3 => BitVec.ofNat 32 (FloatFmt.convert .bf16 .f32 c.sub ⟨0, false, false⟩ half)
  | 4 => BitVec.ofNat 32 (setField old.toNat (8 * sel) 8 (taperedEncode 7 c.rnd v))
  | 5 => BitVec.ofNat 32 (FloatFmt.f32.ofVal ⟨0, false, false⟩ (taperedDecode 7 byte))
  | 6 => BitVec.ofNat 32 (setField old.toNat (8 * sel) 8 (taperedEncode 5 c.rnd v))
  | _ => BitVec.ofNat 32 (FloatFmt.f32.ofVal ⟨0, false, false⟩ (taperedDecode 5 (byte % 64)))

end Sys2Proof.Machine
end

