-- ==== Sys2Proof/Machine/Tiles.lean ====
section
/-!
DEFINITION. Tile operations (R269 to R291): accumulator names and their renaming, operand descriptors, products with
their drains, stops and resumption, TWAIT, zeroing, loading, storing and scaling tiles, element access, TDESC.
-/
namespace Sys2Proof.Machine

/-! ### Descriptors (R271 to R273) -/

abbrev TileDesc := BitVec 128

namespace TileField

def get (d : TileDesc) (lo n : Nat) : Nat := field d.toNat lo n
def off (d : TileDesc) : Nat := get d 0 44
def len (d : TileDesc) : Nat := get d 44 9
def reserved (d : TileDesc) : Nat := get d 53 11
def stride (d : TileDesc) : Nat := 16 * get d 64 24
def ksteps (d : TileDesc) : Nat := get d 88 20
def drain (d : TileDesc) : Nat := get d 108 4
def g (d : TileDesc) : Nat := get d 112 5
def type (d : TileDesc) : Nat := get d 117 5
def space (d : TileDesc) : Nat := get d 122 2
def cap (d : TileDesc) : Nat := get d 124 4

end TileField
open TileField

/-- The group of admitted pairs that a type belongs to, by its width in bits, 1 for tapered types (R272). -/
def tileGroup (ty : Nat) : Option Nat :=
  match ty with
  | 2 => some 16
  | 3 => some 16
  | 4 => some 8
  | 5 => some 8
  | 6 => some 4
  | 7 => some 4
  | 8 => some 2
  | 9 => some 2
  | 0xA => some 2
  | 0x15 => some 1
  | 0x16 => some 1
  | _ => none

/-- Signedness of an operand type (R272). -/
def tileSigned (ty : Nat) : Bool := ty % 2 == 0

/-- The bytes of a k-row (R271). -/
def rowBytes (ty n : Nat) : Nat :=
  match ty with
  | 0xA => ceilDiv n 5
  | 0x15 => n
  | 0x16 => 3 * ceilDiv n 4
  | _ =>
    match tileGroup ty with
    | some 16 => 2 * n
    | some 8 => n
    | some b => 8 * b * ceilDiv n 64
    | none => 0

/-- The extent of an operand from its offset (R273). -/
def tileExtent (d : TileDesc) : Nat := (8 * ksteps d - 1) * stride d + rowBytes (type d) (len d)

/-- The first failing detail of R273 for descriptors with their row limits. -/
def tileDetail (ds : List (TileDesc × Nat)) : Option Nat :=
  let any (p : TileDesc → Nat → Bool) : Bool := ds.any fun e => p e.1 e.2
  let k (d : TileDesc) : Nat := ksteps d
  if any fun d _ => reserved d != 0 then some 1
  else if any fun d n => k d == 0 || decide (n < len d) then some 2
  else if any fun d _ => ds.any fun e => k e.1 != k d then some 3
  else if any fun d _ => decide (1 < k d) && (tileGroup (type d)).isSome && decide (stride d < rowBytes (type d) (len d)) then some 4
  else if any fun d _ => off d % 16 != 0 then some 5
  else if any fun d _ => (tileGroup (type d)).isNone || ds.any fun e => tileGroup (type e.1) != tileGroup (type d) then some 6
  else if any fun d _ => space d == 3 then some 7
  else none

/-- The descriptor in the four registers from code a, read in one lane. -/
def Exe.tileDesc (x : Exe) (a L : Nat) : TileDesc := BitVec.ofNat 128 (x.rdGroup 2 a L)

/-- The bounds of an operand (R273): R169 over the extent, or the limit of its level. -/
def State.tileBounds (s : State) (g : Workgroup) (c : Cap) (d : TileDesc) : Option Trap :=
  if space d = 0 then
    (capExtent c g.part permR (off d) (tileExtent d) 1).map fun t =>
      { t with addr := if t.cause = 0x10 then off d else 0, arg0 := cap d, arg1 := if t.cause = 0x12 then permR else 0 }
  else if s.levelLimit g (space d) < off d + tileExtent d then
    some { cause := 0x10, addr := off d, arg0 := 0x100 + space d }
  else none

/-! ### Names and tiles (R269, R270) -/

/-- The follower core of a pair (R13). -/
def follower (core : Nat) : Nat := core + 1

/-- The tiles an operation touches. -/
def TileOp.touched (o : TileOp) : List Nat :=
  o.tiles ++ (match o.kind with | .scale _ _ _ src => src | _ => [])

/-- The tiles of the partition's range of a core that no name maps and no word holds, lowest first. -/
def State.freeTiles (s : State) (part core : Nat) : List Nat :=
  let h := s.layout.share part core
  (List.range' (32 * core + h.accFirst) h.acc).filter fun T =>
    !s.wgs.any (fun g => g.acc.any fun e => e.2.contains T) && !s.pillows.ops.any fun o => o.touched.contains T

/-- What a name maps to: no tile when it is unmapped. -/
def Workgroup.tilesOf (g : Workgroup) (n : Nat) : List Nat := sparseGet [] g.acc n
/-- A name is mapped with a paired span. -/
def Workgroup.pairedName (g : Workgroup) (n : Nat) : Bool := (g.tilesOf n).length == 2

/-- The form of a tile: true is AF32. -/
def State.formOf (s : State) (T : Nat) : Bool := sparseGet false s.pillows.forms T

/-- The check of a name (R289): mapped, of a form in every tile of its span, of a span. -/
def State.nameFault (s : State) (g : Workgroup) (n : Nat) (form paired : Option Bool) : Option Trap :=
  let ts := g.tilesOf n
  if ts.isEmpty then some { cause := 0x4A, detail := 1 }
  else if form.any fun f => ts.any fun T => s.formOf T != f then some { cause := 0x4A, detail := 2 }
  else if paired.any (· != g.pairedName n) then some { cause := 0x4A, detail := 3 }
  else none

/-- Fresh tiles for n names, in the order of names and halves; none when too few are free. DEDUCED (log entry 75). -/
def State.takeTiles (s : State) (part core n : Nat) (paired : Bool) : Option (List (List Nat)) :=
  let lo := s.freeTiles part core
  let hi := s.freeTiles part (follower core)
  if lo.length < n ∨ (paired ∧ hi.length < n) then none
  else some ((List.range n).map fun i => lo.getD i 0 :: (if paired then [hi.getD i 0] else []))

/-- Tiles of the pillow set to zero. -/
def Pillows.zero (p : Pillows) (ts : List Nat) : Pillows :=
  { p with elems := sparseDrop (fun k => ts.contains (k / 4096)) p.elems }
/-- Forms of tiles set. -/
def Pillows.setForm (p : Pillows) (ts : List Nat) (f : Bool) : Pillows :=
  { p with forms := sparseSetAll false p.forms (ts.map fun T => (T, f)) }
/-- One tile's elements replaced. -/
def Pillows.putTile (p : Pillows) (T : Nat) (f : Nat → Nat → BitVec 48) : Pillows :=
  let new := (List.range 4096).filterMap fun i =>
    let v := f (i / 64) (i % 64)
    if v = 0 then none else some (4096 * T + i, v)
  { p with elems := (sparseDrop (fun k => k / 4096 == T) p.elems).merge new fun a b => decide (a.1 ≤ b.1) }
def Pillows.elem (p : Pillows) (T r c : Nat) : BitVec 48 := sparseGet 0 p.elems (4096 * T + 64 * r + c)

/-- Names mapped to new tiles, which start at zero in the given form. -/
def State.mapNames (s : State) (g : Workgroup) (names : List Nat) (tiles : List (List Nat)) (form : Bool) : State :=
  let all := tiles.flatten
  { s.putWg { g with acc := sparseSetAll [] g.acc (names.zip tiles) } with
    pillows := (s.pillows.zero all).setForm all form }

/-! ### The queue (R277, R278) -/

/-- The tile words of a warp that have not completed. -/
def State.warpOps (s : State) (w : Warp) : List TileOp :=
  s.pillows.ops.filter fun o => o.core == w.core && o.slot == w.slot && o.wg == w.wg

def TileOp.paired (o : TileOp) : Bool :=
  match o.kind with
  | .product p _ _ _ _ _ => p
  | _ => false

/-- The cores whose queues an operation enters. -/
def TileOp.cores (o : TileOp) : List Nat := (o.touched.map (· / 32)).dedup

/-- The operations issued before one. -/
def State.opsBefore (s : State) (o : TileOp) : List TileOp := s.pillows.ops.takeWhile fun e => e.id != o.id

/-- An earlier word shares a tile with it (R277), or is a paired operation that its core follows (R22). -/
def TileOp.blocks (e o : TileOp) : Bool :=
  e.touched.any o.touched.contains || (e.paired && o.core == follower e.core)

/-- The words that a test picks among the stopped ones, and those that wait behind one of them in the queue. -/
def State.opsBehind (s : State) (p : TileOp → Bool) : List Nat :=
  (s.pillows.ops.foldl (fun (acc : List TileOp) o =>
    if (o.stop.isSome && p o) || (!o.running && o.stop.isNone && acc.any fun e => e.blocks o) then acc ++ [o] else acc) []).map
    (·.id)

/-- The words that have stopped or wait behind a stopped one (R280, R287). -/
def State.stuckOps (s : State) : List Nat := s.opsBehind fun _ => true

/-- Every tile operation of a task has completed, has stopped, or waits behind a stopped one of the task (R210, R280); one that waits
behind another task's on the follower of a pair has still to be performed (R22, R277). DEDUCED (log entry 73). -/
def State.opsOver (s : State) (uid : Nat) : Bool :=
  let stuck := s.opsBehind fun o => o.wg == uid
  s.pillows.ops.all fun o => o.wg != uid || stuck.contains o.id

/-- A word joins the queue. -/
def Seat.queueOp (q : Seat) (s : State) (kind : TileKind) (tiles : List Nat) : State :=
  let g := s.wg q.w.wg
  let o : TileOp :=
    { id := s.sched.uid, core := q.w.core, slot := q.w.slot, wg := q.w.wg, part := g.part, ctx := g.ctx, pc := q.pc
      kind := kind, tiles := tiles, outer := q.outer, floors := q.floorsOf (·.tf) }
  let t := s.nextUid
  { t with pillows := { t.pillows with ops := t.pillows.ops ++ [o] } }

/-- A tile word's issue, once its checks have passed: it stalls while four words of the warp have not completed
(R278). -/
def Seat.tileIssue (q : Seat) (t : State) (go : Option State) : Eff :=
  if 4 ≤ (t.warpOps q.w).length then .stay t
  else
    match go with
    | none => .stay t
    | some u => .done u

/-! ### TMMA, TMMA.S, TMMA.RESUME (R274, R282) -/

/-- A product (R274). -/
def productWord (i : Instr) (paired : Bool) (a b : Nat) (grp fresh : BitVec 1) (s : State) : Out :=
  simtWord i s fun q t =>
    match q.exe.lanes with
    | [] => .done t
    | L :: _ =>
      let g := t.wg q.w.wg
      let A := q.exe.tileDesc a L
      let B := q.exe.tileDesc b L
      if paired && q.w.core % 2 == 1 then .trap { cause := 0x49 }
      else
        match tileDetail [(A, if paired then 256 else 128), (B, 256)] with
        | some n => .trap { cause := 0x48, detail := n }
        | none =>
          let ca := q.w.cap (cap A)
          let cb := q.w.cap (cap B)
          match (t.tileBounds g ca A).orElse fun _ => t.tileBounds g cb B with
          | some tr => .trap tr
          | none =>
            let af := tileGroup (type A) == some 1
            let names := List.range' (8 * grp.toNat) 8
            let kind := TileKind.product paired grp.toNat A B ca cb
            if fresh = 1 then
              q.tileIssue t ((t.takeTiles g.part q.w.core 8 paired).map fun ts =>
                q.queueOp (t.mapNames g names ts af) kind ts.flatten)
            else
              match names.findSome? fun n => t.nameFault g n (some af) (some paired) with
              | some tr => .trap tr
              | none => q.tileIssue t (some (q.queueOp t kind (names.flatMap g.tilesOf)))

/-- TMMA (R274). -/
def execTmma (a b : RegCode) (grp fresh : BitVec 1) (s : State) : Out :=
  productWord (.tmma a b grp fresh) true a.toNat b.toNat grp fresh s
/-- TMMA.S (R274). -/
def execTmmaS (a b : RegCode) (grp fresh : BitVec 1) (s : State) : Out :=
  productWord (.tmmaS a b grp fresh) false a.toNat b.toNat grp fresh s

/-- A descriptor without its fields g and drain (R282). -/
def tileFixed (d : TileDesc) : Nat := setField d.toNat 108 9 0

/-- An operation replaced. -/
def State.putOp (s : State) (o : TileOp) : State :=
  { s with pillows := { s.pillows with ops := s.pillows.ops.map fun e => if e.id = o.id then o else e } }
/-- An operation that has completed: what it has stored the warp's later TWAIT orders (R283). -/
def State.dropOp (s : State) (o : TileOp) : State :=
  let t := match s.findWarp o.core o.slot with
    | some w => if w.wg = o.wg then s.putWarp { w with tiled := max w.tiled o.high } else s
    | none => s
  { t with pillows := { s.pillows with ops := s.pillows.ops.filter fun e => e.id != o.id } }

/-- TMMA.RESUME (R282). -/
def execTmmaResume (a b : RegCode) (s : State) : Out :=
  simtWord (.tmmaResume a b) s fun q t =>
    match q.exe.lanes with
    | [] => .done t
    | L :: _ =>
      match (t.warpOps q.w).find? fun o => o.stop.isSome with
      | none => .trap { cause := 0x4B, detail := 1 }
      | some o =>
        match o.kind with
        | .product p grp A B ca cb =>
          let count := field q.w.kstep.toNat 0 20
          let A' := q.exe.tileDesc a.toNat L
          let B' := q.exe.tileDesc b.toNat L
          if count % (max (drain A) (drain B) + 1) ≠ 0 ∨ ksteps A < count then .trap { cause := 0x4B, detail := 2 }
          else if tileFixed A' ≠ tileFixed A ∨ tileFixed B' ≠ tileFixed B then .trap { cause := 0x4B, detail := 3 }
          else
            let o' := { o with kind := .product p grp A' B' ca cb, running := false, drained := count, stop := none }
            .done ((t.putOp o').putWarp { q.w with kstep := BitVec.ofNat 32 count })
        | _ => .trap { cause := 0x4B, detail := 1 }

/-! ### TWAIT (R281, R283) -/

/-- After TWAIT later accesses follow, at scope wg, what the warp's completed words have stored (R200). -/
def View.tiled (v : View) (m : Nat) : View := { v.follow 2 m with paths := raiseFloor v.paths 2 m }

/-- TWAIT (R283): it returns once at most n tile words have not completed, and later accesses follow what those have written
(R200); where more than n of them have stopped or wait
behind a stopped operation of this warp, it has to wait for that operation and enters the guard handler (R281). DEDUCED (log entry 72). -/
def execTwait (n : BitVec 2) (s : State) : Out :=
  simtWord (.twait n) s fun q t =>
    let ops := t.warpOps q.w
    let stuck := t.opsBehind fun o => ops.any fun e => e.id == o.id
    if ops.length ≤ n.toNat then .done (t.putWarp (q.w.mapViews q.g.slices fun v => v.tiled q.w.tiled))
    else if n.toNat < (ops.filter fun o => stuck.contains o.id).length then .guardOvf t { cause := 0x25 }
    else .stay t

/-! ### TZERO, TLDA, TSTA, SCACC (R284 to R286) -/

/-- TZERO (R284). -/
def execTzero (d : BitVec 4) (form span fresh rel : BitVec 1) (s : State) : Out :=
  simtWord (.tzero d form span fresh rel) s fun q t =>
    let g := t.wg q.w.wg
    let af := form == 1
    if rel = 1 then .done (t.putWg { g with acc := sparseSet [] g.acc d.toNat [] })
    else if fresh = 1 then
      if span = 1 && q.w.core % 2 == 1 then .trap { cause := 0x49 }
      else
        q.tileIssue t ((t.takeTiles g.part q.w.core 1 (span == 1)).map fun ts =>
          q.queueOp (t.mapNames g [d.toNat] ts af) (.zero af) ts.flatten)
    else
      match t.nameFault g d.toNat none (some (span == 1)) with
      | some tr => .trap tr
      | none =>
        let ts := g.tilesOf d.toNat
        q.tileIssue t (some (q.queueOp { t with pillows := t.pillows.setForm ts af } (.zero af) ts))

/-- TLDA and TSTA (R285). -/
def tileMove (i : Instr) (store : Bool) (a : BitVec 4) (h fmt : BitVec 1) (sp off st : Nat) (s : State) : Out :=
  simtWord i s fun q t =>
    let g := t.wg q.w.wg
    let o := (q.exe.rd off 0).toNat
    let d := (q.exe.rd st 0).toNat
    let size := if fmt = 1 then 4 else 8
    if o % 16 ≠ 0 ∨ d % 16 ≠ 0 then .trap { cause := 0x11, addr := if o % 16 ≠ 0 then o else d }
    else if t.levelLimit g sp < o + 63 * d + 64 * size then .trap { cause := 0x10, addr := o, arg0 := 0x100 + sp }
    else
      match g.tilesOf a.toNat with
      | [] => .trap { cause := 0x4A, detail := 1 }
      | ts =>
        if h = 1 ∧ ts.length < 2 then .trap { cause := 0x4A, detail := 3 }
        else
          let T := ts.getD h.toNat 0
          let w := sp == 2
          if store then q.tileIssue t (some (q.queueOp (t.noteWrite g.uid 1) (.store (fmt == 1) w (t.formOf T) o d) [T]))
          else
            q.tileIssue t (some (q.queueOp { t with pillows := t.pillows.setForm [T] (fmt == 1) } (.load (fmt == 1) w o d) [T]))

/-- TLDA (R285). -/
def execTlda (a : BitVec 4) (h fmt : BitVec 1) (sp : BitVec 2) (off st : RegCode) (s : State) : Out :=
  tileMove (.tlda a h fmt sp off st) false a h fmt sp.toNat off.toNat st.toNat s
/-- TSTA (R285). -/
def execTsta (a : BitVec 4) (h fmt : BitVec 1) (sp : BitVec 2) (off st : RegCode) (s : State) : Out :=
  tileMove (.tsta a h fmt sp off st) true a h fmt sp.toNat off.toNat st.toNat s

/-- The scales that a layout reads for a span (R286). -/
def scaleCount (sm : Nat) (paired : Bool) : Nat :=
  match sm with
  | 0 => 1
  | 1 => if paired then 128 else 64
  | 2 => 64
  | _ => if paired then 8192 else 4096

/-- SCACC (R286). -/
def execScacc (d a : BitVec 4) (sm : BitVec 2) (fresh : BitVec 1) (off : RegCode) (s : State) : Out :=
  simtWord (.scacc d a sm fresh off) s fun q t =>
    let g := t.wg q.w.wg
    let o := (q.exe.rd off.toNat 0).toNat
    let paired := g.pairedName a.toNat
    let src := g.tilesOf a.toNat
    match (t.nameFault g a.toNat (some false) none).orElse fun _ =>
        if fresh = 1 then none else t.nameFault g d.toNat (some true) (some paired) with
    | some tr => .trap tr
    | none =>
      if o % 4 ≠ 0 then .trap { cause := 0x11, addr := o }
      else if 1024 * (t.layout.share g.part q.w.core).sc < o + 4 * scaleCount sm.toNat paired then
        .trap { cause := 0x10, addr := o, arg0 := 0x104 }
      else if fresh = 1 then
        q.tileIssue t ((t.takeTiles g.part q.w.core 1 paired).map fun ts =>
          q.queueOp (t.mapNames g [d.toNat] ts true) (.scale sm.toNat o true src) ts.flatten)
      else q.tileIssue t (some (q.queueOp t (.scale sm.toNat o false src) (g.tilesOf d.toNat)))

/-! ### AXR, AXW, TDESC (R287, R288) -/

/-- Row, column and half that an index register names. -/
def axIndex (x : BitVec 32) : Nat × Nat × Nat := (field x.toNat 6 6, field x.toNat 0 6, field x.toNat 12 1)

/-- AXR and AXW (R287): the name's checks and the wait, then f. -/
def axWord (i : Instr) (n b : Nat) (s : State) (f : Seat → State → List Nat → Eff) : Out :=
  simtWord i s fun q t =>
    let g := t.wg q.w.wg
    let ts := g.tilesOf n
    match q.exe.lanes with
    | [] => .done (t.putWarp q.w)
    | L :: _ =>
      if ts.isEmpty then .trap { cause := 0x4A, detail := 1, lane := L }
      else
        match q.exe.lanes.find? fun M => (axIndex (q.exe.rd b M)).2.2 == 1 && decide (ts.length < 2) with
        | some M => .trap { cause := 0x4A, detail := 3, lane := M }
        | none =>
          if t.pillows.ops.any fun o => o.touched.any ts.contains && !t.stuckOps.contains o.id then .stay t
          else f q t ts

/-- AXR (R287). -/
def execAxr (d : RegCode) (n : BitVec 4) (b : RegCode) (part : BitVec 1) (s : State) : Out :=
  axWord (.axr d n b part) n.toNat b.toNat s fun q t ts =>
    let v (L : Nat) : BitVec 32 :=
      let (r, c, h) := axIndex (q.exe.rd b.toNat L)
      let e := t.pillows.elem (ts.getD h 0) r c
      if part = 0 then e.setWidth 32 else (e >>> 32).setWidth 32
    .done (t.putWarp ((q.exe.lanewise d.toNat v).warpOf q.w))

/-- AXW (R287). -/
def execAxw (a : RegCode) (n : BitVec 4) (b : RegCode) (part : BitVec 1) (s : State) : Out :=
  axWord (.axw a n b part) n.toNat b.toNat s fun q t ts =>
    let step (p : Pillows) (L : Nat) : Pillows :=
      let (r, c, h) := axIndex (q.exe.rd b.toNat L)
      let T := ts.getD h 0
      let e := (p.elem T r c).toNat
      let v := (q.exe.rd a.toNat L).toNat
      let e' := if part = 0 then setField e 0 32 v else setField e 32 16 v
      { p with elems := sparseSet 0 p.elems (4096 * T + 64 * r + c) (BitVec.ofNat 48 e') }
    .done { t with pillows := q.exe.lanes.foldl step t.pillows }

/-- TDESC (R288). -/
def execTdesc (d a : RegCode) (s : State) : Out :=
  simtWord (.tdesc d a) s fun q t =>
    match q.exe.lanes with
    | [] => .done t
    | L :: _ =>
      let D := q.exe.tileDesc a.toNat L
      let r := match tileDetail [(D, 256)] with
        | some n => n
        | none => if (t.tileBounds (t.wg q.w.wg) (q.w.cap (cap D)) D).isSome then 8 else 0
      .done (t.putWarp (q.w.write d.toNat [(L, BitVec.ofNat 32 r)]))

/-! ### Products (R275, R276) -/

/-- What reading a k-row answers. -/
inductive RowGot where
  | bytes (bs : List (BitVec 8)) (s : State)
  | xlate (va reason level : Nat)
  | remote

/-- n bytes that a tile word fetches from its levels or its scale memory, unit by unit (R190); keyOf gives the key of an offset. -/
def State.tileBytes (s : State) (o : TileOp) (keyOf : Nat → Nat) (off n : Nat) : List (BitVec 8) :=
  (unitsOf 16 off n).flatMap fun u =>
    let lo := max off (16 * u)
    s.fetchUnits (tilePlace o.core o.wg) o.floors o.part (keyOf lo) (min (off + n) (16 * u + 16) - lo)

/-- The bytes of a k-row of an operand, each unit as it stands or as it stood before writes that no rule orders before the word
(R17, R180). -/
def State.tileRow (s : State) (o : TileOp) (d : TileDesc) (c : Cap) (k : Nat) : RowGot :=
  let n := rowBytes (type d) (len d)
  let at_ := off d + k * stride d
  if n = 0 then .bytes [] s
  else if space d = 0 then
    let va := (c.base + at_) % 2 ^ 56
    (unitsOf 16 va n).foldl (fun acc u =>
      match acc with
      | .bytes l t =>
        let lo := max va (16 * u)
        let m := min (va + n) (16 * u + 16) - lo
        (match t.translate o.core o.part o.ctx c.owner lo needR with
        | .error e => .xlate lo e.1 e.2
        | .ok (pa, v) => if isRemote pa then .remote else .bytes (l ++ v.fetchUnits (tilePlace o.core o.wg) o.floors c.owner pa m) v)
      | e => e) (.bytes [] s)
  else
    let g := s.wg o.wg
    .bytes (s.tileBytes o (s.levelKey g (space d) 0) at_ n) s

/-- Element i of a k-row of an integer type (R113, R126, R127); none for a reserved ternary byte. -/
def intElem (ty : Nat) (bs : List (BitVec 8)) (i : Nat) : Option Int :=
  let byte (j : Nat) : Nat := (bs.getD j 0).toNat
  let num (b v : Nat) : Int := if tileSigned ty then sext v b else (v : Int)
  match ty with
  | 0xA => ternaryDigit (byte (i / 5)) (i % 5)
  | _ =>
    match tileGroup ty with
    | some 16 => some (num 16 (byte (2 * i) + 256 * byte (2 * i + 1)))
    | some 8 => some (num 8 (byte i))
    | some b =>
      let p := shufflePos b (i % 64)
      some (num b (field (byte (8 * b * (i / 64) + p / (8 / b))) (p % (8 / b) * b) b))
    | none => none

/-- Element i of a k-row of a tapered type in the internal form (R122, R123): sign, exponent, significand; none is
NaR. -/
def tapElem (ty : Nat) (bs : List (BitVec 8)) (i : Nat) : Option (Bool × Int × Nat) :=
  let n := if ty = 0x15 then 7 else 5
  let x := if ty = 0x15 then (bs.getD i 0).toNat else field (natOf ((bs.drop (3 * (i / 4))).take 3)) (6 * (i % 4)) 6
  let m := x % 2 ^ n
  if m = 0 then (if x.testBit n then none else some (false, 0, 0))
  else some (x.testBit n, (taperedIF n m).1, (taperedIF n m).2)

/-- num / 2^k to the nearest integer, ties to even. -/
def rneShift (num k : Nat) : Nat :=
  let d := 2 ^ k
  let q := num / d
  let r := num % d
  if d < 2 * r ∨ (d = 2 * r ∧ q % 2 = 1) then q + 1 else q

/-- align (R276): the eight aligned integers and their exponent; none when one value is NaR. DEDUCED (log entry 74). -/
def alignEight (vs : List (Option (Bool × Int × Nat))) : Option (List Int × Int) :=
  if vs.any (·.isNone) then none
  else
    let l := vs.filterMap id
    match (l.filter fun v => v.2.2 != 0).map (·.2.1) with
    | [] => some (l.map fun _ => 0, 0)
    | e :: es =>
      let em := es.foldl max e
      some (l.map fun v =>
        let x : Int := (rneShift (4 * v.2.2) (em - v.2.1).toNat : Nat)
        if v.1 then -x else x, em)

/-- An AF32 element after an exact addend (R124, R276); an addend of zero that comes from integers is +0. DEDUCED (log entry 74). -/
def af32Add (c : BitVec 48) (v : FVal) : BitVec 48 :=
  BitVec.ofNat 48 (FloatFmt.f32.ofVal ⟨0, false, false⟩ ((FloatFmt.f32.decode (c.toNat % 2 ^ 32)).add 0 v))

/-- The drain of one AF32 element (R276). An exact sum of zero is taken as +0. DEDUCED (log entry 74). -/
def tapDrain (c : BitVec 48) (a b : Option (List Int × Int)) : BitVec 48 :=
  match a, b with
  | some (x, ea), some (y, eb) =>
    let t := (x.zipWith (· * ·) y).sum
    af32Add c (.fin (t < 0) t.natAbs (ea + eb - 12))
  | _, _ => 0x7FC00000

/-- The tiles of a product with their name's index, half and the block row and column of their element (0, 0)
(R274). -/
def productTiles (paired : Bool) (tiles : List Nat) : List (Nat × Nat × Nat × Nat × Nat) :=
  tiles.mapIdx fun (j T : Nat) =>
    let i := if paired then j / 2 else j
    let h := if paired then j % 2 else 0
    (T, i, h, 128 * h + 64 * (i / 4), 64 * (i % 4))

/-- A stop of an operation ends its task (R281): the report has the pc of its word and the count of kstep. -/
def State.raiseTile (s : State) (o : TileOp) (st : TileStop) (count : Nat) : State :=
  s.raise o.wg o.core o.slot o.pc o.outer
    { cause := st.cause, detail := st.detail, addr := st.addr, arg0 := count, arg1 := st.elem }

/-- A stop of an operation (R280, R281): a guard overflow waits for its handler while the warp lives and a handler is
named, and is no trap in a task that is already ending (R210); every other stop ends the task. -/
def State.stopTile (s : State) (o : TileOp) (st : TileStop) : State :=
  let t := s.putOp { o with running := false, parked := none, stop := some st }
  let live (w : Warp) : Bool := w.wg == o.wg && w.slices.any (·.live)
  let u := match t.findWarp o.core o.slot with
    | some w => if live w then t.putWarp { w with kstep := BitVec.ofNat 32 (2 ^ 31 + o.drained % 2 ^ 20) } else t
    | none => t
  let handled := st.cause == 0x25 && (t.ctxOf o.wg).guardentry != 0
  if handled && ((t.findWarp o.core o.slot).any live || t.ending o.wg) then u
  else
    u.raiseTile o st o.drained

/-- A warp has ended whose operations have stopped: they end its task, with the count that kstep holds (R281). -/
def State.endedTiles (s : State) (core slot wg : Nat) : State :=
  let count := ((s.findWarp core slot).map fun w => field w.kstep.toNat 0 20).getD 0
  (s.pillows.ops.filter fun o => o.core == core && o.slot == slot && o.wg == wg).foldl (fun t o =>
    match o.stop with
    | some st => t.raiseTile o st count
    | none => t) s

/-- What a drain finds. -/
inductive DrainGot where
  | rows (a b : List (List (BitVec 8))) (s : State)
  | xlate (va reason level : Nat)
  | stop (st : TileStop)

/-- The k-rows of both operands from k-step q0 to q1 - 1, ternary codes checked (R276): k-rows in increasing k, A's before B's,
the lowest byte first, so that the first reserved code in this order is reported. DEDUCED (log entry 74). -/
def State.drainRows (s : State) (o : TileOp) (A B : TileDesc) (ca cb : Cap) (q0 q1 : Nat) : DrainGot :=
  let want := (List.range' (8 * q0) (8 * (q1 - q0))).flatMap fun k => [(false, k), (true, k)]
  want.foldl (fun acc e =>
    match acc with
    | .rows a b t =>
      let d := if e.1 then B else A
      let c := if e.1 then cb else ca
      (match t.tileRow o d c e.2 with
      | .xlate va r l => .xlate va r l
      | .remote => .stop { cause := 0x48, detail := 7 }
      | .bytes bs u =>
        match (if type d = 0xA then bs.findIdx? fun x => decide (243 ≤ x.toNat) else none) with
        | some j =>
          let at_ := off d + e.2 * stride d + j
          .stop { cause := 0x24, addr := if space d = 0 then (c.base + at_) % 2 ^ 56 else at_ }
        | none => if e.1 then .rows a (b ++ [bs]) u else .rows (a ++ [bs]) b u)
    | e => e) (.rows [] [] s)

/-- The first failing element of a drain (R281), in the order of names, halves, rows, columns. -/
def firstFailure (grp : Nat) (tiles : List (Nat × Nat × Nat × Nat × Nat)) (bad : Nat → Nat → Nat → Option Nat) :
    Option TileStop :=
  tiles.findSome? fun e =>
    (List.range 4096).findSome? fun p =>
      (bad e.1 (e.2.2.2.1 + p / 64) (e.2.2.2.2 + p % 64)).map fun c =>
        { cause := c, elem := (8 * grp + e.2.1) + 16 * e.2.2.1 + 2 ^ 8 * (p / 64) + 2 ^ 16 * (p % 64) }

/-- One drain of a product (R275, R276). -/
def State.drainOnce (s : State) (o : TileOp) (grp : Nat) (paired : Bool) (A B : TileDesc) (ca cb : Cap) : State :=
  let tapered := tileGroup (type A) == some 1
  let d := if tapered then 1 else max (drain A) (drain B) + 1
  let q0 := o.drained
  let q1 := min (q0 + d) (ksteps A)
  match s.drainRows o A B ca cb q0 q1 with
  | .stop st => s.stopTile o st
  | .xlate va r l =>
    if s.ending o.wg then s.putOp { o with running := false, stop := some { cause := 0x20 } }
    else (s.noteFault o.core o.part o.ctx va 2 1 (r, l)).putOp { o with parked := some s.sched.uid }
  | .rows ra rb t =>
    let tiles := productTiles paired o.tiles
    let done (p : Pillows) : State := { t with pillows := p }.putOp { o with drained := q1 }
    if tapered then
      let xs := (List.range 256).map fun r =>
        alignEight (ra.map fun bs => if r < len A then tapElem (type A) bs r else some (false, 0, 0))
      let ys := (List.range 256).map fun c =>
        alignEight (rb.map fun bs => if c < len B then tapElem (type B) bs c else some (false, 0, 0))
      done (tiles.foldl (fun p e => p.putTile e.1 fun r c =>
        tapDrain (p.elem e.1 r c) (xs.getD (e.2.2.2.1 + r) none) (ys.getD (e.2.2.2.2 + c) none)) t.pillows)
    else
      let sg := tileSigned (type A) || tileSigned (type B)
      let b := (tileGroup (type A)).getD 8
      let w := 2 * b + max (TileField.g A) (TileField.g B)
      let row (d : TileDesc) (bs : List (BitVec 8)) : List Int :=
        (List.range (len d)).map fun i => (intElem (type d) bs i).getD 0
      let as := ra.map (row A)
      let bs := rb.map (row B)
      let sum (r c : Nat) : Int := ((as.zip bs).map fun e => e.1.getD r 0 * e.2.getD c 0).sum
      let acc (T r c : Nat) : Int := (t.pillows.elem T (r % 64) (c % 64)).toInt
      let bad (T r c : Nat) : Option Nat :=
        let v := sum r c
        if !inSlot w sg v then some 0x25
        else if acc T r c + v < -2 ^ 47 ∨ 2 ^ 47 ≤ acc T r c + v then some 0x26
        else none
      match firstFailure grp tiles bad with
      | some st => t.stopTile o st
      | none =>
        done (tiles.foldl (fun p e => p.putTile e.1 fun r c =>
          BitVec.ofInt 48 (acc e.1 (e.2.2.2.1 + r) (e.2.2.2.2 + c) + sum (e.2.2.2.1 + r) (e.2.2.2.2 + c))) t.pillows)

/-! ### The steps of a tile word (R277) -/

/-- An operation by its number. -/
def State.findOp (s : State) (id : Nat) : Option TileOp := s.pillows.ops.find? fun o => o.id == id

/-- A product runs on one of the cores. -/
def State.bobbinsBusy (s : State) (cores : List Nat) : Bool := cores.any fun c => !s.bobbinFree c

/-- The 16-byte units that a TSTA writes (R285): key and value. -/
def State.storeUnits (s : State) (o : TileOp) (w32 window af32 : Bool) (off st : Nat) : List (Nat × Nat) :=
  let g := s.wg o.wg
  let T := o.tiles.headD 0
  let size := if w32 then 4 else 8
  let per := 16 / size
  let elem (r c : Nat) : Nat :=
    let e := s.pillows.elem T r c
    if w32 then e.toNat % 2 ^ 32
    else if af32 then e.toNat
    else (BitVec.ofInt 64 e.toInt).toNat
  (List.range 64).flatMap fun r => (List.range (64 / per)).map fun u =>
    (s.levelKey g (if window then 2 else 1) 0 (off + r * st + 16 * u),
      ((List.range per).map fun j => elem r (per * u + j) * 2 ^ (8 * size * j)).sum)

/-- TILE_OP_START (R277): no earlier word that shares a tile is left, the follower of a pair waits (R22), and a product
finds its bobbins free (R251). The units of a TSTA leave for the scratchpad. DEDUCED (log entry 73). -/
def execTileOpStart (id : Nat) (s : State) : Out :=
  .next <|
    match s.findOp id with
    | none => s
    | some o =>
      if o.running || o.stop.isSome || (s.ctx o.part o.ctx).gated || (s.opsBefore o).any (fun e => e.blocks o) then s
      else
        match o.kind with
        | .product _ _ _ _ _ _ => if s.bobbinsBusy o.cores then s else s.putOp { o with running := true }
        | .store w32 window af32 off st =>
          let accs : List Access := (s.storeUnits o w32 window af32 off st).map fun e =>
            { id := 0, who := .gang o.core o.slot 0, word := o.id, pc := o.pc, lane := 0xFF, wg := o.wg, part := o.part
              ctx := o.ctx, owner := o.part, global := false, addr := e.1, size := 16
              act := .store e.2 none false, note := some (0, o.id), outer := o.outer }
          (s.putOp { o with running := true }).addAccesses accs
        | _ => s.putOp { o with running := true }

/-- TILE_DRAIN (R275, R276): the next drain of a running product. -/
def execTileDrain (id : Nat) (s : State) : Out :=
  .next <|
    match s.findOp id with
    | none => s
    | some o =>
      match o.kind with
      | .product p grp A B ca cb =>
        if !o.running || o.stop.isSome || o.parked.isSome || (s.ctx o.part o.ctx).gated || ksteps A ≤ o.drained then s
        else s.nextFree.drainOnce o grp p A B ca cb
      | _ => s

/-- TILE_OP_COMPLETE (R277, R284 to R286). -/
def execTileOpComplete (id : Nat) (s : State) : Out :=
  .next <|
    match s.findOp id with
    | none => s
    | some o =>
      if !o.running || o.stop.isSome || (s.ctx o.part o.ctx).gated then s
      else
        match o.kind with
        | .product _ _ A _ _ _ => if ksteps A ≤ o.drained then s.dropOp o else s
        | .zero _ => { s with pillows := s.pillows.zero o.tiles }.dropOp o
        | .store _ _ _ _ _ => if s.copyQuiet o.id then s.dropOp o else s
        | .load w32 window off st =>
          let size := if w32 then 4 else 8
          let rows := (List.range 64).map fun r =>
            s.tileBytes o (s.levelKey (s.wg o.wg) (if window then 2 else 1) 0) (off + r * st) (64 * size)
          let p := s.pillows.putTile (o.tiles.headD 0) fun r c => BitVec.ofNat 48 (natOf (((rows.getD r []).drop (size * c)).take size))
          { s.nextFree with pillows := p }.dropOp o
        | .scale sm off fresh src =>
          let first := 1024 * (s.layout.share o.part o.core).scFirst + off
          let scale (h r c : Nat) : Nat :=
            let n := match sm with
              | 0 => 0
              | 1 => 64 * h + r
              | 2 => c
              | _ => 4096 * h + 64 * r + c
            natOf (s.tileBytes o (scaleKey o.core) (first + 4 * n) 4)
          let elem (h T r c : Nat) : BitVec 48 :=
            let old := if fresh then 0 else s.pillows.elem T r c
            let a := (s.pillows.elem (src.getD h 0) r c).toInt
            af32Add old ((FVal.fin (a < 0) a.natAbs 0).mul (FloatFmt.f32.decode (scale h r c)))
          let p := (o.tiles.mapIdx fun (h T : Nat) => (h, T)).foldl (fun p e => p.putTile e.2 (elem e.1 e.2)) s.pillows
          { s.nextFree with pillows := p }.dropOp o

end Sys2Proof.Machine
end

