-- ==== Sys2Proof/Machine/Estates.lean ====
section
/-!
DEFINITION. Estates: where they stand and how room is made (R315, R319), claims and what they deliver (R323, R324, R327),
the five estate words (R317, R318, R326 to R329), and EXIT with the deposits it performs (R162, R318, R320).
-/
namespace Sys2Proof.Machine

/-! ### Storage (R315, R319) -/

/-- Bits of a register with a width code. -/
def estWidth (code : Nat) : Nat := 32 * 2 ^ code
/-- Units of 16 bytes that an estate of a shape takes. -/
def estUnits (count widths : Nat) : Nat :=
  1 + ceilDiv (((List.range count).map fun j => estWidth (widthCode widths j) / 8).sum) 16
def Estate.units (e : Estate) : Nat := estUnits e.count e.widths

/-- Units taken in a place: by estates, and in a Kennel by the deposits that hold a reservation, also those of warps that have
been scanned out (R220). -/
def State.unitsAt (s : State) (part : Nat) (p : EstatePlace) : Nat :=
  ((s.estates.filter fun e => e.part == part && e.place == p).map (·.units)).sum +
  (match p with
  | .kennel core =>
    (((s.warps ++ s.wgs.flatMap fun g => if g.saved then g.savedW else []).filter fun w =>
      w.core == core && (s.wg w.wg).part == part).map fun w => (w.deposits.map fun d => estUnits d.count d.widths).sum).sum
  | _ => 0)

/-- Units that the areas of a context hold. -/
def State.unitsInArea (s : State) (part ctx : Nat) : Nat :=
  ((s.estates.filter fun e => e.part == part && e.ctx == ctx && (match e.place with | .area _ => true | _ => false)).map
    (·.units)).sum

/-- The oldest estate in a place that is not a stray. -/
def State.oldestAt (s : State) (part : Nat) (p : EstatePlace) : Option Estate :=
  (s.estates.filter fun e => e.part == part && e.place == p && e.stray.isNone).foldl
    (fun o e => match o with
      | none => some e
      | some x => if e.born < x.born ∨ (e.born = x.born ∧ e.id < x.id) then some e else some x)
    none

def State.putEstate (s : State) (e : Estate) : State :=
  { s with estates := s.estates.map fun f => if f.id = e.id then e else f }

/-- The die in whose directory an estate is listed (R315). -/
def estateDie : EstatePlace → Nat
  | .kennel c => dieOf c
  | .reserve cl => cl / 12
  | .area d => d

/-- An estate sets out for its owner context's area (R319), where it will stand somewhere; none when it does not fit. -/
def State.toArea (s : State) (e : Estate) : Option State :=
  let c := s.ctx e.part e.ctx
  let free := c.area.length / 16 - s.unitsInArea e.part e.ctx
  if !c.area.valid || decide (free < e.units) then none
  else
    let at_ := c.area.base + 16 * (Config.freeChoice s.sched.free e.id % (c.area.length / 16 - e.units + 1))
    some ((s.putEstate { e with place := .area (estateDie e.place), addr := at_, moving := true }).nextFree)

/-- An estate with free values in place of its own. -/
def Estate.undefined (e : Estate) (n : Nat) : Estate :=
  { e with vals := (List.range e.count).map fun j => freeNat n (e.id + j) 4 % 2 ^ estWidth (widthCode e.widths j) }

/-- An estate as it is read where it stands: in the estate area its values are undefined once a program has written there
(R319). DESIGN CHOICE (log entry 62). -/
def State.estateNow (s : State) (e : Estate) : Estate :=
  match e.place with
  | .area _ => if !e.moving && s.disturbed e.part e.ctx e.addr (16 * e.units) then e.undefined s.sched.free else e
  | _ => e

/-- An estate leaves the place where it stands: the one in its area is read there on ES; where that does not translate the failure
is recorded and the estate stays, until the driver answers (R319, R344). -/
def State.leave (s : State) (e : Estate) : Option Estate × State :=
  match e.place with
  | .area _ =>
    if e.moving then (some e, s)
    else if e.parked.isSome then (none, s)
    else
      (match s.failing e.part e.ctx e.addr (16 * e.units) 16 needR with
      | some (va, rl) => (none, (s.noteFault 0xFFFF e.part e.ctx va 3 1 rl).putEstate { e with parked := some s.sched.uid })
      | none => (some (s.estateNow e), s))
  | _ => (some e, s)

/-- A moving estate arrives (R319): one that moves to its area is written there on ES, in a form that the manual does not give,
and parks where that does not translate (R344). -/
def State.settleEstate (s : State) (e : Estate) : State :=
  let here : State := s.putEstate { e with moving := false }
  match e.place with
  | .area _ =>
    let n := 16 * e.units
    (match s.failing e.part e.ctx e.addr n 16 needW with
    | some (va, rl) => (s.noteFault 0xFFFF e.part e.ctx va 3 2 rl).putEstate { e with parked := some s.sched.uid }
    | none => ((here.rootWrite e.part e.ctx e.addr (List.replicate n 0)).getD here).obscure e.part e.ctx e.addr n)
  | _ => here

/-- The oldest estates of a cluster's reserve move to their areas until need units are free in it. -/
def State.drainReserve (s : State) (part cluster size need : Nat) : Nat → Option State
  | 0 => none
  | fuel + 1 =>
    if s.unitsAt part (.reserve cluster) + need ≤ size then some s
    else
      match s.oldestAt part (.reserve cluster) with
      | none => none
      | some e => (s.toArea e).bind fun t => t.drainReserve part cluster size need fuel

/-- An estate of a core's Kennel is evicted (R319). DEDUCED (log entry 62). -/
def State.evict (s : State) (core : Nat) (e : Estate) : Option State :=
  let size := s.layout.reserve e.part core / 16
  if size < e.units then s.toArea e
  else
    (s.drainReserve e.part (core / 4) size e.units (s.estates.length + 1)).map fun t =>
      t.putEstate { e with place := .reserve (core / 4), moving := true }

/-- Room for need units in a core's Kennel, the oldest estates evicted until it is there; none where the chain ends. -/
def State.makeRoom (s : State) (part core need : Nat) : Nat → Option State
  | 0 => none
  | fuel + 1 =>
    if s.unitsAt part (.kennel core) + need ≤ (s.layout.share part core).kn then some s
    else
      match s.oldestAt part (.kennel core) with
      | none => none
      | some e => (s.evict core e).bind fun t => t.makeRoom part core need fuel

/-! ### Strays and deposits (R320, R330) -/

/-- The estates that a test picks and that stand become strays. -/
def State.strayed (s : State) (status : Nat) (p : Estate → Bool) : State :=
  { s with estates := s.estates.map fun e =>
      if e.stray.isNone && p e then { e with stray := some status, strayAt := s.sched.steps } else e }

/-- A held deposit is performed (R318, R320). -/
def State.deposit (s : State) (w : Warp) (d : Deposit) : State :=
  let g := s.wg w.wg
  let t := s.strayed 4 fun e => e.part == g.part && e.ctx == g.ctx && e.key == d.key
  { t.nextUid with estates := t.estates ++
      [{ id := t.sched.uid, part := g.part, ctx := g.ctx, key := d.key, count := d.count, widths := d.widths
         vals := d.values, core := w.core, place := .kennel w.core, born := t.sched.now }] }

/-! ### Claims (R323, R324, R327) -/

/-- The estate that stands under a key. -/
def State.estateOf (s : State) (part ctx key : Nat) : Option Estate :=
  s.estates.find? fun e => e.part == part && e.ctx == ctx && e.key == key && e.stray.isNone

/-- The claim takes its estate out of the directory. -/
def State.takeEstate (s : State) (e : Estate) : State := { s with estates := s.estates.filter fun f => f.id != e.id }

/-- The value of register r of an estate in a destination of a width code: value, and the bits short and wconv. -/
def claimValue (e : Option Estate) (r hw : Nat) : Nat × Bool × Bool :=
  match e with
  | none => (0, false, false)
  | some e =>
    if e.count ≤ r then (0, true, false)
    else (e.vals.getD r 0 % 2 ^ estWidth hw, false, widthCode e.widths r != hw)

/-- The status bits of a resolved claim (R324). -/
def claimStatus (core : Nat) (c : Claim) (e : Option Estate) : Nat :=
  let got := c.entries.map fun x => claimValue e x.1 x.2.1
  let put (b : Bool) (group : Nat) : Nat := if b then 2 ^ (4 * group + c.slot) else 0
  put e.isNone 0 + put (got.any fun x => x.2.1) 1 + put (got.any fun x => x.2.2) 2 +
  (match e with
  | none => 0
  | some e =>
    put ((List.range e.count).any fun r => c.entries.all fun x => x.1 != r) 3 +
    put (match c.expect with
      | none => false
      | some (n, ws) => e.count != n || (List.range (min e.count n)).any fun j => widthCode e.widths j != widthCode ws j) 4 +
    put (e.place != .kennel core) 5)

/-- The registers of a claim take their values, its status joins the lane's, and it is gone (R323, R324). -/
def Warp.resolve (w : Warp) (c : Claim) (e : Option Estate) : Warp :=
  let vals := c.entries.flatMap fun x =>
    x.2.2.mapIdx fun i idx => (regKey idx c.lane, BitVec.ofNat 32 ((claimValue e x.1 x.2.1).1 / 2 ^ (32 * i)))
  { w with
    regs := sparseSetAll 0 w.regs vals
    estat := sparseSet 0 w.estat c.lane (sparseGet 0 w.estat c.lane ||| BitVec.ofNat 32 (claimStatus w.core c e))
    claims := w.claims.filter fun d => d.id != c.id
    pend := w.pend.filter fun p => p.id != c.id }

/-- A claim joins a warp: its registers are pending from now on. -/
def Warp.addClaim (w : Warp) (c : Claim) : Warp :=
  let names := c.entries.flatMap fun x => x.2.2.map fun idx => RegName.lane idx
  { w with claims := w.claims ++ [c], pend := w.pend ++ [{ id := c.id, slices := [], names := names, writes := [] }] }

/-- A claim takes an estate out of the directory, once it can leave its place. -/
def State.serveClaim (s : State) (w : Warp) (c : Claim) (e : Estate) : State :=
  match s.leave e with
  | (some x, t) => (t.takeEstate e).putWarp { w with claims := w.claims.map fun d => if d.id = c.id then { d with taken := some x } else d }
  | (none, t) => t

/-- The directory answers a claim, where the rules of R327 let it (R323): the estate is taken, or the claim resolves as
absent, or it waits. -/
def State.answer (s : State) (w : Warp) (c : Claim) : State :=
  let g := s.wg w.wg
  match s.estateOf g.part g.ctx c.key with
  | some e => s.serveClaim w c e
  | none =>
    let P := c.key / 2 ^ 40
    if P != g.lineage && (s.gridsOf g.part g.ctx).any fun h => h.lineage == P then s else s.putWarp (w.resolve c none)

/-- ESTATE_ARRIVAL (R319, R323): a claim that has its estate delivers it; another one is answered by the directory; an evicted
estate arrives at its new place. -/
def execEstateArrival (id : Nat) (s : State) : Out :=
  .next <|
    match s.warps.find? fun w => w.claims.any fun c => c.id == id with
    | none =>
      (match s.estates.find? fun e => e.id == id && e.moving && e.parked.isNone with
      | some e => s.settleEstate e
      | none => s)
    | some w =>
      match w.claims.find? fun c => c.id == id with
      | none => s
      | some c =>
        if (s.ctxOf w.wg).gated && c.taken.isNone then s
        else
          match c.taken with
          | some e => s.putWarp (w.resolve c (some e))
          | none => s.answer w c

/-! ### Blocks, keys and lineages of the words (R317) -/

/-- The lowest executing lane, which a fault that no single lane causes reports (R334); 0xFF where there is none. DEDUCED (log entry 65). -/
def Seat.lowLane (q : Seat) : Nat := q.exe.lanes.headD 0xFF

/-- The checks of the block (R317): details 1 and 2. -/
def blockFault (f n widths : Nat) : Option Trap :=
  if 2 ^ 16 ≤ widths ∨ (List.range n).any fun j => widthCode widths j == 3 then some { cause := 0x59, detail := 1 }
  else if 44 < (blockCodes f n widths).2 then some { cause := 0x59, detail := 2 }
  else none

/-- A check of a scalar, which every executing lane fails alike. -/
def Seat.uniform (q : Seat) (t : Option Trap) : Option Trap := t.map fun x => { x with lane := q.lowLane }

/-- The check of the keys: the lowest lane whose pair passes 40 bits. DEDUCED (log entry 65). -/
def Seat.keyFault (q : Seat) (k : Nat) : Option Trap :=
  (q.exe.lanes.find? fun L => decide (2 ^ 40 ≤ (q.exe.rd64 k L).toNat)).map fun L => { cause := 0x59, detail := 3, lane := L }

/-- The check of a lineage scalar. -/
def lineageFault (v : BitVec 32) : Option Trap :=
  if v = 0 ∨ 2 ^ 24 ≤ v.toNat then some { cause := 0x59, detail := 4 } else none

/-! ### BEQUEATH (R318) -/

/-- BEQUEATH (R318). -/
def execBequeath (f : RegCode) (n w : BitVec 3) (k : RegCode) (s : State) : Out :=
  simtWord (.bequeath f n w k) s fun q t =>
    let g := t.wg q.w.wg
    let count := n.toNat + 1
    let widths := (sparseGet 0 q.w.s w.toNat).toNat
    let codes := (blockCodes f.toNat count widths).1
    if q.inHandler then .trap { cause := 0x58, detail := 2, lane := q.lowLane }
    else if !kdBeq (t.grid g.grid).desc then .trap { cause := 0x58, detail := 3, lane := q.lowLane }
    else
      match (q.uniform (blockFault f.toNat count widths)).orElse fun _ => if k = 60 then none else q.keyFault k.toNat with
      | some tr => .trap tr
      | none =>
          let item (L : Nat) : Nat :=
            if k = 60 then (q.w.wid * (q.w.wgWarps * q.w.width) + q.w.lid L) % 2 ^ 40 else (q.exe.rd64 k.toNat L).toNat
          let deps := q.exe.lanes.map fun L =>
            ({ lane := L, key := g.lineage * 2 ^ 40 + item L, count := count, widths := widths % 2 ^ (2 * count)
               values := codes.map fun c => q.exe.rdGroup c.2 c.1 L } : Deposit)
          let need := deps.length * estUnits count widths
          match (if deps.isEmpty then some t else t.makeRoom g.part q.w.core need (t.estates.length + 1)) with
          | none => .trap { cause := 0x27, lane := q.lowLane, arg0 := deps.length }
          | some u =>
            .done (u.putSeat { w := { q.w with deposits := q.w.deposits ++ deps }, g := { q.g with mustExit := true } })

/-! ### EXIT (R162) -/

/-- The Collie thread of a workgroup whose last warp has ended stops (R231). -/
def State.stopCollie (s : State) (uid : Nat) : State :=
  if s.warps.any fun w => w.wg == uid && w.slices.any (·.live) then s
  else { s with collies := s.collies.map fun c => if c.wg = uid then { c with stopped := true } else c }

/-- A warp whose slices have all ended waits for nothing more (R77, R162). -/
def Warp.settled (w : Warp) : Warp :=
  if w.slices.any (·.live) then w else { w.dropPending with claims := [], pend := [] }

/-- Slices of a warp have ended: its barriers and sets are looked at again; with the last one of the warp its stopped tile words
become traps, and with the last warp of its workgroup the Collie thread stops (R231, R281, R292). -/
def State.slicesEnd (s : State) (w : Warp) (core slot : Nat) : State :=
  let t := s.endedSlices w core slot
  if w.slices.any (·.live) then t else (t.endedTiles core slot w.wg).stopCollie w.wg

/-- EXIT (R162, R318). DEDUCED (log entry 63). -/
def execExit (s : State) : Out :=
  simtWord .exit s fun q t =>
    let ends := q.exe.lanes
    let mask (j : Nat) : BitVec 4 := BitVec.ofNat 4 (maskOf ((ends.filter fun L => L / 4 == j).map (· % 4)))
    let goesOn (j : Nat) : Bool := (q.w.slice j).lanemask &&& ~~~ mask j != 0
    let nx := nextPc q.pc
    if nx.isNone && q.g.slices.any goesOn then .trap { cause := 0xB }
    else
      let mine (d : Deposit) : Bool := q.g.slices.contains (d.lane / 4)
      let w := q.w.mapSlices q.g.slices fun j x => x.endLanes (mask j) (nx.getD 0)
      let w2 := q.part { w.dropPending with deposits := w.deposits.filter fun d => !mine d }.settled .none false
      let t1 := (q.w.deposits.filter mine).foldl (fun u d => u.deposit q.w d) (t.putWarp w2)
      let t2 := t1.noteWrite q.w.wg (q.w.deposits.filter mine).length
      .jump (t2.slicesEnd w2 q.w.core q.w.slot)

/-! ### ESTAT, ECLAIM, ERELEASE, EPROBE (R326 to R329) -/

/-- ESTAT (R326). -/
def execEstat (d : RegCode) (clr : BitVec 1) (s : State) : Out :=
  simtWord (.estat d clr) s fun q t =>
    let lanes := q.exe.lanes
    if q.w.claims.any fun c => lanes.contains c.lane then .stay t
    else
      let w := (q.exe.lanewise d.toNat fun L => sparseGet 0 q.w.estat L).warpOf q.w
      .done (t.putWarp (if clr = 1 then { w with estat := sparseSetAll 0 w.estat (lanes.map fun L => (L, 0)) } else w))

/-- The five status bits of a claim index. -/
def slotMask (slot : Nat) : BitVec 32 := BitVec.ofNat 32 (maskOf ((List.range 6).map fun g => 4 * g + slot))

/-- ECLAIM (R327). -/
def execEclaim (f : RegCode) (n w : BitVec 3) (k : RegCode) (l : BitVec 3) (slot : BitVec 2) (s : State) : Out :=
  simtWord (.eclaim f n w k l slot) s fun q t =>
    let count := n.toNat + 1
    let widths := (sparseGet 0 q.w.s w.toNat).toNat
    let P := sparseGet 0 q.w.s l.toNat
    let codes := (blockCodes f.toNat count widths).1
    match ((q.uniform (blockFault f.toNat count widths)).orElse fun _ => q.keyFault k.toNat).orElse fun _ => q.uniform (lineageFault P) with
    | some tr => .trap tr
    | none =>
        let lanes := q.exe.lanes
        let st := lanes.map fun L => (L, sparseGet 0 q.w.estat L &&& ~~~ slotMask slot.toNat)
        let w0 := { q.w with estat := sparseSetAll 0 q.w.estat st }
        let (v, uid) := lanes.foldl (fun (acc : Warp × Nat) L =>
          let base := (acc.1.slice (L / 4)).base
          (acc.1.addClaim
            { id := acc.2, lane := L, slot := slot.toNat
              key := P.toNat * 2 ^ 40 + (q.exe.rd64 k.toNat L).toNat
              entries := codes.mapIdx fun j c => (j, c.2, List.range' (base + c.1) (2 ^ c.2)) }, acc.2 + 1)) (w0, t.sched.uid)
        let u := t.putWarp v
        .done { u with sched := { u.sched with uid := uid } }

/-- The estates a key or a lineage names become strays with status 2 (R328). DEDUCED (log entry 64). -/
def execErelease (l : BitVec 3) (s : State) : Out :=
  simtWord (.erelease l) s fun q t =>
    let P := sparseGet 0 q.w.s l.toNat
    let g := t.wg q.w.wg
    match q.uniform (lineageFault P) with
    | some tr => .trap tr
    | none => .done (t.strayed 2 fun e => e.part == g.part && e.ctx == g.ctx && e.key / 2 ^ 40 == P.toNat)
def execEreleaseKey (l : BitVec 3) (k : RegCode) (s : State) : Out :=
  simtWord (.ereleaseKey l k) s fun q t =>
    let P := sparseGet 0 q.w.s l.toNat
    let g := t.wg q.w.wg
    match (q.keyFault k.toNat).orElse fun _ => q.uniform (lineageFault P) with
    | some tr => .trap tr
    | none =>
      let keys := q.exe.lanes.map fun L => P.toNat * 2 ^ 40 + (q.exe.rd64 k.toNat L).toNat
      .done (t.strayed 2 fun e => e.part == g.part && e.ctx == g.ctx && keys.contains e.key)

/-- What EPROBE reports of an estate (R329). DEDUCED (log entry 61). -/
def probeWord (core : Nat) (e : Estate) : BitVec 32 :=
  if e.stray.isSome then BitVec.ofNat 32 (6 * 2 ^ 28 + e.count * 2 ^ 16 + e.widths)
  else
    let level := if e.moving then 5 else match e.place with
      | .kennel c => if c = core then 0 else if dieOf c = dieOf core then 1 else 2
      | .reserve _ => 3
      | .area _ => 4
    BitVec.ofNat 32 (2 ^ 31 + level * 2 ^ 28 + e.count * 2 ^ 16 + e.widths)

/-- EPROBE (R329). -/
def execEprobe (d k : RegCode) (l : BitVec 3) (s : State) : Out :=
  simtWord (.eprobe d k l) s fun q t =>
    let P := sparseGet 0 q.w.s l.toNat
    let g := t.wg q.w.wg
    match (q.keyFault k.toNat).orElse fun _ => q.uniform (lineageFault P) with
    | some tr => .trap tr
    | none =>
      let mine (key : Nat) (e : Estate) : Bool := e.part == g.part && e.ctx == g.ctx && e.key == key
      let val (L : Nat) : BitVec 32 :=
        let key := P.toNat * 2 ^ 40 + (q.exe.rd64 k.toNat L).toNat
        match t.estateOf g.part g.ctx key with
        | some e => probeWord q.w.core e
        | none =>
          match t.estates.find? (mine key) with
          | some e => probeWord q.w.core e
          | none => 0
      .done (t.putWarp ((q.exe.lanewise d.toNat val).warpOf q.w))

end Sys2Proof.Machine
end

