-- ==== Sys2Proof/Machine/Running.lean ====
section
/-!
DEFINITION. What happens to agents without a word of their own: runs begin (R86 to R88), results and data arrive (R34, R171,
R265), parked gangs wake (R157, R159, R160), accesses are performed (R391), tickets arrive (R177).
-/
namespace Sys2Proof.Machine

/-! ### Runs (R86 to R88) -/

/-- The priority class of a gang: its grid's (R298). -/
def State.prio (s : State) (q : Seat) : Nat := pkPrio (s.grid (s.wg q.w.wg).grid).packet

/-- The order of R87: boosts, class, age, lead slice. -/
def State.outranks (s : State) (a b : Seat) : Bool :=
  if a.g.boost ≠ b.g.boost then
    match a.g.boost, b.g.boost with
    | some x, some y => decide (x < y)
    | x, _ => x.isSome
  else if s.prio a ≠ s.prio b then decide (s.prio b < s.prio a)
  else if a.w.birth ≠ b.w.birth then decide (a.w.birth < b.w.birth)
  else decide (a.lead < b.lead)

/-- The first seat that no other outranks. -/
def State.best (s : State) (l : List Seat) : Option Seat := l.find? fun a => l.all fun b => a == b || s.outranks a b

/-- The ports of a core that open runs hold; a gang that is stopped in place leaves its port to others (R33, R220). -/
def State.busyPorts (s : State) (core : Nat) : List Nat := (s.openRuns core).map (·.port)

/-- RUN_START (R87, R88): the best ready gang of a core begins a run on the lowest free port, or goes on with the run that its
handler has interrupted (R229). The gangs are ranked anew at each run start of a cycle: one that an earlier run start
of the cycle has boosted ranks as boosted. DESIGN CHOICE (log entry 134). -/
def execRunStart (core : Nat) (s : State) : Out :=
  .next <|
    let ready := s.readySeats core
    let busy := s.busyPorts core
    match s.best ready, (List.range Config.ports).find? fun p => !busy.contains p with
    | some q, some port =>
      let v := s.runBegins core q.w.slot q.lead
      (match v.seat core q.w.slot q.lead with
      | some x => v.putSeat { x with g := { x.g with
          run := some (x.g.resume.getD {}), resume := none, port := port, began := s.sched.uid, starv := 0, boost := none } }
      | none => v)
    | _, _ => s

/-! ### Arrivals -/

/-- An access to another device is answered: a loaded or old value is whatever that device holds (R175), and so is the tag of a
capability (R188); a write hits the monitors of its line (R160), a REL is remembered (R199), and whether a compare-and-swap has
written is a free choice. DEDUCED (log entry 30). -/
def State.answerRemote (s : State) (a : Access) : State :=
  let rel : List Release := match a.rel with
    | some (scope, high) => [⟨a.sentPa, s.mem.clock, high, scope, a.place⟩]
    | none => []
  let t := (s.dropAccess a).withMem { (s.dropAccess a).mem with releases := (s.dropAccess a).mem.releases ++ rel }
  let v := natOf ((List.range a.size).map fun i => Config.freeByte s.sched.free i)
  let o := field v 122 5
  let valid := (o == a.part || o == hostShared) && Config.freeChoice s.sched.free a.id % 2 == 1
  let written (u : State) : State := u.withMem (u.mem.hitLines (a.sentPa / 64) (a.sentPa / 64))
  match a.act with
  | .load ret => (t.deliver a.who ret v valid).nextFree
  | .store _ _ _ => written t
  | .atom op _ _ ret =>
    let u := if op = 9 ∧ Config.freeChoice s.sched.free a.id % 2 = 0 then t else written (t.noteWrite a.wg 1)
    (match ret with | some r => u.deliver a.who r v | none => u).nextFree

/-- The accesses that a test picks are performed, the sent ones answered. -/
def State.finish (s : State) (p : Access → Bool) : State :=
  (s.mem.access.filter p).foldl (fun t a =>
    match t.mem.access.find? fun b => b.id == a.id with
    | none => t
    | some b => if b.sent.isSome then t.answerRemote b else t.performAccess b.id) s

/-- The access returns its value to a pending result. -/
def Access.feeds (a : Access) (id : Nat) : Bool :=
  match a.act with
  | .load (.pend i _) => i == id
  | .atom _ _ _ (some (.pend i _)) => i == id
  | _ => false

/-- Values of a pending result take their places in a warp. -/
def Warp.applyWrites (w : Warp) (l : List (Dest × BitVec 32)) : Warp :=
  l.foldl (fun v e =>
    match e.1 with
    | .lane k => { v with regs := sparseSet 0 v.regs k e.2 }
    | .temp k => { v with temps := sparseSet 0 v.temps k e.2 }
    | .scalar n => { v with s := sparseSet 0 v.s n e.2 }) w
def Scalar.applyWrites (x : Scalar) (l : List (Dest × BitVec 32)) : Scalar :=
  l.foldl (fun v e => match e.1 with | .scalar n => { v with s := sparseSet 0 v.s n e.2 } | _ => v) x

def Warp.arriveResult (w : Warp) (id : Nat) : Warp :=
  match w.pend.find? fun p => p.id == id with
  | some p => { w.applyWrites p.writes with pend := w.pend.filter fun p => p.id != id }
  | none => w
def Scalar.arriveResult (x : Scalar) (id : Nat) : Scalar :=
  match x.pend.find? fun p => p.id == id with
  | some p => { x.applyWrites p.writes with pend := x.pend.filter fun p => p.id != id }
  | none => x

/-- The pending result of an agent arrives. -/
def State.arriveResult (s : State) (who : Agent) (id : Nat) : State :=
  match who with
  | .gang core slot _ =>
    (match s.findWarp core slot with
    | some w => if w.claims.any fun c => c.id == id then s else s.putWarp (w.arriveResult id)
    | none => s)
  | .collie core thread =>
    (match s.findCollie core thread with
    | some c => s.putCollie { c with x := c.x.arriveResult id }
    | none => s)
  | .mc => { s with mc := { s.mc with x := s.mc.x.arriveResult id } }

/-- RESULT_ARRIVAL (R34): the loads of the result are performed; once all are, it arrives. DEDUCED (log entry 16). -/
def execResultArrival (who : Agent) (id : Nat) (s : State) : Out :=
  .next <|
    let t := s.finish fun a => a.feeds id
    if t.mem.access.any fun a => a.feeds id then t else t.arriveResult who id

/-- WINDOW_SPILL_FILL_DONE (R42). -/
def execWindowSpillFillDone (core slot lead : Nat) (s : State) : Out :=
  .next <|
    match s.seat core slot lead with
    | some q => if (s.ctxOf q.w.wg).gated then s else s.putSeat { q with g := { q.g with spill := false } }
    | none => s

/-- QUEUE_DATA_ARRIVAL (R171): the loads of the queue's entry are performed; the entry is ready once all are. -/
def execQueueDataArrival (core slot q idx : Nat) (s : State) : Out :=
  .next <|
    match s.findWarp core slot with
    | none => s
    | some w =>
      match (w.queue q)[idx]? with
      | none => s
      | some e =>
        s.finish fun a =>
          match a.act with
          | .load (.queue _ i _) => i == e.id
          | .atom _ _ _ (some (.queue _ i _)) => i == e.id
          | _ => false

/-- The word whose data an agent is held by. -/
def State.heldWord (s : State) (who : Agent) : Option Nat :=
  let h : Option Hold := match who with
    | .gang core slot lead => (s.seat core slot lead).map fun (q : Seat) => q.g.hold
    | .collie core thread => (s.findCollie core thread).map fun (c : Collie) => c.x.hold
    | .mc => some s.mc.x.hold
  match h with
  | some (.data w) => some w
  | _ => none

/-- ACCESS_DATA_ARRIVAL (R188, R265, R176): the accesses of the held word are performed; once all are, the agent goes on at
its next word, a Collie's atomic with its old value. -/
def execAccessDataArrival (who : Agent) (s : State) : Out :=
  .next <|
    match s.heldWord who with
    | none => s
    | some word =>
      let t := s.finish fun a => a.word == word
      if t.mem.access.any fun a => a.word == word then t
      else
        match who with
        | .gang core slot lead =>
          (match t.seat core slot lead with
          | some q =>
            let r := q.advance .nop none
            t.putSeat { r with g := { r.g with hold := .none } }
          | none => t)
        | .collie core thread =>
          (match t.findCollie core thread with
          | some c =>
            let d := { c with x := c.x.arriveResult word }.advance .nop none
            t.putCollie { d with x := { d.x with hold := .none } }
          | none => t)
        | .mc => t

/-- STORE_PERFORM (R391): an access is performed. -/
def execStorePerform (id : Nat) (s : State) : Out := .next (s.performAccess id)

/-- An access may ask the domain's sequencer for its ticket: those of its slice or word before it have theirs (R177, R201), and
none that it would have to wait for is still in flight. -/
def State.mayAsk (s : State) (a : Access) : Bool :=
  let asks (b : Access) : Bool := b.seqr == some 1 && b.ticket.isNone
  asks a && (s.before a).isEmpty &&
    (s.mem.access.takeWhile fun b => b.id != a.id).all fun b => !(asks b && (b.word == a.word || (b.who == a.who && b.wg == a.wg)))

/-- SC_TICKET_REQUEST (R177): the domain's sequencer gives the next ticket; tickets follow program order and lane order
(R201). DEDUCED (log entry 111). -/
def execScTicketRequest (id : Nat) (s : State) : Out :=
  .next <|
    match s.mem.access.find? fun a => a.id == id with
    | some a =>
      if s.mayAsk a then
        let n := sparseGet 0 s.mem.tickets 1
        let t := s.putAccess { a with ticket := some n }
        t.withMem { t.mem with tickets := sparseSet 0 t.mem.tickets 1 (n + 1) }
      else s
    | none => s

/-! ### Wakes (R157, R159, R160) -/

/-- The context of an agent is under cooperative pre-emption or stopped in place: a gang parked at a pre-emption word stays
parked (R218, R220). DEDUCED (log entry 112). -/
def State.frozen (s : State) (uid : Nat) : Bool :=
  let c := s.ctxOf uid
  c.preempting.isSome || c.gated

/-- The workgroup of an agent. -/
def State.agentWg (s : State) : Agent → Option Nat
  | .gang core slot _ => (s.findWarp core slot).map (·.wg)
  | .collie core thread => (s.findCollie core thread).map (·.wg)
  | .mc => none
def State.agentFrozen (s : State) (who : Agent) : Bool :=
  match s.agentWg who with
  | some uid => s.frozen uid
  | none => false

/-- YIELD_WAKE (R157). DEDUCED (log entry 35). -/
def execYieldWake (core slot lead : Nat) (s : State) : Out :=
  .next <|
    match s.seat core slot lead with
    | none => s
    | some q =>
      match q.g.park with
      | .yield _ since starts =>
        if !s.frozen q.w.wg && (decide (since + 64 ≤ s.sched.now) || decide (starts < sparseGet 0 s.sched.starts core)) then
          s.putSeat { q with g := { q.g with park := .none } }
        else s
      | _ => s

/-- The monitor of an agent. -/
def State.monitorOf (s : State) (who : Agent) : Option Monitor := s.mem.monitors.find? fun m => m.who == who

/-- MONITOR_WRITE_WAKE (R160). -/
def execMonitorWriteWake (who : Agent) (s : State) : Out :=
  .next <|
    match s.monitorOf who with
    | some m => if m.hit && !s.agentFrozen who then s.wake who else s
    | none => s

/-- WAITMON_TIMEOUT (R159). -/
def execWaitmonTimeout (who : Agent) (s : State) : Out :=
  .next <|
    match s.monitorOf who with
    | some m => if m.limit ≠ 0 ∧ m.since + m.limit ≤ s.sched.now ∧ !s.agentFrozen who then s.wake who else s
    | none => s

/-- SPURIOUS_WAKE (R160). -/
def execSpuriousWake (who : Agent) (s : State) : Out :=
  .next (if (s.monitorOf who).isSome && !s.agentFrozen who then s.wake who else s)

end Sys2Proof.Machine
end

