-- ==== Sys2Proof/Machine/Domain.lean ====
section
/-!
DEFINITION. The load-store domain: accesses that arrive from other devices (R16, R374), answers, windows and lost devices
(R175, R375, R376).
-/
namespace Sys2Proof.Machine

/-- The local tag of a source device's owner (R374). DEDUCED (log entry 94). -/
def Domain.tag (d : Domain) (src owner : Nat) : Option Nat := ((sparseGet [] d.map src)[owner]?).join

/-- An access from another device may reach n bytes at pa under tag o (R374). -/
def Layout.opensAll (l : Layout) (o pa n : Nat) : Bool :=
  decide (0 < n) && decide (pa + n ≤ 2 ^ 43) && (unitsOf 64 pa n).all fun u => l.opens o (max pa (64 * u))

/-- FB_REMOTE_ACCESS_ARRIVAL (R16, R374): performed under the mapped tag, or refused. -/
def execFbRemoteAccessArrival (src owner : Nat) (acc : RemoteAccess) (s : State) : Out :=
  .next <|
    match s.domain.tag src owner with
    | none => s
    | some o =>
      match acc with
      | .read _ _ => s
      | .write pa bytes => if s.layout.opensAll o pa bytes.length then s.withMem (s.mem.write o pa bytes) else s
      | .atom op pa size v v2 =>
        if (size = 4 ∨ size = 8) ∧ op ≤ 10 ∧ s.layout.opensAll o pa size then
          match atomNew op size (s.mem.read o pa size) (v.toNat % 2 ^ (8 * size)) (v2.toNat % 2 ^ (8 * size)) with
          | some n => s.withMem (s.mem.writeNat o pa size n)
          | none => s
        else s

/-- FB_ACKNOWLEDGEMENT (R175, R374): the target has performed the access, or has refused it, which is reason 4 of R344,
with path 0 in its record. DESIGN CHOICE (log entry 30). -/
def execFbAcknowledgement (id : Nat) (s : State) : Out :=
  .next <|
    match s.mem.access.find? fun a => a.id == id with
    | some a =>
      if a.sent.isNone then s
      else if Config.freeChoice s.sched.free id % 2 = 0 then s.nextFree.answerRemote a
      else
        let t := s.nextFree
        (t.noteFault (agentCore a.who) a.part a.ctx a.addr (if a.note.isSome then 1 else 0) a.act.kind (4, 0)).putAccess
          { a with sent := none, parked := some t.sched.uid }
    | none => s

/-- FB_GRANT (R375): the window reopens; a device that was lost is reached again once a map names it (R376). -/
def execFbGrant (dst flits : Nat) (s : State) : Out :=
  .next <|
    let d := s.domain
    let used := sparseGet 0 d.flits dst
    if d.remapped.contains dst then
      { s with domain := { d with
          flits := sparseSet 0 d.flits dst 0
          lost := d.lost.filter fun x => x != dst, remapped := d.remapped.filter fun x => x != dst } }
    else { s with domain := { d with flits := sparseSet 0 d.flits dst (used - flits) } }

/-- A device is lost (R376): what was sent to it ends as failed, and event 10 is posted. -/
def State.loseDevice (s : State) (dev : Nat) : State :=
  if s.domain.isLost dev then s
  else
    let out := s.mem.access.filter fun a => a.sent == some dev
    let t := { s with domain := { s.domain with
      lost := s.domain.lost ++ [dev], remapped := s.domain.remapped.filter fun x => x != dev } }
    let u := out.foldl (fun v a => v.failAccess a dev) t
    u.post 0 { code := 10, gen := 0, arg0 := dev, arg1 := min out.length (2 ^ 32 - 1) }

/-- FB_ACCESS_TIMEOUT (R376). -/
def execFbAccessTimeout (id : Nat) (s : State) : Out :=
  .next <|
    match s.mem.access.find? fun a => a.id == id with
    | some a =>
      (match a.sent with
      | some dev => if a.sentAt + 2 ^ 24 ≤ s.sched.now then s.loseDevice dev else s
      | none => s)
    | none => s

/-- DOMAIN_LINK_DOWN (R376). -/
def execDomainLinkDown (device : Nat) (s : State) : Out :=
  .next (if device < 256 ∧ device ≠ s.domain.domid then s.loseDevice device else s)

end Sys2Proof.Machine
end

