-- ==== Sys2Proof/Machine/Distribute.lean ====
section
/-!
DEFINITION. The distributors and queue engines: acceptance (R294, R296, R301, R322), shares and placement (R76, R297, R298),
birth (R75, R231, R295, R308, R323), stealing between dies (R299), tasks (R308 to R310), the energy refill, and doorbells
(R366).
-/
namespace Sys2Proof.Machine

/-! ### Room on a core (R76, R231) -/

/-- What a workgroup takes on a core. -/
structure Room where
  slots : List Nat
  rows : List Nat
  privRows : List Nat
  thread : Option Nat
deriving DecidableEq, Repr, Inhabited

/-- The workgroups that hold resources on a core for a partition. -/
def State.residents (s : State) (part core : Nat) : List Workgroup :=
  s.wgs.filter fun g => g.core == core && g.part == part && !g.released && !g.saved

/-- An engine of a core waits for its idle point, so that nothing is placed there (R383, R384): the core, its pillow or its
Kennel awaits activation or a reset. DESIGN CHOICE (log entry 7). DEDUCED (log entry 56). -/
def Mgmt.holdsCore (m : Mgmt) (core : Nat) : Bool :=
  m.pend.any (fun e => e.2 == core && (e.1 == 0 || e.1 == 2 || e.1 == 3)) ||
  m.ereset.any fun e => e.2 == core && (let k := Config.unitKind e.1; k == 0 || k == 2 || k == 3)

/-- The resources of one workgroup of n warps on a core, lowest first, when all of them are free. -/
def State.room (s : State) (part core : Nat) (d : BitVec 512) (n : Nat) : Option Room :=
  let h := s.layout.share part core
  let here := s.residents part core
  let warps := s.warps.filter fun w => w.core == core && (s.wg w.wg).part == part
  let slots := (List.range' h.slotFirst h.slots).filter fun x => !warps.any fun w => w.slot == x
  let rows := (List.range' h.spFirst (h.sp - h.exported)).filter fun x => !here.any fun g => g.rows.contains x || g.privRows.contains x
  let rg := (warps.map fun w => w.alloc * w.width / 16).sum
  let bars := (here.map fun g => g.bars.length).sum
  let threads := (List.range' h.colFirst h.col).filter fun x => !here.any fun g => g.thread == some x
  let needRows := kdGroup d + kdPrivRows d n
  let collie := kdCollielen d != 0
  if !s.mgmt.holdsCore core ∧ n ≤ slots.length ∧ rg + kdRegRows d n ≤ h.rg ∧ needRows ≤ rows.length ∧ bars + kdBars d ≤ h.bars ∧
      (!collie ∨ threads ≠ []) then
    some { slots := slots.take n, rows := rows.take (kdGroup d), privRows := (rows.drop (kdGroup d)).take (kdPrivRows d n)
           thread := if collie then threads.head? else none }
  else none

/-- Rows of a core's scratchpad cleared (R77). -/
def State.clearRows (s : State) (core : Nat) (rows : List Nat) : State :=
  s.withMem (s.mem.clear fun k => rows.any fun r => decide (padKey core (256 * r) ≤ k) && decide (k < padKey core (256 * r + 256)))

/-- A workgroup of a grid placed on a core: its record and its warps, which are not born yet. -/
def State.place (s : State) (g : Grid) (core wi n : Nat) (r : Room) (f : Workgroup → Workgroup) : State :=
  let uid := s.sched.uid
  let d := g.desc
  let wg : Workgroup := f {
    uid := uid, grid := g.uid, ctx := g.ctx, part := g.part, core := core, lineage := g.lineage, wi := wi
    width := kdWidth d, warps := n, alloc := kdAlloc d
    groupB := 256 * kdGroup d, privB := 16 * kdPrivate d, sliceB := 16 * kdSlice d
    rows := r.rows, privRows := r.privRows, bars := List.replicate (kdBars d) { count := n }
    thread := r.thread, taskid := wi % 2 ^ 31, depth := g.depth, entry := g.text, placed := uid
    opdis := (s.ctx g.part g.ctx).opdis }
  let warps := r.slots.mapIdx fun i slot =>
    ({ core := core, slot := slot, wg := uid, index := i, birth := 0, wid := if wg.isTask then wg.taskid else wi, wgWarps := n
       width := kdWidth d, alloc := kdAlloc d, slices := [], gangs := [] } : Warp)
  let t := (s.nextUid.clearRows core (r.rows ++ r.privRows))
  { t with wgs := t.wgs ++ [wg], warps := t.warps ++ warps }

/-- A context's work may start and go on. DESIGN CHOICE (log entry 9). -/
def Context.runs (c : Context) : Bool := c.loaded && !c.stopped && c.preempting.isNone && !c.saved && !c.gated

/-! ### Shares (R297) -/

/-- The coordinates of a linear workgroup index. -/
def pkCoord (p : BitVec 512) (wi : Nat) : Nat × Nat × Nat :=
  (wi % pkGx p, wi / pkGx p % pkGy p, wi / (pkGx p * pkGy p))

/-- The Kennel that holds the estate of a workgroup's first claimed key. -/
def State.firstKennel (s : State) (g : Grid) (wi : Nat) : Option Nat :=
  let (x, y, z) := pkCoord g.packet wi
  match s.estateOf g.part g.ctx (inhKey g.inh 0 x y z 0) with
  | some e => (match e.place with | .kennel c => some c | _ => none)
  | none => none

/-- Die and preferred cluster of a workgroup. -/
def State.shareOf (s : State) (g : Grid) (wi : Nat) : Nat × Nat :=
  let dies := s.layout.diesOf g.part
  let p := g.packet
  let at_ (u v : Nat) : Nat × Nat := (dies.getD (u % dies.length) 0, 3 * (v % 16) / 4)
  let plain := let u := wi / 2 ^ pkGran p; at_ u (u / 4)
  match pkAff p with
  | 1 =>
    let (x, y, z) := pkCoord p wi
    let u0 := (x / 2 ^ pkSx p + 0x9E3779B1 * (y / 2 ^ pkSy p) + 0x85EBCA77 * (z / 2 ^ pkSz p)) % 2 ^ 32
    let u := Nat.xor u0 (u0 / 2 ^ 16)
    at_ u (u / 4)
  | 2 =>
    (match s.firstKennel g wi with
    | some c => (dieOf c, c % Config.coresPerDie / 4)
    | none => plain)
  | _ => plain

/-- The cores of a die in the order in which a workgroup tries them (R298, R322). DEDUCED (log entry 54). -/
def State.tryOrder (s : State) (g : Grid) (wi die : Nat) : List Nat :=
  let pref := (s.shareOf g wi).2
  let clusters := (List.range 12).flatMap fun dist =>
    if dist = 0 then [pref] else (if dist ≤ pref then [pref - dist] else []) ++ (if pref + dist < 12 then [pref + dist] else [])
  let cores := clusters.flatMap fun c => List.range' (Config.coresPerDie * die + 4 * c) 4
  match (if pkAff g.packet = 2 then s.firstKennel g wi else none) with
  | some c => if dieOf c = die then c :: cores.filter fun x => x != c else cores
  | none => cores

/-- The first core of a die on which a workgroup fits, with the resources it takes. -/
def State.findRoom (s : State) (g : Grid) (wi die : Nat) : Option (Nat × Room) :=
  (s.tryOrder g wi die).findSome? fun c => (s.room g.part c g.desc (pkWarps g.packet)).map fun r => (c, r)

/-! ### Acceptance (R294, R296, R300, R301, R322, R355) -/

def State.energyOf (s : State) (part : Nat) : Nat × Nat := sparseGet (0, 0) s.layout.energy part
def State.balance (s : State) (part : Nat) : Int := sparseGet 0 s.dist.balance part
def State.addBalance (s : State) (part : Nat) (v : Int) : State :=
  { s with dist := { s.dist with balance := sparseSet 0 s.dist.balance part (s.balance part + v) } }

/-- Energy charged to a partition, as a change of its net charges (R301, R381). -/
def State.spend (s : State) (part : Nat) (v : Int) : State :=
  let t := s.addBalance part (-v)
  { t with dist := { t.dist with charged := sparseSet 0 t.dist.charged part (sparseGet 0 t.dist.charged part + v) } }

/-- The head of a queue removed; the queue refills from its partition's rings on the die, and gangs that wait for space issue
their words again (R300, R302). -/
def State.popQueue (s : State) (die part : Nat) : State :=
  let q := (sparseGet [] s.dist.queues (dieQueue die part)).drop 1
  let t : State := { s with dist := { s.dist with queues := sparseSet [] s.dist.queues (dieQueue die part) q } }
  (t.refillQueue die part 64).wakeSpace part

/-- A packet that the host submitted is rejected (R294, R366). -/
def State.rejectHost (s : State) (die part ctx doorbell detail : Nat) : State :=
  (s.popQueue die part).post (part + 1) { code := 2, status := detail, ctx := ctx, gen := 0, arg0 := doorbell, arg1 := die }

/-- The parent of a child sees its status, and what it does from here on follows the child's events (R200, R303); one that was not
launched after all is retired faulted. DEDUCED (log entry 47). -/
def State.childOver (s : State) (parent : Option Nat) (lineage status : Nat) : State :=
  match parent with
  | some u =>
    (match s.findWg u with
    | some g => ((s.putWg { g with childStatus := g.childStatus ++ [(lineage, status)] }).startViews u).settleJoins u
    | none => s)
  | none => s

/-- The unstarted workgroups of an accepted grid, by die. -/
def State.sharesOf (s : State) (g : Grid) : List (Nat × Nat) :=
  (List.range (pkGx g.packet * pkGy g.packet * pkGz g.packet)).map fun wi => ((s.shareOf g wi).1, wi)

/-- The shares of a grid that has waited for its predecessor's deposits (R322): with aff 2 its unstarted workgroups follow the
estates as they stand now (R297). DEDUCED (log entry 54). -/
def State.reshare (s : State) (g : Grid) : Grid :=
  if pkAff g.packet = 2 then { g with unstarted := g.unstarted.map fun e => ((s.shareOf g e.2).1, e.2) } else g

/-- A checked packet at the head of a queue is accepted, unless the energy balance defers it. -/
def State.acceptGrid (s : State) (die : Nat) (x : Submission) (lineage : State → Nat × State) (text : BitVec 48)
    (desc inh : BitVec 512) : State :=
  let e := pkEnergy x.packet
  if s.balance x.part < (min e (s.energyOf x.part).2 : Nat) then s
  else
    let (ln, t) := lineage ((s.popQueue die x.part).spend x.part e)
    let heir := if inh = 0 then none else ((t.gridsOf x.part x.ctx).find? fun h => h.lineage == inhLineage inh).map (·.uid)
    let g : Grid :=
      { uid := t.sched.uid, part := x.part, ctx := x.ctx, lineage := ln, packet := x.packet, desc := desc, text := text
        caps := x.caps, depth := x.depth, parent := x.parent, inh := inh, heirOf := heir }
    let alive := match x.parent with
      | some u => !(t.wg u).ended
      | none => true
    { t.nextUid with dist := { t.dist with
        grids := t.dist.grids ++ [{ g with unstarted := if alive then t.sharesOf g else [] }] } }

/-- A context is rejected (R365): event 3 with the failing record; an entry that is not valid posts none. -/
def State.rejectCtx (s : State) (part num r : Nat) : State :=
  if r = 255 then s else s.post (part + 1) { code := 3, ctx := num, gen := 0, arg0 := r }

/-- The partition's entries differ between two layouts. -/
def Layout.differs (a b : Layout) (part : Nat) : Bool :=
  ((List.range Config.cores).any fun c => a.share part c != b.share part c) ||
  ((List.range 4).any fun d => a.dieShare part d != b.dieShare part d) ||
  sparseGet (0, 0) a.energy part != sparseGet (0, 0) b.energy part ||
  (a.ranges.filter fun r => r.owner == part) != (b.ranges.filter fun r => r.owner == part)

/-- A layout under way changes the entries of a partition (R369). -/
def State.relaid (s : State) (part : Nat) : Bool :=
  match s.newLayout with
  | some l => s.layout.differs l part
  | none => false

/-- The context a doorbell names, loaded; or the failing record (R363 to R365). A layout under way that changes its partition
pre-empts it at once (R369). DEDUCED (log entry 51). -/
def State.loadCtx (s : State) (part num : Nat) : Except Nat State :=
  if (s.ctx part num).loaded then .ok s
  else
    match s.readContext part num with
    | .error r => .error r
    | .ok c =>
      let d := if s.relaid part && !c.saved && c.preempting.isNone then { c with preempting := some s.sched.now, laid := true } else c
      .ok ((if (s.findCtx part num).isSome then s else { s with ctxs := s.ctxs ++ [c] }).putCtx d)

/-- The translations that a distributor has used for a packet at va (0 where LAUNCH has read it) stand in its die's cache
afterwards (R343): those of the packet, the kernel table, the argument block and the inheritance descriptor. -/
def State.fillPacket (s : State) (die part ctx va : Nat) (p : BitVec 512) : State :=
  let c := s.ctx part ctx
  let t := (if va = 0 then s else s.fillDie die part ctx va 64).fillDie die part ctx c.ktab (32 * c.kcount)
  let u := if va = 0 ∨ pkArgs p = 0 then t else t.fillDie die part ctx (pkArgs p) (16 * pkNargs p)
  if pkInh p = 0 then u else u.fillDie die part ctx (pkInh p) 64

/-- PACKET_ACCEPT (R294, R296, R300, R301, R355, R366): the head of a queue is accepted, rejected, or deferred; a queue from
which a trap has discarded packets (R209) refills first. -/
def execPacketAccept (die part : Nat) (s0 : State) : Out :=
  let s := s0.refillQueue die part 64
  .next <|
    match sparseGet [] s.dist.queues (dieQueue die part) with
    | [] => s.wakeSpace part
    | x :: _ =>
      if s.resetting.contains part || s.mgmt.safe then s
      else
        match x.doorbell with
        | none =>
          (match s.checkPacket x.part x.ctx false x.packet with
          | .error _ => (s.popQueue die part).childOver x.parent x.lineage 1
          | .ok (text, desc, inh) => (s.fillPacket die x.part x.ctx 0 x.packet).acceptGrid die x (fun t => (x.lineage, t)) text desc inh)
        | some v =>
          let num := v / 2 ^ 56
          if (s.fnOf part).ctxcount ≤ num then s.rejectHost die part num v 11
          else
            match s.loadCtx part num with
            | .error r => (s.rejectCtx part num r).rejectHost die part num v 11
            | .ok t =>
              match t.rootNat part num (v % 2 ^ 56) 64 with
              | none => t.rejectHost die part num v 11
              | some p =>
                let pk := BitVec.ofNat 512 p
                match t.checkPacket part num true pk with
                | .error detail => t.rejectHost die part num v detail
                | .ok (text, desc, inh) =>
                  match t.gather part num pk [] with
                  | .error _ => t.rejectHost die part num v 9
                  | .ok caps =>
                    (t.fillPacket die part num (v % 2 ^ 56) pk).acceptGrid die { x with ctx := num, packet := pk, caps := caps } (fun u => u.newLineage part num) text desc inh

/-! ### Placement (R298) -/

/-- A grid whose workgroups may be placed now (R298, R322). -/
def State.placeable (s : State) (g : Grid) : Bool :=
  (s.ctx g.part g.ctx).runs && !s.resetting.contains g.part &&
  (match g.heirOf with
  | some u => (s.findGrid u).isNone
  | none => true)

/-- A saved workgroup that may go back to a core: a suspended one once a join of it is satisfied (R304), a pre-empted one
once its context runs again (R218). -/
def State.restorable (s : State) (g : Workgroup) : Bool :=
  g.saved && (s.ctx g.part g.ctx).runs && (!g.suspended || g.savedW.any fun w => w.gangs.any fun x => x.park == .none)

/-- The grids in the order in which a distributor serves them: priority class, then acceptance. -/
def State.served (s : State) : List Grid :=
  [3, 2, 1, 0].flatMap fun c => s.dist.grids.filter fun g => pkPrio g.packet == c && s.placeable g

/-- The lowest unstarted workgroup of a grid that a die owns. -/
def Grid.lowest (g : Grid) (die : Nat) : Option Nat :=
  (g.unstarted.filter fun e => e.1 == die).foldl (fun m e => match m with | none => some e.2 | some x => some (min x e.2)) none

/-! ### Birth (R75, R231, R295, R308, R323) -/

/-- The claims of lane L of a warp at its birth (R321, R323). -/
def heirClaims (g : Grid) (wi loc L uid : Nat) : List Claim :=
  let (x, y, z) := pkCoord g.packet wi
  (List.range (inhKeys g.inh)).map fun j =>
    { id := uid + j, lane := L, slot := j, key := inhKey g.inh loc x y z j
      entries := ((List.range (kdIcount g.desc)).filter fun i => (inhMap g.inh i).1 == j).map fun i =>
        ((inhMap g.inh i).2, kdIwidth g.desc i, List.range' (kdIcode g.desc i) (2 ^ kdIwidth g.desc i))
      expect := some (inhCount g.inh, inhWidths g.inh) }

/-- A warp as it is born. -/
def bornWarp (w : Warp) (g : Grid) (wg : Workgroup) (task : Option (BitVec 128)) (birth : Nat) : Warp :=
  let n := w.width / 4
  let args : List Nat := match task with
    | some r => [trData r % 2 ^ 32, trData r / 2 ^ 32, trArg r, 0]
    | none => (List.range 4).map (pkSarg g.packet)
  { w with
    birth := birth
    slices := List.replicate n { pc := wg.entry }
    gangs := [{ slices := List.range n }]
    s := sparseSetAll 0 [] (args.mapIdx fun i v => (i, BitVec.ofNat 32 v))
    c := sparseSetAll {} [] (g.caps.mapIdx fun i c => (i, c)) }

/-- The claims of a newborn warp join it and are answered at once, in lane order (R323). DEDUCED (log entry 60). -/
def State.birthClaims (s : State) (core slot : Nat) (g : Grid) (wg : Workgroup) : State :=
  match s.findWarp core slot with
  | none => s
  | some w =>
    if g.inh = 0 || wg.isTask then s
    else
      let k := inhKeys g.inh
      let cs := (List.range w.width).flatMap fun L => heirClaims g wg.wi (w.lid L) L (s.sched.uid + k * L)
      let t := s.putWarp (cs.foldl Warp.addClaim w)
      let u := { t with sched := { t.sched with uid := t.sched.uid + k * w.width } }
      cs.foldl (fun v c =>
        match v.findWarp core slot with
        | none => v
        | some x =>
          match v.estateOf g.part g.ctx c.key with
          | some e => v.serveClaim x c e
          | none => v.putWarp (x.resolve c none)) u

/-- Where the Collie program of a grid's kernel begins (R68, R72). DESIGN CHOICE (log entry 79). -/
def Grid.collieStart (g : Grid) : BitVec 48 := BitVec.ofNat 48 (256 * Config.colliePage g.text.toNat (kdCollieoff g.desc))

/-- WARP_BIRTH: every warp of a placed workgroup is born, its Collie thread starts, its version opens (R75, R215, R231); all its
events follow what has been performed (R200). -/
def execWarpBirth (wg : Nat) (s : State) : Out :=
  .next <|
    match s.findWg wg with
    | none => s
    | some g =>
      if g.born || g.ended || g.saved || (s.ctx g.part g.ctx).gated then s
      else
        let gr := s.grid g.grid
        let base := s.sched.uid
        let task := if g.isTask then some g.record else none
        let t : State := { s with
          sched := { s.sched with uid := base + g.warps + 1 }
          warps := s.warps.map fun (w : Warp) => if w.wg = wg then bornWarp w gr g task (base + w.index) else w }
        let u := t.putWg { g with born := true, birth := base, versionOpen := true }
        let v := match g.thread with
          | some th =>
            let c : Collie :=
              { core := g.core, thread := th, wg := wg
                x := { pc := gr.collieStart
                       s := sparseSet 0 [] 0 (BitVec.ofNat 32 (if g.isTask then g.taskid else g.wi)) }
                c := sparseSetAll {} [] (gr.caps.mapIdx fun i c => (i, c)) }
            { u with collies := u.collies ++ [c] }
          | none => u
        ((v.warps.filter fun w => w.wg == wg).foldl (fun x w => x.birthClaims w.core w.slot gr g) (v.startViews wg))

/-! ### Stealing between dies (R299) -/

/-- The ids of a grid's unstarted workgroups on a die. -/
def Grid.owned (g : Grid) (die : Nat) : List Nat := (g.unstarted.filter fun e => e.1 == die).map (·.2)

/-- The die with the most unstarted workgroups, the lower on a tie. -/
def Grid.richest (g : Grid) : Nat :=
  (List.range Config.dies).foldl (fun b d => if (g.owned b).length < (g.owned d).length then d else b) 0

/-- The n highest numbers of a list. DEDUCED (log entry 57). -/
def highest (n : Nat) (l : List Nat) : List Nat := (l.mergeSort fun a b => decide (b ≤ a)).take n

/-- A die runs dry for a grid and may ask for its workgroups (R299). -/
def State.runsDry (s : State) (g : Grid) (thief : Nat) : Bool :=
  let fits := (List.range' (Config.coresPerDie * thief) Config.coresPerDie).any fun c =>
    (s.room g.part c g.desc (pkWarps g.packet)).isSome
  let asked := s.dist.dieReplies.any fun r => r.grid == g.uid && r.thief == thief
  decide (thief < 4) && (g.owned thief).isEmpty && fits && !asked && !g.dry.contains thief && s.placeable g

/-- DIE_STEAL_REQUEST (R299): a dry die asks; the victim cedes half its unstarted workgroups, from the highest. Which grid of
this context number and lineage is meant, where several partitions have one, is a free choice. -/
def execDieStealRequest (ctx lineage thief : Nat) (s : State) : Out :=
  .next <|
    let named := s.dist.grids.filter fun g => g.ctx == ctx && g.lineage == lineage && s.runsDry g thief
    match named[Config.freeChoice s.sched.free named.length % named.length]? with
    | none => s
    | some g =>
      let v := g.richest
      let m := g.owned v
      let ceded := highest ((m.length + 1) / 2) m
      let t := s.nextFree.putGrid { g with unstarted := g.unstarted.filter fun e => !(e.1 == v && ceded.contains e.2) }
      { t with dist := { t.dist with dieReplies := t.dist.dieReplies ++ [⟨g.uid, thief, ceded⟩] } }

/-- DIE_STEAL_REPLY (R299). -/
def execDieStealReply (idx : Nat) (s : State) : Out :=
  .next <|
    match s.dist.dieReplies[idx]? with
    | none => s
    | some r =>
      let t := { s with dist := { s.dist with dieReplies := s.dist.dieReplies.eraseIdx idx } }
      match t.findGrid r.grid with
      | none => t
      | some g =>
        if r.ceded.isEmpty then t.putGrid { g with dry := g.dry ++ [r.thief] }
        else t.putGrid { g with unstarted := g.unstarted ++ r.ceded.map (fun w => (r.thief, w)), dry := [] }

/-! ### Tasks (R308 to R310) -/

/-- A task record that a core may start: from its queue, or from the head of its deque. DEDUCED (log entry 59). -/
def State.nextTask (s : State) (core part : Nat) : Option (TaskRec × State) :=
  let key := coreQueue core part
  let q := sparseGet [] s.dist.tasks key
  let dq := sparseGet [] s.dist.deques key
  let posted := q.head?.map fun r => (r, { s with dist := { s.dist with tasks := sparseSet [] s.dist.tasks key (q.drop 1) } })
  let forked := dq.head?.map fun r => (r, { s with dist := { s.dist with deques := sparseSet [] s.dist.deques key (dq.drop 1) } })
  if Config.freeChoice s.sched.free key % 2 = 0 then posted.orElse fun _ => forked else forked.orElse fun _ => posted

/-- TASK_START (R308, R309). -/
def execTaskStart (core part : Nat) (s0 : State) : Out :=
  .next <|
    let s := (s0.refillTasks core part 64).nextFree
    match s.nextTask core part with
    | none => s
    | some (r, t0) =>
      let t := t0.nextFree
      match t.findGrid r.grid with
      | none => s
      | some g =>
        match t.room g.part core g.desc 1 with
        | none => s
        | some room =>
          if !(t.ctx g.part g.ctx).runs || t.resetting.contains part then s
          else
            let id := 2 ^ 31 + g.taskSeq % 2 ^ 31
            let u := (t.putGrid { g with taskSeq := g.taskSeq + 1 }).place g core 0 1 room fun w =>
              { w with taskid := id, isTask := true, forker := r.forker, record := r.bits
                       entry := g.text + BitVec.ofNat 48 (4 * trEntry r.bits) }
            (u.refillTasks core part 64).wakeSpace part

/-- One step of a core's victim register (R310); 0 stands for the seed, the core's index plus 1. DEDUCED (log entry 58). -/
def lfsrStep (x : BitVec 16) : BitVec 16 :=
  let b := x.getLsbD 0 ^^ x.getLsbD 2 ^^ x.getLsbD 3 ^^ x.getLsbD 5
  (x >>> 1) ||| (if b then 0x8000 else 0)

/-- A core's stealing state for a partition. -/
def State.thief (s : State) (core part : Nat) : Thief := sparseGet {} s.dist.thieves (coreQueue core part)
def State.putThief (s : State) (core part : Nat) (x : Thief) : State :=
  { s with dist := { s.dist with thieves := sparseSet {} s.dist.thieves (coreQueue core part) x } }

/-- TASK_STEAL_REQUEST (R310): a core with room and an empty deque asks a victim, whose engine answers from the tail. -/
def execTaskStealRequest (thief part : Nat) (s : State) : Out :=
  .next <|
    let key := coreQueue thief part
    let th := s.thief thief part
    let others := (s.layout.coresOf part).filter fun c => c != thief
    let fits := s.dist.grids.any fun g => g.part == part && pkTaskmode g.packet == 2 && (s.ctx g.part g.ctx).runs &&
      (s.room part thief g.desc 1).isSome
    if sparseGet [] s.dist.deques key ≠ [] ∨ th.asking ∨ th.until_ ≠ 0 ∨ !fits ∨ others = [] ∨ s.resetting.contains part then s
    else
      let seed : BitVec 16 := sparseGet 0 s.dist.lfsr thief
      let x := lfsrStep (if seed = 0 then BitVec.ofNat 16 (thief + 1) else seed)
      let victim := others.getD (x.toNat % others.length) 0
      let vk := coreQueue victim part
      let dq := sparseGet [] s.dist.deques vk
      let t := s.putThief thief part { th with asking := true }
      { t with dist := { t.dist with
          lfsr := sparseSet 0 t.dist.lfsr thief x
          deques := sparseSet [] t.dist.deques vk dq.dropLast
          taskReplies := t.dist.taskReplies ++ [⟨part, thief, dq.getLast?⟩] } }

/-- TASK_STEAL_REPLY (R310). -/
def execTaskStealReply (idx : Nat) (s : State) : Out :=
  .next <|
    match s.dist.taskReplies[idx]? with
    | none => s
    | some r =>
      let t := { s with dist := { s.dist with taskReplies := s.dist.taskReplies.eraseIdx idx } }
      let th := t.thief r.thief r.part
      match r.task with
      | some x =>
        let key := coreQueue r.thief r.part
        let u := t.putThief r.thief r.part { th with asking := false, wait := 0, until_ := 0 }
        { u with dist := { u.dist with deques := sparseSet [] u.dist.deques key (x :: sparseGet [] u.dist.deques key) } }
      | none =>
        let w := if th.wait = 0 then 64 else min 4096 (2 * th.wait)
        t.putThief r.thief r.part { th with asking := false, wait := w, until_ := t.sched.now + w }

/-- STEAL_BACKOFF_EXPIRY (R310). -/
def execStealBackoffExpiry (core part : Nat) (s : State) : Out :=
  .next <|
    let th := s.thief core part
    if th.until_ ≠ 0 ∧ th.until_ ≤ s.sched.now then s.putThief core part { th with until_ := 0 } else s

/-! ### Energy and doorbells -/

/-- ENERGY_REFILL (R301). DEDUCED (log entry 110). -/
def execEnergyRefill (s : State) : Out :=
  .next <|
    if s.dist.refilled + 2 ^ 20 ≤ s.sched.now then
      let t := (List.range 20).foldl (fun u p =>
        let (allow, cap) := u.energyOf p
        let b := u.balance p
        if b < cap then u.addBalance p (min (allow : Int) (cap - b)) else u) s
      { t with dist := { t.dist with refilled := s.dist.refilled + 2 ^ 20 } }
    else s

/-- LQDOOR (R366, R372, R385). -/
def execLqdoor (fn die : Nat) (value : BitVec 64) (s : State) : Out :=
  .next <|
    if fn = 0 ∨ 20 < fn ∨ 4 ≤ die ∨ s.mgmt.safe ∨ !s.mgmt.ready ∨ s.resetting.contains (fn - 1) then s
    else
      match s.submit die { part := fn - 1, ctx := value.toNat / 2 ^ 56, doorbell := some value.toNat } with
      | some t => t
      | none =>
        let f : HostFn := sparseGet {} s.fns fn
        { s with fns := sparseSet {} s.fns fn { f with lost := true } }

end Sys2Proof.Machine
end

