-- ==== Sys2Proof/Machine/Saving.lean ====
section
/-!
DEFINITION. Saving a workgroup and bringing it back (R69, R218, R220, R304): what is kept of its registers, scratch and
tiles, when it may be saved, and the events WORKGROUP_SAVE, URGENT_SCAN_OUT, WORKGROUP_SUSPEND, WORKGROUP_RESTORE and
WORKGROUP_PLACEMENT.
-/
namespace Sys2Proof.Machine

/-! ### What a save keeps (R69) -/

/-- The code address of the TEXT section of a grid's kernel (R67, R68). -/
def Grid.textBase (g : Grid) : BitVec 48 := g.text - BitVec.ofNat 48 (kdEntry g.desc)

/-- The live-state entry of a parked gang (R69): the entry of its kernel whose pc is the word it is parked at, which a compaction
may have moved (R357). None covers handler text (R222), and a gang that waits for queue space is saved whole (R302). DEDUCED
(log entry 66). -/
def Grid.entryOf (gr : Grid) (c : Context) (w : Warp) (x : Gang) : Option Config.LiveEntry :=
  if x.park = .space ∨ x.slices.any fun j => !(w.slice j).frames.isEmpty then none
  else
    ((List.range (kdLivecount gr.desc)).map fun i => Config.live gr.textBase.toNat (kdLivefirst gr.desc + i)).find? fun e =>
      let at_ := gr.textBase + BitVec.ofNat 48 e.pc
      at_ == x.word || c.moved at_ == x.word

/-- The gangs of a warp with their entries; in an exact save no gang has one. -/
def Warp.entries (w : Warp) (gr : Grid) (c : Context) (exact : Bool) : List (Gang × Option Config.LiveEntry) :=
  w.gangs.map fun x => (x, if exact then none else gr.entryOf c w x)

/-- Something that the gangs share is saved: some gang has no entry, or some entry lists it (R69). -/
def saves (es : List (Gang × Option Config.LiveEntry)) (f : Config.LiveEntry → Bool) : Bool := es.any fun e => e.2.all f

/-- The table with the listed keys at free values. -/
def freeKeys (n : Nat) (t : Sparse (BitVec 32)) (ks : List Nat) : Sparse (BitVec 32) :=
  sparseSetAll 0 t (ks.map fun k => (k, Config.freeWord n k))

/-- The predicate that a slice's guard reads (R32). -/
def Warp.guards (w : Warp) : List Nat := (w.slices.filter fun x => modeGen x.mode).map fun x => modeGidx x.mode

/-- A warp after a save that kept what its gangs' entries list, and everything of gangs without one. Skein geometry and
counts, the overflow record, kstep and estat, which no entry can list, are kept. DEDUCED (log entry 66). -/
def Warp.kept (w : Warp) (n : Nat) (es : List (Gang × Option Config.LiveEntry)) : Warp :=
  let lost (f : Config.LiveEntry → Nat) (m : Nat) : List Nat := (List.range m).filter fun i => !saves es fun e => (f e).testBit i
  let lanes := es.flatMap fun e => (e.2.toList).flatMap fun x => e.1.slices.flatMap fun j =>
    let base := (w.slice j).base
    let codes := (List.range 44).filter fun c => !x.wmask.testBit c
    let above := List.range' (base + 44) ((w.slice j).lo + w.alloc - (base + 44))
    (codes.map (base + ·) ++ above).flatMap fun idx => (lanesOf j).map fun L => regKey idx L
  let word (i : Nat) (j : Nat) : Nat := (Config.freeWord n (2 ^ 16 + 64 * i + j)).toNat
  let wide (i m : Nat) : Nat := ((List.range m).map fun j => word i j * 2 ^ (32 * j)).sum
  let q (i : Nat) : Bool := saves es fun e => e.qmask.testBit i
  { w with
    regs := freeKeys n w.regs lanes
    s := freeKeys n w.s (lost (·.smask) 32)
    p := sparseSetAll 0 w.p (((lost (·.pmask) 8).filter fun i => !w.guards.contains i).map fun i =>
      (i, BitVec.ofNat 64 (wide i 2 % 2 ^ w.width)))
    k := sparseSetAll 0 w.k ((lost (·.kmask) 8).map fun i => (i, BitVec.ofNat 512 (wide (8 + i) 16)))
    c := sparseSetAll {} w.c ((lost (·.cmask) 16).map fun i => (i, { bits := BitVec.ofNat 128 (wide (16 + i) 4), valid := false }))
    q0 := if q 0 then w.q0 else []
    cover0 := if q 0 then w.cover0 else 0
    q1 := if q 1 then w.q1 else []
    cover1 := if q 1 then w.cover1 else 0 }

/-- Bytes off to off + n - 1 of a list of scratchpad rows, as the pairs that differ from zero. -/
def State.rowBytes (s : State) (core : Nat) (rows : List Nat) (n : Nat) : List Host.Cell :=
  (List.range n).filterMap fun o =>
    let b := s.mem.byte 0 (rowKey core rows o)
    if b = 0 then none else some (o, b)

/-- Bytes written back into cleared rows. -/
def State.putRowBytes (s : State) (core : Nat) (rows : List Nat) (cells : List Host.Cell) : State :=
  cells.foldl (fun t e => t.withMem (t.mem.write 0 (rowKey core rows e.1) [e.2])) s

/-- The bytes at offsets that a test leaves out become free values. -/
def looseBytes (n len : Nat) (keep : Nat → Bool) (l : List Host.Cell) : List Host.Cell :=
  (List.range len).filterMap fun o =>
    let b := if keep o then sparseGet 0 l o else Config.freeByte n o
    if b = 0 then none else some (o, b)

/-- A tile as a save holds it. -/
def State.saveTile (s : State) (T : Nat) (name : Option Nat) (place : Nat) : SavedTile :=
  { old := T, name := name, place := place, form := s.formOf T
    elems := (s.pillows.elems.filter fun x => x.1 / 4096 == T).map fun x => (x.1 % 4096, x.2) }

/-- The tiles of a workgroup: those of its names, and those that only its stopped operations hold (R290). -/
def State.tilesSaved (s : State) (g : Workgroup) : List SavedTile :=
  let named := g.acc.flatMap fun e => e.2.mapIdx fun i T => s.saveTile T (some e.1) i
  let held := ((s.pillows.ops.filter fun o => o.wg == g.uid).flatMap TileOp.touched).dedup
  named ++ (held.filter fun T => named.all fun x => x.old != T).map fun T => s.saveTile T none 0

/-- A saved tile whose elements are free values, where the save left it out: a stopped operation's tiles stay (R290). -/
def SavedTile.loose (x : SavedTile) (n : Nat) : SavedTile :=
  { x with elems := (List.range 4096).filterMap fun i =>
      let key := 8192 * x.old + 2 * i
      let v : BitVec 48 := BitVec.ofNat 48 ((Config.freeWord n key).toNat + 2 ^ 32 * (Config.freeWord n (key + 1)).toNat)
      if v = 0 then none else some (i, v) }

/-- A context's save area after a save: which of its bytes a save writes, and how, the manual does not say, so all of them
are free values. DESIGN CHOICE (log entry 67). -/
def State.fillSaveArea (s : State) (part ctx : Nat) : State :=
  let c := (s.ctx part ctx).saveArea
  s.obscure part ctx c.base c.length

/-- A piece of the save area that a save would write and that does not translate, with reason and level; whether it writes there is
free (log entry 67). -/
def State.saveFails (s : State) (part ctx : Nat) : Option (Nat × Nat × Nat) :=
  let c := (s.ctx part ctx).saveArea
  if Config.freeChoice s.sched.free 0 % 2 = 0 then none else s.failing part ctx c.base c.length 4096 needW

/-- A workgroup is saved to its context's area, once that translates (R69, R344). -/
def State.saveOut (s : State) (g : Workgroup) (save : State → State) : State :=
  match s.saveFails g.part g.ctx with
  | some (va, rl) => s.nextFree.noteOnce g.part g.ctx va 0 2 rl
  | none => save s

/-- A workgroup saved and its resources released (R69, R77, R218, R304). exact keeps everything, as an urgent scan-out does
(R220). The declared lane-private bytes are kept for the lanes of a gang without an entry only. DEDUCED (log entry 66).
DEDUCED (log entry 67). -/
def State.saveWg (s : State) (uid : Nat) (exact suspend : Bool) : State :=
  let g := s.wg uid
  let gr := s.grid g.grid
  let n := s.sched.free
  let ws := s.warps.filter fun w => w.wg == uid
  let ents := ws.map fun w => (w, w.entries gr (s.ctx g.part g.ctx) exact)
  let all := ents.flatMap (·.2)
  let whole := all.any fun e => e.2.isNone
  let loose := ents.flatMap fun e => (e.2.filter fun x => x.2.isSome).flatMap fun x =>
    x.1.slices.flatMap fun j => (lanesOf j).map fun L => e.1.lid L
  let group := s.rowBytes g.core g.rows g.groupB
  let slices := s.rowBytes g.core g.privRows (256 * g.privRows.length)
  let mine := s.pillows.ops.filter fun o => o.wg == uid
  let h : Workgroup := { g with
    saved := true, suspended := suspend, scanned := exact, rows := [], privRows := [], acc := []
    savedC := s.collies.find? fun c => c.wg == uid
    savedW := ents.map fun e => if exact then e.1 else { e.1.kept n e.2 with temps := [] }
    savedG := if exact || whole then group
      else looseBytes n g.groupB (fun o => saves all fun e => e.ranges.any fun r => decide (r.1 ≤ o ∧ o < r.1 + r.2)) group
    savedP := if loose.isEmpty then slices
      else looseBytes (n + 1) (256 * g.privRows.length) (fun o => !(decide (o % g.sliceB < g.privB) && loose.contains (o / g.sliceB))) slices
    savedT := (s.tilesSaved g).map fun t =>
      if exact || (mine.any fun o => o.touched.contains t.old) || saves all (fun e => t.name.any e.amask.testBit) then t else t.loose n
    savedOps := mine }
  let t := (s.putWg h).nextFree.nextFree
  let u := { t with
    warps := t.warps.filter fun w => w.wg != uid
    collies := t.collies.filter fun c => c.wg != uid
    pillows := { t.pillows with ops := t.pillows.ops.filter fun o => o.wg != uid }
    mem := { t.mem with monitors := t.mem.monitors.filter fun m => s.agentWg m.who != some uid } }
  if exact then u else u.fillSaveArea g.part g.ctx

/-! ### When a workgroup may be saved (R70, R218, R304) -/

/-- A gang is parked at a pre-emption word, or at one that is issued again for want of space (R70, R302). -/
def Gang.preemptible (g : Gang) : Bool :=
  match g.park with
  | .none => false
  | .regang _ => false
  | _ => true

/-- A gang is parked at JOIN or JOINT. -/
def Gang.joining (g : Gang) : Bool :=
  match g.park with
  | .join _ _ => true
  | .joint => true
  | _ => false

/-- Nothing of a workgroup is under way: accesses, copies, tile words, taken estates. -/
def State.wgQuiet (s : State) (uid : Nat) : Bool :=
  s.mem.access.all (fun a => a.wg != uid) && s.copies.all (fun c => c.wg != uid) &&
  s.opsOver uid &&
  s.warps.all (fun w => w.wg != uid || (w.claims.all (fun c => c.taken.isNone) && w.pend.all (fun p => w.claims.any fun c => c.id == p.id)))

/-- The Collie thread of a workgroup stands at a word boundary (R218). -/
def State.collieStill (s : State) (uid : Nat) : Bool :=
  s.collies.all fun c => c.wg != uid || (c.x.hold == .none && c.x.pend.isEmpty)

/-- WORKGROUP_SAVE (R218): under cooperative pre-emption, once everything of the workgroup has stopped. DEDUCED (log entry 69). -/
def execWorkgroupSave (wg : Nat) (s : State) : Out :=
  .next <|
    match s.findWg wg with
    | none => s
    | some g =>
      if !g.born || g.saved || g.released || g.ended || (s.ctx g.part g.ctx).preempting.isNone then s
      else if (s.warps.all fun w => w.wg != wg || w.gangs.all Gang.preemptible) && s.wgQuiet wg && s.collieStill wg then
        s.saveOut g fun t => t.saveWg wg false false
      else s

/-- The state once workgroups of a list are saved one by one until enough is true, and which; none where it never is. -/
def State.saveUntil (s : State) (exact : Bool) (enough : State → Bool) : List Nat → Option (List Nat)
  | [] => if enough s then some [] else none
  | u :: rest => if enough s then some [] else ((s.saveWg u exact (!exact)).saveUntil exact enough rest).map (u :: ·)

/-- The first workgroup to save, among a list of candidates, for a task at a core's queue to fit there; none where no saving
makes room for it, or none is needed. -/
def State.firstForTask (s : State) (part core : Nat) (exact : Bool) (p : Grid → Bool) (l : List Nat) : List Nat :=
  let key := coreQueue core part
  let heads := (sparseGet [] s.dist.tasks key).take 1 ++ (sparseGet [] s.dist.deques key).take 1
  (heads.filter fun r => p (s.grid r.grid)).filterMap fun r =>
    (s.saveUntil exact (fun t => (t.room part core (s.grid r.grid).desc 1).isSome) l).bind List.head?

/-- The waiting workgroups of a die: of a grid's unstarted ones the lowest, and those suspended ones whose join is satisfied
(R298, R304), each with its grid and the number of its warps. -/
def State.waitingOn (s : State) (die : Nat) (p : Grid → Bool) : List (Grid × Nat) :=
  ((s.dist.grids.filter fun h => s.placeable h && p h && (h.lowest die).isSome).map fun h => (h, pkWarps h.packet)) ++
  ((s.wgs.filter fun g => g.suspended && s.restorable g && dieOf g.core == die && p (s.grid g.grid)).map fun g =>
    (s.grid g.grid, g.warps))

/-- A waiting workgroup fits on no core of its die (R298). -/
def State.fitsNowhere (s : State) (die : Nat) (x : Grid × Nat) : Bool :=
  (List.range' (Config.coresPerDie * die) Config.coresPerDie).all fun c => (s.room x.1.part c x.1.desc x.2).isNone

/-- The gated workgroups of a partition on a core whose state a scan-out may take (R220), in the order of their placement. -/
def State.gatedOn (s : State) (part core : Nat) : List Nat :=
  ((s.wgs.filter fun g => g.core == core && g.part == part && g.born && !g.saved && !g.released && g.fault.isNone &&
    (s.ctx g.part g.ctx).gated).mergeSort fun a b => decide (a.placed ≤ b.placed)).map (·.uid)

/-- Work of a context that runs claims the storage of a gated workgroup on its core (R220). DEDUCED (log entry 68). -/
def State.claimed (s : State) (g : Workgroup) : Bool :=
  let l := s.gatedOn g.part g.core
  let running (h : Grid) : Bool := h.part == g.part && (s.ctx h.part h.ctx).runs
  ((s.waitingOn (dieOf g.core) running).any fun x => s.fitsNowhere (dieOf g.core) x &&
    (s.saveUntil true (fun t => (t.room g.part g.core x.1.desc x.2).isSome) l).bind List.head? == some g.uid) ||
  (s.firstForTask g.part g.core true running l).contains g.uid

/-- URGENT_SCAN_OUT (R220): a gated workgroup's state leaves its core for work that claims its storage, its pending results
completed first. DEDUCED (log entry 68). -/
def execUrgentScanOut (core : Nat) (s : State) : Out :=
  .next <|
    match s.wgs.find? fun g => g.core == core && (s.gatedOn g.part core).contains g.uid && s.claimed g with
    | none => s
    | some g =>
      let t := (s.warps.filter fun w => w.wg == g.uid).foldl (fun u w =>
        (w.pend.filter fun p => !w.claims.any fun c => c.id == p.id).foldl (fun v p =>
          let x := v.finish fun a => a.feeds p.id
          if x.mem.access.any fun a => a.feeds p.id then x else x.arriveResult (.gang w.core w.slot 0) p.id) u) s
      if t.wgQuiet g.uid then t.saveWg g.uid true false else t

/-! ### Suspension (R304) -/

/-- A workgroup may be suspended. -/
def State.suspendable (s : State) (g : Workgroup) : Bool :=
  g.born && !g.saved && !g.released && g.fault.isNone && (s.ctx g.part g.ctx).runs &&
  (s.warps.any fun w => w.wg == g.uid && !w.gangs.isEmpty) &&
  (s.warps.all fun w => w.wg != g.uid || w.gangs.all Gang.joining) && s.wgQuiet g.uid &&
  (s.collies.all fun c => c.wg != g.uid || ((c.stopped || c.park != .none) && c.x.hold == .none && c.x.pend.isEmpty))

/-- The suspendable workgroups of a context on a core, most recently placed first. -/
def State.suspendables (s : State) (part ctx core : Nat) : List Nat :=
  ((s.wgs.filter fun g => g.part == part && g.ctx == ctx && g.core == core && s.suspendable g).mergeSort
    fun a b => decide (b.placed ≤ a.placed)).map (·.uid)

/-- The first workgroup to suspend for a waiting workgroup of a die: on the core of lowest index where suspending helps. -/
def State.firstForDie (s : State) (die : Nat) (x : Grid × Nat) : Option Nat :=
  if !s.fitsNowhere die x then none
  else
    (List.range' (Config.coresPerDie * die) Config.coresPerDie).findSome? fun c =>
      (s.saveUntil false (fun t => (t.room x.1.part c x.1.desc x.2).isSome) (s.suspendables x.1.part x.1.ctx c)).bind List.head?

/-- The workgroup whose suspension the waiting work asks for next (R304). DEDUCED (log entry 70). -/
def State.suspendNow (s : State) (g : Workgroup) : Bool :=
  let mine (h : Grid) : Bool := h.part == g.part && h.ctx == g.ctx
  ((s.waitingOn (dieOf g.core) mine).any fun x => s.firstForDie (dieOf g.core) x == some g.uid) ||
  (s.firstForTask g.part g.core false mine (s.suspendables g.part g.ctx g.core)).contains g.uid

/-- WORKGROUP_SUSPEND (R304). -/
def execWorkgroupSuspend (wg : Nat) (s : State) : Out :=
  .next <|
    match s.findWg wg with
    | none => s
    | some g => if s.suspendable g && s.suspendNow g then s.saveOut g fun t => t.saveWg wg false true else s

/-! ### Restoration (R218, R220, R304) -/

/-- A restored gang that was parked at WAITMON goes on (R160), and one that waited for queue space issues its word again
(R302). -/
def Gang.restored (g : Gang) : Gang := if g.park = .monitor ∨ g.park = .space then { g with park := .none } else g

/-- The lowest free tile of the half of a pair that a saved tile stood in, or none. -/
def State.tileFor (s : State) (part core : Nat) (upper : Bool) : Option Nat :=
  (s.freeTiles part (if upper then follower core else core)).head?

/-- The saved tiles of a workgroup on a core, one after the other: the state, and old and new tile of each; none where they are
not free, or where the upper half of a pair has no follower to stand on. -/
def State.putTiles (s : State) (uid core oldCore : Nat) : List SavedTile → Option (State × List (Nat × Nat))
  | [] => some (s, [])
  | x :: rest =>
    let upper := x.old / 32 != oldCore
    match (if upper && core % 2 == 1 then none else s.tileFor (s.wg uid).part core upper) with
    | none => none
    | some T =>
      let g := s.wg uid
      let acc := match x.name with
        | some n => sparseSet [] g.acc n (g.tilesOf n ++ [T])
        | none => g.acc
      let op : TileOp :=
        { id := 2 ^ 64 + x.old, core := core, slot := 0, wg := uid, part := g.part, ctx := g.ctx, pc := 0, kind := .zero false, tiles := [T] }
      let p := (s.pillows.setForm [T] x.form).putTile T fun r c => sparseGet 0 x.elems (64 * r + c)
      let t := { s.putWg { g with acc := acc } with pillows := { p with ops := p.ops ++ [op] } }
      (t.putTiles uid core oldCore rest).map fun e => (e.1, (x.old, T) :: e.2)

/-- A saved tile operation on its new tiles. -/
def TileOp.moved (o : TileOp) (core slot : Nat) (tiles : List (Nat × Nat)) : TileOp :=
  let new (T : Nat) : Nat := ((tiles.find? fun e => e.1 == T).map (·.2)).getD T
  { o with
    core := core, slot := slot, tiles := o.tiles.map new
    kind := match o.kind with
      | .scale sm off fresh src => .scale sm off fresh (src.map new)
      | k => k }

/-- A saved workgroup put on a core with the room found there. -/
def State.restoreWg (s : State) (uid core : Nat) (r : Room) : Option State :=
  let g := s.wg uid
  let ws := g.savedW.mapIdx fun i w => { w with core := core, slot := r.slots.getD i 0, gangs := w.gangs.map Gang.restored }
  let slotOf (o : TileOp) : Nat :=
    ((g.savedW.zip ws).find? fun e => e.1.slot == o.slot).elim o.slot fun e => e.2.slot
  let cs := g.savedC.toList.map fun c =>
    { c with core := core, thread := r.thread.getD 0, park := if c.park = .monitor then .none else c.park }
  let t := (s.nextUid.clearRows core (r.rows ++ r.privRows)).putWg { g with
    core := core, rows := r.rows, privRows := r.privRows, thread := r.thread, placed := s.sched.uid
    saved := false, suspended := false, scanned := false }
  let u := { t with warps := t.warps ++ ws, collies := t.collies ++ cs }
  let v := (u.putRowBytes core r.rows g.savedG).putRowBytes core r.privRows g.savedP
  (v.putTiles uid core g.core g.savedT).map fun e =>
    let x := e.1.putWg { e.1.wg uid with savedW := [], savedC := none, savedG := [], savedP := [], savedT := [], savedOps := [] }
    let y : State := { x with pillows := { x.pillows with
      ops := s.pillows.ops ++ g.savedOps.map fun o => o.moved core (slotOf o) e.2 } }
    y.startViews uid

/-- The room that a saved workgroup takes on a core: for a scanned-out one the very slots and the thread that it had (R220). -/
def State.roomFor (s : State) (g : Workgroup) (core : Nat) : Option Room :=
  let d := (s.grid g.grid).desc
  (s.room g.part core d g.warps).bind fun r =>
    if g.scanned then
      let h := s.layout.share g.part core
      let slots := g.savedW.map (·.slot)
      let freeSlot (x : Nat) : Bool := decide (h.slotFirst ≤ x ∧ x < h.slotFirst + h.slots) &&
        !s.warps.any fun w => w.core == core && w.slot == x
      let freeThread (x : Nat) : Bool := !(s.residents g.part core).any fun k => k.thread == some x
      if core = g.core ∧ slots.all freeSlot ∧ g.thread.all freeThread then some { r with slots := slots, thread := g.thread }
      else none
    else some { r with slots := r.slots.take g.savedW.length }

/-- The ways in which a saved workgroup can come back: a suspended one on its die, a scanned-out one on its own core, any
other one on any core of the partition. -/
def State.returns (s : State) (g : Workgroup) : List State :=
  ((s.layout.coresOf g.part).filter fun c => (!g.suspended || dieOf c == dieOf g.core) && (!g.scanned || c == g.core)).filterMap
    fun c => (s.roomFor g c).bind fun r => s.restoreWg g.uid c r

/-- A suspended workgroup comes before another one (R298): by class, by acceptance of its grid, by index. -/
def State.restoresBefore (s : State) (a b : Workgroup) : Bool :=
  let x := s.grid a.grid
  let y := s.grid b.grid
  let p := pkPrio x.packet
  let q := pkPrio y.packet
  decide (q < p) || (p == q && (decide (x.uid < y.uid) || (x.uid == y.uid && decide (a.wi < b.wi))))

/-- WORKGROUP_RESTORE (R218, R298, R304): a saved workgroup comes back where it fits; a suspended one only when none that
comes before it on its die fits. -/
def execWorkgroupRestore (wg : Nat) (s : State) : Out :=
  .next <|
    match s.findWg wg with
    | none => s
    | some g =>
      let first := !g.suspended || s.wgs.all fun h =>
        !(h.suspended && s.restorable h && dieOf h.core == dieOf g.core && s.restoresBefore h g) || (s.returns h).isEmpty
      if !s.restorable g || s.resetting.contains g.part || !first then s
      else
        let fits := s.returns g
        match fits[Config.freeChoice s.sched.free fits.length % fits.length]? with
        | some t => t.nextFree
        | none => s

/-- WORKGROUP_PLACEMENT (R76, R297, R298, R322): nothing is placed on a die while a suspended workgroup of it can come back. -/
def execWorkgroupPlacement (die : Nat) (s : State) : Out :=
  .next <|
    if s.wgs.any fun g => g.suspended && s.restorable g && dieOf g.core == die && !(s.returns g).isEmpty then s
    else
      match s.served.findSome? fun g => (g.lowest die).bind fun wi => (s.findRoom g wi die).map fun cr => (g, wi, cr.1, cr.2) with
      | some (g, wi, core, r) =>
        (s.putGrid { g with unstarted := g.unstarted.filter fun e => e != (die, wi) }).place g core wi (pkWarps g.packet) r id
      | none => s

end Sys2Proof.Machine
end

