-- ==== Sys2Proof/Machine/Ending.lean ====
section
/-!
DEFINITION. How tasks, warps and grids end: trap reports (R210, R211), commits (R202, R215, R216), release (R77, R231),
retirement (R20, R301, R305), strays (R330, R331), translation faults and their answers (R213, R344).
-/
namespace Sys2Proof.Machine

/-! ### Rings in device memory -/

/-- A write through the root capability of a context; where its address does not translate, the failure is noted once and
nothing is written (R344). path names the path of the record: 0 for what no path of
R16 carries. DESIGN CHOICE (log entry 43). -/
def State.ringWrite (s : State) (part ctx va path : Nat) (bs : List (BitVec 8)) : Option State × State :=
  match s.rootWrite part ctx va bs with
  | some t => (some t, s)
  | none =>
    (none, match s.failing part ctx va bs.length 16 needW with
      | some (a, rl) => s.noteOnce part ctx a path 2 rl
      | none => s)

/-! ### Release (R77, R215, R231) -/

/-- The resources of a workgroup whose warps are all released go back, once its version has committed or its report is
written; a task that another one's context fault has ended has no report (R208). DEDUCED (log entry 71). -/
def State.settleWg (s : State) (uid : Nat) : State :=
  let g := s.wg uid
  if g.born && !g.saved && (g.committed || g.reported || (g.ended && g.fault.isNone)) && s.mem.access.all (fun a => a.wg != uid) && s.warps.all (fun w => w.wg != uid)
      && s.copies.all (fun c => c.wg != uid || c.done || c.faulted) && s.opsOver uid then
    let t := s.putWg { g with released := true, rows := [], privRows := [], bars := [], acc := [], thread := none }
    { t with
      collies := t.collies.filter fun c => c.wg != uid
      copies := t.copies.filter fun c => c.wg != uid || !(c.faulted || c.done)
      pillows := { t.pillows with ops := t.pillows.ops.filter fun o => o.wg != uid } }
  else s

/-- WARP_RELEASE (R77): a warp whose slices have ended and whose results have arrived; after a trap, once the report is
written. -/
def execWarpRelease (core slot : Nat) (s : State) : Out :=
  .next <|
    match s.findWarp core slot with
    | none => s
    | some w =>
      let g := s.wg w.wg
      if !g.born || w.slices.any (·.live) || !w.pend.isEmpty || (g.fault.isSome && !g.reported) then s
      else ({ s with warps := s.warps.filter fun v => !(v.core == core && v.slot == slot) }).settleWg w.wg

/-! ### Trap reports (R209 to R211) -/

/-- The 64 bytes of a report (R211). -/
def Report.bytes (r : Report) : List (BitVec 8) :=
  let flags := (if r.more ≠ 0 then 1 else 0) + (if r.discarded then 2 else 0) + (if r.nonVersioned then 4 else 0) +
    (if r.ctxFault then 8 else 0) + (if r.inHandler then 16 else 0)
  bytesOf 4 r.taskid ++ bytesOf 3 r.lineage ++ bytesOf 1 r.cause ++ bytesOf 6 r.pc.toNat ++ bytesOf 1 r.detail ++
  bytesOf 1 r.lane ++ bytesOf 8 r.addr ++ bytesOf 8 r.arg0 ++ bytesOf 8 r.arg1 ++ bytesOf 1 r.core ++ bytesOf 1 r.slot ++
  bytesOf 1 flags ++ bytesOf 1 r.more ++ bytesOf 4 (r.ctx % 2 ^ 16 + r.owner * 2 ^ 16) ++ bytesOf 16 0

/-- A ring with indices head and tail modulo 2^32 is full (R362). -/
def ringFull (head tail size : Nat) : Bool := (tail + 2 ^ 32 - head) % 2 ^ 32 == size % 2 ^ 32

/-- A report written to its context's trap ring, with event 5; none while the ring is full. -/
def State.writeReport (s : State) (r : Report) : Option State × State :=
  let c := s.ctx r.owner r.ctx
  if (s.findCtx r.owner r.ctx).isNone || ringFull c.ringHead c.ringTail c.ringsize then (none, s)
  else
    match s.ringWrite r.owner r.ctx (c.ringbase + 64 * (c.ringTail % c.ringsize)) 0 r.bytes with
    | (some t, _) =>
      let tail := (c.ringTail + 1) % 2 ^ 32
      (some ((t.putCtx { c with ringTail := tail }).post (r.owner + 1)
        { code := 5, ctx := r.ctx, gen := 0, arg0 := r.ctx, arg1 := tail }), s)
    | (none, t) => (none, t)

/-- Everything of a task has ended (R210): its warps, copies, tile operations and accesses. -/
def State.taskOver (s : State) (uid : Nat) : Bool :=
  s.warps.all (fun w => w.wg != uid || w.slices.all fun x => !x.live) && s.mem.access.all (fun a => a.wg != uid) &&
  s.copies.all (fun c => c.wg != uid || c.done || c.faulted) && s.opsOver uid

/-- Every task of a context has ended (R210). -/
def State.contextOver (s : State) (part ctx : Nat) : Bool :=
  s.wgs.all fun h => h.part != part || h.ctx != ctx || s.taskOver h.uid

/-- A context fault's report waits until every task of its context has ended; the reports of a reset do not wait, because the
reset ends the tasks (R210, R372). -/
def State.mayReport (s : State) (r : Report) : Bool :=
  !r.ctxFault || s.resetting.contains r.owner || s.contextOver r.owner r.ctx

/-- A forked task is over, and what its forker does from here on follows it (R311). -/
def State.forkOver (s : State) (uid : Nat) : State :=
  match (s.wg uid).forker with
  | some (u, _) => (s.forkDone uid).startViews u
  | none => s

/-- TRAP_REPORT_WRITE (R210, R211, R335): the report of a task that has ended, by workgroup, or a late one by its number. A task
that another one's context fault has ended has none: its resources go back (R208). A forked task counts as ended from here
on, whether or not the ring has room (R309, R311). DEDUCED (log entry 41). -/
def execTrapReportWrite (idx : Nat) (s0 : State) : Out :=
  .next <|
    match s0.findWg idx with
    | some g =>
      if !g.ended || !s0.taskOver idx then s0
      else
        let s := s0.forkOver idx
        (match g.fault with
        | none => s.settleWg idx
        | some r =>
          if g.reported || !s.mayReport r then s
          else
            match s.writeReport { r with nonVersioned := g.nonVersioned } with
            | (some t, _) => (t.putWg { t.wg idx with reported := true }).settleWg idx
            | (none, t) => t)
    | none =>
      match s0.late.find? fun r => r.id == idx with
      | none => s0
      | some r =>
        let first := s0.late.find? fun x => x.cause == 0x5C && x.ctx == r.ctx && x.owner == r.owner
        if !s0.mayReport r || (r.cause == 0x5C && first != some r) then s0
        else
          match s0.writeReport r with
          | (some t, _) => { t with late := t.late.filter fun x => x.id != idx }
          | (none, t) => t

/-! ### Commits (R202, R215, R216) -/

/-- The held writes of a version are performed, in order, as one event; one to another device leaves as a write of its own
(R202). Later events of the task follow the commit. -/
def State.performHeld (s : State) (uid : Nat) : State :=
  let g := s.wg uid
  let moment := s.mem.clock + 1
  let t := g.held.foldl (fun (u : State) h =>
    if isRemote h.pa then
      u.addAccesses [{ id := 0, who := .collie g.core 16, word := u.sched.uid, pc := g.entry, lane := 0xFF, wg := uid, part := g.part
                       ctx := g.ctx, owner := h.owner, global := false, addr := h.pa, size := h.size
                       act := .store h.data h.tag false }]
    else
      let m := u.mem.publishAt ⟨g.core, 96, uid, 0⟩ moment h.owner h.pa (bytesOf h.size h.data)
      u.withMem (match h.tag with | some b => m.setTag h.pa b | none => m)) s
  let v := (t.withMem { t.mem with clock := moment }).startViews uid
  v.putWg { v.wg uid with held := [], versionOpen := false }

/-- The oldest open task of its context on its die (R216). -/
def State.oldestOpen (s : State) (g : Workgroup) : Bool :=
  s.wgs.all fun h => !(h.versionOpen && h.born && !h.ended && h.part == g.part && h.ctx == g.ctx && dieOf h.core == dieOf g.core)
    || decide (g.birth ≤ h.birth)

/-- What a task has begun is over (R202), but for stores that wait for the commit itself (R216). -/
def State.begunOver (s : State) (uid : Nat) : Bool :=
  s.mem.access.all (fun a => a.wg != uid || (match s.spot a with | some pa => s.overQuota a pa | none => false)) &&
  s.copies.all (fun c => c.wg != uid || c.done || c.faulted) && s.opsOver uid

/-- VERSION_COMMIT (R215, R216). A task that has committed gives its resources back once the writes that have left for other devices
are over (R77, R202). None commits in a partition that is being reset (R217). DEDUCED (log entry 44). -/
def execVersionCommit (wg : Nat) (s : State) : Out :=
  .next <|
    match s.findWg wg with
    | none => s
    | some g =>
      if g.committed then s.settleWg wg
      else if !g.born || g.saved || g.ended || s.resetting.contains g.part || (s.ctx g.part g.ctx).gated then s
      else if s.taskOver wg && s.copies.all (fun c => c.wg != wg) then
        let t := (s.performHeld wg).forkOver wg
        (t.putWg { t.wg wg with committed := true }).settleWg wg
      else if g.outgrown && g.versionOpen && s.oldestOpen g && s.begunOver wg then
        let t := s.performHeld wg
        t.putWg { t.wg wg with irr := true, outgrown := false }
      else s

/-! ### Retirement (R20, R305) -/

/-- A grid has nothing left: no work, children, accesses, copies, tile words, records (R20, R308). -/
def State.retirable (s : State) (g : Grid) : Bool :=
  let mine (uid : Nat) : Bool := s.wgs.any fun w => w.uid == uid && w.grid == g.uid
  let ofGrid (r : TaskRec) : Bool := r.grid == g.uid
  g.unstarted.isEmpty && s.dist.dieReplies.all (fun r => r.grid != g.uid || r.ceded.isEmpty) &&
  s.wgs.all (fun w => w.grid != g.uid || w.released) &&
  s.dist.tasks.all (fun e => e.2.all fun r => !ofGrid r) && s.dist.deques.all (fun e => e.2.all fun r => !ofGrid r) &&
  s.dist.taskRings.all (fun r => r.items.all fun x => !ofGrid x) &&
  s.dist.taskReplies.all (fun r => (r.task.map fun x => !ofGrid x).getD true) &&
  s.dist.grids.all (fun h => (h.parent.map fun u => !mine u).getD true) &&
  s.dist.waiting.all (fun x => (x.parent.map fun u => !mine u).getD true) &&
  s.mem.access.all (fun a => !mine a.wg) && s.copies.all (fun c => !mine c.wg) && s.pillows.ops.all (fun o => !mine o.wg)

/-- The completion word (R305). -/
def doneWord (g : Grid) : Nat := (if g.traps = 0 then 0 else 1) + g.traps * 2 ^ 16 + g.lineage * 2 ^ 40

/-- GRID_RETIRE (R20, R301, R303, R305, R330). DEDUCED (log entry 46). -/
def execGridRetire (ctx lineage : Nat) (s : State) : Out :=
  .next <|
    match s.dist.grids.find? fun g => g.ctx == ctx && g.lineage == lineage && s.retirable g with
    | none => s
    | some g =>
      let w := if pkDone g.packet = 0 then (some s, s) else s.ringWrite g.part g.ctx (pkDone g.packet) 0 (bytesOf 8 (doneWord g))
      match w with
      | (none, t) => t
      | (some t, _) =>
        let t1 := t.spend g.part ((Config.measuredEnergy g.lineage : Int) - pkEnergy g.packet)
        let t2 := if g.inh = 0 then t1
          else t1.strayed 1 fun e => e.part == g.part && e.ctx == g.ctx && e.key / 2 ^ 40 == inhLineage g.inh
        let t3 := t2.childOver g.parent g.lineage (if g.traps = 0 then 0 else 1)
        { t3 with
          dist := { t3.dist with grids := (t3.dist.grids.filter fun h => h.uid != g.uid).map fun h =>
                                   if h.heirOf = some g.uid then t3.reshare h else h
                                 dieReplies := t3.dist.dieReplies.filter fun r => r.grid != g.uid }
          wgs := t3.wgs.filter fun x => x.grid != g.uid }

/-! ### Strays (R330, R331) -/

/-- ESTATE_EXPIRY (R330). -/
def execEstateExpiry (ctx key : Nat) (s : State) : Out :=
  .next <|
    s.strayed 3 fun e =>
      let x := (s.ctx e.part e.ctx).expiry
      e.ctx == ctx && e.key == key && x != 0 && decide (e.born + x * 2 ^ 20 ≤ s.sched.now)

/-- The values of an estate as its record lays them out (R331). -/
def Estate.valueBytes (e : Estate) : List (BitVec 8) :=
  let bs := (List.range e.count).flatMap fun j => bytesOf (estWidth (widthCode e.widths j) / 8) (e.vals.getD j 0)
  (bs ++ List.replicate 128 0).take 128

/-- The 144 bytes of a stray record (R331). -/
def Estate.record (e : Estate) : List (BitVec 8) :=
  bytesOf 8 e.key ++ bytesOf 1 e.count ++ bytesOf 1 (e.stray.getD 0) ++ bytesOf 2 e.widths ++ bytesOf 1 e.core ++ bytesOf 3 0 ++
  e.valueBytes

/-- A stray waits for others that the same retirement has made: they are written in increasing key order (R335). -/
def State.strayWaits (s : State) (e : Estate) : Bool :=
  e.stray == some 1 && s.estates.any fun f =>
    f.stray == some 1 && f.part == e.part && f.ctx == e.ctx && f.strayAt == e.strayAt && decide (f.key < e.key)

/-- STRAY_RECORD_WRITE (R331, R335): one stray of a context, whichever may be written, is written; then the tail, then the
report. DEDUCED (log entry 64). -/
def execStrayRecordWrite (ctx : Nat) (s : State) : Out :=
  .next <|
    let strays := s.estates.filter fun e =>
      e.ctx == ctx && e.stray.isSome && !e.moving && (s.ctx e.part e.ctx).strayPtr != 0 && !s.strayWaits e
    match strays[Config.freeChoice s.sched.free strays.length % strays.length]? with
    | none => s
    | some e =>
      let c := s.ctx e.part e.ctx
      match s.rootNat e.part e.ctx c.strayPtr 8 with
      | none =>
        (match s.failing e.part e.ctx c.strayPtr 8 16 needR with
        | some (a, rl) => s.noteOnce e.part e.ctx a 3 1 rl
        | none => s)
      | some p =>
        let head := p % 2 ^ 32
        let tail := p / 2 ^ 32
        if ringFull head tail c.straySize then s
        else
          match s.nextFree.leave e with
          | (none, t) => t
          | (some x, t0) =>
          match t0.ringWrite e.part e.ctx (c.strayRing + 144 * (tail % c.straySize)) 3 x.record with
          | (none, t) => t
          | (some t, _) =>
            let tail' := (tail + 1) % 2 ^ 32
            match t.ringWrite e.part e.ctx (c.strayPtr + 4) 3 (bytesOf 4 tail') with
            | (none, u) => u
            | (some u, _) =>
              let r : Report :=
                { id := u.sched.uid, ctx := e.ctx, owner := e.part, taskid := 0, lineage := e.key / 2 ^ 40, cause := 0x5C, pc := 0
                  detail := 0, lane := 0xFF, addr := 0, arg0 := 1, arg1 := tail', core := e.core, slot := 0xFF
                  inHandler := false, ctxFault := false }
              { (u.nextUid.takeEstate e) with late := u.late ++ [r] }

/-! ### Translation faults (R213, R344) -/

/-- The 32 bytes of a fault record. -/
def XFault.bytes (f : XFault) (seq : Nat) : List (BitVec 8) :=
  bytesOf 8 f.va ++ bytesOf 4 (f.ctx % 2 ^ 16 + f.part * 2 ^ 16) ++ bytesOf 1 f.path ++ bytesOf 1 f.kind ++ bytesOf 1 f.reason ++
  bytesOf 1 f.level ++ bytesOf 2 f.core ++ bytesOf 2 0 ++ bytesOf 4 seq ++ bytesOf 8 0

/-- TRANSLATION_FAULT_RECORD (R344, R362): the record of a failed translation, by its number, when the queue has room. -/
def execTranslationFaultRecord (idx : Nat) (s : State) : Out :=
  .next <|
    match s.mem.xfaults.find? fun f => f.id == idx && !f.recorded with
    | none => s
    | some f =>
      let h := s.fnOf f.part
      if h.fqsize = 0 || ringFull h.fqhead h.fqtail h.fqsize then s
      else
        let seq := sparseGet 0 s.mem.xseq f.part
        let m := s.mem.write 0 (hostKey (h.fqbase + 32 * (h.fqtail % h.fqsize))) (f.bytes seq)
        let t := s.withMem { m with
          xseq := sparseSet 0 m.xseq f.part ((seq + 1) % 2 ^ 32)
          xfaults := m.xfaults.map fun x => if x.id = idx then { x with recorded := true, seq := seq } else x }
        ({ t with fns := sparseSet {} t.fns (f.part + 1) { h with fqtail := (h.fqtail + 1) % 2 ^ 32 } }).post (f.part + 1)
          { code := 6, ctx := f.ctx, gen := 0, arg0 := seq }

/-- Cached entries that serve an address are dropped, so that the retry walks afresh (R344). -/
def Memory.forget (m : Memory) (part ctx va : Nat) : Memory :=
  { m with tlb := m.tlb.filter fun e => !(e.part == part && e.ctx == ctx && e.page == va / 2 ^ levelShift e.level) }

/-- Everything parked on a translation fault goes on (R213). -/
def State.unpark (s : State) (id : Nat) : State :=
  { s with
    mem := { s.mem with access := s.mem.access.map fun a => if a.parked = some id then { a with parked := none } else a }
    copies := s.copies.map fun (c : Copy) => if c.parked = some id then { c with parked := none } else c
    pillows := { s.pillows with ops := s.pillows.ops.map fun o => if o.parked = some id then { o with parked := none } else o }
    estates := s.estates.map fun (e : Estate) => if e.parked = some id then { e with parked := none } else e
    warps := s.warps.map fun (w : Warp) =>
      { w with gangs := w.gangs.map fun g => if g.hold = .xlate id then { g with hold := .none } else g }
    collies := s.collies.map fun (c : Collie) => if c.x.hold = .xlate id then { c with x := { c.x with hold := .none } } else c }

/-- An estate whose way into its area does not resolve: its values are lost, and its context gets a report of TRANSLATION, since
no task has issued the migration. DESIGN CHOICE (log entry 62). -/
def State.lostEstate (s : State) (e : Estate) (f : XFault) : State :=
  let r : Report :=
    { id := s.sched.uid, ctx := e.ctx, owner := e.part, taskid := 0, lineage := e.key / 2 ^ 40, cause := 0x20, pc := 0
      detail := f.reason, lane := 0xFF, addr := f.va, arg0 := 0, arg1 := 0, core := e.core, slot := 0xFF
      inHandler := false, ctxFault := false }
  ({ s.nextUid.nextFree with late := s.late ++ [r] }).putEstate
    { e.undefined s.sched.free with moving := false, parked := none }

/-- What the distributor spilled and cannot write or read again is lost, and its context gets a report of TRANSLATION, since no task
has issued the spill. DESIGN CHOICE (log entry 132). -/
def State.lostItems (s : State) (f : XFault) : State :=
  let d := s.dist
  let mine (p : Option Nat) : Bool := p == some f.id
  if (d.rings.any fun r => r.items.any fun x => mine x.parked) || d.taskRings.any fun r => r.items.any fun x => mine x.parked then
    let r : Report :=
      { id := s.sched.uid, ctx := f.ctx, owner := f.part, taskid := 0, lineage := 0, cause := 0x20, pc := 0, detail := f.reason
        lane := 0xFF, addr := f.va, arg0 := 0, arg1 := 0, core := 0, slot := 0xFF, inHandler := false, ctxFault := false }
    { s.nextUid with
      late := s.late ++ [r]
      dist := { d with
        rings := d.rings.map fun (e : Ring Submission) => { e with items := e.items.filter fun x => !mine x.parked }
        taskRings := d.taskRings.map fun (e : Ring TaskRec) => { e with items := e.items.filter fun x => !mine x.parked } } }.wakeSpace f.part
  else s

/-- What was parked on a fault takes TRANSLATION (R213, R344): an access, a copy, a tile operation, an estate, a gang, a
thread, or an item of a ring. -/
def State.unresolved (s : State) (f : XFault) : State :=
  let tr : Trap := { cause := 0x20, detail := f.reason, addr := f.va }
  let s1 := (s.mem.access.filter fun a => a.parked == some f.id).foldl (fun t a =>
    let u := t.dropAccess a
    match a.note with
    | none => u.raiseAccess a tr
    | some (_, id) =>
      match u.copies.find? fun c => c.id == id with
      | some c => u.faultCopy c tr
      | none => u) s
  let s2 := (s1.copies.filter fun c => c.parked == some f.id).foldl (fun t c => t.faultCopy c tr) s1
  let s3 := (s2.pillows.ops.filter fun o => o.parked == some f.id).foldl (fun t o =>
    t.stopTile o { cause := 0x20, detail := f.reason, addr := f.va }) s2
  let s4 := (s3.warps.flatMap fun w => (w.gangs.filter fun g => g.hold == .xlate f.id).map fun g => (⟨w, g⟩ : Seat)).foldl
    (fun t q => t.raiseAt q tr) s3
  let s5 := (s4.collies.filter fun c => c.x.hold == .xlate f.id).foldl (fun t c => t.raiseCollie c tr) s4
  ((s5.estates.filter fun e => e.parked == some f.id).foldl (fun t e => t.lostEstate e f) s5).lostItems f

/-- FQANSWER (R344, R362): the driver's answer to a recorded fault. -/
def execFqanswer (fn seq : Nat) (unresolvable : Bool) (s : State) : Out :=
  .next <|
    match s.mem.xfaults.find? fun f => f.part + 1 == fn && f.seq == seq && f.recorded with
    | none => s
    | some f =>
      let m := s.mem.forget f.part f.ctx f.va
      let t := s.withMem { m with xfaults := m.xfaults.filter fun x => x.id != f.id }
      (if unresolvable then t.unresolved f else t).unpark f.id

end Sys2Proof.Machine
end

