-- ==== Sys2Proof/Machine/Special.lean ====
section
/-!
DEFINITION. The special functions that are only bounded (R138): RSQRT, EXP2, LOG2, SIN, COS, TANH, SIGM. Each result on
an ordinary operand is a free value of Config where that value lies within the bound, measured against a fixed-point
approximation of the function; where it does not, the approximation rounded to FP32 stands in its place. So every
result lies within the bound and nothing else is known of it. The special operands have their results by the table.
-/
namespace Sys2Proof.Machine

/-- Fraction bits of the fixed-point approximations. -/
abbrev fxBits : Nat := 96
/-- The number one. -/
abbrev fxOne : Int := 2 ^ fxBits

/-- The product of two fixed-point numbers, rounded down. -/
def fxMul (a b : Int) : Int := a * b / fxOne

/-- x * x^0/0! + ... : the exponential series from term n, over k more terms. -/
def expSeries (x : Int) : Nat → Nat → Int → Int
  | 0, _, _ => 0
  | k + 1, n, t => t + expSeries x k (n + 1) (fxMul t x / ((n : Int) + 1))

/-- log2 of a number in [1, 2) by repeated squaring: k binary digits. -/
def log2Digits : Nat → Int → Int → Int → Int
  | 0, _, _, acc => acc
  | k + 1, y, bit, acc =>
    let y2 := y * y / 2 ^ 192
    if (2 : Int) ^ 193 ≤ y2 then log2Digits k (y2 / 2) (bit / 2) (acc + bit)
    else log2Digits k y2 (bit / 2) acc

/-- ln 2 to fxBits fraction bits, as a rational 0.693147180559945309417232121458176568... -/
def fxLn2 : Int := 693147180559945309417232121458176568 * fxOne / 10 ^ 36
/-- log2 e. -/
def fxLog2e : Int := 1442695040888963407359924681001892137 * fxOne / 10 ^ 36
/-- 2 pi, to 60 decimal digits, at 160 fraction bits. -/
def twoPi160 : Int := 6283185307179586476925286766559005768394338798750211641949889 * 2 ^ 160 / 10 ^ 60

/-- 2^f for f in [0, 1), in fixed point; above 1 for a positive f, as the function is. -/
def exp2Frac (f : Int) : Int :=
  if f = 0 then fxOne else max (fxOne + 1) (expSeries (fxMul f fxLn2) 40 0 fxOne)

/-- 2^x for a fixed-point x, as a pair m, e meaning m * 2^e. -/
def exp2Fix (x : Int) : Nat × Int :=
  let n := x / fxOne
  ((exp2Frac (x - n * fxOne)).toNat, n - fxBits)

/-- log2 of m * 2^e for a nonzero m, in fixed point. -/
def log2Fix (m : Nat) (e : Int) : Int :=
  let k := m.log2
  let y : Int := (m : Int) * 2 ^ 192 / 2 ^ k
  (e + k) * fxOne + log2Digits 96 y (fxOne / 2) 0

/-- A fixed-point value kept strictly inside (lo, hi): the function never reaches these ends, and a result at the edge
of its bound is told apart from one beyond it only where the value lies on the right side of the end. -/
def fxInside (lo hi v : Int) : Int := max (lo + 1) (min (hi - 1) v)

/-- sin (c = false) or cos (c = true) of a nonzero m * 2^e, in fixed point: the angle is reduced modulo 2 pi. -/
def trigFix (c : Bool) (neg : Bool) (m : Nat) (e : Int) : Int :=
  let a : Int := if 0 ≤ e + 160 then ((m * 2 ^ (e + 160).toNat : Nat) : Int) else (shiftNat m (e + 160) : Nat)
  let r := max 1 ((a % twoPi160) / 2 ^ 64)
  let x2 := -(fxMul r r)
  let rec series : Nat → Nat → Int → Int
    | 0, _, _ => 0
    | k + 1, n, t => t + series k (n + 2) (fxMul t x2 / (((n : Int) + 1) * (n + 2)))
  fxInside (-fxOne) fxOne (if c then series 40 0 fxOne else (if neg then -1 else 1) * series 40 1 r)

/-- A nonzero finite value in fixed point, rounded down in magnitude, but never to zero. -/
def fxOf (neg : Bool) (m : Nat) (e : Int) : Int :=
  let v : Int := max 1 (shiftNat m (e + fxBits) : Nat)
  if neg then -v else v

/-- 1 / (1 + 2^-y) for a fixed-point y: never 0 and never 1. -/
def logisticFix (y : Int) : Int :=
  let (m, e) := exp2Fix (-(max (-(100 * fxOne)) (min (100 * fxOne) y)))
  let t : Int := (shiftNat m (e + fxBits) : Nat)
  fxInside 0 fxOne (fxOne * fxOne / (fxOne + t))

/-- An FP32 pattern lies within the amount tol * 2^te of the value (-1)^neg * m * 2^e. -/
def withinDyadic (r : BitVec 32) (neg : Bool) (m : Nat) (e : Int) (tol : Nat) (te : Int) : Bool :=
  match FloatFmt.f32.decode r.toNat with
  | .fin n' m' e' =>
    let base := min te (min e e')
    (dyadicInt n' m' e' base - dyadicInt neg m e base).natAbs ≤ tol * 2 ^ (te - base).toNat
  | _ => false

/-- The exponent of one unit in the last place of FP32 at magnitude m * 2^e. -/
def ulpExp (m : Nat) (e : Int) : Int := max (-149) (e + m.log2 - 23)

/-- The candidate where it is within the tolerance of the approximation, else the approximation rounded. -/
def boundedResult (cand : BitVec 32) (neg : Bool) (m : Nat) (e : Int) (tol : Nat) (te : Int) : BitVec 32 :=
  if withinDyadic cand neg m e tol te then cand
  else BitVec.ofNat 32 (FloatFmt.f32.round 0 false neg m e)

/-- A fixed-point result bounded absolutely by 2^te. -/
def boundedFix (cand : BitVec 32) (v : Int) (te : Int) : BitVec 32 :=
  boundedResult cand (v < 0) v.natAbs (-(fxBits : Int)) 1 te

abbrev nan32 : BitVec 32 := 0x7FC00000
abbrev one32 : BitVec 32 := 0x3F800000

/-- RSQRT, FP32 (R138). -/
def rsqrt32 (x : BitVec 32) : BitVec 32 :=
  match FloatFmt.f32.decode x.toNat with
  | .nan => nan32
  | .inf neg => if neg then nan32 else 0
  | .fin neg m e =>
    if m = 0 then (if neg then 0xFF800000 else 0x7F800000)
    else if neg then nan32
    else
      -- 2^k / m under a root: k is chosen so that the exponent halves exactly and 80 bits remain
      let k : Int := if e % 2 = 0 then 200 else 201
      let r := isqrt (2 ^ k.toNat / m)
      let ex := (-(k + e)) / 2
      boundedResult (Config.rsqrtCandidate x) false r ex 1 (ulpExp r ex)

/-- EXP2, FP32 (R138). -/
def exp2f (x : BitVec 32) : BitVec 32 :=
  match FloatFmt.f32.decode x.toNat with
  | .nan => nan32
  | .inf neg => if neg then 0 else 0x7F800000
  | .fin neg m e =>
    if m = 0 then one32
    else if !neg && dyadicInt false m e (min e 0) ≥ 128 * 2 ^ (-(min e 0)).toNat then 0x7F800000
    else if neg && dyadicInt false m e (min e 0) > 200 * 2 ^ (-(min e 0)).toNat then
      -- 2^x lies above 0 and below 2^-200: every number of that span has the same candidates
      boundedResult (Config.exp2Candidate x) false 1 (-201) 2 (-149)
    else
      let (r, ex) := exp2Fix (fxOf neg m e)
      boundedResult (Config.exp2Candidate x) false r ex 2 (ulpExp r ex)

/-- LOG2, FP32 (R138). -/
def log2f (x : BitVec 32) : BitVec 32 :=
  match FloatFmt.f32.decode x.toNat with
  | .nan => nan32
  | .inf neg => if neg then nan32 else 0x7F800000
  | .fin neg m e =>
    if m = 0 then 0xFF800000
    else if neg then nan32
    else
      let v := log2Fix m e
      if 0x3F000000 ≤ x.toNat ∧ x.toNat ≤ 0x40000000 then boundedFix (Config.log2Candidate x) v (-22)
      else boundedResult (Config.log2Candidate x) (v < 0) v.natAbs (-(fxBits : Int)) 2
        (ulpExp v.natAbs (-(fxBits : Int)))

/-- An FP32 pattern is a number in [-1, 1]. -/
def inUnit (r : BitVec 32) : Bool := r.toNat % 2 ^ 31 ≤ 0x3F800000

/-- SIN and COS, FP32 (R138). -/
def trig32 (c : Bool) (cand x : BitVec 32) : BitVec 32 :=
  match FloatFmt.f32.decode x.toNat with
  | .nan => nan32
  | .inf _ => nan32
  | .fin neg m e =>
    if m = 0 then (if c then one32 else x)
    else if x.toNat % 2 ^ 31 ≤ 0x49800000 then boundedFix cand (trigFix c neg m e) (-21)
    else if inUnit cand then cand else 0

/-- TANH, FP32 (R138): for magnitudes below 2^-12 the result is x. -/
def tanh32 (x : BitVec 32) : BitVec 32 :=
  match FloatFmt.f32.decode x.toNat with
  | .nan => nan32
  | .inf neg => if neg then 0xBF800000 else one32
  | .fin neg m e =>
    if x.toNat % 2 ^ 31 < 0x39800000 then x
    else
      let v : Int := 2 * logisticFix (fxMul (2 * fxOf neg m e) fxLog2e) - fxOne
      boundedFix (Config.tanhCandidate x) v (-21)

/-- SIGM, FP32 (R138). -/
def sigm32 (x : BitVec 32) : BitVec 32 :=
  match FloatFmt.f32.decode x.toNat with
  | .nan => nan32
  | .inf neg => if neg then 0 else one32
  | .fin neg m e =>
    if m = 0 then 0x3F000000
    else
      boundedFix (Config.sigmCandidate x) (logisticFix (fxMul (fxOf neg m e) fxLog2e)) (-22)

/-- A bounded function under a scalar float type: FP32 as it is; FP16 and BF16 on the exactly widened operand, with the
result rounded by RNE (R138), subnormals flushed under mode.sub (R115). -/
def viaF32 (g : BitVec 32 → BitVec 32) (type : Nat) (sub : Bool) (x : Nat) : Nat :=
  if type = 0x10 then (g (BitVec.ofNat 32 x)).toNat
  else
    let f := fmtOfType type
    let wide := FloatFmt.convert f .f32 sub ⟨0, false, false⟩ x
    FloatFmt.convert .f32 f false ⟨0, false, sub⟩ (g (BitVec.ofNat 32 wide)).toNat

end Sys2Proof.Machine
end

