-- ==== Sys2Proof/Machine/FloatWords.lean ====
section
/-!
DEFINITION. The float, conversion and special-function instructions (R128 to R138) and the FP64 majors (R57, fused off on
this device, R49: every one of them reaches the emulation handler by step 3 of R45).
-/
namespace Sys2Proof.Machine

/-- A scalar float word: g computes on patterns of the lane's format with the lane's rounding (R128, R129). -/
def floatWord (i : Instr) (d : RegCode) (srcs : List RegCode) (s : State)
    (g : FloatFmt → RoundCfg → List Nat → Nat) : Out :=
  aluWord i s fun x => x.lanewise d.toNat fun L =>
    let m := x.modeAt L
    let ty := modeType m
    BitVec.ofNat 32 (g (fmtOfType ty) (roundCfg m ty) (srcs.map fun c => floatOperand ty (x.rd c.toNat L)))

/-- A packed float word: g on each half (R116, R133). -/
def packedWord (i : Instr) (d a b c : RegCode) (s : State) (g : FloatFmt → RoundCfg → Nat → Nat → Nat → Nat) : Out :=
  aluWord i s fun x => x.lanewise d.toNat fun L =>
    let m := x.modeAt L
    let ty := modeType m
    bothHalves (g (fmtOfType ty) (roundCfg m ty)) (x.rd a.toNat L) (x.rd b.toNat L) (x.rd c.toNat L)

/-- Two sources and three, by pattern. -/
def on2 (f : Nat → Nat → Nat) : List Nat → Nat
  | [x, y] => f x y
  | _ => 0
def on1 (f : Nat → Nat) : List Nat → Nat
  | [x] => f x
  | _ => 0

/-- FFMA (R130). -/
def execFfma (d a b c : RegCode) (s : State) : Out :=
  floatWord (.ffma d a b c) d [a, b, c] s fun f r l =>
    match l with
    | [x, y, z] => f.fma r x y z
    | _ => 0
/-- FADD, FSUB, FMUL, FMIN, FMAX (R131). -/
def execFadd (d a b : RegCode) (s : State) : Out := floatWord (.fadd d a b) d [a, b] s fun f r => on2 (f.fadd r)
def execFsub (d a b : RegCode) (s : State) : Out := floatWord (.fsub d a b) d [a, b] s fun f r => on2 (f.fsub r)
def execFmul (d a b : RegCode) (s : State) : Out := floatWord (.fmul d a b) d [a, b] s fun f r => on2 (f.fmul r)
def execFmin (d a b : RegCode) (s : State) : Out :=
  floatWord (.fmin d a b) d [a, b] s fun f r => on2 (f.fminmax r.sub false)
def execFmax (d a b : RegCode) (s : State) : Out :=
  floatWord (.fmax d a b) d [a, b] s fun f r => on2 (f.fminmax r.sub true)

/-- FCMP (R132). -/
def execFcmp (d a b fn : RegCode) (s : State) : Out :=
  aluWord (.fcmp d a b fn) s fun x => x.wrPr d.toNat (x.lanes.map fun L =>
    let m := x.modeAt L
    let ty := modeType m
    (L, (fmtOfType ty).fcmp (subFor ty (modeSub m)) fn.toNat
      (floatOperand ty (x.rd a.toNat L)) (floatOperand ty (x.rd b.toNat L))))

/-- FFMA2, FADD2, FMUL2, FMIN2, FMAX2 (R133). -/
def execFfma2 (d a b c : RegCode) (s : State) : Out :=
  packedWord (.ffma2 d a b c) d a b c s fun f r x y z => f.fma r x y z
def execFadd2 (d a b : RegCode) (s : State) : Out :=
  packedWord (.fadd2 d a b) d a b b s fun f r x y _ => f.fadd r x y
def execFmul2 (d a b : RegCode) (s : State) : Out :=
  packedWord (.fmul2 d a b) d a b b s fun f r x y _ => f.fmul r x y
def execFmin2 (d a b : RegCode) (s : State) : Out :=
  packedWord (.fmin2 d a b) d a b b s fun f r x y _ => f.fminmax r.sub false x y
def execFmax2 (d a b : RegCode) (s : State) : Out :=
  packedWord (.fmax2 d a b) d a b b s fun f r x y _ => f.fminmax r.sub true x y

/-- The sign bits of the elements under a type (R134). -/
def signMask (ty : Nat) : BitVec 32 :=
  if ty = 0x10 then 0x80000000 else if ty = 0x11 ∨ ty = 0x12 then 0x8000 else 0x80008000
/-- The bits a result of the type keeps: a 16-bit scalar result has its upper half zero (R128). -/
def resultMask (ty : Nat) : BitVec 32 := if ty = 0x11 ∨ ty = 0x12 then 0xFFFF else 0xFFFFFFFF

/-- FABS, FNEG (R134). -/
def execFabs (d a : RegCode) (s : State) : Out :=
  aluWord (.fabs d a) s fun x => x.lanewise d.toNat fun L =>
    (x.rd a.toNat L &&& ~~~ signMask (modeType (x.modeAt L))) &&& resultMask (modeType (x.modeAt L))
def execFneg (d a : RegCode) (s : State) : Out :=
  aluWord (.fneg d a) s fun x => x.lanewise d.toNat fun L =>
    (x.rd a.toNat L ^^^ signMask (modeType (x.modeAt L))) &&& resultMask (modeType (x.modeAt L))
/-- FCLASS (R134). -/
def execFclass (d a : RegCode) (s : State) : Out := floatWord (.fclass d a) d [a] s fun f _ => on1 f.fclass

/-- F2I, F2N, I2F, N2F, FRND (R135). -/
def execF2i (d a : RegCode) (s : State) : Out :=
  floatWord (.f2i d a) d [a] s fun f r => on1 fun x =>
    (floatToInt r.rnd r.sat (-2 ^ 31) (2 ^ 31 - 1) 0x80000000 (f.decode (f.flushIn r.sub x))).toNat
def execF2n (d a : RegCode) (s : State) : Out :=
  floatWord (.f2n d a) d [a] s fun f r => on1 fun x =>
    (floatToInt r.rnd r.sat 0 (2 ^ 32 - 1) 0xFFFFFFFF (f.decode (f.flushIn r.sub x))).toNat
def execI2f (d a : RegCode) (s : State) : Out :=
  aluWord (.i2f d a) s fun x => x.lanewise d.toNat fun L =>
    let m := x.modeAt L
    BitVec.ofNat 32 ((fmtOfType (modeType m)).ofInt (roundCfg m (modeType m)) (x.rd a.toNat L).toInt)
def execN2f (d a : RegCode) (s : State) : Out :=
  aluWord (.n2f d a) s fun x => x.lanewise d.toNat fun L =>
    let m := x.modeAt L
    BitVec.ofNat 32 ((fmtOfType (modeType m)).ofInt (roundCfg m (modeType m)) (x.rd a.toNat L).toNat)
def execFrnd (d a : RegCode) (s : State) : Out :=
  floatWord (.frnd d a) d [a] s fun f r => on1 (f.frnd r.rnd r.sub)

/-- CVT (R136): the type of the mode is not consumed; mode.sub acts on the narrow side. DEDUCED (log entry 116). -/
def execCvt (d a : RegCode) (op : BitVec 4) (sel : BitVec 2) (s : State) : Out :=
  aluWord (.cvt d a op sel) s fun x => x.lanewise d.toNat fun L =>
    let m := x.modeAt L
    cvtWord op.toNat sel.toNat ⟨modeRnd m, modeSat m, modeSub m⟩ (x.rd d.toNat L) (x.rd a.toNat L)

/-- A long-latency float word (R137). -/
def floatLong (i : Instr) (d : RegCode) (look : BitVec 4) (s : State)
    (g : Nat → FloatFmt → RoundCfg → (RegCode → Nat) → Nat) : Out :=
  longWord i d.toNat look.toNat s fun x L =>
    let m := x.modeAt L
    let ty := modeType m
    BitVec.ofNat 32 (g ty (fmtOfType ty) (roundCfg m ty) fun c => floatOperand ty (x.rd c.toNat L))

/-- RCP, SQRT, DIV (R138): correctly rounded. -/
def execRcp (d a : RegCode) (look : BitVec 4) (s : State) : Out :=
  floatLong (.rcp d a look) d look s fun _ f r rd => f.frcp r (rd a)
def execSqrt (d a : RegCode) (look : BitVec 4) (s : State) : Out :=
  floatLong (.sqrt d a look) d look s fun _ f r rd => f.fsqrt r (rd a)
def execDiv (d a b : RegCode) (look : BitVec 4) (s : State) : Out :=
  floatLong (.div d a b look) d look s fun _ f r rd => f.fdiv r (rd a) (rd b)

/-- RSQRT (R138): bounded. -/
def execRsqrt (d a : RegCode) (look : BitVec 4) (s : State) : Out :=
  floatLong (.rsqrt d a look) d look s fun ty _ r rd => viaF32 rsqrt32 ty r.sub (rd a)
/-- EXP2 (R138): bounded. -/
def execExp2 (d a : RegCode) (look : BitVec 4) (s : State) : Out :=
  floatLong (.exp2 d a look) d look s fun ty _ r rd => viaF32 exp2f ty r.sub (rd a)
/-- LOG2 (R138): bounded. -/
def execLog2 (d a : RegCode) (look : BitVec 4) (s : State) : Out :=
  floatLong (.log2 d a look) d look s fun ty _ r rd => viaF32 log2f ty r.sub (rd a)
/-- TANH (R138): bounded. -/
def execTanh (d a : RegCode) (look : BitVec 4) (s : State) : Out :=
  floatLong (.tanh d a look) d look s fun ty _ r rd => viaF32 tanh32 ty r.sub (rd a)
/-- SIGM (R138): bounded. -/
def execSigm (d a : RegCode) (look : BitVec 4) (s : State) : Out :=
  floatLong (.sigm d a look) d look s fun ty _ r rd => viaF32 sigm32 ty r.sub (rd a)
/-- SIN (R138): bounded. -/
def execSin (d a : RegCode) (look : BitVec 4) (s : State) : Out :=
  floatLong (.sin d a look) d look s fun ty _ r rd => viaF32 (fun x => trig32 false (Config.sinCandidate x) x) ty r.sub (rd a)
/-- COS (R138): bounded. -/
def execCos (d a : RegCode) (look : BitVec 4) (s : State) : Out :=
  floatLong (.cos d a look) d look s fun ty _ r rd => viaF32 (fun x => trig32 true (Config.cosCandidate x) x) ty r.sub (rd a)

/-- The rounding of an FP64 word: subnormals kept, saturation off (R57). -/
def round64 (m : BitVec 32) : RoundCfg := ⟨modeRnd m, false, false⟩

/-- A word on binary64 pairs (R57). -/
def doubleWord (i : Instr) (d : RegCode) (s : State) (g : RoundCfg → (RegCode → Nat) → Nat) : Out :=
  aluWord i s fun x => x.wr64 d.toNat (x.lanes.map fun L =>
    (L, BitVec.ofNat 64 (g (round64 (x.modeAt L)) fun c => (x.rd64 c.toNat L).toNat)))

/-- DFMA (R57). DEDUCED (log entry 117). -/
def execDfma (d a b c : RegCode) (s : State) : Out :=
  doubleWord (.dfma d a b c) d s fun r rd => FloatFmt.f64.fma r (rd a) (rd b) (rd c)
/-- DADD, DSUB, DMUL, DMIN, DMAX (R57). -/
def execDop (d a b fn : RegCode) (s : State) : Out :=
  doubleWord (.dop d a b fn) d s fun r rd =>
    match fn.toNat with
    | 0 => FloatFmt.f64.fadd r (rd a) (rd b)
    | 1 => FloatFmt.f64.fsub r (rd a) (rd b)
    | 2 => FloatFmt.f64.fmul r (rd a) (rd b)
    | 3 => FloatFmt.f64.fminmax false false (rd a) (rd b)
    | _ => FloatFmt.f64.fminmax false true (rd a) (rd b)
/-- DCMP (R57). -/
def execDcmp (d a b fn : RegCode) (s : State) : Out :=
  aluWord (.dcmp d a b fn) s fun x => x.wrPr d.toNat (x.lanes.map fun L =>
    (L, FloatFmt.f64.fcmp false fn.toNat (x.rd64 a.toNat L).toNat (x.rd64 b.toNat L).toNat))
/-- DCVT (R57); dir 1 overflows by the mode's column of R117. DEDUCED (log entry 117). -/
def execDcvt (d a : RegCode) (dir : BitVec 2) (s : State) : Out :=
  aluWord (.dcvt d a dir) s fun x =>
    match dir.toNat with
    | 0 => x.wr64 d.toNat (x.lanes.map fun L =>
        (L, BitVec.ofNat 64 (FloatFmt.convert .f32 .f64 false (round64 (x.modeAt L)) (x.rd a.toNat L).toNat)))
    | 1 => x.lanewise d.toNat fun L =>
        BitVec.ofNat 32 (FloatFmt.convert .f64 .f32 false (round64 (x.modeAt L)) (x.rd64 a.toNat L).toNat)
    | 2 => x.wr64 d.toNat (x.lanes.map fun L =>
        (L, BitVec.ofNat 64 (FloatFmt.f64.ofInt (round64 (x.modeAt L)) (x.rd a.toNat L).toInt)))
    | _ => x.lanewise d.toNat fun L =>
        floatToInt (modeRnd (x.modeAt L)) (modeSat (x.modeAt L)) (-2 ^ 31) (2 ^ 31 - 1) 0x80000000
          (FloatFmt.f64.decode (x.rd64 a.toNat L).toNat)

end Sys2Proof.Machine
end

