-- ==== Sys2Proof/Machine/Hostside.lean ====
section
/-!
DEFINITION. The host's side: registers, commands and events of the functions (R361, R362, R366 to R368), layouts and
carve-outs (R340, R369), the domain map (R374), partition resets and memory errors (R219, R349, R350, R371, R372).
-/
namespace Sys2Proof.Machine

/-- The registers of a function (R361). -/
def State.fn (s : State) (fn : Nat) : HostFn := sparseGet {} s.fns fn
def State.putFn (s : State) (fn : Nat) (f : HostFn) : State := { s with fns := sparseSet {} s.fns fn f }

/-! ### Partition resets (R371, R372) -/

/-- The reports of a reset's contexts (R372 step 2): a context fault with the given cause and address. DESIGN CHOICE (log entry 42). -/
def State.resetReports (s : State) (part cause addr : Nat) : State :=
  (s.ctxs.filter fun c => c.owner == part && c.loaded).foldl (fun t c =>
    let r : Report :=
      { id := t.sched.uid, ctx := c.num, owner := part, taskid := 0, lineage := 0, cause := cause, pc := 0, detail := 0
        lane := 0xFF, addr := addr, arg0 := 0, arg1 := 0, core := 0, slot := 0xFF, inHandler := false, ctxFault := true
        discarded := t.wgs.any fun g => g.part == part && g.ctx == c.num && g.versionOpen }
    { t.nextUid with late := t.late ++ [r] }) s

/-- A partition reset begins (R372): its units stop with their state in place, its contexts get their reports. cause is that
of event 4, VF disable prevailing over an earlier cause; report, where it has one, is the cause byte and address of the reports. DEDUCED (log entry 90). -/
def State.beginReset (s : State) (part cause : Nat) (report : Option (Nat × Nat)) : State :=
  if s.resetting.contains part then (if cause = 2 then { s with resetCause := sparseSet 0 s.resetCause part 2 } else s)
  else
    let t := match report with
      | some (c, a) => s.resetReports part c a
      | none => s
    { t with
      resetting := t.resetting ++ [part]
      resetCause := sparseSet 0 t.resetCause part cause
      ctxs := t.ctxs.map fun c => if c.owner = part then { c with gated := true } else c }

/-- The cause byte of the reports of a reset for which the manual names none. -/
def State.someCause (s : State) : Option (Nat × Nat) := some ((Config.freeByte s.sched.free 0).toNat, 0)

/-- A context after the reset of its partition: not loaded, its counters as when it is created (R296, R351, R365). -/
def Context.afterReset (c : Context) : Context :=
  { c with loaded := false, stopped := false, preempting := none, saved := false, gated := false, laid := false, tagkey := none, nextLineage := 1 }

/-- The queues and rings of a partition emptied. -/
def Dist.dropPart (d : Dist) (part : Nat) : Dist :=
  { d with
    queues := sparseDrop (fun k => k % 20 == part) d.queues
    rings := d.rings.filter fun r => r.part != part
    grids := d.grids.filter fun g => g.part != part
    tasks := sparseDrop (fun k => k % 20 == part) d.tasks
    taskRings := d.taskRings.filter fun r => r.part != part
    deques := sparseDrop (fun k => k % 20 == part) d.deques
    dieReplies := d.dieReplies.filter fun r => d.grids.any fun g => g.uid == r.grid && g.part != part
    taskReplies := d.taskReplies.filter fun r => r.part != part
    thieves := sparseDrop (fun k => k % 20 == part) d.thieves }

/-- 1 + the tag of a line whose key has been erased: no owner has it. -/
abbrev erasedTag : Nat := 32

/-- Ranges of noise without the keys from lo to hi. -/
def cutNoise (lo hi : Nat) (l : List Noise) : List Noise :=
  l.flatMap fun r => ([{ r with hi := min r.hi lo }, { r with lo := max r.lo hi }] : List Noise).filter fun x => decide (x.lo < x.hi)

/-- The key of a partition is erased and replaced (R346, R350): every line written under it, wherever it lies, is noise to every
owner from then on, and the partition's ranges read as noise until they are scrubbed or written, whatever noise was there before.
No other tag's noise changes (R371). -/
def State.scramble (s : State) (part : Nat) : State :=
  let mine := s.layout.ranges.filter fun r => r.owner == part
  let erased (w : Nat) : Nat := if w = part + 1 then erasedTag else w
  s.withMem { s.mem with
    noise := mine.map (fun r => ⟨r.base, r.base + r.length, part, true⟩) ++
      mine.foldl (fun l r => cutNoise r.base (r.base + r.length) l) (s.mem.noise.filter fun x => !(x.part == part && x.scrub))
    writers := s.mem.writers.map fun e => (e.1, erased e.2)
    scrubbed := s.mem.scrubbed.map fun r => (r.1, r.2.1, erased r.2.2)
    epochs := bumpEpochs s.mem.epochs [part] }

/-- Everything of a partition is gone, its keys are erased and its scrub begins (R372 steps 3 to 5). -/
def State.wipePart (s : State) (part : Nat) : State :=
  let gone (uid : Nat) : Bool := s.wgs.any fun g => g.uid == uid && g.part == part
  let t := { s with
    warps := s.warps.filter fun w => !gone w.wg
    collies := s.collies.filter fun c => !gone c.wg
    copies := s.copies.filter fun c => !gone c.wg
    wgs := s.wgs.filter fun g => g.part != part
    pillows := { s.pillows with ops := s.pillows.ops.filter fun o => o.part != part }
    estates := s.estates.filter fun e => e.part != part
    dist := s.dist.dropPart part
    ctxs := s.ctxs.map fun (c : Context) => if c.owner = part then c.afterReset else c
    mem := { s.mem with
      access := s.mem.access.filter fun a => a.who == Agent.mc || a.part != part
      monitors := s.mem.monitors.filter fun m => (s.agentWg m.who).all fun u => !gone u
      xfaults := s.mem.xfaults.filter fun f => f.part != part
      tlb := s.mem.tlb.filter fun e => e.part != part
      binds := s.mem.binds.filter fun b => b.part != part }
    resetting := s.resetting.filter fun p => p != part
    resetCause := sparseSet 0 s.resetCause part 0 }
  t.scramble part

/-- PARTITION_RESET (R372): the reset of a partition that has begun is carried out, and event 4 is posted. A reset by VF
disable waits for those of lower partitions and posts on the physical function alone. -/
def execPartitionReset (part cause : Nat) (s : State) : Out :=
  .next <|
    if !s.resetting.contains part || sparseGet 0 s.resetCause part != cause then s
    else if cause = 2 ∧ s.resetting.any fun p => decide (p < part) && sparseGet 0 s.resetCause p == 2 then s
    else
      let e : HostEvent := { code := 4, gen := 0, arg0 := part, arg1 := cause }
      let t := (s.wipePart part).post 0 e
      if cause = 2 then t else t.post (part + 1) e

/-- FUNCTION_LEVEL_RESET (R372, R384). -/
def execFunctionLevelReset (vf : Nat) (s : State) : Out :=
  .next (if 1 ≤ vf ∧ vf ≤ 20 then (s.beginReset (vf - 1) 5 s.someCause).nextFree else s)

/-- VF_DISABLE (R372): every partition is reset, without reports. -/
def execVfDisable (s : State) : Out :=
  .next ((List.range 20).foldl (fun t p => t.beginReset p 2 none) s)

/-- PREEMPTION_DEADLINE (R219): a context whose workgroups are not all saved in time takes its partition with it. -/
def execPreemptionDeadline (part : Nat) (s : State) : Out :=
  .next <|
    let late := s.ctxs.any fun c => c.owner == part && (match c.preempting with
      | some t0 => decide (t0 + 4096 * c.deadline ≤ s.sched.now) &&
          s.wgs.any fun g => g.part == part && g.ctx == c.num && !g.saved && !g.released
      | none => false)
    if late then s.beginReset part 4 (some (0x31, 0)) else s

/-- An uncorrectable error counted in the telemetry of the package, of a partition, of a die (R349, R381). -/
def Mgmt.countUe (m : Mgmt) (part : Option Nat) (die : Nat) : Mgmt :=
  let bump (t : Sparse Nat) (i : Nat) : Sparse Nat := sparseSet 0 t i (sparseGet 0 t i + 1)
  let a := bump (bump m.ue 0) (21 + die)
  { m with ue := match part with | some p => bump a (1 + p) | none => a }

/-- MEMORY_ERROR (R349, R378): in a partition's line it resets the partition, in a host-shared line that of the access, in a
management line it vectors the controller; each is counted, also one that no partition has met (R381). DEDUCED (log entry 109). -/
def execMemoryError (pa accessor : Nat) (s : State) : Out :=
  .next <|
    let die := homeDie pa
    let hit (p : Nat) : State :=
      ({ s with mgmt := s.mgmt.countUe (some p) die }).beginReset p 3 (some (0x60, pa))
    match s.layout.owner pa with
    | none => s
    | some o =>
      if o < 20 then hit o
      else if o = hostShared then (if accessor < 20 then hit accessor else { s with mgmt := s.mgmt.countUe none die })
      else ({ s with mgmt := s.mgmt.countUe none die }).mcEnter 3 (s.fetchMc.getD 0) 0x60 0

/-- SCRUB_COMPLETE (R350, R368): every line not written since the reset becomes zero, enciphered under the partition's key. -/
def execScrubComplete (part : Nat) (s : State) : Out :=
  .next <|
    let mine := s.mem.noise.filter fun x => x.part == part && x.scrub
    if mine.isEmpty then s
    else
      let inside (k : Nat) : Bool := mine.any fun x => decide (x.lo ≤ k) && decide (k < x.hi)
      let m := s.mem.clear inside
      (s.withMem { m with
        noise := m.noise.filter fun x => !(x.part == part && x.scrub)
        writers := sparseDrop (fun l => inside (64 * l)) m.writers
        scrubbed := mine.map (fun x => (x.lo, x.hi, part + 1)) ++
          m.scrubbed.filter fun r => !mine.any fun x => decide (x.lo ≤ r.1) && decide (r.2.1 ≤ x.hi) }).post (part + 1)
        { code := 7, gen := 0, arg0 := part }

/-! ### Layouts (R369) -/

/-- A core entry of an image. -/
def parseShare (v : Nat) : Share :=
  { slotFirst := field v 0 7, slots := field v 7 7, rgFirst := field v 22 13, rg := field v 35 14, spFirst := field v 49 12
    sp := field v 61 13, exported := field v 74 12, barFirst := field v 86 11, bars := field v 97 11, colFirst := field v 108 4
    col := field v 112 5, accFirst := field v 117 5, acc := field v 122 6, knFirst := field v 128 14, kn := field v 142 15
    scFirst := field v 157 7, sc := field v 164 8 }

/-- A die entry of an image. -/
def parseDie (v : Nat) : DieShare :=
  { off := byteField v 0 2, len := byteField v 2 2, reserve := (List.range 12).map fun c => byteField v (4 + 2 * c) 2 }

/-- Bytes of device memory as the physical function's commands read them; none outside host-shared memory. -/
def State.physNat (s : State) (pa n : Nat) : Option Nat :=
  if (unitsOf 64 pa n).all fun u => s.layout.opens hostShared (max pa (64 * u)) then some (s.mem.read hostShared pa n) else none

/-- The reserved fields of an image are 0 (R7, R369): of its header, its core, die and partition entries, its ranges, whose
bases are multiples of 64 KiB. -/
def plainImage (h : Nat) (cs ds ps rs : List Nat) : Bool :=
  byteField h 8 56 == 0 && (cs.all fun v => field v 14 8 == 0 && field v 172 84 == 0) && (ds.all fun v => byteField v 28 4 == 0) &&
  (ps.all fun v => byteField v 12 4 == 0) &&
  rs.all fun v => field v 0 16 == 0 && field v 52 12 == 0 && byteField v 13 3 == 0

/-- The layout that an image describes; none where it cannot be read or a reserved field is not 0. -/
def State.parseLayout (s : State) (pa : Nat) : Option Layout :=
  match s.physNat pa 64 with
  | none => none
  | some h =>
    let nr := byteField h 0 4
    let cores := pa + 64
    let dies := cores + 32 * 3840
    let parts := dies + 32 * 80
    let ranges := parts + 16 * 20
    let list (base size n : Nat) : Option (List Nat) := allSome ((List.range n).map fun i => s.physNat (base + size * i) size)
    match list cores 32 3840, list dies 32 80, list parts 16 20, list ranges 16 nr with
    | some cs, some ds, some ps, some rs =>
      if !plainImage h cs ds ps rs then none else some {
        gen := s.layout.gen + 1
        carve := (List.range 4).map fun d => byteField h (4 + d) 1
        shares := sparseSetAll {} [] (cs.mapIdx fun i v => (i, parseShare v))
        dies := sparseSetAll {} [] (ds.mapIdx fun i v => (i, parseDie v))
        energy := sparseSetAll (0, 0) [] (ps.mapIdx fun i v => (i, (byteField v 0 4, byteField v 4 8)))
        ranges := rs.map fun v => ⟨byteField v 0 7, 65536 * byteField v 8 4, byteField v 12 1⟩ }
    | _, _, _, _ => none

/-- Two ranges given by first and count meet; an empty range meets none. -/
def spansMeet (a n b m : Nat) : Bool := decide (0 < n) && decide (0 < m) && decide (a < b + m) && decide (b < a + n)

/-- Two shares of one core overlap in some resource. -/
def Share.meets (a b : Share) : Bool :=
  spansMeet a.slotFirst a.slots b.slotFirst b.slots || spansMeet a.rgFirst a.rg b.rgFirst b.rg ||
  spansMeet a.spFirst a.sp b.spFirst b.sp || spansMeet a.barFirst a.bars b.barFirst b.bars ||
  spansMeet a.colFirst a.col b.colFirst b.col || spansMeet a.accFirst a.acc b.accFirst b.acc ||
  spansMeet a.knFirst a.kn b.knFirst b.kn || spansMeet a.scFirst a.sc b.scFirst b.sc

/-- A share stays within its core's totals. -/
def Share.fits (h : Share) : Bool :=
  decide (h.slotFirst + h.slots ≤ Config.warpSlots) && decide (h.rgFirst + h.rg ≤ Config.registerRows) &&
  decide (h.spFirst + h.sp ≤ Config.scratchRows) && decide (h.barFirst + h.bars ≤ Config.barrierEntries) &&
  decide (h.colFirst + h.col ≤ 16) && decide (h.accFirst + h.acc ≤ 32) && decide (h.knFirst + h.kn ≤ 16384) &&
  decide (h.scFirst + h.sc ≤ 128) && decide (h.exported ≤ h.sp) && decide (h.exported ≤ 2048)

/-- Units of 64 KiB of a die scratchpad under a carve-out (R339). -/
def dieUnits (w : Nat) : Nat := 16 * (32 + 8 * w)

/-- The pairs of a list. -/
def pairwise {α : Type} (p : α → α → Bool) : List α → Bool
  | [] => true
  | x :: t => t.all (p x) && pairwise p t

/-- An image keeps every rule of R369. DEDUCED (log entry 87). -/
def Layout.valid (l : Layout) : Bool :=
  (l.carve.all fun w => decide (w ≤ 4)) && (l.shares.all fun e => e.2.fits) &&
  pairwise (fun a b => a.1 % 192 != b.1 % 192 || !a.2.meets b.2) l.shares &&
  (l.dies.all fun e => decide (e.2.off + e.2.len ≤ dieUnits (l.carve.getD (e.1 % 4) 0))) &&
  pairwise (fun a b => !spansMeet a.base a.length b.base b.length) l.ranges &&
  (l.ranges.all fun r => r.length == 0 || (installed r.base && installed (r.base + r.length - 1) &&
    (decide (r.base + r.length ≤ 0x3000000000) || decide (0x10000000000 ≤ r.base))))

/-- The contexts that a new layout pre-empts. -/
def State.layoutContexts (s : State) (l : Layout) : List Context :=
  s.ctxs.filter fun c => c.loaded && s.layout.differs l c.owner

/-- The die scratchpad under new shares and a new carve-out (R340): what stays within a partition's share keeps its
contents, everything else is cleared. -/
def State.moveDie (s : State) (die : Nat) (new : Nat → DieShare) : State :=
  let lo := dieKey die 0
  let hi := lo + 2 ^ 26
  let mine := s.mem.cells.filter fun e => decide (lo ≤ e.1) && decide (e.1 < hi)
  let moved := mine.flatMap fun e =>
    (List.range 20).filterMap fun p =>
      let a := s.layout.dieShare p die
      let b := new p
      let i := e.1 - lo - 65536 * a.off
      if lo + 65536 * a.off ≤ e.1 ∧ i < 65536 * a.len ∧ i < 65536 * b.len then some (lo + 65536 * b.off + i, e.2) else none
  let m := s.mem.clear fun k => decide (lo ≤ k) && decide (k < hi)
  s.withMem { m with cells := sparseSetAll unlisted m.cells moved }

/-- The layout generation has changed: event 8 on every function. -/
def State.postGen (s : State) : State :=
  (List.range 21).foldl (fun t f => t.post f { code := 8, gen := 0, arg0 := t.layout.gen }) s

/-- A new layout takes effect, and the contexts that it had pre-empted go on; those that the host's own commands stopped stay as
they are. -/
def State.install (s : State) (l : Layout) : State :=
  let t := (List.range 4).foldl (fun u d => u.moveDie d fun p => l.dieShare p d) s
  ({ t with
    layout := l, newLayout := none
    ctxs := t.ctxs.map fun (c : Context) =>
      if c.laid then { c with saved := false, preempting := none, laid := false } else c }).postGen

/-! ### Commands (R367) -/

/-- Every workgroup of a context is saved, or has ended (R218). -/
def State.allSaved (s : State) (part ctx : Nat) : Bool :=
  s.wgs.all fun g => g.part != part || g.ctx != ctx || g.saved || g.released

/-- A function starts a command (R362, R367): discarded while one runs; refused where the code is not the function's, or
in the safe state (R385). f carries it out and answers the status, and arg1, that it will end with. -/
def State.startCommand (s : State) (fn code : Nat) (f : State → Nat → List Nat → State × Nat × Nat) : State :=
  let h := s.fn fn
  if 20 < fn then s
  else if h.cmd.isSome then s.putFn fn { h with cmddrop := true }
  else
    let ok := if fn = 0 then decide (16 ≤ code ∧ code ≤ 19) else decide (1 ≤ code ∧ code ≤ 6)
    let (t, status, arg1) := if ok && !s.mgmt.safe then f s (fn - 1) h.cmdarg else (s, 2, 0)
    let k := t.fn fn
    t.putFn fn { k with cmddrop := false, cmd := some { code := code, args := h.cmdarg, status := status, arg1 := arg1 } }

/-- A context that a command names: its index is in range (status 1 otherwise). -/
def State.ctxInRange (s : State) (part ctx : Nat) : Bool := decide (ctx < (s.fnOf part).ctxcount)

/-- PREEMPT (R218). -/
def doPreempt (s : State) (part : Nat) (a : List Nat) : State × Nat × Nat :=
  let n := a.getD 0 0
  if !s.ctxInRange part n then (s, 1, 0)
  else (s.putCtx { s.ctx part n with preempting := some s.sched.now, laid := false }, 0, 0)

/-- URGENT (R220). -/
def doUrgent (s : State) (part : Nat) (a : List Nat) : State × Nat × Nat :=
  let n := a.getD 0 0
  if !s.ctxInRange part n then (s, 1, 0) else (s.putCtx { s.ctx part n with gated := true }, 0, 0)

/-- The WAITMONs of a context wake (R160). -/
def State.wakeMonitors (s : State) (part ctx : Nat) : State :=
  (s.mem.monitors.filter fun m => (s.agentWg m.who).any fun u => (s.wg u).part == part && (s.wg u).ctx == ctx).foldl
    (fun t m => t.wake m.who) s

/-- A saved warp whose code addresses lie where the text now stands (R357). -/
def Warp.relocate (w : Warp) (f : BitVec 48 → BitVec 48) : Warp :=
  let stack (l : List StackEntry) : List StackEntry := l.map fun e => { e with pc := f e.pc }
  { w with
    slices := w.slices.map fun x =>
      { x with pc := f x.pc, stack := stack x.stack
               frames := x.frames.map fun (y : Frame) => { y with epc := f y.epc, stack := stack y.stack } }
    gangs := w.gangs.map fun g =>
      { g with word := f g.word
               park := match g.park with
                 | .yield c a b => .yield (f c) a b
                 | .yieldB b c ph => .yieldB b (f c) ph
                 | p => p } }

/-- The saved workgroups of a context after a compaction: every code address in an old range of the forwarding table is the
one that `onload` has written in its place (R357). DEDUCED (log entry 131). -/
def State.relocateSaved (s : State) (c : Context) : State :=
  { s with wgs := s.wgs.map fun g =>
      if g.part = c.owner ∧ g.ctx = c.num ∧ g.saved ∧ !g.scanned then
        { g with
          savedW := g.savedW.map fun w => w.relocate c.moved
          savedC := g.savedC.map fun k =>
            { k with x := { k.x with pc := c.moved k.x.pc }
                     frame := k.frame.map fun (y : CollieFrame) => { y with epc := c.moved y.epc } } }
      else g }

/-- RESUME (R365, R367): the entry is read again, also where an earlier RESUME has rejected it; a context that has neither been
loaded nor has work is only let run, and its first packet loads it; one that a context fault has stopped stays stopped (R208). The units of a
partition that is being reset stay stopped (R372), and a layout under way pre-empts the context on (R369). DEDUCED (log entry 90). -/
def doResume (s : State) (part : Nat) (a : List Nat) : State × Nat × Nat :=
  let n := a.getD 0 0
  let c := s.ctx part n
  if !s.ctxInRange part n then (s, 1, 0)
  else if c.stopped then (s, 2, 0)
  else
    let laid := s.relaid part
    let free (d : Context) : Context := { d with
      saved := false, gated := s.resetting.contains part, laid := laid
      preempting := if laid then some (c.preempting.getD s.sched.now) else none }
    if !c.loaded && s.wgs.all fun g => g.part != part || g.ctx != n then (s.putCtx (free c), 0, 0)
    else
      match s.readContext part n with
      | .error r => ((s.rejectCtx part n r).putCtx { c with loaded := false }, 2, 0)
      | .ok d => (((if c.gated then s.wakeMonitors part n else s).relocateSaved d).putCtx (free d), 0, 0)

/-- INVAL (R343). DEDUCED (log entry 86). -/
def doInval (s : State) (part : Nat) (a : List Nat) : State × Nat × Nat :=
  let n := a.getD 0 0
  let va := a.getD 1 0
  let len := a.getD 2 0
  if !s.ctxInRange part n || decide (2 ^ 56 < va + len) then (s, 1, 0)
  else
    let hit (e : TlbEntry) : Bool := e.part == part && e.ctx == n &&
      decide (e.page * 2 ^ levelShift e.level < va + len) && decide (va < (e.page + 1) * 2 ^ levelShift e.level)
    (s.withMem { s.mem with tlb := s.mem.tlb.filter fun e => !hit e }, 0, 0)

/-- The address of the one valid kernel-table entry of a kref (R355). -/
def State.kernelEntry (s : State) (part ctx kref : Nat) : Option Nat :=
  let c := s.ctx part ctx
  match (List.range c.kcount).filter fun i =>
    (match s.rootNat part ctx (c.ktab + 32 * i) 32 with
    | some e => field e 192 1 == 1 && field e 128 32 == kref
    | none => false) with
  | [i] => some (c.ktab + 32 * i)
  | _ => none

/-- REPLACE (R356). DEDUCED (log entry 85). -/
def doReplace (s : State) (part : Nat) (a : List Nat) : State × Nat × Nat :=
  let n := a.getD 0 0
  let kref := a.getD 1 0
  let text := a.getD 2 0
  let kdesc := a.getD 3 0
  if !s.ctxInRange part n || decide (2 ^ 32 ≤ kref) || decide (2 ^ 48 ≤ text) || decide (2 ^ 56 ≤ kdesc) then (s, 1, 0)
  else
    match s.kernelEntry part n kref with
    | none => (s, if (s.ctx part n).loaded then 1 else 2, 0)
    | some e =>
      let gen := (((s.rootNat part n (e + 20) 4).getD 0) + 1) % 2 ^ 32
      match (s.rootWrite part n e (bytesOf 8 text ++ bytesOf 8 kdesc)).bind fun t => t.rootWrite part n (e + 20) (bytesOf 4 gen) with
      | none => (s, 2, 0)
      | some t =>
        let earlier := (t.replaced.filter fun r => r.fn == part + 1 && r.ctx == n && r.kref == kref).flatMap (·.grids)
        let grids := ((t.gridsOf part n).filter fun g => pkKernel g.packet == kref && !earlier.contains g.uid).map (·.uid)
        ({ t with replaced := t.replaced ++ [⟨part + 1, n, kref, gen, grids⟩] }, 0, gen)

/-- CTXKILL (R330, R367): every task of the context ends as by a context fault, its estates go, it is unloaded. DEDUCED (log entry 91). -/
def doCtxkill (s : State) (part : Nat) (a : List Nat) : State × Nat × Nat :=
  let n := a.getD 0 0
  if !s.ctxInRange part n then (s, 1, 0)
  else
    let c := s.ctx part n
    let t := if c.loaded then
        (let r : Report :=
          { id := s.sched.uid, ctx := n, owner := part, taskid := 0, lineage := 0, cause := (Config.freeByte s.sched.free 0).toNat
            pc := 0, detail := 0, lane := 0xFF, addr := 0, arg0 := 0, arg1 := 0, core := 0, slot := 0xFF, inHandler := false
            ctxFault := true, discarded := s.wgs.any fun g => g.part == part && g.ctx == n && g.versionOpen }
         { s.nextUid.nextFree with late := s.late ++ [r] })
      else s
    let u := t.endContext part n
    let mine (r : TaskRec) : Bool := u.dist.grids.any fun g => g.uid == r.grid && g.part == part && g.ctx == n
    let clean (q : Sparse (List TaskRec)) : Sparse (List TaskRec) :=
      (q.map fun e => (e.1, e.2.filter fun r => !mine r)).filter fun e => !e.2.isEmpty
    (({ u with
        estates := u.estates.filter fun e => !(e.part == part && e.ctx == n)
        dist := { u.dist with
          grids := u.dist.grids.map fun (g : Grid) => if g.part = part ∧ g.ctx = n then { g with unstarted := [] } else g
          dieReplies := u.dist.dieReplies.filter fun r => !u.dist.grids.any fun g => g.uid == r.grid && g.part == part && g.ctx == n
          tasks := clean u.dist.tasks, deques := clean u.dist.deques
          taskRings := u.dist.taskRings.map fun (r : Ring TaskRec) => { r with items := r.items.filter fun x => !mine x }
          taskReplies := u.dist.taskReplies.map fun (r : TaskReply) => if r.task.any mine then { r with task := none } else r } }).putCtx
      { (u.ctx part n).afterReset with stopped := c.stopped }, 0, 0)

/-- LAYOUT (R369). DEDUCED (log entry 88). -/
def doLayout (s : State) (_ : Nat) (a : List Nat) : State × Nat × Nat :=
  match s.parseLayout (a.getD 0 0) with
  | none => (s, 1, 0)
  | some l =>
    if !l.valid then (s, 1, 0)
    else
      ({ s with
        newLayout := some l
        ctxs := s.ctxs.map fun (c : Context) =>
          if c.loaded && s.layout.differs l c.owner && !c.saved && c.preempting.isNone then
            { c with preempting := some s.sched.now, laid := true } else c }, 0, 0)

/-- CARVE (R340, R367). -/
def doCarve (s : State) (_ : Nat) (a : List Nat) : State × Nat × Nat :=
  let die := a.getD 0 0
  let w := a.getD 1 0
  let img := a.getD 2 0
  match allSome ((List.range 20).map fun p => s.physNat (img + 64 + 32 * 3840 + 32 * (4 * p + die)) 32) with
  | none => (s, 1, 0)
  | some vs =>
    let shares := vs.map parseDie
    if 4 ≤ die ∨ 4 < w ∨ (vs.any fun v => byteField v 28 4 != 0) ∨ shares.any fun d => decide (dieUnits w < d.off + d.len) then (s, 1, 0)
    else ({ s with carving := some ⟨die, w, shares⟩ }, 0, 0)

/-- PRESET (R372). -/
def doPreset (s : State) (_ : Nat) (a : List Nat) : State × Nat × Nat :=
  let p := a.getD 0 0
  if 20 ≤ p then (s, 1, 0) else ((s.beginReset p 1 s.someCause).nextFree, 0, 0)

/-- DOMMAP (R374, R376). -/
def doDommap (s : State) (_ : Nat) (a : List Nat) : State × Nat × Nat :=
  let base := a.getD 0 0
  match allSome ((List.range 256).map fun d => s.physNat (base + 32 * d) 32) with
  | none => (s, 1, 0)
  | some vs =>
    let entry (v : Nat) : List (Option Nat) :=
      let l := (List.range 22).map fun j =>
        let b := byteField v j 1
        if 128 ≤ b then some (b % 32) else none
      if l.all Option.isNone then [] else l
    let new := vs.map entry
    let map := sparseSetAll [] [] (new.mapIdx fun d l => (d, l))
    let changed := (List.range 256).filter fun d =>
      sparseGet [] s.domain.map d ≠ [] ∧ sparseGet [] s.domain.map d ≠ new.getD d []
    let t := changed.foldl State.loseDevice s
    let back := t.domain.lost.filter fun d => new.getD d [] ≠ []
    ({ t with domain := { t.domain with map := map, remapped := back } }, 0, 0)

def execPreempt (fn : Nat) (s : State) : Out := .next (s.startCommand fn 1 doPreempt)
def execUrgent (fn : Nat) (s : State) : Out := .next (s.startCommand fn 2 doUrgent)
def execResume (fn : Nat) (s : State) : Out := .next (s.startCommand fn 3 doResume)
def execInval (fn : Nat) (s : State) : Out := .next (s.startCommand fn 4 doInval)
def execReplace (fn : Nat) (s : State) : Out := .next (s.startCommand fn 5 doReplace)
def execCtxkill (fn : Nat) (s : State) : Out := .next (s.startCommand fn 6 doCtxkill)
def execLayout (fn : Nat) (s : State) : Out := .next (s.startCommand fn 16 doLayout)
def execCarve (fn : Nat) (s : State) : Out := .next (s.startCommand fn 17 doCarve)
def execPreset (fn : Nat) (s : State) : Out := .next (s.startCommand fn 18 doPreset)
def execDommap (fn : Nat) (s : State) : Out := .next (s.startCommand fn 19 doDommap)

/-- CARVE_SWITCH (R340): once nothing checked against the old limits of the die is under way, the change takes effect. DEDUCED (log entry 89). -/
def execCarveSwitch (s : State) : Out :=
  .next <|
    match s.carving with
    | none => s
    | some c =>
      let lo := dieKey c.die 0
      let busy := (s.mem.access.any fun a => !a.global && decide (lo ≤ a.addr) && decide (a.addr < lo + 2 ^ 26)) ||
        (s.copies.any fun k => !k.done && !k.faulted) || s.pillows.ops.any fun o => o.running
      if busy then s
      else
        let share (p : Nat) : DieShare := c.shares.getD p {}
        let t := s.moveDie c.die share
        ({ t with
          carving := none
          layout := { t.layout with
            gen := t.layout.gen + 1
            carve := setNth t.layout.carve c.die c.w
            dies := sparseSetAll {} t.layout.dies ((List.range 20).map fun p => (4 * p + c.die, share p)) } }).postGen

/-- What a command waits for has happened. -/
def State.commandReady (s : State) (fn : Nat) (c : Command) : Bool :=
  let part := fn - 1
  let n := c.args.getD 0 0
  if c.status ≠ 0 then true
  else
    match c.code with
    | 1 => s.allSaved part n
    | 4 =>
      let va := c.args.getD 1 0
      let len := c.args.getD 2 0
      s.mem.access.all (fun a => !(a.part == part && a.ctx == n &&
          (a.note.isSome || (a.global && a.sent.isSome && meets a.addr a.size va len)))) &&
        s.wgs.all (fun g => !(g.part == part && g.ctx == n) || g.held.all fun h => !meets h.va h.size va len) &&
        s.pillows.ops.all fun o => !(o.part == part && o.ctx == n && o.running)
    | 6 => s.wgs.all fun g => g.part != part || g.ctx != n || s.taskOver g.uid
    | 16 =>
      (match s.newLayout with
      | some l => (s.layoutContexts l).all fun k => s.allSaved k.owner k.num
      | none => true)
    | 17 => s.carving.isNone
    | 18 => !s.resetting.contains n
    | _ => true

/-- The context that a command of a virtual function names, for its event; 0xFFFF where it names none (R368). DEDUCED (log entry 133). -/
def State.commandCtx (s : State) (fn : Nat) (c : Command) : Nat :=
  let n := c.args.getD 0 0
  if 1 ≤ c.code ∧ c.code ≤ 6 ∧ s.ctxInRange (fn - 1) n then n else 0xFFFF

/-- COMMAND_COMPLETE (R367, R368). -/
def execCommandComplete (fn : Nat) (s : State) : Out :=
  .next <|
    match (s.fn fn).cmd with
    | none => s
    | some c =>
      if !s.commandReady fn c then s
      else
        let n := c.args.getD 0 0
        let t :=
          if c.status ≠ 0 then s
          else if c.code = 1 then
            (match s.findCtx (fn - 1) n with
            | some k => if k.loaded then s.putCtx { k with preempting := none, saved := true } else s
            | none => s)
          else if c.code = 16 then (match s.newLayout with | some l => s.install l | none => s)
          else s
        (t.putFn fn { t.fn fn with cmd := none }).post fn
          { code := 1, status := c.status, ctx := s.commandCtx fn c, gen := 0, arg0 := c.code, arg1 := c.arg1 }

/-- REPLACE_RETIRED (R356). -/
def execReplaceRetired (idx : Nat) (s : State) : Out :=
  .next <|
    match s.replaced[idx]? with
    | none => s
    | some r =>
      if r.grids.any fun u => (s.findGrid u).isSome then s
      else ({ s with replaced := s.replaced.eraseIdx idx }).post r.fn { code := 9, ctx := r.ctx, gen := 0, arg0 := r.kref, arg1 := r.gen }

/-! ### Events and registers (R361, R362, R368) -/

/-- The 32 bytes of an event record. -/
def HostEvent.bytes (e : HostEvent) : List (BitVec 8) :=
  bytesOf 1 e.code ++ bytesOf 1 e.status ++ bytesOf 2 e.ctx ++ bytesOf 4 e.gen ++ bytesOf 8 e.arg0 ++ bytesOf 8 e.arg1 ++ bytesOf 8 0

/-- EVENT_RING_WRITE (R362, R368): the oldest event of a function is written when its ring has room. -/
def execEventRingWrite (fn : Nat) (s : State) : Out :=
  .next <|
    let f := s.fn fn
    match f.events with
    | [] => s
    | e :: rest =>
      if f.evsize = 0 || ringFull f.evhead f.evtail f.evsize then s
      else
        let t := s.withMem (s.mem.write 0 (hostKey (f.evbase + 32 * (f.evtail % f.evsize))) e.bytes)
        t.putFn fn { f with events := rest, evtail := (f.evtail + 1) % 2 ^ 32, msix := f.msix + 1 }

/-- PSTAT_LOST_CLEAR (R362). -/
def execPstatLostClear (fn : Nat) (s : State) : Out :=
  .next (if fn ≤ 20 then s.putFn fn { s.fn fn with lost := false } else s)

/-- A register written that holds what is written (R362, R374): offset and value. -/
def State.putRegister (s : State) (fn off v : Nat) : State :=
  let f := s.fn fn
  match off with
  | 0x08 => s.putFn fn { f with ctxbase := v / 64 * 64 % 2 ^ 52 }
  | 0x10 => s.putFn fn { f with ctxcount := v }
  | 0x80 => s.putFn fn { f with cmdarg := setNth f.cmdarg 0 v }
  | 0x88 => s.putFn fn { f with cmdarg := setNth f.cmdarg 1 v }
  | 0x90 => s.putFn fn { f with cmdarg := setNth f.cmdarg 2 v }
  | 0x98 => s.putFn fn { f with cmdarg := setNth f.cmdarg 3 v }
  | 0xC0 => s.putFn fn { f with evbase := v / 4096 * 4096 }
  | 0xC8 => s.putFn fn { f with evsize := v }
  | 0xD0 => s.putFn fn { f with evhead := v % 2 ^ 32 }
  | 0x100 => s.putFn fn { f with fqbase := v }
  | 0x108 => s.putFn fn { f with fqsize := v }
  | 0x110 => s.putFn fn { f with fqhead := v % 2 ^ 32 }
  | 0x200 => s.putFn fn { f with aperbase := v / 2 ^ 36 * 2 ^ 36 % 2 ^ 52 }
  | 0x2000 => if fn = 0 then { s with domain := { s.domain with domid := v % 256 } } else s
  | 0x2008 => if fn = 0 then { s with domain := { s.domain with domseq := v % 256 } } else s
  | _ =>
    if 1 ≤ fn ∧ 0x1000 ≤ off ∧ off < 0x2000 ∧ off % 16 = 0 then
      (let n := (off - 0x1000) / 16
       match s.findCtx (fn - 1) n with
       | some c => s.putCtx { c with ringHead := v % 2 ^ 32 }
       | none => { s with ctxs := s.ctxs ++ [{ num := n, owner := fn - 1, ringHead := v % 2 ^ 32 }] })
    else s

/-- A command code that no event of its own stands for ends with status 2 (R367). -/
def State.badCommand (s : State) (fn code : Nat) : State :=
  if (1 ≤ code ∧ code ≤ 6) ∨ (16 ≤ code ∧ code ≤ 19) then s
  else s.startCommand fn code fun t _ _ => (t, 2, 0)

/-- A key set of a stream is live for what the device receives: the one in use, or the former one (R373). -/
def Ide.live (d : Ide) (stream set : Nat) : Bool :=
  set == sparseGet 0 d.inUse (2 * stream + 1) || sparseGet 0 d.former stream == set + 1

/-- A stream has a key for what the device receives. -/
def Ide.keyed (d : Ide) (stream : Nat) : Bool := sparseGet 0 d.keys (4 * stream + 2) != 0 || sparseGet 0 d.keys (4 * stream + 3) != 0

/-- A packet of a function arrives (R373): on a stream with keys it names one of two key sets, by free choice, and one that names
a set that is not live is dropped and counted. DESIGN CHOICE (log entry 100). -/
def State.receive (s : State) (fn : Nat) (f : State → State) : State :=
  let st := Config.ideStream fn
  if !s.ide.keyed st then f s
  else if s.ide.live st (Config.freeChoice s.sched.free 0 % 2) then f s.nextFree
  else { s.nextFree with ide := { s.ide with dropped := s.ide.dropped + 1 } }

/-- REGISTER_WRITE (R362): registers that hold what is written, and CMD with a code that names no command. DEDUCED (log entry 92). -/
def execRegisterWrite (fn off : Nat) (value : BitVec 64) (s : State) : Out :=
  .next <|
    if 20 < fn then s
    else s.receive fn fun t => if off = 0xA0 then t.badCommand fn value.toNat else t.putRegister fn off value.toNat

/-- The bytes of a write through BAR2 land where the function's tag opens every line (R361). -/
def State.apertureWrite (s : State) (fn off : Nat) (data : List (BitVec 8)) : State :=
  let o := if fn = 0 then hostShared else fn - 1
  let pa := (s.fn fn).aperbase + off
  if (unitsOf 64 pa data.length).all fun u => s.layout.opens o (max pa (64 * u)) then s.withMem (s.mem.write o pa data) else s

/-- APERTURE_ACCESS (R361): a write is performed where the function's tag opens every line; a read changes nothing. DEDUCED (log entry 93). -/
def execApertureAccess (fn off : Nat) (write : Bool) (data : List (BitVec 8)) (s : State) : Out :=
  .next <|
    if 20 < fn then s
    else s.receive fn fun t =>
      if !write || data.isEmpty || decide (2 ^ 36 < off + data.length) then t else t.apertureWrite fn off data

end Sys2Proof.Machine
end

