-- ==== Sys2Proof/Machine/Integer.lean ====
section
/-!
DEFINITION. MODE, NOP, TRL and the integer, address and predicate instructions (R40, R91 to R112).
-/
namespace Sys2Proof.Machine

/-- The shape of R91: each executing lane of d takes f of its lane; both profiles. -/
def laneWord (i : Instr) (d : RegCode) (s : State) (f : Exe → Nat → BitVec 32) : Out :=
  aluWord i s fun x => x.lanewise d.toNat (f x)

/-- A two-source word on 32 bits. -/
def binWord (i : Instr) (d a b : RegCode) (s : State) (f : BitVec 32 → BitVec 32 → BitVec 32) : Out :=
  laneWord i d s fun x L => f (x.rd a.toNat L) (x.rd b.toNat L)

/-- A packed word of major 0x10 (R96): type and saturation come from the lane's mode. -/
def addWordOp (op : AddOp) (i : Instr) (d a b : RegCode) (s : State) : Out :=
  laneWord i d s fun x L =>
    addWord op (modeType (x.modeAt L)) (modeSat (x.modeAt L)) (x.rd a.toNat L) (x.rd b.toNat L)

/-- MODE (R94): the issuing slices' modes, or the scalar agent's one mode, take the selected fields. -/
def execMode (mguard mtype mrnd msat msub : BitVec 1) (value : BitVec 15) (s : State) : Out :=
  let m := modeMask mguard mtype mrnd msat msub
  let f (old : BitVec 32) : BitVec 32 := (old &&& ~~~ m) ||| (value.setWidth 32 &&& m)
  aluWord (.mode mguard mtype mrnd msat msub value) s fun x =>
    match x with
    | .simt w sl => .simt (w.mapSlices sl fun _ v => { v with mode := f v.mode }) sl
    | .scal y => .scal { y with mode := f y.mode }

/-- NOP (R95). -/
def execNop (s : State) : Out := aluWord .nop s id

/-- The end of a run that continues at the next word (R40): the named pending results are deferred. -/
def trailer (i : Instr) (s : State) : Out :=
  issue i s
    (fun q t =>
      if pcWraps q.pc then .trap { cause := 0xB }
      else
        let names := trailerNames i (q.w.namesOf q.g.slices)
        let w := q.w.mapSlices q.g.slices fun _ x => { x with pc := x.pc + 4 }
        .jump (t.putSeat { w := { w with pend := deferNamed q.g.slices names w.pend }, g := { q.g with run := none } }))
    (fun c t =>
      if pcWraps c.x.pc then .trap { cause := 0xB }
      else
        let x := c.x.goto (c.x.pc + 4)
        .jump (t.putCollie { c with x := { x with pend := deferNamed [0] (trailerNames i scalarNames) x.pend } }))
    (fun x t =>
      if pcWraps x.pc then .trap { cause := 0xB }
      else
        let y := x.goto (x.pc + 4)
        .jump { t with mc := { t.mc with x := { y with pend := deferNamed [0] (trailerNames i scalarNames) y.pend } } })

/-- TRL, names form (R40). -/
def execTrl (count : BitVec 2) (x1 x2 x3 : RegCode) (s : State) : Out := trailer (.trl count x1 x2 x3) s
/-- TRL, range form (R40). -/
def execTrlRange (x1 x2 : RegCode) (s : State) : Out := trailer (.trlRange x1 x2) s

/-- IADD (R96). -/
def execIadd (d a b : RegCode) (s : State) : Out := addWordOp .add (.iadd d a b) d a b s
/-- ISUB (R96). -/
def execIsub (d a b : RegCode) (s : State) : Out := addWordOp .sub (.isub d a b) d a b s
/-- IMIN (R96). -/
def execImin (d a b : RegCode) (s : State) : Out := addWordOp .imin (.imin d a b) d a b s
/-- IMAX (R96). -/
def execImax (d a b : RegCode) (s : State) : Out := addWordOp .imax (.imax d a b) d a b s
/-- NMIN (R96). -/
def execNmin (d a b : RegCode) (s : State) : Out := addWordOp .nmin (.nmin d a b) d a b s
/-- NMAX (R96). -/
def execNmax (d a b : RegCode) (s : State) : Out := addWordOp .nmax (.nmax d a b) d a b s
/-- IABSD (R96). -/
def execIabsd (d a b : RegCode) (s : State) : Out := addWordOp .absd (.iabsd d a b) d a b s

/-- AND (R99). -/
def execAnd (d a b : RegCode) (s : State) : Out := binWord (.and d a b) d a b s (· &&& ·)
/-- OR (R99). -/
def execOr (d a b : RegCode) (s : State) : Out := binWord (.or d a b) d a b s (· ||| ·)
/-- XOR (R99). -/
def execXor (d a b : RegCode) (s : State) : Out := binWord (.xor d a b) d a b s (· ^^^ ·)
/-- ANDN (R99). -/
def execAndn (d a b : RegCode) (s : State) : Out := binWord (.andn d a b) d a b s andn
/-- ORN (R99). -/
def execOrn (d a b : RegCode) (s : State) : Out := binWord (.orn d a b) d a b s orn
/-- SHL (R100). -/
def execShl (d a b : RegCode) (s : State) : Out := binWord (.shl d a b) d a b s shl
/-- SHR (R100). -/
def execShr (d a b : RegCode) (s : State) : Out := binWord (.shr d a b) d a b s shr
/-- SAR (R100). -/
def execSar (d a b : RegCode) (s : State) : Out := binWord (.sar d a b) d a b s sar
/-- ROL (R100). -/
def execRol (d a b : RegCode) (s : State) : Out := binWord (.rol d a b) d a b s rol
/-- ROR (R100). -/
def execRor (d a b : RegCode) (s : State) : Out := binWord (.ror d a b) d a b s ror

/-- IMAD24 (R101). -/
def execImad24 (d a b c : RegCode) (s : State) : Out :=
  laneWord (.imad24 d a b c) d s fun x L =>
    imad24 (modeSat (x.modeAt L)) (x.rd a.toNat L) (x.rd b.toNat L) (x.rd c.toNat L)
/-- NMAD24 (R101). -/
def execNmad24 (d a b c : RegCode) (s : State) : Out :=
  laneWord (.nmad24 d a b c) d s fun x L =>
    nmad24 (modeSat (x.modeAt L)) (x.rd a.toNat L) (x.rd b.toNat L) (x.rd c.toNat L)

/-- IMUL32.LO (R102). -/
def execImul32Lo (d a b : RegCode) (look : BitVec 4) (s : State) : Out :=
  longWord (.imul32Lo d a b look) d.toNat look.toNat s fun x L =>
    imulLo (modeSat (x.modeAt L)) (x.rd a.toNat L) (x.rd b.toNat L)
/-- IMUL32.HI (R102). -/
def execImul32Hi (d a b : RegCode) (look : BitVec 4) (s : State) : Out :=
  longWord (.imul32Hi d a b look) d.toNat look.toNat s fun x L => imulHi (x.rd a.toNat L) (x.rd b.toNat L)
/-- IMUL32.NHI (R102). -/
def execImul32Nhi (d a b : RegCode) (look : BitVec 4) (s : State) : Out :=
  longWord (.imul32Nhi d a b look) d.toNat look.toNat s fun x L => imulNhi (x.rd a.toNat L) (x.rd b.toNat L)

/-- BFE (R103). -/
def execBfe (d a b c : RegCode) (s : State) : Out :=
  laneWord (.bfe d a b c) d s fun x L =>
    bfe (modeType (x.modeAt L)) (x.rd a.toNat L) (x.rd b.toNat L) (x.rd c.toNat L)
/-- BFI (R104). -/
def execBfi (d a b c : RegCode) (s : State) : Out :=
  laneWord (.bfi d a b c) d s fun x L => bfi (x.rd a.toNat L) (x.rd b.toNat L) (x.rd c.toNat L)

/-- POPC (R105). -/
def execPopc (d a : RegCode) (s : State) : Out := laneWord (.popc d a) d s fun x L => popc (x.rd a.toNat L)
/-- CLZ (R105). -/
def execClz (d a : RegCode) (s : State) : Out := laneWord (.clz d a) d s fun x L => clz (x.rd a.toNat L)
/-- BREV (R105). -/
def execBrev (d a : RegCode) (s : State) : Out := laneWord (.brev d a) d s fun x L => brev (x.rd a.toNat L)
/-- FFS (R105). -/
def execFfs (d a : RegCode) (s : State) : Out := laneWord (.ffs d a) d s fun x L => ffs (x.rd a.toNat L)

/-- ICMP (R106): bits of executing lanes of predicate d. -/
def execIcmp (d a b fn : RegCode) (s : State) : Out :=
  aluWord (.icmp d a b fn) s fun x =>
    x.wrPr d.toNat (x.lanes.map fun L => (L, icmpRel fn.toNat (x.rd a.toNat L) (x.rd b.toNat L)))

/-- The predicate operations of major 0x1B (R107). -/
def predWord (i : Instr) (d a b : RegCode) (s : State) (f : Bool → Bool → Bool) : Out :=
  aluWord i s fun x => x.wrPr d.toNat (x.lanes.map fun L => (L, f (x.pr a.toNat L) (x.pr b.toNat L)))

/-- PAND (R107). -/
def execPand (d a b : RegCode) (s : State) : Out := predWord (.pand d a b) d a b s ((· && ·))
/-- POR (R107). -/
def execPor (d a b : RegCode) (s : State) : Out := predWord (.por d a b) d a b s ((· || ·))
/-- PXOR (R107). -/
def execPxor (d a b : RegCode) (s : State) : Out := predWord (.pxor d a b) d a b s ((· != ·))
/-- PANDN (R107). -/
def execPandn (d a b : RegCode) (s : State) : Out := predWord (.pandn d a b) d a b s (fun u v => u && !v)

/-- SEL (R108). -/
def execSel (d a b c : RegCode) (s : State) : Out :=
  laneWord (.sel d a b c) d s fun x L => if x.pr c.toNat L then x.rd a.toNat L else x.rd b.toNat L

/-- IADDI, ANDI, ORI (R97). -/
def execIaddi (d a : RegCode) (imm : BitVec 12) (s : State) : Out :=
  laneWord (.iaddi d a imm) d s fun x L => x.rd a.toNat L + imm.signExtend 32
def execAndi (d a : RegCode) (imm : BitVec 12) (s : State) : Out :=
  laneWord (.andi d a imm) d s fun x L => x.rd a.toNat L &&& imm.setWidth 32
def execOri (d a : RegCode) (imm : BitVec 12) (s : State) : Out :=
  laneWord (.ori d a imm) d s fun x L => x.rd a.toNat L ||| imm.setWidth 32

/-- MOVI and MOVHI (R98). -/
def execMovi (d : RegCode) (imm : BitVec 18) (s : State) : Out :=
  laneWord (.movi d imm) d s fun _ _ => imm.signExtend 32
def execMovhi (d : RegCode) (imm : BitVec 16) (s : State) : Out :=
  laneWord (.movhi d imm) d s fun x L => (imm.setWidth 32 <<< 16) ||| (x.rd d.toNat L &&& 0xFFFF)

/-- LEA (R109). -/
def execLea (d a b : RegCode) (sh : BitVec 4) (s : State) : Out :=
  laneWord (.lea d a b sh) d s fun x L => lea sh.toNat (x.rd a.toNat L) (x.rd b.toNat L)

/-- IADD64 and ISUB64 (R110): sources are read before the pair is written. -/
def execIadd64 (d a b : RegCode) (s : State) : Out :=
  aluWord (.iadd64 d a b) s fun x =>
    x.wr64 d.toNat (x.lanes.map fun L => (L, x.rd64 a.toNat L + x.rd64 b.toNat L))
def execIsub64 (d a b : RegCode) (s : State) : Out :=
  aluWord (.isub64 d a b) s fun x =>
    x.wr64 d.toNat (x.lanes.map fun L => (L, x.rd64 a.toNat L - x.rd64 b.toNat L))

/-- SMOV, op 0 (R111): the guard is not honoured. -/
def execSmovSs (x y : RegCode) (s : State) : Out :=
  aluWord (.smovSs x y) s fun e => e.swr x.toNat (e.srd y.toNat)
/-- SMOV, op 1 (R111). -/
def execSmovSr (x y : RegCode) (s : State) : Out :=
  aluWord (.smovSr x y) s fun e =>
    match e.lowest y.toNat with
    | some v => e.swr x.toNat v
    | none => e
/-- SMOV, op 2 (R111). -/
def execSmovRs (x y : RegCode) (s : State) : Out :=
  laneWord (.smovRs x y) x s fun e _ => e.srd y.toNat

/-- SOP (R112): once per issue, the guard not honoured. -/
def execSop (fn : BitVec 4) (d a b : BitVec 5) (s : State) : Out :=
  aluWord (.sop fn d a b) s fun x => x.swr d.toNat (sopFn fn.toNat (x.srd a.toNat) (x.srd b.toNat))

end Sys2Proof.Machine
end

