-- ==== Sys2Proof/Machine/Manage.lean ====
section
/-!
DEFINITION. The management controller's functions: IDE (R373), resets, engine resets and activation (R382 to R385),
telemetry (R381), SPDM and secret release (R377, R380), firmware update (R383), the message unit (R387, R388).
-/
namespace Sys2Proof.Machine

def State.putMgmt (s : State) (m : Mgmt) : State := { s with mgmt := m }
/-- The controller answers. -/
def State.say (s : State) (r : Reply) : State := s.putMgmt { s.mgmt with replies := s.mgmt.replies ++ [r] }
/-- SPDM's ERROR with a code (R380). -/
def errorReply (code : Nat) : Reply := { code := 0x7F, params := [code] }
/-- n free bytes. -/
def State.freeBytes (s : State) (n : Nat) : List (BitVec 8) := (List.range n).map fun i => Config.freeByte s.sched.free i

/-! ### IDE (R373) -/

/-- IDE_KM (R373): within a session a key set of a stream and direction gets its key and is switched to. The former
receive set stays live while requests sent before the switch are outstanding; how many there are is a free value. DESIGN CHOICE (log entry 100). -/
def execIdeKm (stream : Nat) (rx : Bool) (keySet : Nat) (key : BitVec 256) (s : State) : Out :=
  .next <|
    if s.mgmt.sessions = [] ∨ 9 ≤ stream ∨ 2 ≤ keySet then s
    else
      let d := s.ide
      let dir := if rx then 1 else 0
      let old := sparseGet 0 d.inUse (2 * stream + dir)
      let keyed := sparseGet 0 d.keys (4 * stream + 2 * dir + old) ≠ 0
      let e := { d with
        keys := sparseSet 0 d.keys (4 * stream + 2 * dir + keySet) key
        inUse := sparseSet 0 d.inUse (2 * stream + dir) keySet }
      if rx ∧ old ≠ keySet ∧ keyed then
        let n := Config.freeChoice s.sched.free 0 % 256
        let out := (List.range n).map fun i => (Config.freeChoice s.sched.free (i + 1) % 1024, stream, true)
        { s.nextFree with ide := { e with
            former := sparseSet 0 e.former stream (if out.isEmpty then 0 else old + 1)
            requests := (e.requests.filter fun r => r.2.1 != stream) ++ out } }
      else { s with ide := e }

/-- A non-posted request has ended; the former set of a stream dies with the last request sent before the switch. DEDUCED (log entry 120). -/
def Ide.finish (d : Ide) (tag : Nat) : Ide :=
  let left := d.requests.filter fun r => r.1 != tag
  { d with
    requests := left
    former := sparseDrop (fun st => !left.any fun r => r.2.1 == st && r.2.2) d.former }

/-- COMPLETION_ARRIVAL (R373): a completion that names a live set is taken, any other is dropped and counted. -/
def execCompletionArrival (tag keySet : Nat) (s : State) : Out :=
  .next <|
    let d := s.ide
    let stream := ((d.requests.find? fun r => r.1 == tag).map (·.2.1)).getD 0
    if d.live stream keySet then { s with ide := d.finish tag } else { s with ide := { d with dropped := d.dropped + 1 } }

/-- COMPLETION_TIMEOUT (R373). -/
def execCompletionTimeout (tag : Nat) (s : State) : Out := .next { s with ide := s.ide.finish tag }

/-! ### Resets (R379, R384, R385) -/

/-- The management functions after a reset of the package at a cycle: flash is kept, the current bank is booted, every engine runs its
components, and a transfer that was not activated is discarded (R383, R384). What has been sent stays sent. -/
def Mgmt.packageReset (m : Mgmt) (now : Nat) : Mgmt :=
  let other := m.bootedB != m.currentB
  let n : Mgmt :=
    { sent := m.sent, replies := m.replies, bootedB := m.currentB, currentB := m.currentB
      imgA := m.imgA, imgB := m.imgB, images := m.images, bankA := m.bankA, bankB := m.bankB, refreshed := now
      svn := if other then m.otherSvn else m.svn
      otherSvn := if other then m.svn else m.otherSvn
      otherValid := other || m.otherValid, testing := other }
  { n with engines := List.replicate 8 n.bootedImage }

/-- A reset of the package: memory within the package is as at reset, what stands in the host's memory stays. -/
def State.packageReset (s : State) : State :=
  { State.reset with
    sched := { s.sched with cur := none, starts := [] }
    mem := { State.reset.mem with cells := s.mem.cells.filter fun e => decide (hostKey 0 ≤ e.1), epochs := bumpEpochs s.mem.epochs (List.range 32 ++ [sramKey 0 / 2 ^ 17]) }
    mc := { resetAt := s.sched.now, wdogAt := s.sched.now }
    mgmt := s.mgmt.packageReset s.sched.now }

/-- PACKAGE_COLD_RESET (R384). -/
def execPackageColdReset (s : State) : Out := .next s.packageReset

/-- WARM (R384): every key is lost, so that DRAM reads as noise. DEDUCED (log entry 101). -/
def execWarm (s : State) : Out :=
  .next <|
    let t := s.packageReset
    t.withMem { t.mem with noise := ⟨0, 2 ^ 52, 0, false⟩ :: t.mem.noise }

/-- A controller that fails its self-test after switching banks boots the other bank at its next reset (R383). -/
def Mgmt.fallBack (m : Mgmt) (failing : List Nat) : Mgmt :=
  let bad := failing.any fun u => decide (8 ≤ Config.unitKind (u / 256))
  { m with testing := false, currentB := if bad && m.otherValid then !m.bootedB else m.currentB }

/-- SELF_TEST_COMPLETE (R379, R383, R385): boot has measured MR0 to MR4; with a failing unit the package is in its safe state.
After a reset in which the controller has switched banks it is the controller's own test. DEDUCED (log entry 102). -/
def execSelfTestComplete (failing : List Nat) (s : State) : Out :=
  .next <|
    if s.mgmt.ready then (if s.mgmt.testing then s.putMgmt (s.mgmt.fallBack failing) else s)
    else
      let m := { s.mgmt with ready := true, safe := !failing.isEmpty, failing := failing }
      s.putMgmt (if m.testing then m.fallBack failing else m).measureBoot

/-- CONTROLLER_RESET (R379, R383 to R385): an activation resets the controller, which switches banks; in the safe state it waits
for a package reset. The other causes of the reset are events of R378. DEDUCED (log entry 102). -/
def execControllerReset (s : State) : Out := .next (if s.mgmt.due && !s.mgmt.safe then s.mcReset else s)

/-- WATCHDOG (R378). DEDUCED (log entry 103). -/
def execWatchdog (s : State) : Out :=
  .next <|
    if s.mc.wdogAt + 2 ^ 24 ≤ s.sched.now then
      let t := s.mcEnter 4 (s.fetchMc.getD 0) 0x61 0
      { t with mc := { t.mc with wdogAt := s.sched.now } }
    else s

/-! ### Engine resets and activation (R382 to R384) -/

/-- An engine stands at its idle point (R383): a fabric port where no window that a device behind it has granted has room left.
Self-refresh of a memory channel and the windows that other devices hold are outside the state: when they come is the time of
the event. DESIGN CHOICE (log entry 99). -/
def State.engineIdle (s : State) (kind idx : Nat) : Bool :=
  if kind = 0 ∨ kind = 2 ∨ kind = 3 then s.wgs.all fun g => g.core != idx || g.released || g.saved
  else if kind = 1 ∨ kind = 5 then
    (s.collies.all fun c => c.core != idx || c.stopped) && s.copies.all fun c => c.core != idx || c.done || c.faulted
  else if kind = 7 then
    (List.range 256).all fun d => Config.portOf d != idx || sparseGet [] s.domain.map d == [] || s.domain.isLost d || s.domain.isFull d
  else true

/-- The estates of a core's Kennel move away (R319, R384); none while they cannot. -/
def State.emptyKennel (s : State) (core : Nat) : Option State :=
  (s.estates.filter fun e => e.place == .kennel core).foldl (fun o e => o.bind fun t => t.evict core e) (some s)

/-- Keys from lo to hi lose what they hold: they read as noise. -/
def Memory.lose (m : Memory) (lo hi : Nat) : Memory :=
  { m with noise := ⟨lo, hi, 0, false⟩ :: m.noise, epochs := bumpEpochs m.epochs (unitsOf (2 ^ 17) lo (hi - lo)) }

/-- A domain port is reset: flits in transit are resent, the grants stay and the port resumes (R384), or the accesses to a device
behind it end as failed, as R376 has where the device's domain port is reset; which, for each device, is free. DESIGN CHOICE
(log entry 99). -/
def State.resetPort (s : State) (idx : Nat) : State :=
  ((List.range 256).filter fun d => Config.portOf d == idx && Config.freeChoice s.sched.free d % 2 == 1 &&
    (sparseGet [] s.domain.map d != [] || s.mem.access.any fun a => a.sent == some d)).foldl State.loseDevice s.nextFree

/-- An engine is reset (R384): a core loses its scratchpad and its translation cache, a pillow its tiles and its scale memory;
a Kennel's estates move away; a port resends or ends its accesses. A Collie, a distributor, a copy unit and a memory channel hold nothing at
their idle points. DESIGN CHOICE (log entry 99). -/
def State.resetEngine (s : State) (kind idx : Nat) : Option State :=
  if kind = 0 then
    some (s.withMem { s.mem.lose (padKey idx 0) (padKey (idx + 1) 0) with tlb := s.mem.tlb.filter fun e => e.scope != idx })
  else if kind = 2 then
    some { s.withMem (s.mem.lose (scaleKey idx 0) (scaleKey (idx + 1) 0)) with
      pillows := { s.pillows with
        elems := sparseDrop (fun k => k / (4096 * 32) == idx) s.pillows.elems
        forms := sparseDrop (fun k => k / 32 == idx) s.pillows.forms } }
  else if kind = 3 then s.emptyKennel idx
  else if kind = 7 then some (s.resetPort idx)
  else some s

/-- ERESET (R382): the request waits for the engine's idle point. -/
def execEreset (unit index : Nat) (s : State) : Out :=
  .next (if unit < 256 ∧ index < 256 ∧ Config.unitKind unit < 8 then s.putMgmt { s.mgmt with ereset := s.mgmt.ereset ++ [(unit, index)] } else s)

/-- ENGINE_RESET (R384): the first requested reset whose engine is idle takes place. -/
def execEngineReset (s : State) : Out :=
  .next <|
    match s.mgmt.ereset.find? fun e => s.engineIdle (Config.unitKind e.1) e.2 with
    | none => s
    | some e =>
      match s.resetEngine (Config.unitKind e.1) e.2 with
      | none => s
      | some t => t.putMgmt { t.mgmt with ereset := t.mgmt.ereset.erase e }

/-- The number of the image in a bank. -/
def Mgmt.imageIn (m : Mgmt) (b : Bool) : Nat := if b then m.imgB else m.imgA

/-- An engine has loaded its component of the current bank (R383): MR2 is extended, and with the last unit of its kind the kind
runs the new image. DEDUCED (log entry 104). -/
def Mgmt.activated (m : Mgmt) (component unit : Nat) : Mgmt :=
  let left := m.pend.erase (component, unit)
  let new := m.imageIn m.currentB
  ({ m with
    engines := if left.any fun e => e.1 == component then m.engines else setNth m.engines component new
    pend := left }).extend 2 (digestBytes (Config.componentDigest new component))

/-- Every engine goes back to the former bank (R383). -/
def Mgmt.goBack (m : Mgmt) : Mgmt :=
  { m with engines := List.replicate 8 (m.imageIn !m.currentB), currentB := !m.currentB, pend := [], due := false }

/-- ENGINE_ACTIVATION (R383): one engine of the kind that awaits activation and stands at its idle point, by free choice, loads
its new component and is reset, or it fails its load self-test and every engine goes back. In the safe state an update waits
for a package reset (R385). DEDUCED (log entry 104). -/
def execEngineActivation (component : Nat) (ok : Bool) (s : State) : Out :=
  .next <|
    let idle := s.mgmt.pend.filter fun e => e.1 == component && s.engineIdle e.1 e.2
    if s.mgmt.safe then s
    else
      match idle[Config.freeChoice s.sched.free 0 % idle.length]? with
      | none => s
      | some e =>
        if !ok then (s.nextFree.putMgmt s.mgmt.goBack).say { code := 0x514, params := [1, component] }
        else
          match s.nextFree.resetEngine component e.2 with
          | none => s
          | some t => t.putMgmt (t.mgmt.activated component e.2)

/-! ### Telemetry (R381, R382) -/

/-- Bytes off to off + n - 1 of record i at a refresh, where the manual leaves them open. -/
def freeField (i n off size : Nat) : Nat := natOf ((List.range size).map fun k => Config.telemetryByte i n (off + k))

/-- Record i at a refresh. DESIGN CHOICE (log entry 106). -/
def State.telemetry (s : State) (i : Nat) : Telemetry :=
  let m := s.mgmt
  let old := sparseGet {} m.telem i
  let n := old.seq + 1
  let ue := sparseGet 0 m.ue i
  let charged (p : Nat) : Nat := (sparseGet 0 s.dist.charged p).toNat
  let part := decide (1 ≤ i ∧ i ≤ 20)
  let sum (f : Nat → Nat) : Nat := ((List.range 20).map f).sum
  { seq := n % 2 ^ 32
    time := s.sched.now - s.mc.resetAt
    flags := freeField i n 22 1 % 2 + (if m.safe then 2 else 0) + (if m.pend.isEmpty then 0 else 4) + (if ue = old.ue then 0 else 8)
    energy :=
      if part then charged (i - 1)
      else if i = 0 then
        old.energy - sum (fun p => (sparseGet {} m.telem (p + 1)).energy) + sum charged + freeField i n 24 4
      else old.energy + freeField i n 24 4
    balance := if part then sparseGet 0 s.dist.balance (i - 1) else 0
    ce := old.ce + freeField i n 40 4
    ue := ue
    idedrop := if i = 0 then s.ide.dropped else 0 }

/-- TELEMETRY_REFRESH (R381). -/
def execTelemetryRefresh (s : State) : Out :=
  .next <|
    if s.mgmt.refreshed + 2 ^ 20 ≤ s.sched.now then
      s.putMgmt { s.mgmt with
        telem := (List.range 25).foldl (fun t i => sparseSet {} t i (s.telemetry i)) s.mgmt.telem
        refreshed := s.mgmt.refreshed + 2 ^ 20 }
    else s

/-- The 64 bytes of record i. -/
def Telemetry.bytes (t : Telemetry) (i : Nat) : List (BitVec 8) :=
  let kind := if i = 0 then 0 else if i ≤ 20 then 1 else 2
  let part := decide (1 ≤ i ∧ i ≤ 20)
  bytesOf 2 1 ++ bytesOf 1 kind ++ bytesOf 1 (if i = 0 then 0 else if i ≤ 20 then i - 1 else i - 21) ++ bytesOf 4 t.seq ++
  bytesOf 8 t.time ++ bytesOf 4 (freeField i t.seq 16 4) ++ bytesOf 2 (if part then 0 else freeField i t.seq 20 2) ++
  bytesOf 1 t.flags ++ bytesOf 1 0 ++ bytesOf 8 t.energy ++ bytesOf 8 (t.balance % 2 ^ 64).toNat ++ bytesOf 4 t.ce ++
  bytesOf 4 t.ue ++ bytesOf 4 t.idedrop ++ bytesOf 4 (freeField i t.seq 52 4) ++ bytesOf 4 0 ++ bytesOf 4 t.seq

/-- GETTELEM (R381). -/
def execGettelem (index : Nat) (s : State) : Out :=
  .next (if index < 25 then s.say { code := 0x7E, params := [index], data := (sparseGet {} s.mgmt.telem index).bytes index } else s)

/-- What a read of MCSTAT and of ERSTAT returns (R382). -/
def State.mcstat (s : State) : Nat :=
  let m := s.mgmt
  (if m.ready then 1 else 0) + (if m.safe then 2 else 0) + (if m.bootedB then 2 ^ 8 else 0) +
  (if m.pend.isEmpty then 0 else 2 ^ 9) + 2 ^ 32 * (m.svn % 2 ^ 32)
def State.erstat (s : State) : Nat := if s.mgmt.ereset.isEmpty then 0 else 1

/-- PSTAT of a function (R362): layoutgen, lost, resetting, stopped, scrubdone; the physical function reads partition 0's. -/
def State.pstat (s : State) (fn : Nat) : Nat :=
  let part := fn - 1
  let b (c : Bool) (n : Nat) : Nat := if c then 2 ^ n else 0
  b (!s.mem.noise.any fun x => x.part == part && x.scrub) 0 +
  b ((s.ctxs.any fun c => c.owner == part && c.loaded) &&
    s.ctxs.all fun c => c.owner != part || !c.loaded || c.saved || c.stopped || c.gated) 1 +
  b (s.resetting.contains part) 2 + b (s.fn (part + 1)).lost 3 + 2 ^ 32 * (s.layout.gen % 2 ^ 32)

/-- What a read of a register of BAR0 returns (R362, R374, R382): registers that are only written, and offsets without a
register, read as 0. No step of the device is a read. DEDUCED (log entry 118). -/
def State.readRegister (s : State) (fn off : Nat) : BitVec 64 :=
  let f := s.fn fn
  let part := fn - 1
  BitVec.ofNat 64 <|
    match off with
    | 0x00 => s.pstat fn
    | 0x08 => f.ctxbase
    | 0x10 => f.ctxcount
    | 0x18 => (s.balance part % 2 ^ 64).toNat
    | 0x40 => ((List.range 4).map fun d => (64 - (sparseGet [] s.dist.queues (dieQueue d part)).length) * 2 ^ (8 * d)).sum
    | 0x80 => f.cmdarg.getD 0 0
    | 0x88 => f.cmdarg.getD 1 0
    | 0x90 => f.cmdarg.getD 2 0
    | 0x98 => f.cmdarg.getD 3 0
    | 0xA8 => (if f.cmd.isSome then 1 else 0) + (if f.cmddrop then 2 else 0)
    | 0xC0 => f.evbase
    | 0xC8 => f.evsize
    | 0xD0 => f.evhead
    | 0xD8 => f.evtail
    | 0x100 => f.fqbase
    | 0x108 => f.fqsize
    | 0x110 => f.fqhead
    | 0x118 => f.fqtail
    | 0x200 => f.aperbase
    | 0x2000 => if fn = 0 then s.domain.domid else 0
    | 0x2008 => if fn = 0 then s.domain.domseq else 0
    | 0x2800 => if fn = 0 then s.mcstat else 0
    | 0x2810 => if fn = 0 then s.erstat else 0
    | _ =>
      if 1 ≤ fn ∧ 0x1000 ≤ off ∧ off < 0x2000 then
        (let c := s.ctx part ((off - 0x1000) / 16)
         if off % 16 = 0 then c.ringHead else if off % 16 = 8 then c.ringTail else 0)
      else if fn = 0 ∧ 0x3000 ≤ off ∧ off < 0x3640 then
        (let i := (off - 0x3000) / 64
         natOf ((((sparseGet {} s.mgmt.telem i : Telemetry).bytes i).drop ((off - 0x3000) % 64)).take 8))
      else 0

/-! ### SPDM (R380) -/

/-- A request that comes before the stage it needs is answered with UnexpectedRequest and changes nothing. -/
def State.atStage (s : State) (ok : Bool) (f : State → State) : Out := .next (if ok then f s else s.say (errorReply 4))

/-- VERSION: 1.3 alone. PRESUMED (log entry 95). -/
def spdmVersion : List (BitVec 8) := [0x10, 0x04, 0, 0, 0, 1, 0, 0x13]
/-- CAPABILITIES: CERT, CHAL, MEAS with signature, ENCRYPT, MAC, KEY_EX and HBEAT. -/
def spdmCapabilities : List (BitVec 8) :=
  [0x13, 0x61, 0, 0, 0, 0x0C, 0, 0] ++ bytesOf 4 0x22D6 ++ bytesOf 4 0x8000 ++ bytesOf 4 0x8000
/-- ALGORITHMS: SHA-256, the extended asymmetric algorithm, secp384r1 and AES-256-GCM. -/
def spdmAlgorithms : List (BitVec 8) :=
  [0x13, 0x63, 2, 0] ++ bytesOf 4 0x02010030 ++ bytesOf 4 2 ++ bytesOf 4 0 ++ bytesOf 4 1 ++ bytesOf 12 0 ++ bytesOf 4 1 ++
  bytesOf 4 0x5B310004 ++ [2, 0x20, 0x10, 0, 3, 0x20, 2, 0]

/-- The certificate chain in slot 0 (R387). -/
def State.chain (s : State) : List (BitVec 8) :=
  let n := s.mem.read 0 (sramKey 0x70000) 2
  s.mem.bytes 0 (sramKey 0x70000) n

/-- GET_VERSION (R380): an exchange begins. -/
def execGetVersion (req : List (BitVec 8)) (s : State) : Out :=
  .next ((s.putMgmt { s.mgmt with stage := 1, vca := req ++ spdmVersion, m1 := [], l1 := [] }).say { code := 4, data := spdmVersion })

/-- GET_CAPABILITIES (R380). -/
def execGetCapabilities (req : List (BitVec 8)) (s : State) : Out :=
  s.atStage (s.mgmt.stage == 1) fun t =>
    (t.putMgmt { t.mgmt with stage := 2, vca := t.mgmt.vca ++ req ++ spdmCapabilities }).say { code := 0x61, data := spdmCapabilities }

/-- NEGOTIATE_ALGORITHMS (R380). -/
def execNegotiateAlgorithms (req : List (BitVec 8)) (s : State) : Out :=
  s.atStage (s.mgmt.stage == 2) fun t =>
    (t.putMgmt { t.mgmt with stage := 3, vca := t.mgmt.vca ++ req ++ spdmAlgorithms }).say { code := 0x63, data := spdmAlgorithms }

/-- GET_CERTIFICATE (R380): the whole chain. -/
def execGetCertificate (req : List (BitVec 8)) (s : State) : Out :=
  s.atStage (s.mgmt.stage == 3) fun t =>
    let r := [0x13, 0x02, 0, 0] ++ bytesOf 2 t.chain.length ++ bytesOf 2 0 ++ t.chain
    (t.putMgmt { t.mgmt with m1 := t.mgmt.m1 ++ req ++ r }).say { code := 2, data := r }

/-- The signature of a message's digest under a signing context (R387). -/
def signatureOf (msg : List (BitVec 8)) (sctx : Bool) : List (BitVec 8) :=
  let d := BitVec.ofNat 256 (natOf (sha256 msg))
  (List.range 16224).map fun i => Config.signatureByte d sctx i

/-- CHALLENGE (R380): CHALLENGE_AUTH, signed past the exchange. -/
def execChallenge (req : List (BitVec 8)) (s : State) : Out :=
  s.atStage (s.mgmt.stage == 3) fun t =>
    if req.getD 2 0 ≠ 0 ∨ req.getD 3 0 ≠ 0 then t.say (errorReply 1)
    else
      let m := t.mgmt
      let r := [0x13, 0x03, 0, 1] ++ sha256 t.chain ++ t.freeBytes 32 ++ [0, 0] ++ (req.drop 36).take 8
      ((t.nextFree).putMgmt { m with m1 := [] }).say { code := 3, data := r ++ signatureOf (m.vca ++ m.m1 ++ req ++ r) false }

/-- The type of a measurement block's value: block 1 to 16 as the worked program writes them, block 17 raw, block 18 free.
PRESUMED (log entry 95). -/
def State.blockType (s : State) (i : Nat) : BitVec 8 :=
  if i ≤ 16 then 1
  else if i = 17 then 0x80 ||| Config.freeByte s.sched.free 32
  else Config.freeByte s.sched.free 32

/-- The value of measurement block i (R380). -/
def State.block (s : State) (i : Nat) : List (BitVec 8) :=
  if i ≤ 16 then digestBytes (sparseGet 0 s.mgmt.mr (i - 1))
  else if i = 17 then selfTestRecord s.mgmt.failing
  else bytesOf 4 s.layout.gen

/-- GET_MEASUREMENTS (R380): one signed measurement block. -/
def execGetMeasurements (req : List (BitVec 8)) (index : Nat) (s : State) : Out :=
  s.atStage (s.mgmt.stage == 3) fun t =>
    if index = 0 ∨ 18 < index ∨ !(req.getD 2 0).getLsbD 0 then t.say (errorReply 1)
    else
      let m := t.mgmt
      let v := t.block index
      let b : List (BitVec 8) := [BitVec.ofNat 8 index, 1] ++ bytesOf 2 (v.length + 3) ++ [t.blockType index] ++ bytesOf 2 v.length ++ v
      let r := [0x13, 0x60, 0, 0, 1] ++ bytesOf 3 b.length ++ b ++ t.freeBytes 32 ++ [0, 0] ++ (req.drop 37).take 8
      ((t.nextFree).putMgmt { m with l1 := [] }).say
        { code := 0x60, params := [index], data := r ++ signatureOf (m.vca ++ m.l1 ++ req ++ r) true }

/-- KEY_EXCHANGE_RSP before its signature: heartbeat period, the responder's half of the session's number, random data, the
secp384r1 exchange data, the measurement summary that the request asks for. PRESUMED (log entry 95). -/
def State.keyExchange (s : State) (req : List (BitVec 8)) : List (BitVec 8) :=
  let free (i n : Nat) : List (BitVec 8) := (List.range n).map fun k => Config.freeByte s.sched.free (i + k)
  let summary := if req.getD 2 0 = 0 then [] else free 256 32
  [0x13, 0x64] ++ free 0 1 ++ [0] ++ bytesOf 2 s.mgmt.nextSession ++ [0, 0] ++ free 32 32 ++ free 128 96 ++ summary ++ [0, 0]

/-- KEY_EXCHANGE (R380): a secured session opens for the certificate chain in slot 0; the reply is signed past the chain's
digest and the exchange. PRESUMED (log entry 95). -/
def execKeyExchange (req : List (BitVec 8)) (s : State) : Out :=
  s.atStage (s.mgmt.stage == 3) fun t =>
    if req.getD 3 0 ≠ 0 then t.say (errorReply 1)
    else
      let m := t.mgmt
      let r := t.keyExchange req
      let d := BitVec.ofNat 256 (natOf (sha256 (m.vca ++ sha256 t.chain ++ req ++ r)))
      (t.nextFree.putMgmt { m with sessions := m.sessions ++ [m.nextSession], nextSession := m.nextSession + 1 }).say
        { code := 0x64, params := [m.nextSession], data := r ++ (List.range (16224 + 32)).map fun i => Config.exchangeByte d i }

/-- HEARTBEAT (R380). -/
def execHeartbeat (session : Nat) (s : State) : Out :=
  s.atStage (s.mgmt.sessions.contains session) fun t => t.say { code := 0x68, params := [session] }

/-- RELEASE (R351, R377, R380): the context's tag key is installed, unless the generation named is not the present one. DEDUCED (log entry 97). -/
def execRelease (session part ctx gen : Nat) (key : BitVec 256) (s : State) : Out :=
  s.atStage (s.mgmt.sessions.contains session) fun t =>
    if 20 ≤ part then t.say (errorReply 1)
    else if gen ≠ t.layout.gen then t.say { code := 0x7F, params := [0xFF, 1] }
    else
      let u : State := match t.findCtx part ctx with
        | some c => t.putCtx { c with tagkey := some key }
        | none => { t with ctxs := t.ctxs ++ [{ num := ctx, owner := part, tagkey := some key }] }
      u.say { code := 0x7E, params := [part, ctx] }

/-! ### Firmware update (R383): replies are those of PLDM type 5, 0x500 + the command's code -/

/-- REQUEST_UPDATE (R383). DEDUCED (log entry 105). -/
def execRequestUpdate (session : Nat) (s : State) : Out :=
  s.atStage (s.mgmt.sessions.contains session) fun t =>
    if t.mgmt.update.isSome || !t.mgmt.pend.isEmpty then t.say { code := 0x510, params := [0x81] }
    else (t.putMgmt { t.mgmt with update := some session, verified := none, image := [] }).say { code := 0x510, params := [0] }

/-- IMAGE_TRANSFER (R383): bytes for the bank not booted. -/
def execImageTransfer (off : Nat) (data : List (BitVec 8)) (s : State) : Out :=
  .next <|
    if s.mgmt.update.isSome ∧ off + data.length ≤ 2 ^ 24 then
      s.putMgmt { s.mgmt with verified := none, image := sparseSetAll 0 s.mgmt.image (data.mapIdx fun i b => (off + i, b)) }
    else s

/-- VERIFY_COMPLETE (R383). -/
def execVerifyComplete (signatureOk : Bool) (svn : Nat) (s : State) : Out :=
  s.atStage s.mgmt.update.isSome fun t =>
    if signatureOk && decide (Config.fusedMinSvn ≤ svn) then
      (t.putMgmt { t.mgmt with verified := some svn }).say { code := 0x517, params := [0] }
    else (t.putMgmt { t.mgmt with verified := none, otherValid := false }).say { code := 0x517, params := [1] }

/-- Every engine of the package, as kind and unit. -/
def allEngines : List (Nat × Nat) := (List.range 8).flatMap fun k => (List.range (Config.unitCount k)).map fun i => (k, i)

/-- ACTIVATE_FIRMWARE (R383): the inactive bank becomes current, every engine awaits activation, and the controller its reset. -/
def execActivateFirmware (s : State) : Out :=
  s.atStage (s.mgmt.update.isSome && s.mgmt.verified.isSome) fun t =>
    let m := t.mgmt
    (t.putMgmt { m with
      imgA := if m.bootedB then m.images else m.imgA
      imgB := if m.bootedB then m.imgB else m.images
      images := m.images + 1
      bankA := if m.bootedB then m.image else m.bankA
      bankB := if m.bootedB then m.bankB else m.image
      otherValid := true, otherSvn := m.verified.getD 0, currentB := !m.bootedB
      pend := allEngines, due := true, update := none, verified := none, image := [] }).say { code := 0x51A, params := [0] }

/-! ### The message unit (R387, R388) -/

/-- Writing RXLEN hits the monitors of its line (R388). -/
def State.setRxlen (s : State) (n : Nat) : State :=
  let t := s.putMgmt { s.mgmt with rxlen := n }
  t.withMem { t.mem with monitors := t.mem.monitors.map fun (x : Monitor) =>
    if x.line = (sramKey 0x80000) / 64 then { x with hit := true } else x }

/-- The oldest request that waits is delivered while RXLEN is 0: RX is written, then RXLEN. -/
def State.deliverRx (s : State) : State :=
  match s.mgmt.rxwait with
  | [] => s
  | req :: rest =>
    if s.mgmt.rxlen ≠ 0 then s
    else
      let t := s.putMgmt { s.mgmt with rxwait := rest }
      (t.withMem (t.mem.write 0 (sramKey 0x60000) req)).setRxlen req.length

/-- REQUEST_DELIVERY (R387, R388): requests longer than RX are discarded. -/
def execRequestDelivery (req : List (BitVec 8)) (s : State) : Out :=
  .next (if req.isEmpty || decide (0x4000 < req.length) then s
    else (s.putMgmt { s.mgmt with rxwait := s.mgmt.rxwait ++ [req] }).deliverRx)

def MuCmd.op (c : MuCmd) : Nat := field c.cmd 0 8
def MuCmd.mask (c : MuCmd) : Nat := field c.cmd 8 3
def MuCmd.sctx (c : MuCmd) : Bool := c.cmd.testBit 11

/-- A command that does nothing (R387). DEDUCED (log entry 107). -/
def MuCmd.bad (c : MuCmd) : Bool :=
  let past (a n : Nat) : Bool := decide (0x80000 < a + n)
  decide (2 ^ 12 ≤ c.cmd) ||
  (match c.op with
  | 1 => past c.src c.len || past c.dst c.len
  | 2 => past c.src c.len || past c.dst 32
  | 3 => past c.dst c.len
  | 4 => decide (15 < c.src) || past c.dst 32
  | 5 => false
  | 6 => past c.src c.len
  | 7 => decide (2 < c.src)
  | 8 => decide (2 < c.src) || past c.dst 16224
  | 9 => past c.src c.len || decide (c.len = 0) || decide (32768 < c.len)
  | _ => true)

/-- The command being performed: the oldest, once the controller's earlier accesses are performed (R388). -/
def State.muHead (s : State) : Option MuCmd :=
  match s.mgmt.muq with
  | [] => none
  | c :: _ => if s.mem.access.any (fun a => a.who == Agent.mc && decide (a.id < c.id)) then none else some c

/-- The oldest command has its effect, if it is the one that an event names. -/
def State.muDo (s : State) (p : MuCmd → Bool) (f : State → MuCmd → State) : Out :=
  .next <|
    match s.muHead with
    | none => s
    | some c =>
      if s.mgmt.mudone || c.bad || !p c then s
      else
        let t := f s c
        t.putMgmt { t.mgmt with mudone := true }

/-- MU_COMMAND_COMPLETE (R388): a command that has had its effect ends; one that does nothing ends as failed. -/
def execMuCommandComplete (s : State) : Out :=
  .next <|
    match s.muHead with
    | none => s
    | some c =>
      let m := s.mgmt
      if c.bad then s.putMgmt { m with muq := m.muq.drop 1, mufail := true }
      else if m.mudone then s.putMgmt { m with muq := m.muq.drop 1, mudone := false }
      else s

/-- The bytes [a, a + n) of the SRAM. -/
def State.sram (s : State) (a n : Nat) : List (BitVec 8) := s.mem.bytes 0 (sramKey a) n

/-- The message unit writes bytes of the SRAM; the chain area takes none (R387). -/
def State.muWrite (s : State) (a : Nat) (bs : List (BitVec 8)) : State :=
  s.withMem (s.mem.write 0 (sramKey a) (bs.take (0x70000 - a)))

/-- Transcript slots of a mask changed by f. -/
def Mgmt.mapSlots (m : Mgmt) (mask : Nat) (f : List (BitVec 8) → List (BitVec 8)) : Mgmt :=
  { m with slots := m.slots.mapIdx fun i x => if mask.testBit i then f x else x }

/-- MOVE (R387). -/
def execMove (src dst len : Nat) (s : State) : Out :=
  s.muDo (fun c => c.op == 1 && c.src == src && c.dst == dst && c.len == len) fun t _ => t.muWrite dst (t.sram src len)

/-- HASH (R387). -/
def execHash (src dst len : Nat) (s : State) : Out :=
  s.muDo (fun c => c.op == 2 && c.src == src && c.dst == dst && c.len == len) fun t _ => t.muWrite dst (sha256 (t.sram src len))

/-- RAND (R387). -/
def execRand (dst len : Nat) (s : State) : Out :=
  s.muDo (fun c => c.op == 3 && c.dst == dst && c.len == len) fun t _ => (t.muWrite dst (t.freeBytes len)).nextFree

/-- MRREAD (R387). -/
def execMrread (src dst : Nat) (s : State) : Out :=
  s.muDo (fun c => c.op == 4 && c.src == src && c.dst == dst) fun t _ => t.muWrite dst (digestBytes (sparseGet 0 t.mgmt.mr src))

/-- RESET of transcript slots (R387). -/
def execMuReset (mask : Nat) (s : State) : Out :=
  s.muDo (fun c => c.op == 5 && c.mask == mask) fun t _ => t.putMgmt (t.mgmt.mapSlots mask fun _ => [])

/-- ABSORB (R387). -/
def execAbsorb (mask src len : Nat) (s : State) : Out :=
  s.muDo (fun c => c.op == 6 && c.mask == mask && c.src == src && c.len == len) fun t _ =>
    t.putMgmt (t.mgmt.mapSlots mask fun x => x ++ t.sram src len)

/-- COPY of a transcript slot (R387). -/
def execCopy (mask src : Nat) (s : State) : Out :=
  s.muDo (fun c => c.op == 7 && c.mask == mask && c.src == src) fun t _ =>
    t.putMgmt (t.mgmt.mapSlots mask fun _ => t.mgmt.slots.getD src [])

/-- SIGN (R387). -/
def execSign (sctx : Bool) (src dst : Nat) (s : State) : Out :=
  s.muDo (fun c => c.op == 8 && c.sctx == sctx && c.src == src && c.dst == dst) fun t _ =>
    t.muWrite dst (signatureOf (t.mgmt.slots.getD src []) sctx)

/-- SEND (R387, R388): what is received and sent is absorbed, the message leaves, RXLEN becomes 0. -/
def execSend (mask src len : Nat) (s : State) : Out :=
  s.muDo (fun c => c.op == 9 && c.mask == mask && c.src == src && c.len == len) fun t _ =>
    let rx := t.sram 0x60000 t.mgmt.rxlen
    let msg := t.sram src len
    let m := t.mgmt.mapSlots mask fun x => x ++ rx ++ msg
    ((t.putMgmt { m with sent := m.sent ++ [msg] }).setRxlen 0).deliverRx

/-- MUSYNC (R388): a load of MUSYNC into register d returns, once every earlier command has ended. -/
def execMusync (d : BitVec 6) (s : State) : Out :=
  .next <|
    let into (id : Nat) : Bool := s.mc.x.pend.any fun p => p.id == id && p.names.contains (.scalar d.toNat)
    match s.mem.access.find? fun a => a.who == Agent.mc && a.addr == sramKey 0x80020 && (match a.act with
      | .load (.pend id _) => into id
      | _ => false) with
    | some a => s.performAccess a.id
    | none => s

end Sys2Proof.Machine
end

