-- ==== Sys2Proof/Machine/System.lean ====
section
/-!
DEFINITION. TRAP, the special registers, the operand window and the caller's state, EMURET (R224 to R229, R234, R235,
R378), and the entries that a fetched word without a meaning of its own leads to (R45, R221, R223, R234, R378).
-/
namespace Sys2Proof.Machine

/-! ### TRAP (R225) -/

/-- TRAP (R225, R234, R378). -/
def execTrap (code : BitVec 12) (s : State) : Out :=
  issue (.trap code) s
    (fun q t =>
      match q.exe.lanes with
      | [] => .done t
      | L :: _ => .trap { cause := 0x28, lane := L, arg0 := code.toNat })
    (fun c t => if (Exe.scal c.x).lanes.isEmpty then .done t else .trap { cause := 0x28, arg0 := code.toNat })
    (fun x t => if (Exe.scal x).lanes.isEmpty then .done t else .jump (t.mcEnter 2 (wordOf (.trap code)) 0x28 0))

/-! ### Special registers (R226, R235, R378) -/

/-- place (R14). -/
def placeWord (core : Nat) : BitVec 32 :=
  BitVec.ofNat 32 (core / Config.coresPerDie * 2 ^ 18 + core % Config.coresPerDie / 4 * 2 ^ 14 + core % 4 * 2 ^ 12 + core)

/-- ctxid (R226). -/
def ctxidWord (g : Workgroup) : BitVec 32 := BitVec.ofNat 32 (g.ctx % 2 ^ 16 + g.part * 2 ^ 16)

/-- vstat (R226). -/
def vstatWord (g : Workgroup) : BitVec 32 :=
  BitVec.ofNat 32 ((if g.versionOpen then 1 else 0) + (if g.irr then 2 else 0) + g.lines.length * 2 ^ 16)

/-- gang (R81). -/
def Seat.gangWord (q : Seat) : BitVec 32 :=
  let wc := if q.w.width = 16 then 0 else if q.w.width = 32 then 1 else 2
  BitVec.ofNat 32 (wc * 2 ^ 24 + q.lead * 2 ^ 20 + maskOf q.g.slices)

/-- estat (R325): the OR of the statuses of all lanes. -/
def Warp.estatWord (w : Warp) : BitVec 32 := w.estat.foldl (fun v e => v ||| e.2) 0

/-- The registers that only a frame gives; 0 outside a handler (R226). -/
def frameRead (sr : Nat) (ecause emaskLo emaskHi etrap eword : BitVec 32) (epc : BitVec 48) : BitVec 32 :=
  match sr with
  | 0x0A => ecause
  | 0x0B => emaskLo
  | 0x0C => emaskHi
  | 0x0D => epc.setWidth 32
  | 0x0E => (epc >>> 32).setWidth 32
  | 0x0F => eword
  | _ => etrap

/-- What RDSR reads on a slice (R226). -/
def Seat.readSr (q : Seat) (s : State) (sr : Nat) : BitVec 32 :=
  let g := s.wg q.w.wg
  match sr with
  | 0 => (q.w.slice q.lead).mode
  | 1 => placeWord q.w.core
  | 2 => q.gangWord
  | 3 => ctxidWord g
  | 4 => BitVec.ofNat 32 g.lineage
  | 5 => BitVec.ofNat 32 g.depth
  | 6 => BitVec.ofNat 32 g.taskid
  | 7 => vstatWord g
  | 8 => q.w.estatWord
  | 9 => q.w.kstep
  | 0x11 => BitVec.ofNat 32 (q.w.slice q.lead).frames.length
  | _ =>
    match q.frame with
    | none => 0
    | some f => frameRead sr f.ecause (lo32 f.emask) (hi32 f.emask) f.etrap f.eword f.epc

/-- What RDSR reads on a Collie thread (R235). -/
def Collie.readSr (c : Collie) (s : State) (sr : Nat) : BitVec 32 :=
  let g := s.wg c.wg
  match sr with
  | 0 => c.x.mode
  | 1 => placeWord c.core
  | 3 => ctxidWord g
  | 4 => BitVec.ofNat 32 g.lineage
  | 5 => BitVec.ofNat 32 g.depth
  | 6 => BitVec.ofNat 32 g.taskid
  | 0x11 => if c.frame.isSome then 1 else 0
  | _ =>
    match c.frame with
    | none => 0
    | some f => frameRead sr f.ecause f.emask 0 0 f.eword f.epc

/-- What RDSR reads on the controller (R378). DEDUCED (log entry 83). -/
def State.readMcSr (s : State) (sr : Nat) : BitVec 32 :=
  match sr with
  | 0 => s.mc.x.mode
  | 0x0A => s.mc.ecause
  | 0x0D => s.mc.epc.setWidth 32
  | 0x0E => (s.mc.epc >>> 32).setWidth 32
  | 0x0F => s.mc.eword
  | 0x10 => s.mc.etrap
  | 0x20 => s.mc.mvec
  | 0x21 => BitVec.ofNat 32 (s.sched.now - s.mc.resetAt)
  | 0x22 => BitVec.ofNat 32 ((s.sched.now - s.mc.resetAt) / 2 ^ 32)
  | _ => 0

/-- RDSR (R226, R235, R325, R378): a read of estat waits for the warp's claims. -/
def execRdsr (d : RegCode) (sr : BitVec 8) (s : State) : Out :=
  issue (.rdsr d sr) s
    (fun q t =>
      if sr = 8 && !q.w.claims.isEmpty then .stay t
      else
        let v := q.readSr t sr.toNat
        .done (t.putWarp ((q.exe.lanewise d.toNat fun _ => v).warpOf q.w)))
    (fun c t =>
      let v := c.readSr t sr.toNat
      .done (t.putCollie { c with x := ((Exe.scal c.x).lanewise d.toNat fun _ => v).scalarOf c.x }))
    (fun x t =>
      let v := t.readMcSr sr.toNat
      .done { t with mc := { t.mc with x := ((Exe.scal x).lanewise d.toNat fun _ => v).scalarOf x } })

/-- Every frame on top of a slice of the gang changed by f. -/
def Seat.mapFrames (q : Seat) (f : Frame → Frame) : Warp :=
  q.w.mapSlices q.g.slices fun _ x =>
    { x with frames := match x.frames with | [] => [] | h :: t => f h :: t }

/-- emask with half h written; bits of lanes outside the gang are kept (R226). -/
def maskWrite (old : BitVec 64) (own : Nat) (h : Nat) (v : BitVec 32) : BitVec 64 :=
  let half : BitVec 64 := BitVec.ofNat 64 ((2 ^ 32 - 1) * 2 ^ (32 * h))
  let keep := ~~~ (half &&& BitVec.ofNat 64 own)
  (old &&& keep) ||| (BitVec.ofNat 64 (v.toNat * 2 ^ (32 * h)) &&& ~~~ keep)

/-- The count of kstep replaced, its stop bit kept (R280). -/
def kstepCount (old v : BitVec 32) : BitVec 32 :=
  BitVec.ofNat 32 (setField old.toNat 0 20 v.toNat)

/-- WRSR (R226, R235, R280, R325, R378): the value is that of the lowest executing lane. DEDUCED (log entry 82). -/
def execWrsr (a : RegCode) (sr : BitVec 8) (s : State) : Out :=
  issue (.wrsr a sr) s
    (fun q t =>
      match q.exe.lowest a.toNat with
      | none => .done t
      | some v =>
        let lanes := q.g.slices.flatMap lanesOf
        .done (t.putWarp (match sr.toNat with
          | 0 => q.w.mapSlices q.g.slices fun _ x => { x with mode := v &&& 0x7FFF }
          | 8 => { q.w with estat := sparseSetAll 0 [] ((List.range q.w.width).map fun L => (L, v &&& 0xFFFFFF)) }
          | 9 => { q.w with kstep := kstepCount q.w.kstep v }
          | 0xB => q.mapFrames fun f => { f with emask := maskWrite f.emask (maskOf lanes) 0 v }
          | 0xC => q.mapFrames fun f => { f with emask := maskWrite f.emask (maskOf lanes) 1 v }
          | _ => q.w)))
    (fun c t =>
      match (Exe.scal c.x).lowest a.toNat with
      | none => .done t
      | some v =>
        .done (t.putCollie (match sr.toNat with
          | 0 => { c with x := { c.x with mode := v &&& 0x7FFF } }
          | 0xB => { c with frame := c.frame.map fun f => { f with emask := v &&& 1 } }
          | _ => c)))
    (fun x t =>
      match (Exe.scal x).lowest a.toNat with
      | none => .done t
      | some v =>
        .done { t with mc := (match sr.toNat with
          | 0 => { t.mc with x := { x with mode := v &&& 0x7FFF } }
          | 0x0A => { t.mc with ecause := v &&& 7 }
          | 0x10 => { t.mc with etrap := v }
          | 0x20 => { t.mc with mvec := v &&& 0x7FF00 }
          | 0x23 => { t.mc with wdogAt := t.sched.now }
          | _ => t.mc) })

/-! ### The operand window (R227, R234) -/

/-- EMUGET (R227). -/
def execEmuget (d : RegCode) (o : BitVec 3) (s : State) : Out :=
  issue (.emuget d o) s
    (fun q t =>
      let get (L : Nat) : BitVec 32 :=
        match (q.w.slice (L / 4)).frames with
        | f :: _ => sparseGet 0 f.owin (regKey o.toNat L)
        | [] => 0
      .done (t.putWarp ((q.exe.lanewise d.toNat get).warpOf q.w)))
    (fun c t =>
      let v := match c.frame with | some f => sparseGet 0 f.owin o.toNat | none => 0
      .done (t.putCollie { c with x := ((Exe.scal c.x).lanewise d.toNat fun _ => v).scalarOf c.x }))
    (fun _ t => .stay t)

/-- The frame on top of slice L / 4 of each listed lane changed by f. -/
def Warp.atLanes (w : Warp) (lanes : List Nat) (f : Frame → Nat → Frame) : Warp :=
  lanes.foldl (fun v L =>
    let x := v.slice (L / 4)
    v.setSlice (L / 4) { x with frames := match x.frames with | [] => [] | h :: t => f h L :: t }) w

/-- EMUPUT (R227). -/
def execEmuput (o : BitVec 3) (a : RegCode) (s : State) : Out :=
  issue (.emuput o a) s
    (fun q t =>
      .done (t.putWarp (q.w.atLanes q.exe.lanes fun f L =>
        { f with owin := sparseSet 0 f.owin (regKey o.toNat L) (q.exe.rd a.toNat L) })))
    (fun c t =>
      let x := Exe.scal c.x
      if x.lanes.isEmpty then .done t
      else
        .done (t.putCollie { c with frame := c.frame.map fun f =>
          { f with owin := sparseSet 0 f.owin o.toNat (x.rd a.toNat 0) } }))
    (fun _ t => .stay t)

/-! ### The caller's state (R228) -/

/-- A 32-bit word of a value. -/
def partOf (v part : Nat) : BitVec 32 := BitVec.ofNat 32 (v / 2 ^ (32 * part))

/-- What EMURD reads of the frame below in lane L (R228). A temporary that is not valid holds an undefined value (R36), a
free value. -/
def Seat.callerRead (q : Seat) (n kind idx part L : Nat) : BitVec 32 :=
  match (q.w.slice (L / 4)).frames with
  | [] => 0
  | f :: _ =>
    match kind with
    | 0 => sparseGet 0 q.w.regs (regKey (f.base + idx) L)
    | 1 => if f.run.temps.testBit idx then sparseGet 0 f.temps (regKey idx L) else Config.freeWord n (regKey idx L)
    | 2 => sparseGet 0 q.w.s idx
    | 3 => partOf (sparseGet 0 q.w.p idx).toNat part
    | 4 => partOf (sparseGet {} q.w.c idx : Cap).bits.toNat part
    | _ => partOf (sparseGet 0 q.w.k idx).toNat part

/-- EMURD or EMUWR of kind k waits for a skein that a KLD has not yet written (R257). -/
def Seat.skeinHeld (q : Seat) (t : State) (kind idx : Nat) : Bool := kind == 5 && t.skeinBusy q.w [idx]

/-- EMURD (R228). -/
def execEmurd (d : RegCode) (kind : BitVec 3) (idx : BitVec 6) (part : BitVec 4) (s : State) : Out :=
  issue (.emurd d kind idx part) s
    (fun q t =>
      if q.skeinHeld t kind.toNat idx.toNat then .stay t
      else
      .done (t.putWarp ((q.exe.lanewise d.toNat
        (q.callerRead t.sched.free kind.toNat idx.toNat part.toNat)).warpOf q.w)))
    (fun c t =>
      let v : BitVec 32 := match c.frame with
        | none => 0
        | some f =>
          match kind.toNat with
          | 2 => sparseGet 0 f.s idx.toNat
          | 3 => partOf (sparseGet 0 f.p idx.toNat).toNat part.toNat
          | _ => partOf (sparseGet {} c.c idx.toNat : Cap).bits.toNat part.toNat
      .done (t.putCollie { c with x := ((Exe.scal c.x).lanewise d.toNat fun _ => v).scalarOf c.x }))
    (fun _ t => .stay t)

/-- A predicate or skein with one 32-bit word replaced. -/
def setPart (v part : Nat) (x : BitVec 32) : Nat := setField v (32 * part) 32 x.toNat

/-- Temporary idx of the callers marked valid: lanes that did not hold it take undefined values (R36). -/
def Seat.validateTemp (q : Seat) (n idx : Nat) : Warp :=
  q.w.mapSlices q.g.slices fun j x =>
    { x with frames := match x.frames with
        | [] => []
        | f :: t =>
          (if f.run.temps.testBit idx then f
           else { f with
            run := { f.run with temps := f.run.temps ||| 2 ^ idx }
            temps := sparseSetAll 0 f.temps ((lanesOf j).map fun L => (regKey idx L, Config.freeWord n (regKey idx L))) }) :: t }

/-- EMUWR (R228); a written skein's accumulation count becomes 0 (R254). DEDUCED (log entry 84). With no executing
lane it marks no temporary. DESIGN CHOICE (log entry 138). -/
def execEmuwr (a : RegCode) (kind : BitVec 3) (idx : BitVec 6) (part : BitVec 4) (s : State) : Out :=
  issue (.emuwr a kind idx part) s
    (fun q t =>
      let lanes := q.exe.lanes
      let v (L : Nat) : BitVec 32 := q.exe.rd a.toNat L
      if q.skeinHeld t kind.toNat idx.toNat then .stay t
      else
      match q.exe.lowest a.toNat with
      | none => .done t
      | some low =>
        .done (t.putWarp (match kind.toNat with
          | 0 =>
            { q.w with regs := sparseSetAll 0 q.w.regs (lanes.filterMap fun L =>
                match (q.w.slice (L / 4)).frames with
                | f :: _ => some (regKey (f.base + idx.toNat) L, v L)
                | [] => none) }
          | 1 =>
            (q.validateTemp t.sched.free idx.toNat).atLanes lanes fun f L =>
              { f with temps := sparseSet 0 f.temps (regKey idx.toNat L) (v L) }
          | 2 => { q.w with s := sparseSet 0 q.w.s idx.toNat low }
          | 3 =>
            { q.w with p := sparseSet 0 q.w.p idx.toNat (BitVec.ofNat 64
                (setPart (sparseGet 0 q.w.p idx.toNat).toNat part.toNat low % 2 ^ q.w.width)) }
          | _ =>
            { q.w with
              k := sparseSet 0 q.w.k idx.toNat (BitVec.ofNat 512 (setPart (sparseGet 0 q.w.k idx.toNat).toNat part.toNat low))
              geo := { q.w.geo with counts := sparseSet 0 q.w.geo.counts (idx.toNat / 2) 0 } })))
    (fun c t =>
      let x := Exe.scal c.x
      if x.lanes.isEmpty then .done t
      else
        let v := x.rd a.toNat 0
        .done (t.putCollie { c with frame := c.frame.map fun f =>
          (match kind.toNat with
          | 2 => { f with s := sparseSet 0 f.s idx.toNat v }
          | _ => if part = 0 then { f with p := sparseSet 0 f.p idx.toNat (BitVec.ofNat 64 (v.toNat % 2)) } else f) }))
    (fun _ t => .stay t)

/-! ### EMURET (R229, R234) -/

/-- The gang lacks a live slice of a frame of its own (R222, R229). -/
def Seat.splitFrame (q : Seat) : Bool :=
  q.g.slices.any fun j =>
    match (q.w.slice j).frames with
    | f :: _ => f.members.any fun i => (q.w.slice i).live && !q.g.slices.contains i
    | [] => false

/-- The values o3 holds in the lanes of emask (R229). -/
def Seat.results (q : Seat) : List (Nat × BitVec 32) :=
  q.g.slices.flatMap fun j =>
    match (q.w.slice j).frames with
    | f :: _ => ((lanesOf j).filter fun L => f.emask.getLsbD L).map fun L => (L, sparseGet 0 f.owin (regKey 3 L))
    | [] => []

/-- The warp with the frames of the gang's slices closed and the callers' state restored (R229). -/
def Seat.restore (q : Seat) (n : Nat) (resume : Nat → BitVec 48) : Warp :=
  let w1 := q.g.slices.foldl (fun w j =>
    match (w.slice j).frames with
    | f :: _ => w.lowerBase n j f.base
    | [] => w) q.w
  let temps := q.g.slices.foldl (fun t j =>
    match (q.w.slice j).frames with
    | f :: _ => sparseSetAll 0 (sparseDrop (fun k => decide (k % 64 / 4 = j)) t) f.temps
    | [] => t) q.w.temps
  let w2 := w1.mapSlices q.g.slices fun j x =>
    match x.frames with
    | f :: rest =>
      { x with pc := resume j, mode := f.mode, lanemask := f.lanemask, stack := f.stack, frames := rest }.settleLanes
    | [] => x
  match q.frame with
  | some f => { w2 with temps := temps, cover0 := f.cover0, cover1 := f.cover1 }
  | none => w2

/-- A temporary that the emulated word writes for the first time holds undefined values in the other lanes (R36). -/
def Warp.freeTemp (w : Warp) (n d : Nat) (sl : List Nat) (valid : Nat) : Warp :=
  if 44 ≤ d ∧ d < 52 ∧ !valid.testBit (d - 44) then
    w.write d ((sl.flatMap lanesOf).map fun L => (L, Config.freeWord n (regKey d L)))
  else w

/-- The warp after a gang has left its handler (R229). With the run of the caller, the slices that go on at pc keep it as
one gang; slices whose lanes ended in the handler and that stand elsewhere part from it, and ended slices leave it (R78, R82,
R162). DEDUCED (log entry 115). The gang goes on with that run on the port that the next run start gives it. DEDUCED (log entry 19). -/
def Seat.resume (q : Seat) (w : Warp) (run : Option Run) (pc : BitVec 48) (fills : Bool) : Warp :=
  let v := q.part w .none fills
  match run with
  | none => v
  | some r =>
    { v with gangs := v.gangs.map fun h =>
        if h.slices.all q.g.slices.contains && h.slices.any (fun j => (w.slice j).pc == pc) then
          { h with resume := some r }
        else h }

/-- EMURET on a gang (R229): at 0 the caller's run goes on with the emulated word as one of its words. A slice whose last
lane ended in the handler ends here (R79, R292). -/
def Seat.emuret (q : Seat) (t : State) (nc at_ a : Nat) : Eff :=
  let f (j : Nat) : Option Frame := (q.w.slice j).frames.head?
  let resume (j : Nat) : Option (BitVec 48) :=
    match f j with
    | none => none
    | some fr => if at_ = 0 then nextPc fr.epc else if at_ = 1 then some fr.epc else some (t.forward q.w.wg (BitVec.ofNat 48 (q.pairTarget a j).1))
  if q.splitFrame then .trap { cause := 0x2A }
  else
    match (if at_ = 2 then q.pairFault a else none) with
    | some tr => .trap tr
    | none =>
      if q.g.slices.any (fun j => (resume j).isNone) then .trap { cause := 0xB }
      else
        match q.frame with
        | none => .stay t
        | some fr =>
          let d := field fr.eword.toNat 18 6
          let w1 := q.restore t.sched.free fun j => (resume j).getD 0
          let w := (if nc = 0 then (w1.freeTemp t.sched.free d q.g.slices fr.run.temps).write d q.results else w1).settled
          let fills := q.g.slices.any fun j => decide ((w.slice j).lo < (q.w.slice j).lo)
          let run := if at_ = 0 ∧ q.g.slices.all (fun j => (f j).map (·.members) = some fr.members) then
              some (fr.run.after (if nc = 0 then tempMask [d] else 0) none)
            else none
          let u := t.putWarp (q.resume w run (fr.epc + 4) fills)
          .jump (if q.g.slices.all fun j => (w.slice j).live then u else u.slicesEnd w q.w.core q.w.slot)

/-- EMURET (R229, R234). -/
def execEmuret (nc : BitVec 1) (at_ : BitVec 2) (a : RegCode) (s : State) : Out :=
  issue (.emuret nc at_ a) s
    (fun q t => q.emuret t nc.toNat at_.toNat a.toNat)
    (fun c t =>
      match c.frame with
      | none => .stay t
      | some f =>
        let back (pc : BitVec 48) : Eff :=
          let d := field f.eword.toNat 18 6
          let sc := if nc = 0 ∧ f.emask.getLsbD 0 ∧ d < 32 then sparseSet 0 f.s d (sparseGet 0 f.owin 3) else f.s
          let run := if at_ = 0 then f.run.after 0 none else {}
          .jump (t.putCollie { c with
            frame := none
            x := { c.x with pc := pc, mode := f.mode, s := sc, p := f.p, run := run } })
        if at_ = 0 then (match nextPc f.epc with | some p => back p | none => .trap { cause := 0xB })
        else if at_ = 1 then back f.epc
        else match scalarTarget c.x a.toNat with
          | .error tr => .trap tr
          | .ok p => back (t.forward c.wg p))
    (fun _ t => .stay t)

/-! ### Words without a meaning of their own -/

/-- What happens to the current agent at a word it cannot execute; no agent, no effect. -/
def atWord (s : State) (g : Seat → State) (c : Collie → State) (m : Scalar → State) : Out :=
  .next <|
    match s.sched.cur with
    | some (.gang core slot lead) =>
      (match s.seat core slot lead with
      | some q => if !q.ready || (s.ctxOf q.w.wg).gated then s else g q
      | none => s)
    | some (.collie core thread) =>
      (match s.findCollie core thread with
      | some d =>
        if d.stopped || d.park != .none || d.x.hold != .none || (s.ctxOf d.wg).gated || s.collieStops d .nop then s else c d
      | none => s)
    | some .mc => if s.mc.x.hold != .none || s.mc.parked then s else m s.mc.x
    | none => s

/-- END-OF-TEXT (R45, R72). -/
def execEndOfText (word : BitVec 32) (s : State) : Out :=
  atWord s (fun q => s.raiseAt q { cause := 1, arg0 := word.toNat })
    (fun c => s.raiseCollie c { cause := 1, arg0 := word.toNat }) (fun _ => s.mcEnter 5 word 1 0)

/-- RESERVED-WORD (R45). -/
def execReservedWord (word : BitVec 32) (s : State) : Out :=
  atWord s (fun q => s.raiseAt q { cause := 2, arg0 := word.toNat })
    (fun c => s.raiseCollie c { cause := 2, arg0 := word.toNat }) (fun _ => s.mcEnter 5 word 2 0)

/-- EMULATION_ENTRY (R221): a gang at an undefined or disabled word. -/
def execEmulationEntry (word : BitVec 32) (reason : Nat) (s : State) : Out :=
  atWord s (fun q => s.emulate q word reason) (fun _ => s) (fun _ => s)

/-- COLLIE_HANDLER_ENTRY (R234): a Collie thread at such a word. -/
def execCollieHandlerEntry (word : BitVec 32) (reason : Nat) (s : State) : Out :=
  atWord s (fun _ => s) (fun c => s.collieEnter c word reason) (fun _ => s)

/-- GUARD_HANDLER_ENTRY (R223): a gang at a word that raises GUARD-OVERFLOW. -/
def execGuardHandlerEntry (word : BitVec 32) (s : State) : Out :=
  atWord s
    (fun q =>
      let e := (s.ctxOf q.w.wg).guardentry
      if e = 0 then s.raiseAt q { cause := 0x25 } else s.enterHandler q e word 0 0x25 0)
    (fun _ => s) (fun _ => s)

/-- MC_VECTOR_ENTRY (R378): the controller at a word that leads to a vector. DEDUCED (log entry 81). -/
def execMcVectorEntry (entry : Nat) (word : BitVec 32) (etrap reason : Nat) (s : State) : Out :=
  atWord s (fun _ => s) (fun _ => s)
    (fun _ => if entry = 1 then s.mcEmulate word reason else s.mcEnter entry word etrap reason)

end Sys2Proof.Machine
end

