-- ==== Sys2Proof/Machine/Dispatch.lean ====
section
/-!
DEFINITION. One arm per instruction: each is one call of its meaning.
-/
namespace Sys2Proof.Machine

def exec (i : Instr) (s : State) : Host.Outcome State Fault Refusal :=
  match i with
  | .mode mguard mtype mrnd msat msub value => Sys2Proof.Machine.execMode mguard mtype mrnd msat msub value s
  | .trl count x1 x2 x3 => Sys2Proof.Machine.execTrl count x1 x2 x3 s
  | .trlRange x1 x2 => Sys2Proof.Machine.execTrlRange x1 x2 s
  | .nop => Sys2Proof.Machine.execNop s
  | .br cond off => Sys2Proof.Machine.execBr cond off s
  | .brd cond off => Sys2Proof.Machine.execBrd cond off s
  | .rjoin off => Sys2Proof.Machine.execRjoin off s
  | .regang slices => Sys2Proof.Machine.execRegang slices s
  | .call n off => Sys2Proof.Machine.execCall n off s
  | .calli n a => Sys2Proof.Machine.execCalli n a s
  | .ret n => Sys2Proof.Machine.execRet n s
  | .brx a => Sys2Proof.Machine.execBrx a s
  | .yield off => Sys2Proof.Machine.execYield off s
  | .yieldB b off => Sys2Proof.Machine.execYieldB b off s
  | .waitmon lvl c a b tmo => Sys2Proof.Machine.execWaitmon lvl c a b tmo s
  | .exit => Sys2Proof.Machine.execExit s
  | .iadd d a b => Sys2Proof.Machine.execIadd d a b s
  | .isub d a b => Sys2Proof.Machine.execIsub d a b s
  | .imin d a b => Sys2Proof.Machine.execImin d a b s
  | .imax d a b => Sys2Proof.Machine.execImax d a b s
  | .nmin d a b => Sys2Proof.Machine.execNmin d a b s
  | .nmax d a b => Sys2Proof.Machine.execNmax d a b s
  | .iabsd d a b => Sys2Proof.Machine.execIabsd d a b s
  | .and d a b => Sys2Proof.Machine.execAnd d a b s
  | .or d a b => Sys2Proof.Machine.execOr d a b s
  | .xor d a b => Sys2Proof.Machine.execXor d a b s
  | .andn d a b => Sys2Proof.Machine.execAndn d a b s
  | .orn d a b => Sys2Proof.Machine.execOrn d a b s
  | .shl d a b => Sys2Proof.Machine.execShl d a b s
  | .shr d a b => Sys2Proof.Machine.execShr d a b s
  | .sar d a b => Sys2Proof.Machine.execSar d a b s
  | .rol d a b => Sys2Proof.Machine.execRol d a b s
  | .ror d a b => Sys2Proof.Machine.execRor d a b s
  | .imad24 d a b c => Sys2Proof.Machine.execImad24 d a b c s
  | .nmad24 d a b c => Sys2Proof.Machine.execNmad24 d a b c s
  | .imul32Lo d a b look => Sys2Proof.Machine.execImul32Lo d a b look s
  | .imul32Hi d a b look => Sys2Proof.Machine.execImul32Hi d a b look s
  | .imul32Nhi d a b look => Sys2Proof.Machine.execImul32Nhi d a b look s
  | .bfe d a b c => Sys2Proof.Machine.execBfe d a b c s
  | .bfi d a b c => Sys2Proof.Machine.execBfi d a b c s
  | .popc d a => Sys2Proof.Machine.execPopc d a s
  | .clz d a => Sys2Proof.Machine.execClz d a s
  | .brev d a => Sys2Proof.Machine.execBrev d a s
  | .ffs d a => Sys2Proof.Machine.execFfs d a s
  | .sel d a b c => Sys2Proof.Machine.execSel d a b c s
  | .icmp d a b fn => Sys2Proof.Machine.execIcmp d a b fn s
  | .pand d a b => Sys2Proof.Machine.execPand d a b s
  | .por d a b => Sys2Proof.Machine.execPor d a b s
  | .pxor d a b => Sys2Proof.Machine.execPxor d a b s
  | .pandn d a b => Sys2Proof.Machine.execPandn d a b s
  | .iaddi d a imm => Sys2Proof.Machine.execIaddi d a imm s
  | .andi d a imm => Sys2Proof.Machine.execAndi d a imm s
  | .ori d a imm => Sys2Proof.Machine.execOri d a imm s
  | .movi d imm => Sys2Proof.Machine.execMovi d imm s
  | .movhi d imm => Sys2Proof.Machine.execMovhi d imm s
  | .lea d a b sh => Sys2Proof.Machine.execLea d a b sh s
  | .iadd64 d a b => Sys2Proof.Machine.execIadd64 d a b s
  | .isub64 d a b => Sys2Proof.Machine.execIsub64 d a b s
  | .smovSs x y => Sys2Proof.Machine.execSmovSs x y s
  | .smovSr x y => Sys2Proof.Machine.execSmovSr x y s
  | .smovRs x y => Sys2Proof.Machine.execSmovRs x y s
  | .sop fn d a b => Sys2Proof.Machine.execSop fn d a b s
  | .ffma d a b c => Sys2Proof.Machine.execFfma d a b c s
  | .fadd d a b => Sys2Proof.Machine.execFadd d a b s
  | .fsub d a b => Sys2Proof.Machine.execFsub d a b s
  | .fmul d a b => Sys2Proof.Machine.execFmul d a b s
  | .fmin d a b => Sys2Proof.Machine.execFmin d a b s
  | .fmax d a b => Sys2Proof.Machine.execFmax d a b s
  | .fcmp d a b fn => Sys2Proof.Machine.execFcmp d a b fn s
  | .rcp d a look => Sys2Proof.Machine.execRcp d a look s
  | .rsqrt d a look => Sys2Proof.Machine.execRsqrt d a look s
  | .sqrt d a look => Sys2Proof.Machine.execSqrt d a look s
  | .div d a b look => Sys2Proof.Machine.execDiv d a b look s
  | .exp2 d a look => Sys2Proof.Machine.execExp2 d a look s
  | .log2 d a look => Sys2Proof.Machine.execLog2 d a look s
  | .sin d a look => Sys2Proof.Machine.execSin d a look s
  | .cos d a look => Sys2Proof.Machine.execCos d a look s
  | .tanh d a look => Sys2Proof.Machine.execTanh d a look s
  | .sigm d a look => Sys2Proof.Machine.execSigm d a look s
  | .cvt d a op sel => Sys2Proof.Machine.execCvt d a op sel s
  | .f2i d a => Sys2Proof.Machine.execF2i d a s
  | .i2f d a => Sys2Proof.Machine.execI2f d a s
  | .f2n d a => Sys2Proof.Machine.execF2n d a s
  | .n2f d a => Sys2Proof.Machine.execN2f d a s
  | .frnd d a => Sys2Proof.Machine.execFrnd d a s
  | .ffma2 d a b c => Sys2Proof.Machine.execFfma2 d a b c s
  | .fadd2 d a b => Sys2Proof.Machine.execFadd2 d a b s
  | .fmul2 d a b => Sys2Proof.Machine.execFmul2 d a b s
  | .fmin2 d a b => Sys2Proof.Machine.execFmin2 d a b s
  | .fmax2 d a b => Sys2Proof.Machine.execFmax2 d a b s
  | .fabs d a => Sys2Proof.Machine.execFabs d a s
  | .fneg d a => Sys2Proof.Machine.execFneg d a s
  | .fclass d a => Sys2Proof.Machine.execFclass d a s
  | .shfl d a b fn => Sys2Proof.Machine.execShfl d a b fn s
  | .vote d a b fn => Sys2Proof.Machine.execVote d a b fn s
  | .red d a b fn => Sys2Proof.Machine.execRed d a b fn s
  | .scan d a b fn => Sys2Proof.Machine.execScan d a b fn s
  | .matchKey d a => Sys2Proof.Machine.execMatchKey d a s
  | .bcast d a b => Sys2Proof.Machine.execBcast d a b s
  | .ldl d a b look wd => Sys2Proof.Machine.execLdl d a b look wd s
  | .stl d a b wd => Sys2Proof.Machine.execStl d a b wd s
  | .lds d a b look wd => Sys2Proof.Machine.execLds d a b look wd s
  | .sts d a b wd => Sys2Proof.Machine.execSts d a b wd s
  | .ldc d a b look wd => Sys2Proof.Machine.execLdc d a b look wd s
  | .stc d a b wd => Sys2Proof.Machine.execStc d a b wd s
  | .ldd d a b look wd => Sys2Proof.Machine.execLdd d a b look wd s
  | .std d a b wd => Sys2Proof.Machine.execStd d a b wd s
  | .glq q wd c a x => Sys2Proof.Machine.execGlq q wd c a x s
  | .gsq wd c a d x => Sys2Proof.Machine.execGsq wd c a d x s
  | .waitq q n => Sys2Proof.Machine.execWaitq q n s
  | .popq q wd d => Sys2Proof.Machine.execPopq q wd d s
  | .atom op wd rq sp a b => Sys2Proof.Machine.execAtom op wd rq sp a b s
  | .atomSc op wd rq dom c a b => Sys2Proof.Machine.execAtomSc op wd rq dom c a b s
  | .bind c o a unb => Sys2Proof.Machine.execBind c o a unb s
  | .acq d o a scope => Sys2Proof.Machine.execAcq d o a scope s
  | .rel o a scope => Sys2Proof.Machine.execRel o a scope s
  | .fence scope => Sys2Proof.Machine.execFence scope s
  | .fenceX scope src dst => Sys2Proof.Machine.execFenceX scope src dst s
  | .mpost d => Sys2Proof.Machine.execMpost d s
  | .cmov d a => Sys2Proof.Machine.execCmov d a s
  | .csetb d a off len => Sys2Proof.Machine.execCsetb d a off len s
  | .candp d a perm => Sys2Proof.Machine.execCandp d a perm s
  | .cseal d a k => Sys2Proof.Machine.execCseal d a k s
  | .cunseal d a k => Sys2Proof.Machine.execCunseal d a k s
  | .cget d a f => Sys2Proof.Machine.execCget d a f s
  | .cldc d c a => Sys2Proof.Machine.execCldc d c a s
  | .cstc d c a => Sys2Proof.Machine.execCstc d c a s
  | .kgw pc qc g sa sb stride => Sys2Proof.Machine.execKgw pc qc g sa sb stride s
  | .kgwRd sel d => Sys2Proof.Machine.execKgwRd sel d s
  | .kpack k a mode role acc base => Sys2Proof.Machine.execKpack k a mode role acc base s
  | .kext d k pr mode sel base => Sys2Proof.Machine.execKext d k pr mode sel base s
  | .kmul d a b => Sys2Proof.Machine.execKmul d a b s
  | .kmac d a b => Sys2Proof.Machine.execKmac d a b s
  | .kadd d a b pr sel => Sys2Proof.Machine.execKadd d a b pr sel s
  | .ksub d a b pr sel => Sys2Proof.Machine.execKsub d a b pr sel s
  | .kshl d a pr sel m => Sys2Proof.Machine.execKshl d a pr sel m s
  | .kshr d a pr sel m => Sys2Proof.Machine.execKshr d a pr sel m s
  | .kmov d a pr zero => Sys2Proof.Machine.execKmov d a pr zero s
  | .kld k pr sp a => Sys2Proof.Machine.execKld k pr sp a s
  | .kst k pr sp a => Sys2Proof.Machine.execKst k pr sp a s
  | .tmma a b grp fresh => Sys2Proof.Machine.execTmma a b grp fresh s
  | .tmmaS a b grp fresh => Sys2Proof.Machine.execTmmaS a b grp fresh s
  | .tmmaResume a b => Sys2Proof.Machine.execTmmaResume a b s
  | .twait n => Sys2Proof.Machine.execTwait n s
  | .tzero d form span fresh rel => Sys2Proof.Machine.execTzero d form span fresh rel s
  | .tlda a h fmt sp off st => Sys2Proof.Machine.execTlda a h fmt sp off st s
  | .tsta a h fmt sp off st => Sys2Proof.Machine.execTsta a h fmt sp off st s
  | .scacc d a sm fresh off => Sys2Proof.Machine.execScacc d a sm fresh off s
  | .axr d n b part => Sys2Proof.Machine.execAxr d n b part s
  | .axw a n b part => Sys2Proof.Machine.execAxw a n b part s
  | .tdesc d a => Sys2Proof.Machine.execTdesc d a s
  | .cpy q => Sys2Proof.Machine.execCpy q s
  | .cpySc q => Sys2Proof.Machine.execCpySc q s
  | .cpyX q => Sys2Proof.Machine.execCpyX q s
  | .cpyR q => Sys2Proof.Machine.execCpyR q s
  | .arrive b => Sys2Proof.Machine.execArrive b s
  | .mbx q x => Sys2Proof.Machine.execMbx q x s
  | .mbxw q => Sys2Proof.Machine.execMbxw q s
  | .cwait n => Sys2Proof.Machine.execCwait n s
  | .cstat d sel => Sys2Proof.Machine.execCstat d sel s
  | .launch d sp a => Sys2Proof.Machine.execLaunch d sp a s
  | .launchNb d sp a => Sys2Proof.Machine.execLaunchNb d sp a s
  | .join d a => Sys2Proof.Machine.execJoin d a s
  | .post a => Sys2Proof.Machine.execPost a s
  | .fork a => Sys2Proof.Machine.execFork a s
  | .joint => Sys2Proof.Machine.execJoint s
  | .bequeath f n w k => Sys2Proof.Machine.execBequeath f n w k s
  | .estat d clr => Sys2Proof.Machine.execEstat d clr s
  | .eclaim f n w k l slot => Sys2Proof.Machine.execEclaim f n w k l slot s
  | .erelease l => Sys2Proof.Machine.execErelease l s
  | .ereleaseKey l k => Sys2Proof.Machine.execEreleaseKey l k s
  | .eprobe d k l => Sys2Proof.Machine.execEprobe d k l s
  | .barInit b n => Sys2Proof.Machine.execBarInit b n s
  | .barArrive b => Sys2Proof.Machine.execBarArrive b s
  | .barWait b pw => Sys2Proof.Machine.execBarWait b pw s
  | .trap code => Sys2Proof.Machine.execTrap code s
  | .rdsr d sr => Sys2Proof.Machine.execRdsr d sr s
  | .wrsr a sr => Sys2Proof.Machine.execWrsr a sr s
  | .emuget d o => Sys2Proof.Machine.execEmuget d o s
  | .emuput o a => Sys2Proof.Machine.execEmuput o a s
  | .emurd d kind idx part => Sys2Proof.Machine.execEmurd d kind idx part s
  | .emuwr a kind idx part => Sys2Proof.Machine.execEmuwr a kind idx part s
  | .emuret nc at_ a => Sys2Proof.Machine.execEmuret nc at_ a s
  | .dfma d a b c => Sys2Proof.Machine.execDfma d a b c s
  | .dop d a b fn => Sys2Proof.Machine.execDop d a b fn s
  | .dcmp d a b fn => Sys2Proof.Machine.execDcmp d a b fn s
  | .dcvt d a dir => Sys2Proof.Machine.execDcvt d a dir s
  | .endOfText word => Sys2Proof.Machine.execEndOfText word s
  | .reservedWord word => Sys2Proof.Machine.execReservedWord word s
  | .emulationEntry word reason => Sys2Proof.Machine.execEmulationEntry word reason s
  | .collieHandlerEntry word reason => Sys2Proof.Machine.execCollieHandlerEntry word reason s
  | .guardHandlerEntry word => Sys2Proof.Machine.execGuardHandlerEntry word s
  | .mcVectorEntry entry word etrap reason => Sys2Proof.Machine.execMcVectorEntry entry word etrap reason s
  | .runStart core => Sys2Proof.Machine.execRunStart core s
  | .resultArrival who id => Sys2Proof.Machine.execResultArrival who id s
  | .windowSpillFillDone core slot lead => Sys2Proof.Machine.execWindowSpillFillDone core slot lead s
  | .yieldWake core slot lead => Sys2Proof.Machine.execYieldWake core slot lead s
  | .monitorWriteWake who => Sys2Proof.Machine.execMonitorWriteWake who s
  | .waitmonTimeout who => Sys2Proof.Machine.execWaitmonTimeout who s
  | .spuriousWake who => Sys2Proof.Machine.execSpuriousWake who s
  | .queueDataArrival core slot q idx => Sys2Proof.Machine.execQueueDataArrival core slot q idx s
  | .storePerform id => Sys2Proof.Machine.execStorePerform id s
  | .fbRemoteAccessArrival src owner acc => Sys2Proof.Machine.execFbRemoteAccessArrival src owner acc s
  | .fbAcknowledgement id => Sys2Proof.Machine.execFbAcknowledgement id s
  | .fbGrant dst flits => Sys2Proof.Machine.execFbGrant dst flits s
  | .fbAccessTimeout id => Sys2Proof.Machine.execFbAccessTimeout id s
  | .domainLinkDown device => Sys2Proof.Machine.execDomainLinkDown device s
  | .trapReportWrite idx => Sys2Proof.Machine.execTrapReportWrite idx s
  | .versionCommit wg => Sys2Proof.Machine.execVersionCommit wg s
  | .workgroupSave wg => Sys2Proof.Machine.execWorkgroupSave wg s
  | .preemptionDeadline part => Sys2Proof.Machine.execPreemptionDeadline part s
  | .urgentScanOut core => Sys2Proof.Machine.execUrgentScanOut core s
  | .translationFaultRecord idx => Sys2Proof.Machine.execTranslationFaultRecord idx s
  | .packetAccept die part => Sys2Proof.Machine.execPacketAccept die part s
  | .workgroupPlacement die => Sys2Proof.Machine.execWorkgroupPlacement die s
  | .warpBirth wg => Sys2Proof.Machine.execWarpBirth wg s
  | .warpRelease core slot => Sys2Proof.Machine.execWarpRelease core slot s
  | .dieStealRequest ctx lineage thief => Sys2Proof.Machine.execDieStealRequest ctx lineage thief s
  | .dieStealReply idx => Sys2Proof.Machine.execDieStealReply idx s
  | .workgroupSuspend wg => Sys2Proof.Machine.execWorkgroupSuspend wg s
  | .workgroupRestore wg => Sys2Proof.Machine.execWorkgroupRestore wg s
  | .taskStart core part => Sys2Proof.Machine.execTaskStart core part s
  | .taskStealRequest thief part => Sys2Proof.Machine.execTaskStealRequest thief part s
  | .taskStealReply idx => Sys2Proof.Machine.execTaskStealReply idx s
  | .stealBackoffExpiry core part => Sys2Proof.Machine.execStealBackoffExpiry core part s
  | .gridRetire ctx lineage => Sys2Proof.Machine.execGridRetire ctx lineage s
  | .energyRefill => Sys2Proof.Machine.execEnergyRefill s
  | .copyUnitMove id => Sys2Proof.Machine.execCopyUnitMove id s
  | .copyComplete id => Sys2Proof.Machine.execCopyComplete id s
  | .tileOpStart id => Sys2Proof.Machine.execTileOpStart id s
  | .tileDrain id => Sys2Proof.Machine.execTileDrain id s
  | .tileOpComplete id => Sys2Proof.Machine.execTileOpComplete id s
  | .estateArrival id => Sys2Proof.Machine.execEstateArrival id s
  | .estateExpiry ctx key => Sys2Proof.Machine.execEstateExpiry ctx key s
  | .strayRecordWrite ctx => Sys2Proof.Machine.execStrayRecordWrite ctx s
  | .lqdoor fn die value => Sys2Proof.Machine.execLqdoor fn die value s
  | .fqanswer fn seq unresolvable => Sys2Proof.Machine.execFqanswer fn seq unresolvable s
  | .pstatLostClear fn => Sys2Proof.Machine.execPstatLostClear fn s
  | .registerWrite fn off value => Sys2Proof.Machine.execRegisterWrite fn off value s
  | .apertureAccess fn off write data => Sys2Proof.Machine.execApertureAccess fn off write data s
  | .preempt fn => Sys2Proof.Machine.execPreempt fn s
  | .urgent fn => Sys2Proof.Machine.execUrgent fn s
  | .resume fn => Sys2Proof.Machine.execResume fn s
  | .inval fn => Sys2Proof.Machine.execInval fn s
  | .replace fn => Sys2Proof.Machine.execReplace fn s
  | .ctxkill fn => Sys2Proof.Machine.execCtxkill fn s
  | .layout fn => Sys2Proof.Machine.execLayout fn s
  | .carve fn => Sys2Proof.Machine.execCarve fn s
  | .carveSwitch => Sys2Proof.Machine.execCarveSwitch s
  | .preset fn => Sys2Proof.Machine.execPreset fn s
  | .dommap fn => Sys2Proof.Machine.execDommap fn s
  | .commandComplete fn => Sys2Proof.Machine.execCommandComplete fn s
  | .replaceRetired idx => Sys2Proof.Machine.execReplaceRetired idx s
  | .eventRingWrite fn => Sys2Proof.Machine.execEventRingWrite fn s
  | .partitionReset part cause => Sys2Proof.Machine.execPartitionReset part cause s
  | .functionLevelReset vf => Sys2Proof.Machine.execFunctionLevelReset vf s
  | .vfDisable => Sys2Proof.Machine.execVfDisable s
  | .memoryError pa accessor => Sys2Proof.Machine.execMemoryError pa accessor s
  | .scrubComplete part => Sys2Proof.Machine.execScrubComplete part s
  | .ideKm stream rx keySet key => Sys2Proof.Machine.execIdeKm stream rx keySet key s
  | .ereset unit index => Sys2Proof.Machine.execEreset unit index s
  | .engineReset => Sys2Proof.Machine.execEngineReset s
  | .engineActivation component ok => Sys2Proof.Machine.execEngineActivation component ok s
  | .packageColdReset => Sys2Proof.Machine.execPackageColdReset s
  | .warm => Sys2Proof.Machine.execWarm s
  | .selfTestComplete failing => Sys2Proof.Machine.execSelfTestComplete failing s
  | .controllerReset => Sys2Proof.Machine.execControllerReset s
  | .watchdog => Sys2Proof.Machine.execWatchdog s
  | .telemetryRefresh => Sys2Proof.Machine.execTelemetryRefresh s
  | .gettelem index => Sys2Proof.Machine.execGettelem index s
  | .getVersion req => Sys2Proof.Machine.execGetVersion req s
  | .getCapabilities req => Sys2Proof.Machine.execGetCapabilities req s
  | .negotiateAlgorithms req => Sys2Proof.Machine.execNegotiateAlgorithms req s
  | .getCertificate req => Sys2Proof.Machine.execGetCertificate req s
  | .challenge req => Sys2Proof.Machine.execChallenge req s
  | .getMeasurements req index => Sys2Proof.Machine.execGetMeasurements req index s
  | .keyExchange req => Sys2Proof.Machine.execKeyExchange req s
  | .heartbeat session => Sys2Proof.Machine.execHeartbeat session s
  | .release session part ctx gen key => Sys2Proof.Machine.execRelease session part ctx gen key s
  | .requestUpdate session => Sys2Proof.Machine.execRequestUpdate session s
  | .verifyComplete signatureOk svn => Sys2Proof.Machine.execVerifyComplete signatureOk svn s
  | .activateFirmware => Sys2Proof.Machine.execActivateFirmware s
  | .requestDelivery req => Sys2Proof.Machine.execRequestDelivery req s
  | .move src dst len => Sys2Proof.Machine.execMove src dst len s
  | .hash src dst len => Sys2Proof.Machine.execHash src dst len s
  | .rand dst len => Sys2Proof.Machine.execRand dst len s
  | .mrread src dst => Sys2Proof.Machine.execMrread src dst s
  | .muReset mask => Sys2Proof.Machine.execMuReset mask s
  | .absorb mask src len => Sys2Proof.Machine.execAbsorb mask src len s
  | .copy mask src => Sys2Proof.Machine.execCopy mask src s
  | .sign sctx src dst => Sys2Proof.Machine.execSign sctx src dst s
  | .send mask src len => Sys2Proof.Machine.execSend mask src len s
  | .musync d => Sys2Proof.Machine.execMusync d s
  | .accessDataArrival who => Sys2Proof.Machine.execAccessDataArrival who s
  | .scTicketRequest id => Sys2Proof.Machine.execScTicketRequest id s
  | .muCommandComplete => Sys2Proof.Machine.execMuCommandComplete s
  | .imageTransfer off data => Sys2Proof.Machine.execImageTransfer off data s
  | .completionArrival tag keySet => Sys2Proof.Machine.execCompletionArrival tag keySet s
  | .completionTimeout tag => Sys2Proof.Machine.execCompletionTimeout tag s

end Sys2Proof.Machine
end

