-- ==== Sys2Proof/Machine/Boot.lean ====
section
/-!
DEFINITION. A small machine around one word, for State.withFetchWord: a context with its tables, one workgroup with one warp
and one Collie thread, and the word where its agent fetches next; and the events that are no act by themselves.
-/
namespace Sys2Proof.Machine

/-- Where the placed word stands, and the tables of the placed context (R341). -/
abbrev bootPc : Nat := 0x1000
abbrev bootTable : Nat := 0x10000

/-- The entries of the placed context's tables: A, B and a 1 GiB leaf at C that maps the first gigabyte to itself with every
permission (R341, R342). -/
def bootTables : List (Nat × Nat) :=
  [(bootTable, bootTable + 0x1003), (bootTable + 0x1000, bootTable + 0x2003), (bootTable + 0x2000, 0x1D)]

/-- The context of the placed word. -/
def bootCtx : Context := { num := 0, owner := 0, loaded := true, troot := bootTable }

/-- The workgroup of the placed word: one warp of 32 lanes on core 0. -/
def bootWg (uid : Nat) : Workgroup :=
  { uid := uid, grid := uid, ctx := 0, part := 0, core := 0, lineage := 1, wi := 0, width := 32, warps := 1, alloc := 64
    groupB := 256, privB := 0, sliceB := 0, rows := [0], privRows := [], bars := [{ count := 1 }], thread := some 0
    entry := BitVec.ofNat 48 bootPc, born := true }

/-- The frame of an emulation handler (R221), for the words that only a handler may execute. -/
def bootFrame : Frame :=
  { epc := BitVec.ofNat 48 bootPc, eword := 0, emask := 0, ecause := 1, etrap := 0, mode := 0, lanemask := 0xF, stack := []
    base := 0, run := {}, temps := [], cover0 := 0, cover1 := 0, members := List.range 8, owin := [] }

/-- The warp of the placed word, inside an open run; in a handler if the word needs one. -/
def bootWarp (uid : Nat) (handler : Bool) : Warp :=
  { core := 0, slot := 0, wg := uid, index := 0, birth := uid, wid := 0, wgWarps := 1, width := 32, alloc := 64
    slices := List.replicate 8 { pc := BitVec.ofNat 48 bootPc, frames := if handler then [bootFrame] else [] }
    gangs := [{ slices := List.range 8, run := some {} }] }

/-- The Collie thread of the placed word. -/
def bootCollie (uid : Nat) : Collie := { core := 0, thread := 0, wg := uid, x := { pc := BitVec.ofNat 48 bootPc } }

/-- The agent that may execute the words of a major (R51). -/
def bootAgent (major : Nat) : Agent := if 0xD0 ≤ major ∧ major < 0xE0 then .collie 0 0 else .gang 0 0 0

/-- The memory of the placed context, with the word. -/
def Memory.boot (m : Memory) (word : Nat) : Memory :=
  let t := { m with tlb := m.tlb.filter fun e => !(e.part == 0 && e.ctx == 0) }
  (bootTables.foldl (fun x e => x.writeNat hostShared e.1 8 e.2) t).writeNat 0 bootPc 4 word

/-- The machine with the placed context and the word that its agent fetches next, in the next step. -/
def State.boot (s : State) (word : Nat) : State :=
  let uid := s.sched.uid
  let major := field word 24 8
  { s with
    mem := s.mem.boot word
    layout := { s.layout with ranges := ⟨0, 0x40000000, hostShared⟩ :: s.layout.ranges }
    ctxs := bootCtx :: s.ctxs
    wgs := bootWg uid :: s.wgs
    warps := bootWarp uid (handlerOnly major) :: s.warps
    collies := bootCollie uid :: s.collies
    sched := { s.sched with uid := uid + 1, agenda := [⟨1, .word (bootAgent major)⟩] } }

/-- A step that an agent takes at its own word, or a word: it is no act of its own (it takes place where the agent fetches). -/
def atAgent (i : Instr) : Bool :=
  (encode i).isSome ||
  match i with
  | .endOfText _ => true
  | .reservedWord _ => true
  | .emulationEntry _ _ => true
  | .collieHandlerEntry _ _ => true
  | .guardHandlerEntry _ => true
  | .mcVectorEntry _ _ _ _ => true
  | _ => false

/-- What a fetched word stands for (R45): major 0x00 and 0xFF, an undefined or disabled word, or an instruction. The reasons
are those of R48: 1 an unallocated major, 4 and 3 a major that is fused off or disabled, 2 anything else. -/
def instrOf (a : Agent) (opdis : BitVec 256) (word : BitVec 32) : Instr :=
  let major := field word.toNat 24 8
  if major = 0 then .endOfText word
  else if major = 0xFF then .reservedWord word
  else
    let undefined (reason : Nat) : Instr :=
      let r := if Config.fusedOff.contains major then 4 else if disabled opdis major then 3 else reason
      match a with
      | .gang _ _ _ => .emulationEntry word r
      | .collie _ _ => .collieHandlerEntry word r
      | .mc => .mcVectorEntry 1 word 0x62 r
    match decodeWord word.toNat with
    | .error .unallocatedMajor => undefined 1
    | .error _ => undefined 2
    | .ok i => i

/-- A thread that is neither stopped, parked nor held (R232). -/
def State.collieRuns (s : State) (c : Collie) : Bool :=
  !c.stopped && c.park == .none && c.x.hold == .none && !(s.ctxOf c.wg).gated && !s.collieStops c .nop

/-- A Collie thread is ready (R232): it runs, and its next word neither waits for a pending result nor parks it. A word that
cannot be fetched or decoded waits for nothing here. -/
def State.collieReady (s : State) (c : Collie) : Bool :=
  s.collieRuns c &&
  match s.fetchFor c.core c.wg c.x.pc with
  | .got word _ =>
    (match decodeWord word.toNat with
    | .error _ => true
    | .ok i =>
      !waitsFor .collie i c.x.run [0] scalarNames c.x.pend && !s.collieStops c i &&
      ((Exe.scal c.x).lanes.isEmpty ||
        match i with
        | .mbxw _ => !(s.wg c.wg).mailbox.isEmpty
        | .cwait n => decide (c.started - c.retired ≤ n.toNat)
        | _ => true))
  | _ => true

/-- The cycle of the last word that a core's gangs (or, at 1000 + core, its Collie) issued, and 1 + the port (or thread) that
issued it. -/
def State.lastIssue (s : State) (key : Nat) : Nat × Nat := sparseGet (0, 0) s.sched.issued key

/-- Words of one cycle on a core issue in the order of their ports, one for each port, so that of two writes in one cycle the
higher port's is the last (R83, R257). DEDUCED (log entry 127). -/
def State.portFree (s : State) (core port : Nat) : Bool :=
  let l := s.lastIssue core
  decide (l.1 < s.sched.now) || decide (l.2 ≤ port)

/-- The Collie of a core issues at most one word in a cycle, and among its ready threads the next one in round-robin order
after the thread that issued last (R232): threads count up from there and wrap at 16. DEDUCED (log entry 127). -/
def State.threadFree (s : State) (core thread : Nat) : Bool :=
  let l := s.lastIssue (1000 + core)
  let rank (t : Nat) : Nat := (t + 16 - l.2 % 16) % 16
  (decide (l.1 < s.sched.now) || l.2 == 0) &&
    s.collies.all fun c => c.core != core || decide (rank thread ≤ rank c.thread) || !s.collieReady c

/-- A gang holds its port: of open runs on one port, which a stop in place may leave (R220), the one begun last goes on first. -/
def State.holdsPort (s : State) (core : Nat) (g : Gang) : Bool :=
  (s.openRuns core).all fun h => h.port != g.port || decide (h.began ≤ g.began)

/-- An agent that can issue: its seat is ready and its port's turn has come, or its thread runs and is the next one (R33, R83,
R86, R232). -/
def State.canIssue (s : State) (a : Agent) : Bool :=
  match a with
  | .gang core slot lead =>
    (match s.seat core slot lead with
    | some q => q.ready && !(s.ctxOf q.w.wg).gated && s.portFree core q.g.port && s.holdsPort core q.g
    | none => false)
  | .collie core thread =>
    (match s.findCollie core thread with
    | some c => s.collieRuns c && s.threadFree core thread
    | none => false)
  | .mc => s.mc.x.hold == .none && !s.mc.parked

/-- A trap of the word that an agent is to fetch. -/
def State.trapFetch (s : State) (a : Agent) (t : Trap) : State :=
  match a with
  | .gang core slot lead => ((s.seat core slot lead).map fun q => s.raiseAt q t).getD s
  | .collie core thread => ((s.findCollie core thread).map fun c => s.raiseCollie c t).getD s
  | .mc => s

/-- A fetch that fails translation is recorded, and its agent is held until the host answers (R213, R344). -/
def State.parkFetch (s : State) (a : Agent) (uid core : Nat) (pc : BitVec 48) (rl : Nat × Nat) : State :=
  let g := s.wg uid
  let n := s.sched.uid
  let t := s.noteFault core g.part g.ctx pc.toNat 0 4 rl
  match a with
  | .gang c slot lead =>
    (match t.seat c slot lead with
    | some q => t.putSeat { q with g := { q.g with hold := .xlate n } }
    | none => t)
  | .collie c th =>
    (match t.findCollie c th with
    | some d => t.putCollie { d with x := { d.x with hold := .xlate n } }
    | none => t)
  | .mc => t

/-- The instruction of a fetched word, or the state in which the fetch has failed: a translation fault holds the agent, a device
without room lets it wait, and one that is lost is FABRIC-LOST (R375, R376). -/
def State.fetched (s : State) (a : Agent) (uid core : Nat) (pc : BitVec 48) : Except State (Instr × State) :=
  match s.fetchFor core uid pc with
  | .got word t => .ok (instrOf a (s.wg uid).opdis word, t)
  | .xlate _ r l => .error (s.parkFetch a uid core pc (r, l))
  | .lost dev => .error (s.trapFetch a { cause := 0x63, arg0 := dev, addr := pc.toNat })
  | .full => .error s

/-- The word an agent fetches: the instruction it stands for and the state after the fetch, or the state in which the fetch
has failed. The controller's fetch beyond its SRAM is BOUNDS, at vector entry 5 (R378, R387). -/
def State.fetch (s : State) (a : Agent) : Except State (Instr × State) :=
  match a with
  | .gang core slot lead =>
    (match s.seat core slot lead with
    | none => .error s
    | some q => s.fetched a q.w.wg core q.pc)
  | .collie core thread =>
    (match s.findCollie core thread with
    | none => .error s
    | some c => s.fetched a c.wg core c.x.pc)
  | .mc =>
    match s.fetchMc with
    | some word => .ok (instrOf a 0 word, s)
    | none => .ok (.mcVectorEntry 5 0 0x10 0, s)

/-- What the machine has begun and may take further without a word of an agent: accesses, their tickets and their answers, copies,
tile words and commits (R202, R207, R240, R277). -/
def State.due (s : State) : List (List Due) :=
  let running := s.pillows.ops.filter (·.running)
  [ (s.mem.access.filter s.performable).map fun a => .access a.id,
    (s.mem.access.filter s.mayAsk).map fun a => .ticket a.id,
    (s.mem.access.filter fun a => a.sent.isSome).map fun a => .answer a.id,
    (s.copies.filter fun k => s.movable k && s.copyFirst k).map fun k => .unit k.id,
    (s.copies.filter fun k => !k.done).map fun k => .copy k.id,
    (s.pillows.ops.filter fun o => !o.running).map fun o => .start o.id,
    running.map fun o => .drain o.id,
    running.map fun o => .complete o.id,
    s.wgs.map fun g => .commit g.uid ]

/-- What is due is taken further by its own step. -/
def takeDue (d : Due) (s : State) : Out :=
  match d with
  | .access id => execStorePerform id s
  | .ticket id => execScTicketRequest id s
  | .answer id => execFbAcknowledgement id s
  | .unit id => execCopyUnitMove id s
  | .copy id => execCopyComplete id s
  | .start id => execTileOpStart id s
  | .drain id => execTileDrain id s
  | .complete id => execTileOpComplete id s
  | .commit wg => execVersionCommit wg s

/-- The act of a turn that the agenda does not name, and the schedule after it: the schedule's, but for one turn in so many, in
which something that is due is taken further, one kind and one of that kind after the other, an access that can be performed
in its order (R207). DESIGN CHOICE (log entry 128). -/
def State.nextAct (s : State) : Act × Sched :=
  let act := (Config.schedule s.sched.steps).act
  match s.sched.gap with
  | n + 1 => (act, { s.sched with gap := n })
  | 0 =>
    let r := s.sched.rounds
    let d := { s.sched with gap := Config.fairGap r, rounds := r + 1 }
    let l := s.due.getD (r % 9) []
    match l[if r % 9 < 3 then 0 else r / 9 % l.length]? with
    | some x => (.due x, d)
    | none => (act, d)

/-- In the same turns the oldest write that reads could still overlook can be overlooked no longer: a read that is repeated comes to
return it (R207). DESIGN CHOICE (log entry 128). -/
def State.wearOff (s : State) : Memory :=
  match s.sched.gap with
  | 0 => { s.mem with past := s.mem.past.dropLast, horizon := max s.mem.horizon ((s.mem.past.getLast?.map (·.at_)).getD 0) }
  | _ => s.mem

/-- The next turn: the agenda's, else the next act's; its cycles pass. -/
def State.turn (s : State) : Act × State :=
  match s.sched.agenda with
  | t :: rest => (t.act, ({ s with sched := { s.sched with agenda := rest, cur := none, dep := [] } }).tick t.cycles)
  | [] =>
    let n := s.nextAct
    (n.1, ({ s with mem := s.wearOff, sched := { n.2 with cur := none, dep := [] } }).tick (Config.schedule s.sched.steps).cycles)

/-- The table of last issues once agent a has taken a word. -/
def State.noteIssue (s : State) (a : Agent) : Sparse (Nat × Nat) :=
  match a with
  | .gang core slot lead =>
    (match s.seat core slot lead with
    | some q => sparseSet (0, 0) s.sched.issued core (s.sched.now, q.g.port + 1)
    | none => s.sched.issued)
  | .collie core thread => sparseSet (0, 0) s.sched.issued (1000 + core) (s.sched.now, thread + 1)
  | .mc => s.sched.issued

/-- The state in which agent a's word i runs: its dependencies have been passed on (R195). -/
def State.runs (s : State) (a : Agent) (i : Instr) : State :=
  let t := s.passDeps a i
  { t with sched := { t.sched with cur := some a, issued := s.noteIssue a } }

/-- An agent takes its next word, if it can issue (R33, R45). -/
def takeWord (a : Agent) (s : State) : Out :=
  if !s.canIssue a then .next s
  else
    match s.fetch a with
    | .error t => .next t
    | .ok (i, t) => exec i (t.runs a i)

/-- The agents of a workgroup's task that take words: its gangs and its Collie thread. -/
def State.wordAgents (s : State) (uid : Nat) : List Agent :=
  ((s.warps.filter (·.wg == uid)).flatMap fun w => w.gangs.map fun g => .gang w.core w.slot (g.slices.headD 0)) ++
    (s.collies.filter (·.wg == uid)).map fun c => .collie c.core c.thread

/-- Two agents issue in one cycle only through two ports (R83). -/
def State.apart (s : State) : Agent → Agent → Bool
  | .gang c j l, .gang c' j' l' =>
    match s.seat c j l, s.seat c' j' l' with
    | some q, some r => q.g.port != r.g.port
    | _, _ => true
  | a, b => a != b

/-- A first trap that the word of agent b would raise in the task. -/
def State.wordTrap (s : State) (uid : Nat) (b : Agent) : Option Report :=
  match takeWord b s with
  | .next t => (t.wg uid).fault
  | _ => none

/-- Where the first trap of a task was raised in going from s to t, the words that other agents of the task take in the same cycle
raise their traps too (R210); they have no other effect, for the task has ended. Which of them issue in that cycle is free. -/
def State.sameCycle (s t : State) (a : Option Agent) : State :=
  (s.wgs.filter fun g => g.fault.isNone && !g.ended && (t.wg g.uid).fault.isSome).foldl (fun u g =>
    (s.wordAgents g.uid).foldl (fun v b =>
      if (a.all (s.apart · b)) && Config.freeChoice v.sched.free 0 % 2 = 1 then
        match s.wordTrap g.uid b with
        | some r => v.nextFree.addReport g.uid r
        | none => v.nextFree
      else v.nextFree) u) t

/-- A turn's outcome with the traps of the same cycle. -/
def State.withSameCycle (s : State) (a : Option Agent) : Out → Out
  | .next t => .next (s.sameCycle t a)
  | o => o

end Sys2Proof.Machine
end

