-- ==== Sys2Proof/Machine/Step.lean ====
section
/-!
DEFINITION. One step of the machine: a turn of the schedule, in which one agent takes its next word or one other act takes
place (R33, R45, R391).
-/
namespace Sys2Proof.Machine

/-- An agent takes its next word, if it can issue; an act that is no word of an agent takes place by its own
meaning; traps of the same cycle come with it (R210). DEDUCED (log entry 2). -/
def takeAct (a : Act) (s : State) : Host.Outcome State Fault Refusal :=
  match a with
  | .event i => s.withSameCycle none (if atAgent i then .next s else exec i s)
  | .due d => s.withSameCycle none (takeDue d s)
  | .word ag => s.withSameCycle (some ag) (takeWord ag s)

/-- One step: the next turn's cycles pass and its act takes place. DEDUCED (log entry 1). -/
def step (s : State) : Host.Outcome State Fault Refusal := takeAct s.turn.1 s.turn.2

/-- s with the instruction whose bits are w (R23: one word of 32 bits) where the next step fetches. DEDUCED (log entry 3). -/
def State.withFetchWord (s : State) (nbits w : Nat) : State := s.boot (w % 2 ^ min nbits 32)

end Sys2Proof.Machine
end

