-- ==== Sys2Proof/WellFormed.lean ====
section
/-!
DEFINITION. Which instructions are well formed (R45 step 6): the fields of the word have values that the executing agent's
profile defines. The checks themselves are Sys2Proof.Machine.fieldsOk, one per operand form; a step that has no word is no
well-formed instruction word.
-/
namespace Sys2Proof

open Sys2Proof.Machine

/-- The instruction has a word, and its fields are defined under the profile. -/
def WellFormed (pr : Profile) (i : Instr) : Bool := (encode i).isSome && fieldsOk pr i

end Sys2Proof
end

