-- ==== Sys2Proof/Safety.lean ====
section
/-!
DEFINITION. The terms that claims about runs are stated in: when a word of an agent executes (R33, R38, R45, R86, R389), the
state after a word that goes on at the next word, and what it means that a word computes on its agent's registers.
-/
namespace Sys2Proof.Machine

/-! ### When a word executes -/

/-- The gang of seat q executes instruction i in s: it is the current agent, it stands in its slot inside an open run, nothing
parks or holds it (R33, R86), steps 3 to 10 of R45 let the word through, no promise of R38 is broken, the next word's address
exists where the word goes on there (R147) and no pending result is waited for (R34, R35). -/
structure GangRuns (i : Instr) (s : State) (q : Seat) : Prop where
  cur : s.sched.cur = some (.gang q.w.core q.w.slot q.lead)
  seat : s.seat q.w.core q.w.slot q.lead = some q
  ready : q.ready = true
  live : (s.ctxOf q.w.wg).gated = false
  fate : fateOf q.profile q.inHandler (s.wg q.w.wg).opdis (q.g.slices.map fun j => (q.w.slice j).mode) i = .go
  stays : q.g.mustExit = true → i = .exit
  kept : brokenPromise q.profile i q.run (coverOf q.w i) = none
  inText : fallsThrough i q.exe = false ∨ pcWraps q.pc = false
  free : q.waits i = false

/-- The Collie thread c executes i in s (R232, R234, R389); under a cooperative pre-emption it starts no copy, and takes no word
once its copies have completed (R218). -/
structure CollieRuns (i : Instr) (s : State) (c : Collie) : Prop where
  cur : s.sched.cur = some (.collie c.core c.thread)
  found : s.findCollie c.core c.thread = some c
  running : c.stopped = false
  unparked : c.park = .none
  unheld : c.x.hold = .none
  live : (s.ctxOf c.wg).gated = false
  goesOn : s.collieStops c i = false
  fate : fateOf .collie c.frame.isSome (s.wg c.wg).opdis [c.x.mode] i = .go
  kept : brokenPromise .collie i c.x.run 0 = none
  inText : fallsThrough i (.scal c.x) = false ∨ pcWraps c.x.pc = false
  free : waitsFor .collie i c.x.run [0] scalarNames c.x.pend = false

/-- The management controller executes i in s (R51, R378). -/
structure McRuns (i : Instr) (s : State) : Prop where
  cur : s.sched.cur = some Agent.mc
  unheld : s.mc.x.hold = .none
  unparked : s.mc.parked = false
  fate : fateOf .mc false 0 [s.mc.x.mode] i = .go
  kept : brokenPromise .mc i s.mc.x.run 0 = none
  inText : fallsThrough i (.scal s.mc.x) = false ∨ pcWraps s.mc.x.pc = false
  free : waitsFor .mc i s.mc.x.run [0] scalarNames s.mc.x.pend = false

/-! ### The state after a word that goes on at the next word -/

/-- The seat as the word's own effect sees it: temporaries that the word makes valid hold free values in the lanes that it
does not write (R36). -/
def State.primed (s : State) (q : Seat) (i : Instr) : Seat := q.freshTemps s.sched.free i

/-- The state after word i of the gang of seat q, with w for its warp: the gang's slices are at the next word, the run is one
word longer (R33, R36), and the counter of free values has moved on. Nothing else of s differs. -/
def State.afterGang (s : State) (q : Seat) (i : Instr) (w : Warp) : State :=
  s.nextFree.putSeat (Seat.advance ⟨w, (s.primed q i).g⟩ i none)

/-- The state after word i of Collie thread c, with x for its registers. -/
def State.afterCollie (s : State) (c : Collie) (i : Instr) (x : Scalar) : State :=
  s.putCollie (Collie.advance { c with x := x } i none)

/-- The state after a word of the controller, with x for its registers. -/
def State.afterMc (s : State) (x : Scalar) : State := { s with mc := { s.mc with x := x.advance none } }

/-! ### Words that compute on registers -/

/-- Instruction i computes f on its agent's registers and goes on at the next word, on every agent that executes it. -/
def Computes (i : Instr) (f : Exe → Exe) : Prop :=
  (∀ s q, GangRuns i s q → exec i s = .next (s.afterGang q i ((f (s.primed q i).exe).warpOf (s.primed q i).w))) ∧
  (∀ s c, CollieRuns i s c → exec i s = .next (s.afterCollie c i ((f (.scal c.x)).scalarOf c.x))) ∧
  (∀ s, McRuns i s → exec i s = .next (s.afterMc ((f (.scal s.mc.x)).scalarOf s.mc.x)))

/-- Each executing lane L of register d takes the value v x L, with all sources read first (R12, R91). -/
def ComputesLanes (i : Instr) (d : RegCode) (v : Exe → Nat → BitVec 32) : Prop :=
  Computes i fun x => x.wr d.toNat (x.lanes.map fun L => (L, v x L))

/-- Bit L of predicate d takes the value v x L for each executing lane L (R106). -/
def ComputesPred (i : Instr) (d : RegCode) (v : Exe → Nat → Bool) : Prop :=
  Computes i fun x => x.wrPr d.toNat (x.lanes.map fun L => (L, v x L))

/-- Each executing lane L of the register pair d takes the 64-bit value v x L (R110). -/
def ComputesPair (i : Instr) (d : RegCode) (v : Exe → Nat → BitVec 64) : Prop :=
  Computes i fun x => x.wr64 d.toNat (x.lanes.map fun L => (L, v x L))

/-! ### Long-latency words (R34, R137) -/

/-- The state after a long-latency word of a gang: its destination d is pending under the next number, to take the values
vals, the word has opened a look window, and the gang is at the next word. -/
def State.laterGang (s : State) (q : Seat) (i : Instr) (d look : Nat) (vals : List (Nat × BitVec 32)) : State :=
  let p := s.primed q i
  s.nextFree.nextUid.putSeat (Seat.advance ⟨p.pendLong s.sched.uid [d] (p.w.dests d vals), p.g⟩ i
    (some ⟨s.sched.uid, dstCodes q.profile i, look⟩))

/-- The same for a scalar agent's registers. -/
def Scalar.later (x : Scalar) (pr : Profile) (i : Instr) (id d look : Nat) (vals : List (Nat × BitVec 32)) : Scalar :=
  (x.pendLong id [d] vals).advance (some ⟨id, dstCodes pr i, look⟩)

/-- Instruction i computes v x L for each executing lane L from the registers as they are now, and the values arrive in
register d later. -/
def ComputesLater (i : Instr) (d : RegCode) (look : BitVec 4) (v : Exe → Nat → BitVec 32) : Prop :=
  (∀ s q, GangRuns i s q → exec i s = .next (s.laterGang q i d.toNat look.toNat
    ((s.primed q i).exe.lanes.map fun L => (L, v (s.primed q i).exe L)))) ∧
  (∀ s c, CollieRuns i s c → exec i s = .next (s.nextUid.putCollie { c with
    x := c.x.later .collie i s.sched.uid d.toNat look.toNat
      ((Exe.lanes (.scal c.x)).map fun L => (d.toNat, v (.scal c.x) L)) })) ∧
  (∀ s, McRuns i s → exec i s = .next { s.nextUid with mc := { s.mc with
    x := s.mc.x.later .mc i s.sched.uid d.toNat look.toNat
      ((Exe.lanes (.scal s.mc.x)).map fun L => (d.toNat, v (.scal s.mc.x) L)) } })

/-! ### Float views (R114 to R117, R128) -/

/-- The format and the rounding that lane L's mode gives a float word. -/
def Exe.fmtAt (x : Exe) (L : Nat) : FloatFmt := fmtOfType (modeType (x.modeAt L))
def Exe.roundAt (x : Exe) (L : Nat) : RoundCfg := roundCfg (x.modeAt L) (modeType (x.modeAt L))

/-- The pattern of operand c in lane L, subnormals flushed as mode.sub says (R115, R128). -/
def Exe.patAt (x : Exe) (c : RegCode) (L : Nat) : Nat :=
  (x.fmtAt L).flushIn (x.roundAt L).sub (floatOperand (modeType (x.modeAt L)) (x.rd c.toNat L))

/-- The exact value of operand c in lane L. -/
def Exe.valAt (x : Exe) (c : RegCode) (L : Nat) : FVal := (x.fmtAt L).decode (x.patAt c L)

/-- An exact value rounded once into lane L's format (R117, R128). -/
def Exe.roundedAt (x : Exe) (L : Nat) (v : FVal) : BitVec 32 := BitVec.ofNat 32 ((x.fmtAt L).ofVal (x.roundAt L) v)

/-- The value of a magnitude pattern of a format below infinity, as a rational number (R114). -/
def FloatFmt.magValue (f : FloatFmt) (mag : Nat) : ℚ :=
  if mag < 2 ^ f.mbits then (mag : ℚ) * 2 ^ f.emin
  else ((mag % 2 ^ f.mbits + 2 ^ f.mbits : Nat) : ℚ) * 2 ^ (f.emin + ((mag / 2 ^ f.mbits : Nat) : Int) - 1)

/-- k numbers the value that a rounding mode picks for (-1)^neg * x among the rising magnitudes val (R117): the one next below x, or
the one above it where that is nearer, or x stands halfway and the lower one is odd (rne) or in any case (rna), or the direction
of the mode leads away from zero. -/
def Picks (val : Nat → ℝ) (rnd : Nat) (neg : Bool) (x : ℝ) (k : Nat) : Prop :=
  ∃ lo, val lo ≤ x ∧ x < val (lo + 1) ∧
    let down := x - val lo
    let up := val (lo + 1) - x
    let away : Prop := down ≠ 0 ∧ (match rnd with
      | 0 => up < down ∨ (up = down ∧ lo % 2 = 1)
      | 1 => False
      | 2 => neg = true
      | 3 => neg = false
      | _ => up ≤ down)
    (away → k = lo + 1) ∧ (¬ away → k = lo)

/-- p is the pattern of format f for the exact value (-1)^neg * x under a rounding mode (R117): rounded with an unbounded exponent;
past the largest finite magnitude an infinity or, by the mode's column of overflow or under saturation, that magnitude. -/
def FloatFmt.Rounds (f : FloatFmt) (rnd : Nat) (sat neg : Bool) (x : ℝ) (p : Nat) : Prop :=
  ∃ k, Picks (fun j => ((f.magValue j : ℚ) : ℝ)) rnd neg x k ∧
    p = f.signed neg (if k < f.infMag then k
      else if sat = true ∨ rnd = 1 ∨ (rnd = 2 ∧ neg = false) ∨ (rnd = 3 ∧ neg = true) then f.infMag - 1 else f.infMag)

/-- p is the pattern of format f for an exact value (R115, R117): a subnormal result is the zero of its sign under sub. -/
def FloatFmt.Narrows (f : FloatFmt) (rnd : Nat) (sat sub : Bool) (v : FVal) (p : Nat) : Prop :=
  match v with
  | .nan => p = f.nan
  | .inf neg => p = f.signed neg f.infMag
  | .fin neg m e => ∃ r, f.Rounds rnd sat neg ((m : ℝ) * (2 : ℝ) ^ e) r ∧
      p = if sub = true ∧ r % 2 ^ f.signBit < 2 ^ f.mbits then f.signed neg 0 else r

/-- r is the FP32 pattern of the value of pattern p of format f, a subnormal p being a zero under sub (R115, R136). -/
def FloatFmt.Widens (f : FloatFmt) (sub : Bool) (p r : Nat) : Prop :=
  match f.decode p with
  | .nan => r = 0x7FC00000
  | .inf neg => r = FloatFmt.f32.signed neg FloatFmt.f32.infMag
  | .fin neg _ _ => ∃ k, k < FloatFmt.f32.infMag ∧ r = FloatFmt.f32.signed neg k ∧
      FloatFmt.f32.magValue k = if sub = true ∧ p % 2 ^ f.signBit < 2 ^ f.mbits then 0 else f.magValue (p % 2 ^ f.signBit)

/-- The value of a nonzero tapered magnitude code b of n bits, as the pseudocode of R118 reads it. -/
def taperedValue (n b : Nat) : ℚ :=
  let lead := b.testBit (n - 1)
  let m := ((List.range n).takeWhile fun i => b.testBit (n - 1 - i) == lead).length
  let regime : Int := if lead then (m : Int) - 1 else -(m : Int)
  let left := n - m - 1
  let e : Int := if 1 ≤ left ∧ b.testBit (left - 1) = true then 1 else 0
  2 ^ (2 * regime + e) * (1 + ((b % 2 ^ (left - 1) : Nat) : ℚ) / 2 ^ (left - 1))

/-- c is the tapered code of n magnitude bits for an exact value (R121). -/
def TaperedCode (n rnd : Nat) (v : FVal) (c : Nat) : Prop :=
  match v with
  | .fin neg m e =>
    let x : ℝ := (m : ℝ) * (2 : ℝ) ^ e
    let val (j : Nat) : ℝ := ((taperedValue n j : ℚ) : ℝ)
    (m = 0 → c = 0) ∧
    (m ≠ 0 → ∃ k, k < 2 ^ n ∧ c = k + (if neg then 2 ^ n else 0) ∧ (val (2 ^ n - 1) ≤ x → k = 2 ^ n - 1) ∧ (x ≤ val 1 → k = 1) ∧
      (val 1 < x → x < val (2 ^ n - 1) → Picks val rnd neg x k))
  | _ => c = 2 ^ n

/-- r is the FP32 pattern of the tapered code x of n magnitude bits (R118). -/
def TaperedPattern (n x r : Nat) : Prop :=
  (x % 2 ^ n = 0 → r = if x.testBit n then 0x7FC00000 else 0) ∧
  (x % 2 ^ n ≠ 0 → ∃ k, k < FloatFmt.f32.infMag ∧ r = FloatFmt.f32.signed (x.testBit n) k ∧
    FloatFmt.f32.magValue k = taperedValue n (x % 2 ^ n))

/-- r is a finite FP32 pattern within tol of y, or y rounded to nearest. -/
def Near (r : BitVec 32) (y tol : ℚ) : Prop :=
  let mag := r.toNat % 2 ^ 31
  (mag < FloatFmt.f32.infMag ∧ |(if r.getLsbD 31 then -FloatFmt.f32.magValue mag else FloatFmt.f32.magValue mag) - y| ≤ tol) ∨
  FloatFmt.f32.Rounds 0 false (decide (y < 0)) ((|y| : ℚ) : ℝ) r.toNat

/-! ### What a word's frame is -/

/-- Where a word that computes on registers writes: a register, a pair of registers, a predicate, a scalar by its number,
the modes of the slices, or nothing. -/
inductive Target where
  | lane (d : RegCode)
  | pair (d : RegCode)
  | pred (d : RegCode)
  | scalar (n : Nat)
  | mode
  | none
deriving DecidableEq, Repr

/-- The target of each word that computes on registers and completes at its issue. -/
def targetOf (i : Instr) : Option Target :=
  match i with
  | .nop => some .none
  | .mode _ _ _ _ _ _ => some .mode
  | .iadd d _ _ => some (.lane d) | .isub d _ _ => some (.lane d)
  | .imin d _ _ => some (.lane d) | .imax d _ _ => some (.lane d)
  | .nmin d _ _ => some (.lane d) | .nmax d _ _ => some (.lane d) | .iabsd d _ _ => some (.lane d)
  | .and d _ _ => some (.lane d) | .or d _ _ => some (.lane d) | .xor d _ _ => some (.lane d)
  | .andn d _ _ => some (.lane d) | .orn d _ _ => some (.lane d)
  | .shl d _ _ => some (.lane d) | .shr d _ _ => some (.lane d) | .sar d _ _ => some (.lane d)
  | .rol d _ _ => some (.lane d) | .ror d _ _ => some (.lane d)
  | .imad24 d _ _ _ => some (.lane d) | .nmad24 d _ _ _ => some (.lane d)
  | .bfe d _ _ _ => some (.lane d) | .bfi d _ _ _ => some (.lane d)
  | .popc d _ => some (.lane d) | .clz d _ => some (.lane d) | .brev d _ => some (.lane d) | .ffs d _ => some (.lane d)
  | .sel d _ _ _ => some (.lane d)
  | .icmp d _ _ _ => some (.pred d)
  | .pand d _ _ => some (.pred d) | .por d _ _ => some (.pred d) | .pxor d _ _ => some (.pred d) | .pandn d _ _ => some (.pred d)
  | .iaddi d _ _ => some (.lane d) | .andi d _ _ => some (.lane d) | .ori d _ _ => some (.lane d)
  | .movi d _ => some (.lane d) | .movhi d _ => some (.lane d)
  | .lea d _ _ _ => some (.lane d)
  | .iadd64 d _ _ => some (.pair d) | .isub64 d _ _ => some (.pair d)
  | .smovSs x _ => some (.scalar x.toNat) | .smovSr x _ => some (.scalar x.toNat) | .smovRs x _ => some (.lane x)
  | .sop _ d _ _ => some (.scalar d.toNat)
  | .ffma d _ _ _ => some (.lane d) | .fadd d _ _ => some (.lane d) | .fsub d _ _ => some (.lane d) | .fmul d _ _ => some (.lane d)
  | .fmin d _ _ => some (.lane d) | .fmax d _ _ => some (.lane d)
  | .fcmp d _ _ _ => some (.pred d)
  | .cvt d _ _ _ => some (.lane d) | .f2i d _ => some (.lane d) | .i2f d _ => some (.lane d) | .f2n d _ => some (.lane d)
  | .n2f d _ => some (.lane d) | .frnd d _ => some (.lane d)
  | .ffma2 d _ _ _ => some (.lane d) | .fadd2 d _ _ => some (.lane d) | .fmul2 d _ _ => some (.lane d)
  | .fmin2 d _ _ => some (.lane d) | .fmax2 d _ _ => some (.lane d)
  | .fabs d _ => some (.lane d) | .fneg d _ => some (.lane d) | .fclass d _ => some (.lane d)
  | .shfl d _ _ _ => some (.lane d)
  | .vote d _ _ fn => some (if fn.toNat ≤ 1 then .pred d else .pair d)
  | .red d _ _ _ => some (.lane d) | .scan d _ _ _ => some (.lane d) | .matchKey d _ => some (.pair d) | .bcast d _ _ => some (.lane d)
  | _ => none

/-- Register code c is no part of a target. -/
def Target.avoids (t : Target) (c : Nat) : Prop :=
  match t with
  | .lane d => c ≠ d.toNat
  | .pair d => d.toNat = 60 ∨ (c ≠ d.toNat ∧ c ≠ d.toNat + 1)
  | .scalar n => c ≠ 52 + n
  | _ => True

/-- Everything of a state that no word on registers touches: all of it but the warps and the counter of free values. -/
def State.sameBut (s t : State) : Prop :=
  t = { s with warps := t.warps, sched := { s.sched with free := t.sched.free } }

/-- Everything of a warp but its registers, scalars, predicates, slices and gangs. -/
def Warp.sameBut (v w : Warp) : Prop :=
  w = { v with regs := w.regs, temps := w.temps, s := w.s, p := w.p, slices := w.slices, gangs := w.gangs }

/-! ### Control transfers (R33, R78, R146) -/

/-- After the last word of a run, t differs from s in the gang of q alone: its slices j are as f j says, v is its warp, and
its live slices stand in gangs outside a run, parked as park says, one gang for each pc among them. -/
structure Parted (s t : State) (q : Seat) (f : Nat → Slice → Slice) (park : Park) (v : Warp) : Prop where
  rest : s.sameBut t
  warp : t.findWarp q.w.core q.w.slot = some v
  others : ∀ core slot, (core, slot) ≠ (q.w.core, q.w.slot) → t.findWarp core slot = s.findWarp core slot
  kept : q.w.sameBut v
  slices : ∀ j, v.slice j = if j ∈ q.g.slices then f j (q.w.slice j) else q.w.slice j
  gangs : ∃ parts : List Gang, v.gangs = (q.w.gangs.filter fun h => h.slices.head? != some q.lead) ++ parts ∧
    (∀ h ∈ parts, h.run = none ∧ h.park = park ∧ h.starv = q.g.starv ∧
      ∀ i ∈ h.slices, ∀ j ∈ h.slices, (v.slice i).pc = (v.slice j).pc) ∧
    (parts.flatMap (·.slices)).Perm (q.g.slices.filter fun j => (v.slice j).live) ∧
    parts.Pairwise fun g h => ∀ i ∈ g.slices, ∀ j ∈ h.slices, (v.slice i).pc ≠ (v.slice j).pc

/-- The registers, scalars and predicates of two warps are the same. -/
def Warp.sameRegisters (v w : Warp) : Prop := v.regs = w.regs ∧ v.temps = w.temps ∧ v.s = w.s ∧ v.p = w.p

/-- The address off words from pc lies in the code space (R147). -/
def inCode (pc : BitVec 48) (off : Int) : Prop := 0 ≤ (pc.toNat : Int) + 4 * off ∧ (pc.toNat : Int) + 4 * off < 2 ^ 48

/-- That address. -/
def codeAt (pc : BitVec 48) (off : Int) : BitVec 48 := BitVec.ofInt 48 (pc.toNat + 4 * off)

/-- The lowest active lane of slice j, lane 4j where none is (R154). -/
def Seat.firstActive (q : Seat) (j : Nat) : Nat := (q.w.active j).headD (4 * j)

/-- Every active lane of slice j holds the same 64-bit value in the pair at code a. -/
def Seat.agrees (q : Seat) (a j : Nat) : Prop :=
  ∀ L ∈ q.w.active j, q.exe.rd64 a L = q.exe.rd64 a (q.firstActive j)

/-! ### Handlers (R221, R223, R229) -/

/-- The gang of q, current and ready, can enter a handler at entry: it is below its context's nesting limit, a handler is
there, its run has room for the word, no result or claim of its slices is owed and the handler's window fits (R221 steps 1 to 3
and 7). -/
structure HandlerOpen (s : State) (q : Seat) (entry : BitVec 48) : Prop where
  cur : s.sched.cur = some (.gang q.w.core q.w.slot q.lead)
  seat : s.seat q.w.core q.w.slot q.lead = some q
  ready : q.ready = true
  live : (s.ctxOf q.w.wg).gated = false
  stays : q.g.mustExit = false
  room : q.run.words < Config.runLimit
  nest : (q.w.slice q.lead).frames.length < (s.ctxOf q.w.wg).emunest
  named : entry ≠ 0
  settled : q.owed = false
  fits : ∀ j ∈ q.g.slices, q.w.overflows (s.wg q.w.wg).privB (s.wg q.w.wg).sliceB j 44 = false

/-- In t the gang of q runs a handler that began at entry for the given word (R221 steps 4 to 9): each of its slices has a
new frame that holds its former state and the word, the window stands 44 higher with the caller's registers below it, and
mode, lane mask and stack are those of a handler. The operand window holds what the fields of the word name. The gang has left its
port, and keeps its count, until a run start begins the handler's first run (R33, R88); that it does so is the model's reading, log
entries 19 and 123. -/
def InHandler (s t : State) (q : Seat) (entry : BitVec 48) (word ecause etrap : BitVec 32) : Prop :=
  ∃ v : Warp, t = (s.putWarp v).nextFree ∧
    q.w.sameBut v ∧ v.s = q.w.s ∧ v.p = q.w.p ∧
    (∀ j, j ∉ q.g.slices → v.slice j = q.w.slice j) ∧
    (∃ spill, v.gangs = (q.w.putGang q.lead { q.g with run := none, spill := spill }).gangs) ∧
    ∀ j ∈ q.g.slices,
      let x := q.w.slice j
      let y := v.slice j
      y.pc = entry ∧ y.mode = 0 ∧ y.lanemask = 0xF ∧ y.stack = [] ∧ y.base = x.base + 44 ∧ y.live = x.live ∧
      (∀ L ∈ lanesOf j, ∀ c, c < 44 → sparseGet 0 v.regs (regKey (x.base + c) L) = q.w.read c L) ∧
      ∃ f : Frame, y.frames = f :: x.frames ∧ f.epc = x.pc ∧ f.eword = word ∧ f.ecause = ecause ∧ f.etrap = etrap ∧
        f.mode = x.mode ∧ f.lanemask = x.lanemask ∧ f.stack = x.stack ∧ f.base = x.base ∧ f.run = q.run ∧
        f.cover0 = q.w.cover0 ∧ f.cover1 = q.w.cover1 ∧ f.members = q.g.slices ∧
        (∀ L, L < 64 → f.emask.getLsbD L = decide (L ∈ q.exe.lanes)) ∧
        (∀ L ∈ lanesOf j, ∀ n, n < 8 → sparseGet 0 f.temps (regKey n L) = sparseGet 0 q.w.temps (regKey n L)) ∧
        ∀ L ∈ lanesOf j,
          sparseGet 0 f.owin (regKey 0 L) = q.w.read (field word.toNat 12 6) L ∧
          sparseGet 0 f.owin (regKey 1 L) = q.w.read (field word.toNat 6 6) L ∧
          sparseGet 0 f.owin (regKey 2 L) = q.w.read (field word.toNat 0 6) L ∧
          sparseGet 0 f.owin (regKey 3 L) = (if field word.toNat 18 6 < 61 then q.w.read (field word.toNat 18 6) L else 0) ∧
          ∀ o, 4 ≤ o → o < 8 → sparseGet 0 f.owin (regKey o L) = 0

/-- The Collie thread c is current and can take word i (R218, R232). -/
structure CollieReady (i : Instr) (s : State) (c : Collie) : Prop where
  cur : s.sched.cur = some (.collie c.core c.thread)
  found : s.findCollie c.core c.thread = some c
  running : c.stopped = false
  unparked : c.park = .none
  unheld : c.x.hold = .none
  live : (s.ctxOf c.wg).gated = false
  goesOn : s.collieStops c i = false

/-- The controller is current and can take a word. -/
structure McReady (s : State) : Prop where
  cur : s.sched.cur = some Agent.mc
  unheld : s.mc.x.hold = .none
  unparked : s.mc.parked = false

/-! ### Traps (R208 to R211) -/

/-- In t the task of workgroup uid has ended by the trap rep, the first of it (R208 to R210): its warps have ended at their
words, its Collie thread has stopped, its version is gone with the stores on their way to it, its loads are gone and its report
waits to be written. -/
def TaskTrapped (s t : State) (uid : Nat) (rep : Report) : Prop :=
  (t.wg uid).fault = some rep ∧ (t.wg uid).ended = true ∧ (t.wg uid).held = [] ∧ (t.wg uid).versionOpen = false ∧
    (∀ w ∈ t.warps, w.wg = uid → w.gangs = [] ∧ w.pend = [] ∧ ∀ x ∈ w.slices, x.live = false) ∧
    (∀ c ∈ t.collies, c.wg = uid → c.stopped = true) ∧
    (∀ a ∈ t.mem.access, a.wg = uid → a ∈ s.mem.access ∧ a.act.dies (s.wg uid) = false) ∧
    (∀ o a, t.mem.byte o a = s.mem.byte o a)

/-- The report of a trap in workgroup g that no other trap precedes (R211). -/
def firstReport (s : State) (g : Workgroup) (core slot : Nat) (pc : BitVec 48) (outer : Option (BitVec 48)) (t : Trap) :
    Report :=
  { id := s.sched.uid, cycle := s.sched.now, lead := t.lead, ctx := g.ctx, owner := g.part, taskid := g.taskid, lineage := g.lineage, cause := t.cause, pc := pc
    detail := t.detail, lane := t.lane, addr := t.addr, arg0 := t.arg0
    arg1 := (match outer with | some e => e.toNat | none => t.arg1)
    core := core, slot := slot, inHandler := outer.isSome, ctxFault := false
    discarded := g.versionOpen || g.discarded, nonVersioned := g.nonVersioned }

/-- The workgroup stands in s, has raised no trap, and a trap of it is no context fault (R208). -/
def Untrapped (s : State) (uid : Nat) : Prop :=
  (s.findWg uid).isSome ∧ (s.wg uid).fault = none ∧ (s.wg uid).reported = false ∧ (s.wg uid).irr = false

/-! ### Accesses in flight (R39, R166 to R177, R391) -/

/-- New accesses in flight behind those there are, each under a number of its own and with the moment that the word's address
dependencies give it (R196). -/
def State.withAccesses (s : State) (as : List Access) : State :=
  { s with
    sched := { s.sched with uid := s.sched.uid + as.length }
    mem := { s.mem with access := s.mem.access ++ as.mapIdx fun i a =>
      { a with id := s.sched.uid + i, floor := sparseGet 0 s.sched.dep (agentSlice a.who) } } }

/-- tr is the fault of an access of size bytes at an on-chip level: the lowest lane past the limit raises BOUNDS, else the lowest
misaligned one MISALIGNED (R166, R390). -/
def FailsLevel (lvl limit size : Nat) (lanes : List Nat) (off : Nat → Nat) (tr : Trap) : Prop :=
  (∃ L, lanes.find? (fun M => decide (limit < off M + size)) = some L ∧
    tr = { cause := 0x10, lane := L, addr := off L, arg0 := 0x100 + lvl }) ∨
  ((∀ L ∈ lanes, off L + size ≤ limit) ∧ ∃ L, lanes.find? (fun M => off M % size != 0) = some L ∧
    tr = { cause := 0x11, lane := L, addr := off L })

/-- An access at an on-chip level that passes its checks (R166). -/
def PassesLevel (limit size : Nat) (lanes : List Nat) (off : Nat → Nat) : Prop :=
  ∀ L ∈ lanes, off L + size ≤ limit ∧ off L % size = 0

/-- A capability that opens size bytes at each of the offsets to its context's partition (R169). -/
structure Cap.Opens (c : Cap) (part need size : Nat) (offs : List Nat) : Prop where
  valid : c.valid = true
  plain : c.sealed = false
  permits : c.perms &&& need = need
  fits : ∀ o ∈ offs, o + size ≤ c.length ∧ o % size = 0
  owned : c.owner = part ∨ c.owner = hostShared

/-- Access a of s may be performed now, at key k; u is s with its translation cached (R167, R175, R177). The key is one of this
device, or that of a store into an open version, which holds it back (R202), and the version has room for its line (R216). -/
structure Lands (s : State) (a : Access) (k : Nat) (u : State) : Prop where
  found : s.mem.access.find? (fun b => b.id == a.id) = some a
  unparked : a.parked = none
  unsent : a.sent = none
  turn : s.blocked a = false
  settled : s.muWaits a = false
  place : (a.global = false ∧ k = a.addr ∧ u = s) ∨
    (a.global = true ∧ s.translate (agentCore a.who) a.part a.ctx a.owner a.addr a.act.need = .ok (k, u))
  here : isRemote k = false ∨ (a.global = true ∧ u.joins a = true)
  room : a.global = true → u.overQuota a k = false

/-- Bytes that a read of n bytes at key k, within one unit of 16 bytes, may return (R189, R193, R194, R206): those that stand
there, or those that stood there before a write to some of them of the same owner by another agent that no rule puts before the read: the write is later
than a moment the read follows, and than every fence and carrier whose scope takes in the writer. The model's choice of such values
is log entry 29. -/
def Glances (m : Memory) (p : Place) (o floor : Nat) (floors : Sparse Nat) (k n : Nat) (bs : List (BitVec 8)) : Prop :=
  bs = m.bytes o k n ∨
  ∃ e ∈ m.past, meets e.lo e.n k n = true ∧ e.owner = o ∧ e.writer ≠ p ∧ floor < e.at_ ∧
    (∀ f ∈ floors, p.covers f.1 e.writer = true → f.2 < e.at_) ∧
    bs = ((bytesOf 16 e.old).drop (k % 16)).take n

/-- Bytes that load a may return from key k of u, each part of it within one unit for itself (R194): it follows the reads that its
address depends on and its agent's earlier reads of the same 32-bit words (R193, R196). -/
def Reads (u : State) (a : Access) (k : Nat) (bs : List (BitVec 8)) : Prop :=
  let v := u.viewOf a.who
  ∃ part : Nat → List (BitVec 8), bs = (unitsOf 16 k a.size).flatMap part ∧ ∀ x ∈ unitsOf 16 k a.size,
    Glances u.mem a.place a.owner (max a.floor (v.seenAt k a.size)) v.floors (max k (16 * x))
      (min (k + a.size) (16 * x + 16) - max k (16 * x)) (part x)

/-- The task's versioned writes are held back (R183, R202, R203). -/
def Workgroup.holds (g : Workgroup) : Prop := g.versionOpen = true ∧ g.irr = false

/-- An access in flight that slices js of a gang have issued (R179). -/
def Seat.issued (q : Seat) (js : List Nat) (a : Access) : Prop :=
  a.note = none ∧ a.wg = q.w.wg ∧ ∃ j ∈ js, a.who = .gang q.w.core q.w.slot j

/-- What a wake leaves (R160): the agent's monitor is gone and a gang, thread or controller parked on it goes on. -/
def Woken (s : State) (who : Agent) (t : State) : Prop :=
  let u := s.withMem { s.mem with monitors := s.mem.monitors.filter fun m => m.who != who }
  (∀ core slot lead q, who = .gang core slot lead → s.seat core slot lead = some q → q.g.park = .monitor →
    t = u.putSeat { q with g := { q.g with park := .none } }) ∧
  (∀ core thread c, who = .collie core thread → s.findCollie core thread = some c → c.park = .monitor →
    t = u.putCollie { c with park := .none }) ∧
  (who = .mc → t = { u with mc := { u.mc with parked := false } })

/-- The gangs of a barrier's phase go on with its completion: no access that precedes its arrivals, or those of an earlier phase, is
still in flight (R200). -/
def Barrier.open (x : Barrier) (before : List Nat) : Prop := before = [] ∧ x.waking = []

/-- A barrier whose phase p has completed (R246): the gangs of the phase go on, or wait for the accesses before its arrivals
(R200). What passes the barrier later follows the moments of the phases whose gangs have gone on. -/
def Barrier.completed (x : Barrier) (p : Waking) : Barrier :=
  if p.before = [] ∧ x.waking = [] then
    { count := x.count, phase := x.phase + 1, doneHigh := max x.doneHigh p.high, doneCp := max x.doneCp p.cp }
  else { count := x.count, phase := x.phase + 1, waking := x.waking ++ [p], doneHigh := x.doneHigh, doneCp := x.doneCp }

/-- Barrier b of a workgroup replaced. -/
def Workgroup.withBar (g : Workgroup) (b : Nat) (x : Barrier) : Workgroup := { g with bars := setNth g.bars b x }

/-- A gang that waits for a phase of barrier b. -/
def Gang.isAt (g : Gang) (b phase : Nat) : Prop := g.park = .barWait b phase ∨ ∃ park, g.park = .yieldB b park phase

/-- A view of an agent that has passed a barrier (R200): its later reads follow, at scope wg, both moments of the phase, and a FENCE.X
finds them on their paths, LS and CP (R180). -/
def View.PassedTo (v v' : View) (high cp : Nat) : Prop :=
  v'.tf = v.tf ∧ v'.cp = v.cp ∧ v'.high = v.high ∧ v'.seen = v.seen ∧ v'.taint = v.taint ∧
  v'.floors = raiseFloor v.floors 2 (max high cp) ∧ v'.paths = raiseFloor (raiseFloor v.paths 0 high) 1 cp

/-- In t the gangs of a workgroup that waited for phase p of barrier b go on, and every other gang is as in s (R246); the later
accesses of their slices follow what the phase puts before them (R200). -/
def Released (s t : State) (uid b : Nat) (p : Waking) : Prop :=
  ∃ f : Warp → Warp, t = { s with warps := s.warps.map f } ∧ ∀ w,
    (w.wg ≠ uid → f w = w) ∧
    (w.wg = uid → ∃ gs vs, f w = { w with gangs := gs, views := vs } ∧ gs.length = w.gangs.length ∧
      (∀ (i : Nat) (g : Gang), w.gangs[i]? = some g →
        (g.isAt b p.phase → gs[i]? = some { g with park := .none }) ∧ (¬ g.isAt b p.phase → gs[i]? = some g)) ∧
      ∀ j, ((∀ g ∈ w.gangs, g.isAt b p.phase → j ∉ g.slices) → (f w).viewOf j = w.viewOf j) ∧
        ((∃ g ∈ w.gangs, g.isAt b p.phase ∧ j ∈ g.slices) → (w.gangs.flatMap (·.slices)).Nodup → sparseWf {} w.views = true →
          (w.viewOf j).PassedTo ((f w).viewOf j) p.high p.cp))

/-- One member has arrived at barrier b of workgroup uid in u, which is s before, a copy with the moment of its writes (R19, R200,
R246, R247): with as many arrivals as the count the phase completes, and its gangs go on once the accesses before its arrivals are
performed. -/
def Arrives (s u : State) (uid b cp : Nat) : Prop :=
  let g := s.wg uid
  let x : Barrier := g.bars.getD b default
  let p : Waking := ⟨x.phase, x.before, x.high, max x.cp cp⟩
  let done : State := s.putWg (g.withBar b (x.completed p))
  (x.arrivals + 1 < x.count → u = s.putWg (g.withBar b { x with arrivals := x.arrivals + 1, cp := max x.cp cp })) ∧
  (x.count ≤ x.arrivals + 1 → (x.open x.before → Released done u g.uid b p) ∧ (¬ x.open x.before → u = done))

/-- The slices of q have marked at barrier b of their workgroup in u', which is u before (R200, R246): where with that every live
slice of the warp has marked, the warp arrives, once, and with as many arrivals as the count the phase completes; its gangs go
on once the accesses before its arrivals are performed. s is the state in which the word issues. -/
def Marks (s : State) (q : Seat) (b : Nat) (u u' : State) : Prop :=
  let g := s.wg q.w.wg
  let x : Barrier := g.bars.getD b default
  let marked : List (Nat × Nat) := x.marks ++ (q.g.slices.map fun j => (q.w.index, j)).filter fun m => !x.marks.contains m
  let full : Prop := (∀ j, (q.w.slice j).live = true → j < q.w.slices.length → (q.w.index, j) ∈ marked) ∧
    (∃ j < q.w.slices.length, (q.w.slice j).live = true) ∧ q.w.index ∉ x.arrived
  let before : List Nat := x.before ++ (s.mem.access.filter fun a => a.note.isNone && a.wg == q.w.wg && (match a.who with
    | .gang c k j => c == q.w.core && k == q.w.slot && q.g.slices.contains j
    | _ => false)).map (·.id)
  let high : Nat := (q.g.slices.map fun j => (q.w.viewOf j).high).foldl max x.high
  let p : Waking := ⟨x.phase, before, high, x.cp⟩
  let done : State := u.putWg (g.withBar b (x.completed p))
  (¬ full → u' = u.putWg (g.withBar b { x with marks := marked, before := before, high := high })) ∧
  (full → x.arrivals + 1 < x.count → u' = u.putWg (g.withBar b { x with
    marks := marked, before := before, high := high, arrivals := x.arrivals + 1, arrived := x.arrived ++ [q.w.index] })) ∧
  (full → x.count ≤ x.arrivals + 1 → (x.open before → Released done u' g.uid b p) ∧ (¬ x.open before → u' = done))

/-! ### Packets (R68, R76, R293 to R295, R321) -/

/-- The n bits of a 512-bit record from bit lo upward. -/
def bits512 (p : BitVec 512) (lo n : Nat) : Nat := p.toNat / 2 ^ lo % 2 ^ n

/-- A kernel descriptor keeps the limits of R68 on a T9. -/
def KernelSound (d : BitVec 512) : Prop :=
  let D := bits512 d
  D 16 3 = 0 ∧ D 224 16 = 0 ∧ D 288 121 = 0 ∧ D 416 32 = 0 ∧ D 0 8 = 1 ∧ (D 8 8 = 0 ∨ D 8 8 = 9) ∧ D 62 2 ≠ 3 ∧ D 58 4 < 14 ∧
  D 20 2 ≠ 3 ∧ D 53 5 ≤ 16 ∧ D 44 9 ≤ 256 ∧ D 35 9 ≤ D 44 9 ∧ D 22 13 ≤ 4096 ∧ D 96 32 % 4 = 0 ∧ 4 ≤ D 96 32 ∧
  D 412 4 ≤ 8 ∧ D 409 3 ≤ 4 ∧ (D 409 3 = 0 ↔ D 412 4 = 0) ∧
  (∀ j < 8, if j < D 412 4 then D (448 + 6 * j) 6 ≤ 43 ∧ D (496 + 2 * j) 2 ≠ 3 else D (448 + 6 * j) 6 = 0 ∧ D (496 + 2 * j) 2 = 0) ∧
  (D 8 8 = 0 → D 58 4 ≤ 1 ∧ D 22 13 ≤ 384 ∧ D 53 5 ≤ 8)

/-- An inheritance descriptor e keeps the rules of R321 for the kernel of descriptor d. -/
def InheritanceSound (e d : BitVec 512) : Prop :=
  let E := bits512 e
  let n := bits512 d 412 4
  E 488 24 = 0 ∧ E 240 24 = 0 ∧ E 0 177 = 0 ∧ E 464 24 ≠ 0 ∧ E 177 3 = bits512 d 409 3 ∧ 1 ≤ E 180 4 ∧ E 180 4 ≤ 8 ∧
  (∀ r < E 180 4, E (184 + 2 * r) 2 ≠ 3) ∧
  (∀ i < n, E (203 + 5 * i) 2 < E 177 3 ∧ bits512 d (496 + 2 * i) 2 ≠ 3) ∧
  (∀ b, 200 + 5 * n ≤ b → b < 240 → e.getLsbD b = false)

/-- A core of a partition could hold one workgroup of packet p and descriptor d if it were empty (R76). -/
def CoreHolds (h : Share) (p d : BitVec 512) : Prop :=
  let n := bits512 p 40 4 + 1
  let W := 16 * 2 ^ bits512 d 62 2
  n ≤ h.slots ∧ n * (48 + 16 * bits512 d 58 4) * W / 16 ≤ h.rg ∧
  bits512 d 22 13 + n * W * bits512 d 44 9 / 16 ≤ h.sp - h.exported ∧ bits512 d 53 5 ≤ h.bars

/-- c is argument k of packet p (R295): the passed capability, or what entry k of the argument block gives. -/
def Argument (s : State) (part ctx : Nat) (p : BitVec 512) (pass : Sparse Cap) (k : Nat) (c : Cap) : Prop :=
  if bits512 p 62 1 = 1 then c = sparseGet {} pass k ∧ c.valid = true ∧ c.sealed = false
  else bits512 p 288 56 ≠ 0 ∧ ∃ v, s.rootNat part ctx (bits512 p 288 56 + 16 * k) 16 = some v ∧
    let r : Cap := { bits := BitVec.ofNat 128 v, valid := true }
    let root := (s.ctx part ctx).root
    if s.rootTag part ctx (bits512 p 288 56 + 16 * k) = true then c = r
    else r.sealed = false ∧ r.owner = 0 ∧ r.objid = 0 ∧ v / 2 ^ 116 % 2 = 0 ∧
      root.base ≤ r.base ∧ r.base + r.length ≤ root.base + root.length ∧ r.perms &&& root.perms = r.perms ∧
      c.base = r.base ∧ c.length = r.length ∧ c.perms = r.perms ∧ c.owner = root.owner ∧ c.sealed = root.sealed ∧ c.valid = root.valid

/-! ### Operand descriptors (R271 to R273) -/

/-- The n bits of a descriptor from bit lo upward. -/
def descBits (d : TileDesc) (lo n : Nat) : Nat := d.toNat / 2 ^ lo % 2 ^ n

/-- The type codes that may stand together (R30, R272). -/
def typePairs : List (List Nat) := [[4, 5], [2, 3], [6, 7], [8, 9, 0xA], [0x15, 0x16]]

/-- The bytes of a k-row of n elements of an admitted type (R271). -/
def descRow (type n : Nat) : Nat :=
  if type = 2 ∨ type = 3 then 2 * n else if type = 4 ∨ type = 5 then n
  else if type = 6 ∨ type = 7 then 32 * ((n + 63) / 64) else if type = 8 ∨ type = 9 then 16 * ((n + 63) / 64)
  else if type = 0xA then (n + 4) / 5 else if type = 0x15 then n else 3 * ((n + 3) / 4)

/-- The bytes of an operand from its offset upward (R273). -/
def descExtent (d : TileDesc) : Nat :=
  (8 * descBits d 88 20 - 1) * (16 * descBits d 64 24) + descRow (descBits d 117 5) (descBits d 44 9)

/-- r is the first detail of TILE-DESC that the operands of a word fail, each with its row limit, 0 where they fail none
(R273). -/
def DescDetail (ds : List (TileDesc × Nat)) (r : Nat) : Prop :=
  let admitted (d : TileDesc) : Prop := ∃ l ∈ typePairs, descBits d 117 5 ∈ l
  if ∃ e ∈ ds, descBits e.1 53 11 ≠ 0 then r = 1
  else if ∃ e ∈ ds, descBits e.1 88 20 = 0 ∨ e.2 < descBits e.1 44 9 then r = 2
  else if ∃ e ∈ ds, ∃ f ∈ ds, descBits e.1 88 20 ≠ descBits f.1 88 20 then r = 3
  else if ∃ e ∈ ds, admitted e.1 ∧ 1 < descBits e.1 88 20 ∧
    16 * descBits e.1 64 24 < descRow (descBits e.1 117 5) (descBits e.1 44 9) then r = 4
  else if ∃ e ∈ ds, descBits e.1 0 44 % 16 ≠ 0 then r = 5
  else if ¬ ∃ l ∈ typePairs, ∀ e ∈ ds, descBits e.1 117 5 ∈ l then r = 6
  else if ∃ e ∈ ds, descBits e.1 122 2 = 3 then r = 7
  else r = 0

/-- Operand d lies inside what its capability c or its level opens to the workgroup for reading (R165, R169, R273). -/
def OperandFits (s : State) (g : Workgroup) (c : Cap) (d : TileDesc) : Prop :=
  if descBits d 122 2 = 0 then
    c.valid = true ∧ c.sealed = false ∧ c.perms &&& permR = permR ∧ descBits d 0 44 + descExtent d ≤ c.length ∧
      (c.owner = g.part ∨ c.owner = hostShared)
  else descBits d 0 44 + descExtent d ≤ s.levelLimit g (descBits d 122 2)

/-- tr is the fault of an operand that does not (R169, R390). -/
def OperandFails (s : State) (g : Workgroup) (c : Cap) (d : TileDesc) (tr : Trap) : Prop :=
  let k := descBits d 124 4
  let off := descBits d 0 44
  if descBits d 122 2 = 0 then
    if c.valid = false then tr = { cause := 0x13, arg0 := k }
    else if c.sealed = true then tr = { cause := 0x14, arg0 := k }
    else if c.perms &&& permR ≠ permR then tr = { cause := 0x12, arg0 := k, arg1 := permR }
    else if c.length < off + descExtent d then tr = { cause := 0x10, addr := off, arg0 := k }
    else c.owner ≠ g.part ∧ c.owner ≠ hostShared ∧ tr = { cause := 0x15, arg0 := k }
  else s.levelLimit g (descBits d 122 2) < off + descExtent d ∧
    tr = { cause := 0x10, addr := off, arg0 := 0x100 + descBits d 122 2 }

/-- Name n of a workgroup is mapped, each of its tiles with the form asked for, and with the span (R274, R284 to R286). -/
def NameFits (s : State) (g : Workgroup) (n : Nat) (form paired : Option Bool) : Prop :=
  g.tilesOf n ≠ [] ∧ (∀ f, form = some f → ∀ T ∈ g.tilesOf n, s.formOf T = f) ∧
    ∀ p, paired = some p → ((g.tilesOf n).length = 2 ↔ p = true)

/-- tr is the fault of a name that is not: unmapped, then the form, then the span (R289). -/
def NameFails (s : State) (g : Workgroup) (n : Nat) (form paired : Option Bool) (tr : Trap) : Prop :=
  (g.tilesOf n = [] ∧ tr = { cause := 0x4A, detail := 1 }) ∨
  (g.tilesOf n ≠ [] ∧ ¬ NameFits s g n form none ∧ tr = { cause := 0x4A, detail := 2 }) ∨
  (NameFits s g n form none ∧ ¬ NameFits s g n form paired ∧ tr = { cause := 0x4A, detail := 3 })

/-! ### Tile words (R274 to R287) -/

/-- The tile operation that a word of the gang starts. -/
def Seat.tileOp (q : Seat) (s : State) (kind : TileKind) (tiles : List Nat) : TileOp :=
  { id := s.sched.uid, core := q.w.core, slot := q.w.slot, wg := q.w.wg, part := (s.wg q.w.wg).part, ctx := (s.wg q.w.wg).ctx
    pc := q.pc, kind := kind, tiles := tiles, outer := q.outer, floors := q.floorsOf (·.tf) }

/-- A tile operation at the end of the queue. -/
def State.withOp (s : State) (o : TileOp) : State :=
  { s.nextUid with pillows := { s.pillows with ops := s.pillows.ops ++ [o] } }

/-- A tile operation that can take its next step: its context is not stopped in place, and nothing has stopped it. -/
structure TileReady (s : State) (o : TileOp) : Prop where
  found : s.pillows.ops.find? (fun e => e.id == o.id) = some o
  going : o.stop = none
  free : o.parked = none
  live : (s.ctx o.part o.ctx).gated = false

/-- The eight values v of a row or column of one k-step align to the integers x at exponent e, none of them NaR (R276): v gives
sign, exponent and significand, and each x is 4M / 2^(e - E) to the nearest integer, ties to even. -/
def Aligns (v : Nat → Option (Bool × Int × Nat)) (x : Nat → Int) (e : Int) : Prop :=
  (∀ k < 8, (v k).isSome = true) ∧
  (∀ k < 8, ∀ sg E, v k = some (sg, E, 0) → x k = 0) ∧
  ((∀ k < 8, ∃ sg E, v k = some (sg, E, 0)) → e = 0) ∧
  (∀ k < 8, ∀ sg E M, v k = some (sg, E, M) → M ≠ 0 → E ≤ e ∧ ∃ n : Nat, x k = (if sg then -(n : Int) else n) ∧
    2 * ((n : Int) * 2 ^ (e - E).toNat - 4 * M).natAbs ≤ 2 ^ (e - E).toNat ∧
    (2 * ((n : Int) * 2 ^ (e - E).toNat - 4 * M).natAbs = 2 ^ (e - E).toNat → n % 2 = 0)) ∧
  ((∃ k < 8, ∃ sg E M, v k = some (sg, E, M) ∧ M ≠ 0) → ∃ k < 8, ∃ sg M, v k = some (sg, e, M) ∧ M ≠ 0)

/-- Operation o of s has completed in t: it is gone from the queue, what it has stored the warp's later TWAIT orders (R283), and the
elements are as f says. -/
def TileDone (s t : State) (o : TileOp) (f : Nat → Nat → Nat → BitVec 48) : Prop :=
  ∃ p : Pillows, t = { s.dropOp o with pillows := p } ∧ p.forms = s.pillows.forms ∧
    p.ops = s.pillows.ops.filter (fun e => e.id != o.id) ∧
    ∀ T r c, r < 64 → c < 64 → p.elem T r c = if T ∈ o.tiles then f T r c else s.pillows.elem T r c

end Sys2Proof.Machine
end

