-- ==== Sys2Proof/Certificates/Slice0/Obligations.lean ====
section
/-!
DEFINITION. The statements for the provers: what the numbered rules of the spec say of the machine, each over every state,
operand and form of the instruction that the rule gives. A statement of several parts joins claims that have names of their
own.
-/
open Sys2Proof Sys2Proof.Machine

/-! ### Encoding -/

/-- Every word of a well-formed instruction decodes to that instruction, whatever its operands: from its four bytes in
memory order and from its bits (R5, R23, R52 to R57). -/
def Obligations.DecodeOfEncodeIsTheInstruction : Prop :=
  ∀ (pr : Profile) (i : Instr), WellFormed pr i = true →
    ∃ w : BitVec 32, encode i = some w ∧ decode (bytesOf 4 w.toNat) = .ok (i, []) ∧ decodeTableWord 32 w.toNat = some i

/-- A word that decodes is the word of the instruction it decodes to: no bit of a word is ignored (R46), and no two words
stand for one instruction. -/
def Obligations.EncodeOfDecodeIsTheWord : Prop :=
  ∀ (w : BitVec 32) (i : Instr), decodeWord w.toNat = .ok i → encode i = some w

/-- The majors that hold instructions (R52 to R57). -/
def allocatedMajors : List Nat :=
  List.range' 0x01 15 ++ List.range' 0x10 21 ++ List.range' 0x40 11 ++ List.range' 0x70 6 ++ List.range' 0x80 20 ++
    List.range' 0xA0 8 ++ List.range' 0xB0 12 ++ List.range' 0xC0 11 ++ List.range' 0xD0 9 ++ List.range' 0xE0 14 ++
    List.range' 0xF0 12

/-- The decoder reads the words that the spec writes out (R32, R94, R97, R98, R106, R108, R112, R130, R132, R226, R247). -/
def Claims.DecodesTheWordsOfTheSpec : Prop :=
  decodeWord 0x03000000 = .ok .nop ∧
  decodeWord 0x01F0265B = .ok (.mode 1 1 1 1 0 0x265B) ∧
  decodeWord 0x1F007F80 = .ok (.movi 0 0x7F80) ∧
  decodeWord 0x200001FE = .ok (.movhi 0 0x01FE) ∧
  decodeWord 0x100C0000 = .ok (.iadd 3 0 0) ∧
  decodeWord 0x1C13C005 = .ok (.iaddi 4 60 5) ∧
  decodeWord 0x1A07D102 = .ok (.icmp 1 61 4 2) ∧
  decodeWord 0x191420C1 = .ok (.sel 5 2 3 1) ∧
  decodeWord 0x24060E80 = .ok (.sop 0 12 3 20) ∧
  decodeWord 0x40101083 = .ok (.ffma 4 1 2 3) ∧
  decodeWord 0x420420C2 = .ok (.fcmp 1 2 3 2) ∧
  decodeWord 0xEB100500 = .ok (.barInit 1 5) ∧
  decodeWord 0xED180000 = .ok (.barWait 1 1) ∧
  decodeWord 0xD4100000 = .ok (.arrive 1)

/-- A word of a major that holds no instruction is none, whatever its other bits; majors 0x00 and 0xFF are refused under
names of their own (R45 steps 1, 2 and 5, R52 to R56). -/
def Claims.UnallocatedMajorsAreRefused : Prop :=
  ∀ w : BitVec 32,
    (field w.toNat 24 8 = 0 → decodeWord w.toNat = .error .endOfText) ∧
    (field w.toNat 24 8 = 0xFF → decodeWord w.toNat = .error .reservedWord) ∧
    (field w.toNat 24 8 ≠ 0 → field w.toNat 24 8 ≠ 0xFF → field w.toNat 24 8 ∉ allocatedMajors →
      decodeWord w.toNat = .error .unallocatedMajor)

/-- What the decoder reads from the words that the spec writes out, and from the majors that hold no instruction (R45 steps 1, 2 and 5). -/
def Obligations.DecoderReadsWords : Prop :=
  Claims.DecodesTheWordsOfTheSpec ∧ Claims.UnallocatedMajorsAreRefused

/-! ### Steps -/

/-- When the four bytes at a gang's pc, at the physical address its context's tables give, decode to instruction i, the
gang's turn is i at the state after the fetch, with the gang as the current agent (R33, R45), and what withSameCycle adds. The
turn's cycles pass first; the gang's port must not have given way to a higher one in this cycle (R83) nor to a run begun on it later
(R220), a Collie thread must be the next one in turn (R232). A Collie thread's turn and the controller's, whose text stands in its
SRAM, likewise. -/
def Claims.StepRunsTheDecodedWord : Prop :=
  ∀ (s : State) (cycles : Nat) (rest : List Turn) (i : Instr),
    let u : State := { s with sched := { s.sched with
      agenda := rest, cur := none, dep := [], now := s.sched.now + cycles, steps := s.sched.steps + 1 } }
    (∀ core slot lead q pa v, s.sched.agenda = ⟨cycles, .word (.gang core slot lead)⟩ :: rest →
      u.seat core slot lead = some q → q.ready = true → (u.ctxOf q.w.wg).gated = false →
      u.portFree core q.g.port = true → (∀ g ∈ u.openRuns core, g.port = q.g.port → g.began ≤ q.g.began) →
      u.translate core (s.wg q.w.wg).part (s.wg q.w.wg).ctx (s.wg q.w.wg).part q.pc.toNat needX = .ok (pa, v) →
      isRemote pa = false → decode (v.mem.bytes (s.wg q.w.wg).part pa 4) = .ok (i, []) →
      step s = u.withSameCycle (some (.gang core slot lead)) (exec i (v.runs (.gang core slot lead) i))) ∧
    (∀ core thread c pa v, s.sched.agenda = ⟨cycles, .word (.collie core thread)⟩ :: rest →
      u.findCollie core thread = some c → u.collieRuns c = true → u.threadFree core thread = true →
      u.translate core (s.wg c.wg).part (s.wg c.wg).ctx (s.wg c.wg).part c.x.pc.toNat needX = .ok (pa, v) →
      isRemote pa = false → decode (v.mem.bytes (s.wg c.wg).part pa 4) = .ok (i, []) →
      step s = u.withSameCycle (some (.collie core thread)) (exec i (v.runs (.collie core thread) i))) ∧
    (s.sched.agenda = ⟨cycles, .word .mc⟩ :: rest → s.mc.x.hold = .none → s.mc.parked = false →
      s.mc.x.pc.toNat + 4 ≤ 0x80000 → decode (s.mem.bytes 0 (sramKey s.mc.x.pc.toNat) 4) = .ok (i, []) →
      step s = u.withSameCycle (some .mc) (exec i (u.runs .mc i)))

/-- What a turn adds to its own act (R210): nothing, unless the act has raised the first trap of a task; then the task's other agents
may raise theirs in the same cycle, which keeps a trap as the task's report, counts no less than before and changes no byte. Which
of them issue in the cycle is free (log entry 40). -/
def Claims.OnlyTrapsOfTheCycleAreAdded : Prop :=
  (∀ (s t : State) (a : Option Agent), (∀ g ∈ s.wgs, g.fault = none → g.ended = false → (t.wg g.uid).fault = none) →
    s.withSameCycle a (.next t) = .next t) ∧
  (∀ (s : State) (a : Option Agent) (f : Fault) (r : Refusal), s.withSameCycle a (.fault f) = .fault f ∧
    s.withSameCycle a (.refused r) = .refused r) ∧
  ∀ (s t : State) (a : Option Agent), ∃ u, s.withSameCycle a (.next t) = .next u ∧ (∀ o k, u.mem.byte o k = t.mem.byte o k) ∧
    ∀ uid r, (t.wg uid).fault = some r → r.more ≤ 255 → ∃ r', (u.wg uid).fault = some r' ∧ r.more ≤ r'.more ∧ r'.more ≤ 255

/-- What runs adds to the state after the fetch: the agent is the current one, its core notes that it has issued in this cycle,
and its views have passed the word's dependencies on (R195); no value of a register and no byte changes. -/
def Claims.TheRunningAgentIsCurrent : Prop :=
  ∀ (s : State) (a : Agent) (i : Instr),
    (s.runs a i).sched.cur = some a ∧ (s.runs a i).mem = s.mem ∧ (s.runs a i).wgs = s.wgs ∧ (s.runs a i).mc = s.mc ∧
    (∀ core slot w, s.findWarp core slot = some w → ∃ v, (s.runs a i).findWarp core slot = some { w with views := v }) ∧
    (∀ core thread c, s.findCollie core thread = some c → ∃ v, (s.runs a i).findCollie core thread = some { c with view := v })

/-- A turn that is an event takes place by the event's own meaning, with no agent current, after the turn's cycles have
passed. With no turn planned, the schedule's choice is the turn, but for the turns, one in a finite number, in which something that
the machine has begun goes on by its own step, kind by kind, and the oldest write that reads could still overlook is overlooked no
longer (R207). -/
def Claims.StepTakesTheEvent : Prop :=
  (∀ (s : State) (i : Instr) (cycles : Nat) (rest : List Turn), atAgent i = false → s.sched.agenda = ⟨cycles, .event i⟩ :: rest →
    let u : State := { s with sched := { s.sched with
      agenda := rest, cur := none, dep := [], now := s.sched.now + cycles, steps := s.sched.steps + 1 } }
    step s = u.withSameCycle none (exec i u)) ∧
  (∀ (s : State) (n : Nat), s.sched.agenda = [] → s.sched.gap = n + 1 →
    step s = step { s with sched := { s.sched with gap := n, agenda := [Config.schedule s.sched.steps] } }) ∧
  (∀ s : State, s.sched.agenda = [] → s.sched.gap = 0 →
    let fair (t : Turn) : State := { s with
      mem := { s.mem with past := s.mem.past.dropLast, horizon := max s.mem.horizon ((s.mem.past.getLast?.map (·.at_)).getD 0) }
      sched := { s.sched with gap := Config.fairGap s.sched.rounds, rounds := s.sched.rounds + 1, agenda := [t] } }
    let kind := s.due.getD (s.sched.rounds % 9) []
    let turn := if s.sched.rounds % 9 < 3 then 0 else s.sched.rounds / 9 % kind.length
    (∀ d, kind[turn]? = some d → step s = step (fair ⟨(Config.schedule s.sched.steps).cycles, .due d⟩)) ∧
    (kind[turn]? = none → step s = step (fair (Config.schedule s.sched.steps)))) ∧
  (∀ s : State,
    (∀ a ∈ s.mem.access, s.performable a = true → Due.access a.id ∈ s.due.getD 0 []) ∧
    (∀ a ∈ s.mem.access, s.mayAsk a = true → Due.ticket a.id ∈ s.due.getD 1 []) ∧
    (∀ k ∈ s.copies, s.movable k = true → s.copyFirst k = true → Due.unit k.id ∈ s.due.getD 3 []) ∧
    (∀ o ∈ s.pillows.ops, (o.running = false → Due.start o.id ∈ s.due.getD 5 []) ∧
      (o.running = true → Due.drain o.id ∈ s.due.getD 6 [] ∧ Due.complete o.id ∈ s.due.getD 7 [])) ∧
    ∀ g ∈ s.wgs, Due.commit g.uid ∈ s.due.getD 8 [])

/-- A step runs the word that it decodes, or takes the event of its turn, and adds only that the turn's cycles pass.
Where the spec leaves it open this rests on the model's choices, log entries 1, 2, 29, 40, 127, 128. -/
def Obligations.StepRunsTheNextTurn : Prop :=
  Claims.StepRunsTheDecodedWord ∧ Claims.OnlyTrapsOfTheCycleAreAdded ∧ Claims.TheRunningAgentIsCurrent ∧ Claims.StepTakesTheEvent

/-! ### Memory -/

/-- The canonical form of the memories holds at reset. -/
def Claims.ResetMemoryIsCanonical : Prop := State.reset.mem.wf = true ∧ State.reset.mem.cells = []

/-- The state after reset: the controller's registers and its pc (R386), the reset layout (R392) with no carve-out (R339), and
the measurement registers (R379). -/
def Claims.ResetStateIsAsTheRulesSay : Prop :=
  let s := State.reset
  (∀ n, sparseGet 0 s.mc.x.s n = 0 ∧ sparseGet 0 s.mc.x.p n = 0) ∧ s.mc.x.mode = 0 ∧ s.mc.x.pc = 0 ∧ s.mc.mvec = 0 ∧
    (∀ pa, installed pa = true → s.layout.owner pa = some hostShared ∧ ∀ o, s.layout.opens o pa = true) ∧
    (∀ part core, s.layout.share part core = {}) ∧ (∀ part die, s.layout.dieShare part die = {}) ∧
    (∀ die, die < 4 → s.layout.carve.getD die 4 = 0) ∧ s.layout.gen = 0 ∧ (∀ n, sparseGet 0 s.mgmt.mr n = 0)

/-- What a package reset leaves, and that the memories are canonical there.
Where the spec leaves it open this rests on the model's choices, log entries 4, 5, 12. -/
def Obligations.ResetLeavesTheResetState : Prop :=
  Claims.ResetMemoryIsCanonical ∧ Claims.ResetStateIsAsTheRulesSay

/-- Every step keeps the canonical form of the memories: keys strictly rise and no entry equals what an unlisted address
reads as, in the byte table, in the tags and in the owners of lines. -/
def Obligations.EveryStepKeepsMemoryCanonical : Prop :=
  ∀ s t : State, s.mem.wf = true → step s = .next t → t.mem.wf = true

/-- What a write leaves (R5, R169, R345, R346): the written bytes read back to the owner that wrote them, every other byte
reads to that owner as it did before, the tags of the written units of 16 bytes are clear, and to another owner every byte
of a written line of physical memory is a free value. -/
def Claims.WritesReadBack : Prop :=
  ∀ (m : Memory) (o k : Nat) (bs : List (BitVec 8)), m.wf = true → k + bs.length ≤ 2 ^ 52 →
    (∀ (i : Nat) (h : i < bs.length), (m.write o k bs).byte o (k + i) = bs[i]) ∧
    (∀ a : Nat, a < k ∨ k + bs.length ≤ a → (m.write o k bs).byte o a = m.byte o a) ∧
    (∀ a : Nat, k ≤ a → a < k + bs.length → (m.write o k bs).tag o a = false) ∧
    (∀ o' a : Nat, o' ≠ o → k ≤ a → a < k + bs.length →
      (m.write o k bs).byte o' a = Config.noiseByte (m.noiseKey o' a) a)

/-- A write published by an agent at place p, within a unit of 16 bytes (R189, R193, R206): memory is as after the write, and a
read of the unit returns what was written, or, where nothing puts the write before it, what the unit held before. The writer
itself, a read of another owner, and a read that a fence, a carrier or an earlier read of the unit puts after the write's moment
never overlook it. -/
def Claims.ReadsOverlookOnlyUnorderedWrites : Prop :=
  ∀ (m : Memory) (p : Place) (o k : Nat) (bs : List (BitVec 8)), bs ≠ [] → k % 16 + bs.length ≤ 16 →
    (∀ e ∈ m.past, e.at_ ≤ m.clock) →
    let t := m.publish p o k bs
    (∀ o' a, t.byte o' a = (m.write o k bs).byte o' a) ∧ t.clock = m.clock + 1 ∧
    ∀ (i : Nat) (r : Place) (o' floor : Nat) (floors : Sparse Nat) (n : Nat), k % 16 + n ≤ 16 → t.noisy o' k = false →
      let got := (t.glance i r o' floor floors k n).1
      (r = p ∨ o' ≠ o ∨ m.clock + 1 ≤ floor ∨ (∃ f ∈ floors, r.covers f.1 p = true ∧ m.clock + 1 ≤ f.2) →
        got = t.bytes o' k n) ∧
      (o' = o → r ≠ p → m.past = [] → floor ≤ m.clock → (∀ f ∈ floors, f.2 ≤ m.clock) →
        got = if i % 2 = 0 then t.bytes o k n else m.bytes o k n)

/-- What memory holds after a write, and which reads may still see what it held before.
Where the spec leaves it open this rests on the model's choices, log entries 13, 14, 29. -/
def Obligations.MemoryReadsWhatWasWritten : Prop :=
  Claims.WritesReadBack ∧ Claims.ReadsOverlookOnlyUnorderedWrites

/-! ### Integer, address and predicate words -/

/-- R95: NOP is the word 0x03000000, counts as one word of its run and of any open look window, and has no other effect:
afterGang, afterCollie and afterMc only move the pc and the run. -/
def Claims.NopOnlyCountsInItsRun : Prop := encode .nop = some 0x03000000 ∧ Computes .nop id

/-- Bits 23:0 of NOP are 0 (R95). -/
def Claims.OnlyOneWordIsNop : Prop := ∀ w : BitVec 32, decodeWord w.toNat = .ok .nop ↔ w = 0x03000000

/-- R95: what NOP is and does. -/
def Obligations.NopHasNoOtherEffect : Prop :=
  Claims.NopOnlyCountsInItsRun ∧ Claims.OnlyOneWordIsNop

/-- R94: MODE replaces the fields its mask selects in the mode of each issuing slice, or of the scalar agent. -/
def Obligations.ModeWritesTheSelectedFields : Prop :=
  ∀ (g t r sa su : BitVec 1) (value : BitVec 15),
    let m : BitVec 32 := (if g = 1 then 0x001F else 0) ||| (if t = 1 then 0x03E0 else 0) ||| (if r = 1 then 0x1C00 else 0) |||
      (if sa = 1 then 0x2000 else 0) ||| (if su = 1 then 0x4000 else 0)
    let f (old : BitVec 32) : BitVec 32 := (old &&& ~~~ m) ||| (value.setWidth 32 &&& m)
    Computes (.mode g t r sa su value) fun x =>
      match x with
      | .simt w sl => .simt (w.mapSlices sl fun _ v => { v with mode := f v.mode }) sl
      | .scal y => .scal { y with mode := f y.mode }

/-- R92 and R96: each word of major 0x10 writes, element by element of the width that mode.type gives, the low bits of the
exact sum, difference, minimum, maximum or absolute difference; IADD and ISUB clamp to the type's range under mode.sat. -/
def Obligations.PackedArithmeticIsElementwise : Prop :=
  ∀ (d a b : RegCode) (op : AddOp),
    let i : Instr := match op with
      | .add => .iadd d a b
      | .sub => .isub d a b
      | .imin => .imin d a b
      | .imax => .imax d a b
      | .nmin => .nmin d a b
      | .nmax => .nmax d a b
      | .absd => .iabsd d a b
    ∃ r : Exe → Nat → BitVec 32, ComputesLanes i d r ∧
      ∀ (x : Exe) (L : Nat), modeType (x.modeAt L) ≤ 9 →
        let e : Nat := [32, 32, 16, 16, 8, 8, 4, 4, 2, 2].getD (modeType (x.modeAt L)) 32
        let signed : Bool := modeType (x.modeAt L) % 2 == 0
        let lo : Int := if signed then -(2 ^ (e - 1)) else 0
        let hi : Int := if signed then 2 ^ (e - 1) - 1 else 2 ^ e - 1
        let clamp (v : Int) : Int := if modeSat (x.modeAt L) then min (max v lo) hi else v
        let nat (c : RegCode) (k : Nat) : Nat := (x.rd c.toNat L).toNat / 2 ^ (k * e) % 2 ^ e
        let int (c : RegCode) (k : Nat) : Int := if nat c k < 2 ^ (e - 1) then nat c k else nat c k - 2 ^ e
        let value (c : RegCode) (k : Nat) : Int := if signed then int c k else nat c k
        ∀ k, k < 32 / e →
          ((r x L).toNat / 2 ^ (k * e) % 2 ^ e : Nat) =
            (match op with
            | .add => clamp (value a k + value b k)
            | .sub => clamp (value a k - value b k)
            | .imin => min (int a k) (int b k)
            | .imax => max (int a k) (int b k)
            | .nmin => min (nat a k : Int) (nat b k)
            | .nmax => max (nat a k : Int) (nat b k)
            | .absd => |value a k - value b k|) % (2 ^ e : Int)

/-- R97: IADDI, ANDI and ORI combine a register with a 12-bit constant, on 32 bits. -/
def Claims.ImmediateWordsCombineTheConstant : Prop :=
  ∀ (d a : RegCode) (imm : BitVec 12),
    ComputesLanes (.iaddi d a imm) d (fun x L => BitVec.ofInt 32 ((x.rd a.toNat L).toNat + imm.toInt)) ∧
    ComputesLanes (.andi d a imm) d (fun x L => x.rd a.toNat L &&& BitVec.ofNat 32 imm.toNat) ∧
    ComputesLanes (.ori d a imm) d (fun x L => x.rd a.toNat L ||| BitVec.ofNat 32 imm.toNat)

/-- R98: MOVI writes a sign-extended constant, MOVHI the upper half; a constant c is built by the two in turn. -/
def Claims.ConstantsAreBuiltByMoviAndMovhi : Prop :=
  (∀ (d : RegCode) (imm : BitVec 18), ComputesLanes (.movi d imm) d fun _ _ => BitVec.ofInt 32 imm.toInt) ∧
  (∀ (d : RegCode) (imm : BitVec 16), ComputesLanes (.movhi d imm) d fun x L =>
    BitVec.ofNat 32 (imm.toNat * 2 ^ 16 + (x.rd d.toNat L).toNat % 2 ^ 16)) ∧
  ∀ c : BitVec 32, BitVec.ofNat 32 ((c >>> 16).toNat * 2 ^ 16 +
    (BitVec.ofInt 32 (BitVec.ofNat 18 (c.toNat % 2 ^ 16)).toInt).toNat % 2 ^ 16) = c

/-- The words that combine a constant with a register (R97, R98). -/
def Obligations.ConstantsCombineWithRegisters : Prop :=
  Claims.ImmediateWordsCombineTheConstant ∧ Claims.ConstantsAreBuiltByMoviAndMovhi

/-- The words of instructions of one major. -/
def InMajor (m : Nat) (l : List Instr) : Prop := ∀ i ∈ l, ∃ w : BitVec 32, encode i = some w ∧ field w.toNat 24 8 = m

/-- R99: the logic words, on all 32 bits. -/
def Claims.LogicWordsCombineBits : Prop :=
  ∀ d a b : RegCode,
    ComputesLanes (.and d a b) d (fun x L => x.rd a.toNat L &&& x.rd b.toNat L) ∧
    ComputesLanes (.or d a b) d (fun x L => x.rd a.toNat L ||| x.rd b.toNat L) ∧
    ComputesLanes (.xor d a b) d (fun x L => x.rd a.toNat L ^^^ x.rd b.toNat L) ∧
    ComputesLanes (.andn d a b) d (fun x L => x.rd a.toNat L &&& ~~~ x.rd b.toNat L) ∧
    ComputesLanes (.orn d a b) d (fun x L => x.rd a.toNat L ||| ~~~ x.rd b.toNat L)

/-- R100: shifts by the whole 32-bit count and rotates by its remainder modulo 32. -/
def Claims.ShiftsAndRotatesTakeTheWholeCount : Prop :=
  ∀ d a b : RegCode,
    ComputesLanes (.shl d a b) d (fun x L =>
      if 32 ≤ (x.rd b.toNat L).toNat then 0 else BitVec.ofNat 32 ((x.rd a.toNat L).toNat * 2 ^ (x.rd b.toNat L).toNat)) ∧
    ComputesLanes (.shr d a b) d (fun x L =>
      if 32 ≤ (x.rd b.toNat L).toNat then 0 else BitVec.ofNat 32 ((x.rd a.toNat L).toNat / 2 ^ (x.rd b.toNat L).toNat)) ∧
    ComputesLanes (.sar d a b) d (fun x L =>
      if 32 ≤ (x.rd b.toNat L).toNat then (if (x.rd a.toNat L).getLsbD 31 then 0xFFFFFFFF else 0)
      else BitVec.ofInt 32 ((x.rd a.toNat L).toInt / 2 ^ (x.rd b.toNat L).toNat)) ∧
    ComputesLanes (.rol d a b) d (fun x L =>
      let m := (x.rd b.toNat L).toNat % 32
      (x.rd a.toNat L <<< m) ||| (x.rd a.toNat L >>> (32 - m))) ∧
    ComputesLanes (.ror d a b) d (fun x L =>
      let m := (x.rd b.toNat L).toNat % 32
      (x.rd a.toNat L >>> m) ||| (x.rd a.toNat L <<< (32 - m)))

/-- R101: the 24-bit multiply-adds, clamped under mode.sat. -/
def Claims.MultiplyAddsUseTwentyFourBits : Prop :=
  ∀ d a b c : RegCode,
    ComputesLanes (.imad24 d a b c) d (fun x L =>
      let v : Int := ((x.rd a.toNat L).setWidth 24).toInt * ((x.rd b.toNat L).setWidth 24).toInt + (x.rd c.toNat L).toInt
      BitVec.ofInt 32 (if modeSat (x.modeAt L) then min (max v (-2 ^ 31)) (2 ^ 31 - 1) else v)) ∧
    ComputesLanes (.nmad24 d a b c) d (fun x L =>
      let v : Nat := ((x.rd a.toNat L).setWidth 24).toNat * ((x.rd b.toNat L).setWidth 24).toNat + (x.rd c.toNat L).toNat
      BitVec.ofNat 32 (if modeSat (x.modeAt L) then min v (2 ^ 32 - 1) else v))

/-- The majors of the logic words, the shifts and the multiply-adds (R99 to R101). -/
def Claims.LogicShiftMajors : Prop :=
  ∀ d a b c : RegCode,
    InMajor 0x11 [.and d a b, .or d a b, .xor d a b, .andn d a b, .orn d a b] ∧
    InMajor 0x12 [.shl d a b, .shr d a b, .sar d a b, .rol d a b, .ror d a b] ∧
    InMajor 0x13 [.imad24 d a b c] ∧ InMajor 0x14 [.nmad24 d a b c]

/-- R99 to R101: logic, shifts and multiply-adds. -/
def Obligations.LogicShiftsAndMultiplyAdds : Prop :=
  Claims.LogicWordsCombineBits ∧ Claims.ShiftsAndRotatesTakeTheWholeCount ∧ Claims.MultiplyAddsUseTwentyFourBits ∧ Claims.LogicShiftMajors

/-- R103 and R104: BFE extracts and BFI inserts a field that is clipped at bit 31. -/
def Claims.BitFieldsAreClippedAtBit31 : Prop :=
  ∀ d a b c : RegCode,
    (∃ r : Exe → Nat → BitVec 32, ComputesLanes (.bfe d a b c) d r ∧ ∀ (x : Exe) (L : Nat),
      let off := (x.rd b.toNat L).toNat % 32
      let w := min ((x.rd c.toNat L).toNat % 64) (32 - off)
      ∀ k, k < 32 → (r x L).getLsbD k =
        if k < w then (x.rd a.toNat L).getLsbD (off + k)
        else decide (0 < w) && modeType (x.modeAt L) == 0 && (x.rd a.toNat L).getLsbD (off + w - 1)) ∧
    (∃ r : Exe → Nat → BitVec 32, ComputesLanes (.bfi d a b c) d r ∧ ∀ (x : Exe) (L : Nat),
      let off := (x.rd c.toNat L).toNat % 32
      let w := min ((x.rd c.toNat L).toNat / 256 % 64) (32 - off)
      ∀ k, k < 32 → (r x L).getLsbD k =
        if off ≤ k ∧ k < off + w then (x.rd b.toNat L).getLsbD (k - off) else (x.rd a.toNat L).getLsbD k)

/-- R105: the counts and the reversal of bits. -/
def Claims.BitCountsAndReversal : Prop :=
  ∀ d a : RegCode,
    ComputesLanes (.popc d a) d (fun x L =>
      BitVec.ofNat 32 ((List.range 32).countP fun k => (x.rd a.toNat L).getLsbD k)) ∧
    (∃ r : Exe → Nat → BitVec 32, ComputesLanes (.clz d a) d r ∧ ∀ (x : Exe) (L : Nat),
      (r x L).toNat ≤ 32 ∧ (∀ k, k < (r x L).toNat → (x.rd a.toNat L).getLsbD (31 - k) = false) ∧
        ((r x L).toNat < 32 → (x.rd a.toNat L).getLsbD (31 - (r x L).toNat) = true)) ∧
    (∃ r : Exe → Nat → BitVec 32, ComputesLanes (.brev d a) d r ∧
      ∀ (x : Exe) (L k : Nat), k < 32 → (r x L).getLsbD k = (x.rd a.toNat L).getLsbD (31 - k)) ∧
    (∃ r : Exe → Nat → BitVec 32, ComputesLanes (.ffs d a) d r ∧ ∀ (x : Exe) (L : Nat),
      (x.rd a.toNat L = 0 → r x L = 0xFFFFFFFF) ∧
        (x.rd a.toNat L ≠ 0 → (x.rd a.toNat L).getLsbD (r x L).toNat = true ∧
          ∀ k, k < (r x L).toNat → (x.rd a.toNat L).getLsbD k = false))

/-- R103 to R105: bit fields and bit counts. -/
def Obligations.BitFieldsAndCounts : Prop :=
  Claims.BitFieldsAreClippedAtBit31 ∧ Claims.BitCountsAndReversal

/-- R106: ICMP writes one bit per executing lane of the predicate that d names, by its relation. -/
def Claims.IcmpWritesTheRelation : Prop :=
  ∀ d a b : RegCode,
    ComputesPred (.icmp d a b 0) d (fun x L => decide (x.rd a.toNat L = x.rd b.toNat L)) ∧
    ComputesPred (.icmp d a b 1) d (fun x L => decide (x.rd a.toNat L ≠ x.rd b.toNat L)) ∧
    ComputesPred (.icmp d a b 2) d (fun x L => decide ((x.rd a.toNat L).toInt < (x.rd b.toNat L).toInt)) ∧
    ComputesPred (.icmp d a b 3) d (fun x L => decide ((x.rd a.toNat L).toInt ≤ (x.rd b.toNat L).toInt)) ∧
    ComputesPred (.icmp d a b 4) d (fun x L => decide ((x.rd a.toNat L).toNat < (x.rd b.toNat L).toNat)) ∧
    ComputesPred (.icmp d a b 5) d (fun x L => decide ((x.rd a.toNat L).toNat ≤ (x.rd b.toNat L).toNat))

/-- R107 and R108: the predicate words read all their sources before they write, and SEL chooses by a predicate. -/
def Claims.PredicateWordsAndSelection : Prop :=
  ∀ d a b c : RegCode,
    ComputesPred (.pand d a b) d (fun x L => x.pr a.toNat L && x.pr b.toNat L) ∧
    ComputesPred (.por d a b) d (fun x L => x.pr a.toNat L || x.pr b.toNat L) ∧
    ComputesPred (.pxor d a b) d (fun x L => x.pr a.toNat L ^^ x.pr b.toNat L) ∧
    ComputesPred (.pandn d a b) d (fun x L => x.pr a.toNat L && !x.pr b.toNat L) ∧
    ComputesLanes (.sel d a b c) d (fun x L => if x.pr c.toNat L = true then x.rd a.toNat L else x.rd b.toNat L)

/-- The majors of ICMP, the predicate words and SEL (R106 to R108). -/
def Claims.PredicateMajors : Prop :=
  ∀ (d a b c : RegCode) (fn : BitVec 6),
    InMajor 0x1A [.icmp d a b fn] ∧ InMajor 0x1B [.pand d a b, .por d a b, .pxor d a b, .pandn d a b] ∧ InMajor 0x19 [.sel d a b c]

/-- R106 to R108: comparison, predicates and selection. -/
def Obligations.PredicatesAndSelection : Prop :=
  Claims.IcmpWritesTheRelation ∧ Claims.PredicateWordsAndSelection ∧ Claims.PredicateMajors

/-- R109 and R110: LEA forms a scaled offset modulo 2^32; IADD64 and ISUB64 work modulo 2^64 on register pairs. -/
def Claims.AddressArithmeticWraps : Prop :=
  ∀ d a b : RegCode,
    (∀ sh : BitVec 4, ComputesLanes (.lea d a b sh) d fun x L =>
      BitVec.ofNat 32 ((x.rd a.toNat L).toNat + (x.rd b.toNat L).toNat * 2 ^ sh.toNat)) ∧
    ComputesPair (.iadd64 d a b) d (fun x L =>
      BitVec.ofNat 64 ((x.rd64 a.toNat L).toNat + (x.rd64 b.toNat L).toNat)) ∧
    ComputesPair (.isub64 d a b) d (fun x L =>
      BitVec.ofInt 64 ((x.rd64 a.toNat L).toNat - (x.rd64 b.toNat L).toNat))

/-- R111: SMOV between scalars ignores the guard, from a register takes the lowest executing lane if there is one, and to a
register is lane-wise. -/
def Claims.SmovMovesToAndFromScalars : Prop :=
  ∀ x y : RegCode,
    Computes (.smovSs x y) (fun e => e.swr x.toNat (e.srd y.toNat)) ∧
    Computes (.smovSr x y) (fun e =>
      match e.lanes with
      | [] => e
      | L :: _ => e.swr x.toNat (e.rd y.toNat L)) ∧
    ComputesLanes (.smovRs x y) x (fun e _ => e.srd y.toNat)

/-- R112: SOP computes on scalars once per issue, whatever the guard. -/
def Claims.SopComputesOnScalars : Prop :=
  ∀ (fn : BitVec 4) (d a b : BitVec 5), fn.toNat ≤ 12 → Computes (.sop fn d a b) fun x =>
    let u := x.srd a.toNat
    let v := x.srd b.toNat
    x.swr d.toNat (match fn.toNat with
      | 0 => BitVec.ofNat 32 (u.toNat + v.toNat)
      | 1 => BitVec.ofInt 32 (u.toNat - v.toNat)
      | 2 => u &&& v
      | 3 => u ||| v
      | 4 => u ^^^ v
      | 5 => if 32 ≤ v.toNat then 0 else BitVec.ofNat 32 (u.toNat * 2 ^ v.toNat)
      | 6 => if 32 ≤ v.toNat then 0 else BitVec.ofNat 32 (u.toNat / 2 ^ v.toNat)
      | 7 => if 32 ≤ v.toNat then (if u.getLsbD 31 then 0xFFFFFFFF else 0) else BitVec.ofInt 32 (u.toInt / 2 ^ v.toNat)
      | 8 => BitVec.ofNat 32 (u.toNat * v.toNat)
      | 9 => if u.toInt ≤ v.toInt then u else v
      | 10 => if u.toNat ≤ v.toNat then u else v
      | 11 => if u.toInt ≤ v.toInt then v else u
      | _ => if u.toNat ≤ v.toNat then v else u)

/-- R109 to R112: address arithmetic and words on scalars. -/
def Obligations.AddressesAndScalars : Prop :=
  Claims.AddressArithmeticWraps ∧ Claims.SmovMovesToAndFromScalars ∧ Claims.SopComputesOnScalars

/-! ### Registers -/

/-- R25 and R26: what a register code names. A lane register or temporary holds the value written to its lane, a scalar
that of the lowest lane written, in every lane; z reads zero and discards; lid, wid and gid are no destinations, and no
other register is touched. -/
def Obligations.RegisterCodesNameTheirRegisters : Prop :=
  ∀ (w : Warp) (c : Nat) (vals : List (Nat × BitVec 32)),
    sparseWf 0 w.regs = true → sparseWf 0 w.temps = true → sparseWf 0 w.s = true →
    (vals.map (·.1)).Nodup → (∀ e ∈ vals, e.1 < 64) →
    (c < 52 → ∀ e ∈ vals, (w.write c vals).read c e.1 = e.2) ∧
    (52 ≤ c → c < 60 → ∀ L, (w.write c vals).read c L = (match vals with | [] => w.read c L | e :: _ => e.2)) ∧
    (60 ≤ c → w.write c vals = w) ∧
    (∀ L, L < 64 → ∀ b, b ≠ c ∨ (c < 52 ∧ ∀ e ∈ vals, e.1 ≠ L) → (w.write c vals).read b L = w.read b L) ∧
    (∀ L, w.read 60 L = 0 ∧ w.read 61 L = BitVec.ofNat 32 (w.index * w.width + L) ∧ w.read 62 L = BitVec.ofNat 32 w.wid ∧
      w.read 63 L = BitVec.ofNat 32 (w.wid * (w.wgWarps * w.width) + (w.index * w.width + L)))

/-- A word that computes on registers completes for a gang and leaves everything but its target alone: memory, every other
agent and unit, every other warp, and of its own warp the capabilities, skeins, queues, pending results, stacks, lane
masks, frames and window bases. A lane register, temporary or scalar that is not its target reads as before in every lane;
a lane that does not execute keeps its value of the target, but for temporaries, whose values R36 leaves undefined there; a
predicate bit changes only in the target and in an executing lane; the modes change under MODE alone. -/
def Claims.RegisterWordsLeaveEverythingElse : Prop :=
  ∀ (i : Instr) (g : Target), targetOf i = some g → ∀ (s : State) (q : Seat), GangRuns i s q →
    ∃ (t : State) (v : Warp), exec i s = .next t ∧ s.sameBut t ∧ (∀ o a, t.mem.byte o a = s.mem.byte o a) ∧
      t.findWarp q.w.core q.w.slot = some v ∧
      (∀ core slot, (core, slot) ≠ (q.w.core, q.w.slot) → t.findWarp core slot = s.findWarp core slot) ∧
      q.w.sameBut v ∧
      (∀ c L, c < 60 → L < 64 → g.avoids c → v.read c L = q.w.read c L) ∧
      (∀ c L, c < 44 → L < 64 → L ∉ (s.primed q i).exe.lanes → v.read c L = q.w.read c L) ∧
      (∀ n L, (match g with | .pred d => n = d.toNat ∧ L ∈ (s.primed q i).exe.lanes | _ => False) ∨
        predBit v.p n L = predBit q.w.p n L) ∧
      (∀ n, n < 32 → (∀ c, c = 52 + n → c < 60 → g.avoids c) → g ≠ .scalar n → sparseGet 0 v.s n = sparseGet 0 q.w.s n) ∧
      (∃ r : Run, v.gangs = (q.w.putGang q.lead { q.g with run := some r }).gangs) ∧
      (∀ j, j ∉ q.g.slices → v.slice j = q.w.slice j) ∧
      (∀ j, { v.slice j with pc := (q.w.slice j).pc, mode := (q.w.slice j).mode } = q.w.slice j) ∧
      (∀ j, g ≠ .mode → (v.slice j).mode = (q.w.slice j).mode)

/-- The same for a Collie thread and for the controller: the word completes, only the scalar that its target names and its
target predicate's bit may change, the mode only under MODE, and memory and every other agent keep what they hold. -/
def Claims.ScalarWordsLeaveEverythingElse : Prop :=
  ∀ (i : Instr) (g : Target), targetOf i = some g →
    let keeps (x y : Scalar) : Prop :=
      (∀ n, n < 32 → (match g with
        | .lane d => n ≠ d.toNat
        | .pair d => d.toNat = 60 ∨ (n ≠ d.toNat ∧ n ≠ d.toNat + 1)
        | .scalar k => n ≠ k
        | _ => True) → sparseGet 0 y.s n = sparseGet 0 x.s n) ∧
      (∀ n L, (match g with | .pred d => n = d.toNat ∧ L = 0 | _ => False) ∨ predBit y.p n L = predBit x.p n L) ∧
      (g ≠ .mode → y.mode = x.mode) ∧ y.pc = x.pc + 4 ∧ y.pend = x.pend ∧ y.hold = x.hold
    (∀ (s : State) (c : Collie), CollieRuns i s c → ∃ x, exec i s = .next (s.putCollie { c with x := x }) ∧ keeps c.x x) ∧
    (∀ s : State, McRuns i s → ∃ x, exec i s = .next { s with mc := { s.mc with x := x } } ∧ keeps s.mc.x x)

/-- The frame of the words that compute on registers (targetOf lists them), on each kind of agent. -/
def Obligations.RegisterWordsLeaveTheRest : Prop :=
  Claims.RegisterWordsLeaveEverythingElse ∧ Claims.ScalarWordsLeaveEverythingElse

/-! ### Long-latency and float words -/

/-- R102: IMUL32 multiplies full operands; its result arrives later. -/
def Claims.FullMultipliesArriveLater : Prop :=
  ∀ (d a b : RegCode) (look : BitVec 4),
    ComputesLater (.imul32Lo d a b look) d look (fun x L =>
      let v : Int := (x.rd a.toNat L).toInt * (x.rd b.toNat L).toInt
      BitVec.ofInt 32 (if modeSat (x.modeAt L) then min (max v (-2 ^ 31)) (2 ^ 31 - 1) else v)) ∧
    ComputesLater (.imul32Hi d a b look) d look (fun x L =>
      (BitVec.ofInt 64 ((x.rd a.toNat L).toInt * (x.rd b.toNat L).toInt) >>> 32).setWidth 32) ∧
    ComputesLater (.imul32Nhi d a b look) d look (fun x L =>
      (BitVec.ofNat 64 ((x.rd a.toNat L).toNat * (x.rd b.toNat L).toNat) >>> 32).setWidth 32)

/-- R137 and R138: the special functions read their operand at issue and their results arrive later: the quotient, reciprocal
and root rounded once in the lane's format, the bounded functions in FP32 on the widened operand and then rounded by RNE. -/
def Claims.SpecialFunctionsArriveLater : Prop :=
  ∀ (d a b : RegCode) (look : BitVec 4),
    let pat (c : RegCode) (x : Exe) (L : Nat) : Nat := floatOperand (modeType (x.modeAt L)) (x.rd c.toNat L)
    let bounded (f : BitVec 32 → BitVec 32) (x : Exe) (L : Nat) : BitVec 32 :=
      if modeType (x.modeAt L) = 0x10 then f (x.rd a.toNat L)
      else BitVec.ofNat 32 ((x.fmtAt L).ofVal ⟨0, false, (x.roundAt L).sub⟩
        (FloatFmt.f32.decode (f (BitVec.ofNat 32 (FloatFmt.f32.ofVal ⟨0, false, false⟩ (x.valAt a L)))).toNat))
    ComputesLater (.rcp d a look) d look (fun x L => BitVec.ofNat 32 ((x.fmtAt L).frcp (x.roundAt L) (pat a x L))) ∧
    ComputesLater (.sqrt d a look) d look (fun x L => BitVec.ofNat 32 ((x.fmtAt L).fsqrt (x.roundAt L) (pat a x L))) ∧
    ComputesLater (.div d a b look) d look (fun x L =>
      BitVec.ofNat 32 ((x.fmtAt L).fdiv (x.roundAt L) (pat a x L) (pat b x L))) ∧
    ComputesLater (.rsqrt d a look) d look (bounded rsqrt32) ∧
    ComputesLater (.exp2 d a look) d look (bounded exp2f) ∧
    ComputesLater (.log2 d a look) d look (bounded log2f) ∧
    ComputesLater (.tanh d a look) d look (bounded tanh32) ∧
    ComputesLater (.sigm d a look) d look (bounded sigm32) ∧
    ComputesLater (.sin d a look) d look (bounded fun v => trig32 false (Config.sinCandidate v) v) ∧
    ComputesLater (.cos d a look) d look (bounded fun v => trig32 true (Config.cosCandidate v) v)

/-- R138: RCP, DIV and SQRT are correctly rounded in each format, with the results of the zeros and infinities of DIV; RSQRT is within
one unit in the last place. The other functions are within their bounds of the model's fixed-point evaluation, or that evaluation
rounded, which is the model's choice (log entry 23): EXP2 and LOG2 within two units in the last place, LOG2 on [0.5, 2] within 2^-22,
SIN and COS up to 2^20 and TANH within 2^-21, SIGM within 2^-22; SIN and COS beyond 2^20 lie in [-1, 1]. -/
def Claims.SpecialFunctionsKeepTheirBounds : Prop :=
  (∀ f : FloatFmt, f ∈ [FloatFmt.f32, .f16, .bf16] → ∀ (c : RoundCfg) (x y : Nat), c.rnd ≤ 4 →
    let v := f.decode (f.flushIn c.sub x)
    let w := f.decode (f.flushIn c.sub y)
    let val (m : Nat) (e : Int) : ℝ := (m : ℝ) * (2 : ℝ) ^ e
    let rounds (neg : Bool) (z : ℝ) (p : Nat) : Prop := ∃ r, f.Rounds c.rnd c.sat neg z r ∧ p = f.flushOut c.sub r
    let past : Nat := if c.sat then f.infMag - 1 else f.infMag
    (v = .nan ∨ w = .nan → f.fdiv c x y = f.nan) ∧
    (∀ a b, v = .inf a → w = .inf b → f.fdiv c x y = f.nan) ∧
    (∀ a b m e, v = .inf a → w = .fin b m e → f.fdiv c x y = f.signed (a != b) f.infMag) ∧
    (∀ a b m e, v = .fin a m e → w = .inf b → f.fdiv c x y = f.signed (a != b) 0) ∧
    (∀ a b m n e k, v = .fin a m e → w = .fin b n k →
      (m = 0 → n = 0 → f.fdiv c x y = f.nan) ∧
      (m ≠ 0 → n = 0 → f.fdiv c x y = f.signed (a != b) past) ∧
      (m = 0 → n ≠ 0 → f.fdiv c x y = f.signed (a != b) 0) ∧
      (m ≠ 0 → n ≠ 0 → rounds (a != b) (val m e / val n k) (f.fdiv c x y))) ∧
    (∀ a m e, v = .fin a m e → m ≠ 0 → rounds a (1 / val m e) (f.frcp c x)) ∧
    (∀ m e, v = .fin false m e → m ≠ 0 → rounds false (Real.sqrt (val m e)) (f.fsqrt c x))) ∧
  (∀ (x : BitVec 32) (neg : Bool) (m : Nat) (e : Int), FloatFmt.f32.decode x.toNat = .fin neg m e → m ≠ 0 →
    let fix (v : Int) : ℚ := (v : ℚ) / 2 ^ 96
    let ulps (n : Nat) (m : Nat) (e : Int) : ℚ := n * 2 ^ (max (-149) (e + Nat.log2 m - 23))
    let mag := x.toNat % 2 ^ 31
    (neg = false → ∃ k, k < FloatFmt.f32.infMag ∧ (rsqrt32 x).toNat = k ∧
      (let y : ℝ := 1 / Real.sqrt ((m : ℝ) * (2 : ℝ) ^ e)
       |((FloatFmt.f32.magValue k : ℚ) : ℝ) - y| ≤ (2 : ℝ) ^ (max (-149) (Int.log 2 y - 23)) * (1 + 1 / 2 ^ 40))) ∧
    (neg = false → (128 : ℚ) ≤ m * 2 ^ e → exp2f x = 0x7F800000) ∧
    (neg = true → (200 : ℚ) < m * 2 ^ e → Near (exp2f x) 0 (2 * 2 ^ (-149 : Int))) ∧
    (neg = false ∧ m * 2 ^ e < (128 : ℚ) ∨ neg = true ∧ m * 2 ^ e ≤ (200 : ℚ) →
      let r := exp2Fix (fxOf neg m e)
      Near (exp2f x) (r.1 * 2 ^ r.2) (ulps 2 r.1 r.2)) ∧
    (neg = false →
      (0x3F000000 ≤ x.toNat → x.toNat ≤ 0x40000000 → Near (log2f x) (fix (log2Fix m e)) (1 / 2 ^ 22)) ∧
      (x.toNat < 0x3F000000 ∨ 0x40000000 < x.toNat →
        Near (log2f x) (fix (log2Fix m e)) (ulps 2 (log2Fix m e).natAbs (-96)))) ∧
    (∀ (c : Bool) (cand : BitVec 32),
      (mag ≤ 0x49800000 → Near (trig32 c cand x) (fix (trigFix c neg m e)) (1 / 2 ^ 21)) ∧
      (0x49800000 < mag → (trig32 c cand x).toNat % 2 ^ 31 ≤ 0x3F800000)) ∧
    (0x39800000 ≤ mag → Near (tanh32 x)
      (if 0x42C80000 ≤ mag then (if neg then -1 else 1) else fix (2 * logisticFix (fxMul (2 * fxOf neg m e) fxLog2e) - 2 ^ 96)) (1 / 2 ^ 21)) ∧
    Near (sigm32 x)
      (if 0x42C80000 ≤ mag then (if neg then 0 else 1) else fix (logisticFix (fxMul (fxOf neg m e) fxLog2e))) (1 / 2 ^ 22))

/-- R138: the special operands of the special functions in FP32, and that TANH returns a small operand unchanged. -/
def Claims.SpecialOperandsHaveTheirResults : Prop :=
  let c : RoundCfg := ⟨0, false, false⟩
  let sin (x : BitVec 32) : BitVec 32 := trig32 false (Config.sinCandidate x) x
  let cos (x : BitVec 32) : BitVec 32 := trig32 true (Config.cosCandidate x) x
  let row (x : BitVec 32) (r : List (BitVec 32)) : Prop :=
    [BitVec.ofNat 32 (FloatFmt.f32.frcp c x.toNat), rsqrt32 x, BitVec.ofNat 32 (FloatFmt.f32.fsqrt c x.toNat), exp2f x, log2f x,
      sin x, cos x, tanh32 x, sigm32 x] = r
  row 0x00000000 [0x7F800000, 0x7F800000, 0, 0x3F800000, 0xFF800000, 0, 0x3F800000, 0, 0x3F000000] ∧
  row 0x80000000 [0xFF800000, 0xFF800000, 0x80000000, 0x3F800000, 0xFF800000, 0x80000000, 0x3F800000, 0x80000000, 0x3F000000] ∧
  row 0x7F800000 [0, 0, 0x7F800000, 0x7F800000, 0x7F800000, 0x7FC00000, 0x7FC00000, 0x3F800000, 0x3F800000] ∧
  row 0xFF800000 [0x80000000, 0x7FC00000, 0x7FC00000, 0, 0x7FC00000, 0x7FC00000, 0x7FC00000, 0xBF800000, 0] ∧
  (∀ x : BitVec 32, (FloatFmt.f32.decode x.toNat).isNan = true → row x (List.replicate 9 0x7FC00000)) ∧
  (∀ x : BitVec 32, x.getLsbD 31 = true → x.toNat < 0xFF800000 → x.toNat ≠ 0x80000000 →
    rsqrt32 x = 0x7FC00000 ∧ FloatFmt.f32.fsqrt c x.toNat = 0x7FC00000 ∧ log2f x = 0x7FC00000) ∧
  (∀ x : BitVec 32, x.toNat % 2 ^ 31 < 0x39800000 → tanh32 x = x)

/-- R102, R137 and R138: the long-latency words on registers.
Where the spec leaves it open this rests on the model's choices, log entries 16, 23. -/
def Obligations.LongLatencyWordsArriveLater : Prop :=
  Claims.FullMultipliesArriveLater ∧ Claims.SpecialFunctionsArriveLater ∧ Claims.SpecialFunctionsKeepTheirBounds ∧
  Claims.SpecialOperandsHaveTheirResults

/-- R130 and R131: the scalar float words round the exact result once; FMIN and FMAX return an operand's pattern as read. -/
def Claims.FloatArithmeticRoundsOnce : Prop :=
  ∀ d a b c : RegCode,
    ComputesLanes (.ffma d a b c) d (fun x L =>
      x.roundedAt L (((x.valAt a L).mul (x.valAt b L)).add (x.roundAt L).rnd (x.valAt c L))) ∧
    ComputesLanes (.fadd d a b) d (fun x L => x.roundedAt L ((x.valAt a L).add (x.roundAt L).rnd (x.valAt b L))) ∧
    ComputesLanes (.fsub d a b) d (fun x L => x.roundedAt L ((x.valAt a L).add (x.roundAt L).rnd (x.valAt b L).neg)) ∧
    ComputesLanes (.fmul d a b) d (fun x L => x.roundedAt L ((x.valAt a L).mul (x.valAt b L))) ∧
    (let pick (isMax : Bool) (x : Exe) (L : Nat) : BitVec 32 := BitVec.ofNat 32 (
      if (x.valAt a L).isNan && (x.valAt b L).isNan then (x.fmtAt L).nan
      else if (x.valAt a L).isNan then x.patAt b L
      else if (x.valAt b L).isNan then x.patAt a L
      else if (if isMax then (x.fmtAt L).before (x.patAt a L) (x.patAt b L) else (x.fmtAt L).before (x.patAt b L) (x.patAt a L))
        then x.patAt b L else x.patAt a L)
    ComputesLanes (.fmin d a b) d (pick false) ∧ ComputesLanes (.fmax d a b) d (pick true))

/-- R132: FCMP writes the relation of the exact values; the two zeros are equal and a NaN is unordered. -/
def Claims.FcmpComparesExactValues : Prop :=
  ∀ d a b : RegCode,
    let u (x : Exe) (L : Nat) : Bool := (x.valAt a L).isNan || (x.valAt b L).isNan
    let lt (x : Exe) (L : Nat) : Bool := (x.valAt a L).lt (x.valAt b L)
    let gt (x : Exe) (L : Nat) : Bool := (x.valAt b L).lt (x.valAt a L)
    ComputesPred (.fcmp d a b 0) d (fun x L => !u x L && !(lt x L || gt x L)) ∧
    ComputesPred (.fcmp d a b 1) d (fun x L => u x L || (lt x L || gt x L)) ∧
    ComputesPred (.fcmp d a b 2) d (fun x L => !u x L && lt x L) ∧
    ComputesPred (.fcmp d a b 3) d (fun x L => !u x L && !gt x L) ∧
    ComputesPred (.fcmp d a b 4) d u

/-- R116 and R133: each half of a packed result is the scalar result of the like-numbered halves, under the format of the
packed type. -/
def Claims.PackedFloatsWorkOnHalves : Prop :=
  ∀ d a b c : RegCode,
    let half (x : Exe) (r : RegCode) (L k : Nat) : Nat := (x.rd r.toNat L).toNat / 2 ^ (16 * k) % 2 ^ 16
    let halves (i : Instr) (g : FloatFmt → RoundCfg → Nat → Nat → Nat → Nat) : Prop :=
      ∃ r : Exe → Nat → BitVec 32, ComputesLanes i d r ∧ ∀ (x : Exe) (L k : Nat), k < 2 →
        (r x L).toNat / 2 ^ (16 * k) % 2 ^ 16 =
          g (x.fmtAt L) (x.roundAt L) (half x a L k) (half x b L k) (half x c L k) % 2 ^ 16
    halves (.ffma2 d a b c) (fun f r u v w => f.fma r u v w) ∧
    halves (.fadd2 d a b) (fun f r u v _ => f.fadd r u v) ∧
    halves (.fmul2 d a b) (fun f r u v _ => f.fmul r u v) ∧
    halves (.fmin2 d a b) (fun f r u v _ => f.fminmax r.sub false u v) ∧
    halves (.fmax2 d a b) (fun f r u v _ => f.fminmax r.sub true u v)

/-- R134: FABS and FNEG act on the sign bits of the pattern alone, FCLASS writes one bit by the class of the pattern as
stored. -/
def Claims.SignAndClassActOnPatterns : Prop :=
  ∀ d a : RegCode,
    (∃ r : Exe → Nat → BitVec 32, ComputesLanes (.fabs d a) d r ∧ ∀ (x : Exe) (L k : Nat), k < 32 →
      (r x L).getLsbD k =
        ((x.rd a.toNat L).getLsbD k && !(signMask (modeType (x.modeAt L))).getLsbD k &&
          (decide (k < 16) || (modeType (x.modeAt L) != 0x11 && modeType (x.modeAt L) != 0x12)))) ∧
    (∃ r : Exe → Nat → BitVec 32, ComputesLanes (.fneg d a) d r ∧ ∀ (x : Exe) (L k : Nat), k < 32 →
      (r x L).getLsbD k =
        (((x.rd a.toNat L).getLsbD k ^^ (signMask (modeType (x.modeAt L))).getLsbD k) &&
          (decide (k < 16) || (modeType (x.modeAt L) != 0x11 && modeType (x.modeAt L) != 0x12)))) ∧
    ComputesLanes (.fclass d a) d (fun x L =>
      let f := x.fmtAt L
      let p := floatOperand (modeType (x.modeAt L)) (x.rd a.toNat L)
      let neg := p.testBit f.signBit
      let mag := p % 2 ^ f.signBit
      BitVec.ofNat 32 (2 ^
        (if mag = f.infMag then (if neg then 0 else 7)
        else if f.infMag < mag then (if mag.testBit (f.mbits - 1) then 9 else 8)
        else if mag = 0 then (if neg then 3 else 4)
        else if mag < 2 ^ f.mbits then (if neg then 2 else 5)
        else (if neg then 1 else 6))))

/-- The major of FCMP (R132). -/
def Claims.FcmpHasItsMajor : Prop := ∀ (d a b : RegCode) (fn : BitVec 6), InMajor 0x42 [.fcmp d a b fn]

/-- R130 to R134: the float words that complete at their issue. -/
def Obligations.FloatWordsRoundOnce : Prop :=
  Claims.FloatArithmeticRoundsOnce ∧ Claims.FcmpComparesExactValues ∧ Claims.PackedFloatsWorkOnHalves ∧ Claims.SignAndClassActOnPatterns ∧ Claims.FcmpHasItsMajor

/-- R118, R121, R122, R135 and R136: the conversions between floats and integers, whose integer is the one that the rounding mode picks;
FRND, which keeps signs, infinities and the format; and CVT, whose narrow side is an element of d or a by sel: ops 0, 1, 4 and 6 keep
every bit of d outside the element they write, the others write the exact value. -/
def Claims.ConversionsRoundIntoTheirTargets : Prop :=
  ∀ d a : RegCode,
    (let toInt (lo hi : Int) (bad : BitVec 32) (x : Exe) (L : Nat) : BitVec 32 :=
      match x.valAt a L with
      | .nan => if modeSat (x.modeAt L) then 0 else bad
      | .inf neg => if modeSat (x.modeAt L) then BitVec.ofInt 32 (if neg then lo else hi) else bad
      | .fin neg m e =>
        let v := roundInt (x.roundAt L).rnd neg m e
        if lo ≤ v ∧ v ≤ hi then BitVec.ofInt 32 v
        else if modeSat (x.modeAt L) then BitVec.ofInt 32 (min (max v lo) hi) else bad
    ComputesLanes (.f2i d a) d (toInt (-2 ^ 31) (2 ^ 31 - 1) 0x80000000) ∧
    ComputesLanes (.f2n d a) d (toInt 0 (2 ^ 32 - 1) 0xFFFFFFFF)) ∧
    ComputesLanes (.i2f d a) d (fun x L => x.roundedAt L
      (.fin (decide ((x.rd a.toNat L).toInt < 0)) (x.rd a.toNat L).toInt.natAbs 0)) ∧
    ComputesLanes (.n2f d a) d (fun x L => x.roundedAt L (.fin false (x.rd a.toNat L).toNat 0)) ∧
    ComputesLanes (.frnd d a) d (fun x L => BitVec.ofNat 32 ((x.fmtAt L).frnd (x.roundAt L).rnd (x.roundAt L).sub
      (floatOperand (modeType (x.modeAt L)) (x.rd a.toNat L)))) ∧
    (∀ rnd, rnd ≤ 4 → ∀ (neg : Bool) (m : Nat) (e : Int), ∃ k : Nat, roundInt rnd neg m e = (if neg then -(k : Int) else k) ∧
      Picks (fun j => (j : ℝ)) rnd neg ((m : ℝ) * (2 : ℝ) ^ e) k) ∧
    (∃ r : Exe → Nat → BitVec 32, ComputesLanes (.frnd d a) d r ∧ ∀ (x : Exe) (L : Nat), (x.roundAt L).rnd ≤ 4 →
      let f := x.fmtAt L
      match x.valAt a L with
      | .nan => (r x L).toNat = f.nan
      | .inf neg => (r x L).toNat = f.signed neg f.infMag
      | .fin neg m e => ∃ k p : Nat, Picks (fun j => (j : ℝ)) (x.roundAt L).rnd neg ((m : ℝ) * (2 : ℝ) ^ e) k ∧
          p < f.infMag ∧ f.magValue p = k ∧ (r x L).toNat = f.signed neg p) ∧
    (∀ (op : BitVec 4) (sel : BitVec 2), op.toNat ≤ 7 → (op.toNat ≤ 3 → sel.toNat < 2) →
      ∃ r : Exe → Nat → BitVec 32, ComputesLanes (.cvt d a op sel) d r ∧ ∀ (x : Exe) (L : Nat), modeRnd (x.modeAt L) ≤ 4 →
        let rnd := modeRnd (x.modeAt L)
        let sat := modeSat (x.modeAt L)
        let sub := modeSub (x.modeAt L)
        let v := FloatFmt.f32.decode (x.rd a.toNat L).toNat
        let wide (w : Nat) : Nat := (x.rd a.toNat L).toNat / 2 ^ (w * sel.toNat) % 2 ^ w
        let writes (w : Nat) (ok : Nat → Prop) : Prop := ok ((r x L).toNat / 2 ^ (w * sel.toNat) % 2 ^ w) ∧
          ∀ k, k < 32 → k < w * sel.toNat ∨ w * (sel.toNat + 1) ≤ k → (r x L).getLsbD k = (x.rd d.toNat L).getLsbD k
        match op.toNat with
        | 0 => writes 16 (FloatFmt.f16.Narrows rnd sat sub v)
        | 1 => writes 16 (FloatFmt.bf16.Narrows rnd sat sub v)
        | 2 => FloatFmt.f16.Widens sub (wide 16) (r x L).toNat
        | 3 => FloatFmt.bf16.Widens sub (wide 16) (r x L).toNat
        | 4 => writes 8 (TaperedCode 7 rnd v)
        | 5 => TaperedPattern 7 (wide 8) (r x L).toNat
        | 6 => writes 8 (TaperedCode 5 rnd v)
        | _ => TaperedPattern 5 (wide 8 % 64) (r x L).toNat)

/-- R117: every mode rounds as its row of the table says, overflow and saturation included. And so round-to-nearest-even,
round-toward-zero and the directed modes pick a representable neighbour of the exact value: toward zero never exceeds it and leaves
less than one step, and to nearest no finite pattern is closer, ties going to the even one. -/
def Claims.RoundingPicksTheRightNeighbour : Prop :=
  ∀ f : FloatFmt, f ∈ [FloatFmt.f32, .f16, .bf16, .f64] → ∀ (neg sat : Bool) (m : Nat) (e : Int), 0 < m →
    let x : ℚ := (m : ℚ) * 2 ^ e
    let mag (rnd : Nat) : Nat := f.round rnd sat neg m e % 2 ^ f.signBit
    (∀ rnd, rnd ≤ 4 → f.Rounds rnd sat neg ((m : ℝ) * (2 : ℝ) ^ e) (f.round rnd sat neg m e)) ∧
    (∀ rnd, rnd ≤ 4 → (f.round rnd sat neg m e).testBit f.signBit = neg) ∧
    f.magValue (mag 1) ≤ x ∧ (mag 1 + 1 < f.infMag → x < f.magValue (mag 1 + 1)) ∧
    (x ≤ f.magValue (f.infMag - 1) →
      (∀ p, p < f.infMag → |x - f.magValue (mag 0)| ≤ |x - f.magValue p|) ∧
      (∀ p, p < f.infMag → p ≠ mag 0 → |x - f.magValue (mag 0)| = |x - f.magValue p| → mag 0 % 2 = 0) ∧
      (mag (if neg then 3 else 2) = mag 1) ∧
      (x ≤ f.magValue (mag (if neg then 2 else 3)) ∧
        (mag (if neg then 2 else 3) ≠ mag 1 → f.magValue (mag 1) < x ∧ mag (if neg then 2 else 3) = mag 1 + 1)))

/-- R117, R135 and R136: conversions and rounding.
Where the spec leaves it open this rests on the model's choices, log entry 116. -/
def Obligations.ConversionsAndRounding : Prop :=
  Claims.ConversionsRoundIntoTheirTargets ∧ Claims.RoundingPicksTheRightNeighbour

/-- R84 and R139 to R145: the cross-lane words read every source before any lane is written. SHFL reads the lane its rule
names if that lane participates; VOTE, RED, SCAN and BCAST combine each group; MATCH and BALLOT write masks of lanes. -/
def Claims.CrossLaneWordsCombineTheirGroups : Prop :=
  ∀ d a b : RegCode,
    let votes (x : Exe) (L : Nat) : List Nat := (groupOf x x.lanes b.toNat L).filter (x.pr a.toNat)
    let vals (x : Exe) (L : Nat) : List (BitVec 32) := (groupOf x x.lanes b.toNat L).map (x.rd a.toNat)
    (∀ fn : RegCode, fn.toNat ≤ 3 → ComputesLanes (.shfl d a b fn) d fun x L =>
      let n := (x.rd b.toNat L).toNat
      let src : Option Nat := match fn.toNat with
        | 0 => some (n % x.width)
        | 1 => if n ≤ L then some (L - n) else none
        | 2 => if L + n < x.width then some (L + n) else none
        | _ => some (Nat.xor L (n % x.width))
      match src with
      | some m => if m ∈ x.lanes then x.rd a.toNat m else x.rd a.toNat L
      | none => x.rd a.toNat L) ∧
    ComputesPred (.vote d a b 0) d (fun x L => !(votes x L).isEmpty) ∧
    ComputesPred (.vote d a b 1) d (fun x L => (votes x L).length == (groupOf x x.lanes b.toNat L).length) ∧
    ComputesPair (.vote d a b 2) d (fun x L => BitVec.ofNat 64 (maskOf (votes x L))) ∧
    ComputesLanes (.red d a b 0) d (fun x L =>
      groupSum (modeType (x.modeAt L)) (modeSat (x.modeAt L)) (roundCfg (x.modeAt L) 0x10) (vals x L)) ∧
    ComputesLanes (.red d a b 1) d (fun x L => groupMinMax (modeType (x.modeAt L)) false (vals x L)) ∧
    ComputesLanes (.red d a b 2) d (fun x L => groupMinMax (modeType (x.modeAt L)) true (vals x L)) ∧
    ComputesLanes (.red d a b 3) d (fun x L => (vals x L).foldr (· &&& ·) 0xFFFFFFFF) ∧
    ComputesLanes (.red d a b 4) d (fun x L => (vals x L).foldr (· ||| ·) 0) ∧
    (∀ fn : RegCode, fn.toNat ≤ 1 → ComputesLanes (.scan d a b fn) d fun x L =>
      groupSum (modeType (x.modeAt L)) (modeSat (x.modeAt L)) (roundCfg (x.modeAt L) 0x10)
        (((groupOf x x.lanes b.toNat L).filter fun M => if fn = 0 then decide (M ≤ L) else decide (M < L)).map (x.rd a.toNat))) ∧
    ComputesPair (.matchKey d a) d (fun x L =>
      BitVec.ofNat 64 (maskOf (x.lanes.filter fun M => decide (x.rd a.toNat M = x.rd a.toNat L)))) ∧
    ComputesLanes (.bcast d a b) d (fun x L => x.rd a.toNat ((groupOf x x.lanes b.toNat L).headD L))

/-- The majors of SHFL, VOTE and BCAST (R140, R141, R145). -/
def Claims.CrossLaneMajors : Prop :=
  ∀ (d a b fn : RegCode), InMajor 0x70 [.shfl d a b fn] ∧ InMajor 0x71 [.vote d a b fn] ∧ InMajor 0x75 [.bcast d a b]

/-- R84 and R139 to R145: the cross-lane words.
Where the spec leaves it open this rests on the model's choices, log entry 22. -/
def Obligations.CrossLaneWordsCombineTheirGroups : Prop :=
  Claims.CrossLaneWordsCombineTheirGroups ∧ Claims.CrossLaneMajors

/-! ### Control flow -/

/-- R149: BR sends each slice whose active lanes all take it to the target and each slice in which none does to the next word;
a slice whose lanes disagree raises BRANCH-SPLIT with those lanes. A scalar agent tests bit 0 of the predicate. -/
def Claims.BranchesSendEachSliceOneWay : Prop :=
  ∀ (cond : BitVec 4) (off : BitVec 20) (s : State),
    (∀ q, GangRuns (.br cond off) s q →
      let T (j : Nat) : List Nat := (q.w.active j).filter fun L => condHolds cond.toNat q.w.p L
      ((∀ j ∈ q.g.slices, (T j = q.w.active j ∧ inCode q.pc off.toInt) ∨
          (T j ≠ q.w.active j ∧ T j = [] ∧ inCode q.pc 1)) →
        ∃ t v, exec (.br cond off) s = .next t ∧ Parted s t q (fun j x => { x with
          pc := if T j = q.w.active j then codeAt q.pc off.toInt else codeAt q.pc 1 }) .none v ∧ q.w.sameRegisters v) ∧
      (∀ j, q.g.slices.find? (fun j => !(T j).isEmpty && T j != q.w.active j) = some j →
        inCode q.pc off.toInt → inCode q.pc 1 →
        exec (.br cond off) s = .next (s.raiseAt q { cause := 9, arg0 := j, arg1 := maskOf (T j) }))) ∧
    (let goes (x : Scalar) : Int := if condHolds cond.toNat x.p 0 then off.toInt else 1
    (∀ c, CollieRuns (.br cond off) s c → inCode c.x.pc (goes c.x) →
      exec (.br cond off) s = .next (s.putCollie { c with x := { c.x with pc := codeAt c.x.pc (goes c.x), run := {} } })) ∧
    (McRuns (.br cond off) s → inCode s.mc.x.pc (goes s.mc.x) →
      exec (.br cond off) s = .next { s with mc := { s.mc with x := { s.mc.x with
        pc := codeAt s.mc.x.pc (goes s.mc.x), run := {} } } }))

/-- R150: BRD pushes the lanes whose condition holds and goes on with the others; a slice that goes one way pushes nothing; a
ninth entry raises DIVERGE-DEPTH and leaves every slice as it was. -/
def Claims.DivergentBranchesDeferLanes : Prop :=
  ∀ (cond : BitVec 4) (off : BitVec 20) (s : State) (q : Seat), GangRuns (.brd cond off) s q →
    inCode q.pc off.toInt → inCode q.pc 1 →
    let T (j : Nat) : List Nat := (q.w.active j).filter fun L => condHolds cond.toNat q.w.p L
    let N (j : Nat) : List Nat := (q.w.active j).filter fun L => !condHolds cond.toNat q.w.p L
    let lanes (l : List Nat) : BitVec 4 := BitVec.ofNat 4 (maskOf (l.map (· % 4)))
    let splits (j : Nat) : Prop := T j ≠ [] ∧ N j ≠ []
    ((∀ j ∈ q.g.slices, splits j → (q.w.slice j).stack.length < 8) →
      ∃ t v, exec (.brd cond off) s = .next t ∧ q.w.sameRegisters v ∧ Parted s t q (fun j x =>
        if N j = [] then { x with pc := codeAt q.pc off.toInt }
        else if T j = [] then { x with pc := codeAt q.pc 1 }
        else { x with
          stack := ⟨codeAt q.pc off.toInt, lanes (T j), false⟩ :: x.stack, lanemask := lanes (N j)
          pc := codeAt q.pc 1 }) .none v) ∧
    ((∃ j ∈ q.g.slices, splits j ∧ 8 ≤ (q.w.slice j).stack.length) →
      exec (.brd cond off) s = .next (s.raiseAt q { cause := 8 }))

/-- R151: RJOIN switches a slice to the lanes its top entry defers to the next word, rejoins the lanes a joined entry holds
at the join address, and otherwise goes to the join address. -/
def Claims.RjoinClosesOneArm : Prop :=
  ∀ (off : BitVec 20) (s : State) (q : Seat), GangRuns (.rjoin off) s q → inCode q.pc off.toInt → inCode q.pc 1 →
    ∃ t v, exec (.rjoin off) s = .next t ∧ q.w.sameRegisters v ∧ Parted s t q (fun _ x =>
      match x.stack with
      | [] => { x with pc := codeAt q.pc off.toInt }
      | e :: rest =>
        if e.joined = false ∧ e.pc = codeAt q.pc 1 then
          { x with stack := ⟨codeAt q.pc off.toInt, x.lanemask, true⟩ :: rest, lanemask := e.mask, pc := codeAt q.pc 1 }
        else if e.joined = true ∧ e.pc = codeAt q.pc off.toInt then
          { x with stack := rest, lanemask := x.lanemask ||| e.mask, pc := codeAt q.pc off.toInt }
        else { x with pc := codeAt q.pc off.toInt }) .none v

/-- A cond of 8 makes BR and BRD undefined words, a cond of 0 BRD (R149, R150). -/
def Claims.ConditionsWithoutMeaning : Prop :=
  ∀ (pr : Profile) (off : BitVec 20), WellFormed pr (.br 8 off) = false ∧ WellFormed pr (.brd 8 off) = false ∧
    WellFormed pr (.brd 0 off) = false

/-- R149 to R151: branches and divergence.
The model's choices, log entries 21 (only targets that a slice takes are checked) and 125 (the bits of BRANCH-SPLIT's mask): a clause
that rests on one is no rule of the spec. -/
def Obligations.BranchesSplitAndRejoin : Prop :=
  Claims.BranchesSendEachSliceOneWay ∧ Claims.DivergentBranchesDeferLanes ∧ Claims.RjoinClosesOneArm ∧ Claims.ConditionsWithoutMeaning

/-- R154: BRX sends each slice to the code address that its lowest active lane holds in the pair; active lanes that disagree
raise BRANCH-SPLIT, a value that is no code address BRANCH-TARGET. No range of the context is moved here (R358). -/
def Obligations.BrxSendsEachSliceToItsPair : Prop :=
  ∀ (a : RegCode) (s : State),
    (∀ q, GangRuns (.brx a) s q → (s.ctxOf q.w.wg).fwd = [] →
      let v (j : Nat) : Nat := (q.exe.rd64 a.toNat (q.firstActive j)).toNat
      ((∀ j ∈ q.g.slices, q.agrees a.toNat j ∧ v j < 2 ^ 48 ∧ v j % 4 = 0) →
        ∃ t w, exec (.brx a) s = .next t ∧ q.w.sameRegisters w ∧
          Parted s t q (fun j x => { x with pc := BitVec.ofNat 48 (v j) }) .none w) ∧
      (∀ j, q.g.slices.head? = some j → q.agrees a.toNat j → 2 ^ 48 ≤ v j ∨ v j % 4 ≠ 0 →
        exec (.brx a) s = .next (s.raiseAt q { cause := 0xA, arg0 := v j })) ∧
      (∀ j, q.g.slices.head? = some j → ¬ q.agrees a.toNat j →
        exec (.brx a) s = .next (s.raiseAt q { cause := 9, arg0 := j, arg1 := maskOf ((q.w.active j).filter fun L =>
          q.exe.rd64 a.toNat L != q.exe.rd64 a.toNat (q.firstActive j)) }))) ∧
    (∀ c, CollieRuns (.brx a) s c → (s.ctxOf c.wg).fwd = [] →
      let v := (Exe.rd64 (.scal c.x) a.toNat 0).toNat
      v < 2 ^ 48 → v % 4 = 0 → exec (.brx a) s = .next (s.putCollie { c with x := { c.x with pc := BitVec.ofNat 48 v, run := {} } })) ∧
    (McRuns (.brx a) s →
      let v := (Exe.rd64 (.scal s.mc.x) a.toNat 0).toNat
      v < 2 ^ 48 → v % 4 = 0 → exec (.brx a) s = .next { s with mc := { s.mc with x := { s.mc.x with pc := BitVec.ofNat 48 v, run := {} } } })

/-- R155 and R156: CALL and CALLI raise every slice's window by n, leave the return address in w42:w43 of all four lanes of
each slice and go to the target; RET goes to the address in w42:w43 and lowers the window by n. A window that does not
reach the spill area's end and a target in the code space are asked for; registers below the new window keep their values.
Where the spec leaves it open this rests on the model's choices, log entry 17. -/
def Obligations.CallsSlideTheWindow : Prop :=
  ∀ (n : BitVec 6) (s : State) (q : Seat), sparseWf 0 q.w.regs = true → (s.ctxOf q.w.wg).fwd = [] →
    let fits : Prop := ∀ j ∈ q.g.slices, q.w.overflows (s.wg q.w.wg).privB (s.wg q.w.wg).sliceB j n.toNat = false
    let ret : BitVec 48 := codeAt q.pc 1
    let called (i : Instr) (target : Nat → BitVec 48) : Prop :=
      ∃ t v, exec i s = .next t ∧ t.mem = s.mem ∧ t.findWarp q.w.core q.w.slot = some v ∧ v.s = q.w.s ∧ v.p = q.w.p ∧
        (∀ j ∈ q.g.slices, (v.slice j).base = (q.w.slice j).base + n.toNat ∧ (v.slice j).pc = target j ∧
          (v.slice j).mode = (q.w.slice j).mode ∧ (v.slice j).lanemask = (q.w.slice j).lanemask ∧
          ∀ L ∈ lanesOf j, v.read 42 L = ret.setWidth 32 ∧ v.read 43 L = (ret >>> 32).setWidth 32 ∧
            ∀ c, n.toNat ≤ c → c < 42 + n.toNat → c < 44 → v.read (c - n.toNat) L = q.w.read c L) ∧
        (∀ h ∈ v.gangs, h ∉ q.w.gangs → h.run = none)
    (∀ off : BitVec 18, GangRuns (.call n off) s q → inCode q.pc 1 → inCode q.pc off.toInt → fits →
      called (.call n off) fun _ => codeAt q.pc off.toInt) ∧
    (∀ a : BitVec 6, GangRuns (.calli n a) s q → inCode q.pc 1 → fits →
      let v (j : Nat) : Nat := (q.exe.rd64 a.toNat (q.firstActive j)).toNat
      (∀ j ∈ q.g.slices, q.agrees a.toNat j ∧ v j < 2 ^ 48 ∧ v j % 4 = 0) →
      called (.calli n a) fun j => BitVec.ofNat 48 (v j)) ∧
    (GangRuns (.ret n) s q →
      let v (j : Nat) : Nat := (q.exe.rd64 42 (q.firstActive j)).toNat
      (∀ j ∈ q.g.slices, q.agrees 42 j ∧ v j < 2 ^ 48 ∧ v j % 4 = 0 ∧ n.toNat ≤ (q.w.slice j).base) →
      ∃ t w, exec (.ret n) s = .next t ∧ t.mem = s.mem ∧ t.findWarp q.w.core q.w.slot = some w ∧ w.s = q.w.s ∧ w.p = q.w.p ∧
        (∀ j ∈ q.g.slices, (w.slice j).base = (q.w.slice j).base - n.toNat ∧ (w.slice j).pc = BitVec.ofNat 48 (v j) ∧
          (w.slice j).mode = (q.w.slice j).mode ∧ (w.slice j).lanemask = (q.w.slice j).lanemask ∧
          ∀ L ∈ lanesOf j, ∀ c, c < 44 →
            w.read c L = sparseGet 0 q.w.regs (regKey ((q.w.slice j).base - n.toNat + c) L)) ∧
        (∀ h ∈ w.gangs, h ∉ q.w.gangs → h.run = none))

/-- R40: a trailer ends the run at the next word: nothing but the pc, the run and which pending results are deferred changes,
and a pending result is deferred exactly when the trailer names a register of it. -/
def Claims.TrailersEndTheRun : Prop :=
  ∀ (i : Instr) (s : State), (∃ count x1 x2 x3, i = .trl count x1 x2 x3) ∨ (∃ x1 x2, i = .trlRange x1 x2) →
    let codes : List Nat := match i with
      | .trl count x1 x2 x3 => [x1.toNat, x2.toNat, x3.toNat].take count.toNat
      | .trlRange x1 x2 => List.range' x1.toNat (x2.toNat + 1 - x1.toNat)
      | _ => []
    let named (p : Pending) (l : List RegName) : Bool := p.names.any fun r => l.contains r
    (∀ q, GangRuns i s q → inCode q.pc 1 →
      ∃ v : Warp, exec i s = .next (s.nextFree.putWarp v) ∧ q.w.sameRegisters v ∧
        v.gangs = (q.w.putGang q.lead { q.g with run := none }).gangs ∧
        (∀ j, v.slice j = if j ∈ q.g.slices then { q.w.slice j with pc := codeAt q.pc 1 } else q.w.slice j) ∧
        v.pend = q.w.pend.map fun p => if p.slices.any q.g.slices.contains && named p (q.w.namesOf q.g.slices codes)
          then { p with deferred := true } else p) ∧
    (∀ c, CollieRuns i s c → inCode c.x.pc 1 → exec i s = .next (s.putCollie { c with x := { c.x with
      pc := codeAt c.x.pc 1, run := {}
      pend := c.x.pend.map fun p => if p.slices.any [0].contains && named p (scalarNames codes) then { p with deferred := true } else p } })) ∧
    (McRuns i s → inCode s.mc.x.pc 1 → exec i s = .next { s with mc := { s.mc with x := { s.mc.x with
      pc := codeAt s.mc.x.pc 1, run := {}
      pend := s.mc.x.pend.map fun p => if p.slices.any [0].contains && named p (scalarNames codes) then { p with deferred := true } else p } } })

/-- R162, R82: EXIT ends the lanes that execute: a slice with lanes left goes on at the next word, one without takes its stack's
top entry that still holds lanes, and one with neither ends. No gang of the warp waits at REGANG here, whose set an ending slice
could complete, and no tile operation of the workgroup has stopped, which a warp's end would report. -/
def Claims.ExitEndsTheExecutingLanes : Prop :=
  ∀ (s : State) (q : Seat), GangRuns .exit s q → inCode q.pc 1 → (∀ h ∈ q.w.gangs, ∀ set, h.park ≠ .regang set) →
    (∀ o ∈ s.pillows.ops, o.wg = q.w.wg → o.stop = none) →
    ∃ t v, exec .exit s = .next t ∧ t.findWarp q.w.core q.w.slot = some v ∧ q.w.sameRegisters v ∧
      ∀ j ∈ q.g.slices,
        let left : BitVec 4 := (q.w.slice j).lanemask &&&
          ~~~ BitVec.ofNat 4 (maskOf ((q.exe.lanes.filter fun L => L / 4 == j).map (· % 4)))
        if left ≠ 0 then (v.slice j).lanemask = left ∧ (v.slice j).pc = codeAt q.pc 1 ∧ (v.slice j).live = (q.w.slice j).live
        else match (q.w.slice j).stack.dropWhile fun e => e.mask == 0 with
          | e :: rest => (v.slice j).lanemask = e.mask ∧ (v.slice j).pc = e.pc ∧ (v.slice j).stack = rest
          | [] => (v.slice j).live = false

/-- R40 and R162: the words that end a run and lanes.
Where the spec leaves it open this rests on the model's choices, log entry 115. -/
def Obligations.RunsEndAtTrailersAndExit : Prop :=
  Claims.TrailersEndTheRun ∧ Claims.ExitEndsTheExecutingLanes

/-- R157, R158, R153: YIELD parks the gang at its continuation; YIELD.B parks it on the barrier's phase, its slices marked
there, and completes the warp's arrival when they are the last; REGANG parks the gang where it stands. -/
def Claims.WaitingWordsParkTheGang : Prop :=
  ∀ (s : State) (q : Seat),
    (∀ off : BitVec 20, GangRuns (.yield off) s q → inCode q.pc off.toInt →
      ∃ t v, exec (.yield off) s = .next t ∧ q.w.sameRegisters v ∧
        Parted s t q (fun _ x => { x with pc := codeAt q.pc off.toInt })
          (.yield (codeAt q.pc off.toInt) s.sched.now (sparseGet 0 s.sched.starts q.w.core)) v) ∧
    (∀ (b : BitVec 4) (off : BitVec 20), GangRuns (.yieldB b off) s q → inCode q.pc off.toInt →
      b.toNat < (s.wg q.w.wg).bars.length → s.findWg q.w.wg = some (s.wg q.w.wg) →
      (∃ h ∈ q.w.gangs, h.slices.head? ≠ some q.lead ∧ h.yieldBar = none) ∨
        (∀ h ∈ q.w.gangs, h.slices.head? ≠ some q.lead → h.yieldBar = some b.toNat) →
      ∃ t t' v, exec (.yieldB b off) s = .next t' ∧ q.w.sameRegisters v ∧
        Parted s t q (fun _ x => { x with pc := codeAt q.pc off.toInt })
          (.yieldB b.toNat (codeAt q.pc off.toInt) ((s.wg q.w.wg).bars.getD b.toNat default).phase) v ∧
        Marks s q b.toNat t t') ∧
    (∀ slices : BitVec 16, GangRuns (.regang slices) s q → inCode q.pc 1 →
      let set := regangSet q.w q.g slices.toNat
      ((∃ j ∈ set, j ∉ q.g.slices ∧ ∀ h ∈ q.w.gangs, j ∈ h.slices → h.park = .none) →
        (∀ h ∈ q.w.gangs, h.slices.head? ≠ some q.lead → h.park = .none) →
        exec (.regang slices) s = .next (s.nextFree.putSeat { q with g := { q.g with run := none, park := .regang slices.toNat } })))

/-- R158: a barrier the workgroup has not raises BARRIER-RANGE; the last slices of a warp to park at YIELD.B, where others are
parked at another barrier, raise BARRIER-SPLIT with the barriers named and the slices parked elsewhere. -/
def Claims.YieldsAtBarriersAreChecked : Prop :=
  ∀ (s : State) (q : Seat) (b : BitVec 4) (off : BitVec 20), GangRuns (.yieldB b off) s q → inCode q.pc off.toInt →
    let others := q.w.gangs.filter fun h => h.slices.head? != some q.lead
    ((s.wg q.w.wg).bars.length ≤ b.toNat →
      exec (.yieldB b off) s = .next (s.raiseAt q { cause := 0xC, arg0 := b.toNat })) ∧
    (b.toNat < (s.wg q.w.wg).bars.length → (∀ h ∈ others, ∃ c p n, h.park = .yieldB c p n) →
      (∃ h ∈ others, h.yieldBar ≠ some b.toNat) → ∃ bars slices : Nat,
        exec (.yieldB b off) s = .next (s.raiseAt q { cause := 0xD, arg0 := bars, arg1 := slices }) ∧
        (∀ n, bars.testBit n = true ↔ n = b.toNat ∨ ∃ h ∈ others, h.yieldBar = some n) ∧
        (∀ j, slices.testBit j = true ↔ ∃ h ∈ others, j ∈ h.slices ∧ h.yieldBar ≠ some b.toNat))

/-- R79, R153: the REGANG that completes its set, every live slice of it waiting, merges the slices into one gang at the next
word with the greatest starvation count, and slices outside keep their gangs; where pc, base or mode of a waiting slice differs
from the lowest one's, it raises REGANG-MISMATCH with the first such item and the slices that differ. No slice outside the set
waits at REGANG here. -/
def Claims.RegangMergesItsSet : Prop :=
  ∀ (s : State) (q : Seat) (slices : BitVec 16), GangRuns (.regang slices) s q →
    let set := regangSet q.w q.g slices.toNat
    let others := q.w.gangs.filter fun h => h.slices.head? != some q.lead
    let waits (h : Gang) : Prop := ∃ n, h.park = .regang n
    let low := q.w.slice (set.headD 0)
    let differs (item j : Nat) : Bool := match item with
      | 1 => (q.w.slice j).pc != low.pc
      | 2 => (q.w.slice j).base != low.base
      | _ => (q.w.slice j).mode != low.mode
    (∀ j ∈ set, j ∈ q.g.slices ∨ ∃ h ∈ others, j ∈ h.slices ∧ waits h) → (∀ j ∈ q.g.slices, j ∈ set) →
    (∀ h ∈ others, waits h → ∀ j ∈ h.slices, j ∈ set) →
    ((∀ j ∈ set, differs 1 j = false ∧ differs 2 j = false ∧ differs 3 j = false) →
      ∃ v g, exec (.regang slices) s = .next (s.nextFree.putWarp v) ∧ q.w.sameBut v ∧ q.w.sameRegisters v ∧
        (∀ j, v.slice j = if j ∈ set then { q.w.slice j with pc := (q.w.slice j).pc + 4 } else q.w.slice j) ∧
        g ∈ v.gangs ∧ g.slices = set ∧ g.run = none ∧ g.park = .none ∧ q.g.starv ≤ g.starv ∧
        (∀ h ∈ others, (∃ j ∈ h.slices, j ∈ set) → h.starv ≤ g.starv) ∧
        (g.starv = q.g.starv ∨ ∃ h ∈ others, (∃ j ∈ h.slices, j ∈ set) ∧ g.starv = h.starv) ∧
        (∀ h ∈ others, h.slices ≠ [] → (∀ j ∈ h.slices, j ∉ set) → h ∈ v.gangs)) ∧
    (∀ item ∈ [1, 2, 3], (∀ n ∈ [1, 2, 3], n < item → ∀ j ∈ set, differs n j = false) → (∃ j ∈ set, differs item j = true) →
      exec (.regang slices) s = .next
        ((s.nextFree.putSeat { q with g := { q.g with run := none, park := .regang slices.toNat } }).raiseAt q
          { cause := 7, detail := item, arg0 := low.pc.toNat, arg1 := maskOf (set.filter fun j => differs item j) }))

/-- R79, R153, R157 and R158: the words at which a gang waits.
Where the spec leaves it open this rests on the model's choices, log entries 35, 38, 115, 124, 126. -/
def Obligations.WaitingWordsParkTheGang : Prop :=
  Claims.WaitingWordsParkTheGang ∧ Claims.YieldsAtBarriersAreChecked ∧ Claims.RegangMergesItsSet

/-! ### Traps, special registers and handlers -/

/-- R225 with R208 to R211: TRAP with a lane that executes ends the task with a SOFTWARE report that names the lowest such
lane and the code; with none it only goes on. On a Collie thread it ends the workgroup's task with slot 80 and lane 0xFF
(R234); on the controller it enters vector 2 (R378). -/
def Claims.TrapEndsTheTask : Prop :=
  ∀ (code : BitVec 12) (s : State),
    (∀ q, GangRuns (.trap code) s q →
      (∀ L rest, q.exe.lanes = L :: rest → Untrapped s q.w.wg → ∃ t, exec (.trap code) s = .next t ∧
        TaskTrapped s t q.w.wg (firstReport s (s.wg q.w.wg) q.w.core q.w.slot q.pc q.outer
          { cause := 0x28, lane := L, arg0 := code.toNat, lead := q.lead })) ∧
      (q.exe.lanes = [] → exec (.trap code) s = .next (s.nextFree.putSeat (q.advance (.trap code) none)))) ∧
    (∀ c, CollieRuns (.trap code) s c →
      (guardHolds c.x.mode c.x.p 0 = true → Untrapped s c.wg → ∃ t, exec (.trap code) s = .next t ∧
        TaskTrapped s t c.wg (firstReport s (s.wg c.wg) c.core 80 c.x.pc (c.frame.map (·.epc))
          { cause := 0x28, lane := 0xFF, arg0 := code.toNat })) ∧
      (guardHolds c.x.mode c.x.p 0 = false → exec (.trap code) s = .next (s.afterCollie c (.trap code) c.x))) ∧
    (McRuns (.trap code) s →
      (guardHolds s.mc.x.mode s.mc.x.p 0 = true → s.mc.etrap = 0 → ∃ t, exec (.trap code) s = .next t ∧
        t.mc.etrap = 0x28 ∧ t.mc.epc = s.mc.x.pc ∧ some t.mc.eword = encode (.trap code) ∧
        t.mc.x.pc = BitVec.ofNat 48 (s.mc.mvec.toNat + 32)) ∧
      (guardHolds s.mc.x.mode s.mc.x.p 0 = false → exec (.trap code) s = .next (s.afterMc s.mc.x)))

/-- R45 steps 1 and 2: a gang or Collie thread at a word of major 0x00 or 0xFF ends its task with END-OF-TEXT or
RESERVED-WORD; the controller enters vector 5 with that cause (R378). -/
def Claims.EndOfTextAndReservedWordsTrap : Prop :=
  ∀ (s : State) (word : BitVec 32), ∀ e ∈ [((Instr.endOfText word, 1) : Instr × Nat), (Instr.reservedWord word, 2)],
    (∀ q : Seat, s.sched.cur = some (.gang q.w.core q.w.slot q.lead) → s.seat q.w.core q.w.slot q.lead = some q →
      q.ready = true → (s.ctxOf q.w.wg).gated = false → Untrapped s q.w.wg → ∃ t, exec e.1 s = .next t ∧
        TaskTrapped s t q.w.wg (firstReport s (s.wg q.w.wg) q.w.core q.w.slot q.pc q.outer
          { cause := e.2, arg0 := word.toNat, lead := q.lead })) ∧
    (∀ c, CollieReady e.1 s c → Untrapped s c.wg → ∃ t, exec e.1 s = .next t ∧
        TaskTrapped s t c.wg (firstReport s (s.wg c.wg) c.core 80 c.x.pc (c.frame.map (·.epc))
          { cause := e.2, arg0 := word.toNat })) ∧
    (McReady s → s.mc.etrap = 0 → ∃ t, exec e.1 s = .next t ∧ t.mc.etrap = BitVec.ofNat 32 e.2 ∧
      t.mc.epc = s.mc.x.pc ∧ t.mc.eword = word ∧ t.mc.x.pc = BitVec.ofNat 48 (s.mc.mvec.toNat + 80))

/-- R45, R208 to R211 and R225: the words whose effect is a trap.
Where the spec leaves it open this rests on the model's choices, log entries 39, 40, 81. -/
def Obligations.TrapsEndTheTask : Prop :=
  Claims.TrapEndsTheTask ∧ Claims.EndOfTextAndReservedWordsTrap

/-- R226, R235 and R378: RDSR writes the special register to every executing lane of d; frame registers read 0 outside a
handler. A read of estat waits for the warp's claims (R325). -/
def Claims.SpecialRegistersRead : Prop :=
  ∀ (d : RegCode) (sr : BitVec 8) (s : State),
    let place (core : Nat) : BitVec 32 :=
      BitVec.ofNat 32 (core / 48 * 2 ^ 18 + core % 48 / 4 * 2 ^ 14 + core % 4 * 2 ^ 12 + core)
    let ctxid (g : Workgroup) : BitVec 32 := BitVec.ofNat 32 (g.part * 2 ^ 16 + g.ctx % 2 ^ 16)
    (∀ q, GangRuns (.rdsr d sr) s q → (sr = 8 → q.w.claims = []) →
      let g := s.wg q.w.wg
      let frame (f : Frame → BitVec 32) : BitVec 32 := match q.frame with | none => 0 | some x => f x
      let v : BitVec 32 := match sr.toNat with
        | 0x00 => (q.w.slice q.lead).mode
        | 0x01 => place q.w.core
        | 0x02 => BitVec.ofNat 32 ((if q.w.width = 16 then 0 else if q.w.width = 32 then 1 else 2) * 2 ^ 24 +
            q.lead * 2 ^ 20 + maskOf q.g.slices)
        | 0x03 => ctxid g
        | 0x04 => BitVec.ofNat 32 g.lineage
        | 0x05 => BitVec.ofNat 32 g.depth
        | 0x06 => BitVec.ofNat 32 g.taskid
        | 0x07 => BitVec.ofNat 32 ((if g.versionOpen then 1 else 0) + (if g.irr then 2 else 0) + g.lines.length * 2 ^ 16)
        | 0x08 => (q.w.estat.map (·.2)).foldr (· ||| ·) 0
        | 0x09 => q.w.kstep
        | 0x0A => frame (·.ecause)
        | 0x0B => frame fun f => f.emask.setWidth 32
        | 0x0C => frame fun f => (f.emask >>> 32).setWidth 32
        | 0x0D => frame fun f => f.epc.setWidth 32
        | 0x0E => frame fun f => (f.epc >>> 32).setWidth 32
        | 0x0F => frame (·.eword)
        | 0x10 => frame (·.etrap)
        | _ => BitVec.ofNat 32 (q.w.slice q.lead).frames.length
      exec (.rdsr d sr) s = .next (s.afterGang q (.rdsr d sr)
        ((s.primed q (.rdsr d sr)).w.write d.toNat ((s.primed q (.rdsr d sr)).exe.lanes.map fun L => (L, v))))) ∧
    (∀ c, CollieRuns (.rdsr d sr) s c →
      let g := s.wg c.wg
      let frame (f : CollieFrame → BitVec 32) : BitVec 32 := match c.frame with | none => 0 | some x => f x
      let v : BitVec 32 := match sr.toNat with
        | 0x00 => c.x.mode
        | 0x01 => place c.core
        | 0x03 => ctxid g
        | 0x04 => BitVec.ofNat 32 g.lineage
        | 0x05 => BitVec.ofNat 32 g.depth
        | 0x06 => BitVec.ofNat 32 g.taskid
        | 0x0A => frame (·.ecause)
        | 0x0B => frame (·.emask)
        | 0x0D => frame fun f => f.epc.setWidth 32
        | 0x0E => frame fun f => (f.epc >>> 32).setWidth 32
        | 0x0F => frame (·.eword)
        | 0x10 => 0
        | _ => if c.frame.isSome then 1 else 0
      exec (.rdsr d sr) s = .next (s.afterCollie c (.rdsr d sr)
        (if guardHolds c.x.mode c.x.p 0 ∧ d.toNat < 32 then { c.x with s := sparseSet 0 c.x.s d.toNat v } else c.x))) ∧
    (McRuns (.rdsr d sr) s →
      let v : BitVec 32 := match sr.toNat with
        | 0x00 => s.mc.x.mode
        | 0x0A => s.mc.ecause
        | 0x0D => s.mc.epc.setWidth 32
        | 0x0E => (s.mc.epc >>> 32).setWidth 32
        | 0x0F => s.mc.eword
        | 0x10 => s.mc.etrap
        | 0x20 => s.mc.mvec
        | 0x21 => BitVec.ofNat 32 (s.sched.now - s.mc.resetAt)
        | 0x22 => BitVec.ofNat 32 ((s.sched.now - s.mc.resetAt) / 2 ^ 32)
        | _ => 0
      exec (.rdsr d sr) s = .next (s.afterMc
        (if guardHolds s.mc.x.mode s.mc.x.p 0 ∧ d.toNat < 32 then { s.mc.x with s := sparseSet 0 s.mc.x.s d.toNat v } else s.mc.x)))

/-- R226, R235, R280, R325 and R378: WRSR writes the value of the lowest executing lane, and nothing where no lane executes;
a register marked read-only, or a frame register outside a handler, raises PRIVILEGE. -/
def Claims.SpecialRegistersWrite : Prop :=
  ∀ (a : RegCode) (sr : BitVec 8) (s : State),
    (∀ q, GangRuns (.wrsr a sr) s q →
      (q.exe.lanes = [] → exec (.wrsr a sr) s = .next (s.afterGang q (.wrsr a sr) q.w)) ∧
      (∀ L rest, q.exe.lanes = L :: rest →
        let x := q.exe.rd a.toNat L
        (sr = 0 → exec (.wrsr a sr) s = .next (s.afterGang q (.wrsr a sr)
          (q.w.mapSlices q.g.slices fun _ y => { y with mode := x &&& 0x7FFF }))) ∧
        (sr = 8 → ∃ e, exec (.wrsr a sr) s = .next (s.afterGang q (.wrsr a sr) { q.w with estat := e }) ∧
          ∀ M, M < q.w.width → sparseGet 0 e M = x &&& 0xFFFFFF) ∧
        (sr = 9 → exec (.wrsr a sr) s = .next (s.afterGang q (.wrsr a sr)
          { q.w with kstep := (q.w.kstep &&& 0xFFF00000) ||| (x &&& 0x000FFFFF) })) ∧
        (sr = 0xB ∨ sr = 0xC → ∃ v, exec (.wrsr a sr) s = .next (s.afterGang q (.wrsr a sr) v) ∧
          v.sameRegisters q.w ∧ v.gangs = q.w.gangs ∧ ∀ j ∈ q.g.slices, ∀ f rest, (q.w.slice j).frames = f :: rest →
            ∃ m, (v.slice j) = { q.w.slice j with frames := { f with emask := m } :: rest } ∧ ∀ M, M < 64 →
              m.getLsbD M = if M / 4 ∈ q.g.slices ∧ (M < 32 ↔ sr = 0xB) then x.getLsbD (M % 32) else f.emask.getLsbD M))) ∧
    (∀ q, s.sched.cur = some (.gang q.w.core q.w.slot q.lead) → s.seat q.w.core q.w.slot q.lead = some q → q.ready = true →
      (s.ctxOf q.w.wg).gated = false → disabled (s.wg q.w.wg).opdis 0xF2 = false → fieldsOk q.profile (.wrsr a sr) = true →
      (sr.toNat ∈ [1, 2, 3, 4, 5, 6, 7, 0xA, 0xD, 0xE, 0xF, 0x10, 0x11] ∨ (q.inHandler = false ∧ sr.toNat ∈ [9, 0xB, 0xC])) →
      exec (.wrsr a sr) s = .next (s.raiseAt q { cause := 3, arg0 := (wordOf (.wrsr a sr)).toNat })) ∧
    (∀ c, CollieRuns (.wrsr a sr) s c →
      let x := Exe.rd (.scal c.x) a.toNat 0
      exec (.wrsr a sr) s = .next (if guardHolds c.x.mode c.x.p 0 then
          (if sr = 0 then s.afterCollie c (.wrsr a sr) { c.x with mode := x &&& 0x7FFF }
          else s.afterCollie { c with frame := c.frame.map fun f => { f with emask := x &&& 1 } } (.wrsr a sr) c.x)
        else s.afterCollie c (.wrsr a sr) c.x)) ∧
    (McRuns (.wrsr a sr) s →
      let x := Exe.rd (.scal s.mc.x) a.toNat 0
      let fin (m : Mc) : State := { s with mc := { m with x := m.x.advance none } }
      exec (.wrsr a sr) s = .next (if guardHolds s.mc.x.mode s.mc.x.p 0 then
          fin (match sr.toNat with
            | 0 => { s.mc with x := { s.mc.x with mode := x &&& 0x7FFF } }
            | 0x0A => { s.mc with ecause := x &&& 7 }
            | 0x10 => { s.mc with etrap := x }
            | 0x20 => { s.mc with mvec := x &&& 0x7FF00 }
            | _ => { s.mc with wdogAt := s.sched.now })
        else fin s.mc))

/-- R226, R235 and R378: the special registers.
Where the spec leaves it open this rests on the model's choices, log entries 82, 83. -/
def Obligations.SpecialRegistersReadAndWrite : Prop :=
  Claims.SpecialRegistersRead ∧ Claims.SpecialRegistersWrite

/-- R221, R223, R49 and R57: a word that emulation handles, the four FP64 instructions of this device among them (reason 4),
and a guard overflow enter their handlers with everything the return needs saved. A word beyond the nesting limit is
EMU-NEST, a context fault; with no handler it is NO-HANDLER; while a result or a claim of its lanes is owed the gang waits. -/
def Claims.HandlersAreEnteredWithTheStateSaved : Prop :=
  ∀ (s : State) (q : Seat) (i : Instr) (word : BitVec 32) (reason : Nat),
    let c := s.ctxOf q.w.wg
    let emulated : Prop := i = .emulationEntry word reason ∨ (reason = 4 ∧ encode i = some word ∧
      ((∃ d a b k, i = .dfma d a b k) ∨ (∃ d a b fn, i = .dop d a b fn) ∨ (∃ d a b fn, i = .dcmp d a b fn) ∨
        (∃ d a dir, i = .dcvt d a dir)))
    (emulated → HandlerOpen s q c.emuentry →
      ∃ t, exec i s = .next t ∧ InHandler s t q c.emuentry word (BitVec.ofNat 32 reason) 0) ∧
    (i = .guardHandlerEntry word → HandlerOpen s q c.guardentry →
      ∃ t, exec i s = .next t ∧ InHandler s t q c.guardentry word 0 0x25) ∧
    (emulated → s.sched.cur = some (.gang q.w.core q.w.slot q.lead) → s.seat q.w.core q.w.slot q.lead = some q →
      q.ready = true → c.gated = false → q.g.mustExit = false → q.run.words < Config.runLimit →
      (c.emunest ≤ (q.w.slice q.lead).frames.length →
        exec i s = .next (s.raiseAt q { cause := 0x30, detail := reason, ctxFault := true })) ∧
      ((q.w.slice q.lead).frames.length < c.emunest → c.emuentry = 0 →
        exec i s = .next (s.raiseAt q { cause := 0x29, detail := reason })) ∧
      ((q.w.slice q.lead).frames.length < c.emunest → c.emuentry ≠ 0 →
        q.owed = true → exec i s = .next s))

/-- R234 and R378: an undefined word on a Collie thread enters the Collie handler on a second bank of scalars and predicates, of which
nothing is said (log entry 138); on the controller it enters vector 1, or as the 25th word of its run vector 5 with RUN-LENGTH (R389), and the event of any other
entry its own vector. -/
def Claims.ScalarHandlersAreEntered : Prop :=
  ∀ (s : State) (i : Instr) (word : BitVec 32) (reason : Nat),
    let fp64 : Prop := reason = 4 ∧ encode i = some word ∧
      ((∃ d a b k, i = .dfma d a b k) ∨ (∃ d a b fn, i = .dop d a b fn) ∨ (∃ d a b fn, i = .dcmp d a b fn) ∨
        (∃ d a dir, i = .dcvt d a dir))
    (∀ c, CollieReady i s c → i = .collieHandlerEntry word reason ∨ fp64 → c.frame = none → c.x.run.words < Config.runLimit →
      (s.ctxOf c.wg).collieentry ≠ 0 → c.x.pend = [] →
      ∃ d : Collie, exec i s = .next (s.nextFree.putCollie d) ∧ d.core = c.core ∧ d.thread = c.thread ∧ d.wg = c.wg ∧ d.c = c.c ∧
        d.x = { c.x with pc := (s.ctxOf c.wg).collieentry, mode := 0, s := d.x.s, p := d.x.p, run := {} } ∧
        ∃ f : CollieFrame, d.frame = some f ∧ f.epc = c.x.pc ∧ f.eword = word ∧ f.ecause = BitVec.ofNat 32 reason ∧
          f.emask = (if guardHolds c.x.mode c.x.p 0 then 1 else 0) ∧ f.mode = c.x.mode ∧ f.s = c.x.s ∧ f.p = c.x.p ∧
          f.run = c.x.run ∧ ∀ e ∈ [((0, 12) : Nat × Nat), (1, 6), (2, 0), (3, 18)],
            sparseGet 0 f.owin e.1 = Exe.rd (.scal c.x) (field word.toNat e.2 6) 0) ∧
    (∀ c, CollieReady i s c → i = .collieHandlerEntry word reason ∨ fp64 → c.x.run.words < Config.runLimit →
      (c.frame ≠ none → exec i s = .next (s.raiseCollie c { cause := 0x30, detail := reason, ctxFault := true })) ∧
      (c.frame = none → (s.ctxOf c.wg).collieentry = 0 → exec i s = .next (s.raiseCollie c { cause := 0x29, detail := reason }))) ∧
    (McReady s → s.mc.etrap = 0 → ∀ entry etrap, i = .mcVectorEntry entry word etrap reason ∨ (fp64 ∧ entry = 1) →
      let long := entry = 1 ∧ Config.runLimit ≤ s.mc.x.run.words
      ∃ t, exec i s = .next t ∧ t.mc.epc = s.mc.x.pc ∧ t.mc.eword = word ∧
        t.mc.etrap = BitVec.ofNat 32 (if long then 4 else if entry = 1 then 0x62 else etrap) ∧
        t.mc.ecause = (if entry = 1 ∧ ¬ long then BitVec.ofNat 32 reason else s.mc.ecause) ∧
        t.mc.x.pc = BitVec.ofNat 48 (s.mc.mvec.toNat + 16 * (if long then 5 else entry)) ∧ t.mc.x.s = s.mc.x.s ∧ t.mc.x.p = s.mc.x.p ∧
        ∀ o a, t.mem.byte o a = s.mem.byte o a)

/-- R221, R223, R234 and R378: the entry of handlers.
Where the spec leaves it open this rests on the model's choices, log entries 17, 19, 81, 117, 123, 138. -/
def Obligations.HandlersAreEntered : Prop :=
  Claims.HandlersAreEnteredWithTheStateSaved ∧ Claims.ScalarHandlersAreEntered

/-- R227 and R228: EMUGET reads and EMUPUT writes the operand window per lane; EMURD and EMUWR reach the caller's registers
below the handler's window, its temporaries, scalars, predicates, capabilities and skeins, and wait for a skein that a KLD has not
yet written (R257). -/
def Claims.HandlersReachTheCaller : Prop :=
  ∀ (s : State) (q : Seat) (f : Nat → Frame), (∀ j ∈ q.g.slices, (q.w.slice j).frames.head? = some (f j)) →
    let p (i : Instr) : Seat := s.primed q i
    (∀ (d : RegCode) (o : BitVec 3), GangRuns (.emuget d o) s q →
      exec (.emuget d o) s = .next (s.afterGang q (.emuget d o) ((p (.emuget d o)).w.write d.toNat
        ((p (.emuget d o)).exe.lanes.map fun L => (L, sparseGet 0 (f (L / 4)).owin (regKey o.toNat L)))))) ∧
    (∀ (o : BitVec 3) (a : RegCode), GangRuns (.emuput o a) s q → (∀ j ∈ q.g.slices, sparseWf 0 (f j).owin = true) →
      ∃ v, exec (.emuput o a) s = .next (s.afterGang q (.emuput o a) v) ∧ v.sameRegisters q.w ∧
        ∀ j ∈ q.g.slices, ∃ t, v.slice j = { q.w.slice j with frames := { f j with owin := t } :: (q.w.slice j).frames.tail } ∧
          ∀ n L, L < 64 → sparseGet 0 t (regKey n L) =
            if n = o.toNat ∧ L ∈ q.exe.lanes ∧ L / 4 = j then q.exe.rd a.toNat L else sparseGet 0 (f j).owin (regKey n L)) ∧
    (∀ (d : RegCode) (kind : BitVec 3) (idx : BitVec 6) (part : BitVec 4), GangRuns (.emurd d kind idx part) s q →
      (kind = 1 → ∀ j ∈ q.g.slices, (f j).run.temps.testBit idx.toNat = true) →
      (kind = 5 → s.skeinBusy q.w [idx.toNat] = false) →
      let word (v : Nat) : BitVec 32 := BitVec.ofNat 32 (v / 2 ^ (32 * part.toNat))
      let v (L : Nat) : BitVec 32 := match kind.toNat with
        | 0 => sparseGet 0 (p (.emurd d kind idx part)).w.regs (regKey ((f (L / 4)).base + idx.toNat) L)
        | 1 => sparseGet 0 (f (L / 4)).temps (regKey idx.toNat L)
        | 2 => sparseGet 0 q.w.s idx.toNat
        | 3 => word (sparseGet 0 q.w.p idx.toNat).toNat
        | 4 => word (sparseGet {} q.w.c idx.toNat).bits.toNat
        | _ => word (sparseGet 0 q.w.k idx.toNat).toNat
      exec (.emurd d kind idx part) s = .next (s.afterGang q (.emurd d kind idx part)
        ((p (.emurd d kind idx part)).w.write d.toNat ((p (.emurd d kind idx part)).exe.lanes.map fun L => (L, v L))))) ∧
    (∀ (a : RegCode) (kind : BitVec 3) (idx : BitVec 6) (part : BitVec 4), GangRuns (.emuwr a kind idx part) s q →
      (kind = 5 → s.skeinBusy q.w [idx.toNat] = false) → ∀ L rest, q.exe.lanes = L :: rest → ∃ v, exec (.emuwr a kind idx part) s = .next (s.afterGang q (.emuwr a kind idx part) v) ∧
        v.gangs = q.w.gangs ∧
        (kind = 0 → sparseWf 0 q.w.regs = true → v.slices = q.w.slices ∧ ∀ M ∈ q.exe.lanes,
          sparseGet 0 v.regs (regKey ((f (M / 4)).base + idx.toNat) M) = q.exe.rd a.toNat M) ∧
        (kind = 1 → (∀ j ∈ q.g.slices, sparseWf 0 (f j).temps = true) → ∀ M ∈ q.exe.lanes,
          ∃ g rest, (v.slice (M / 4)).frames = g :: rest ∧ g.run.temps.testBit idx.toNat = true ∧
            sparseGet 0 g.temps (regKey idx.toNat M) = q.exe.rd a.toNat M) ∧
        (kind = 2 → sparseWf 0 q.w.s = true → sparseGet 0 v.s idx.toNat = q.exe.rd a.toNat L) ∧
        (kind = 3 → sparseWf 0 q.w.p = true → ∀ b, b < q.w.width → (sparseGet 0 v.p idx.toNat).getLsbD b =
          if b / 32 = part.toNat then (q.exe.rd a.toNat L).getLsbD (b % 32) else (sparseGet 0 q.w.p idx.toNat).getLsbD b) ∧
        (kind = 5 → sparseWf 0 q.w.k = true → sparseWf 0 q.w.geo.counts = true →
          sparseGet 0 v.geo.counts (idx.toNat / 2) = 0 ∧ ∀ b, b < 512 → (sparseGet 0 v.k idx.toNat).getLsbD b =
          if b / 32 = part.toNat then (q.exe.rd a.toNat L).getLsbD (b % 32) else (sparseGet 0 q.w.k idx.toNat).getLsbD b)) ∧
    (∀ (i : Instr) (a : RegCode) (idx : BitVec 6) (part : BitVec 4), i = .emurd a 5 idx part ∨ i = .emuwr a 5 idx part →
      GangRuns i s q → s.skeinBusy q.w [idx.toNat] = true → exec i s = .next s.nextFree)

/-- R229: EMURET closes the frames of a gang that holds every live slice of them: mode, lane mask, stack, base and queue
coverage come back, each slice goes on at the word after the emulated one or at that word itself, the destination of the
emulated word takes o3 in the lanes of emask unless nc is set, and with at = 0 the caller's run goes on one word longer, in one
gang where the slices come from one word, once a run start gives it a port (log entries 19 and 123). -/
def Claims.EmuretRestoresTheCaller : Prop :=
  ∀ (s : State) (q : Seat) (f : Nat → Frame) (nc : BitVec 1) (at_ : BitVec 2), GangRuns (.emuret nc at_ 0) s q →
    (∀ j ∈ q.g.slices, (q.w.slice j).live = true ∧ (q.w.slice j).frames.head? = some (f j) ∧ (f j).lanemask ≠ 0 ∧ inCode (f j).epc 1 ∧
      ∀ i ∈ (f j).members, (q.w.slice i).live = true → i ∈ q.g.slices) →
    (∀ j ∈ q.g.slices, f j = { f j with eword := (f q.lead).eword, members := (f q.lead).members, run := (f q.lead).run }) →
    sparseWf 0 q.w.regs = true → sparseWf 0 q.w.s = true → at_.toNat ≤ 1 →
    let d := field (f q.lead).eword.toNat 18 6
    ∃ t v, exec (.emuret nc at_ 0) s = .next t ∧ s.sameBut t ∧ t.findWarp q.w.core q.w.slot = some v ∧ v.p = q.w.p ∧
      (∀ j ∈ q.g.slices, (v.slice j).pc = (if at_ = 0 then (f j).epc + 4 else (f j).epc) ∧ (v.slice j).mode = (f j).mode ∧
        (v.slice j).lanemask = (f j).lanemask ∧ (v.slice j).stack = (f j).stack ∧ (v.slice j).base = (f j).base ∧
        (v.slice j).frames = (q.w.slice j).frames.tail) ∧
      v.cover0 = (f q.lead).cover0 ∧ v.cover1 = (f q.lead).cover1 ∧
      (nc = 0 → d < 44 → ∀ j ∈ q.g.slices, ∀ L ∈ lanesOf j, (f j).emask.getLsbD L = true →
        v.read d L = sparseGet 0 (f j).owin (regKey 3 L)) ∧
      (∀ j ∈ q.g.slices, ∀ L ∈ lanesOf j, ∀ c, c < 44 → nc = 1 ∨ c ≠ d ∨ (f j).emask.getLsbD L = false →
        v.read c L = sparseGet 0 q.w.regs (regKey ((f j).base + c) L)) ∧
      (at_ = 0 → (∀ j ∈ q.g.slices, (f j).epc = (f q.lead).epc) → ∃ g r, v.findGang q.lead = some g ∧ g.slices = q.g.slices ∧
        g.run = none ∧ g.resume = some r ∧ r.words = (f q.lead).run.words + 1) ∧
      (at_ = 1 → ∀ h ∈ v.gangs, h ∉ q.w.gangs → h.run = none)

/-- R227 to R229: the words of handlers.
The model's choices, log entries 19, 84, 115, 123 and 138: a clause that rests on one is no rule of the spec. -/
def Obligations.HandlersReachAndRestoreTheCaller : Prop :=
  Claims.HandlersReachTheCaller ∧ Claims.EmuretRestoresTheCaller

/-! ### Memory words and accesses -/

/-- R165 to R167: the loads and stores of the on-chip levels 0 to 3 issue one access per executing lane, at the sum of two
32-bit offsets, a load with its registers pending until the values arrive, a store with its data read at issue. The lowest
lane past the level's bytes raises BOUNDS, then the lowest misaligned one ALIGNMENT. The Collie and the controller reach
level 1 alone, whose limit for the controller is 0x80040.
Where the spec leaves it open this rests on the model's choices, log entry 28. -/
def Obligations.OnChipWordsIssueTheirAccesses : Prop :=
  ∀ (lvl : Nat) (d a b : RegCode) (look : BitVec 4) (wd : BitVec 2) (i : Instr) (s : State), lvl < 4 →
    let ld : Instr := [Instr.ldl d a b look wd, .lds d a b look wd, .ldc d a b look wd, .ldd d a b look wd].getD lvl .nop
    let st : Instr := [Instr.stl d a b wd, .sts d a b wd, .stc d a b wd, .std d a b wd].getD lvl .nop
    let size : Nat := 4 * 2 ^ wd.toNat
    let id : Nat := s.sched.uid
    let off (x : Exe) (L : Nat) : Nat := (x.rd a.toNat L).toNat + (x.rd b.toNat L).toNat
    let fine (x : Exe) (limit : Nat) : Prop := PassesLevel limit size x.lanes (off x)
    let bad (x : Exe) (limit : Nat) (tr : Trap) : Prop := FailsLevel lvl limit size x.lanes (off x) tr
    (∀ q, GangRuns i s q →
      let p := s.primed q i
      let g := s.wg q.w.wg
      let acc (act : Nat → AccessAct) : List Access := p.exe.lanes.map fun L =>
        p.access g id L (s.levelKey g lvl (q.w.lid L) (off p.exe L)) size (act L)
      (i = ld → fine p.exe (s.levelLimit g lvl) → exec i s = .next
        ((s.nextFree.nextUid.withAccesses (acc fun L => .load (.pend id L))).putSeat
          (Seat.advance ⟨p.pendLoad id d.toNat (2 ^ wd.toNat), p.g⟩ i (some ⟨id, dstCodes q.profile i, look.toNat⟩)))) ∧
      (i = st → fine p.exe (s.levelLimit g lvl) → exec i s = .next
        (((s.noteWrite g.uid p.exe.lanes.length).nextFree.nextUid.withAccesses
          (acc fun L => .store (p.exe.rdGroup wd.toNat d.toNat L) none false)).putSeat (p.advance i none))) ∧
      (i = ld ∨ i = st → ∀ tr, bad p.exe (s.levelLimit g lvl) tr → exec i s = .next (s.raiseAt q tr))) ∧
    (lvl = 1 → ∀ c, CollieRuns i s c →
      let x : Exe := .scal c.x
      let g := s.wg c.wg
      let acc (act : AccessAct) : List Access := x.lanes.map fun _ => c.access g id (s.levelKey g 1 0 (off x 0)) size act
      (i = ld → fine x (s.levelLimit g 1) → exec i s = .next ((s.putCollie { c with
        x := (c.x.pendLoad id d.toNat (2 ^ wd.toNat) (!x.lanes.isEmpty)).advance (some ⟨id, dstCodes .collie i, look.toNat⟩)
        }).nextUid.withAccesses (acc (.load (.pend id 0))))) ∧
      (i = st → fine x (s.levelLimit g 1) → exec i s = .next (((s.noteWrite g.uid x.lanes.length).putCollie { c with
        x := c.x.advance none }).nextUid.withAccesses (acc (.store (x.rdGroup wd.toNat d.toNat 0) none false)))) ∧
      (i = ld ∨ i = st → ∀ tr, bad x (s.levelLimit g 1) tr → exec i s = .next (s.raiseCollie c tr))) ∧
    (lvl = 1 → McRuns i s →
      let x : Exe := .scal s.mc.x
      let acc (act : AccessAct) : List Access := x.lanes.map fun _ => mcAccess s.mc.x id (sramKey (off x 0)) size act
      (i = ld → fine x 0x80040 → exec i s = .next (State.withAccesses ({ s with mc := { s.mc with
        x := (s.mc.x.pendLoad id d.toNat (2 ^ wd.toNat) (!x.lanes.isEmpty)).advance (some ⟨id, dstCodes .mc i, look.toNat⟩)
        } } : State).nextUid (acc (.load (.pend id 0))))) ∧
      (i = st → fine x 0x80040 → exec i s = .next (State.withAccesses ({ s with mc := { s.mc with
        x := s.mc.x.advance none } } : State).nextUid (acc (.store (x.rdGroup wd.toNat d.toNat 0) none false)))) ∧
      (i = ld ∨ i = st → ∀ tr, bad x 0x80040 tr → exec i s = .next (s.mcEnter 5 (wordOf i) tr.cause 0)))

/-- R168, R169, R390: the checks of a capability come in one order, the first that fails at its lowest lane; an access that
passes them all passes, and one with no executing lane is checked for nothing.
Where the spec leaves it open this rests on the model's choices, log entry 27. -/
def Obligations.CapabilityChecksComeInOrder : Prop :=
  ∀ (c : Cap) (k part need size : Nat) (offs : List (Nat × Nat)), 0 < size →
    (capFault c k part need size offs = none ↔ offs = [] ∨ c.Opens part need size (offs.map (·.2))) ∧
    (∀ L o rest, offs = (L, o) :: rest →
      (c.valid = false → capFault c k part need size offs = some { cause := 0x13, lane := L, arg0 := k }) ∧
      (c.valid = true → c.sealed = true → capFault c k part need size offs = some { cause := 0x14, lane := L, arg0 := k }) ∧
      (c.valid = true → c.sealed = false → c.perms &&& need ≠ need →
        capFault c k part need size offs = some { cause := 0x12, lane := L, arg0 := k, arg1 := need }) ∧
      (c.valid = true → c.sealed = false → c.perms &&& need = need →
        (∀ e, offs.find? (fun e => decide (c.length < e.2 + size)) = some e →
          capFault c k part need size offs = some { cause := 0x10, lane := e.1, addr := e.2, arg0 := k }) ∧
        ((∀ e ∈ offs, e.2 + size ≤ c.length) →
          (∀ e, offs.find? (fun e => e.2 % size != 0) = some e →
            capFault c k part need size offs = some { cause := 0x11, lane := e.1, addr := e.2 }) ∧
          ((∀ e ∈ offs, e.2 % size = 0) → c.owner ≠ part → c.owner ≠ hostShared →
            capFault c k part need size offs = some { cause := 0x15, lane := L, arg0 := k }))))

/-- R170 to R174 and R183: GLQ appends one entry to its queue and issues a load per executing lane; WAITQ covers the first n
entries once they have arrived; POPQ removes the first entry and writes its words in the executing lanes of its mask; GSQ
issues a store per executing lane, whose lines a task's open version counts, and needs V beside W for a capability that carries
V. POPQ and WAITQ past the entries held raise QUEUE-UNDERRUN, GLQ on a full queue QUEUE-OVERFLOW. -/
def Claims.QueueWordsMoveData : Prop :=
  ∀ (s : State) (q : Seat),
    let g := s.wg q.w.wg
    let id : Nat := s.sched.uid
    let off (x : Exe) (a : RegCode) (wide : BitVec 1) (L : Nat) : Nat :=
      if wide = 1 then (x.rd64 a.toNat L).toNat else (x.rd a.toNat L).toNat
    (∀ qn wd c a x, GangRuns (.glq qn wd c a x) s q →
      let i : Instr := .glq qn wd c a x
      let p := s.primed q i
      let cap := q.w.cap c.toNat
      let es := q.w.queue qn.toNat
      let lanes := p.exe.lanes
      (lanes = [] ∨ cap.Opens g.part permR (4 * 2 ^ wd.toNat) (lanes.map (off p.exe a x)) →
        (es.length < 16 → exec i s = .next ((s.nextFree.nextUid.withAccesses (lanes.map fun L =>
            p.globalAccess g cap id L (off p.exe a x L) (4 * 2 ^ wd.toNat) (.load (.queue qn.toNat id L)))).putSeat
          (Seat.advance ⟨p.w.setQueue qn.toNat (es ++ [{ id := id, width := 2 ^ wd.toNat, mask := BitVec.ofNat 64 (maskOf lanes), data := [], waiting := lanes }]), p.g⟩ i none))) ∧
        (16 ≤ es.length → exec i s = .next (s.raiseAt q { cause := 0x17, arg0 := qn.toNat, arg1 := es.length }))) ∧
      (∀ tr, capFault cap c.toNat g.part permR (4 * 2 ^ wd.toNat) (lanes.map fun L => (L, off p.exe a x L)) = some tr →
        exec i s = .next (s.raiseAt q tr))) ∧
    (∀ qn n, GangRuns (.waitq qn n) s q →
      let es := q.w.queue qn.toNat
      (es.length < n.toNat → exec (.waitq qn n) s =
        .next (s.raiseAt q { cause := 0x18, arg0 := qn.toNat, arg1 := es.length })) ∧
      (n.toNat ≤ es.length → (∃ e ∈ es.take n.toNat, e.waiting ≠ []) → exec (.waitq qn n) s = .next s.nextFree) ∧
      (n.toNat ≤ es.length → (∀ e ∈ es.take n.toNat, e.waiting = []) → exec (.waitq qn n) s = .next
        (s.afterGang q (.waitq qn n) (if qn = 0 then { q.w with cover0 := n.toNat } else { q.w with cover1 := n.toNat })))) ∧
    (∀ qn wd d, GangRuns (.popq qn wd d) s q → q.w.queue qn.toNat = [] →
      exec (.popq qn wd d) s = .next (s.raiseAt q { cause := 0x18, arg0 := qn.toNat, arg1 := 0 })) ∧
    (∀ qn wd d, GangRuns (.popq qn wd d) s q → ∀ e rest, q.w.queue qn.toNat = e :: rest →
      let i : Instr := .popq qn wd d
      let p := s.primed q i
      (e.waiting = [] → e.width = 2 ^ wd.toNat → ∃ v : Warp, exec i s = .next (s.afterGang q i v) ∧
        v.queue qn.toNat = rest ∧ v.queue (1 - qn.toNat) = q.w.queue (1 - qn.toNat) ∧
        (if qn = 0 then v.cover0 = q.w.cover0 - 1 ∧ v.cover1 = q.w.cover1 else v.cover1 = q.w.cover1 - 1 ∧ v.cover0 = q.w.cover0) ∧
        v.p = q.w.p ∧ v.slices = q.w.slices ∧
        (sparseWf 0 p.w.regs = true → sparseWf 0 p.w.temps = true → d.toNat + 2 ^ wd.toNat ≤ 52 → ∀ L, L < 64 → ∀ k, k < 52 →
          v.read k L = if d.toNat ≤ k ∧ k < d.toNat + 2 ^ wd.toNat ∧ L ∈ p.exe.lanes ∧ e.mask.getLsbD L = true
            then sparseGet 0 e.data (4 * L + (k - d.toNat)) else p.w.read k L)) ∧
      (e.waiting ≠ [] → exec i s = .next s.nextFree) ∧
      (e.waiting = [] → e.width ≠ 2 ^ wd.toNat →
        exec i s = .next (s.raiseAt q { cause := 0x19, arg0 := qn.toNat, arg1 := e.width.log2 }))) ∧
    (∀ wd c a d x, GangRuns (.gsq wd c a d x) s q → s.findWg q.w.wg = some g →
      let i : Instr := .gsq wd c a d x
      let cap := q.w.cap c.toNat
      let lanes := q.exe.lanes
      let size : Nat := 4 * 2 ^ wd.toNat
      let need : Nat := if cap.versioned = true then permW + permV else permW
      let new := (s.nextFree.linesAt q.w.core g cap.owner (lanes.map fun L => ((cap.base + off q.exe a x L) % 2 ^ 56, size))).filter
        fun l => !g.lines.contains l
      let go (u : State) : Out := .next ((u.nextFree.nextUid.withAccesses (lanes.map fun L =>
        q.globalAccess g cap id L (off q.exe a x L) size (.store (q.exe.rdGroup wd.toNat d.toNat L) none cap.versioned))).putSeat
          (q.advance i none))
      (lanes = [] ∨ cap.Opens g.part need size (lanes.map (off q.exe a x)) →
        (¬ (cap.versioned = true ∧ g.holds) → exec i s = go (s.noteWrite g.uid lanes.length)) ∧
        (cap.versioned = true → g.holds → g.lines.length + new.length ≤ 4096 →
          exec i s = go (s.putWg { g with lines := g.lines ++ new })) ∧
        (cap.versioned = true → g.holds → 4096 < g.lines.length + new.length →
          exec i s = .next (s.nextFree.putWg { g with outgrown := true }))) ∧
      (∀ tr, capFault cap c.toNat g.part need size (lanes.map fun L => (L, off q.exe a x L)) = some tr →
        exec i s = .next (s.raiseAt q tr)))

/-- R176, R177 and R203: an atomic issues one access per executing lane with its operands read at issue, and with rq its old
values come to a new entry of a queue; ATOM.SC takes tickets of the device's sequencer at once and is to ask the domain's. A
versioned capability makes an open task wait to become irrevocable. A Collie's thread is held until its old value arrives. With rq
and a full queue, a word that passes its other checks raises QUEUE-OVERFLOW (R171). -/
def Claims.AtomicsIssueTheirAccesses : Prop :=
  ∀ (s : State) (op : BitVec 4) (wd : BitVec 1) (rq : BitVec 2) (a b : RegCode),
    let size : Nat := 4 * 2 ^ wd.toNat
    let id : Nat := s.sched.uid
    let v1 (x : Exe) (L : Nat) : Nat := if op = 9 then x.rdGroup (wd.toNat + 1) b.toNat L % 2 ^ (8 * size) else x.rdGroup wd.toNat b.toNat L
    let v2 (x : Exe) (L : Nat) : Nat := if op = 9 then x.rdGroup (wd.toNat + 1) b.toNat L / 2 ^ (8 * size) else 0
    let act (x : Exe) (L : Nat) (ret : Option LoadRet) : AccessAct := .atom op.toNat (v1 x L) (v2 x L) ret
    (∀ q i, GangRuns i s q → s.findWg q.w.wg = some (s.wg q.w.wg) →
      let g := s.wg q.w.wg
      let lanes := q.exe.lanes
      let off (L : Nat) : Nat := (q.exe.rd a.toNat L).toNat
      let es := q.w.queue (rq.toNat - 1)
      let ret (L : Nat) : Option LoadRet := if rq = 0 then none else some (.queue (rq.toNat - 1) id L)
      let w : Warp := if rq = 0 then q.w else q.w.setQueue (rq.toNat - 1) (es ++ [{ id := id, width := 2 ^ wd.toNat, mask := BitVec.ofNat 64 (maskOf lanes), data := [], waiting := lanes }])
      let go (u : State) (acc : List Access) : Out := .next ((u.withAccesses acc).putSeat (Seat.advance ⟨w, q.g⟩ i none))
      let room : Prop := rq = 0 ∨ es.length < 16
      let overflows : Prop := exec i s = .next (s.raiseAt q { cause := 0x17, arg0 := rq.toNat - 1, arg1 := es.length })
      (∀ sp, i = .atom op wd rq sp a b → 16 ≤ sp.toNat →
        let limit := s.levelLimit g (sp.toNat - 15)
        (PassesLevel limit size lanes off → (¬ room → overflows) ∧
          (room → exec i s = go s.nextFree.nextUid (lanes.map fun L =>
            q.access g id L (s.levelKey g (sp.toNat - 15) 0 (off L)) size (act q.exe L (ret L))))) ∧
        (∀ tr, FailsLevel (sp.toNat - 15) limit size lanes off tr → exec i s = .next (s.raiseAt q tr))) ∧
      (∀ (c : Nat) (seqr : Option Nat), (∃ sp : BitVec 5, i = .atom op wd rq sp a b ∧ sp.toNat < 16 ∧ c = sp.toNat ∧ seqr = none) ∨
          (∃ (dom : BitVec 1) (k : BitVec 4), i = .atomSc op wd rq dom k a b ∧ c = k.toNat ∧ seqr = some dom.toNat) →
        let cap := q.w.cap c
        (lanes = [] ∨ cap.Opens g.part (permR + permW) size (lanes.map off) →
          (¬ (cap.versioned = true ∧ g.holds) → ¬ room → overflows) ∧
          (¬ (cap.versioned = true ∧ g.holds) → room →
            let n := sparseGet 0 s.mem.tickets 0
            let acc : List Access := lanes.mapIdx fun k L =>
              { q.globalAccess g cap id L (off L) size (act q.exe L (ret L)) with
                seqr := seqr, ticket := if seqr = some 0 then some (n + k) else none }
            exec i s = go (if seqr = some 0 then s.nextFree.nextUid.withMem { s.mem with
              tickets := sparseSet 0 s.mem.tickets 0 (n + lanes.length) } else s.nextFree.nextUid) acc) ∧
          (cap.versioned = true → g.holds → lanes ≠ [] → exec i s = .next (s.nextFree.putWg { g with outgrown := true }))) ∧
        (∀ tr, capFault cap c g.part (permR + permW) size (lanes.map fun L => (L, off L)) = some tr →
          exec i s = .next (s.raiseAt q tr)))) ∧
    (∀ c sp, CollieRuns (.atom op wd rq sp a b) s c →
      let x : Exe := .scal c.x
      let g := s.wg c.wg
      let cap : Cap := sparseGet {} c.c sp.toNat
      let off : Nat := (x.rd a.toNat 0).toNat
      let go (acc : Access) : Out := .next ((s.putCollie { c with
        x := { c.x.pendLoad id b.toNat (2 ^ wd.toNat) true with hold := .data id } }).nextUid.withAccesses [acc])
      (x.lanes = [] → exec (.atom op wd rq sp a b) s = .next (s.afterCollie c (.atom op wd rq sp a b) c.x)) ∧
      (x.lanes = [0] → 16 ≤ sp.toNat → off + size ≤ s.levelLimit g (sp.toNat - 15) → off % size = 0 →
        exec (.atom op wd rq sp a b) s = go (c.access g id (s.levelKey g (sp.toNat - 15) 0 off) size
          (act x 0 (some (.pend id 0))))) ∧
      (16 ≤ sp.toNat → ∀ tr, FailsLevel (sp.toNat - 15) (s.levelLimit g (sp.toNat - 15)) size x.lanes (fun _ => off) tr →
        exec (.atom op wd rq sp a b) s = .next (s.raiseCollie c tr)) ∧
      (sp.toNat < 16 → ∀ tr, capFault cap sp.toNat g.part (permR + permW) size (x.lanes.map fun L => (L, off)) = some tr →
        exec (.atom op wd rq sp a b) s = .next (s.raiseCollie c tr)) ∧
      (x.lanes = [0] → sp.toNat < 16 → cap.Opens g.part (permR + permW) size [off] → ¬ (cap.versioned = true ∧ g.holds) →
        exec (.atom op wd rq sp a b) s = go { c.access g id ((cap.base + off) % 2 ^ 56) size
          (act x 0 (some (.pend id 0))) with global := true, owner := cap.owner }))

/-- R170 to R177, R183 and R203: the queue words and the atomics.
Where the spec leaves it open this rests on the model's choices, log entries 26, 27, 28, 45, 111. -/
def Obligations.QueueWordsAndAtomics : Prop :=
  Claims.QueueWordsMoveData ∧ Claims.AtomicsIssueTheirAccesses

/-- The bytes a load of a task finds under its open version (R202): of the held writes that cover a byte, the latest. -/
def Claims.HeldWritesLieOverMemory : Prop :=
  ∀ (g : Workgroup) (pa : Nat) (bs : List (BitVec 8)), (g.overlay pa bs).length = bs.length ∧
    (g.versionOpen = false → g.overlay pa bs = bs) ∧
    ∀ (i : Nat) (h : i < bs.length), g.versionOpen = true → (g.overlay pa bs)[i]? = some
      (match g.held.reverse.find? fun v => decide (v.pa ≤ pa + i ∧ pa + i < v.pa + v.size) with
      | some v => BitVec.ofNat 8 (v.data / 2 ^ (8 * (pa + i - v.pa)))
      | none => bs[i])

/-- R166, R170, R174, R176, R188, R202 and R391: an access whose turn has come is performed at one moment. A load delivers what
it reads, of which Reads says what it may be; a store writes its bytes and with CSTC the tag, a versioned store joins the open
version and its line is charged, an atomic reads what stands there, computes and writes at once, but for a compare-and-swap that
fails, which reads as a load does (R190); the controller's loads and stores reach its SRAM and the message unit. An access whose turn has not come changes nothing, but for a load that its own agent's earlier store
covers, which reads that store's data; one that does not translate parks on its fault, or goes with its task if that is ending;
a versioned store past the quota waits for the commit. -/
def Claims.AccessesArePerformedAtOnce : Prop :=
  ∀ (s : State) (a : Access) (k : Nat) (u : State),
    (Lands s a k u →
      let t := u.dropAccess a (u.boundFor a (u.mem.clock + 1))
      let n : Nat := 8 * a.size
      (∀ ret, a.act = .load ret → a.who ≠ .mc →
        let r := u.sample a ret k
        let v := natOf (if a.global && warpAgent a.who then (u.wg a.wg).overlay k r.1 else r.1)
        let tag := if warpAgent a.who then u.tagHeld a.wg a.owner k else u.mem.tag a.owner k
        Reads u a k r.1 ∧ exec (.storePerform a.id) s = .next (((u.dropAccess a (u.boundFor a r.2)).deliver a.who ret v
          (tag && (field v 122 5 == a.part || field v 122 5 == hostShared))).noteRead a k r.2 (u.retKeys a.who ret))) ∧
      (∀ data tag v, a.act = .store data tag v → a.who ≠ .mc → ¬ (v = true ∧ (u.wg a.wg).holds) →
        let w := t.publish a k (bytesOf a.size data)
        exec (.storePerform a.id) s = .next ((match tag with | some b => w.withMem (w.mem.setTag k b) | none => w).noteWrite
          a.wg (if v then 1 else 0))) ∧
      (∀ data tag, a.act = .store data tag true → a.who ≠ .mc → (u.wg a.wg).holds → ((u.dropAccess a).wg a.wg).holds →
        let g := (u.dropAccess a).wg a.wg
        let lines := g.lines
        exec (.storePerform a.id) s = .next ((u.dropAccess a).putWg { g with
          held := g.held ++ [⟨k, a.owner, a.size, data, tag, a.addr⟩]
          lines := if lines.contains (k / 64) then lines else lines ++ [k / 64] })) ∧
      (∀ op v1 v2 ret, a.act = .atom op v1 v2 ret → a.who ≠ .mc →
        let r := u.oldValue a k op v1
        let old := natOf r.1
        let fails : Prop := op = 9 ∧ old ≠ v1 % 2 ^ n
        let new : Nat := match op with
          | 0 => (old + v1) % 2 ^ n
          | 1 => if sext v1 n < sext old n then v1 % 2 ^ n else old
          | 2 => if sext old n < sext v1 n then v1 % 2 ^ n else old
          | 3 => min old (v1 % 2 ^ n)
          | 4 => max old (v1 % 2 ^ n)
          | 5 => old &&& v1 % 2 ^ n
          | 6 => old ||| v1 % 2 ^ n
          | 7 => Nat.xor old (v1 % 2 ^ n)
          | 8 => v1 % 2 ^ n
          | 9 => v2 % 2 ^ n
          | _ => FloatFmt.f32.fadd ⟨0, false, false⟩ old v1 % 2 ^ n
        let read (w : State) (m : Nat) : State := match ret with
          | some r => (w.deliver a.who r old).noteRead a k m (u.retKeys a.who r)
          | none => if a.note.isSome then w else w.noteRead a k m []
        let w := (t.publish a k (bytesOf a.size new)).noteWrite a.wg 1
        Reads u a k r.1 ∧ (¬ fails → r.1 = u.mem.bytes a.owner k a.size) ∧
          (fails → exec (.storePerform a.id) s = .next (read (u.dropAccess a (u.boundFor a r.2)) r.2)) ∧
          (¬ fails → exec (.storePerform a.id) s = .next (read w w.mem.clock))) ∧
      (∀ ret, a.act = .load ret → a.who = .mc →
        (k < sramKey 0x80000 → exec (.storePerform a.id) s = .next (t.deliver .mc ret (u.mem.read 0 k a.size))) ∧
        (k = sramKey 0x80000 → exec (.storePerform a.id) s = .next (t.deliver .mc ret s.mgmt.rxlen)) ∧
        (k = sramKey 0x80020 → ∃ w, exec (.storePerform a.id) s = .next w ∧ w.mgmt.mufail = false ∧
          w = { t.deliver .mc ret (if s.mgmt.mufail then 1 else 0) with mgmt := w.mgmt })) ∧
      (∀ data tag v, a.act = .store data tag v → a.who = .mc →
        (k < sramKey 0x60000 ∨ (sramKey 0x64000 ≤ k ∧ k < sramKey 0x70000) → sramKey 0 ≤ k →
          exec (.storePerform a.id) s = .next (t.withMem (t.mem.write 0 k (bytesOf a.size data)))) ∧
        (k = sramKey 0x80010 → a.size = 16 → exec (.storePerform a.id) s = .next { t with mgmt := { t.mgmt with
          muq := t.mgmt.muq ++ [⟨a.id, field data 0 32, field data 32 32, field data 64 32, field data 96 32⟩] } }))) ∧
    (s.mem.access.find? (fun b => b.id == a.id) = some a → a.parked = none → a.sent = none →
      let there := s.translate (agentCore a.who) a.part a.ctx a.owner a.addr a.act.need
      (s.muWaits a = true → exec (.storePerform a.id) s = .next s) ∧
      (s.blocked a = true → s.ownValue a = none → exec (.storePerform a.id) s = .next s) ∧
      (∀ ret l b data tag v, a.act = .load ret → (∀ d, ret ≠ .cap d) → a.who ≠ .mc → s.before a = l ++ [b] →
        b.act = .store data tag v → b.word ≠ a.word → b.global = a.global →
        b.addr ≤ a.addr → a.addr + a.size ≤ b.addr + b.size →
        let own := data / 2 ^ (8 * (a.addr - b.addr)) % 2 ^ (8 * a.size)
        (a.global = false → exec (.storePerform a.id) s = .next
          (((s.dropAccess a (s.boundFor a a.floor)).deliver a.who ret own).noteRead a a.addr a.floor (s.retKeys a.who ret))) ∧
        (a.global = true → ∀ k t, there = .ok (k, t) → exec (.storePerform a.id) s = .next
          (((t.dropAccess a (s.boundFor a a.floor)).deliver a.who ret own).noteRead a k a.floor (s.retKeys a.who ret)))) ∧
      (s.blocked a = false → s.muWaits a = false → a.global = true →
        (∀ r l, there = .error (r, l) →
          ((s.wg a.wg).fault = none → (s.wg a.wg).ended = false → exec (.storePerform a.id) s = .next
            ((s.noteFault (agentCore a.who) a.part a.ctx a.addr (if a.note.isSome then 1 else 0) a.act.kind (r, l)).putAccess
              { a with parked := some s.sched.uid })) ∧
          ((s.wg a.wg).fault ≠ none ∨ (s.wg a.wg).ended = true → exec (.storePerform a.id) s = .next (s.dropAccess a))) ∧
        (∀ k t, there = .ok (k, t) → t.overQuota a k = true → exec (.storePerform a.id) s = .next
          (t.putWg { t.wg a.wg with outgrown := true }))))

/-- R34, R171, R176, R188, R265 and R177: the arrival events perform the accesses that a result, a queue entry or a held word
waits for, and with none left the result takes its places, the entry is ready and the held agent goes on; a load's value takes its
lane's words of the queue entry, which then no longer waits for that lane. The domain's sequencer hands out its tickets one by
one, to the words of one slice in their order (R201), once what the access follows is performed. -/
def Claims.ArrivalsCompleteTheirWords : Prop :=
  ∀ s : State,
    (∀ (who : Agent) (id : Nat), (∀ a ∈ s.mem.access, a.feeds id = false) →
      (∀ core slot lead w, who = .gang core slot lead → s.findWarp core slot = some w → (∀ c ∈ w.claims, c.id ≠ id) →
        ∃ v : Warp, exec (.resultArrival who id) s = .next (s.putWarp v) ∧ v.pend = w.pend.filter (fun p => p.id != id) ∧
          (∀ p, w.pend.find? (fun p => p.id == id) = some p → v.regs = (w.applyWrites p.writes).regs ∧
            v.temps = (w.applyWrites p.writes).temps ∧ v.s = (w.applyWrites p.writes).s) ∧
          v.p = w.p ∧ v.slices = w.slices ∧ v.gangs = w.gangs ∧ v.q0 = w.q0 ∧ v.q1 = w.q1) ∧
      (∀ core thread c, who = .collie core thread → s.findCollie core thread = some c →
        exec (.resultArrival who id) s = .next (s.putCollie { c with x := c.x.arriveResult id })) ∧
      (who = .mc → exec (.resultArrival who id) s = .next { s with mc := { s.mc with x := s.mc.x.arriveResult id } })) ∧
    (∀ (who : Agent) (id : Nat) (a : Access) (t : State), s.mem.access.filter (·.feeds id) = [a] →
      s.mem.access.find? (fun b => b.id == a.id) = some a → a.sent = none →
      exec (.storePerform a.id) s = .next t → (∃ b ∈ t.mem.access, b.feeds id = true) → exec (.resultArrival who id) s = .next t) ∧
    (∀ core slot qn idx w e a, s.findWarp core slot = some w → (w.queue qn)[idx]? = some e →
      (s.mem.access.filter fun a => match a.act with
        | .load (.queue _ i _) => i == e.id
        | .atom _ _ _ (some (.queue _ i _)) => i == e.id
        | _ => false) = [a] → s.mem.access.find? (fun b => b.id == a.id) = some a → a.sent = none →
      exec (.queueDataArrival core slot qn idx) s = exec (.storePerform a.id) s ∧
      (∀ j L k u, a.who = .gang core slot j → a.act = .load (.queue qn e.id L) → Lands s a k u → sparseWf 0 e.data = true →
        ∃ (t : State) (v : Warp) (r : QEntry) (bs : List (BitVec 8)), exec (.queueDataArrival core slot qn idx) s = .next t ∧
          t.findWarp core slot = some v ∧ (v.queue qn)[idx]? = some r ∧ Reads u a k bs ∧
          (∀ b ∈ t.mem.access, b.id ≠ a.id) ∧ (∀ o m, t.mem.byte o m = s.mem.byte o m) ∧
          r.id = e.id ∧ r.width = e.width ∧ r.mask = e.mask ∧ (∀ M, M ∈ r.waiting ↔ M ∈ e.waiting ∧ M ≠ L) ∧
          let val := natOf (if a.global then (u.wg a.wg).overlay k bs else bs)
          ∀ n, sparseGet 0 r.data n = if 4 * L ≤ n ∧ n < 4 * L + e.width then BitVec.ofNat 32 (val / 2 ^ (32 * (n - 4 * L)))
            else sparseGet 0 e.data n)) ∧
    (∀ core slot qn idx w e, s.findWarp core slot = some w → (w.queue qn)[idx]? = some e →
      (∀ a ∈ s.mem.access, ∀ i L, a.act ≠ .load (.queue i e.id L) ∧ ∀ op v1 v2, a.act ≠ .atom op v1 v2 (some (.queue i e.id L))) →
      exec (.queueDataArrival core slot qn idx) s = .next s) ∧
    (∀ core slot lead q word, s.seat core slot lead = some q → q.g.hold = .data word → (∀ a ∈ s.mem.access, a.word ≠ word) →
      let r := q.advance .nop none
      exec (.accessDataArrival (.gang core slot lead)) s = .next (s.putSeat ⟨r.w, { r.g with hold := .none }⟩)) ∧
    (∀ core thread c word, s.findCollie core thread = some c → c.x.hold = .data word → (∀ a ∈ s.mem.access, a.word ≠ word) →
      let d := Collie.advance { c with x := c.x.arriveResult word } .nop none
      exec (.accessDataArrival (.collie core thread)) s = .next (s.putCollie { d with x := { d.x with hold := .none } })) ∧
    (∀ a, s.mem.access.find? (fun b => b.id == a.id) = some a → a.seqr = some 1 → a.ticket = none → s.before a = [] →
      (∀ b ∈ s.mem.access.takeWhile (fun b => b.id != a.id), b.seqr = some 1 →
        b.word = a.word ∨ (b.who = a.who ∧ b.wg = a.wg) → b.ticket ≠ none) →
      let n := sparseGet 0 s.mem.tickets 1
      exec (.scTicketRequest a.id) s = .next { s with mem := { s.mem with
        access := s.mem.access.map (fun b => if b.id = a.id then { a with ticket := some n } else b)
        tickets := sparseSet 0 s.mem.tickets 1 (n + 1) } })

/-- How accesses in flight are performed and how their arrivals complete words (R34, R171, R176, R188, R391).
Where the spec leaves it open this rests on the model's choices, log entries 28, 29, 31, 111. -/
def Obligations.AccessesArePerformedAndArrive : Prop :=
  Claims.HeldWritesLieOverMemory ∧ Claims.AccessesArePerformedAtOnce ∧ Claims.ArrivalsCompleteTheirWords

/-! ### Ordering, monitors and barriers -/

/-- R179 to R182, R197 and R199: FENCE waits for the accesses its gang or agent has in flight, FENCE.X where it names LS or FB;
the later accesses of each slice then follow, at the scope, what the slices have made, and for FENCE.X those on its to-paths follow
what they have made on LS and FB and what carriers have put before them on its other from-paths. BIND and its dissolution change
the context's bind table; REL waits for the warp's writes to the object's regions and then issues an atomic increment of the count,
which covers those of the gang's slices; ACQ reads the count, of which Reads says what it may be, and the later accesses of its
slices follow what the RELs it observes cover, each in the other's scope.
Where the spec leaves it open this rests on the model's choices, log entries 27, 29, 37, 135, 137. -/
def Obligations.FencesAndReleasesOrderAccesses : Prop :=
  ∀ (s : State) (q : Seat),
    let g := s.wg q.w.wg
    let id : Nat := s.sched.uid
    let all : List Nat := List.range q.w.slices.length
    let object (o : BitVec 4) (a : RegCode) : Nat := ((q.w.cap o.toNat).base + (q.exe.rd a.toNat 0).toNat) % 2 ^ 56
    let opens (o : BitVec 4) (a : RegCode) : Prop :=
      (q.w.cap o.toNat).Opens g.part (permR + permW) 8 [(q.exe.rd a.toNat 0).toNat]
    let mine (b : Binding) : Bool := b.part == g.part && b.ctx == g.ctx
    let latest (l : List Nat) : Nat := l.foldl max 0
    let made (vs : List View) : Nat := latest (vs.map (·.high))
    let carried (vs : List View) (path : Nat) : Nat := latest (vs.map fun v => sparseGet 0 v.paths path)
    let seen (i : Instr) (vs : List View) (v : View) : View := match i with
      | .fence sc => v.follow sc.toNat (made vs)
      | .fenceX sc src dst =>
        let m := max (if src.getLsbD 0 || src.getLsbD 4 then max (made vs) (carried vs 0) else 0)
          (max (if src.getLsbD 1 then carried vs 1 else 0) (if src.getLsbD 2 then carried vs 2 else 0))
        let x := if dst.getLsbD 0 || dst.getLsbD 4 then v.follow sc.toNat m else v
        let y := if (src ||| dst).getLsbD 0 || (src ||| dst).getLsbD 4 then x.follow sc.toNat (made vs) else x
        { y with
          cp := if dst.getLsbD 1 then raiseFloor y.cp sc.toNat m else y.cp
          tf := if dst.getLsbD 2 then raiseFloor y.tf sc.toNat m else y.tf }
      | _ => v
    (∀ i, (∃ sc, i = .fence sc) ∨ (∃ sc src dst, i = .fenceX sc src dst) →
      let waits : Prop := ∀ sc src dst, i = .fenceX sc src dst → (src ||| dst) &&& 0x11 ≠ 0
      (GangRuns i s q →
        ((waits → ∀ a ∈ s.mem.access, ¬ q.issued q.g.slices a) →
          exec i s = .next (s.afterGang q i (q.w.mapViews q.g.slices (seen i (q.g.slices.map q.w.viewOf))))) ∧
        (waits → (∃ a ∈ s.mem.access, q.issued q.g.slices a) → exec i s = .next s.nextFree)) ∧
      (∀ c, CollieRuns i s c →
        ((waits → ∀ a ∈ s.mem.access, a.who = .collie c.core c.thread → a.note = none → a.wg ≠ c.wg) →
          exec i s = .next (s.afterCollie { c with view := seen i [c.view] c.view } i c.x)) ∧
        (waits → (∃ a ∈ s.mem.access, a.who = .collie c.core c.thread ∧ a.note = none ∧ a.wg = c.wg) → exec i s = .next s)) ∧
      (McRuns i s →
        ((waits → ∀ a ∈ s.mem.access, a.who ≠ .mc) → exec i s = .next (s.afterMc s.mc.x)) ∧
        (waits → (∃ a ∈ s.mem.access, a.who = .mc ∧ a.note = none ∧ a.wg = 0) → exec i s = .next s))) ∧
    (∀ c o a unb, GangRuns (.bind c o a unb) s q →
      let i : Instr := .bind c o a unb
      let r := q.w.cap c.toNat
      let rest := s.mem.binds.filter fun b => !(mine b && b.base == r.base && b.length == r.length)
      let go (l : List Binding) : Out := .next ((s.withMem { s.mem with binds := l }).afterGang q i q.w)
      r.valid = true → r.sealed = false →
      (r.perms &&& permB = 0 → exec i s = .next (s.raiseAt q { cause := 0x12, arg0 := c.toNat, arg1 := permB })) ∧
      (r.perms &&& permB ≠ 0 → unb = 1 → exec i s = go rest) ∧
      (r.perms &&& permB ≠ 0 → unb = 0 → opens o a →
        ((rest.filter mine).length < 1024 → exec i s = go (rest ++ [⟨g.part, g.ctx, r.base, r.length, object o a⟩])) ∧
        (1024 ≤ (rest.filter mine).length → exec i s = .next (s.raiseAt q { cause := 0x1A })))) ∧
    (∀ o a sc, GangRuns (.rel o a sc) s q → opens o a →
      let i : Instr := .rel o a sc
      let under (x : Access) : Prop := q.issued all x ∧ x.global = true ∧ x.writes = true ∧
        ∃ b ∈ s.mem.binds, mine b = true ∧ b.object = object o a ∧ b.base ≤ x.addr ∧ x.addr + x.size ≤ b.base + b.length
      ((∃ x ∈ s.mem.access, under x) → exec i s = .next s.nextFree) ∧
      let covers (e : Past) : Prop := (∃ j ∈ q.g.slices, e.writer = ⟨q.w.core, q.w.slot, q.w.wg, j⟩) ∧ ∃ va, e.va = some va ∧
        ∃ b ∈ s.mem.binds, mine b = true ∧ b.object = object o a ∧ b.base ≤ va ∧ va + e.n ≤ b.base + b.length
      ((∀ x ∈ s.mem.access, ¬ under x) → ∃ high, (∀ e ∈ s.mem.past, covers e → e.at_ ≤ high) ∧
        (high = 0 ∨ ∃ e ∈ s.mem.past, covers e ∧ e.at_ = high) ∧
        exec i s = .next ((s.nextFree.nextUid.withAccesses
          [{ q.globalAccess g (q.w.cap o.toNat) id (4 * q.lead) (q.exe.rd a.toNat 0).toNat 8 (.atom 0 1 0 none) with
            rel := some (sc.toNat, high) }]).putSeat (q.advance i none)))) ∧
    (∀ d o a sc, GangRuns (.acq d o a sc) s q → opens o a → s.mem.access = [] → s.findWg q.w.wg = some g → g.versionOpen = false →
      let i : Instr := .acq d o a sc
      ∀ k u, s.nextFree.translate q.w.core g.part g.ctx (q.w.cap o.toNat).owner (object o a) needR = .ok (k, u) →
        isRemote k = false →
        let x : Access := { q.globalAccess g (q.w.cap o.toNat) id (4 * q.lead) (q.exe.rd a.toNat 0).toNat 8 (.load (.pend 0 0)) with
          id := id, floor := sparseGet 0 s.sched.dep q.lead }
        let r := u.glanceAt x k
        let p := q.place q.lead
        Reads u x k r.1 ∧ ∃ v : Warp, exec i s = .next (u.nextUid.putSeat (Seat.advance ⟨v, q.g⟩ i none)) ∧
          (∃ vs, v = { (s.primed q i).w.write d.toNat [(0, BitVec.ofNat 32 (natOf r.1))] with views := vs }) ∧
          (sparseWf {} q.w.views = true → q.lead ∈ q.g.slices →
            (∀ j, j ∉ q.g.slices → v.viewOf j = q.w.viewOf j) ∧
            ∀ j ∈ q.g.slices, ∀ e ∈ u.mem.releases, e.key = k → e.at_ ≤ r.2 → e.place.covers e.scope p = true →
              p.covers sc.toNat e.place = true → e.high ≤ sparseGet 0 (v.viewOf j).floors 5))

/-- R159 to R161: WAITMON compares the word at its address with the expected one, and where they are equal parks the gang,
thread or controller on the line, the longest parked entry of a full table giving way; it always goes on at the next word. On the
controller a read of MUSYNC waits for the commands stored before it (R388).
A write to the line, the time limit or no reason at all wakes it, unless its context is frozen.
Where the spec leaves it open this rests on the model's choices, log entries 27, 29, 36. -/
def Obligations.WaitmonParksOnALine : Prop :=
  ∀ (lvl : BitVec 2) (c : BitVec 4) (a b tmo : RegCode) (s : State),
    let i : Instr := .waitmon lvl c a b tmo
    let armed (t : State) (who : Agent) (core k : Nat) (t' : State) : Prop :=
      let here := t.mem.monitors.filter fun m => m.core == core
      let m : Monitor := { who := who, core := core, line := k / 64, since := t.sched.now, limit := 4096 * tmo.toNat }
      let add (u : State) : State := u.withMem { u.mem with monitors := u.mem.monitors ++ [m] }
      (here.length < 64 → t' = add t) ∧
      (∀ o rest, here = o :: rest → 64 ≤ here.length → ∃ u, Woken t o.who u ∧ t' = add u)
    (∀ q, GangRuns i s q → inCode q.pc 1 →
      let next (_ : Nat) (x : Slice) : Slice := { x with pc := codeAt q.pc 1 }
      (q.exe.lanes = [] → ∃ t v, exec i s = .next t ∧ q.w.sameRegisters v ∧ Parted s t q next .none v) ∧
      (∀ M rest, q.exe.lanes = M :: rest → (∀ x ∈ s.mem.access, ¬ q.issued [M / 4] x) →
        let g := s.wg q.w.wg
        let off : Nat := (q.w.read a.toNat M).toNat
        let tests (k v : Nat) (u : State) : Prop :=
          let r : Seat := { q with w := q.w.mapViews [M / 4] fun x => x.noteRead k 4 (u.mem.lastAt k 4) [] }
          (BitVec.ofNat 32 v ≠ q.w.read b.toNat M →
            ∃ t w, exec i s = .next t ∧ q.w.sameRegisters w ∧ Parted u t r next .none w) ∧
          (BitVec.ofNat 32 v = q.w.read b.toNat M →
            ∃ t t' w, exec i s = .next t' ∧ q.w.sameRegisters w ∧ Parted u t r next .monitor w ∧
              armed t (.gang q.w.core q.w.slot q.lead) q.w.core k t')
        (lvl ≠ 0 → off + 4 ≤ s.levelLimit g lvl.toNat → off % 4 = 0 →
          tests (s.levelKey g lvl.toNat 0 off) (s.mem.read 0 (s.levelKey g lvl.toNat 0 off) 4) s) ∧
        (lvl = 0 → (q.w.cap c.toNat).Opens g.part permR 4 [off] → s.findWg q.w.wg = some g → g.versionOpen = false →
          ∀ k u, s.nextFree.translate q.w.core g.part g.ctx (q.w.cap c.toNat).owner (((q.w.cap c.toNat).base + off) % 2 ^ 56)
            needR = .ok (k, u) → isRemote k = false → tests k (u.mem.read (q.w.cap c.toNat).owner k 4) u))) ∧
    (lvl = 1 → (∀ x ∈ s.mem.access, x.note ≠ none) →
      let tests (x : Exe) (want : BitVec 32) (k : Nat) (put : Bool → Bool → State) (who : Agent) (core : Nat) : Prop :=
        (x.lanes = [] → exec i s = .next (put false false)) ∧
        (x.lanes ≠ [] → BitVec.ofNat 32 (s.mem.read 0 k 4) ≠ want → exec i s = .next (put true false)) ∧
        (x.lanes ≠ [] → BitVec.ofNat 32 (s.mem.read 0 k 4) = want →
          ∃ t', exec i s = .next t' ∧ armed (put true true) who core k t')
      (∀ w, CollieRuns i s w → inCode w.x.pc 1 →
        let off := (Exe.rd (.scal w.x) a.toNat 0).toNat
        off + 4 ≤ s.levelLimit (s.wg w.wg) 1 → off % 4 = 0 →
        let k := s.levelKey (s.wg w.wg) 1 0 off
        tests (.scal w.x) (Exe.rd (.scal w.x) b.toNat 0) k
          (fun reads parks => s.putCollie { w with
            view := if reads then w.view.noteRead k 4 (s.mem.lastAt k 4) [] else w.view
            x := { w.x with pc := codeAt w.x.pc 1, run := {} }, park := if parks then .monitor else w.park })
          (.collie w.core w.thread) w.core) ∧
      (McRuns i s → inCode s.mc.x.pc 1 →
        let off := (Exe.rd (.scal s.mc.x) a.toNat 0).toNat
        off + 4 ≤ 0x80000 → off % 4 = 0 →
        tests (.scal s.mc.x) (Exe.rd (.scal s.mc.x) b.toNat 0) (sramKey off)
          (fun _ parks => { s with mc := { s.mc with
            x := { s.mc.x with pc := codeAt s.mc.x.pc 1, run := {} }, parked := parks } })
          .mc 0xFFFF)) ∧
    (lvl = 1 → McRuns i s → inCode s.mc.x.pc 1 → (Exe.lanes (.scal s.mc.x)) ≠ [] →
      (Exe.rd (.scal s.mc.x) a.toNat 0).toNat = 0x80020 → (∃ m ∈ s.mgmt.muq, m.id < s.sched.uid) ∨
        (∃ x ∈ s.mem.access, x.commands = true ∧ x.id < s.sched.uid) → exec i s = .next s) ∧
    (∀ who m, s.monitorOf who = some m → s.agentFrozen who = false → ∀ e,
      (e = .spuriousWake who ∨ (e = .monitorWriteWake who ∧ m.hit = true) ∨
        (e = .waitmonTimeout who ∧ m.limit ≠ 0 ∧ m.since + m.limit ≤ s.sched.now)) →
      ∃ t, exec e s = .next t ∧ Woken s who t)

/-- R158, R200, R246 and R247: BAR.INIT sets a barrier's count, BAR.ARRIVE and BAR.WAIT mark the issuing slices, a warp whose
live slices have all marked arrives once, and with as many arrivals as the count the phase completes, the barrier is clear and
who waits goes on once every access before the arrivals is performed (Marks). BAR.WAIT parks its gang; with pw it marks nothing
and parks only where its slices have marked, else it goes on, and follows what the phases that have gone on put before it; where
gangs of a completed phase still wait for such accesses it parks with the last of them.
A barrier the workgroup has not raises BARRIER-RANGE.
Where the spec leaves it open this rests on the model's choices, log entries 29, 38. -/
def Obligations.BarriersGatherTheirArrivals : Prop :=
  ∀ (b : BitVec 4) (s : State) (q : Seat) (i : Instr), GangRuns i s q → s.findWg q.w.wg = some (s.wg q.w.wg) →
    let g := s.wg q.w.wg
    let x : Barrier := g.bars.getD b.toNat default
    let f := s.nextFree
    let next (_ : Nat) (y : Slice) : Slice := { y with pc := codeAt q.pc 1 }
    (((∃ n, i = .barInit b n) ∨ i = .barArrive b ∨ (∃ pw, i = .barWait b pw)) → g.bars.length ≤ b.toNat →
      exec i s = .next (s.raiseAt q { cause := 0xC, arg0 := b.toNat })) ∧
    (b.toNat < g.bars.length →
      (∀ n, i = .barInit b n →
        (n.toNat ≤ x.arrivals →
          let p : Waking := ⟨x.phase, x.before, x.high, x.cp⟩
          let done : State := f.putWg (g.withBar b.toNat (Barrier.completed { x with count := n.toNat } p))
          ∃ u r, (x.open x.before → Released done u g.uid b.toNat p) ∧ (¬ x.open x.before → u = done) ∧
            u.seat q.w.core q.w.slot q.lead = some r ∧ r.g = q.g ∧ exec i s = .next (u.putSeat (r.advance i none))) ∧
        (x.arrivals < n.toNat → exec i s = .next
          ((f.putWg (g.withBar b.toNat { x with count := n.toNat })).putSeat (q.advance i none)))) ∧
      (i = .barArrive b → ∃ u r, Marks s q b.toNat f u ∧ u.seat q.w.core q.w.slot q.lead = some r ∧ r.g = q.g ∧
        exec i s = .next (u.putSeat (r.advance i none))) ∧
      (i = .barWait b 0 → inCode q.pc 1 → ∃ t t' v, exec i s = .next t' ∧ q.w.sameRegisters v ∧
        Parted s t q next (.barWait b.toNat x.phase) v ∧ Marks s q b.toNat t t') ∧
      (i = .barWait b 1 → inCode q.pc 1 →
        ((∀ j ∈ q.g.slices, (q.w.index, j) ∈ x.marks) → ∃ t v, exec i s = .next t ∧ q.w.sameRegisters v ∧
          Parted s t q next (.barWait b.toNat x.phase) v) ∧
        ((∃ j ∈ q.g.slices, (q.w.index, j) ∉ x.marks) → x.waking = [] → ∃ t v, exec i s = .next t ∧ q.w.sameRegisters v ∧
          Parted s t { q with w := q.w.mapViews q.g.slices fun y => y.passed x.doneHigh x.doneCp } next .none v) ∧
        (∀ l p, (∃ j ∈ q.g.slices, (q.w.index, j) ∉ x.marks) → x.waking = l ++ [p] → ∃ t v, exec i s = .next t ∧
          q.w.sameRegisters v ∧ Parted s t q next (.barWait b.toNat p.phase) v)))

/-! ### Capabilities -/

/-- R184 to R187: the capability words act once whatever the guard. CMOV copies; CSETB narrows, CANDP drops permissions, CSEAL
seals under a key's object number and CUNSEAL opens again; CGET reads a field. All other bits of the capability stay. -/
def Claims.CapabilityWordsDerive : Prop :=
  ∀ (i : Instr) (s : State),
    let same (k c : Cap) (base length objid perms sealed : Bool) : Prop :=
      k.valid = c.valid ∧ (base = true → k.base = c.base) ∧ (length = true → k.length = c.length) ∧
      (objid = true → k.objid = c.objid) ∧ (perms = true → k.perms = c.perms) ∧ (sealed = true → k.sealed = c.sealed) ∧
      k.owner = c.owner ∧ k.bits.getLsbD 116 = c.bits.getLsbD 116
    let acts (x : Exe) (caps : Sparse Cap) (set : Nat → Cap → Out) (wr : Nat → BitVec 32 → Out) (traps : Trap → Out) : Prop :=
      let get (n : BitVec 4) : Cap := sparseGet {} caps n.toNat
      (∀ d a, i = .cmov d a → exec i s = set d.toNat (get a)) ∧
      (∀ d a off len, i = .csetb d a off len → (get a).valid = true → (get a).sealed = false →
        let u := (x.rd64 off.toNat 0).toNat
        let n := (x.rd64 len.toNat 0).toNat
        (u + n ≤ (get a).length → ∃ k : Cap, exec i s = set d.toNat k ∧ same k (get a) false false true true true ∧
          k.base = ((get a).base + u) % 2 ^ 56 ∧ k.length = n) ∧
        ((get a).length < u + n → exec i s = traps { cause := 0x16, arg0 := u, arg1 := n })) ∧
      (∀ d a perm, i = .candp d a perm → (get a).valid = true → (get a).sealed = false →
        ∃ k : Cap, exec i s = set d.toNat k ∧ same k (get a) true true true false true ∧ k.perms = (get a).perms &&& perm.toNat) ∧
      (∀ d a key, i = .cseal d a key → (get key).isKey = true → (get a).valid = true → (get a).sealed = false →
        ∃ k : Cap, exec i s = set d.toNat k ∧ same k (get a) true true false true false ∧ k.sealed = true ∧
          k.objid = (get key).objid) ∧
      (∀ d a key, i = .cunseal d a key → (get key).isKey = true → (get a).valid = true →
        ((get a).sealed = true ∧ (get a).objid = (get key).objid → ∃ k : Cap, exec i s = set d.toNat k ∧
          same k (get a) true true true true false ∧ k.sealed = false) ∧
        ((get a).sealed = false ∨ (get a).objid ≠ (get key).objid → exec i s = traps { cause := 0x14, arg0 := a.toNat })) ∧
      (∀ d a key, i = .cseal d a key ∨ i = .cunseal d a key → (get key).isKey = false →
        exec i s = traps { cause := 0x14, arg0 := key.toNat }) ∧
      (∀ d a, (∃ off len, i = .csetb d a off len) ∨ (∃ p, i = .candp d a p) →
        ((get a).valid = false → exec i s = traps { cause := 0x13, arg0 := a.toNat }) ∧
        ((get a).valid = true → (get a).sealed = true → exec i s = traps { cause := 0x14, arg0 := a.toNat })) ∧
      (∀ d a f, i = .cget d a f → exec i s = wr d.toNat (match f.toNat with
        | 0 => BitVec.ofNat 32 (get a).base
        | 1 => BitVec.ofNat 32 ((get a).base / 2 ^ 32)
        | 2 => BitVec.ofNat 32 (get a).length
        | 3 => BitVec.ofNat 32 ((get a).length / 2 ^ 32)
        | 4 => BitVec.ofNat 32 (get a).perms
        | 5 => BitVec.ofNat 32 (get a).owner
        | 6 => BitVec.ofNat 32 (get a).objid
        | _ => (if (get a).valid then 1 else 0) ||| (if (get a).sealed then 2 else 0)))
    (∀ q, GangRuns i s q → acts q.exe q.w.c
      (fun d k => .next (s.afterGang q i { q.w with c := sparseSet {} q.w.c d k }))
      (fun d v => .next (s.afterGang q i ((s.primed q i).w.write d [(0, v)])))
      (fun tr => .next (s.raiseAt q tr))) ∧
    (∀ c, CollieRuns i s c → acts (.scal c.x) c.c
      (fun d k => .next (s.afterCollie { c with c := sparseSet {} c.c d k } i c.x))
      (fun d v => .next (s.afterCollie c i (if d < 32 then { c.x with s := sparseSet 0 c.x.s d v } else c.x)))
      (fun tr => .next (s.raiseCollie c tr)))

/-- R188 and R183: CLDC holds its gang or thread until the 16 bytes and their tag have arrived; CSTC issues a store of the
capability's bits with its valid bit for the tag. Where it belongs to an open version its lines are charged, and it waits, its task
to become irrevocable, where they pass the quota (R216). Both check their capability at a 16-byte aligned offset. -/
def Claims.CapabilitiesMoveToAndFromMemory : Prop :=
  ∀ (d c : BitVec 4) (a : RegCode) (s : State),
    let id : Nat := s.sched.uid
    let load (L : Nat) (x : Access) : Prop := x.act = .load (.cap d.toNat) ∧ x.lane = L
    let far (x : Access) (cap : Cap) (off : Nat) : Prop := x.global = true ∧ x.owner = cap.owner ∧
      x.addr = (cap.base + off) % 2 ^ 56 ∧ x.size = 16 ∧ x.word = id ∧ x.seqr = none ∧ x.ticket = none ∧ x.parked = none ∧
      x.sent = none ∧ x.note = none ∧ x.rel = none
    let new (u : State) (core : Nat) (g : Workgroup) (cap : Cap) (off : Nat) : List Nat :=
      (u.linesAt core g cap.owner [((cap.base + off) % 2 ^ 56, 16)]).filter fun l => !g.lines.contains l
    (∀ q,
      let g := s.wg q.w.wg
      let cap := q.w.cap c.toNat
      let off := (q.exe.rd a.toNat 0).toNat
      let of (x : Access) : Prop := x.who = .gang q.w.core q.w.slot q.lead ∧ x.wg = g.uid ∧ x.part = g.part ∧ x.ctx = g.ctx ∧
        x.pc = q.pc ∧ x.outer = q.outer
      let stores (u : State) : Prop := ∃ x : Access, far x cap off ∧ of x ∧ x.lane = 4 * q.lead ∧
        x.act = .store (q.w.cap d.toNat).bits.toNat (some (q.w.cap d.toNat).valid) cap.versioned ∧
        exec (.cstc d c a) s = .next ((u.nextFree.nextUid.withAccesses [x]).putSeat (q.advance (.cstc d c a) none))
      (GangRuns (.cldc d c a) s q → cap.Opens g.part permR 16 [off] → ∃ x : Access, load (4 * q.lead) x ∧ far x cap off ∧ of x ∧
        exec (.cldc d c a) s = .next ((s.nextFree.nextUid.withAccesses [x]).putSeat
          { q with g := { q.g with hold := .data id } })) ∧
      (GangRuns (.cstc d c a) s q → s.findWg q.w.wg = some g → cap.Opens g.part permW 16 [off] →
        let l := new s.nextFree q.w.core g cap off
        (¬ (cap.versioned = true ∧ g.holds) → stores (s.noteWrite g.uid 1)) ∧
        (cap.versioned = true → g.holds → g.lines.length + l.length ≤ 4096 → stores (s.putWg { g with lines := g.lines ++ l })) ∧
        (cap.versioned = true → g.holds → 4096 < g.lines.length + l.length →
          exec (.cstc d c a) s = .next (s.nextFree.putWg { g with outgrown := true }))) ∧
      (GangRuns (.cstc d c a) s q → ∀ tr, capFault cap c.toNat g.part permW 16 [(0xFF, off)] = some tr →
        exec (.cstc d c a) s = .next (s.raiseAt q tr))) ∧
    (∀ k : Collie,
      let g := s.wg k.wg
      let cap : Cap := sparseGet {} k.c c.toNat
      let off := (Exe.rd (.scal k.x) a.toNat 0).toNat
      let of (x : Access) : Prop := x.who = .collie k.core k.thread ∧ x.wg = g.uid ∧ x.part = g.part ∧ x.ctx = g.ctx ∧
        x.pc = k.x.pc ∧ x.outer = k.frame.map (·.epc)
      let stores (u : State) : Prop := ∃ x : Access, far x cap off ∧ of x ∧ x.lane = 0xFF ∧
        x.act = .store (sparseGet ({} : Cap) k.c d.toNat).bits.toNat (some (sparseGet ({} : Cap) k.c d.toNat).valid) cap.versioned ∧
        exec (.cstc d c a) s = .next ((u.putCollie (k.advance (.cstc d c a) none)).nextUid.withAccesses [x])
      (CollieRuns (.cldc d c a) s k → cap.Opens g.part permR 16 [off] → ∃ x : Access, load 0xFF x ∧ far x cap off ∧ of x ∧
        exec (.cldc d c a) s = .next ((s.putCollie { k with x := { k.x with hold := .data id } }).nextUid.withAccesses [x])) ∧
      (CollieRuns (.cstc d c a) s k → s.findWg k.wg = some g → cap.Opens g.part permW 16 [off] →
        let l := new s k.core g cap off
        (¬ (cap.versioned = true ∧ g.holds) → stores (s.noteWrite g.uid 1)) ∧
        (cap.versioned = true → g.holds → g.lines.length + l.length ≤ 4096 → stores (s.putWg { g with lines := g.lines ++ l })) ∧
        (cap.versioned = true → g.holds → 4096 < g.lines.length + l.length →
          exec (.cstc d c a) s = .next (s.putWg { g with outgrown := true }))) ∧
      (∀ i need, (i = .cldc d c a ∧ need = permR) ∨ (i = .cstc d c a ∧ need = permW) → CollieRuns i s k →
        ∀ tr, capFault cap c.toNat g.part need 16 [(0xFF, off)] = some tr → exec i s = .next (s.raiseCollie k tr)))

/-- R184 to R188: the words on capabilities.
Where the spec leaves it open this rests on the model's choices, log entries 25, 27, 28, 45, 129, 137. -/
def Obligations.CapabilitiesDeriveAndMove : Prop :=
  Claims.CapabilityWordsDerive ∧ Claims.CapabilitiesMoveToAndFromMemory

/-! ### Skeins -/

/-- R253: coefficients within the slot range are what a skein reads back after kput has written them, and the first one
outside it is the slot that GUARD-OVERFLOW reports. -/
def Claims.SkeinsHoldTheirCoefficients : Prop :=
  ∀ (s wx : Nat) (sg : Bool) (es : List Int), 4 ≤ s → es.length = wx / s →
    ((∀ e ∈ es, if sg then -(2 ^ (s - 1) - 1 : Int) ≤ e ∧ e ≤ 2 ^ (s - 1) - 1 else 0 ≤ e ∧ e < 2 ^ s) →
      ∃ v, kput s wx sg es = .ok v ∧ v < 2 ^ wx ∧ ∀ j, j < wx / s → coef v s j sg = es.getD j 0) ∧
    (∀ j, kput s wx sg es = .error j → inSlot s sg (es.getD j 0) = false ∧ ∀ i, i < j → inSlot s sg (es.getD i 0) = true)

/-- R252 to R264 and R266: KGW sets the geometry and KGW.RD reads it, the counts and the record; KPACK, KMUL, KMAC, KADD, KSUB,
KSHL and KSHR write the sums of their coefficients, KMOV copies and KEXT reads one coefficient per executing lane. A slot out of
range is recorded and raises GUARD-OVERFLOW, or enters the guard handler. No KLD of the warp is under way here (R257). -/
def Claims.SkeinWordsComputeCoefficients : Prop :=
  ∀ (s : State) (q : Seat) (i : Instr), GangRuns i s q →
    (∀ a ∈ s.mem.access, ∀ k u n, a.act ≠ .load (.skein k u n)) →
    let geo := q.w.geo
    let n (pr : BitVec 1) : Nat := (if pr = 1 then 1024 else 512) / geo.s
    let co (pr : BitVec 1) (k : BitVec 3) (sg : Bool) (j : Nat) : Int := coef (q.w.skein (pr == 1) k.toNat) geo.s j sg
    let pos (mode : BitVec 2) (base L : Nat) : Int :=
      if mode = 0 then base + L else if mode = 1 then base - L else base + geo.stride * L
    let writes (pr : BitVec 1) (d : BitVec 3) (sg : Bool) (step count : Nat) (e : Nat → Int) : Prop :=
      let bits : Nat := if pr = 1 then 1024 else 512
      ((∀ j, j < n pr → inSlot geo.s sg (e j) = true) → ∃ v : Nat,
        (v : Int) = (((List.range (n pr)).map fun j => e j * 2 ^ (geo.s * j)).sum) % 2 ^ bits ∧
        exec i s = .next (s.afterGang q i (q.w.putSkein (pr == 1) d.toNat v count))) ∧
      (∀ j, j < n pr → inSlot geo.s sg (e j) = false → (∀ h, h < j → inSlot geo.s sg (e h) = true) →
        let w : Warp := { q.w with geo := { geo with ovf := BitVec.ofNat 32 (j % 256 + step % 2 ^ 16 * 2 ^ 16) } }
        let u := s.nextFree.putWarp w
        ((s.ctxOf q.w.wg).guardentry = 0 →
          exec i s = .next (u.raiseAt ⟨w, q.g⟩ { cause := 0x25, arg0 := j, arg1 := step })) ∧
        (HandlerOpen u ⟨w, q.g⟩ (s.ctxOf q.w.wg).guardentry →
          ∃ t, exec i s = .next t ∧ InHandler u t ⟨w, q.g⟩ (s.ctxOf q.w.wg).guardentry (wordOf i) 0 0x25))
    (∀ pc qc g sa sb stride, i = .kgw pc qc g sa sb stride →
      ∃ v : BitVec 32, exec i s = .next (s.afterGang q i { q.w with geo := { geo with geom := v } }) ∧
        let r : Geometry := { geo with geom := v }
        r.p = 2 * 2 ^ pc.toNat ∧ r.q = 2 * 2 ^ qc.toNat ∧ r.guard = g.toNat ∧ r.sa = (sa == 1) ∧ r.sb = (sb == 1) ∧
          r.stride = stride.toNat ∧ r.s = r.p + r.q + r.guard) ∧
    (∀ sel d, i = .kgwRd sel d → exec i s = .next (s.afterGang q i ((s.primed q i).w.write d.toNat [(0,
      if sel = 0 then geo.geom else if sel = 5 then geo.ovf else BitVec.ofNat 32 (sparseGet 0 geo.counts (sel.toNat - 1)))]))) ∧
    (∀ k a mode role acc base, i = .kpack k a mode role acc base →
      let sg := if role = 0 then geo.sa else geo.sb
      let e := if role = 0 then geo.p else geo.q
      let x (L : Nat) : Int := if sg then sext (q.w.read a.toNat L).toNat e else ((q.w.read a.toNat L).toNat % 2 ^ e : Nat)
      writes 0 k sg 0 0 fun j => (if acc = 1 then co 0 k sg j else 0) +
        ((q.exe.lanes.filter fun L => pos mode base.toNat L == (j : Int)).map x).sum) ∧
    (∀ d k pr mode sel base, i = .kext d k pr mode sel base →
      let sg := geo.sign sel.toNat
      exec i s = .next (s.afterGang q i ((s.primed q i).w.write d.toNat ((s.primed q i).exe.lanes.map fun L =>
        let at_ := pos mode base.toNat L
        let v : Int := if 0 ≤ at_ ∧ at_ < n pr then co pr k sg at_.toNat else 0
        (L, BitVec.ofInt 32 (if modeSat (q.exe.modeAt L) then (if sg then min (max v (-2 ^ 31)) (2 ^ 31 - 1)
          else min (max v 0) (2 ^ 32 - 1)) else v)))))) ∧
    (∀ d a b, i = .kmul d a b ∨ i = .kmac d a b →
      let sg := geo.sa || geo.sb
      let count := sparseGet 0 geo.counts (d.toNat / 2)
      let t (k : Nat) : Int := ((List.range (n 0)).map fun x =>
        if x ≤ k ∧ k - x < n 0 then co 0 a geo.sa x * co 0 b geo.sb (k - x) else 0).sum
      (s.bobbinFree q.w.core = false → exec i s = .next s.nextFree) ∧
      (s.bobbinFree q.w.core = true → i = .kmul d a b → writes 1 d sg 1 1 t) ∧
      (s.bobbinFree q.w.core = true → i = .kmac d a b →
        writes 1 d sg (count + 1) (min (count + 1) 65535) fun k => co 1 d sg k + t k)) ∧
    (∀ d a b pr sel, i = .kadd d a b pr sel → writes pr d (geo.sign sel.toNat) 0 0 fun j =>
      co pr a (geo.sign sel.toNat) j + co pr b (geo.sign sel.toNat) j) ∧
    (∀ d a b pr sel, i = .ksub d a b pr sel → writes pr d (geo.sign sel.toNat) 0 0 fun j =>
      co pr a (geo.sign sel.toNat) j - co pr b (geo.sign sel.toNat) j) ∧
    (∀ d a pr sel m, i = .kshl d a pr sel m → writes pr d (geo.sign sel.toNat) 0 0 fun j =>
      if m.toNat ≤ j then co pr a (geo.sign sel.toNat) (j - m.toNat) else 0) ∧
    (∀ d a pr sel m, i = .kshr d a pr sel m → writes pr d (geo.sign sel.toNat) 0 0 fun j =>
      if j + m.toNat < n pr then co pr a (geo.sign sel.toNat) (j + m.toNat) else 0) ∧
    (∀ d a pr zero, i = .kmov d a pr zero → exec i s = .next (s.afterGang q i
      (q.w.putSkein (pr == 1) d.toNat (if zero = 1 then 0 else q.w.skein (pr == 1) a.toNat) 0)))

/-- R252 to R264 and R266: the words on skeins.
Where the spec leaves it open this rests on the model's choices, log entry 72. -/
def Obligations.SkeinWordsComputeCoefficients : Prop :=
  Claims.SkeinsHoldTheirCoefficients ∧ Claims.SkeinWordsComputeCoefficients

/-- R265: KLD and KST move 64 or 128 bytes at a scalar offset of that alignment, through a capability or in the workgroup's
scratchpad, as one access for each aligned unit of 16 bytes that they touch there; KLD holds its gang until the units have arrived, KST reads the skein at issue. A KST through a capability
that carries V needs W and V, and in an open version its lines are charged (R183, R216).
Where the spec leaves it open this rests on the model's choices, log entries 25, 27, 28, 45. -/
def Obligations.SkeinsMoveToAndFromMemory : Prop :=
  ∀ (s : State) (q : Seat) (k : BitVec 3) (pr : BitVec 1) (sp : BitVec 5) (a : RegCode),
    (∀ x ∈ s.mem.access, ∀ n u m, x.act ≠ .load (.skein n u m)) → s.findWg q.w.wg = some (s.wg q.w.wg) →
    let g := s.wg q.w.wg
    let id : Nat := s.sched.uid
    let cap := q.w.cap sp.toNat
    let off := (q.exe.rd a.toNat 0).toNat
    let size : Nat := if pr = 1 then 128 else 64
    let writes : Nat := if cap.versioned = true then permW + permV else permW
    let opens (need : Nat) : Prop :=
      if sp.toNat < 16 then cap.Opens g.part need size [off] else off + size ≤ g.groupB ∧ off % size = 0
    let first := if sp.toNat < 16 then cap.base + off else off
    let at_ (u : Nat) : Nat := if u = 0 then 0 else 16 * u - first % 16
    let bytes (u : Nat) : Nat := min (16 * (u + 1) - first % 16) size - at_ u
    let count : Nat := size / 16 + if first % 16 = 0 then 0 else 1
    let units (act : Nat → Nat → AccessAct) : List Access := (List.range count).map fun u =>
      if sp.toNat < 16 then q.globalAccess g cap id (4 * q.lead) (off + at_ u) (bytes u) (act (at_ u) (bytes u))
      else q.access g id (4 * q.lead) (s.levelKey g 1 0 (off + at_ u)) (bytes u) (act (at_ u) (bytes u))
    (GangRuns (.kld k pr sp a) s q → opens permR → exec (.kld k pr sp a) s = .next
      ((s.nextFree.nextUid.withAccesses (units fun b n => .load (.skein k.toNat b n))).putSeat
        { q with g := { q.g with hold := .data id } })) ∧
    (GangRuns (.kst k pr sp a) s q → opens writes →
      let stores (u : State) : Out := .next ((u.nextFree.nextUid.withAccesses
        (units fun b n => .store (q.w.skein (pr == 1) k.toNat / 2 ^ (8 * b) % 2 ^ (8 * n)) none
          (decide (sp.toNat < 16) && cap.versioned))).putSeat (q.advance (.kst k pr sp a) none))
      let new := (s.nextFree.linesAt q.w.core g cap.owner
        ((List.range count).map fun u => ((cap.base + (off + at_ u)) % 2 ^ 56, bytes u))).filter fun l => !g.lines.contains l
      (¬ (sp.toNat < 16 ∧ cap.versioned = true ∧ g.holds) → exec (.kst k pr sp a) s = stores (s.noteWrite q.w.wg 1)) ∧
      (sp.toNat < 16 → cap.versioned = true → g.holds → g.lines.length + new.length ≤ 4096 →
        exec (.kst k pr sp a) s = stores (s.putWg { g with lines := g.lines ++ new })) ∧
      (sp.toNat < 16 → cap.versioned = true → g.holds → 4096 < g.lines.length + new.length →
        exec (.kst k pr sp a) s = .next (s.nextFree.putWg { g with outgrown := true }))) ∧
    (∀ i need, (i = .kld k pr sp a ∧ need = permR) ∨ (i = .kst k pr sp a ∧ need = writes) → GangRuns i s q →
      (∀ tr, sp.toNat < 16 → capFault cap sp.toNat g.part need size [(0xFF, off)] = some tr → exec i s = .next (s.raiseAt q tr)) ∧
      (16 ≤ sp.toNat → ∀ tr, FailsLevel 1 g.groupB size [0xFF] (fun _ => off) tr → exec i s = .next (s.raiseAt q tr)))

/-! ### Tiles -/

/-- R271 to R273 and R288: TDESC writes 0 for a descriptor that passes the checks of a single operand, else the first failing
detail in their order, 8 where its bytes are out of bounds; with no executing lane it writes nothing. -/
def Claims.TileDescriptorsAreChecked : Prop :=
  ∀ (d a : RegCode) (s : State) (q : Seat), GangRuns (.tdesc d a) s q →
    (q.exe.lanes = [] → exec (.tdesc d a) s = .next (s.afterGang q (.tdesc d a) q.w)) ∧
    ∀ L rest, q.exe.lanes = L :: rest →
      let D : TileDesc := BitVec.ofNat 128 (((List.range 4).map fun k => (q.exe.rd (a.toNat + k) L).toNat * 2 ^ (32 * k)).sum)
      let fits := OperandFits s (s.wg q.w.wg) (q.w.cap (descBits D 124 4)) D
      ∀ m r, DescDetail [(D, 256)] m → (if m ≠ 0 then r = m else (fits → r = 0) ∧ (¬ fits → r = 8)) →
        exec (.tdesc d a) s = .next (s.afterGang q (.tdesc d a) (q.w.write d.toNat [(L, BitVec.ofNat 32 r)]))

/-- R269 and R270: a fresh mapping takes, for each name, one tile of the partition's range of the core, and with a paired span one
of the follower's range behind it, each once and none that a name maps or a word holds. -/
def Claims.FreshTilesAreFree : Prop :=
  ∀ (s : State) (part core n : Nat) (paired : Bool) (ts : List (List Nat)), s.takeTiles part core n paired = some ts →
    let within (c T : Nat) : Prop := 32 * c + (s.layout.share part c).accFirst ≤ T ∧
      T < 32 * c + (s.layout.share part c).accFirst + (s.layout.share part c).acc
    ts.length = n ∧ (ts.map (·.head?)).Nodup ∧ (ts.map (·.getLast?)).Nodup ∧
    (∀ l ∈ ts, if paired then ∃ x y, l = [x, y] ∧ within core x ∧ within (core + 1) y else ∃ x, l = [x] ∧ within core x) ∧
    ∀ T ∈ ts.flatten, (∀ g ∈ s.wgs, ∀ e ∈ g.acc, T ∉ e.2) ∧ ∀ o ∈ s.pillows.ops, T ∉ o.touched

/-- R270, R274, R278, R281 to R286 and R289: a tile word that passes its checks joins the queue and its gang goes on; it waits while
four words of its warp have not completed. A fresh name is mapped to free tiles, zeroed and given its form; TZERO with rel only
unmaps. A word that fails a check starts nothing and raises TILE-PAIR, TILE-DESC, the fault of an operand's bounds, TILE-FORM,
MISALIGNED or BOUNDS. TMMA.RESUME restarts the warp's stopped product at the count that kstep holds. TWAIT goes on once at most n
words are left, and later accesses follow what those have written (R200); it enters the guard handler where more than n can complete
no further for a stopped word of the warp. -/
def Claims.TileWordsJoinTheQueue : Prop :=
  ∀ (s : State) (q : Seat) (i : Instr), GangRuns i s q → s.findWg q.w.wg = some (s.wg q.w.wg) →
    let g := s.wg q.w.wg
    let f := s.nextFree
    let room : Prop := (s.warpOps q.w).length < 4
    let traps (tr : Trap) : Prop := exec i s = .next (s.raiseAt q tr)
    let queued (u : State) (kind : TileKind) (tiles : List Nat) : Prop :=
      exec i s = .next ((u.withOp (q.tileOp s kind tiles)).putSeat (q.advance i none))
    let freshly (names : List Nat) (paired form : Bool) (kind : TileKind) : Prop :=
      (room → ∀ ts, s.takeTiles g.part q.w.core names.length paired = some ts →
        queued (f.mapNames g names ts form) kind ts.flatten) ∧
      (¬ room ∨ s.takeTiles g.part q.w.core names.length paired = none → exec i s = .next f)
    let named (u : State) (kind : TileKind) (tiles : List Nat) : Prop :=
      (room → queued u kind tiles) ∧ (¬ room → exec i s = .next f)
    (∀ a b grp fr paired, (i = .tmma a b grp fr ∧ paired = true) ∨ (i = .tmmaS a b grp fr ∧ paired = false) →
      (q.exe.lanes = [] → exec i s = .next (s.afterGang q i q.w)) ∧
      ∀ L rest, q.exe.lanes = L :: rest →
        let A := q.exe.tileDesc a.toNat L
        let B := q.exe.tileDesc b.toNat L
        let ca := q.w.cap (descBits A 124 4)
        let cb := q.w.cap (descBits B 124 4)
        let kind : TileKind := .product paired grp.toNat A B ca cb
        let form : Bool := descBits A 117 5 == 0x15 || descBits A 117 5 == 0x16
        let names := List.range' (8 * grp.toNat) 8
        let details := DescDetail [(A, if paired then 256 else 128), (B, 256)]
        (paired = true → q.w.core % 2 = 1 → traps { cause := 0x49 }) ∧
        (paired = false ∨ q.w.core % 2 = 0 →
          (∀ n, n ≠ 0 → details n → traps { cause := 0x48, detail := n }) ∧
          (details 0 →
            (∀ tr, OperandFails s g ca A tr → traps tr) ∧
            (OperandFits s g ca A → ∀ tr, OperandFails s g cb B tr → traps tr) ∧
            (OperandFits s g ca A → OperandFits s g cb B →
              (fr = 1 → freshly names paired form kind) ∧
              (fr = 0 → (∀ n ∈ names, NameFits s g n (some form) (some paired)) → named f kind (names.flatMap g.tilesOf)) ∧
              (fr = 0 → ∀ n ∈ names, (∀ m ∈ names, m < n → NameFits s g m (some form) (some paired)) →
                ∀ tr, NameFails s g n (some form) (some paired) tr → traps tr))))) ∧
    (∀ d form span fr rel, i = .tzero d form span fr rel →
      (rel = 1 → exec i s = .next ((f.putWg { g with acc := sparseSet [] g.acc d.toNat [] }).putSeat (q.advance i none))) ∧
      (rel = 0 → fr = 1 → span = 1 → q.w.core % 2 = 1 → traps { cause := 0x49 }) ∧
      (rel = 0 → fr = 1 → span = 0 ∨ q.w.core % 2 = 0 → freshly [d.toNat] (span == 1) (form == 1) (.zero (form == 1))) ∧
      (rel = 0 → fr = 0 → NameFits s g d.toNat none (some (span == 1)) →
        named { f with pillows := f.pillows.setForm (g.tilesOf d.toNat) (form == 1) } (.zero (form == 1)) (g.tilesOf d.toNat)) ∧
      (rel = 0 → fr = 0 → ∀ tr, NameFails s g d.toNat none (some (span == 1)) tr → traps tr)) ∧
    (∀ a h fmt sp off st, i = .tlda a h fmt sp off st ∨ i = .tsta a h fmt sp off st →
      let o := (q.exe.rd off.toNat 0).toNat
      let e := (q.exe.rd st.toNat 0).toNat
      let ts := g.tilesOf a.toNat
      let T := ts.getD h.toNat 0
      let last := o + 63 * e + 64 * (if fmt = 1 then 4 else 8)
      (o % 16 ≠ 0 → traps { cause := 0x11, addr := o }) ∧
      (o % 16 = 0 → e % 16 ≠ 0 → traps { cause := 0x11, addr := e }) ∧
      (o % 16 = 0 → e % 16 = 0 → s.levelLimit g sp.toNat < last → traps { cause := 0x10, addr := o, arg0 := 0x100 + sp.toNat }) ∧
      (o % 16 = 0 → e % 16 = 0 → last ≤ s.levelLimit g sp.toNat →
        (ts = [] → traps { cause := 0x4A, detail := 1 }) ∧
        (ts ≠ [] → h = 1 → ts.length < 2 → traps { cause := 0x4A, detail := 3 }) ∧
        (h.toNat < ts.length →
          (i = .tlda a h fmt sp off st →
            named { f with pillows := f.pillows.setForm [T] (fmt == 1) } (.load (fmt == 1) (sp == 2) o e) [T]) ∧
          (i = .tsta a h fmt sp off st → named (f.noteWrite g.uid 1) (.store (fmt == 1) (sp == 2) (s.formOf T) o e) [T])))) ∧
    (∀ d a sm fr off, i = .scacc d a sm fr off →
      let o := (q.exe.rd off.toNat 0).toNat
      let src := g.tilesOf a.toNat
      let paired : Bool := src.length == 2
      let count : Nat := if sm = 0 then 1 else if sm = 2 then 64 else (if paired then 2 else 1) * (if sm = 1 then 64 else 4096)
      let share := 1024 * (s.layout.share g.part q.w.core).sc
      let fits : Prop := NameFits s g a.toNat (some false) none ∧ (fr = 0 → NameFits s g d.toNat (some true) (some paired))
      (∀ tr, NameFails s g a.toNat (some false) none tr → traps tr) ∧
      (NameFits s g a.toNat (some false) none → fr = 0 → ∀ tr, NameFails s g d.toNat (some true) (some paired) tr → traps tr) ∧
      (fits → o % 4 ≠ 0 → traps { cause := 0x11, addr := o }) ∧
      (fits → o % 4 = 0 → share < o + 4 * count → traps { cause := 0x10, addr := o, arg0 := 0x104 }) ∧
      (fits → o % 4 = 0 → o + 4 * count ≤ share →
        (fr = 1 → freshly [d.toNat] paired true (.scale sm.toNat o true src)) ∧
        (fr = 0 → named f (.scale sm.toNat o false src) (g.tilesOf d.toNat)))) ∧
    (∀ a b, i = .tmmaResume a b → (q.exe.lanes = [] → exec i s = .next (s.afterGang q i q.w)) ∧
      ∀ L rest, q.exe.lanes = L :: rest →
      let A' := q.exe.tileDesc a.toNat L
      let B' := q.exe.tileDesc b.toNat L
      let count := q.w.kstep.toNat % 2 ^ 20
      let fixed (x y : TileDesc) : Prop := ∀ k, k < 128 → k < 108 ∨ 117 ≤ k → x.getLsbD k = y.getLsbD k
      ((∀ o ∈ s.warpOps q.w, o.stop = none) → traps { cause := 0x4B, detail := 1 }) ∧
      (∀ o p grp A B ca cb, (s.warpOps q.w).find? (fun o => o.stop.isSome) = some o → o.kind = .product p grp A B ca cb →
        let interval := max (descBits A 108 4) (descBits B 108 4) + 1
        (count % interval = 0 ∧ count ≤ descBits A 88 20 →
          (fixed A' A ∧ fixed B' B → exec i s = .next ((f.putOp { o with
            kind := .product p grp A' B' ca cb, running := false, drained := count, stop := none }).putSeat
              (Seat.advance ⟨{ q.w with kstep := BitVec.ofNat 32 count }, q.g⟩ i none))) ∧
          (¬ (fixed A' A ∧ fixed B' B) → traps { cause := 0x4B, detail := 3 })) ∧
        (count % interval ≠ 0 ∨ descBits A 88 20 < count → traps { cause := 0x4B, detail := 2 }))) ∧
    (∀ n, i = .twait n →
      let ops := s.warpOps q.w
      let held := s.opsBehind fun o => ops.any fun e => e.id == o.id
      let stuck := ops.filter fun o => held.contains o.id
      (ops.length ≤ n.toNat → exec i s = .next (s.afterGang q i (q.w.mapViews q.g.slices fun v =>
        { v.follow 2 q.w.tiled with paths := raiseFloor v.paths 2 q.w.tiled }))) ∧
      (n.toNat < ops.length → stuck.length ≤ n.toNat → exec i s = .next f) ∧
      (n.toNat < stuck.length →
        ((s.ctxOf q.w.wg).guardentry = 0 → exec i s = .next (f.raiseAt q { cause := 0x25 })) ∧
        (HandlerOpen f q (s.ctxOf q.w.wg).guardentry →
          ∃ t, exec i s = .next t ∧ InHandler f t q (s.ctxOf q.w.wg).guardentry (wordOf i) 0 0x25)))

/-- R269 to R286, R288 and R289: how tile words are checked and queued.
Where the spec leaves it open this rests on the model's choices, log entries 29, 72, 73, 75. -/
def Obligations.TileWordsAreCheckedAndQueued : Prop :=
  Claims.TileDescriptorsAreChecked ∧ Claims.FreshTilesAreFree ∧ Claims.TileWordsJoinTheQueue

/-- R287: AXR reads and AXW writes one element per executing lane, in the half, row and column that its index register names,
once every tile word on the name's tiles but stopped ones and those behind them has completed.
Where the spec leaves it open this rests on the model's choices, log entry 84. -/
def Obligations.ElementsAreReadAndWritten : Prop :=
  ∀ (s : State) (q : Seat) (x b : RegCode) (n : BitVec 4) (part : BitVec 1) (i : Instr), i = .axr x n b part ∨ i = .axw x n b part →
    GangRuns i s q → sparseWf 0 s.pillows.elems = true →
    let ts := (s.wg q.w.wg).tilesOf n.toNat
    let p := s.primed q i
    let key (L : Nat) : Nat :=
      let v := (q.exe.rd b.toNat L).toNat
      4096 * ts.getD (v / 4096 % 2) 0 + 64 * (v / 64 % 64) + v % 64
    let ready : Prop := ∀ o ∈ s.pillows.ops, o.touched.any ts.contains = true → o.id ∈ s.stuckOps
    (q.exe.lanes = [] → exec i s = .next (s.afterGang q i p.w)) ∧
    (∀ L rest, q.exe.lanes = L :: rest → ts = [] → exec i s = .next (s.raiseAt q { cause := 0x4A, detail := 1, lane := L })) ∧
    (∀ L, q.exe.lanes.find? (fun L => decide ((q.exe.rd b.toNat L).toNat / 4096 % 2 = 1)) = some L → ts.length = 1 →
      exec i s = .next (s.raiseAt q { cause := 0x4A, detail := 3, lane := L })) ∧
    (q.exe.lanes ≠ [] → ts ≠ [] → (∀ L ∈ q.exe.lanes, (q.exe.rd b.toNat L).toNat / 4096 % 2 < ts.length) →
      (¬ ready → exec i s = .next s.nextFree) ∧
      (ready → i = .axr x n b part → exec i s = .next (s.afterGang q i (p.w.write x.toNat (p.exe.lanes.map fun L =>
        (L, BitVec.ofNat 32 ((sparseGet 0 s.pillows.elems (key L)).toNat / (if part = 0 then 1 else 2 ^ 32))))))) ∧
      (ready → i = .axw x n b part → ∃ e, exec i s = .next (State.afterGang { s with pillows := { s.pillows with elems := e } } q i q.w) ∧
        ∀ k, sparseGet 0 e k = match (q.exe.lanes.filter fun L => key L == k).getLast? with
          | none => sparseGet 0 s.pillows.elems k
          | some L =>
            let old := (sparseGet 0 s.pillows.elems k).toNat
            let v := (q.exe.rd x.toNat L).toNat
            BitVec.ofNat 48 (if part = 0 then old / 2 ^ 32 * 2 ^ 32 + v else old % 2 ^ 32 + v % 2 ^ 16 * 2 ^ 32)))

/-- R22, R251, R277 and R285: an operation starts once no earlier one shares a tile with it or keeps its core as a pair's
follower, a product once its bobbins are free. With that the units of a TSTA leave for the scratchpad, each element at its place and
of its size: bits 31:0, or bits 47:0 sign-extended from an integer tile, zero-extended from an AF32 one. -/
def Claims.TileOperationsStart : Prop :=
  ∀ (s : State) (o : TileOp), TileReady s o → o.running = false →
    ((∃ e ∈ s.opsBefore o, e.blocks o = true) → exec (.tileOpStart o.id) s = .next s) ∧
    ((∀ e ∈ s.opsBefore o, e.blocks o = false) →
      (∀ p grp A B ca cb, o.kind = .product p grp A B ca cb →
        (s.bobbinsBusy o.cores = false → exec (.tileOpStart o.id) s = .next (s.putOp { o with running := true })) ∧
        (s.bobbinsBusy o.cores = true → exec (.tileOpStart o.id) s = .next s)) ∧
      ((∃ z, o.kind = .zero z) ∨ (∃ x y off st, o.kind = .load x y off st) ∨ (∃ sm off fr src, o.kind = .scale sm off fr src) →
        exec (.tileOpStart o.id) s = .next (s.putOp { o with running := true })) ∧
      (∀ w32 window af32 off st T, o.kind = .store w32 window af32 off st → o.tiles = [T] →
        let size : Nat := if w32 then 4 else 8
        let value (r c : Nat) : Nat :=
          let e := s.pillows.elem T r c
          if w32 then e.toNat % 2 ^ 32 else if af32 then e.toNat else (e.signExtend 64).toNat
        let unit (r u : Nat) : Access :=
          { id := 0, who := .gang o.core o.slot 0, word := o.id, pc := o.pc, lane := 0xFF, wg := o.wg, part := o.part, ctx := o.ctx
            owner := o.part, global := false, size := 16, note := some (0, o.id), outer := o.outer
            addr := s.levelKey (s.wg o.wg) (if window then 2 else 1) 0 (off + r * st + 16 * u)
            act := .store ((List.range (16 / size)).map fun j =>
              value r (16 / size * u + j) * 2 ^ (8 * size * j)).sum none false }
        exec (.tileOpStart o.id) s = .next ((s.putOp { o with running := true }).withAccesses
          ((List.range 64).flatMap fun r => (List.range (4 * size)).map (unit r)))))

/-- R275, R276, R280 and R281: a drain of an integer product adds the exact dot products of its k-rows to every element at once,
or stops at the first element out of range, in the order of names, halves, rows and columns, with every tile as it was: the slot
check before the accumulator's. A guard overflow then waits for its handler where one is named and the warp lives, with the count in
kstep; every other stop ends the task with the pc of its word, the count and the element. A drain of a tapered product rounds each
element once with the products of the aligned values of its k-step; a NaR makes it the NaN pattern. -/
def Claims.ProductsDrain : Prop :=
  ∀ (s : State) (o : TileOp) (p : Bool) (grp : Nat) (A B : TileDesc) (ca cb : Cap), TileReady s o → o.running = true →
    o.kind = .product p grp A B ca cb → o.tiles.Nodup →
    let kind (d : TileDesc) : Nat := descBits d 117 5
    let row (j : Nat) : Nat := if p then 128 * (j % 2) + 64 * (j / 2 / 4) else 64 * (j / 4)
    let col (j : Nat) : Nat := if p then 64 * (j / 2 % 4) else 64 * (j % 4)
    let elem (u : State) (j r c : Nat) : BitVec 48 := u.pillows.elem (o.tiles.getD j 0) r c
    let drains (t u : State) (n : Nat) : Prop := exec (.tileDrain o.id) s = .next u ∧ u = { t with pillows := u.pillows } ∧
      u.pillows.ops = s.pillows.ops.map (fun e => if e.id = o.id then { o with drained := n } else e)
    (o.drained < descBits A 88 20 → (∃ l ∈ typePairs, l ≠ [0x15, 0x16] ∧ kind A ∈ l ∧ kind B ∈ l) →
      let n := min (o.drained + max (descBits A 108 4) (descBits B 108 4) + 1) (descBits A 88 20)
      ∀ ra rb t, s.nextFree.drainRows o A B ca cb o.drained n = .rows ra rb t →
      let value (d : TileDesc) (bs : List (BitVec 8)) (j : Nat) : Int :=
        if j < descBits d 44 9 then (intElem (kind d) bs j).getD 0 else 0
      let sum (r c : Nat) : Int := ((ra.zip rb).map fun e => value A e.1 r * value B e.2 c).sum
      let bits : Nat := if kind A ∈ [2, 3] then 16 else if kind A ∈ [4, 5] then 8 else if kind A ∈ [6, 7] then 4 else 2
      let w := 2 * bits + max (descBits A 112 5) (descBits B 112 5)
      let sg : Bool := kind A % 2 == 0 || kind B % 2 == 0
      let inside (j r c : Nat) : Prop := inSlot w sg (sum (row j + r) (col j + c)) = true
      let fine (j r c : Nat) : Prop := inside j r c ∧ -2 ^ 47 ≤ (elem s j r c).toInt + sum (row j + r) (col j + c) ∧
        (elem s j r c).toInt + sum (row j + r) (col j + c) < 2 ^ 47
      ((∀ j r c, j < o.tiles.length → r < 64 → c < 64 → fine j r c) → ∃ u, drains t u n ∧
        ∀ j r c, j < o.tiles.length → r < 64 → c < 64 →
          (elem u j r c).toInt = (elem s j r c).toInt + sum (row j + r) (col j + c)) ∧
      (∀ j r c, j < o.tiles.length → r < 64 → c < 64 → ¬ fine j r c →
        (∀ j' r' c', j' < o.tiles.length → r' < 64 → c' < 64 → j' < j ∨ (j' = j ∧ (r' < r ∨ (r' = r ∧ c' < c))) → fine j' r' c') →
        let name := 8 * grp + (if p then j / 2 else j)
        let st : TileStop := { cause := 0x25, elem := name + (if p then 16 * (j % 2) else 0) + 2 ^ 8 * r + 2 ^ 16 * c }
        let lives : Prop := ∃ w, s.findWarp o.core o.slot = some w ∧ w.wg = o.wg ∧ w.slices.any (·.live) = true
        let waits : Prop := ¬ inside j r c ∧ (s.ctxOf o.wg).guardentry ≠ 0 ∧ lives
        let stop : TileStop := { st with cause := if inSlot w sg (sum (row j + r) (col j + c)) then 0x26 else 0x25 }
        ∃ u, exec (.tileDrain o.id) s = .next u ∧ u.findOp o.id = some { o with running := false, stop := some stop } ∧
          u.pillows.elems = s.pillows.elems ∧
          (lives → (u.findWarp o.core o.slot).map (·.kstep) = some (BitVec.ofNat 32 (2 ^ 31 + o.drained % 2 ^ 20))) ∧
          (waits → u.wgs = s.wgs) ∧
          (¬ waits → Untrapped s o.wg → (s.wg o.wg).ended = false → ∃ rep, (u.wg o.wg).fault = some rep ∧ rep.cause = stop.cause ∧ rep.pc = o.pc ∧
            rep.arg0 = o.drained ∧ (o.outer = none → rep.arg1 = stop.elem)))) ∧
    (o.drained < descBits A 88 20 → kind A ∈ [0x15, 0x16] → kind B ∈ [0x15, 0x16] →
      ∀ ra rb t, s.nextFree.drainRows o A B ca cb o.drained (o.drained + 1) = .rows ra rb t →
      let value (d : TileDesc) (rows : List (List (BitVec 8))) (j k : Nat) : Option (Bool × Int × Nat) :=
        if j < descBits d 44 9 then tapElem (kind d) (rows.getD k []) j else some (false, 0, 0)
      ∃ u, drains t u (o.drained + 1) ∧ ∀ j r c, j < o.tiles.length → r < 64 → c < 64 →
        ((∃ k < 8, value A ra (row j + r) k = none ∨ value B rb (col j + c) k = none) → elem u j r c = 0x7FC00000) ∧
        ∀ x y ea eb, Aligns (value A ra (row j + r)) x ea → Aligns (value B rb (col j + c)) y eb →
          let t := ((List.range 8).map fun k => x k * y k).sum
          elem u j r c = BitVec.ofNat 48 (FloatFmt.f32.ofVal ⟨0, false, false⟩
            ((FloatFmt.f32.decode ((elem s j r c).toNat % 2 ^ 32)).add 0 (.fin (t < 0) t.natAbs (ea + eb - 12))))) ∧
    (descBits A 88 20 ≤ o.drained → exec (.tileOpComplete o.id) s = .next (s.dropOp o)) ∧
    (o.drained < descBits A 88 20 → exec (.tileOpComplete o.id) s = .next s)

/-- R273 and R276: a drain reads the k-rows of both operands in their levels, unit by unit of 16 bytes, each as a read of the tile
fetch unit (R279, R194); with no reserved ternary code among them it goes on with their bytes. -/
def Claims.DrainsReadTheirRows : Prop :=
  ∀ (s : State) (o : TileOp) (A B : TileDesc) (ca cb : Cap) (q0 q1 : Nat) (ra rb : List (List (BitVec 8))) (t : State),
    s.drainRows o A B ca cb q0 q1 = .rows ra rb t → q0 ≤ q1 →
    ra.length = 8 * (q1 - q0) ∧ rb.length = 8 * (q1 - q0) ∧
    ∀ d rows, (d = A ∧ rows = ra) ∨ (d = B ∧ rows = rb) → descBits d 122 2 ≠ 0 → descBits d 0 44 % 16 = 0 → ∀ k, k < rows.length →
      let bytes := rowBytes (descBits d 117 5) (descBits d 44 9)
      (rows.getD k []).length = bytes ∧
      ∀ u, 16 * u < bytes → Glances s.mem (tilePlace o.core o.wg) o.part 0 o.floors
        (s.levelKey (s.wg o.wg) (descBits d 122 2) 0 (descBits d 0 44 + (8 * q0 + k) * (16 * descBits d 64 24) + 16 * u))
        (min 16 (bytes - 16 * u)) (((rows.getD k []).drop (16 * u)).take 16)

/-- R277 and R284 to R286: a completed operation leaves the queue; TZERO's tiles hold zero, TLDA's what the scratchpad holds, read
by the tile fetch unit unit by unit, SCACC's the scaled sums; a TSTA completes once its units are written. -/
def Claims.TileOperationsComplete : Prop :=
  ∀ (s : State) (o : TileOp), TileReady s o → o.running = true →
    (∀ z, o.kind = .zero z → ∃ t, exec (.tileOpComplete o.id) s = .next t ∧ TileDone s t o fun _ _ _ => 0) ∧
    (∀ w32 window off st T, o.kind = .load w32 window off st → o.tiles = [T] → off % 16 = 0 → st % 16 = 0 →
      let size : Nat := if w32 then 4 else 8
      ∃ (t : State) (rd : Nat → Nat → List (BitVec 8)), exec (.tileOpComplete o.id) s = .next t ∧
        (∀ r u, r < 64 → u < 4 * size → Glances s.mem (tilePlace o.core o.wg) o.part 0 o.floors
          (s.levelKey (s.wg o.wg) (if window then 2 else 1) 0 (off + r * st + 16 * u)) 16 (rd r u)) ∧
        TileDone s.nextFree t o fun _ r c =>
          BitVec.ofNat 48 (natOf (((rd r (size * c / 16)).drop (size * c % 16)).take size))) ∧
    (∀ w32 window af32 off st, o.kind = .store w32 window af32 off st →
      ((∀ a ∈ s.mem.access, ∀ n, a.note ≠ some (n, o.id)) → exec (.tileOpComplete o.id) s = .next (s.dropOp o)) ∧
      (∀ n, (∃ a ∈ s.mem.access, a.note = some (n, o.id)) → exec (.tileOpComplete o.id) s = .next s)) ∧
    (∀ sm off fr src, o.kind = .scale sm off fr src → off % 4 = 0 → o.tiles.Nodup →
      ∃ (t : State) (rd : Nat → List (BitVec 8)), exec (.tileOpComplete o.id) s = .next t ∧
        (∀ n, Glances s.mem (tilePlace o.core o.wg) o.part 0 o.floors
          (scaleKey o.core (1024 * (s.layout.share o.part o.core).scFirst + off + 4 * n)) 4 (rd n)) ∧
        TileDone s.nextFree t o fun T r c =>
          let h := o.tiles.idxOf T
          let n := if sm = 0 then 0 else if sm = 1 then 64 * h + r else if sm = 2 then c else 4096 * h + 64 * r + c
          let a := (s.pillows.elem (src.getD h 0) r c).toInt
          let old := if fr then 0 else s.pillows.elem T r c
          BitVec.ofNat 48 (FloatFmt.f32.ofVal ⟨0, false, false⟩ ((FloatFmt.f32.decode (old.toNat % 2 ^ 32)).add 0
            ((FVal.fin (a < 0) a.natAbs 0).mul (FloatFmt.f32.decode (natOf (rd n)))))))

/-- R22, R251, R275 to R277, R280, R281 and R284 to R286: how tile operations start, drain and complete.
Where the spec leaves it open this rests on the model's choices, log entries 29, 73, 74, 75. -/
def Obligations.TileOperationsRun : Prop :=
  Claims.TileOperationsStart ∧ Claims.ProductsDrain ∧ Claims.DrainsReadTheirRows ∧ Claims.TileOperationsComplete

/-! ### The Collie and copies -/

/-- R236, R237, R242 and R247: MPOST puts a record at the end of the workgroup's mailbox and waits while it is full; MBX and MBXW
take the oldest record into four scalars, MBX telling by a predicate whether there was one and MBXW waiting for one; the copies that
the thread starts from then on follow what its poster's fences put before copies (R197). CWAIT waits until at most n copies of the
thread are left, whose writes its later accesses and copies then follow, CSTAT reads its counts, ARRIVE is one arrival at a barrier.
Where the spec leaves it open this rests on the model's choices, log entries 29, 38, 80. -/
def Obligations.MailboxWordsMoveRecords : Prop :=
  ∀ s : State,
    (∀ q d, GangRuns (.mpost d) s q → s.findWg q.w.wg = some (s.wg q.w.wg) →
      let g := s.wg q.w.wg
      let L := (q.g.slices.flatMap q.w.active).headD 0
      (g.thread = none → exec (.mpost d) s = .next (s.raiseAt q { cause := 0x42 })) ∧
      (g.thread ≠ none → 16 ≤ g.mailbox.length → exec (.mpost d) s = .next s.nextFree) ∧
      (g.thread ≠ none → g.mailbox.length < 16 → exec (.mpost d) s = .next
        ((s.nextFree.putWg { g with mailbox := g.mailbox ++ [(BitVec.ofNat 128 (q.exe.rdGroup 2 d.toNat L),
          q.g.slices.foldl (fun t j => raiseAll t (q.w.viewOf j).cp) [])] }).putSeat
          (q.advance (.mpost d) none)))) ∧
    (∀ (c : Collie) (i : Instr), CollieRuns i s c → s.findWg c.wg = some (s.wg c.wg) → sparseWf 0 c.x.s = true →
      let g := s.wg c.wg
      let runs : Prop := guardHolds c.x.mode c.x.p 0 = true
      let takes (q : BitVec 3) (r : BitVec 128) (x : Scalar) : Prop :=
        (∀ k, k < 4 → (sparseGet 0 x.s (4 * q.toNat + k)).toNat = r.toNat / 2 ^ (32 * k) % 2 ^ 32) ∧
        (∀ n, n < 4 * q.toNat ∨ 4 * q.toNat + 4 ≤ n → sparseGet 0 x.s n = sparseGet 0 c.x.s n) ∧
        x.pc = c.x.pc ∧ x.mode = c.x.mode ∧ x.pend = c.x.pend ∧ x.run = c.x.run
      let told (floors : Sparse Nat) : Collie := { c with view := { c.view with cp := raiseAll c.view.cp floors } }
      (((∃ q x, i = .mbx q x) ∨ (∃ q, i = .mbxw q) ∨ (∃ n, i = .cwait n) ∨ (∃ b, i = .arrive b)) → ¬ runs →
        exec i s = .next (s.afterCollie c i c.x)) ∧
      (∀ q x, i = .mbx q x → runs →
        (g.mailbox = [] → exec i s = .next (s.afterCollie c i { c.x with p := setPred c.x.p x.toNat [(0, false)] })) ∧
        (∀ r rest, g.mailbox = r :: rest → ∃ y, exec i s = .next ((s.putWg { g with mailbox := rest }).afterCollie (told r.2) i y) ∧
          takes q r.1 y ∧ y.p = setPred c.x.p x.toNat [(0, true)])) ∧
      (∀ q, i = .mbxw q → runs →
        (g.mailbox = [] → exec i s = .next s) ∧
        (∀ r rest, g.mailbox = r :: rest → ∃ y, exec i s = .next ((s.putWg { g with mailbox := rest }).afterCollie (told r.2) i y) ∧
          takes q r.1 y ∧ y.p = c.x.p)) ∧
      (∀ n, i = .cwait n → runs →
        (c.started - c.retired ≤ n.toNat → exec i s = .next (s.afterCollie { c with view :=
          { c.view.follow 6 c.copied with
            cp := raiseFloor c.view.cp 6 c.copied, paths := raiseFloor c.view.paths 1 c.copied } } i c.x)) ∧
        (n.toNat < c.started - c.retired → exec i s = .next s)) ∧
      (∀ d sel, i = .cstat d sel →
        let v : Nat := [c.started - c.retired, g.mailbox.length, c.started, c.retired].getD sel.toNat c.thread
        exec i s = .next (s.afterCollie c i (if guardHolds c.x.mode c.x.p 0 ∧ d.toNat < 32
          then { c.x with s := sparseSet 0 c.x.s d.toNat (BitVec.ofNat 32 v) } else c.x))) ∧
      (∀ b, i = .arrive b → runs →
        (g.bars.length ≤ b.toNat → exec i s = .next (s.raiseCollie c { cause := 0xC, arg0 := b.toNat })) ∧
        (b.toNat < g.bars.length → ∃ u d, Arrives s u c.wg b.toNat 0 ∧ u.findCollie c.core c.thread = some d ∧ d.x = c.x ∧
          exec i s = .next (u.afterCollie d i c.x))))

/-- R238 to R240: a copy word whose descriptor passes its checks starts a copy of the next number, waiting while 32 of the thread
have not retired. The descriptor's fields stand where R238 puts them, read from the block's eight scalars. -/
def Claims.CopyWordsStartCopies : Prop :=
  ∀ (s : State) (c : Collie) (q : BitVec 2) (form : Nat) (i : Instr), [Instr.cpy q, .cpySc q, .cpyX q, .cpyR q][form]? = some i →
    CollieRuns i s c →
    let g := s.wg c.wg
    let D : Nat := ((List.range 8).map fun k => (Exe.rd (.scal c.x) (8 * q.toNat + k) 0).toNat * 2 ^ (32 * k)).sum
    let f (lo n : Nat) : Nat := D / 2 ^ lo % 2 ^ n
    let srcOff := f 0 44
    let srcSp := f 48 4
    let dstOff := f 64 44
    let dstSp := f 112 4
    let die := f 116 2
    let len := f 128 32
    let src : Cap := sparseGet {} c.c (f 44 4)
    let dst : Cap := sparseGet {} c.c (f 108 4)
    let flg : Cap := sparseGet {} c.c (f 168 4)
    let tag : Cap := sparseGet {} c.c (f 172 4)
    let arrives := f 160 1 = 1
    let packed := f 165 1 = 1
    let tagged := f 166 1 = 1
    let flags := f 167 1 = 1
    let need := if packed then 8 else len
    let opens (k : Cap) (perm off n align : Nat) : Prop := k.valid = true ∧ k.sealed = false ∧ k.perms &&& perm = perm ∧
      off + n ≤ k.length ∧ off % align = 0 ∧ (k.owner = g.part ∨ k.owner = hostShared)
    let range (k : Cap) (sp off n : Nat) : Nat × Nat × Nat :=
      if sp = 0 then (0, k.base + off, n) else if sp = 3 then (1 + dieOf g.core, off, n)
      else if sp = 5 then (1 + die, off, n) else (10 + sp, off, n)
    let ranges : List (Nat × Nat × Nat) := [range src srcSp srcOff need, range dst dstSp dstOff len] ++
      (if flags then [(0, flg.base, 4)] else []) ++ (if tagged then [(0, tag.base + f 224 32, 8 * (len / 4096))] else [])
    let sound : Prop := f 52 12 = 0 ∧ f 118 10 = 0 ∧ f 176 16 = 0 ∧ 16 ≤ len ∧ len ≤ 2 ^ 26 ∧ len % 16 = 0 ∧
      (packed ∨ tagged → len % 4096 = 0) ∧ dstOff % 16 = 0 ∧ srcOff % (if packed then 8 else 16) = 0 ∧ srcSp ≤ 3 ∧
      (match form with | 0 => dstSp ≤ 3 | 1 => dstSp = 4 | 2 => dstSp = 5 | _ => dstSp = 0) ∧
      (arrives → f 161 4 < g.bars.length) ∧
      (if srcSp = 0 then opens src permR srcOff need 1 else srcOff + need ≤ s.spaceLimit g die srcSp) ∧
      (if dstSp = 0 then opens dst permW dstOff len 1 ∧ dst.versioned = false else dstOff + len ≤ s.spaceLimit g die dstSp) ∧
      (flags → opens flg permW 0 4 4) ∧ (tagged → opens tag permR (f 224 32) (8 * (len / 4096)) 8) ∧
      ranges.Pairwise fun a b => a.1 = b.1 → a.2.1 + a.2.2 ≤ b.2.1 ∨ b.2.1 + b.2.2 ≤ a.2.1
    (guardHolds c.x.mode c.x.p 0 = false → exec i s = .next (s.afterCollie c i c.x)) ∧
    (guardHolds c.x.mode c.x.p 0 = true → sound →
      (c.started - c.retired < 32 →
        let k : Copy :=
          { id := s.sched.uid, core := c.core, thread := c.thread, wg := c.wg, ctx := g.ctx, seq := c.started % 2 ^ 32, form := form
            desc := BitVec.ofNat 256 D, src := src, dst := dst, flag := flg, tag := tag, pc := c.x.pc, streamPos := srcOff
            outer := c.frame.map (·.epc), floors := c.view.cp }
        exec i s = .next { s.nextUid.afterCollie { c with started := c.started + 1 } i c.x with copies := s.copies ++ [k] }) ∧
      (32 ≤ c.started - c.retired → exec i s = .next s)) ∧
    (guardHolds c.x.mode c.x.p 0 = true → (len < 16 ∨ 2 ^ 26 < len ∨ len % 16 ≠ 0) → f 52 12 = 0 → f 118 10 = 0 → f 176 16 = 0 →
      exec i s = .next (s.raiseCollie c { cause := 0x40, detail := 2, lane := 0xFF
                                          addr := if srcSp = 0 then (src.base + srcOff) % 2 ^ 56 else srcOff
                                          arg0 := c.started % 2 ^ 32 }))

/-- R240 and R241: when the round robin of its core comes to a copy, one of its units of 16 bytes is read, and its write leaves, any
unit next that no earlier copy of the thread has still to write. Once every write is performed the copy completes: its flag is
counted at its home and it arrives at its barrier, in that order only where the flag is homed on another device (R376). -/
def Claims.CopiesMoveTheirUnits : Prop :=
  ∀ (s : State) (k : Copy), s.copies.find? (fun d => d.id == k.id) = some k → k.faulted = false → k.done = false →
    k.parked = none →
    let g := s.wg k.wg
    let src (u : Nat) : Nat := CopyField.srcOff k.desc + 16 * u
    let dst (u : Nat) : Nat := CopyField.dstOff k.desc + 16 * u
    let free (u : Nat) : Prop := u < CopyField.units k.desc ∧ u ∉ k.moved ∧ s.unitBlocked k u = false
    let reaches (t t' : State) (c : Cap) (off need key : Nat) : Prop :=
      t.translate k.core g.part k.ctx c.owner ((c.base + off) % 2 ^ 56) need = .ok (key, t')
    let issue (owner key size : Nat) (act : AccessAct) (at_ : Nat) : Access :=
      { id := 0, who := .collie k.core k.thread, word := k.id, pc := k.pc, lane := 0xFF, wg := k.wg, part := g.part, ctx := k.ctx
        owner := owner, global := false, addr := key, size := size, act := act, note := some (at_, k.id), outer := k.outer }
    ((s.ctx g.part k.ctx).gated = false → CopyField.staging k.desc = false → (∃ u, free u) →
      CopyField.srcOff k.desc % 16 = 0 → (CopyField.srcSp k.desc = 0 → k.src.base % 16 = 0) →
      (s.copyFirst k = false → exec (.copyUnitMove k.id) s = .next s) ∧
      (s.copyFirst k = true →
        let v : State := { s with sched := { s.sched with
          free := s.sched.free + 1, issued := sparseSet (0, 0) s.sched.issued (2000 + k.core) (s.sched.now, k.id + 1) } }
        ∃ u, free u ∧ ∀ t r o,
          (if CopyField.srcSp k.desc = 0 then reaches v t k.src (src u) needR r ∧ isRemote r = false ∧ o = k.src.owner
            else t = v ∧ r = s.spaceKey g 0 (CopyField.srcSp k.desc) (src u) ∧ o = g.part) →
          ∀ t' w o',
          (if CopyField.dstSp k.desc = 0 then reaches t t' k.dst (dst u) needW w ∧ o' = k.dst.owner ∧
              (if k.form = 3 then isRemote w = true ∧ (k.home = some (deviceOf w) ∨ (k.home = none ∧ CopyField.flag k.desc = false))
                else isRemote w = false)
            else t' = t ∧ w = s.spaceKey g (CopyField.die k.desc) (CopyField.dstSp k.desc) (dst u) ∧ o' = g.part) →
          ∃ bs, Glances t.mem (copyPlace k.core k.wg) o 0 k.floors r 16 bs ∧
            exec (.copyUnitMove k.id) s = .next ((({ t' with copies := s.copies.map fun d => if d.id = k.id
              then { k with moved := k.moved ++ [u], home := some (if k.form = 3 ∧ CopyField.dstSp k.desc = 0
                then deviceOf w else s.domain.domid) } else d } : State).noteWrite k.wg 1).withAccesses
                [issue o' w 16 (.store (natOf bs) none false) (sourceAddr k.src k.desc (src u))]))) ∧
    ((∀ u, u < CopyField.units k.desc → u ∈ k.moved) →
      let quiet : Prop := ∀ a ∈ s.mem.access, ∀ n, a.note ≠ some (n, k.id)
      let arrives (w : State) (k' : Copy) : Prop :=
        let t : State := { w with copies := w.copies.map fun d => if d.id = k'.id then { k' with done := true, staged := none } else d }
        ∃ u, exec (.copyComplete k.id) s = .next (u.retireCopies k.core k.thread) ∧
          (CopyField.arr k.desc = false ∨ g.fault ≠ none ∨ g.ended = true → u = t) ∧
          (CopyField.arr k.desc = true → g.fault = none → g.ended = false → s.findWg k.wg = some g →
            Arrives t u k.wg (CopyField.bar k.desc) k.high)
      (k.flagged = false → ¬ quiet → exec (.copyComplete k.id) s = .next s) ∧
      (k.flagged = false → quiet → CopyField.flag k.desc = false → arrives s k) ∧
      (k.flagged = false → quiet → CopyField.flag k.desc = true → ∀ pa t,
        s.translate k.core g.part k.ctx k.flag.owner (k.flag.base % 2 ^ 56) needRW = .ok (pa, t) →
        let k' : Copy := { k with flagged := true }
        let sent : State := ({ t.nextFree with copies := s.copies.map fun d => if d.id = k.id then k' else d } : State).withAccesses
          [issue k.flag.owner pa 4 (.atom 0 1 0 none) (sourceAddr k.src k.desc (CopyField.srcOff k.desc))]
        exec (.copyComplete k.id) s = .next sent ∨ (isRemote pa = false ∧ arrives sent k')) ∧
      (k.flagged = true →
        ((∃ a ∈ s.mem.access, (∃ n, a.note = some (n, k.id)) ∧ isRemote a.addr = true) → exec (.copyComplete k.id) s = .next s) ∧
        ((∀ a ∈ s.mem.access, (∃ n, a.note = some (n, k.id)) → isRemote a.addr = false) → arrives s k))) ∧
    (¬ (∀ u, u < CopyField.units k.desc → u ∈ k.moved) → exec (.copyComplete k.id) s = .next s)

/-- R238 to R241: copies.
Where the spec leaves it open this rests on the model's choices, log entries 27, 29, 76, 77, 78, 80, 127, 130, 136. -/
def Obligations.CopiesStartAndMove : Prop :=
  Claims.CopyWordsStartCopies ∧ Claims.CopiesMoveTheirUnits

/-! ### Launches, tasks and estates -/

/-- R68, R76, R294, R295 and R321: a packet is rejected with the detail of the first row that applies; details 9 and 11 are its
reader's. The arguments of one that is not are gathered in order, up to the first that cannot be had. -/
def Claims.PacketsAreChecked : Prop :=
  ∀ (s : State) (part ctx : Nat) (host : Bool) (p : BitVec 512) (pass : Sparse Cap),
    let P := bits512 p
    let kernel := s.kernel part ctx (P 0 32)
    let rejected (n : Nat) : Prop := s.checkPacket part ctx host p = .error n
    let form : Prop := P 63 1 = 0 ∧ P 344 8 = 0 ∧ P 408 8 = 0 ∧ P 472 40 = 0 ∧ P 32 8 = 1
    (¬ form → rejected 1) ∧
    (form → (kernel = none ∨ (∃ x d, kernel = some (x, d) ∧ ¬ KernelSound d)) → rejected 2) ∧
    (form → ∀ x d, kernel = some (x, d) → KernelSound d →
      let D := bits512 d
      let inh := P 352 56
      (if P 64 24 = 0 ∨ P 96 16 = 0 ∨ P 112 16 = 0 then rejected 3
      else if 1024 < (P 40 4 + 1) * (16 * 2 ^ D 62 2) then rejected 4
      else if P 46 2 ≠ D 20 2 then rejected 5
      else if P 48 2 = 3 ∨ (P 48 2 = 2 ∧ inh = 0) ∨ (inh ≠ 0 ∧ D 412 4 = 0) then rejected 6
      else if host = true ∧ P 62 1 = 1 then rejected 8
      else
        (inh ≠ 0 → (∀ v, s.rootNat part ctx inh 64 = some v → ¬ InheritanceSound (BitVec.ofNat 512 v) d) → rejected 10) ∧
        ∀ e : BitVec 512, (inh = 0 ∧ e = 0) ∨
            (inh ≠ 0 ∧ ∃ v, s.rootNat part ctx inh 64 = some v ∧ e = BitVec.ofNat 512 v ∧ InheritanceSound e d) →
          ((∀ c < Config.cores, ¬ CoreHolds (s.layout.share part c) p d) → rejected 7) ∧
          ((∃ c < Config.cores, CoreHolds (s.layout.share part c) p d) → s.checkPacket part ctx host p = .ok (x, d, e)))) ∧
    ((∀ k < P 92 4, ∃ c, Argument s part ctx p pass k c) → ∃ cs, s.gather part ctx p pass = .ok cs ∧ cs.length = P 92 4 ∧
      ∀ k < P 92 4, Argument s part ctx p pass k (cs.getD k {})) ∧
    (∀ k < P 92 4, (∀ j < k, ∃ c, Argument s part ctx p pass j c) → (¬ ∃ c, Argument s part ctx p pass k c) →
      s.gather part ctx p pass = .error k)

/-- In v the distributor or a queue engine has kept an item in a ring of a context, which was u before: where the ring's memory does
not translate for it, the failure is recorded under the number id and the item waits for the driver's answer (R300, R307, R344). -/
def Kept (u v : State) (id : Option Nat) (part ctx : Nat) : Prop :=
  (id = none ∧ v = u) ∨ ∃ va rl, id = some u.sched.uid ∧ v = u.noteFault 0xFFFF part ctx va 0 2 rl

/-- R296, R300 and R302 to R304: once its gang's earlier writes are performed, LAUNCH submits the packet it reads as a child under a
fresh lineage, which it writes to d: to its die's queue, or to the context's ring behind it where that holds entries or the queue is
full. It parks where both are full, while LAUNCH.NB then answers 0x80000000. JOIN answers the status of the children it names, 2 for
one that is none, and parks until they have retired. Each ends its run at the next word. -/
def Claims.LaunchesAndJoins : Prop :=
  ∀ (d : RegCode) (sp : BitVec 5) (a : RegCode) (s : State) (q : Seat) (i : Instr), GangRuns i s q → inCode q.pc 1 →
    s.findWg q.w.wg = some (s.wg q.w.wg) →
    let g := s.wg q.w.wg
    let next (_ : Nat) (x : Slice) : Slice := { x with pc := codeAt q.pc 1 }
    let answers (u : State) (p : Park) (f : Warp → Warp) : Prop := ∃ t v v', exec i s = .next t ∧ Parted u t q next p v ∧
      q.w.sameRegisters v' ∧ v.regs = (f v').regs ∧ v.temps = (f v').temps ∧ v.s = (f v').s ∧ v.p = q.w.p
    let writes (x : Nat) (w : Warp) : Warp := w.write d.toNat [(0, BitVec.ofNat 32 x)]
    let quiet : Prop := ∀ x ∈ s.mem.access, ¬ (q.issued q.g.slices x ∧ x.writes = true)
    (i = .launch d sp a ∨ i = .launchNb d sp a →
      (q.exe.lanes = [] → answers s .none id) ∧
      (q.exe.lanes ≠ [] → g.depth = 9 → exec i s = .next (s.raiseAt q { cause := 0x51, arg0 := 9 })) ∧
      (q.exe.lanes ≠ [] → g.depth ≠ 9 → ¬ quiet → exec i s = .next s.nextFree) ∧
      (q.exe.lanes ≠ [] → g.depth ≠ 9 → quiet →
        ∀ p u, (∀ go, q.withPacket s.nextFree sp.toNat (q.exe.rd a.toNat 0).toNat go = go p u) →
        u.findWg q.w.wg = some g → u.warps = s.warps →
        (∀ n, u.checkPacket g.part g.ctx false p = .error n → exec i s = .next (s.raiseAt q { cause := 0x50, detail := n })) ∧
        (∀ x, u.checkPacket g.part g.ctx false p = .ok x →
          (∀ k, u.gather g.part g.ctx p q.w.c = .error k → exec i s = .next (s.raiseAt q { cause := 0x52, arg0 := k })) ∧
          (∀ caps, u.gather g.part g.ctx p q.w.c = .ok caps → (u.ctx g.part g.ctx).nextLineage < 2 ^ 24 →
            (u.lineagesTaken g.part g.ctx).length + 1 < 2 ^ 24 →
            ∃ ln n, ln ≠ 0 ∧ ln < 2 ^ 24 ∧ ln ∉ u.lineagesTaken g.part g.ctx ∧
              let die := dieOf q.w.core
              let w := (u.putCtx { u.ctx g.part g.ctx with nextLineage := n }).refillQueue die g.part 64
              let y : Submission :=
                { part := g.part, ctx := g.ctx, packet := p, caps := caps, lineage := ln, depth := g.depth + 1, parent := some g.uid
                  seq := w.sched.uid }
              let key := dieQueue die g.part
              let queue := sparseGet [] w.dist.queues key
              let ring := ringItems w.dist.rings die g.part g.ctx
              let c := w.ctx g.part g.ctx
              let room : Prop := c.loaded = true ∧ ring.length < 2 ^ c.lk.getD die 6
              let submitted (v : State) (dist : Dist) : Prop :=
                answers (({ v with dist := dist } : State).putWg { g with children := g.children ++ [ln] }) .none (writes ln)
              let kept : State := (if ring = [] then w.obscure g.part g.ctx (c.lring.getD die 0) (64 * 2 ^ c.lk.getD die 6) else w).nextUid
              (ring = [] → queue.length < 64 →
                submitted w.nextUid { w.dist with queues := sparseSet [] w.dist.queues key (queue ++ [y]) }) ∧
              (ring ≠ [] ∨ 64 ≤ queue.length →
                (room → ∃ v id, Kept kept v id g.part g.ctx ∧
                  submitted v { w.dist with rings := ringSet w.dist.rings die g.part g.ctx (ring ++ [{ y with parked := id }]) }) ∧
                (¬ room → (i = .launchNb d sp a → answers u .none (writes 0x80000000)) ∧
                  (i = .launch d sp a → ∃ t v, exec i s = .next t ∧ Parted u t q (fun _ x => { x with pc := q.pc }) .space v))))))) ∧
    (i = .join d a →
      let named : List Nat := if a = 60 then g.children else [(q.w.read a.toNat (4 * q.lead)).toNat % 2 ^ 24]
      ((∃ l ∈ named, l ∉ g.children) → answers s .none (writes 2)) ∧
      ((∀ l ∈ named, l ∈ g.children) →
        ((∀ l ∈ named, ∃ e ∈ g.childStatus, e.1 = l) → (∀ l ∈ named, ∀ e ∈ g.childStatus, e.1 = l → e.2 = 0) →
          answers s .none (writes 0)) ∧
        ((∀ l ∈ named, ∃ e ∈ g.childStatus, e.1 = l) → (∃ l ∈ named, ∃ e ∈ g.childStatus, e.1 = l ∧ e.2 ≠ 0) →
          answers s .none (writes 1)) ∧
        ((∃ l ∈ named, ∀ e ∈ g.childStatus, e.1 ≠ l) → answers s (.join d.toNat named) id)))

/-- R306 to R309: POST sends the record of the lowest executing lane to the core that the hash of its data names, to the end of its
queue, or of the context's ring on that die where the queue is full or a ring holds records of that core, once the records of that
core in the rings have taken the room that its queue has; FORK puts its own at the
head of the core's deque, counting the fork. Both wait for the gang's earlier writes and park where there is no room; JOINT parks
while a fork of the warp has not ended. -/
def Claims.TasksArePostedAndForked : Prop :=
  ∀ (a : RegCode) (s : State) (q : Seat) (i : Instr), GangRuns i s q → inCode q.pc 1 →
    let g := s.wg q.w.wg
    let gr := s.grid g.grid
    let next (_ : Nat) (x : Slice) : Slice := { x with pc := codeAt q.pc 1 }
    let r (L : Nat) : BitVec 128 := BitVec.ofNat 128 (q.exe.rdGroup 2 a.toNat L)
    let entry (L : Nat) : Nat := (r L).toNat % 2 ^ 26
    let spare (L : Nat) : Prop := (r L).toNat / 2 ^ 26 % 2 ^ 6 = 0 ∧ (r L).toNat / 2 ^ 120 = 0
    let quiet : Prop := ∀ x ∈ s.mem.access, ¬ (q.issued q.g.slices x ∧ x.writes = true)
    let mode : Nat := if i = .post a then 1 else 2
    (i = .post a ∨ i = .fork a →
      (q.exe.lanes = [] → ∃ t v, exec i s = .next t ∧ Parted s t q next .none v ∧ q.w.sameRegisters v) ∧
      (∀ L rest, q.exe.lanes = L :: rest →
        (pkTaskmode gr.packet ≠ mode → exec i s = .next (s.raiseAt q { cause := 0x53, arg0 := pkTaskmode gr.packet })) ∧
        (pkTaskmode gr.packet = mode → ¬ spare L → exec i s = .next (s.raiseAt q { cause := 0x54, detail := 1, arg0 := entry L })) ∧
        (pkTaskmode gr.packet = mode → spare L → kdTextlen gr.desc ≤ 4 * entry L →
          exec i s = .next (s.raiseAt q { cause := 0x54, detail := 2, arg0 := entry L })) ∧
        (pkTaskmode gr.packet = mode → spare L → 4 * entry L < kdTextlen gr.desc →
          (¬ quiet → exec i s = .next s.nextFree) ∧
          (quiet → i = .post a →
            let cores := (List.range Config.cores).filter fun c => decide (0 < (s.layout.share g.part c).slots)
            let dies := (List.range Config.dies).filter fun d => cores.any fun c => dieOf c == d
            let home (b : BitVec 128) : Nat × Nat :=
              let v := (b.toNat / 2 ^ 38 % 2 ^ 50 * 0x9E3779B97F4A7C15) % 2 ^ 64
              let die := dies.getD (v / 2 ^ 32 % dies.length) 0
              let own := cores.filter fun c => dieOf c == die
              (die, own.getD (v % 2 ^ 32 % own.length) 0)
            let die := (home (r L)).1
            let core := (home (r L)).2
            let key := coreQueue core g.part
            let w := s.nextFree.refillTasks core g.part 64
            let l := sparseGet [] w.dist.tasks key
            let ring := ringItems w.dist.taskRings die g.part g.ctx
            let c := s.ctx g.part g.ctx
            let y : TaskRec := { grid := g.grid, bits := r L, seq := w.sched.uid }
            let sent (v : State) (dist : Dist) : Prop := ∃ t x, exec i s = .next t ∧ q.w.sameRegisters x ∧
              Parted { v with dist := dist } t q next .none x
            let open_ : Prop := l.length < 64 ∧
              ∀ e ∈ w.dist.taskRings, e.die = die → e.part = g.part → ∀ x ∈ e.items, (home x.bits).2 ≠ core
            let kept : State := (if ring = [] then w.obscure g.part g.ctx (c.tring.getD die 0) (16 * 2 ^ c.tk.getD die 6) else w).nextUid
            (open_ → sent w.nextUid { w.dist with tasks := sparseSet [] w.dist.tasks key (l ++ [y]) }) ∧
            (¬ open_ → ring.length < 2 ^ c.tk.getD die 6 → ∃ v id, Kept kept v id g.part g.ctx ∧
              sent v { w.dist with taskRings := ringSet w.dist.taskRings die g.part g.ctx (ring ++ [{ y with parked := id }]) }) ∧
            (¬ open_ → 2 ^ c.tk.getD die 6 ≤ ring.length → ∃ t v, exec i s = .next t ∧ q.w.sameRegisters v ∧
              Parted s t q (fun _ x => { x with pc := q.pc }) .space v)) ∧
          (quiet → i = .fork a →
            let key := coreQueue q.w.core g.part
            let l := sparseGet [] s.dist.deques key
            (l.length < 64 → ∃ t v, exec i s = .next t ∧ q.w.sameRegisters v ∧ v.forks = q.w.forks + 1 ∧
              t = { s with warps := t.warps, sched := { s.sched with free := t.sched.free }, dist := { s.dist with
                deques := sparseSet [] s.dist.deques key ({ grid := g.grid, bits := r L, forker := some (q.w.wg, q.w.index) } :: l) } } ∧
              t.findWarp q.w.core q.w.slot = some v ∧ ∀ j ∈ q.g.slices, v.slice j = next j (q.w.slice j)) ∧
            (64 ≤ l.length → ∃ t v, exec i s = .next t ∧ q.w.sameRegisters v ∧
              Parted s t q (fun _ x => { x with pc := q.pc }) .space v))))) ∧
    (i = .joint → ∃ t v, exec i s = .next t ∧ q.w.sameRegisters v ∧
      Parted s t q next (if q.w.forks = 0 then .none else .joint) v)

/-- R293 to R296, R300, R302 to R304 and R306 to R309: launches and tasks from a warp.
Where the spec leaves it open this rests on the model's choices, log entries 47, 48, 49, 50, 52, 53, 132. -/
def Obligations.LaunchesAndTasks : Prop :=
  Claims.PacketsAreChecked ∧ Claims.LaunchesAndJoins ∧ Claims.TasksArePostedAndForked

/-- R317, R318 and R326 to R329: BEQUEATH records one deposit per executing lane, for whose estates the Kennel has room, and lets
only EXIT follow; ESTAT reads and clears the claim status; ECLAIM opens one claim per executing lane, whose registers are pending;
ERELEASE and its keyed form turn the estates they name into strays; EPROBE reports what stands under a key. R317 and R334: the checks
of the block, the keys and the lineage come in this order, and a fault names the lowest failing lane.
Where the spec leaves it open this rests on the model's choices, log entries 61, 63, 64, 65. -/
def Obligations.EstateWordsNameTheirKeys : Prop :=
  ∀ (s : State) (q : Seat) (i : Instr), GangRuns i s q →
    let g := s.wg q.w.wg
    let p := s.primed q i
    let lanes := q.exe.lanes
    let item (k : RegCode) (L : Nat) : Nat := (q.exe.rd64 k.toNat L).toNat
    let lineage (l : BitVec 3) : BitVec 32 := sparseGet 0 q.w.s l.toNat
    let widths (w : BitVec 3) : BitVec 32 := sparseGet 0 q.w.s w.toNat
    let code (w : BitVec 3) (j : Nat) : Nat := (widths w).toNat / 2 ^ (2 * j) % 4
    let start (f : RegCode) (w : BitVec 3) (j : Nat) : Nat := f.toNat + ((List.range j).map fun h => 2 ^ code w h).sum
    let block (f : RegCode) (n w : BitVec 3) : Prop := (widths w).toNat < 2 ^ 16 ∧ (∀ j, j ≤ n.toNat → code w j ≠ 3) ∧
      start f w (n.toNat + 1) ≤ 44
    let keys (k : RegCode) : Prop := ∀ L ∈ lanes, item k L < 2 ^ 40
    let from_ (l : BitVec 3) : Prop := lineage l ≠ 0 ∧ (lineage l).toNat < 2 ^ 24
    let low := lanes.headD 0xFF
    let traps (tr : Trap) : Prop := exec i s = .next (s.raiseAt q tr)
    let shape (n L : Nat) : Prop := traps { cause := 0x59, detail := n, lane := L }
    let mine (e : Estate) : Prop := e.part = g.part ∧ e.ctx = g.ctx
    let strays (t : State) (hit : Estate → Prop) : Prop :=
      t = { s.nextFree with estates := t.estates } ∧ t.estates.length = s.estates.length ∧ ∀ (n : Nat) (e : Estate), s.estates[n]? = some e →
        (e.stray = none ∧ hit e → t.estates[n]? = some { e with stray := some 2, strayAt := s.sched.steps }) ∧ (¬ (e.stray = none ∧ hit e) → t.estates[n]? = some e)
    (∀ f n w k, i = .bequeath f n w k →
      (q.inHandler = true → traps { cause := 0x58, detail := 2, lane := low }) ∧
      (q.inHandler = false → kdBeq (s.grid g.grid).desc = false → traps { cause := 0x58, detail := 3, lane := low }) ∧
      (q.inHandler = false → kdBeq (s.grid g.grid).desc = true → block f n w → k = 60 ∨ keys k →
        let count := n.toNat + 1
        let deps : List Deposit := lanes.map fun L =>
          { lane := L
            key := g.lineage * 2 ^ 40 + (if k = 60 then (q.w.wid * (q.w.wgWarps * q.w.width) + (q.w.index * q.w.width + L)) % 2 ^ 40 else item k L)
            count := count, widths := (widths w).toNat % 2 ^ (2 * count)
            values := (List.range count).map fun j => q.exe.rdGroup (code w j) (start f w j) L }
        let bytes := ((List.range count).map fun j => 4 * 2 ^ code w j).sum
        let fits : Prop := s.unitsAt g.part (.kennel q.w.core) + lanes.length * (1 + (bytes + 15) / 16) ≤ (s.layout.share g.part q.w.core).kn
        (fits → exec i s = .next (s.nextFree.putSeat
          (Seat.advance ⟨{ q.w with deposits := q.w.deposits ++ deps }, { q.g with mustExit := true }⟩ i none))) ∧
        (¬ fits → lanes ≠ [] → (∀ e ∈ s.estates, e.part = g.part → e.place = .kennel q.w.core → e.stray ≠ none) →
          traps { cause := 0x27, lane := low, arg0 := lanes.length }))) ∧
    (∀ d clr, i = .estat d clr → (∀ c ∈ q.w.claims, c.lane ∉ lanes) → ∃ e,
      exec i s = .next (s.afterGang q i { p.w.write d.toNat (p.exe.lanes.map fun L => (L, sparseGet 0 q.w.estat L)) with estat := e }) ∧
      (clr = 0 → e = q.w.estat) ∧
      (clr = 1 → sparseWf 0 q.w.estat = true → ∀ L, sparseGet 0 e L = if L ∈ lanes then 0 else sparseGet 0 q.w.estat L)) ∧
    (∀ f n w k l slot, i = .eclaim f n w k l slot → block f n w → keys k → from_ l → ∃ (t : State) (v : Warp),
      exec i s = .next t ∧ t = { s with warps := t.warps, sched := t.sched } ∧ t.findWarp q.w.core q.w.slot = some v ∧
      v.regs = q.w.regs ∧ v.s = q.w.s ∧ v.p = q.w.p ∧ t.sched.uid = s.sched.uid + lanes.length ∧
      v.claims = q.w.claims ++ lanes.mapIdx (fun x L =>
        ({ id := s.sched.uid + x, lane := L, slot := slot.toNat, key := (lineage l).toNat * 2 ^ 40 + item k L
           entries := (List.range (n.toNat + 1)).map fun j =>
             (j, code w j, List.range' ((q.w.slice (L / 4)).base + start f w j) (2 ^ code w j)) } : Claim)) ∧
      v.pend = q.w.pend ++ lanes.mapIdx (fun x L => { id := s.sched.uid + x, slices := [], writes := []
                                                      names := (List.range (n.toNat + 1)).flatMap fun j =>
          (List.range' ((q.w.slice (L / 4)).base + start f w j) (2 ^ code w j)).map RegName.lane }) ∧
      (∀ L, L ∉ lanes → sparseWf 0 q.w.estat = true → sparseGet 0 v.estat L = sparseGet 0 q.w.estat L) ∧
      (sparseWf 0 q.w.estat = true → ∀ L ∈ lanes, ∀ b, b < 24 → (sparseGet 0 v.estat L).getLsbD b =
        if b % 4 = slot.toNat then false else (sparseGet 0 q.w.estat L).getLsbD b)) ∧
    (∀ l, i = .erelease l → from_ l → ∃ t, exec i s = .next (t.putSeat (q.advance i none)) ∧
      strays t fun (e : Estate) => mine e ∧ e.key / 2 ^ 40 = (lineage l).toNat) ∧
    (∀ l k, i = .ereleaseKey l k → keys k → from_ l → ∃ t, exec i s = .next (t.putSeat (q.advance i none)) ∧
      strays t fun (e : Estate) => mine e ∧ ∃ L ∈ lanes, e.key = (lineage l).toNat * 2 ^ 40 + item k L) ∧
    (∀ d k l, i = .eprobe d k l → keys k → from_ l →
      let key (L : Nat) : Nat := (lineage l).toNat * 2 ^ 40 + item k L
      ∃ val : Nat → BitVec 32, exec i s = .next (s.afterGang q i (p.w.write d.toNat (p.exe.lanes.map fun L => (L, val L)))) ∧
        ∀ L ∈ lanes,
          (∀ e ∈ s.estates, mine e → e.key = key L → e.stray = none → (∀ x ∈ s.estates, mine x → x.key = key L → x.stray = none → x = e) →
            val L = BitVec.ofNat 32 (2 ^ 31 + 2 ^ 28 * (if e.moving then 5 else match e.place with
              | .kennel c => if c = q.w.core then 0 else if dieOf c = dieOf q.w.core then 1 else 2
              | .reserve _ => 3
              | .area _ => 4) + 2 ^ 16 * e.count + e.widths)) ∧
          ((∀ e ∈ s.estates, mine e → e.key ≠ key L) → val L = 0)) ∧
    (∀ f n w k, (i = .bequeath f n w k ∧ q.inHandler = false ∧ kdBeq (s.grid g.grid).desc = true) ∨
        (∃ l slot, i = .eclaim f n w k l slot) →
      let plain : Prop := (widths w).toNat < 2 ^ 16 ∧ ∀ j, j ≤ n.toNat → code w j ≠ 3
      (¬ plain → shape 1 low) ∧ (plain → 44 < start f w (n.toNat + 1) → shape 2 low)) ∧
    (∀ k, (∃ f n w, i = .bequeath f n w k ∧ q.inHandler = false ∧ kdBeq (s.grid g.grid).desc = true ∧ k ≠ 60 ∧ block f n w) ∨
        (∃ f n w l slot, i = .eclaim f n w k l slot ∧ block f n w) ∨ (∃ l, i = .ereleaseKey l k) ∨ (∃ d l, i = .eprobe d k l) →
      ∀ L, lanes.find? (fun L => decide (2 ^ 40 ≤ item k L)) = some L → shape 3 L) ∧
    (∀ l, (∃ f n w k slot, i = .eclaim f n w k l slot ∧ block f n w ∧ keys k) ∨ i = .erelease l ∨
        (∃ k, i = .ereleaseKey l k ∧ keys k) ∨ (∃ d k, i = .eprobe d k l ∧ keys k) → ¬ from_ l → shape 4 low)

/-! ### Events of the engines and the host -/

/-- R42, R87, R88, R157 and R229: RUN_START gives the best ready gang of a core a run on its lowest free port, the one that a handler
has interrupted where there is one, and counts each other ready gang as passed over, boosting those that reach 64 together; a spill
or fill ends; a yielded gang goes on once 64 cycles or another run start have passed.
Where the spec leaves it open this rests on the model's choices, log entries 19, 35, 134. -/
def Obligations.RunsBeginAndGangsWake : Prop :=
  (∀ (s : State) (q : Seat) (port : Nat),
    (s.warps.map fun w => (w.core, w.slot)).Nodup →
    (∀ w ∈ s.warps, (∀ g ∈ w.gangs, g.slices ≠ []) ∧ w.gangs.Pairwise fun g h => g.slices.head? ≠ h.slices.head?) →
    q ∈ s.readySeats q.w.core → (∀ r ∈ s.readySeats q.w.core, r = q ∨ s.outranks q r = true) →
    port < 4 → port ∉ s.busyPorts q.w.core → (∀ p, p < port → p ∈ s.busyPorts q.w.core) →
    ∃ t, exec (.runStart q.w.core) s = .next t ∧ t = { s with warps := t.warps, sched := t.sched } ∧
      t.sched = { s.sched with uid := s.sched.uid + 1, starts := sparseSet 0 s.sched.starts q.w.core (sparseGet 0 s.sched.starts q.w.core + 1) } ∧
      (∃ v, t.seat q.w.core q.w.slot q.lead = some ⟨v, { q.g with
        run := some (q.g.resume.getD {}), resume := none, port := port, began := s.sched.uid, starv := 0, boost := none }⟩) ∧
      ∀ r ∈ s.readySeats q.w.core, r ≠ q → ∃ v b, t.seat q.w.core r.w.slot r.lead = some ⟨v, { r.g with starv := r.g.starv + 1, boost := b }⟩ ∧
        (r.g.starv + 1 < 64 → b = r.g.boost) ∧ (64 ≤ r.g.starv + 1 → b = some (r.g.boost.getD s.sched.uid))) ∧
  (∀ (s : State) (core slot lead : Nat) (q : Seat), s.seat core slot lead = some q → (s.ctxOf q.w.wg).gated = false →
    exec (.windowSpillFillDone core slot lead) s = .next (s.putSeat { q with g := { q.g with spill := false } })) ∧
  (∀ (s : State) (core slot lead : Nat) (q : Seat) (pc : BitVec 48) (since starts : Nat), s.seat core slot lead = some q →
    q.g.park = .yield pc since starts → (s.ctxOf q.w.wg).gated = false → (s.ctxOf q.w.wg).preempting = none →
    (since + 64 ≤ s.sched.now ∨ starts < sparseGet 0 s.sched.starts core →
      exec (.yieldWake core slot lead) s = .next (s.putSeat { q with g := { q.g with park := .none } })) ∧
    (s.sched.now < since + 64 → sparseGet 0 s.sched.starts core ≤ starts → exec (.yieldWake core slot lead) s = .next s))

/-- In t the device dev is lost: every access sent to it has ended and the physical function has event 10 (R376). -/
def DeviceLost (s t : State) (dev : Nat) : Prop :=
  dev ∈ t.domain.lost ∧ (∀ a ∈ t.mem.access, a.sent ≠ some dev) ∧
    (sparseGet {} t.fns 0).events = (sparseGet {} s.fns 0).events ++
      [{ code := 10, gen := s.layout.gen, arg0 := dev, arg1 := min (s.mem.access.countP fun a => a.sent == some dev) (2 ^ 32 - 1) }]

/-- R16 and R374 to R376: an access from another device is performed under the mapped tag where that opens every byte; the answer
to an access of this device lets a store go, which hits the monitors of its line (R160), gives a load its value, and a CLDC a tag
(R188), remembers a REL (R199), or is the target's refusal, recorded with reason 4; a grant
opens the window; an access unanswered for 2^24 cycles and a link down lose the device.
Where the spec leaves it open this rests on the model's choices, log entries 30, 93, 94. -/
def Obligations.DomainAccessesAreAnswered : Prop :=
  (∀ (s : State) (src owner o : Nat), s.domain.tag src owner = some o →
    (∀ pa n, exec (.fbRemoteAccessArrival src owner (.read pa n)) s = .next s) ∧
    (∀ pa bs, bs ≠ [] → pa + bs.length ≤ 2 ^ 43 →
      ((∀ k, pa ≤ k → k < pa + bs.length → s.layout.opens o k = true) →
        exec (.fbRemoteAccessArrival src owner (.write pa bs)) s = .next (s.withMem (s.mem.write o pa bs))) ∧
      (s.layout.opens o pa = false → exec (.fbRemoteAccessArrival src owner (.write pa bs)) s = .next s)) ∧
    (∀ pa size v v2, size = 4 ∨ size = 8 → pa + size ≤ 2 ^ 43 → (∀ k, pa ≤ k → k < pa + size → s.layout.opens o k = true) →
      exec (.fbRemoteAccessArrival src owner (.atom 0 pa size v v2)) s =
        .next (s.withMem (s.mem.writeNat o pa size ((s.mem.read o pa size + v.toNat % 2 ^ (8 * size)) % 2 ^ (8 * size)))))) ∧
  (∀ (s : State) (src owner : Nat) (acc : RemoteAccess), s.domain.tag src owner = none →
    exec (.fbRemoteAccessArrival src owner acc) s = .next s) ∧
  (∀ (s : State) (a : Access) (dev : Nat), s.mem.access.find? (fun b => b.id == a.id) = some a → a.sent = some dev →
    (∃ t, exec (.fbAcknowledgement a.id) s = .next t ∧
      (((∀ d x v, a.act = .store d x v → a.rel = none →
            let u := s.nextFree.dropAccess a; t = u.withMem (u.mem.hitLines (a.sentPa / 64) (a.sentPa / 64))) ∧
          (∀ ret, a.act = .load ret → a.rel = none → ∃ v valid, t = ((s.nextFree.dropAccess a).deliver a.who ret v valid).nextFree ∧
            (valid = true → v / 2 ^ 122 % 32 = a.part ∨ v / 2 ^ 122 % 32 = hostShared)) ∧
          (∀ scope high, a.rel = some (scope, high) → ⟨a.sentPa, s.mem.clock, high, scope, a.place⟩ ∈ t.mem.releases)) ∨
        ({ a with sent := none, parked := some s.sched.uid } ∈ t.mem.access ∧
          ∃ f ∈ t.mem.xfaults, f.id = s.sched.uid ∧ f.reason = 4 ∧ f.level = 0 ∧ f.va = a.addr ∧ f.ctx = a.ctx))) ∧
    (a.sentAt + 2 ^ 24 ≤ s.sched.now → s.domain.isLost dev = false → sparseWf ({} : HostFn) s.fns = true →
      ∃ t, exec (.fbAccessTimeout a.id) s = .next t ∧ DeviceLost s t dev) ∧
    (s.sched.now < a.sentAt + 2 ^ 24 → exec (.fbAccessTimeout a.id) s = .next s)) ∧
  (∀ (s : State) (dst flits : Nat),
    (dst ∉ s.domain.remapped → exec (.fbGrant dst flits) s = .next { s with domain := { s.domain with
      flits := sparseSet 0 s.domain.flits dst (sparseGet 0 s.domain.flits dst - flits) } }) ∧
    (dst ∈ s.domain.remapped → ∃ d : Domain, exec (.fbGrant dst flits) s = .next { s with domain := d } ∧ d.isLost dst = false ∧
      dst ∉ d.remapped ∧ d.map = s.domain.map ∧ d.domid = s.domain.domid)) ∧
  (∀ (s : State) (dev : Nat), dev < 256 → dev ≠ s.domain.domid → s.domain.isLost dev = false → sparseWf ({} : HostFn) s.fns = true →
    ∃ t, exec (.domainLinkDown dev) s = .next t ∧ DeviceLost s t dev)

/-- R77, R209 to R211, R215, R216, R301, R305 and R309: a warp whose slices have ended is released; once everything of an ended task
is over its forker's fork has ended, and its report is written in the layout of R211, with event 5; a finished task's version
commits, its held writes performed in order, and the oldest task that has outgrown its quota becomes irrevocable once what it has
begun is over; a grid with nothing left retires with its completion word. -/
def Claims.TasksEndAndReport : Prop :=
  (∀ (s : State) (w : Warp), s.findWarp w.core w.slot = some w → (s.wg w.wg).born = true → (∀ x ∈ w.slices, x.live = false) →
    w.pend = [] → (s.wg w.wg).fault = none ∨ (s.wg w.wg).reported = true →
    let t : State := { s with warps := s.warps.filter fun v => decide ((v.core, v.slot) ≠ (w.core, w.slot)) }
    ((∃ v ∈ t.warps, v.wg = w.wg) → exec (.warpRelease w.core w.slot) s = .next t) ∧
    ((∀ v ∈ t.warps, v.wg ≠ w.wg) → (s.wg w.wg).committed = true → (s.wg w.wg).saved = false → s.findWg w.wg = some (s.wg w.wg) →
      (∀ a ∈ s.mem.access, a.wg ≠ w.wg) → (∀ c ∈ s.copies, c.wg = w.wg → c.done = true ∨ c.faulted = true) → s.opsOver w.wg = true →
      ∃ u, exec (.warpRelease w.core w.slot) s = .next u ∧ u.warps = t.warps ∧ u.mem = s.mem ∧
        (u.wg w.wg).released = true ∧ (u.wg w.wg).rows = [] ∧ (u.wg w.wg).thread = none ∧ ∀ c ∈ u.collies, c.wg ≠ w.wg)) ∧
  (∀ (s : State) (g : Workgroup), s.findWg g.uid = some g → g.ended = true →
    (s.taskOver g.uid = false → exec (.trapReportWrite g.uid) s = .next s) ∧
    (s.taskOver g.uid = true → ∀ u i, g.forker = some (u, i) → ∀ w ∈ s.warps, w.wg = u → w.index = i →
      ∃ v ∈ (s.forkOver g.uid).warps, v.core = w.core ∧ v.slot = w.slot ∧ v.forks = w.forks - 1 ∧
        (v.forks = 0 → ∀ x ∈ v.gangs, x.park ≠ .joint))) ∧
  (∀ (s : State) (g : Workgroup) (r : Report), s.findWg g.uid = some g → g.ended = true → g.fault = some r → g.reported = false →
    r.ctxFault = false → s.taskOver g.uid = true → (s.findCtx r.owner r.ctx).isSome = true →
    let c := s.ctx r.owner r.ctx
    let flags := (if r.more ≠ 0 then 1 else 0) + (if r.discarded then 2 else 0) + (if g.nonVersioned then 4 else 0) + (if r.inHandler then 16 else 0)
    let bs := bytesOf 4 r.taskid ++ bytesOf 3 r.lineage ++ bytesOf 1 r.cause ++ bytesOf 6 r.pc.toNat ++ bytesOf 1 r.detail ++
      bytesOf 1 r.lane ++ bytesOf 8 r.addr ++ bytesOf 8 r.arg0 ++ bytesOf 8 r.arg1 ++ bytesOf 1 r.core ++ bytesOf 1 r.slot ++
      bytesOf 1 flags ++ bytesOf 1 r.more ++ bytesOf 4 (r.ctx % 2 ^ 16 + r.owner * 2 ^ 16) ++ bytesOf 16 0
    (ringFull c.ringHead c.ringTail c.ringsize = true → exec (.trapReportWrite g.uid) s = .next (s.forkOver g.uid)) ∧
    (ringFull c.ringHead c.ringTail c.ringsize = false → sparseWf ({} : HostFn) s.fns = true →
      ∀ m, (s.forkOver g.uid).rootWrite r.owner r.ctx (c.ringbase + 64 * (c.ringTail % c.ringsize)) bs = some m →
        ∃ t, exec (.trapReportWrite g.uid) s = .next t ∧ t.mem = m.mem ∧ (t.wg g.uid).reported = true ∧
          (t.ctx r.owner r.ctx).ringTail = (c.ringTail + 1) % 2 ^ 32 ∧
          (sparseGet {} t.fns (r.owner + 1)).events = (sparseGet {} s.fns (r.owner + 1)).events ++
            [{ code := 5, ctx := r.ctx, gen := s.layout.gen, arg0 := r.ctx, arg1 := (c.ringTail + 1) % 2 ^ 32 }])) ∧
  (∀ (s : State) (g : Workgroup), s.findWg g.uid = some g → g.born = true → g.saved = false → g.ended = false → g.committed = false →
    (∀ h ∈ g.held, isRemote h.pa = false) → g.part ∉ s.resetting → (s.ctx g.part g.ctx).gated = false →
    let m : Memory := g.held.foldl (fun m h =>
      let n := m.writeNat h.owner h.pa h.size h.data
      match h.tag with | some b => n.setTag h.pa b | none => n) s.mem
    let stored (t : State) : Prop := t.mem.cells = m.cells ∧ t.mem.tags = m.tags ∧ t.mem.writers = m.writers
    (s.taskOver g.uid = true → (∀ c ∈ s.copies, c.wg ≠ g.uid) → ∃ t, exec (.versionCommit g.uid) s = .next t ∧ stored t ∧
      (t.wg g.uid).committed = true ∧ (t.wg g.uid).held = [] ∧ (t.wg g.uid).versionOpen = false) ∧
    (s.taskOver g.uid = false → g.outgrown = true → s.begunOver g.uid = false → exec (.versionCommit g.uid) s = .next s) ∧
    (s.taskOver g.uid = false → g.outgrown = true → g.versionOpen = true → s.oldestOpen g = true → s.begunOver g.uid = true →
      ∃ t, exec (.versionCommit g.uid) s = .next t ∧ stored t ∧ (t.wg g.uid).irr = true ∧ (t.wg g.uid).held = [] ∧
        (t.wg g.uid).versionOpen = false ∧ (t.wg g.uid).outgrown = false) ∧
    (s.taskOver g.uid = false → g.outgrown = false → exec (.versionCommit g.uid) s = .next s)) ∧
  (∀ (s : State) (g : Grid), s.dist.grids.find? (fun h => h.ctx == g.ctx && h.lineage == g.lineage && s.retirable h) = some g →
    sparseWf 0 s.dist.balance = true → g.inh = 0 → g.parent = none →
    let word := (if g.traps = 0 then 0 else 1) + g.traps * 2 ^ 16 + g.lineage * 2 ^ 40
    ∀ u : State, (pkDone g.packet = 0 → u = s) → (pkDone g.packet ≠ 0 → s.rootWrite g.part g.ctx (pkDone g.packet) (bytesOf 8 word) = some u) →
      ∃ t, exec (.gridRetire g.ctx g.lineage) s = .next t ∧ t.mem = u.mem ∧
        t.dist.grids.map (·.uid) = (s.dist.grids.filter fun h => h.uid != g.uid).map (·.uid) ∧
        (∀ h ∈ s.dist.grids, h.uid ≠ g.uid → h.heirOf ≠ some g.uid → h ∈ t.dist.grids) ∧ (∀ w ∈ t.wgs, w.grid ≠ g.uid) ∧
        t.balance g.part = s.balance g.part + pkEnergy g.packet - Config.measuredEnergy g.lineage)

/-- R213 and R344: a failed translation is recorded in the fault queue once it has room, with event 6, and the driver's answer
lets everything parked on it go on, or ends what was parked. -/
def Claims.TranslationFaultsAreAnswered : Prop :=
  (∀ (s : State) (f : XFault), s.mem.xfaults.find? (fun x => x.id == f.id && !x.recorded) = some f → sparseWf ({} : HostFn) s.fns = true →
    let h := s.fnOf f.part
    let seq := sparseGet 0 s.mem.xseq f.part
    let bs := bytesOf 8 f.va ++ bytesOf 4 (f.ctx % 2 ^ 16 + f.part * 2 ^ 16) ++ bytesOf 1 f.path ++ bytesOf 1 f.kind ++ bytesOf 1 f.reason ++
      bytesOf 1 f.level ++ bytesOf 2 f.core ++ bytesOf 2 0 ++ bytesOf 4 seq ++ bytesOf 8 0
    (h.fqsize = 0 ∨ ringFull h.fqhead h.fqtail h.fqsize = true → exec (.translationFaultRecord f.id) s = .next s) ∧
    (h.fqsize ≠ 0 → ringFull h.fqhead h.fqtail h.fqsize = false → ∃ t, exec (.translationFaultRecord f.id) s = .next t ∧
      t.mem.cells = (s.mem.write 0 (hostKey (h.fqbase + 32 * (h.fqtail % h.fqsize))) bs).cells ∧
      (t.fnOf f.part).fqtail = (h.fqtail + 1) % 2 ^ 32 ∧ { f with recorded := true, seq := seq } ∈ t.mem.xfaults ∧
      (t.fnOf f.part).events = h.events ++ [{ code := 6, ctx := f.ctx, gen := s.layout.gen, arg0 := seq }])) ∧
  (∀ (s : State) (f : XFault), s.mem.xfaults.find? (fun x => x.part + 1 == f.part + 1 && x.seq == f.seq && x.recorded) = some f →
    (∃ t, exec (.fqanswer (f.part + 1) f.seq false) s = .next t ∧ t.mem.cells = s.mem.cells ∧
      t.mem.xfaults = s.mem.xfaults.filter (fun x => x.id != f.id) ∧
      t.mem.access = s.mem.access.map (fun a => if a.parked = some f.id then { a with parked := none } else a) ∧
      t.copies = s.copies.map (fun c => if c.parked = some f.id then { c with parked := none } else c) ∧
      (∀ w ∈ t.warps, ∀ g ∈ w.gangs, g.hold ≠ .xlate f.id) ∧ ∀ c ∈ t.collies, c.x.hold ≠ .xlate f.id) ∧
    (∃ t, exec (.fqanswer (f.part + 1) f.seq true) s = .next t ∧
      (∀ a ∈ s.mem.access, a.parked = some f.id → ∀ b ∈ t.mem.access, b.id ≠ a.id) ∧
      (∀ c ∈ s.copies, c.parked = some f.id → ∀ d ∈ t.copies, d.id = c.id → d.faulted = true) ∧
      (∀ w ∈ t.warps, ∀ g ∈ w.gangs, g.hold ≠ .xlate f.id) ∧ ∀ c ∈ t.collies, c.x.hold ≠ .xlate f.id))

/-- How tasks and grids end, and what becomes of faults (R77, R209 to R216, R301, R305, R344).
Where the spec leaves it open this rests on the model's choices, log entries 29, 39, 40, 41, 43, 44, 45, 46, 54, 62, 71. -/
def Obligations.TasksEndAndFaultsAreReported : Prop :=
  Claims.TasksEndAndReport ∧ Claims.TranslationFaultsAreAnswered

/-- R218 to R220, R298, R304 and R344: a workgroup of a pre-empted context whose gangs have all stopped is saved and leaves its core,
one of a gated context whose storage waiting work claims is scanned out exactly, one whose room waiting work needs is suspended; one
whose save area does not translate for the save stays, and the failure is recorded. A saved workgroup comes back where it fits, a suspended one in the order of R298, a scanned-out one to its own slots; a context whose workgroups are not saved in time begins a reset of its partition.
Where the spec leaves it open this rests on the model's choices, log entries 66, 67, 68, 69, 70, 112. -/
def Obligations.WorkgroupsAreSavedAndRestored : Prop :=
  (∀ (s : State) (g : Workgroup), s.findWg g.uid = some g → g.born = true → g.saved = false → g.released = false → g.fault = none →
    s.wgQuiet g.uid = true →
    let ws := s.warps.filter fun w => w.wg == g.uid
    let gone (t : State) : Prop := (t.wg g.uid).saved = true ∧ t.warps = s.warps.filter (fun w => w.wg != g.uid) ∧
      t.collies = s.collies.filter (fun c => c.wg != g.uid) ∧ (t.wg g.uid).rows = [] ∧ (t.wg g.uid).privRows = [] ∧
      t.mem.cells = s.mem.cells ∧ (t.wg g.uid).savedW.length = ws.length ∧
      ∀ (k : Nat) (w : Warp), ws[k]? = some w → ∃ v, (t.wg g.uid).savedW[k]? = some v ∧ v.slices = w.slices ∧ v.gangs = w.gangs ∧
        v.index = w.index ∧ v.claims = w.claims ∧ v.pend = w.pend ∧ v.deposits = w.deposits ∧ v.geo = w.geo
    let exact (t : State) : Prop := (t.wg g.uid).savedW = ws ∧ (t.wg g.uid).savedC = s.collies.find? (fun c => c.wg == g.uid) ∧
      ∀ o, o < g.groupB → sparseGet 0 (t.wg g.uid).savedG o = s.mem.byte 0 (rowKey g.core g.rows o)
    let saves (i : Instr) (kept : State → Prop) : Prop :=
      (s.saveFails g.part g.ctx = none → ∃ t, exec i s = .next t ∧ gone t ∧ kept t) ∧
      (∀ va rl, s.saveFails g.part g.ctx = some (va, rl) → exec i s = .next (s.nextFree.noteOnce g.part g.ctx va 0 2 rl))
    ((s.ctx g.part g.ctx).preempting ≠ none → g.ended = false → (∀ w ∈ ws, ∀ h ∈ w.gangs, h.preemptible = true) →
      s.collieStill g.uid = true → saves (.workgroupSave g.uid) fun t => (t.wg g.uid).suspended = false) ∧
    ((s.ctx g.part g.ctx).preempting ≠ none → (∃ w ∈ ws, ∃ h ∈ w.gangs, h.park = .none) → exec (.workgroupSave g.uid) s = .next s) ∧
    ((∀ h ∈ s.wgs, h.core = g.core → (s.gatedOn h.part g.core).contains h.uid = true → s.claimed h = false) →
      exec (.urgentScanOut g.core) s = .next s) ∧
    (s.wgs = [g] → (s.ctx g.part g.ctx).gated = true → s.claimed g = true → (∀ w ∈ ws, w.pend = []) →
      ∃ t, exec (.urgentScanOut g.core) s = .next t ∧ gone t ∧ exact t ∧ (t.wg g.uid).scanned = true) ∧
    (s.suspendable g = true → s.suspendNow g = true →
      saves (.workgroupSuspend g.uid) fun t => (t.wg g.uid).suspended = true)) ∧
  (∀ (s : State) (g : Workgroup), s.findWg g.uid = some g → s.restorable g = true → g.part ∉ s.resetting →
    let fits (c : Nat) (r : Room) (u : State) : Prop := c ∈ s.layout.coresOf g.part ∧ (g.suspended = true → dieOf c = dieOf g.core) ∧
      (g.scanned = true → c = g.core ∧ r.slots = g.savedW.map (·.slot) ∧ r.thread = g.thread) ∧
      s.roomFor g c = some r ∧ s.restoreWg g.uid c r = some u
    let first : Prop := ∀ h ∈ s.wgs, g.suspended = true → h.suspended = true → s.restorable h = true → dieOf h.core = dieOf g.core →
      s.restoresBefore h g = true → s.returns h = []
    (¬ first → exec (.workgroupRestore g.uid) s = .next s) ∧
    (first → (∃ c r u, fits c r u) → ∃ c r u, fits c r u ∧ exec (.workgroupRestore g.uid) s = .next u.nextFree ∧
      u.warps = (s.warps ++ g.savedW.mapIdx fun i (w : Warp) =>
        { w with core := c, slot := r.slots.getD i 0, gangs := w.gangs.map Gang.restored }).map fun (w : Warp) =>
          if w.wg = g.uid then w.mapAllViews fun v => v.start u.mem.clock else w) ∧
    ((∀ c r u, ¬ fits c r u) → exec (.workgroupRestore g.uid) s = .next s)) ∧
  (∀ (s : State) (c : Context) (t0 : Nat) (g : Workgroup), c ∈ s.ctxs → c.preempting = some t0 → t0 + 4096 * c.deadline ≤ s.sched.now →
    g ∈ s.wgs → g.part = c.owner → g.ctx = c.num → g.saved = false → g.released = false → c.owner ∉ s.resetting →
    sparseWf 0 s.resetCause = true → ∃ t, exec (.preemptionDeadline c.owner) s = .next t ∧ c.owner ∈ t.resetting ∧
      sparseGet 0 t.resetCause c.owner = 4 ∧ (∀ d ∈ t.ctxs, d.owner = c.owner → d.gated = true) ∧
      ∀ d ∈ s.ctxs, d.owner = c.owner → d.loaded = true → ∃ r ∈ t.late, r.ctx = d.num ∧ r.owner = d.owner ∧ r.cause = 0x31 ∧ r.ctxFault = true)

/-- R294, R296, R300, R365 and R366: a doorbell joins its die's launch queue, or the context's ring, or is lost with a mark; a queue
with room takes the packet that arrived first in a ring; the head of a queue that passes the checks becomes a grid with one unstarted
workgroup for each index and is paid for, unless the balance defers it; a packet that fails a check is rejected, by event 2 where the
host submitted it, and by event 3 before that where the check of its context's records failed.
Where the spec leaves it open this rests on the model's choices, log entries 49, 50, 51, 52, 53, 132. -/
def Obligations.PacketsAreAccepted : Prop :=
  (∀ (s : State) (fn die : Nat) (v : BitVec 64), 1 ≤ fn → fn ≤ 20 → die < 4 → s.mgmt.safe = false → s.mgmt.ready = true →
    fn - 1 ∉ s.resetting →
    let part := fn - 1
    let x : Submission := { part := part, ctx := v.toNat / 2 ^ 56, doorbell := some v.toNat, seq := s.sched.uid }
    let l := sparseGet [] s.dist.queues (20 * die + part)
    let r := ringItems s.dist.rings die part x.ctx
    let c := s.ctx part x.ctx
    let room : Prop := c.loaded = true ∧ r.length < 2 ^ c.lk.getD die 6
    (l.length < 64 → (∀ q ∈ s.dist.rings, q.die = die → q.part = part → q.items = []) →
      exec (.lqdoor fn die v) s = .next { s.nextUid with dist := { s.dist with
        queues := sparseSet [] s.dist.queues (20 * die + part) (l ++ [x]) } }) ∧
    (64 ≤ l.length → room → ∃ t id, exec (.lqdoor fn die v) s = .next t ∧ t.dist.queues = s.dist.queues ∧ t.fns = s.fns ∧
      t.mem.cells = s.mem.cells ∧ t.dist.rings = ringSet s.dist.rings die part x.ctx (r ++ [{ x with parked := id }]) ∧
      (id = none → t.mem.xfaults = s.mem.xfaults) ∧ ∀ k, id = some k → ∃ f, t.mem.xfaults = s.mem.xfaults ++ [f] ∧ f.id = k ∧
        f.kind = 2 ∧ f.part = part ∧ f.ctx = x.ctx) ∧
    (64 ≤ l.length → ¬ room → exec (.lqdoor fn die v) s = .next { s with
      fns := sparseSet {} s.fns fn { (sparseGet {} s.fns fn : HostFn) with lost := true } })) ∧
  (∀ (s : State) (die part m n : Nat) (x y : Submission), m ≠ n → (sparseGet [] s.dist.queues (20 * die + part)).length = 63 →
    s.dist.rings = [⟨die, part, m, [x]⟩, ⟨die, part, n, [y]⟩] →
    let late : Prop := y.seq < x.seq
    let moved (c : Nat) (z : Submission) (left : Machine.Ring Submission) : Prop :=
      let ring := ((s.ctx part c).lring.getD die 0, 64 * 2 ^ (s.ctx part c).lk.getD die 6)
      s.disturbed part c ring.1 ring.2 = false → z.parked = none → (s.ringEntry part c z.seq 64 3 needRW ring).1 = none →
      exec (.packetAccept die part) s = exec (.packetAccept die part) { s.nextFree with dist := { s.dist with
        rings := [left]
        queues := sparseSet [] s.dist.queues (20 * die + part) (sparseGet [] s.dist.queues (20 * die + part) ++ [z]) } }
    sparseWf [] s.dist.queues = true →
    (late → moved n y ⟨die, part, m, [x]⟩) ∧ (¬ late → moved m x ⟨die, part, n, [y]⟩)) ∧
  (∀ (s : State) (die : Nat) (x : Submission) (rest : List Submission),
    sparseGet [] s.dist.queues (20 * die + x.part) = x :: rest → x.part ∉ s.resetting → s.mgmt.safe = false →
    (∀ r ∈ s.dist.rings, r.die = die → r.part = x.part → r.items = []) → sparseWf [] s.dist.queues = true →
    sparseWf 0 s.dist.balance = true → sparseWf ({} : HostFn) s.fns = true →
    let accepted (num lineage : Nat) (pk : BitVec 512) (caps : List Cap) (text : BitVec 48) (desc inh : BitVec 512) : Prop :=
      ∃ (t : State) (g : Grid), exec (.packetAccept die x.part) s = .next t ∧ t.dist.grids = s.dist.grids ++ [g] ∧
        g.part = x.part ∧ g.ctx = num ∧ g.lineage = lineage ∧ g.packet = pk ∧ g.desc = desc ∧ g.text = text ∧ g.inh = inh ∧ g.caps = caps ∧
        g.depth = x.depth ∧ g.parent = x.parent ∧ (g.unstarted.map (·.2)) = List.range (pkGx pk * pkGy pk * pkGz pk) ∧
        sparseGet [] t.dist.queues (20 * die + x.part) = rest ∧ t.balance x.part = s.balance x.part - pkEnergy pk ∧ t.mem.cells = s.mem.cells
    let enough (pk : BitVec 512) : Prop := min (pkEnergy pk) (s.energyOf x.part).2 ≤ s.balance x.part
    let deferred : Prop := ∃ t : State, exec (.packetAccept die x.part) s = .next t ∧ t.dist = s.dist ∧ t.fns = s.fns ∧ t.wgs = s.wgs ∧
      t.mem.cells = s.mem.cells
    (x.doorbell = none →
      (∀ text desc inh, s.checkPacket x.part x.ctx false x.packet = .ok (text, desc, inh) →
        (∀ u, x.parent = some u → (s.wg u).ended = false) →
        (enough x.packet → accepted x.ctx x.lineage x.packet x.caps text desc inh) ∧
        (¬ enough x.packet → deferred)) ∧
      (∀ n, s.checkPacket x.part x.ctx false x.packet = .error n → ∃ t : State, exec (.packetAccept die x.part) s = .next t ∧
        t.dist.grids = s.dist.grids ∧ sparseGet [] t.dist.queues (20 * die + x.part) = rest ∧ t.fns = s.fns ∧
        ∀ u g, x.parent = some u → s.findWg u = some g → ∃ h, t.findWg u = some h ∧ h.childStatus = g.childStatus ++ [(x.lineage, 1)])) ∧
    (∀ v : Nat, x.doorbell = some v → x.parent = none →
      let num := v / 2 ^ 56
      let tells (es : List HostEvent) (n : Nat) : Prop := ∃ t : State, exec (.packetAccept die x.part) s = .next t ∧ t.mem = s.mem ∧
        t.dist.grids = s.dist.grids ∧ sparseGet [] t.dist.queues (20 * die + x.part) = rest ∧ (sparseGet {} t.fns (x.part + 1)).events =
          (sparseGet {} s.fns (x.part + 1)).events ++ es ++ [{ code := 2, status := n, ctx := num, gen := s.layout.gen, arg0 := v, arg1 := die }]
      let rejected := tells []
      ((s.fnOf x.part).ctxcount ≤ num → rejected 11) ∧
      (num < (s.fnOf x.part).ctxcount → (s.ctx x.part num).loaded = false → ∀ k, s.readContext x.part num = .error k →
        tells (if k = 255 then [] else [{ code := 3, ctx := num, gen := s.layout.gen, arg0 := k }]) 11) ∧
      (num < (s.fnOf x.part).ctxcount → (s.ctx x.part num).loaded = true →
        (s.rootNat x.part num (v % 2 ^ 56) 64 = none → rejected 11) ∧
        (∀ p : Nat, s.rootNat x.part num (v % 2 ^ 56) 64 = some p →
          let pk := BitVec.ofNat 512 p
          (∀ n, s.checkPacket x.part num true pk = .error n → rejected n) ∧
          (∀ text desc inh caps, s.checkPacket x.part num true pk = .ok (text, desc, inh) → s.gather x.part num pk [] = .ok caps →
            (s.ctx x.part num).nextLineage < 2 ^ 24 → (s.lineagesTaken x.part num).length + 1 < 2 ^ 24 →
            (enough pk → ∃ ln : Nat, ln ≠ 0 ∧ ln < 2 ^ 24 ∧ accepted num ln pk caps text desc inh) ∧ (¬ enough pk → deferred))))))

/-- R75, R76, R215, R231, R298 and R301: the first workgroup of a die's best grid takes its room on a core, its rows cleared; its
warps are born together at the kernel's entry with the arguments, its Collie thread starts and its version opens; nothing is placed
on a die while a suspended workgroup can come back there; the balances rise once in 2^20 cycles. -/
def Claims.WorkgroupsArePlacedAndBorn : Prop :=
  (∀ (s : State) (die : Nat) (w : Workgroup), w ∈ s.wgs → w.suspended = true → s.restorable w = true → dieOf w.core = die → s.returns w ≠ [] →
    exec (.workgroupPlacement die) s = .next s) ∧
  (∀ (s : State) (die : Nat) (g : Grid) (rest : List Grid) (wi core : Nat) (r : Room),
    (∀ w ∈ s.wgs, w.suspended = true → s.restorable w = true → dieOf w.core = die → s.returns w = []) →
    s.served = g :: rest → g.lowest die = some wi → s.findRoom g wi die = some (core, r) →
    ∃ (t : State) (w : Workgroup), exec (.workgroupPlacement die) s = .next t ∧ t.wgs = s.wgs ++ [w] ∧ w.uid = s.sched.uid ∧ w.grid = g.uid ∧ w.core = core ∧
      w.wi = wi ∧ w.part = g.part ∧ w.ctx = g.ctx ∧ w.born = false ∧ w.rows = r.rows ∧ w.privRows = r.privRows ∧ w.thread = r.thread ∧
      w.warps = pkWarps g.packet ∧ w.entry = g.text ∧ w.lineage = g.lineage ∧ w.opdis = (s.ctx g.part g.ctx).opdis ∧
      (∃ ws : List Warp, t.warps = s.warps ++ ws ∧ ws.map (fun v => (v.core, v.slot)) = r.slots.map (fun x => (core, x)) ∧
        ∀ v ∈ ws, v.wg = w.uid ∧ v.slices = [] ∧ v.gangs = [] ∧ v.regs = []) ∧
      (∀ x ∈ r.rows ++ r.privRows, ∀ o, o < 256 → sparseWf unlisted s.mem.cells = true → sparseGet unlisted t.mem.cells (padKey core (256 * x + o)) = 0) ∧
      ∀ h ∈ t.dist.grids, h.uid = g.uid → (die, wi) ∉ h.unstarted) ∧
  (∀ (s : State) (g : Workgroup), s.findWg g.uid = some g → g.born = false → g.ended = false → g.saved = false →
    (s.ctx g.part g.ctx).gated = false → (s.grid g.grid).inh = 0 → g.isTask = false → (∀ c ∈ s.collies, c.wg ≠ g.uid) →
    let k := s.grid g.grid
    ∃ t : State, exec (.warpBirth g.uid) s = .next t ∧ t.mem = s.mem ∧ (t.wg g.uid).born = true ∧ (t.wg g.uid).versionOpen = true ∧
      t.warps.length = s.warps.length ∧
      (∀ (n : Nat) (w : Warp), s.warps[n]? = some w → w.wg ≠ g.uid → t.warps[n]? = some w) ∧
      (∀ (n : Nat) (w : Warp), s.warps[n]? = some w → w.wg = g.uid → ∃ v : Warp, t.warps[n]? = some v ∧
        v.slices = List.replicate (w.width / 4) { pc := g.entry } ∧ v.gangs = [{ slices := List.range (w.width / 4) }] ∧ v.regs = w.regs ∧
        v.p = w.p ∧ (∀ i, i < 4 → (sparseGet 0 v.s i).toNat = pkSarg k.packet i % 2 ^ 32) ∧
        ∀ i, i < k.caps.length → sparseGet ({} : Cap) v.c i = k.caps.getD i {}) ∧
      (g.thread = none → t.collies = s.collies) ∧
      (∀ th : Nat, g.thread = some th → ∃ c : Collie, t.collies = s.collies ++ [c] ∧ c.core = g.core ∧ c.thread = th ∧ c.wg = g.uid ∧
        c.x.pc = BitVec.ofNat 48 (256 * Config.colliePage k.text.toNat (kdCollieoff k.desc)) ∧ c.x.mode = 0 ∧ c.stopped = false ∧
        (sparseGet 0 c.x.s 0).toNat = g.wi % 2 ^ 32)) ∧
  (∀ s : State, (s.sched.now < s.dist.refilled + 2 ^ 20 → exec .energyRefill s = .next s) ∧
    (s.dist.refilled + 2 ^ 20 ≤ s.sched.now → sparseWf 0 s.dist.balance = true → ∃ t : State, exec .energyRefill s = .next t ∧ t.mem = s.mem ∧
      t.dist.refilled = s.dist.refilled + 2 ^ 20 ∧ t.dist.charged = s.dist.charged ∧
      ∀ p, p < 20 → t.balance p = if s.balance p < (s.energyOf p).2 then min (s.balance p + (s.energyOf p).1) (s.energyOf p).2 else s.balance p))

/-- R299 and R308 to R310: a dry die takes the higher half of the richest die's unstarted workgroups; a queued or forked task becomes a
workgroup of one warp at the entry of its record; a core whose deque is empty takes the record at the tail of another's, waiting
twice as long after each empty answer. -/
def Claims.WorkIsStolenAndTasksStart : Prop :=
  (∀ (s : State) (ctx lineage thief : Nat),
    let named (g : Grid) : Prop := g.ctx = ctx ∧ g.lineage = lineage ∧ thief < 4 ∧ g.owned thief = [] ∧
      (∃ c : Nat, dieOf c = thief ∧ (s.room g.part c g.desc (pkWarps g.packet)).isSome = true) ∧
      (∀ r ∈ s.dist.dieReplies, ¬ (r.grid = g.uid ∧ r.thief = thief)) ∧ thief ∉ g.dry ∧ s.placeable g = true
    ((∀ g ∈ s.dist.grids, ¬ named g) → exec (.dieStealRequest ctx lineage thief) s = .next s) ∧
    ((∃ g ∈ s.dist.grids, named g) → ∃ g ∈ s.dist.grids, named g ∧ ∀ v, v < 4 →
      (∀ d, d < 4 → (g.owned d).length ≤ (g.owned v).length) → (∀ d, d < v → (g.owned d).length < (g.owned v).length) →
      ∃ ceded : List Nat,
        exec (.dieStealRequest ctx lineage thief) s = .next
          (let t := s.nextFree.putGrid { g with unstarted := g.unstarted.filter fun e => !(e.1 == v && ceded.contains e.2) }
           { t with dist := { t.dist with dieReplies := t.dist.dieReplies ++ [⟨g.uid, thief, ceded⟩] } }) ∧
        ceded.length = ((g.owned v).length + 1) / 2 ∧ ((g.owned v).Nodup → ceded.Nodup) ∧ (∀ x ∈ ceded, x ∈ g.owned v) ∧
        ∀ x ∈ ceded, ∀ y ∈ g.owned v, y ∉ ceded → y ≤ x)) ∧
  (∀ (s : State) (idx : Nat) (r : DieReply) (g : Grid), s.dist.dieReplies[idx]? = some r → s.findGrid r.grid = some g →
    let t : State := { s with dist := { s.dist with dieReplies := s.dist.dieReplies.eraseIdx idx } }
    (r.ceded = [] → exec (.dieStealReply idx) s = .next (t.putGrid { g with dry := g.dry ++ [r.thief] })) ∧
    (r.ceded ≠ [] → exec (.dieStealReply idx) s = .next
      (t.putGrid { g with unstarted := g.unstarted ++ r.ceded.map (fun w => (r.thief, w)), dry := [] }))) ∧
  (∀ (s : State) (core part : Nat) (r : TaskRec) (rest : List TaskRec) (g : Grid) (room : Room),
    let queued := sparseGet [] s.dist.tasks (20 * core + part)
    let forked := sparseGet [] s.dist.deques (20 * core + part)
    (queued = r :: rest ∧ forked = []) ∨ (queued = [] ∧ forked = r :: rest) →
    (∀ q ∈ s.dist.taskRings, q.die = dieOf core → q.part = part → ∀ x ∈ q.items, (s.layout.taskHome part x.bits).2 ≠ core) →
    s.findGrid r.grid = some g → s.room g.part core g.desc 1 = some room → (s.ctx g.part g.ctx).runs = true → part ∉ s.resetting →
    ∃ (t : State) (w : Workgroup), exec (.taskStart core part) s = .next t ∧ t.wgs = s.wgs ++ [w] ∧ w.isTask = true ∧ w.record = r.bits ∧ w.forker = r.forker ∧
      w.opdis = (s.ctx g.part g.ctx).opdis ∧ w.taskid = 2 ^ 31 + g.taskSeq % 2 ^ 31 ∧ w.core = core ∧ w.grid = g.uid ∧ w.warps = 1 ∧ w.born = false ∧
      w.entry = g.text + BitVec.ofNat 48 (4 * (r.bits.toNat % 2 ^ 26)) ∧ (∀ h ∈ t.dist.grids, h.uid = g.uid → h.taskSeq = g.taskSeq + 1)) ∧
  (∀ (s : State) (thief part : Nat), sparseGet [] s.dist.deques (20 * thief + part) = [] → (s.thief thief part).asking = false →
    (s.thief thief part).until_ = 0 → part ∉ s.resetting → sparseWf [] s.dist.deques = true → sparseWf ({} : Thief) s.dist.thieves = true →
    (∃ g ∈ s.dist.grids, g.part = part ∧ pkTaskmode g.packet = 2 ∧ (s.ctx g.part g.ctx).runs = true ∧ (s.room part thief g.desc 1).isSome = true) →
    (∃ c ∈ s.layout.coresOf part, c ≠ thief) →
    ∃ (t : State) (victim : Nat), exec (.taskStealRequest thief part) s = .next t ∧ victim ∈ s.layout.coresOf part ∧ victim ≠ thief ∧
      let l := sparseGet [] s.dist.deques (20 * victim + part)
      t.dist.taskReplies = s.dist.taskReplies ++ [⟨part, thief, l.getLast?⟩] ∧ sparseGet [] t.dist.deques (20 * victim + part) = l.dropLast ∧
      (∀ k, k ≠ 20 * victim + part → sparseGet [] t.dist.deques k = sparseGet [] s.dist.deques k) ∧ (t.thief thief part).asking = true) ∧
  (∀ (s : State) (idx : Nat) (r : TaskReply), s.dist.taskReplies[idx]? = some r → sparseWf [] s.dist.deques = true →
    sparseWf ({} : Thief) s.dist.thieves = true → ∃ t : State, exec (.taskStealReply idx) s = .next t ∧
      t.dist.taskReplies = s.dist.taskReplies.eraseIdx idx ∧ (t.thief r.thief r.part).asking = false ∧
      (∀ x, r.task = some x → sparseGet [] t.dist.deques (20 * r.thief + r.part) = x :: sparseGet [] s.dist.deques (20 * r.thief + r.part) ∧
        (t.thief r.thief r.part).wait = 0) ∧
      (r.task = none → t.dist.deques = s.dist.deques ∧
        let w := if (s.thief r.thief r.part).wait = 0 then 64 else min 4096 (2 * (s.thief r.thief r.part).wait)
        (t.thief r.thief r.part).wait = w ∧ (t.thief r.thief r.part).until_ = s.sched.now + w)) ∧
  (∀ (s : State) (core part : Nat), (s.thief core part).until_ ≠ 0 →
    ((s.thief core part).until_ ≤ s.sched.now → exec (.stealBackoffExpiry core part) s = .next (s.putThief core part { s.thief core part with until_ := 0 })) ∧
    (s.sched.now < (s.thief core part).until_ → exec (.stealBackoffExpiry core part) s = .next s))

/-- How work comes to a core (R75, R76, R215, R231, R298 to R301, R308 to R310).
Where the spec leaves it open this rests on the model's choices, log entries 54, 55, 57, 58, 59, 79, 110. -/
def Obligations.WorkIsPlacedAndStolen : Prop :=
  Claims.WorkgroupsArePlacedAndBorn ∧ Claims.WorkIsStolenAndTasksStart

/-- R319, R323, R324, R330, R331 and R335: a claim takes the estate that stands under its key, or resolves as absent where none can come,
and delivers the values to its registers; an evicted estate arrives at its new place, or parks with a record on path ES where its area
does not translate; estates past their expiry become strays; the record of a stray is written with its tail and reported, those of one
retirement in increasing key order.
Where the spec leaves it open this rests on the model's choices, log entries 60, 62, 64. -/
def Obligations.EstatesArriveAndExpire : Prop :=
  (∀ (s : State) (w : Warp) (c : Claim), s.warps.find? (fun v => v.claims.any fun x => x.id == c.id) = some w →
    w.claims.find? (fun x => x.id == c.id) = some c → (s.ctxOf w.wg).gated = false →
    let g := s.wg w.wg
    (∀ e : Estate, c.taken = some e → sparseWf 0 w.regs = true → sparseWf 0 w.estat = true → ∃ v : Warp, exec (.estateArrival c.id) s = .next (s.putWarp v) ∧
      v.claims = w.claims.filter (fun x => x.id != c.id) ∧ v.pend = w.pend.filter (fun p => p.id != c.id) ∧ v.s = w.s ∧ v.slices = w.slices ∧
      (∀ r idx : Nat, c.entries = [(r, 0, [idx])] → r < e.count →
        sparseGet 0 v.regs (regKey idx c.lane) = BitVec.ofNat 32 (e.vals.getD r 0 % 2 ^ 32) ∧
        (e.count = 1 → e.widths % 4 = 0 → c.expect = none → e.place = .kennel w.core →
          sparseGet 0 v.estat c.lane = sparseGet 0 w.estat c.lane)) ∧
      (∀ r idx : Nat, c.entries = [(r, 0, [idx])] → e.count ≤ r → sparseGet 0 v.regs (regKey idx c.lane) = 0 ∧
        (c.slot < 4 → (sparseGet 0 v.estat c.lane).getLsbD (4 + c.slot) = true))) ∧
    (∀ e : Estate, c.taken = none → s.estateOf g.part g.ctx c.key = some e →
      let goes (y : Estate) : Prop := exec (.estateArrival c.id) s = .next
        ({ s with estates := s.estates.filter fun f => f.id != e.id }.putWarp
          { w with claims := w.claims.map fun (x : Claim) => if x.id = c.id then { x with taken := some y } else x })
      let units := unitsOf 16 e.addr (16 * e.units)
      let way (u : Nat) := s.translate 0xFFFF e.part e.ctx e.part (max e.addr (16 * u)) needR
      ((∀ d, e.place ≠ .area d) ∨ e.moving = true → goes e) ∧
      (∀ d, e.place = .area d → e.moving = false →
        (e.parked ≠ none → exec (.estateArrival c.id) s = .next s) ∧
        (e.parked = none → (∀ u ∈ units, ∃ x, way u = .ok x) → goes (s.estateNow e)) ∧
        (∀ u x, e.parked = none → u ∈ units → way u = .error x → (∀ v ∈ units, v < u → ∃ y, way v = .ok y) →
          exec (.estateArrival c.id) s = .next ((s.noteFault 0xFFFF e.part e.ctx (max e.addr (16 * u)) 3 1 x).putEstate
            { e with parked := some s.sched.uid })))) ∧
    (c.taken = none → s.estateOf g.part g.ctx c.key = none →
      (c.key / 2 ^ 40 ≠ g.lineage → (∃ h ∈ s.dist.grids, h.part = g.part ∧ h.ctx = g.ctx ∧ h.lineage = c.key / 2 ^ 40) →
        exec (.estateArrival c.id) s = .next s) ∧
      (c.key / 2 ^ 40 = g.lineage → sparseWf 0 w.estat = true → ∃ v : Warp, exec (.estateArrival c.id) s = .next (s.putWarp v) ∧
        v.claims = w.claims.filter (fun x => x.id != c.id) ∧ (c.slot < 4 → (sparseGet 0 v.estat c.lane).getLsbD c.slot = true)))) ∧
  (∀ (s : State) (e : Estate), s.estates.find? (fun f => f.id == e.id && f.moving && f.parked.isNone) = some e →
    (∀ w ∈ s.warps, ∀ c ∈ w.claims, c.id ≠ e.id) →
    let units := unitsOf 16 e.addr (16 * e.units)
    let way (u : Nat) := s.translate 0xFFFF e.part e.ctx e.part (max e.addr (16 * u)) needW
    let here : State := s.putEstate { e with moving := false }
    ((∀ d, e.place ≠ .area d) → exec (.estateArrival e.id) s = .next here) ∧
    (∀ d, e.place = .area d →
      ((∀ u ∈ units, ∃ x, way u = .ok x) → ∃ t, exec (.estateArrival e.id) s = .next t ∧ t.estates = here.estates ∧ t.warps = s.warps) ∧
      (∀ u x, u ∈ units → way u = .error x → (∀ v ∈ units, v < u → ∃ y, way v = .ok y) → exec (.estateArrival e.id) s =
        .next ((s.noteFault 0xFFFF e.part e.ctx (max e.addr (16 * u)) 3 2 x).putEstate { e with parked := some s.sched.uid })))) ∧
  (∀ (s : State) (ctx key : Nat), ∃ l : List Estate, exec (.estateExpiry ctx key) s = .next { s with estates := l } ∧ l.length = s.estates.length ∧
    ∀ (n : Nat) (e : Estate), s.estates[n]? = some e →
      let x := (s.ctx e.part e.ctx).expiry
      let old : Prop := e.ctx = ctx ∧ e.key = key ∧ x ≠ 0 ∧ e.born + x * 2 ^ 20 ≤ s.sched.now ∧ e.stray = none
      (old → l[n]? = some { e with stray := some 3, strayAt := s.sched.steps }) ∧ (¬ old → l[n]? = some e)) ∧
  (∀ (s : State) (e : Estate) (st p : Nat), e ∈ s.estates → e.stray = some st → (s.ctx e.part e.ctx).strayPtr ≠ 0 → e.moving = false →
    (∀ f ∈ s.estates, f.ctx = e.ctx → f.stray ≠ none →
      f = e ∨ (e.stray = some 1 ∧ f.stray = some 1 ∧ f.part = e.part ∧ f.strayAt = e.strayAt ∧ e.key < f.key)) → s.estates.Nodup →
    (∀ d, e.place = .area d → e.parked = none ∧ s.nextFree.failing e.part e.ctx e.addr (16 * e.units) 16 needR = none) →
    let c := s.ctx e.part e.ctx
    let head := p % 2 ^ 32
    let tail := p / 2 ^ 32
    let vals := ((List.range e.count).flatMap fun j => bytesOf (4 * 2 ^ (e.widths / 2 ^ (2 * j) % 4)) ((s.nextFree.estateNow e).vals.getD j 0)) ++ List.replicate 128 0
    let bs := bytesOf 8 e.key ++ bytesOf 1 e.count ++ bytesOf 1 st ++ bytesOf 2 e.widths ++ bytesOf 1 e.core ++ bytesOf 3 0 ++ vals.take 128
    s.rootNat e.part e.ctx c.strayPtr 8 = some p →
    (ringFull head tail c.straySize = true → exec (.strayRecordWrite e.ctx) s = .next s) ∧
    (ringFull head tail c.straySize = false → ∀ u v : State,
      s.nextFree.rootWrite e.part e.ctx (c.strayRing + 144 * (tail % c.straySize)) bs = some u →
      u.rootWrite e.part e.ctx (c.strayPtr + 4) (bytesOf 4 ((tail + 1) % 2 ^ 32)) = some v →
      ∃ (t : State) (r : Report), exec (.strayRecordWrite e.ctx) s = .next t ∧ t.mem = v.mem ∧ t.estates = s.estates.filter (fun f => f.id != e.id) ∧
        t.late = s.late ++ [r] ∧ r.cause = 0x5C ∧ r.ctx = e.ctx ∧ r.owner = e.part ∧ r.lineage = e.key / 2 ^ 40 ∧ r.core = e.core ∧
        r.arg0 = 1 ∧ r.arg1 = (tail + 1) % 2 ^ 32))

/-- Function fn starts command code in s with effect u: the command runs, to end with the given status and arg1. -/
def Begun (s : State) (fn code status arg1 : Nat) (u : State) : Host.Outcome State Fault Refusal :=
  .next (u.putFn fn { u.fn fn with cmddrop := false, cmd := some { code := code, args := (s.fn fn).cmdarg, status := status, arg1 := arg1 } })

/-- What function fn receives has effect f (R373): on a stream without keys, and on one with keys where it names a live set; one that
names another set is dropped and counted. -/
def Received (s : State) (fn : Nat) (f : State → State) (o : Host.Outcome State Fault Refusal) : Prop :=
  let st := Config.ideStream fn
  let key (set : Nat) := sparseGet 0 s.ide.keys (4 * st + 2 + set)
  let live (set : Nat) : Prop := set = sparseGet 0 s.ide.inUse (2 * st + 1) ∨ sparseGet 0 s.ide.former st = set + 1
  (key 0 = 0 → key 1 = 0 → o = .next (f s)) ∧
  (key 0 ≠ 0 ∨ key 1 ≠ 0 → ∃ set, set < 2 ∧ (live set → o = .next (f s.nextFree)) ∧
    (¬ live set → o = .next { s.nextFree with ide := { s.ide with dropped := s.ide.dropped + 1 } }))

/-- R361, R362, R368 and R373: registers hold what is written, with the bits that they do not hold dropped; writing 1 to the lost bit
clears it; a command code that names no command ends with status 2; a write through the aperture is performed where the
function's tag opens every byte; the oldest event is written to the ring once it has room. -/
def Claims.RegistersHoldWhatIsWritten : Prop :=
  ∀ (s : State) (fn : Nat), fn ≤ 20 →
    let f := s.fn fn
    exec (.pstatLostClear fn) s = .next (s.putFn fn { f with lost := false }) ∧
    (∀ v : BitVec 64,
      let n := v.toNat
      let holds (off : Nat) (g : State → State) : Prop := Received s fn g (exec (.registerWrite fn off v) s)
      let sets (off : Nat) (h : HostFn) : Prop := holds off fun t => t.putFn fn h
      sets 0x08 { f with ctxbase := n / 64 * 64 % 2 ^ 52 } ∧
      sets 0x10 { f with ctxcount := n } ∧
      (∀ k, k < 4 → f.cmdarg.length = 4 → ∃ l : List Nat, sets (0x80 + 8 * k) { f with cmdarg := l } ∧
        l.length = 4 ∧ ∀ j, j < 4 → l.getD j 0 = if j = k then n else f.cmdarg.getD j 0) ∧
      sets 0xC0 { f with evbase := n / 4096 * 4096 } ∧
      sets 0xC8 { f with evsize := n } ∧
      sets 0xD0 { f with evhead := n % 2 ^ 32 } ∧
      sets 0x100 { f with fqbase := n } ∧
      sets 0x108 { f with fqsize := n } ∧
      sets 0x110 { f with fqhead := n % 2 ^ 32 } ∧
      sets 0x200 { f with aperbase := n / 2 ^ 36 * 2 ^ 36 % 2 ^ 52 } ∧
      (fn = 0 → holds 0x2000 (fun t => { t with domain := { t.domain with domid := n % 256 } }) ∧
        holds 0x2008 fun t => { t with domain := { t.domain with domseq := n % 256 } }) ∧
      (∀ num : Nat, 1 ≤ fn → num < 256 →
        (∀ c, s.findCtx (fn - 1) num = some c → holds (0x1000 + 16 * num) fun t => t.putCtx { c with ringHead := n % 2 ^ 32 }) ∧
        (s.findCtx (fn - 1) num = none → holds (0x1000 + 16 * num) fun t =>
          { t with ctxs := t.ctxs ++ [{ num := num, owner := fn - 1, ringHead := n % 2 ^ 32 }] })) ∧
      (f.cmd = none → (n = 0 ∨ (6 < n ∧ n < 16) ∨ 19 < n) →
        sets 0xA0 { f with cmddrop := false, cmd := some { code := n, args := f.cmdarg, status := 2, arg1 := 0 } })) ∧
    (∀ (off : Nat) (bs : List (BitVec 8)) (w : Bool), off + bs.length ≤ 2 ^ 36 →
      let o := if fn = 0 then 20 else fn - 1
      let pa := f.aperbase + off
      let does (g : State → State) : Prop := Received s fn g (exec (.apertureAccess fn off w bs) s)
      (w = true → bs ≠ [] → (∀ k, pa ≤ k → k < pa + bs.length → s.layout.opens o k = true) →
        does fun t => t.withMem (t.mem.write o pa bs)) ∧
      (w = true → bs ≠ [] → s.layout.opens o pa = false → does id) ∧
      (w = false → does id)) ∧
    (∀ (e : HostEvent) (rest : List HostEvent), f.events = e :: rest →
      (f.evsize ≠ 0 → ringFull f.evhead f.evtail f.evsize = false → exec (.eventRingWrite fn) s = .next
        ((s.withMem (s.mem.write 0 (hostKey (f.evbase + 32 * (f.evtail % f.evsize)))
          (bytesOf 1 e.code ++ bytesOf 1 e.status ++ bytesOf 2 e.ctx ++ bytesOf 4 e.gen ++ bytesOf 8 e.arg0 ++ bytesOf 8 e.arg1 ++ bytesOf 8 0))).putFn fn
          { f with events := rest, evtail := (f.evtail + 1) % 2 ^ 32, msix := f.msix + 1 })) ∧
      (f.evsize = 0 ∨ ringFull f.evhead f.evtail f.evsize = true → exec (.eventRingWrite fn) s = .next s))

/-- R340, R356, R367 and R368: a command ends, with event 1, once what it waits for has happened; a new carve-out takes effect
once nothing checked against the old limits is under way; a replaced kernel's retirement is told by event 9. -/
def Claims.CommandsComplete : Prop :=
  (∀ (s : State) (fn : Nat) (c : Command), (s.fn fn).cmd = some c →
    let part := fn - 1
    let n := c.args.getD 0 0
    let named : Nat := if 1 ≤ c.code ∧ c.code ≤ 6 ∧ n < (s.fnOf part).ctxcount then n else 0xFFFF
    let done (t : State) : Host.Outcome State Fault Refusal := .next ((t.putFn fn { t.fn fn with cmd := none }).post fn
      { code := 1, status := c.status, ctx := named, gen := 0, arg0 := c.code, arg1 := c.arg1 })
    let saved (p x : Nat) : Prop := ∀ g ∈ s.wgs, g.part = p → g.ctx = x → g.saved = true ∨ g.released = true
    (c.status ≠ 0 ∨ c.code ∈ [2, 3, 5, 19] → exec (.commandComplete fn) s = done s) ∧
    (c.status = 0 → c.code = 1 →
      (∀ k : Context, s.findCtx part n = some k → k.loaded = true → saved part n →
        exec (.commandComplete fn) s = done (s.putCtx { k with preempting := none, saved := true })) ∧
      (¬ saved part n → exec (.commandComplete fn) s = .next s)) ∧
    (c.status = 0 → c.code = 4 →
      let va := c.args.getD 1 0
      let len := c.args.getD 2 0
      let waits : Prop := (∃ a ∈ s.mem.access, a.part = part ∧ a.ctx = n ∧ (a.note.isSome = true ∨
          (a.global = true ∧ a.sent.isSome = true ∧ a.addr < va + len ∧ va < a.addr + a.size))) ∨
        (∃ g ∈ s.wgs, g.part = part ∧ g.ctx = n ∧ ∃ h ∈ g.held, h.va < va + len ∧ va < h.va + h.size) ∨
        ∃ o ∈ s.pillows.ops, o.part = part ∧ o.ctx = n ∧ o.running = true
      (waits → exec (.commandComplete fn) s = .next s) ∧ (¬ waits → exec (.commandComplete fn) s = done s)) ∧
    (c.status = 0 → c.code = 6 → (∀ g ∈ s.wgs, g.part = part → g.ctx = n → s.taskOver g.uid = true) → exec (.commandComplete fn) s = done s) ∧
    (c.status = 0 → c.code = 6 → (∃ g ∈ s.wgs, g.part = part ∧ g.ctx = n ∧ s.taskOver g.uid = false) → exec (.commandComplete fn) s = .next s) ∧
    (∀ l : Layout, c.status = 0 → c.code = 16 → s.newLayout = some l → (∀ k ∈ s.layoutContexts l, saved k.owner k.num) →
      ∃ t : State, exec (.commandComplete fn) s = done t ∧ t.layout = l ∧ t.newLayout = none ∧
        t.ctxs = s.ctxs.map fun (k : Context) => if k.laid then { k with saved := false, preempting := none, laid := false } else k) ∧
    (c.status = 0 → c.code = 17 → (s.carving = none → exec (.commandComplete fn) s = done s) ∧
      (s.carving ≠ none → exec (.commandComplete fn) s = .next s)) ∧
    (c.status = 0 → c.code = 18 → (n ∉ s.resetting → exec (.commandComplete fn) s = done s) ∧
      (n ∈ s.resetting → exec (.commandComplete fn) s = .next s))) ∧
  (∀ (s : State) (c : CarveChange), s.carving = some c → c.die < 4 → s.layout.carve.length = 4 →
    let quiet : Prop := (∀ a ∈ s.mem.access, a.global = false → ¬ (dieKey c.die 0 ≤ a.addr ∧ a.addr < dieKey c.die 0 + 2 ^ 26)) ∧
      (∀ k ∈ s.copies, k.done = true ∨ k.faulted = true) ∧ ∀ o ∈ s.pillows.ops, o.running = false
    (¬ quiet → exec .carveSwitch s = .next s) ∧
    (quiet → sparseWf ({} : DieShare) s.layout.dies = true → ∃ t : State, exec .carveSwitch s = .next t ∧ t.carving = none ∧
      t.layout.gen = s.layout.gen + 1 ∧ t.layout.carve.getD c.die 0 = c.w ∧ t.layout.ranges = s.layout.ranges ∧
      (∀ p, p < 20 → t.layout.dieShare p c.die = c.shares.getD p {}) ∧
      ∀ fn, fn < 21 → sparseWf ({} : HostFn) s.fns = true →
        (t.fn fn).events = (s.fn fn).events ++ [{ code := 8, gen := s.layout.gen + 1, arg0 := s.layout.gen + 1 }])) ∧
  (∀ (s : State) (idx : Nat) (r : Replaced), s.replaced[idx]? = some r →
    ((∀ u ∈ r.grids, s.findGrid u = none) → exec (.replaceRetired idx) s = .next
      (({ s with replaced := s.replaced.eraseIdx idx } : State).post r.fn { code := 9, ctx := r.ctx, gen := 0, arg0 := r.kref, arg1 := r.gen })) ∧
    ((∃ u ∈ r.grids, (s.findGrid u).isSome = true) → exec (.replaceRetired idx) s = .next s))

/-- The registers of the functions and how their commands end (R340, R356, R361 to R368).
Where the spec leaves it open this rests on the model's choices, log entries 6, 86, 88, 89, 91, 92, 93, 100, 133. -/
def Obligations.RegistersAndCommandsOfFunctions : Prop :=
  Claims.RegistersHoldWhatIsWritten ∧ Claims.CommandsComplete

/-- R218, R220, R330, R343, R356, R365 and R367: the commands of a virtual function take effect on its partition's context in
range, one at a time, and end with the status that R367 gives. -/
def Claims.PartitionCommandsTakeEffect : Prop :=
  ∀ (s : State) (fn : Nat), 1 ≤ fn → fn ≤ 20 →
    let part := fn - 1
    let f := s.fn fn
    let n := f.cmdarg.getD 0 0
    let a (k : Nat) : Nat := f.cmdarg.getD k 0
    let c := s.ctx part n
    let all : List (Nat × Instr) := [(1, .preempt fn), (2, .urgent fn), (3, .resume fn), (4, .inval fn), (5, .replace fn), (6, .ctxkill fn)]
    (∀ k ∈ all, f.cmd.isSome = true → exec k.2 s = .next (s.putFn fn { f with cmddrop := true })) ∧
    (∀ k ∈ all, f.cmd = none → s.mgmt.safe = true → exec k.2 s = Begun s fn k.1 2 0 s) ∧
    (f.cmd = none → s.mgmt.safe = false →
      (f.ctxcount ≤ n → ∀ k ∈ all, exec k.2 s = Begun s fn k.1 1 0 s) ∧
      (n < f.ctxcount →
        exec (.preempt fn) s = Begun s fn 1 0 0 (s.putCtx { c with preempting := some s.sched.now, laid := false }) ∧
        exec (.urgent fn) s = Begun s fn 2 0 0 (s.putCtx { c with gated := true }) ∧
        (c.stopped = true → exec (.resume fn) s = Begun s fn 3 2 0 s) ∧
        (c.stopped = false → ∃ l : Bool, (l = true ↔ ∃ y, s.newLayout = some y ∧ s.layout.differs y part = true) ∧
          let runs (d : Context) : Context :=
            { d with saved := false, gated := decide (part ∈ s.resetting), laid := l
                     preempting := if l then some (c.preempting.getD s.sched.now) else none }
          let work : Prop := ∃ g ∈ s.wgs, g.part = part ∧ g.ctx = n
          (c.loaded = false → ¬ work → exec (.resume fn) s = Begun s fn 3 0 0 (s.putCtx (runs c))) ∧
          (c.loaded = true ∨ work →
            (∀ d : Context, s.readContext part n = .ok d →
              exec (.resume fn) s = Begun s fn 3 0 0 (((if c.gated then s.wakeMonitors part n else s).relocateSaved d).putCtx (runs d))) ∧
            (∀ k : Nat, s.readContext part n = .error k → exec (.resume fn) s = Begun s fn 3 2 0
              ((if k = 255 then s else s.post fn { code := 3, ctx := n, gen := 0, arg0 := k }).putCtx { c with loaded := false })))) ∧
        (a 1 + a 2 ≤ 2 ^ 56 → ∃ l : List TlbEntry, exec (.inval fn) s = Begun s fn 4 0 0 (s.withMem { s.mem with tlb := l }) ∧
          ∀ e, e ∈ l ↔ e ∈ s.mem.tlb ∧ ¬ (e.part = part ∧ e.ctx = n ∧ e.page * 2 ^ levelShift e.level < a 1 + a 2 ∧
            a 1 < (e.page + 1) * 2 ^ levelShift e.level)) ∧
        (2 ^ 56 < a 1 + a 2 → exec (.inval fn) s = Begun s fn 4 1 0 s) ∧
        (∀ (e gen : Nat) (u v : State), a 1 < 2 ^ 32 → a 2 < 2 ^ 48 → a 3 < 2 ^ 56 → s.kernelEntry part n (a 1) = some e →
          s.rootNat part n (e + 20) 4 = some gen → s.rootWrite part n e (bytesOf 8 (a 2) ++ bytesOf 8 (a 3)) = some u →
          u.rootWrite part n (e + 20) (bytesOf 4 ((gen + 1) % 2 ^ 32)) = some v →
          ∃ l : List Nat, exec (.replace fn) s = Begun s fn 5 0 ((gen + 1) % 2 ^ 32)
            { v with replaced := v.replaced ++ [⟨fn, n, a 1, (gen + 1) % 2 ^ 32, l⟩] } ∧
            ∀ x ∈ l, ∃ g ∈ s.dist.grids, g.uid = x ∧ g.part = part ∧ g.ctx = n ∧ pkKernel g.packet = a 1) ∧
        (s.findCtx part n = some c → ∃ u : State, exec (.ctxkill fn) s = Begun s fn 6 0 0 u ∧ (u.ctx part n).loaded = false ∧
          (u.ctx part n).stopped = c.stopped ∧
          (∀ e ∈ u.dist.tasks ++ u.dist.deques, ∀ r ∈ e.2, ∀ g ∈ u.dist.grids, g.uid = r.grid → ¬ (g.part = part ∧ g.ctx = n)) ∧
          (∀ e ∈ u.estates, ¬ (e.part = part ∧ e.ctx = n)) ∧ (∀ g ∈ u.wgs, g.part = part → g.ctx = n → g.ended = true) ∧
          ∀ g ∈ u.dist.grids, g.part = part → g.ctx = n → g.unstarted = [])))

/-- R340, R369, R372 and R374: the commands of the physical function: a valid layout image waits for the contexts it pre-empts, a
carve-out waits for its switch, a partition begins its reset, and a domain map is installed; an argument that is not valid ends
the command with status 1. -/
def Claims.PackageCommandsTakeEffect : Prop :=
  ∀ s : State,
    let f := s.fn 0
    let a (k : Nat) : Nat := f.cmdarg.getD k 0
    let all : List (Nat × Instr) := [(16, .layout 0), (17, .carve 0), (18, .preset 0), (19, .dommap 0)]
    (∀ k ∈ all, f.cmd.isSome = true → exec k.2 s = .next (s.putFn 0 { f with cmddrop := true })) ∧
    (∀ k ∈ all, f.cmd = none → s.mgmt.safe = true → exec k.2 s = Begun s 0 k.1 2 0 s) ∧
    (f.cmd = none → s.mgmt.safe = false →
      (∀ l : Layout, s.parseLayout (a 0) = some l →
        (l.valid = false → exec (.layout 0) s = Begun s 0 16 1 0 s) ∧
        (l.valid = true → exec (.layout 0) s = Begun s 0 16 0 0 { s with
          newLayout := some l
          ctxs := s.ctxs.map fun (c : Context) =>
            if c.loaded && s.layout.differs l c.owner && !c.saved && c.preempting.isNone then
              { c with preempting := some s.sched.now, laid := true } else c })) ∧
      (s.parseLayout (a 0) = none → exec (.layout 0) s = Begun s 0 16 1 0 s) ∧
      (∀ vs : List Nat, vs.length = 20 → (∀ p, p < 20 → s.physNat (a 2 + 122944 + 32 * (4 * p + a 0)) 32 = some (vs.getD p 0)) →
        let shares := vs.map fun v => ({ off := v % 2 ^ 16, len := v / 2 ^ 16 % 2 ^ 16
                                         reserve := (List.range 12).map fun c => v / 2 ^ (32 + 16 * c) % 2 ^ 16 } : DieShare)
        let ok : Prop := a 0 < 4 ∧ a 1 ≤ 4 ∧ (∀ v ∈ vs, v / 2 ^ 224 % 2 ^ 32 = 0) ∧ ∀ d ∈ shares, d.off + d.len ≤ 16 * (32 + 8 * a 1)
        (ok → exec (.carve 0) s = Begun s 0 17 0 0 { s with carving := some ⟨a 0, a 1, shares⟩ }) ∧
        (¬ ok → exec (.carve 0) s = Begun s 0 17 1 0 s)) ∧
      (20 ≤ a 0 → exec (.preset 0) s = Begun s 0 18 1 0 s) ∧
      (a 0 < 20 → ∃ u : State, exec (.preset 0) s = Begun s 0 18 0 0 u ∧ a 0 ∈ u.resetting ∧
        (a 0 ∉ s.resetting → (∀ c ∈ u.ctxs, c.owner = a 0 → c.gated = true) ∧ (sparseWf 0 s.resetCause = true → sparseGet 0 u.resetCause (a 0) = 1))) ∧
      (∀ vs : List Nat, vs.length = 256 → (∀ d, d < 256 → s.physNat (a 0 + 32 * d) 32 = some (vs.getD d 0)) → s.domain.map = [] →
        let entry (d : Nat) : List (Option Nat) := (List.range 22).map fun j =>
          let b := vs.getD d 0 / 2 ^ (8 * j) % 256
          if 128 ≤ b then some (b % 32) else none
        ∃ m : Domain, exec (.dommap 0) s = Begun s 0 19 0 0 { s with domain := m } ∧ m.domid = s.domain.domid ∧ m.lost = s.domain.lost ∧
          (∀ d o, d < 256 → m.tag d o = ((entry d)[o]?).join) ∧
          ∀ d, d < 256 → (d ∈ m.remapped ↔ d ∈ s.domain.lost ∧ ∃ x ∈ entry d, x ≠ none)))

/-- What each command does (R218, R220, R340, R343, R356, R365 to R374).
Where the spec leaves it open this rests on the model's choices, log entries 51, 85, 86, 87, 88, 89, 90, 91, 131. -/
def Obligations.CommandsTakeEffect : Prop :=
  Claims.PartitionCommandsTakeEffect ∧ Claims.PackageCommandsTakeEffect

/-- R349, R350, R371 and R372: the reset of a partition that has begun discards everything of it, makes its memory noise and posts
event 4; a function level reset, the disabling of the virtual functions and an uncorrectable error begin resets; once the scrub
is complete the partition's unwritten memory reads as zero.
Where the spec leaves it open this rests on the model's choices, log entries 42, 90, 109. -/
def Obligations.PartitionsAreReset : Prop :=
  (∀ (s : State) (part cause : Nat), part < 20 → part ∈ s.resetting → sparseGet 0 s.resetCause part = cause →
    (cause = 2 → ∀ p ∈ s.resetting, p < part → sparseGet 0 s.resetCause p ≠ 2) → sparseWf ({} : HostFn) s.fns = true →
    let e : HostEvent := { code := 4, gen := s.layout.gen, arg0 := part, arg1 := cause }
    ∃ t : State, exec (.partitionReset part cause) s = .next t ∧ part ∉ t.resetting ∧ (∀ g ∈ t.wgs, g.part ≠ part) ∧
      (∀ w ∈ t.warps, w ∈ s.warps ∧ ∀ g ∈ s.wgs, g.uid = w.wg → g.part ≠ part) ∧ (∀ g ∈ t.dist.grids, g.part ≠ part) ∧
      (∀ x ∈ t.estates, x.part ≠ part) ∧ (∀ b ∈ t.mem.binds, b.part ≠ part) ∧ (∀ x ∈ t.mem.tlb, x.part ≠ part) ∧
      (∀ c ∈ t.ctxs, c.owner = part → c.loaded = false ∧ c.tagkey = none ∧ c.gated = false ∧ c.nextLineage = 1) ∧
      (∀ r ∈ s.layout.ranges, r.owner = part → ⟨r.base, r.base + r.length, part, true⟩ ∈ t.mem.noise) ∧
      (t.fn 0).events = (s.fn 0).events ++ [e] ∧ (t.fn (part + 1)).events = (s.fn (part + 1)).events ++ (if cause = 2 then [] else [e])) ∧
  (∀ (s : State) (vf : Nat), 1 ≤ vf → vf ≤ 20 → vf - 1 ∉ s.resetting → sparseWf 0 s.resetCause = true →
    ∃ t : State, exec (.functionLevelReset vf) s = .next t ∧ t.resetting = s.resetting ++ [vf - 1] ∧ sparseGet 0 t.resetCause (vf - 1) = 5 ∧
      (∀ c ∈ t.ctxs, c.owner = vf - 1 → c.gated = true) ∧ t.mem = s.mem) ∧
  (∀ s : State, sparseWf 0 s.resetCause = true → ∃ t : State, exec .vfDisable s = .next t ∧ t.late = s.late ∧ t.mem = s.mem ∧
    ∀ p, p < 20 → p ∈ t.resetting ∧ sparseGet 0 t.resetCause p = 2 ∧ (p ∉ s.resetting → ∀ c ∈ t.ctxs, c.owner = p → c.gated = true)) ∧
  (∀ (s : State) (pa acc : Nat), sparseWf 0 s.resetCause = true →
    (∀ o, s.layout.owner pa = some o → o < 20 → o ∉ s.resetting → ∃ t : State, exec (.memoryError pa acc) s = .next t ∧
      t.resetting = s.resetting ++ [o] ∧ sparseGet 0 t.resetCause o = 3 ∧
      ∀ c ∈ s.ctxs, c.owner = o → c.loaded = true → ∃ r ∈ t.late, r.ctx = c.num ∧ r.owner = o ∧ r.cause = 0x60 ∧ r.addr = pa) ∧
    (s.layout.owner pa = some 20 → acc < 20 → acc ∉ s.resetting → ∃ t : State, exec (.memoryError pa acc) s = .next t ∧
      t.resetting = s.resetting ++ [acc] ∧ sparseGet 0 t.resetCause acc = 3) ∧
    (∀ o, s.layout.owner pa = some o → 20 < o → s.mc.etrap = 0 → ∃ t : State, exec (.memoryError pa acc) s = .next t ∧
      t.mc.x.pc = BitVec.ofNat 48 (s.mc.mvec.toNat + 48) ∧ t.mc.epc = s.mc.x.pc ∧ t.mc.etrap = 0x60 ∧ t.resetting = s.resetting) ∧
    (∀ o, s.layout.owner pa = some o → sparseWf 0 s.mgmt.ue = true → ∃ t : State, exec (.memoryError pa acc) s = .next t ∧
      ∀ i, i = 0 ∨ i = 21 + homeDie pa → sparseGet 0 t.mgmt.ue i = sparseGet 0 s.mgmt.ue i + 1)) ∧
  (∀ (s : State) (part : Nat), (∃ x ∈ s.mem.noise, x.part = part ∧ x.scrub = true) → sparseWf unlisted s.mem.cells = true →
    sparseWf ({} : HostFn) s.fns = true → ∃ t : State, exec (.scrubComplete part) s = .next t ∧
      t.mem.noise = s.mem.noise.filter (fun x => !(x.part == part && x.scrub)) ∧
      (∀ x ∈ s.mem.noise, x.part = part → x.scrub = true → ∀ k, x.lo ≤ k → k < x.hi → sparseGet unlisted t.mem.cells k = 0) ∧
      (t.fn (part + 1)).events = (s.fn (part + 1)).events ++ [{ code := 7, gen := s.layout.gen, arg0 := part }])

/-- R378, R379 and R382 to R386: a reset of the package leaves every unit as at reset, but for the flash and the host's
memory; the end of the self-test measures boot and decides about the safe state; an activation resets the controller, whose failed
test puts the other bank back; the watchdog vectors the controller; engine resets and activations take place at idle points, not in
the safe state.
Where the spec leaves it open this rests on the model's choices, log entries 4, 99, 101, 102, 103, 104. -/
def Obligations.ThePackageIsReset : Prop :=
  (∀ s : State, ∃ t u : State, exec .packageColdReset s = .next t ∧ exec .warm s = .next u ∧
    (∀ v, v = t ∨ v = u → v.warps = [] ∧ v.wgs = [] ∧ v.collies = [] ∧ v.copies = [] ∧ v.estates = [] ∧ v.ctxs = [] ∧ v.fns = [] ∧
      v.late = [] ∧ v.dist = State.reset.dist ∧ v.pillows = State.reset.pillows ∧ v.layout = State.reset.layout ∧ v.domain = State.reset.domain ∧
      v.ide = State.reset.ide ∧ v.mem.access = [] ∧ v.mem.tags = [] ∧ v.mem.tlb = [] ∧ v.mc.x = {} ∧ v.mc.mvec = 0 ∧ v.mc.etrap = 0 ∧
      v.mgmt.bootedB = s.mgmt.currentB ∧ v.mgmt.currentB = s.mgmt.currentB ∧ v.mgmt.imgA = s.mgmt.imgA ∧ v.mgmt.imgB = s.mgmt.imgB ∧
      v.mgmt.ready = false ∧ v.mgmt.sessions = [] ∧ v.mgmt.mr = [] ∧ v.mgmt.pend = [] ∧ v.mgmt.refreshed = s.sched.now ∧
      v.mgmt.bankA = s.mgmt.bankA ∧ v.mgmt.bankB = s.mgmt.bankB ∧
      (∀ k, hostKey 0 ≤ k → sparseGet unlisted v.mem.cells k = sparseGet unlisted s.mem.cells k) ∧
      (∀ k, k < hostKey 0 → sparseGet unlisted v.mem.cells k = 0)) ∧
    (∀ k, k < 2 ^ 52 → t.mem.byte 0 k = 0 ∧ u.mem.noisy 0 k = true)) ∧
  (∀ (s : State) (l : List Nat),
    let bank : Bool := if (∃ u ∈ l, 8 ≤ Config.unitKind (u / 256)) ∧ s.mgmt.otherValid = true then !s.mgmt.bootedB else s.mgmt.currentB
    (s.mgmt.ready = true → exec (.selfTestComplete l) s = .next
      (if s.mgmt.testing then { s with mgmt := { s.mgmt with testing := false, currentB := bank } } else s)) ∧
    (s.mgmt.ready = false → ∃ m : Mgmt, exec (.selfTestComplete l) s = .next { s with mgmt := m } ∧ m.ready = true ∧
      (m.safe = true ↔ l ≠ []) ∧ m.failing = l ∧ m.bootedB = s.mgmt.bootedB ∧ m.testing = false ∧
      m.currentB = (if s.mgmt.testing then bank else s.mgmt.currentB) ∧ m.engines = s.mgmt.engines ∧
      let record := bytesOf 4 l.length ++ (List.range 12).flatMap (fun i => bytesOf 2 (l.getD i 0)) ++ bytesOf 4 0
      let ext (v : BitVec 256) (x : List (BitVec 8)) : BitVec 256 := BitVec.ofNat 256 (natOf (sha256 (bytesOf 32 v.toNat ++ x)))
      sparseGet 0 m.mr 0 = ext 0 (bytesOf 32 Config.romDigest.toNat) ∧ sparseGet 0 m.mr 3 = ext 0 (bytesOf 32 Config.fuseDigest.toNat) ∧
      sparseGet 0 m.mr 4 = ext 0 (sha256 record))) ∧
  (∀ s : State, s.mgmt.due = false ∨ s.mgmt.safe = true → exec .controllerReset s = .next s) ∧
  (∀ s : State, s.mgmt.due = true → s.mgmt.safe = false → ∃ t : State, exec .controllerReset s = .next t ∧ t.mc.x = {} ∧ t.mc.parked = false ∧ t.mc.mvec = 0 ∧ t.mc.etrap = 0 ∧
    t.mc.ecause = 0 ∧ t.mc.resetAt = s.sched.now ∧ t.mc.wdogAt = s.sched.now ∧ t.mgmt.sessions = [] ∧ t.mgmt.muq = [] ∧ t.mgmt.stage = 0 ∧
    t.mgmt.slots = [[], [], []] ∧ t.mgmt.bootedB = s.mgmt.currentB ∧ t.mgmt.due = false ∧
    (t.mgmt.testing = true ↔ s.mgmt.bootedB ≠ s.mgmt.currentB) ∧ t.mgmt.refreshed = s.sched.now ∧ t.mgmt.telem = s.mgmt.telem ∧ t.warps = s.warps ∧ t.wgs = s.wgs ∧
    ∀ k o, k < 2 ^ 55 → t.mem.noisy o k = s.mem.noisy o k ∧ t.mem.byte o k = s.mem.byte o k) ∧
  (∀ s : State, (s.sched.now < s.mc.wdogAt + 2 ^ 24 → exec .watchdog s = .next s) ∧
    (s.mc.wdogAt + 2 ^ 24 ≤ s.sched.now → s.mc.etrap = 0 → ∃ t : State, exec .watchdog s = .next t ∧
      t.mc.x.pc = BitVec.ofNat 48 (s.mc.mvec.toNat + 64) ∧ t.mc.epc = s.mc.x.pc ∧ t.mc.etrap = 0x61 ∧ t.mc.x.s = s.mc.x.s ∧
      t.mc.parked = false ∧ t.mc.wdogAt = s.sched.now) ∧
    (s.mc.wdogAt + 2 ^ 24 ≤ s.sched.now → s.mc.etrap ≠ 0 → ∃ t : State, exec .watchdog s = .next t ∧ t.mc.x = {} ∧ t.mc.etrap = 0)) ∧
  (∀ (s : State) (unit idx : Nat), unit < 256 → idx < 256 →
    (Config.unitKind unit < 8 → exec (.ereset unit idx) s = .next { s with mgmt := { s.mgmt with ereset := s.mgmt.ereset ++ [(unit, idx)] } }) ∧
    (8 ≤ Config.unitKind unit → exec (.ereset unit idx) s = .next s)) ∧
  (∀ (s : State) (unit idx : Nat), s.mgmt.ereset = [(unit, idx)] →
    let kind := Config.unitKind unit
    let after (t : State) : State := { t with mgmt := { t.mgmt with ereset := [] } }
    let empty : Prop := ∀ g ∈ s.wgs, g.core = idx → g.released = true ∨ g.saved = true
    let still : Prop := (∀ c ∈ s.collies, c.core = idx → c.stopped = true) ∧ ∀ c ∈ s.copies, c.core = idx → c.done = true ∨ c.faulted = true
    let loses (t : State) (lo hi : Nat) : Prop := exec .engineReset s = .next t ∧ t.mgmt = (after s).mgmt ∧ t.wgs = s.wgs ∧
      ∀ k o, o < 32 → (lo ≤ k → k < hi → t.mem.noisy o k = true) ∧ (k < lo ∨ hi ≤ k → t.mem.byte o k = s.mem.byte o k)
    (kind = 0 ∨ kind = 2 ∨ kind = 3 → ¬ empty → exec .engineReset s = .next s) ∧
    (kind = 1 ∨ kind = 5 → ¬ still → exec .engineReset s = .next s) ∧
    (kind = 0 → empty → ∃ t, loses t (2 ^ 52 + idx * 2 ^ 20) (2 ^ 52 + (idx + 1) * 2 ^ 20) ∧
      t.mem.tlb = s.mem.tlb.filter fun e => e.scope != idx) ∧
    (kind = 2 → empty → ∃ t, loses t (2 ^ 54 + idx * 2 ^ 17) (2 ^ 54 + (idx + 1) * 2 ^ 17) ∧
      ∀ k, sparseWf 0 s.pillows.elems = true →
        sparseGet 0 t.pillows.elems k = if k / (4096 * 32) = idx then 0 else sparseGet 0 s.pillows.elems k) ∧
    (kind = 3 → empty → (s.emptyKennel idx = none → exec .engineReset s = .next s) ∧
      ∀ t, s.emptyKennel idx = some t → exec .engineReset s = .next (after t)) ∧
    (kind = 7 →
      let granted (d : Nat) : Prop := d < 256 ∧ Config.portOf d = idx ∧ sparseGet [] s.domain.map d ≠ [] ∧ s.domain.isLost d = false ∧
        sparseGet 0 s.domain.flits d < Config.windowFlits
      ((∃ d, granted d) → exec .engineReset s = .next s) ∧
      ((∀ d, ¬ granted d) → ∃ l : List Nat, exec .engineReset s = .next (after (l.foldl State.loseDevice s.nextFree)) ∧
        ∀ d ∈ l, d < 256 ∧ Config.portOf d = idx ∧ (sparseGet [] s.domain.map d ≠ [] ∨ ∃ a ∈ s.mem.access, a.sent = some d))) ∧
    ((kind = 1 ∨ kind = 5) ∧ still ∨ kind = 4 ∨ kind = 6 → exec .engineReset s = .next (after s))) ∧
  (∀ (s : State) (k : Nat) (ok : Bool),
    let image (b : Bool) : Nat := if b then s.mgmt.imgB else s.mgmt.imgA
    let ready (e : Nat × Nat) : Prop := e ∈ s.mgmt.pend ∧ e.1 = k ∧ s.engineIdle e.1 e.2 = true
    (s.mgmt.safe = true → exec (.engineActivation k ok) s = .next s) ∧
    ((∀ e, ¬ ready e) → exec (.engineActivation k ok) s = .next s) ∧
    (s.mgmt.safe = false → (∃ e, ready e) → ∃ e, ready e ∧
      (ok = false → ∃ m : Mgmt, exec (.engineActivation k ok) s = .next { s.nextFree with mgmt := m } ∧ m.currentB = !s.mgmt.currentB ∧
        m.pend = [] ∧ m.due = false ∧ m.engines = List.replicate 8 (image !s.mgmt.currentB) ∧ m.mr = s.mgmt.mr ∧
        m.replies = s.mgmt.replies ++ [{ code := 0x514, params := [1, k] }]) ∧
      (ok = true → s.nextFree.resetEngine k e.2 = none → exec (.engineActivation k ok) s = .next s) ∧
      (ok = true → ∀ t, s.nextFree.resetEngine k e.2 = some t → ∃ m : Mgmt, exec (.engineActivation k ok) s = .next { t with mgmt := m } ∧
        m.pend = t.mgmt.pend.erase e ∧
        (t.mgmt = s.mgmt → k < 8 → s.mgmt.engines.length = 8 →
          (∀ j, j < 8 → m.engines.getD j 0 =
            if j = k ∧ (∀ f ∈ m.pend, f.1 ≠ k) then image s.mgmt.currentB else s.mgmt.engines.getD j 0) ∧
          sparseGet 0 m.mr 2 = BitVec.ofNat 256 (natOf (sha256 (bytesOf 32 (sparseGet 0 s.mgmt.mr 2).toNat ++
            bytesOf 32 (Config.componentDigest (image s.mgmt.currentB) k).toNat)))))))

/-- R373 and R381: within a session a key set gets its key and is switched to; a completion that names a live set is taken and any
other dropped and counted; the telemetry records are refreshed once in 2^20 cycles and read out one by one. -/
def Claims.LinksAreKeyedAndTelemetryKept : Prop :=
  (∀ (s : State) (stream set : Nat) (rx : Bool) (key : BitVec 256), stream < 9 → set < 2 →
    let dir := if rx then 1 else 0
    let old := sparseGet 0 s.ide.inUse (2 * stream + dir)
    (s.mgmt.sessions = [] → exec (.ideKm stream rx set key) s = .next s) ∧
    (s.mgmt.sessions ≠ [] → sparseWf 0 s.ide.keys = true → sparseWf 0 s.ide.inUse = true → ∃ t : State, exec (.ideKm stream rx set key) s = .next t ∧
      t.mem = s.mem ∧ sparseGet 0 t.ide.keys (4 * stream + 2 * dir + set) = key ∧ sparseGet 0 t.ide.inUse (2 * stream + dir) = set ∧
      (∀ k, k ≠ 4 * stream + 2 * dir + set → sparseGet 0 t.ide.keys k = sparseGet 0 s.ide.keys k) ∧ t.ide.dropped = s.ide.dropped ∧
      (rx = false ∨ old = set → t.ide.former = s.ide.former ∧ t.ide.requests = s.ide.requests))) ∧
  (∀ (s : State) (tag set stream : Nat) (b : Bool), s.ide.requests.find? (fun r => r.1 == tag) = some (tag, stream, b) →
    (set = sparseGet 0 s.ide.inUse (2 * stream + 1) ∨ sparseGet 0 s.ide.former stream = set + 1 → ∃ d : Ide,
      exec (.completionArrival tag set) s = .next { s with ide := d } ∧ d.requests = s.ide.requests.filter (fun r => r.1 != tag) ∧
      d.dropped = s.ide.dropped ∧ d.keys = s.ide.keys) ∧
    (set ≠ sparseGet 0 s.ide.inUse (2 * stream + 1) → sparseGet 0 s.ide.former stream ≠ set + 1 →
      exec (.completionArrival tag set) s = .next { s with ide := { s.ide with dropped := s.ide.dropped + 1 } }) ∧
    (∃ d : Ide, exec (.completionTimeout tag) s = .next { s with ide := d } ∧ d.requests = s.ide.requests.filter (fun r => r.1 != tag) ∧
      d.dropped = s.ide.dropped ∧
      ((∀ r ∈ s.ide.requests, r.2.1 = stream → r.2.2 = true → r.1 = tag) → sparseWf 0 s.ide.former = true → sparseGet 0 d.former stream = 0))) ∧
  (∀ s : State, (s.sched.now < s.mgmt.refreshed + 2 ^ 20 → exec .telemetryRefresh s = .next s) ∧
    (s.mgmt.refreshed + 2 ^ 20 ≤ s.sched.now → sparseWf ({} : Telemetry) s.mgmt.telem = true → ∃ m : Mgmt,
      exec .telemetryRefresh s = .next { s with mgmt := m } ∧ m.refreshed = s.mgmt.refreshed + 2 ^ 20 ∧
      (∀ i, i < 25 → let r : Telemetry := sparseGet {} m.telem i
        r.seq = ((sparseGet {} s.mgmt.telem i : Telemetry).seq + 1) % 2 ^ 32 ∧ r.time = s.sched.now - s.mc.resetAt ∧
        r.ue = sparseGet 0 s.mgmt.ue i ∧ r.flags.testBit 1 = s.mgmt.safe ∧ r.flags.testBit 2 = !s.mgmt.pend.isEmpty ∧
        r.idedrop = if i = 0 then s.ide.dropped else 0) ∧
      ∀ p, p < 20 → (sparseGet {} m.telem (p + 1) : Telemetry).balance = s.balance p ∧
        (sparseGet {} m.telem (p + 1) : Telemetry).energy = (sparseGet 0 s.dist.charged p).toNat)) ∧
  (∀ (s : State) (i : Nat), (25 ≤ i → exec (.gettelem i) s = .next s) ∧
    (i < 25 → ∃ r : Reply, exec (.gettelem i) s = .next { s with mgmt := { s.mgmt with replies := s.mgmt.replies ++ [r] } } ∧
      r.params = [i] ∧ r.data.length = 64 ∧ r.data.take 4 = [1, 0, if i = 0 then 0 else if i ≤ 20 then 1 else 2,
        BitVec.ofNat 8 (if i = 0 then 0 else if i ≤ 20 then i - 1 else i - 21)] ∧
      (r.data.drop 60).take 4 = bytesOf 4 (sparseGet {} s.mgmt.telem i : Telemetry).seq))

/-- R387 and R388: a request is delivered into RX while RXLEN is 0, and waits otherwise; the message unit's oldest command has its
effect once the controller's earlier accesses are performed, and then ends; a load of MUSYNC returns the failure flag. -/
def Claims.MessageUnitCommandsTakeEffect : Prop :=
  (∀ (s : State) (req : List (BitVec 8)), 0 < req.length → req.length ≤ 0x4000 →
    (s.mgmt.rxlen ≠ 0 → exec (.requestDelivery req) s = .next { s with mgmt := { s.mgmt with rxwait := s.mgmt.rxwait ++ [req] } }) ∧
    (s.mgmt.rxlen = 0 → s.mgmt.rxwait = [] → ∃ t : State, exec (.requestDelivery req) s = .next t ∧ t.mgmt.rxlen = req.length ∧
      t.mgmt.rxwait = [] ∧ t.mem.cells = (s.mem.write 0 (sramKey 0x60000) req).cells ∧
      ∀ x ∈ t.mem.monitors, x.line = sramKey 0x80000 / 64 → x.hit = true)) ∧
  (∀ (s : State) (c : MuCmd) (rest : List MuCmd), s.mgmt.muq = c :: rest →
    (∀ a ∈ s.mem.access, a.who = .mc → c.id ≤ a.id) → s.mgmt.mudone = false → c.cmd < 2 ^ 12 →
    let op := c.cmd % 2 ^ 8
    let mask := c.cmd / 2 ^ 8 % 2 ^ 3
    let did (t : State) : State := { t with mgmt := { t.mgmt with mudone := true } }
    let puts (a : Nat) (bs : List (BitVec 8)) : State := did (s.withMem (s.mem.write 0 (sramKey a) bs))
    let get (a n : Nat) : List (BitVec 8) := s.mem.bytes 0 (sramKey a) n
    let slots (f : List (BitVec 8) → List (BitVec 8)) : List (List (BitVec 8)) :=
      s.mgmt.slots.mapIdx fun i x => if mask.testBit i then f x else x
    (op = 1 → c.src + c.len ≤ 0x80000 → c.dst + c.len ≤ 0x70000 → exec (.move c.src c.dst c.len) s = .next (puts c.dst (get c.src c.len))) ∧
    (op = 2 → c.src + c.len ≤ 0x80000 → c.dst + 32 ≤ 0x70000 → exec (.hash c.src c.dst c.len) s = .next (puts c.dst (sha256 (get c.src c.len)))) ∧
    (op = 3 → c.dst + c.len ≤ 0x70000 → ∃ bs : List (BitVec 8), bs.length = c.len ∧ exec (.rand c.dst c.len) s = .next (puts c.dst bs).nextFree) ∧
    (op = 4 → c.src ≤ 15 → c.dst + 32 ≤ 0x70000 →
      exec (.mrread c.src c.dst) s = .next (puts c.dst (bytesOf 32 (sparseGet 0 s.mgmt.mr c.src).toNat))) ∧
    (op = 5 → exec (.muReset mask) s = .next (did { s with mgmt := { s.mgmt with slots := slots fun _ => [] } })) ∧
    (op = 6 → c.src + c.len ≤ 0x80000 → exec (.absorb mask c.src c.len) s =
      .next (did { s with mgmt := { s.mgmt with slots := slots fun x => x ++ get c.src c.len } })) ∧
    (op = 7 → c.src ≤ 2 → exec (.copy mask c.src) s =
      .next (did { s with mgmt := { s.mgmt with slots := slots fun _ => s.mgmt.slots.getD c.src [] } })) ∧
    (op = 8 → c.src ≤ 2 → c.dst + 16224 ≤ 0x70000 → exec (.sign (c.cmd.testBit 11) c.src c.dst) s =
      .next (puts c.dst ((List.range 16224).map fun i =>
        Config.signatureByte (BitVec.ofNat 256 (natOf (sha256 (s.mgmt.slots.getD c.src [])))) (c.cmd.testBit 11) i))) ∧
    (op = 9 → 0 < c.len → c.len ≤ 32768 → c.src + c.len ≤ 0x80000 → s.mgmt.rxwait = [] → ∃ t : State, exec (.send mask c.src c.len) s = .next t ∧
      t.mgmt.sent = s.mgmt.sent ++ [get c.src c.len] ∧ t.mgmt.rxlen = 0 ∧ t.mgmt.mudone = true ∧
      t.mgmt.slots = slots fun x => x ++ get 0x60000 s.mgmt.rxlen ++ get c.src c.len)) ∧
  (∀ (s : State) (c : MuCmd) (rest : List MuCmd), s.mgmt.muq = c :: rest → (∀ a ∈ s.mem.access, a.who = .mc → c.id ≤ a.id) →
    (2 ^ 12 ≤ c.cmd → exec .muCommandComplete s = .next { s with mgmt := { s.mgmt with muq := rest, mufail := true } }) ∧
    (c.cmd % 2 ^ 8 = 5 → c.cmd < 2 ^ 12 → s.mgmt.mudone = true →
      exec .muCommandComplete s = .next { s with mgmt := { s.mgmt with muq := rest, mudone := false } }) ∧
    (c.cmd % 2 ^ 8 = 5 → c.cmd < 2 ^ 12 → s.mgmt.mudone = false → exec .muCommandComplete s = .next s)) ∧
  (∀ (s : State) (d : BitVec 6) (a : Access) (p : Pending), s.mem.access = [a] → a.who = .mc → a.addr = sramKey 0x80020 → a.global = false →
    a.parked = none → a.sent = none → a.seqr = none → a.act = .load (.pend p.id 0) → s.mc.x.pend = [p] → .scalar d.toNat ∈ p.names →
    p.lanes = [(0, [.scalar d.toNat])] →
    (s.mgmt.muq = [] → ∃ t : State, exec (.musync d) s = .next t ∧ t.mem.access = [] ∧ t.mgmt.mufail = false ∧
      t.mc.x.pend = [{ p with writes := p.writes ++ [(.scalar d.toNat, if s.mgmt.mufail then 1 else 0)], lanes := [] }]) ∧
    ((∃ c ∈ s.mgmt.muq, c.id < a.id) → exec (.musync d) s = .next s))

/-- The management controller's link keys, telemetry and message unit (R373, R381, R387, R388).
Where the spec leaves it open this rests on the model's choices, log entries 100, 106, 107, 108, 120. -/
def Obligations.TheControllerServesItsUnits : Prop :=
  Claims.LinksAreKeyedAndTelemetryKept ∧ Claims.MessageUnitCommandsTakeEffect

/-- R351, R377 and R380: an SPDM exchange goes through its stages in order, and a request that comes before its stage is answered
with UnexpectedRequest; a session is opened by KEY_EXCHANGE; RELEASE within it installs a context's tag key unless it names a
stale layout. -/
def Claims.SpdmRequestsAreAnswered : Prop :=
  ∀ (s : State) (req : List (BitVec 8)),
    let m := s.mgmt
    let tells (n : Mgmt) (r : Reply) (t : State) : Host.Outcome State Fault Refusal := .next { t with mgmt := { n with replies := n.replies ++ [r] } }
    let early : Host.Outcome State Fault Refusal := tells m { code := 0x7F, params := [4] } s
    let invalid : Host.Outcome State Fault Refusal := tells m { code := 0x7F, params := [1] } s
    (∃ r : List (BitVec 8), exec (.getVersion req) s = tells { m with stage := 1, vca := req ++ r, m1 := [], l1 := [] } { code := 4, data := r } s) ∧
    (m.stage ≠ 1 → exec (.getCapabilities req) s = early) ∧
    (m.stage = 1 → ∃ r : List (BitVec 8), exec (.getCapabilities req) s =
      tells { m with stage := 2, vca := m.vca ++ req ++ r } { code := 0x61, data := r } s) ∧
    (m.stage ≠ 2 → exec (.negotiateAlgorithms req) s = early) ∧
    (m.stage = 2 → ∃ r : List (BitVec 8), exec (.negotiateAlgorithms req) s =
      tells { m with stage := 3, vca := m.vca ++ req ++ r } { code := 0x63, data := r } s) ∧
    (m.stage ≠ 3 → exec (.getCertificate req) s = early ∧ exec (.challenge req) s = early ∧ exec (.keyExchange req) s = early ∧
      ∀ i, exec (.getMeasurements req i) s = early) ∧
    (m.stage = 3 →
      (∃ r : List (BitVec 8), exec (.getCertificate req) s = tells { m with m1 := m.m1 ++ req ++ r } { code := 2, data := r } s ∧
        r.drop 8 = s.mem.bytes 0 (sramKey 0x70000) (s.mem.read 0 (sramKey 0x70000) 2)) ∧
      (req.getD 2 0 = 0 → req.getD 3 0 = 0 → ∃ r : List (BitVec 8),
        exec (.challenge req) s = tells { m with m1 := [] } { code := 3, data := r ++ signatureOf (m.vca ++ m.m1 ++ req ++ r) false } s.nextFree ∧
        (r.drop 4).take 32 = sha256 s.chain) ∧
      (req.getD 2 0 ≠ 0 ∨ req.getD 3 0 ≠ 0 → exec (.challenge req) s = invalid) ∧
      (∀ i, i = 0 ∨ 18 < i ∨ (req.getD 2 0).getLsbD 0 = false → exec (.getMeasurements req i) s = invalid) ∧
      (∀ i, 1 ≤ i → i ≤ 18 → (req.getD 2 0).getLsbD 0 = true → ∃ r : List (BitVec 8),
        exec (.getMeasurements req i) s = tells { m with l1 := [] }
          { code := 0x60, params := [i], data := r ++ signatureOf (m.vca ++ m.l1 ++ req ++ r) true } s.nextFree ∧
        r.getD 8 0 = BitVec.ofNat 8 i ∧ (i ≤ 16 → r.getD 12 0 = 1 ∧ (r.drop 15).take 32 = bytesOf 32 (sparseGet 0 m.mr (i - 1)).toNat) ∧
        (i = 17 → (r.getD 12 0).getLsbD 7 = true ∧ (r.drop 15).take 4 = bytesOf 4 m.failing.length) ∧
        (i = 18 → (r.drop 15).take 4 = bytesOf 4 s.layout.gen)) ∧
      (req.getD 3 0 ≠ 0 → exec (.keyExchange req) s = invalid) ∧
      (req.getD 3 0 = 0 → ∃ (r : List (BitVec 8)) (d : BitVec 256), exec (.keyExchange req) s =
        tells { m with sessions := m.sessions ++ [m.nextSession], nextSession := m.nextSession + 1 }
          { code := 0x64, params := [m.nextSession], data := r ++ (List.range (16224 + 32)).map fun i => Config.exchangeByte d i } s.nextFree ∧
        d = BitVec.ofNat 256 (natOf (sha256 (m.vca ++ sha256 s.chain ++ req ++ r))) ∧
        r.take 2 = [0x13, 0x64] ∧ (r.drop 4).take 2 = bytesOf 2 m.nextSession ∧ r.length = if req.getD 2 0 = 0 then 138 else 170)) ∧
    (∀ (session part ctx gen : Nat) (key : BitVec 256),
      (session ∉ m.sessions → exec (.heartbeat session) s = early ∧ exec (.release session part ctx gen key) s = early ∧
        exec (.requestUpdate session) s = early) ∧
      (session ∈ m.sessions →
        exec (.heartbeat session) s = tells m { code := 0x68, params := [session] } s ∧
        (part < 20 → gen ≠ s.layout.gen → exec (.release session part ctx gen key) s = tells m { code := 0x7F, params := [0xFF, 1] } s) ∧
        (part < 20 → gen = s.layout.gen → ∃ t : State, exec (.release session part ctx gen key) s = .next t ∧
          (t.ctx part ctx).tagkey = some key ∧ t.mgmt.replies = m.replies ++ [{ code := 0x7E, params := [part, ctx] }] ∧
          (s.findCtx part ctx = none → t.ctxs = s.ctxs ++ [{ num := ctx, owner := part, tagkey := some key }]) ∧
          ∀ c, s.findCtx part ctx = some c → t.ctxs = (s.putCtx { c with tagkey := some key }).ctxs)))

/-- R383: an update is begun within a session and while none is under way; image bytes go to the bank that is not booted; an image
verifies with a good signature and no lower security version; activation makes that bank current and every engine await its
component. -/
def Claims.FirmwareIsUpdated : Prop :=
  ∀ s : State,
    let m := s.mgmt
    let tells (n : Mgmt) (r : Reply) : Host.Outcome State Fault Refusal := .next { s with mgmt := { n with replies := n.replies ++ [r] } }
    (∀ k ∈ m.sessions,
      (m.update = none → m.pend = [] → exec (.requestUpdate k) s = tells { m with update := some k, verified := none, image := [] } { code := 0x510, params := [0] }) ∧
      (m.update ≠ none ∨ m.pend ≠ [] → exec (.requestUpdate k) s = tells m { code := 0x510, params := [0x81] })) ∧
    (∀ (off : Nat) (bs : List (BitVec 8)), sparseWf 0 m.image = true →
      (m.update = none ∨ 2 ^ 24 < off + bs.length → exec (.imageTransfer off bs) s = .next s) ∧
      (m.update ≠ none → off + bs.length ≤ 2 ^ 24 → ∃ l : Sparse (BitVec 8),
        exec (.imageTransfer off bs) s = .next { s with mgmt := { m with verified := none, image := l } } ∧
        ∀ k, sparseGet 0 l k = if off ≤ k ∧ k < off + bs.length then bs.getD (k - off) 0 else sparseGet 0 m.image k)) ∧
    (∀ svn, m.update ≠ none →
      (Config.fusedMinSvn ≤ svn → exec (.verifyComplete true svn) s = tells { m with verified := some svn } { code := 0x517, params := [0] }) ∧
      (svn < Config.fusedMinSvn → exec (.verifyComplete true svn) s = tells { m with verified := none, otherValid := false } { code := 0x517, params := [1] }) ∧
      exec (.verifyComplete false svn) s = tells { m with verified := none, otherValid := false } { code := 0x517, params := [1] }) ∧
    (∀ v, m.update ≠ none → m.verified = some v → ∃ n : Mgmt, exec .activateFirmware s = tells n { code := 0x51A, params := [0] } ∧
      n.currentB = !m.bootedB ∧ n.bootedB = m.bootedB ∧ (∀ e, e ∈ n.pend ↔ e.1 < 8 ∧ e.2 < Config.unitCount e.1) ∧ n.due = true ∧ n.update = none ∧ n.otherSvn = v ∧ n.otherValid = true ∧
      n.engines = m.engines ∧ (m.bootedB = true → n.imgA = m.images ∧ n.imgB = m.imgB ∧ n.bankA = m.image ∧ n.bankB = m.bankB) ∧
      (m.bootedB = false → n.imgB = m.images ∧ n.imgA = m.imgA ∧ n.bankB = m.image ∧ n.bankA = m.bankA)) ∧
    (m.update = none ∨ m.verified = none → exec .activateFirmware s = tells m { code := 0x7F, params := [4] }) ∧
    (m.update = none → ∀ ok svn, exec (.verifyComplete ok svn) s = tells m { code := 0x7F, params := [4] })

/-- SPDM and the firmware update (R351, R377, R380, R383). The reply codes and layouts that the named standards give are the model's.
Where the spec leaves it open this rests on the model's choices, log entries 95, 96, 97, 98, 104, 105, 108. -/
def Obligations.RequestsAreAnsweredAndFirmwareUpdated : Prop :=
  Claims.SpdmRequestsAreAnswered ∧ Claims.FirmwareIsUpdated
end

