-- ==== Sys2Proof/Laws/Sparse.lean ====
section
/-!
SUPPORT. Laws of sparse tables: what a read sees after a write, and that every operation keeps the canonical form.
-/
namespace Sys2Proof.Machine

variable {α : Type}

@[simp] theorem sparseGet_nil (d : α) (i : Nat) : sparseGet d [] i = d := rfl

theorem sparseWfFrom_mono [DecidableEq α] (d : α) {lo hi : Nat} (h : lo ≤ hi) :
    ∀ l : Sparse α, sparseWfFrom d hi l = true → sparseWfFrom d lo l = true
  | [], _ => rfl
  | (k, v) :: t, hl => by
    simp only [sparseWfFrom, Bool.and_eq_true, decide_eq_true_eq] at hl ⊢
    exact ⟨⟨by omega, hl.1.2⟩, hl.2⟩

theorem sparseGet_low [DecidableEq α] (d : α) :
    ∀ (l : Sparse α) (lo i : Nat), sparseWfFrom d lo l = true → i < lo → sparseGet d l i = d
  | [], _, _, _, _ => rfl
  | (k, v) :: t, lo, i, hl, hi => by
    simp only [sparseWfFrom, Bool.and_eq_true, decide_eq_true_eq] at hl
    simp only [sparseGet]
    rw [if_neg (by omega)]
    exact sparseGet_low d t (k + 1) i hl.2 (by omega)

theorem sparseSet_wfFrom [DecidableEq α] (d : α) (i : Nat) (v : α) :
    ∀ (l : Sparse α) (lo : Nat), lo ≤ i → sparseWfFrom d lo l = true → sparseWfFrom d lo (sparseSet d l i v) = true
  | [], lo, h, _ => by
    simp only [sparseSet]
    split <;> simp_all [sparseWfFrom]
  | (k, w) :: t, lo, h, hl => by
    simp only [sparseWfFrom, Bool.and_eq_true, decide_eq_true_eq] at hl
    simp only [sparseSet]
    split
    · split <;> simp only [sparseWfFrom, Bool.and_eq_true, decide_eq_true_eq]
      · exact hl
      · exact ⟨⟨h, by assumption⟩, ⟨⟨by omega, hl.1.2⟩, hl.2⟩⟩
    · split
      · split
        · exact sparseWfFrom_mono d (by omega) t hl.2
        · simp only [sparseWfFrom, Bool.and_eq_true, decide_eq_true_eq]
          exact ⟨⟨h, by assumption⟩, sparseWfFrom_mono d (by omega) t hl.2⟩
      · simp only [sparseWfFrom, Bool.and_eq_true, decide_eq_true_eq]
        exact ⟨hl.1, sparseSet_wfFrom d i v t (k + 1) (by omega) hl.2⟩

theorem sparseSet_wf [DecidableEq α] (d : α) (l : Sparse α) (i : Nat) (v : α) (h : sparseWf d l = true) :
    sparseWf d (sparseSet d l i v) = true := sparseSet_wfFrom d i v l 0 (Nat.zero_le i) h

theorem sparseSetAll_wf [DecidableEq α] (d : α) :
    ∀ (kvs : List (Nat × α)) (l : Sparse α), sparseWf d l = true → sparseWf d (sparseSetAll d l kvs) = true
  | [], _, h => h
  | e :: t, l, h => sparseSetAll_wf d t (sparseSet d l e.1 e.2) (sparseSet_wf d l e.1 e.2 h)

theorem sparseDrop_wfFrom [DecidableEq α] (d : α) (p : Nat → Bool) :
    ∀ (l : Sparse α) (lo : Nat), sparseWfFrom d lo l = true → sparseWfFrom d lo (sparseDrop p l) = true
  | [], _, _ => rfl
  | (k, v) :: t, lo, hl => by
    simp only [sparseWfFrom, Bool.and_eq_true, decide_eq_true_eq] at hl
    have ht := sparseDrop_wfFrom d p t (k + 1) hl.2
    simp only [sparseDrop, List.filter_cons] at ht ⊢
    split
    · simp only [sparseWfFrom, Bool.and_eq_true, decide_eq_true_eq]
      exact ⟨hl.1, ht⟩
    · exact sparseWfFrom_mono d (by omega) _ ht

theorem sparseDrop_wf [DecidableEq α] (d : α) (p : Nat → Bool) (l : Sparse α) (h : sparseWf d l = true) :
    sparseWf d (sparseDrop p l) = true := sparseDrop_wfFrom d p l 0 h

/-- A read of the key just written. -/
theorem sparseGet_set_same [DecidableEq α] (d : α) (i : Nat) (v : α) :
    ∀ (l : Sparse α) (lo : Nat), sparseWfFrom d lo l = true → sparseGet d (sparseSet d l i v) i = v
  | [], _, _ => by
    simp only [sparseSet]
    split <;> simp_all [sparseGet]
  | (k, w) :: t, lo, hl => by
    simp only [sparseWfFrom, Bool.and_eq_true, decide_eq_true_eq] at hl
    simp only [sparseSet]
    split
    · split
      · rename_i hik hv
        simp only [sparseGet]
        rw [if_neg (by omega), sparseGet_low d t (k + 1) i hl.2 (by omega), hv]
      · simp [sparseGet]
    · split
      · split
        · rename_i hik hv
          rw [sparseGet_low d t (k + 1) i hl.2 (by omega), hv]
        · simp [sparseGet]
      · simp only [sparseGet]
        rw [if_neg (by assumption)]
        exact sparseGet_set_same d i v t (k + 1) hl.2

/-- A read of another key. -/
theorem sparseGet_set_other [DecidableEq α] (d : α) (i j : Nat) (v : α) (hij : j ≠ i) :
    ∀ (l : Sparse α), sparseGet d (sparseSet d l i v) j = sparseGet d l j
  | [] => by
    simp only [sparseSet]
    split <;> simp [sparseGet, hij]
  | (k, w) :: t => by
    simp only [sparseSet]
    split
    · split <;> simp [sparseGet, hij]
    · split
      · rename_i hk
        subst hk
        split <;> simp [sparseGet, hij]
      · simp only [sparseGet, sparseGet_set_other d i j v hij t]

theorem sparseGet_set [DecidableEq α] (d : α) (l : Sparse α) (i j : Nat) (v : α) (h : sparseWf d l = true) :
    sparseGet d (sparseSet d l i v) j = if j = i then v else sparseGet d l j := by
  split
  · rename_i hj
    subst hj
    exact sparseGet_set_same d j v l 0 h
  · exact sparseGet_set_other d i j v (by assumption) l

/-- A read after several writes to other keys. -/
theorem sparseGet_setAll_other [DecidableEq α] (d : α) (j : Nat) :
    ∀ (kvs : List (Nat × α)) (l : Sparse α), (∀ e ∈ kvs, e.1 ≠ j) →
      sparseGet d (sparseSetAll d l kvs) j = sparseGet d l j
  | [], _, _ => rfl
  | e :: t, l, h => by
    show sparseGet d (sparseSetAll d (sparseSet d l e.1 e.2) t) j = _
    rw [sparseGet_setAll_other d j t _ (fun x hx => h x (List.mem_cons_of_mem _ hx)),
      sparseGet_set_other d e.1 j e.2 (Ne.symm (h e List.mem_cons_self))]

/-- A read after several writes with one entry for its key. -/
theorem sparseGet_setAll_mem [DecidableEq α] (d : α) (j : Nat) (v : α) :
    ∀ (kvs : List (Nat × α)) (l : Sparse α), sparseWf d l = true → (∀ e ∈ kvs, e.1 = j → e.2 = v) →
      (∃ e ∈ kvs, e.1 = j) → sparseGet d (sparseSetAll d l kvs) j = v
  | [], _, _, _, h => by obtain ⟨e, he, _⟩ := h; cases he
  | e :: t, l, hw, hv, h => by
    show sparseGet d (sparseSetAll d (sparseSet d l e.1 e.2) t) j = v
    have hw' := sparseSet_wf d l e.1 e.2 hw
    by_cases ht : ∃ x ∈ t, x.1 = j
    · exact sparseGet_setAll_mem d j v t _ hw' (fun x hx => hv x (List.mem_cons_of_mem _ hx)) ht
    · rw [sparseGet_setAll_other d j t _ (fun x hx hxj => ht ⟨x, hx, hxj⟩)]
      obtain ⟨x, hx, hxj⟩ := h
      rcases List.mem_cons.mp hx with rfl | hx
      · rw [sparseGet_set d l x.1 j x.2 hw, if_pos hxj.symm, hv x List.mem_cons_self hxj]
      · exact absurd ⟨x, hx, hxj⟩ ht

end Sys2Proof.Machine
end

