-- ==== Sys2Proof/Laws/Memory.lean ====
section
/-!
SUPPORT. Laws of memory: every operation keeps the canonical form, the memory at reset has it, and what a byte reads as after
a write.
-/
namespace Sys2Proof.Machine

theorem Memory.wf_iff (m : Memory) :
    m.wf = true ↔ sparseWf unlisted m.cells = true ∧ sparseWf false m.tags = true ∧ sparseWf 0 m.writers = true := by
  simp [Memory.wf, and_assoc]

theorem Memory.claim_cells (m : Memory) (o k n : Nat) : (m.claim o k n).cells = m.cells := by
  unfold Memory.claim
  split <;> rfl

theorem Memory.claim_wf (m : Memory) (o k n : Nat) (h : m.wf = true) : (m.claim o k n).wf = true := by
  rw [Memory.wf_iff] at h ⊢
  obtain ⟨hc, ht, hw⟩ := h
  unfold Memory.claim
  split
  · exact ⟨hc, ht, hw⟩
  · refine ⟨hc, ?_, sparseSetAll_wf _ _ _ hw⟩
    dsimp only
    split
    · exact ht
    · exact sparseDrop_wf _ _ _ ht

theorem Memory.write_wf (m : Memory) (o k : Nat) (bs : List (BitVec 8)) (h : m.wf = true) :
    (m.write o k bs).wf = true := by
  unfold Memory.write
  split
  · exact h
  · obtain ⟨hc, ht, hw⟩ := (Memory.wf_iff _).mp ((m.settle k bs.length).claim_wf o k bs.length h)
    exact (Memory.wf_iff _).mpr ⟨sparseSetAll_wf _ _ _ hc, sparseSetAll_wf _ _ _ ht, hw⟩

theorem Memory.publishAt_wf (m : Memory) (p : Place) (moment o k : Nat) (bs : List (BitVec 8)) (h : m.wf = true) :
    (m.publishAt p moment o k bs).wf = true :=
  m.write_wf o k bs h

theorem Memory.publish_wf (m : Memory) (p : Place) (o k : Nat) (bs : List (BitVec 8)) (h : m.wf = true) :
    (m.publish p o k bs).wf = true :=
  m.write_wf o k bs h

theorem Memory.writeNat_wf (m : Memory) (o k n v : Nat) (h : m.wf = true) : (m.writeNat o k n v).wf = true :=
  m.write_wf o k _ h

theorem Memory.setTag_wf (m : Memory) (k : Nat) (t : Bool) (h : m.wf = true) : (m.setTag k t).wf = true := by
  obtain ⟨hc, ht, hw⟩ := (Memory.wf_iff _).mp h
  exact (Memory.wf_iff _).mpr ⟨hc, sparseSet_wf _ _ _ _ ht, hw⟩

theorem Memory.clear_wf (m : Memory) (p : Nat → Bool) (h : m.wf = true) : (m.clear p).wf = true := by
  obtain ⟨hc, ht, hw⟩ := (Memory.wf_iff _).mp h
  refine (Memory.wf_iff _).mpr ⟨?_, ?_, hw⟩
  · simp only [Memory.clear]
    exact sparseDrop_wf _ _ _ hc
  · simp only [Memory.clear]
    exact sparseDrop_wf _ _ _ ht

theorem Memory.loadFirmware_wf (m : Memory) (h : m.wf = true) : m.loadFirmware.wf = true := by
  obtain ⟨hc, ht, hw⟩ := (Memory.wf_iff _).mp h
  refine (Memory.wf_iff _).mpr ⟨?_, ?_, hw⟩
  · simp only [Memory.loadFirmware, Memory.clear]
    exact sparseDrop_wf _ _ _ hc
  · simp only [Memory.loadFirmware, Memory.clear]
    exact sparseDrop_wf _ _ _ ht

theorem Memory.reset_wf : State.reset.mem.wf = true := rfl

/-- No byte of the n at k shares a line with key j. -/
abbrev apart (k n j : Nat) : Prop := j / 64 < k / 64 ∨ (k + n - 1) / 64 < j / 64

theorem quietNoise_any (k n j : Nat) (l : List Noise) (h : apart k n j) :
    (quietNoise k n l).any (fun r => decide (r.lo ≤ j ∧ j < r.hi)) = l.any (fun r => decide (r.lo ≤ j ∧ j < r.hi)) := by
  unfold quietNoise apart at *
  dsimp only
  rw [Bool.eq_iff_iff]
  simp only [List.any_eq_true, List.mem_flatMap, List.mem_filter, List.mem_cons, List.not_mem_nil, or_false, decide_eq_true_eq]
  constructor
  · rintro ⟨r, ⟨x, hx, h1, -⟩, h3⟩
    refine ⟨x, hx, ?_⟩
    rcases h1 with rfl | rfl | rfl | rfl <;> dsimp only at h3 <;> omega
  · rintro ⟨x, hx, h3⟩
    rcases h with h | h
    · exact ⟨_, ⟨x, hx, .inl rfl, by dsimp only; omega⟩, by dsimp only; omega⟩
    · exact ⟨_, ⟨x, hx, .inr (.inl rfl), by dsimp only; omega⟩, by dsimp only; omega⟩

/-- A claim of n bytes touches the tag and the noise of their lines alone. -/
theorem Memory.claim_apart (m : Memory) (o k n j : Nat) (h : apart k n j) :
    (m.claim o k n).writer j = m.writer j ∧
      (m.claim o k n).noise.any (fun r => decide (r.lo ≤ j ∧ j < r.hi)) = m.noise.any (fun r => decide (r.lo ≤ j ∧ j < r.hi)) := by
  unfold Memory.claim
  split
  · exact ⟨rfl, rfl⟩
  have hm : ∀ u ∈ unitsOf 64 k n, u ≠ j / 64 := by
    intro u hu
    have := List.mem_range'_1.1 hu
    unfold apart at h
    omega
  constructor
  · unfold Memory.writer
    dsimp only
    rw [sparseGet_setAll_other]
    simpa using hm
  · dsimp only
    rw [List.any_append]
    have : ((List.filter (fun l => m.foreign o (64 * l)) (unitsOf 64 k n)).map fun l => (⟨64 * l, 64 * l + 64, 0, false⟩ : Noise)).any
        (fun r => decide (r.lo ≤ j ∧ j < r.hi)) = false := by
      rw [List.any_eq_false]
      intro r hr
      obtain ⟨u, hu, rfl⟩ := List.mem_map.1 hr
      have := hm u (List.mem_filter.1 hu).1
      simp only [decide_eq_true_eq]
      omega
    rw [this, Bool.false_or]

/-- What a byte reads as stands through a write to other lines. -/
theorem Memory.byte_write_apart (m : Memory) (o k : Nat) (bs : List (BitVec 8)) (q j : Nat) (h : apart k bs.length j) :
    (m.write o k bs).byte q j = m.byte q j := by
  unfold Memory.write
  split
  · rfl
  rename_i he
  have hn : 0 < bs.length := by
    cases bs with
    | nil => simp at he
    | cons => simp
  obtain ⟨hw, hz⟩ := (m.settle k bs.length).claim_apart o k bs.length j h
  have hc : ((m.settle k bs.length).claim o k bs.length).epochs = m.epochs := by unfold Memory.claim; split <;> rfl
  unfold Memory.byte Memory.noisy Memory.noiseKey Memory.foreign Memory.writer Memory.hitLines at *
  dsimp only at *
  rw [quietNoise_any _ _ _ _ h, hz, hw, hc, sparseGet_setAll_other, Memory.claim_cells]
  · rfl
  · intro e he
    obtain ⟨i, hi, rfl⟩ := List.mem_mapIdx.1 he
    unfold apart at h
    dsimp only
    omega

theorem Memory.byte_publish_apart (m : Memory) (p : Place) (o k : Nat) (bs : List (BitVec 8)) (q j : Nat) (h : apart k bs.length j) :
    (m.publish p o k bs).byte q j = m.byte q j :=
  m.byte_write_apart o k bs q j h

theorem Memory.read_publish_apart (m : Memory) (p : Place) (o k : Nat) (bs : List (BitVec 8)) (q j n : Nat)
    (h : ∀ i < n, apart k bs.length (j + i)) : (m.publish p o k bs).read q j n = m.read q j n := by
  unfold Memory.read Memory.bytes
  congr 1
  exact List.map_congr_left fun i hi => m.byte_publish_apart p o k bs q (j + i) (h i (List.mem_range.1 hi))
end Sys2Proof.Machine
end

