-- ==== Sys2Proof/Laws/Boot.lean ====
section
/-!
SUPPORT. Laws of the placed context's tables (R341, R343): a walk through them gives its own address, whatever entries of
their path the caches hold, and a write of several units off their lines succeeds, in any order.
-/
namespace Sys2Proof.Machine

/-- Memory m with the cache entries l. -/
def cachedAs (m : Memory) (l : List TlbEntry) : Memory := { m with tlb := l }

theorem publish_cachedAs (m : Memory) (l : List TlbEntry) (p : Place) (o k : Nat) (bs : List (BitVec 8)) :
    (cachedAs m l).publish p o k bs = cachedAs (m.publish p o k bs) l := by
  have hc (m : Memory) : (cachedAs m l).claim o k bs.length = cachedAs (m.claim o k bs.length) l := by
    unfold Memory.claim
    split <;> rfl
  have hw : (cachedAs m l).write o k bs = cachedAs (m.write o k bs) l := by
    unfold Memory.write
    split
    · rfl
    · dsimp only
      rw [show (cachedAs m l).settle k bs.length = cachedAs (m.settle k bs.length) l from rfl, hc]
      rfl
  unfold Memory.publish Memory.publishAt
  dsimp only
  rw [hw]
  rfl

/-- The cache entries of the placed context's path. -/
abbrev bootPath (l : List TlbEntry) : Prop := ∀ e ∈ l, e.level < 3 ∧ e.word.toNat = (bootTables.getD e.level (0, 0)).2

theorem cached_boot (m : Memory) (l : List TlbEntry) (h : bootPath l) (n core part ctx lvl va : Nat) :
    (cachedAs m l).cached n core part ctx lvl va = none ∨
      lvl < 3 ∧ (cachedAs m l).cached n core part ctx lvl va = some (bootTables.getD lvl (0, 0)).2 := by
  unfold Memory.cached
  rcases hf : List.find? _ _ with _ | e
  · exact .inl rfl
  · have hm := h e (List.mem_of_find?_eq_some hf)
    have hp := List.find?_some hf
    simp only [Bool.and_eq_true, beq_iff_eq] at hp
    obtain ⟨⟨⟨-, hl⟩, -⟩, -⟩ := hp
    right
    rw [← hl]
    exact ⟨hm.1, congrArg some hm.2⟩

/-- The tables of the placed context stand in memory and may be read. -/
def bootRead (s : State) : Bool :=
  (s.ctx 0 0).troot == bootTable && s.domain.domid == 0 &&
    bootTables.all fun e => s.layout.opens hostShared e.1 && s.mem.read hostShared e.1 8 == e.2

/-- A walk from each of the three tables on. -/
theorem boot_leaf (get : Nat → Nat → Option Nat) (va need t : Nat) (used : List (Nat × Nat)) (hn : 0x1D &&& need = need) (hv : va < 2 ^ 30)
    (h2 : get 2 t = some 0x1D) : walkFrom get va need 3 2 t used = .ok (va, used ++ [(2, 0x1D)]) := by
  unfold walkFrom
  rw [h2]
  dsimp only
  rw [if_neg (by decide), if_neg (by decide), if_neg (by decide), if_neg (by simp [hn])]
  simp [levelShift, field]
  omega
theorem boot_middle (get : Nat → Nat → Option Nat) (va need t : Nat) (used : List (Nat × Nat)) (hn : 0x1D &&& need = need) (hv : va < 2 ^ 30)
    (h1 : get 1 t = some 0x12003) (h2 : get 2 0x12000 = some 0x1D) :
    walkFrom get va need 4 1 t used = .ok (va, used ++ [(1, 0x12003)] ++ [(2, 0x1D)]) := by
  unfold walkFrom
  rw [h1]
  dsimp only
  rw [if_neg (by decide), if_neg (by decide), if_pos (by decide)]
  exact boot_leaf get va need _ _ hn hv h2
theorem boot_root (get : Nat → Nat → Option Nat) (va need t : Nat) (hn : 0x1D &&& need = need) (hv : va < 2 ^ 30)
    (h0 : get 0 t = some 0x11003) (h1 : get 1 0x11000 = some 0x12003) (h2 : get 2 0x12000 = some 0x1D) :
    walkFrom get va need 5 0 t [] = .ok (va, [(0, 0x11003), (1, 0x12003), (2, 0x1D)]) := by
  unfold walkFrom
  rw [h0]
  dsimp only
  rw [if_neg (by decide), if_neg (by decide), if_pos (by decide)]
  exact boot_middle get va need _ _ hn hv h1 h2

theorem walk_boot (s : State) (l : List TlbEntry) (hl : bootPath l) (h : bootRead s = true) (core va need : Nat) (hn : 0x1D &&& need = need)
    (hv : va < 2 ^ 30) :
    ∃ used, (s.withMem (cachedAs s.mem l)).walk core 0 0 va need = .ok (va, used) ∧
      ∀ u ∈ used, u.1 < 3 ∧ u.2 = (bootTables.getD u.1 (0, 0)).2 := by
  simp only [bootRead, bootTables, Bool.and_eq_true, beq_iff_eq, List.all_cons, List.all_nil, Bool.and_true] at h
  obtain ⟨⟨h1, h2⟩, ⟨a0, b0⟩, ⟨a1, b1⟩, a2, b2⟩ := h
  have e0 : entryAddr bootTable 0 va = bootTable := by simp [entryAddr, field, levelShift, levelBits]; omega
  have e1 : entryAddr 0x11000 1 va = 0x11000 := by simp [entryAddr, field, levelShift, levelBits]; omega
  have e2 : entryAddr 0x12000 2 va = 0x12000 := by simp [entryAddr, field, levelShift, levelBits]; omega
  have home (k : Nat) (hk : k < 2 ^ 51) : (s.withMem (cachedAs s.mem l)).atHome k = k := by
    have : isRemote k = false := by simp [isRemote]; omega
    simp [State.atHome, this]
  have c (lvl : Nat) := cached_boot s.mem l hl (s.withMem (cachedAs s.mem l)).sched.free core 0 0 lvl va
  have c4 := (c 4).resolve_right (by omega)
  have c3 := (c 3).resolve_right (by omega)
  have ht : ((s.withMem (cachedAs s.mem l)).ctx 0 0).troot = bootTable := h1
  have r (k : Nat) : (s.withMem (cachedAs s.mem l)).mem.read hostShared k 8 = s.mem.read hostShared k 8 := rfl
  have hm : (s.withMem (cachedAs s.mem l)).mem = cachedAs s.mem l := rfl
  have hy : (s.withMem (cachedAs s.mem l)).layout = s.layout := rfl
  have rd (k : Nat) : (cachedAs s.mem l).read hostShared k 8 = s.mem.read hostShared k 8 := rfl
  have hx : ∀ l, l < 3 → (bootTables.getD l (0, 0)).2 = [bootTable + 0x1003, bootTable + 0x2003, 0x1D].getD l 0 := by decide
  have f : ([4, 3, 2, 1, 0] : List Nat).find? (fun n => ((cachedAs s.mem l).cached s.sched.free core 0 0 n va).isSome) = none ∨
      ∃ n, n < 3 ∧ ([4, 3, 2, 1, 0] : List Nat).find? (fun n => ((cachedAs s.mem l).cached s.sched.free core 0 0 n va).isSome) = some n ∧
        (cachedAs s.mem l).cached s.sched.free core 0 0 n va = some (bootTables.getD n (0, 0)).2 := by
    rcases hf : List.find? _ _ with _ | n
    · exact .inl rfl
    · have hs := List.find?_some hf
      rcases c n with h | ⟨h, h'⟩
      · exact absurd hs (by rw [show (cachedAs s.mem l).cached s.sched.free core 0 0 n va = none from h]; simp)
      · exact .inr ⟨n, h, rfl, h'⟩
  unfold State.walk
  rw [ht]
  simp only [hm, show (s.withMem (cachedAs s.mem l)).sched = s.sched from rfl, hy]
  have g0 : (if s.layout.opens hostShared ((s.withMem (cachedAs s.mem l)).atHome (entryAddr bootTable 0 va)) then
      some ((cachedAs s.mem l).read hostShared ((s.withMem (cachedAs s.mem l)).atHome (entryAddr bootTable 0 va)) 8) else none) = some 0x11003 := by
    rw [e0, home _ (by decide), rd, if_pos a0, b0]
  have g1 : (if s.layout.opens hostShared ((s.withMem (cachedAs s.mem l)).atHome (entryAddr 0x11000 1 va)) then
      some ((cachedAs s.mem l).read hostShared ((s.withMem (cachedAs s.mem l)).atHome (entryAddr 0x11000 1 va)) 8) else none) = some 0x12003 := by
    rw [e1, home _ (by decide), rd, if_pos a1, b1]
  have g2 : (if s.layout.opens hostShared ((s.withMem (cachedAs s.mem l)).atHome (entryAddr 0x12000 2 va)) then
      some ((cachedAs s.mem l).read hostShared ((s.withMem (cachedAs s.mem l)).atHome (entryAddr 0x12000 2 va)) 8) else none) = some 0x1D := by
    rw [e2, home _ (by decide), rd, if_pos a2, b2]
  have hva : (s.withMem (cachedAs s.mem l)).atHome va = va := home va (by omega)
  rcases f with f | ⟨n, hn3, f, cn⟩
  · rw [f]
    dsimp only
    rw [boot_root _ va need _ hn hv g0 g1 g2]
    exact ⟨_, by simp only [Except.map, hva]; rfl, by decide⟩
  · rw [f]
    dsimp only
    interval_cases n
    · rw [boot_root _ va need _ hn hv (by exact cn) g1 g2]
      exact ⟨_, by simp only [Except.map, hva]; rfl, by decide⟩
    · rw [boot_middle _ va need _ _ hn hv (by exact cn) g2]
      exact ⟨_, by simp only [Except.map, hva]; rfl, by decide⟩
    · rw [boot_leaf _ va need _ _ hn hv (by exact cn)]
      exact ⟨_, by simp only [Except.map, hva]; rfl, by decide⟩

theorem cacheAdd_boot (n cap : Nat) (e : TlbEntry) (l : List TlbEntry) (hl : bootPath l) (he : bootPath [e]) : bootPath (cacheAdd n cap e l) := by
  intro x hx
  have he := he e (List.mem_singleton.2 rfl)
  unfold cacheAdd at hx
  dsimp only at hx
  split at hx
  · rcases List.mem_append.1 hx with hx | hx
    · exact hl x (List.mem_filter.1 (List.mem_filter.1 hx).1).1
    · rwa [List.mem_singleton.1 hx]
  · rcases List.mem_append.1 hx with hx | hx
    · exact hl x (List.mem_filter.1 hx).1
    · rwa [List.mem_singleton.1 hx]

theorem cache_boot (m : Memory) (l : List TlbEntry) (hl : bootPath l) (n va : Nat) (used : List (Nat × Nat))
    (hu : ∀ u ∈ used, u.1 < 3 ∧ u.2 = (bootTables.getD u.1 (0, 0)).2) :
    ∃ l', bootPath l' ∧ (cachedAs m l).cache n 0xFFFF 0 0 va used = cachedAs m l' := by
  refine ⟨_, ?_, rfl⟩
  have : (cachedAs m l).tlb = l := rfl
  rw [this]
  clear this
  induction used generalizing l with
  | nil => exact hl
  | cons u us ih =>
    refine ih _ (cacheAdd_boot _ _ _ _ hl ?_) fun v hv => hu v (List.mem_cons_of_mem _ hv)
    intro e he
    rw [List.mem_singleton.1 he]
    obtain ⟨h1, h2⟩ := hu u (List.mem_cons_self ..)
    refine ⟨h1, ?_⟩
    rw [h2]
    have : ∀ n, n < 3 → (BitVec.ofNat 64 (bootTables.getD n (0, 0)).2).toNat = (bootTables.getD n (0, 0)).2 := by decide
    exact this _ h1

/-- Unit u of a write of bs at va by the engines, through the placed context's tables. -/
def bootUnit (va : Nat) (bs : List (BitVec 8)) (s : State) (u : Nat) : State :=
  let lo := max va (16 * u)
  let hi := min (va + bs.length) (16 * u + 16)
  s.withMem (s.mem.publish enginePlace 0 (16 * u + (lo - 16 * u)) ((bs.drop (lo - va)).take (hi - lo)))
/-- Unit u, which a write at va reaches, is off the lines of the tables. -/
def bootOff (va u : Nat) : Bool := decide (va < 16 * u + 16) && bootTables.all fun e => e.1 / 64 != u / 4
/-- The tables stand and may be read, and every unit of a write of n bytes at va may be written and is off their lines. -/
def bootMay (va n : Nat) (s : State) : Bool :=
  bootRead s && (unitsOf 16 va n).all fun u =>
    decide (16 * u < 2 ^ 30) && s.layout.opens 0 (16 * u) && bootOff va u

theorem bootRead_unit (va : Nat) (bs : List (BitVec 8)) (s : State) (u : Nat) (hu : bootOff va u = true) :
    bootRead (bootUnit va bs s u) = bootRead s := by
  obtain ⟨hv, hu⟩ := Bool.and_eq_true_iff.1 hu
  have hv := of_decide_eq_true hv
  have hr : ∀ e ∈ bootTables, (bootUnit va bs s u).mem.read hostShared e.1 8 = s.mem.read hostShared e.1 8 := by
    intro e he
    have hne := List.all_eq_true.1 hu e he
    simp only [bne_iff_ne, ne_eq] at hne
    have h8 : ∀ e ∈ bootTables, e.1 % 64 = 0 := by decide
    have h8 := h8 e he
    refine Memory.read_publish_apart _ _ _ _ _ _ _ _ fun i hi => ?_
    simp only [apart, List.length_take, List.length_drop]
    omega
  have hl (k : Nat) : (bootUnit va bs s u).layout.opens hostShared k = s.layout.opens hostShared k := rfl
  have hc : ((bootUnit va bs s u).ctx 0 0).troot = (s.ctx 0 0).troot := rfl
  have hd : (bootUnit va bs s u).domain.domid = s.domain.domid := rfl
  have ha : bootTables.all (fun e => (bootUnit va bs s u).layout.opens hostShared e.1 && (bootUnit va bs s u).mem.read hostShared e.1 8 == e.2) =
      bootTables.all (fun e => s.layout.opens hostShared e.1 && s.mem.read hostShared e.1 8 == e.2) := by
    rw [Bool.eq_iff_iff, List.all_eq_true, List.all_eq_true]
    refine forall_congr' fun e => forall_congr' fun he => ?_
    rw [hr e he, hl]
  unfold bootRead
  rw [ha, hc, hd]

/-- Units in a free order are the same units. -/
theorem freeOrder_perm {α : Type} (n : Nat) (l : List α) : (freeOrder n l).Perm l := by
  suffices H : ∀ (es : List (Nat × α)) (acc : List α), (es.foldl
      (fun acc e => acc.insertIdx (Config.freeChoice n e.1 % (acc.length + 1)) e.2) acc).Perm (acc ++ es.map (·.2)) by
    have hm : (l.mapIdx fun i x => (i, x)).map (·.2) = l := by
      rw [List.mapIdx_eq_zipIdx_map, List.map_map]
      exact List.zipIdx_map_fst 0 l
    have := H (l.mapIdx fun i x => (i, x)) []
    rwa [List.nil_append, hm] at this
  intro es
  induction es with
  | nil => intro acc; simp
  | cons e es ih =>
    intro acc
    have hlt : Config.freeChoice n e.1 % (acc.length + 1) ≤ acc.length := Nat.lt_succ_iff.1 (Nat.mod_lt _ (Nat.succ_pos _))
    refine (ih _).trans ?_
    rw [List.map_cons]
    exact ((List.perm_insertIdx e.2 acc hlt).append_right _).trans (List.perm_middle (l₁ := acc)).symm

/-- The state once the units of a write of bs at va are written, in the order that is free. -/
def bootWritten (va : Nat) (bs : List (BitVec 8)) (s : State) : State :=
  (freeOrder s.sched.free (unitsOf 16 va bs.length)).foldl (bootUnit va bs) s

theorem bootMay_written (va n : Nat) (s : State) (vb : Nat) (bs : List (BitVec 8)) (us : List Nat)
    (hu : ∀ u ∈ us, bootOff vb u = true) :
    bootMay va n (us.foldl (bootUnit vb bs) s) = bootMay va n s := by
  induction us generalizing s with
  | nil => rfl
  | cons u us ih =>
    rw [List.foldl_cons, ih _ fun v hv => hu v (List.mem_cons_of_mem _ hv)]
    unfold bootMay
    rw [bootRead_unit vb bs s u (hu u (List.mem_cons_self ..))]
    rfl

theorem rootWrite_boot (s : State) (va : Nat) (bs : List (BitVec 8)) (h : bootMay va bs.length s = true) (hl : bootPath s.mem.tlb) :
    ∃ l, bootPath l ∧ s.rootWrite 0 0 va bs = some ((bootWritten va bs s).withMem (cachedAs (bootWritten va bs s).mem l)) := by
  have hb := (Bool.and_eq_true_iff.1 h).1
  have h : ∀ u ∈ freeOrder s.sched.free (unitsOf 16 va bs.length), (16 * u < 2 ^ 30 ∧ s.layout.opens 0 (16 * u) = true) ∧
      bootOff va u = true := by
    intro u hu
    have := List.all_eq_true.1 (Bool.and_eq_true_iff.1 h).2 u ((freeOrder_perm _ _).mem_iff.1 hu)
    simpa only [Bool.and_eq_true, decide_eq_true_eq] using this
  unfold State.rootWrite bootWritten
  generalize freeOrder s.sched.free (unitsOf 16 va bs.length) = us at h
  suffices H : ∀ (us : List Nat) (s : State) (l : List TlbEntry), bootRead s = true → (∀ u ∈ us,
      (16 * u < 2 ^ 30 ∧ s.layout.opens 0 (16 * u) = true) ∧ bootOff va u = true) → bootPath l →
      ∃ l', bootPath l' ∧ us.foldl (fun acc u =>
        match acc with
        | none => none
        | some t =>
          match t.walk 0xFFFF 0 0 (16 * u) needW with
          | .error _ => none
          | .ok (pa, used) =>
            if t.layout.opens 0 pa then
              let lo := max va (16 * u)
              let hi := min (va + bs.length) (16 * u + 16)
              let m := t.mem.cache t.sched.free 0xFFFF 0 0 (16 * u) used
              some (t.withMem (m.publish enginePlace 0 (pa + (lo - 16 * u)) ((bs.drop (lo - va)).take (hi - lo))))
            else none) (some (s.withMem (cachedAs s.mem l))) =
        some ((us.foldl (bootUnit va bs) s).withMem (cachedAs (us.foldl (bootUnit va bs) s).mem l')) by
    exact H _ s _ hb h hl
  intro us
  induction us with
  | nil => intro s l _ _ hl; exact ⟨l, hl, rfl⟩
  | cons u us ih =>
    intro s l h1 h hl
    obtain ⟨⟨h2, h3⟩, h4⟩ := h u (List.mem_cons_self ..)
    obtain ⟨used, hw, hu⟩ := walk_boot s l hl h1 0xFFFF (16 * u) needW (by decide) h2
    obtain ⟨l2, hl2, hc⟩ := cache_boot s.mem l hl (s.withMem (cachedAs s.mem l)).sched.free (16 * u) used hu
    obtain ⟨l3, hl3, hf⟩ := ih (bootUnit va bs s u) l2 (by rw [bootRead_unit va bs s u h4]; exact h1)
      (fun v hv => h v (List.mem_cons_of_mem _ hv)) hl2
    refine ⟨l3, hl3, ?_⟩
    rw [List.foldl_cons, List.foldl_cons, ← hf]
    congr 1
    dsimp only
    rw [hw]
    dsimp only
    rw [if_pos (show (s.withMem (cachedAs s.mem l)).layout.opens 0 (16 * u) = true from h3), show (s.withMem (cachedAs s.mem l)).mem = cachedAs s.mem l from rfl, hc, publish_cachedAs]
    rfl

/-- Two writes in turn through the placed context's tables. -/
theorem rootWrite_boot_two (s : State) (va vb : Nat) (bs cs : List (BitVec 8)) (h : bootMay va bs.length s = true) (hl : bootPath s.mem.tlb)
    (h2 : bootMay vb cs.length s = true) : ∃ u t, s.rootWrite 0 0 va bs = some u ∧ u.rootWrite 0 0 vb cs = some t := by
  obtain ⟨l, hb, e⟩ := rootWrite_boot s va bs h hl
  have hm : bootMay vb cs.length ((bootWritten va bs s).withMem (cachedAs (bootWritten va bs s).mem l)) = true := by
    refine Eq.trans (show _ = bootMay vb cs.length (bootWritten va bs s) from rfl) ?_
    unfold bootWritten
    rw [bootMay_written _ _ _ _ _ _ fun u hu => ?_]
    · exact h2
    · have := List.all_eq_true.1 (Bool.and_eq_true_iff.1 h).2 u ((freeOrder_perm _ _).mem_iff.1 hu)
      simp only [Bool.and_eq_true] at this
      exact this.2
  obtain ⟨l2, -, e2⟩ := rootWrite_boot _ vb cs hm hb
  exact ⟨_, _, e, e2⟩

end Sys2Proof.Machine
end

