-- ==== Sys2Proof/Laws/State.lean ====
section
/-!
SUPPORT. What each named update of the state changes: one lemma per field and update.
-/
set_option Elab.async false

namespace Sys2Proof.Machine

variable (s : State)

/-! ### tick -/
@[simp] theorem State.tick_sched (n : Nat) :
    (s.tick n).sched = { s.sched with now := s.sched.now + n, steps := s.sched.steps + 1 } := rfl
@[simp] theorem State.tick_mem (n : Nat) :
    (s.tick n).mem = s.mem := rfl
@[simp] theorem State.tick_layout (n : Nat) :
    (s.tick n).layout = s.layout := rfl
@[simp] theorem State.tick_newLayout (n : Nat) :
    (s.tick n).newLayout = s.newLayout := rfl
@[simp] theorem State.tick_carving (n : Nat) :
    (s.tick n).carving = s.carving := rfl
@[simp] theorem State.tick_fns (n : Nat) :
    (s.tick n).fns = s.fns := rfl
@[simp] theorem State.tick_resetting (n : Nat) :
    (s.tick n).resetting = s.resetting := rfl
@[simp] theorem State.tick_resetCause (n : Nat) :
    (s.tick n).resetCause = s.resetCause := rfl
@[simp] theorem State.tick_replaced (n : Nat) :
    (s.tick n).replaced = s.replaced := rfl
@[simp] theorem State.tick_domain (n : Nat) :
    (s.tick n).domain = s.domain := rfl
@[simp] theorem State.tick_ide (n : Nat) :
    (s.tick n).ide = s.ide := rfl
@[simp] theorem State.tick_warps (n : Nat) :
    (s.tick n).warps = s.warps := rfl
@[simp] theorem State.tick_wgs (n : Nat) :
    (s.tick n).wgs = s.wgs := rfl
@[simp] theorem State.tick_collies (n : Nat) :
    (s.tick n).collies = s.collies := rfl
@[simp] theorem State.tick_copies (n : Nat) :
    (s.tick n).copies = s.copies := rfl
@[simp] theorem State.tick_pillows (n : Nat) :
    (s.tick n).pillows = s.pillows := rfl
@[simp] theorem State.tick_estates (n : Nat) :
    (s.tick n).estates = s.estates := rfl
@[simp] theorem State.tick_dist (n : Nat) :
    (s.tick n).dist = s.dist := rfl
@[simp] theorem State.tick_ctxs (n : Nat) :
    (s.tick n).ctxs = s.ctxs := rfl
@[simp] theorem State.tick_late (n : Nat) :
    (s.tick n).late = s.late := rfl
@[simp] theorem State.tick_mc (n : Nat) :
    (s.tick n).mc = s.mc := rfl
@[simp] theorem State.tick_mgmt (n : Nat) :
    (s.tick n).mgmt = s.mgmt := rfl

/-! ### nextFree -/
@[simp] theorem State.nextFree_sched :
    (s.nextFree).sched = { s.sched with free := s.sched.free + 1 } := rfl
@[simp] theorem State.nextFree_mem :
    (s.nextFree).mem = s.mem := rfl
@[simp] theorem State.nextFree_layout :
    (s.nextFree).layout = s.layout := rfl
@[simp] theorem State.nextFree_newLayout :
    (s.nextFree).newLayout = s.newLayout := rfl
@[simp] theorem State.nextFree_carving :
    (s.nextFree).carving = s.carving := rfl
@[simp] theorem State.nextFree_fns :
    (s.nextFree).fns = s.fns := rfl
@[simp] theorem State.nextFree_resetting :
    (s.nextFree).resetting = s.resetting := rfl
@[simp] theorem State.nextFree_resetCause :
    (s.nextFree).resetCause = s.resetCause := rfl
@[simp] theorem State.nextFree_replaced :
    (s.nextFree).replaced = s.replaced := rfl
@[simp] theorem State.nextFree_domain :
    (s.nextFree).domain = s.domain := rfl
@[simp] theorem State.nextFree_ide :
    (s.nextFree).ide = s.ide := rfl
@[simp] theorem State.nextFree_warps :
    (s.nextFree).warps = s.warps := rfl
@[simp] theorem State.nextFree_wgs :
    (s.nextFree).wgs = s.wgs := rfl
@[simp] theorem State.nextFree_collies :
    (s.nextFree).collies = s.collies := rfl
@[simp] theorem State.nextFree_copies :
    (s.nextFree).copies = s.copies := rfl
@[simp] theorem State.nextFree_pillows :
    (s.nextFree).pillows = s.pillows := rfl
@[simp] theorem State.nextFree_estates :
    (s.nextFree).estates = s.estates := rfl
@[simp] theorem State.nextFree_dist :
    (s.nextFree).dist = s.dist := rfl
@[simp] theorem State.nextFree_ctxs :
    (s.nextFree).ctxs = s.ctxs := rfl
@[simp] theorem State.nextFree_late :
    (s.nextFree).late = s.late := rfl
@[simp] theorem State.nextFree_mc :
    (s.nextFree).mc = s.mc := rfl
@[simp] theorem State.nextFree_mgmt :
    (s.nextFree).mgmt = s.mgmt := rfl

/-! ### nextUid -/
@[simp] theorem State.nextUid_sched :
    (s.nextUid).sched = { s.sched with uid := s.sched.uid + 1 } := rfl
@[simp] theorem State.nextUid_mem :
    (s.nextUid).mem = s.mem := rfl
@[simp] theorem State.nextUid_layout :
    (s.nextUid).layout = s.layout := rfl
@[simp] theorem State.nextUid_newLayout :
    (s.nextUid).newLayout = s.newLayout := rfl
@[simp] theorem State.nextUid_carving :
    (s.nextUid).carving = s.carving := rfl
@[simp] theorem State.nextUid_fns :
    (s.nextUid).fns = s.fns := rfl
@[simp] theorem State.nextUid_resetting :
    (s.nextUid).resetting = s.resetting := rfl
@[simp] theorem State.nextUid_resetCause :
    (s.nextUid).resetCause = s.resetCause := rfl
@[simp] theorem State.nextUid_replaced :
    (s.nextUid).replaced = s.replaced := rfl
@[simp] theorem State.nextUid_domain :
    (s.nextUid).domain = s.domain := rfl
@[simp] theorem State.nextUid_ide :
    (s.nextUid).ide = s.ide := rfl
@[simp] theorem State.nextUid_warps :
    (s.nextUid).warps = s.warps := rfl
@[simp] theorem State.nextUid_wgs :
    (s.nextUid).wgs = s.wgs := rfl
@[simp] theorem State.nextUid_collies :
    (s.nextUid).collies = s.collies := rfl
@[simp] theorem State.nextUid_copies :
    (s.nextUid).copies = s.copies := rfl
@[simp] theorem State.nextUid_pillows :
    (s.nextUid).pillows = s.pillows := rfl
@[simp] theorem State.nextUid_estates :
    (s.nextUid).estates = s.estates := rfl
@[simp] theorem State.nextUid_dist :
    (s.nextUid).dist = s.dist := rfl
@[simp] theorem State.nextUid_ctxs :
    (s.nextUid).ctxs = s.ctxs := rfl
@[simp] theorem State.nextUid_late :
    (s.nextUid).late = s.late := rfl
@[simp] theorem State.nextUid_mc :
    (s.nextUid).mc = s.mc := rfl
@[simp] theorem State.nextUid_mgmt :
    (s.nextUid).mgmt = s.mgmt := rfl

/-! ### mapView, passDeps, runs -/
@[simp] theorem State.mapView_sched (who : Agent) (f : View → View) :
    (s.mapView who f).sched = s.sched := by
  unfold State.mapView; repeat' split
  all_goals rfl
@[simp] theorem State.mapView_mem (who : Agent) (f : View → View) :
    (s.mapView who f).mem = s.mem := by
  unfold State.mapView; repeat' split
  all_goals rfl
@[simp] theorem State.mapView_layout (who : Agent) (f : View → View) :
    (s.mapView who f).layout = s.layout := by
  unfold State.mapView; repeat' split
  all_goals rfl
@[simp] theorem State.mapView_newLayout (who : Agent) (f : View → View) :
    (s.mapView who f).newLayout = s.newLayout := by
  unfold State.mapView; repeat' split
  all_goals rfl
@[simp] theorem State.mapView_carving (who : Agent) (f : View → View) :
    (s.mapView who f).carving = s.carving := by
  unfold State.mapView; repeat' split
  all_goals rfl
@[simp] theorem State.mapView_fns (who : Agent) (f : View → View) :
    (s.mapView who f).fns = s.fns := by
  unfold State.mapView; repeat' split
  all_goals rfl
@[simp] theorem State.mapView_resetting (who : Agent) (f : View → View) :
    (s.mapView who f).resetting = s.resetting := by
  unfold State.mapView; repeat' split
  all_goals rfl
@[simp] theorem State.mapView_resetCause (who : Agent) (f : View → View) :
    (s.mapView who f).resetCause = s.resetCause := by
  unfold State.mapView; repeat' split
  all_goals rfl
@[simp] theorem State.mapView_replaced (who : Agent) (f : View → View) :
    (s.mapView who f).replaced = s.replaced := by
  unfold State.mapView; repeat' split
  all_goals rfl
@[simp] theorem State.mapView_domain (who : Agent) (f : View → View) :
    (s.mapView who f).domain = s.domain := by
  unfold State.mapView; repeat' split
  all_goals rfl
@[simp] theorem State.mapView_ide (who : Agent) (f : View → View) :
    (s.mapView who f).ide = s.ide := by
  unfold State.mapView; repeat' split
  all_goals rfl
@[simp] theorem State.mapView_wgs (who : Agent) (f : View → View) :
    (s.mapView who f).wgs = s.wgs := by
  unfold State.mapView; repeat' split
  all_goals rfl
@[simp] theorem State.mapView_copies (who : Agent) (f : View → View) :
    (s.mapView who f).copies = s.copies := by
  unfold State.mapView; repeat' split
  all_goals rfl
@[simp] theorem State.mapView_pillows (who : Agent) (f : View → View) :
    (s.mapView who f).pillows = s.pillows := by
  unfold State.mapView; repeat' split
  all_goals rfl
@[simp] theorem State.mapView_estates (who : Agent) (f : View → View) :
    (s.mapView who f).estates = s.estates := by
  unfold State.mapView; repeat' split
  all_goals rfl
@[simp] theorem State.mapView_dist (who : Agent) (f : View → View) :
    (s.mapView who f).dist = s.dist := by
  unfold State.mapView; repeat' split
  all_goals rfl
@[simp] theorem State.mapView_ctxs (who : Agent) (f : View → View) :
    (s.mapView who f).ctxs = s.ctxs := by
  unfold State.mapView; repeat' split
  all_goals rfl
@[simp] theorem State.mapView_late (who : Agent) (f : View → View) :
    (s.mapView who f).late = s.late := by
  unfold State.mapView; repeat' split
  all_goals rfl
@[simp] theorem State.mapView_mc (who : Agent) (f : View → View) :
    (s.mapView who f).mc = s.mc := by
  unfold State.mapView; repeat' split
  all_goals rfl
@[simp] theorem State.mapView_mgmt (who : Agent) (f : View → View) :
    (s.mapView who f).mgmt = s.mgmt := by
  unfold State.mapView; repeat' split
  all_goals rfl
@[simp] theorem State.passDeps_mem (a : Agent) (i : Instr) :
    (s.passDeps a i).mem = s.mem := by
  unfold State.passDeps; repeat' split
  all_goals rfl
@[simp] theorem State.passDeps_layout (a : Agent) (i : Instr) :
    (s.passDeps a i).layout = s.layout := by
  unfold State.passDeps; repeat' split
  all_goals rfl
@[simp] theorem State.passDeps_newLayout (a : Agent) (i : Instr) :
    (s.passDeps a i).newLayout = s.newLayout := by
  unfold State.passDeps; repeat' split
  all_goals rfl
@[simp] theorem State.passDeps_carving (a : Agent) (i : Instr) :
    (s.passDeps a i).carving = s.carving := by
  unfold State.passDeps; repeat' split
  all_goals rfl
@[simp] theorem State.passDeps_fns (a : Agent) (i : Instr) :
    (s.passDeps a i).fns = s.fns := by
  unfold State.passDeps; repeat' split
  all_goals rfl
@[simp] theorem State.passDeps_resetting (a : Agent) (i : Instr) :
    (s.passDeps a i).resetting = s.resetting := by
  unfold State.passDeps; repeat' split
  all_goals rfl
@[simp] theorem State.passDeps_resetCause (a : Agent) (i : Instr) :
    (s.passDeps a i).resetCause = s.resetCause := by
  unfold State.passDeps; repeat' split
  all_goals rfl
@[simp] theorem State.passDeps_replaced (a : Agent) (i : Instr) :
    (s.passDeps a i).replaced = s.replaced := by
  unfold State.passDeps; repeat' split
  all_goals rfl
@[simp] theorem State.passDeps_domain (a : Agent) (i : Instr) :
    (s.passDeps a i).domain = s.domain := by
  unfold State.passDeps; repeat' split
  all_goals rfl
@[simp] theorem State.passDeps_ide (a : Agent) (i : Instr) :
    (s.passDeps a i).ide = s.ide := by
  unfold State.passDeps; repeat' split
  all_goals rfl
@[simp] theorem State.passDeps_wgs (a : Agent) (i : Instr) :
    (s.passDeps a i).wgs = s.wgs := by
  unfold State.passDeps; repeat' split
  all_goals rfl
@[simp] theorem State.passDeps_copies (a : Agent) (i : Instr) :
    (s.passDeps a i).copies = s.copies := by
  unfold State.passDeps; repeat' split
  all_goals rfl
@[simp] theorem State.passDeps_pillows (a : Agent) (i : Instr) :
    (s.passDeps a i).pillows = s.pillows := by
  unfold State.passDeps; repeat' split
  all_goals rfl
@[simp] theorem State.passDeps_estates (a : Agent) (i : Instr) :
    (s.passDeps a i).estates = s.estates := by
  unfold State.passDeps; repeat' split
  all_goals rfl
@[simp] theorem State.passDeps_dist (a : Agent) (i : Instr) :
    (s.passDeps a i).dist = s.dist := by
  unfold State.passDeps; repeat' split
  all_goals rfl
@[simp] theorem State.passDeps_ctxs (a : Agent) (i : Instr) :
    (s.passDeps a i).ctxs = s.ctxs := by
  unfold State.passDeps; repeat' split
  all_goals rfl
@[simp] theorem State.passDeps_late (a : Agent) (i : Instr) :
    (s.passDeps a i).late = s.late := by
  unfold State.passDeps; repeat' split
  all_goals rfl
@[simp] theorem State.passDeps_mc (a : Agent) (i : Instr) :
    (s.passDeps a i).mc = s.mc := by
  unfold State.passDeps; repeat' split
  all_goals rfl
@[simp] theorem State.passDeps_mgmt (a : Agent) (i : Instr) :
    (s.passDeps a i).mgmt = s.mgmt := by
  unfold State.passDeps; repeat' split
  all_goals rfl
/-- Passing dependencies on changes the warps, the threads and the moment that new reads may not precede. -/
theorem State.passDeps_sched (a : Agent) (i : Instr) :
    (s.passDeps a i).sched = { s.sched with dep := (s.passDeps a i).sched.dep } := by
  unfold State.passDeps; repeat' split
  all_goals rfl
@[simp] theorem State.runs_sched (a : Agent) (i : Instr) :
    (s.runs a i).sched = { s.sched with cur := some a, issued := s.noteIssue a, dep := (s.passDeps a i).sched.dep } := by
  simp only [State.runs]
  rw [State.passDeps_sched]
@[simp] theorem State.runs_warps (a : Agent) (i : Instr) :
    (s.runs a i).warps = (s.passDeps a i).warps := rfl
@[simp] theorem State.runs_collies (a : Agent) (i : Instr) :
    (s.runs a i).collies = (s.passDeps a i).collies := rfl
@[simp] theorem State.runs_mem (a : Agent) (i : Instr) :
    (s.runs a i).mem = s.mem := s.passDeps_mem a i
@[simp] theorem State.runs_layout (a : Agent) (i : Instr) :
    (s.runs a i).layout = s.layout := s.passDeps_layout a i
@[simp] theorem State.runs_newLayout (a : Agent) (i : Instr) :
    (s.runs a i).newLayout = s.newLayout := s.passDeps_newLayout a i
@[simp] theorem State.runs_carving (a : Agent) (i : Instr) :
    (s.runs a i).carving = s.carving := s.passDeps_carving a i
@[simp] theorem State.runs_fns (a : Agent) (i : Instr) :
    (s.runs a i).fns = s.fns := s.passDeps_fns a i
@[simp] theorem State.runs_resetting (a : Agent) (i : Instr) :
    (s.runs a i).resetting = s.resetting := s.passDeps_resetting a i
@[simp] theorem State.runs_resetCause (a : Agent) (i : Instr) :
    (s.runs a i).resetCause = s.resetCause := s.passDeps_resetCause a i
@[simp] theorem State.runs_replaced (a : Agent) (i : Instr) :
    (s.runs a i).replaced = s.replaced := s.passDeps_replaced a i
@[simp] theorem State.runs_domain (a : Agent) (i : Instr) :
    (s.runs a i).domain = s.domain := s.passDeps_domain a i
@[simp] theorem State.runs_ide (a : Agent) (i : Instr) :
    (s.runs a i).ide = s.ide := s.passDeps_ide a i
@[simp] theorem State.runs_wgs (a : Agent) (i : Instr) :
    (s.runs a i).wgs = s.wgs := s.passDeps_wgs a i
@[simp] theorem State.runs_copies (a : Agent) (i : Instr) :
    (s.runs a i).copies = s.copies := s.passDeps_copies a i
@[simp] theorem State.runs_pillows (a : Agent) (i : Instr) :
    (s.runs a i).pillows = s.pillows := s.passDeps_pillows a i
@[simp] theorem State.runs_estates (a : Agent) (i : Instr) :
    (s.runs a i).estates = s.estates := s.passDeps_estates a i
@[simp] theorem State.runs_dist (a : Agent) (i : Instr) :
    (s.runs a i).dist = s.dist := s.passDeps_dist a i
@[simp] theorem State.runs_ctxs (a : Agent) (i : Instr) :
    (s.runs a i).ctxs = s.ctxs := s.passDeps_ctxs a i
@[simp] theorem State.runs_late (a : Agent) (i : Instr) :
    (s.runs a i).late = s.late := s.passDeps_late a i
@[simp] theorem State.runs_mc (a : Agent) (i : Instr) :
    (s.runs a i).mc = s.mc := s.passDeps_mc a i
@[simp] theorem State.runs_mgmt (a : Agent) (i : Instr) :
    (s.runs a i).mgmt = s.mgmt := s.passDeps_mgmt a i

/-! ### withMem -/
@[simp] theorem State.withMem_sched (m : Memory) :
    (s.withMem m).sched = s.sched := rfl
@[simp] theorem State.withMem_mem (m : Memory) :
    (s.withMem m).mem = m := rfl
@[simp] theorem State.withMem_layout (m : Memory) :
    (s.withMem m).layout = s.layout := rfl
@[simp] theorem State.withMem_newLayout (m : Memory) :
    (s.withMem m).newLayout = s.newLayout := rfl
@[simp] theorem State.withMem_carving (m : Memory) :
    (s.withMem m).carving = s.carving := rfl
@[simp] theorem State.withMem_fns (m : Memory) :
    (s.withMem m).fns = s.fns := rfl
@[simp] theorem State.withMem_resetting (m : Memory) :
    (s.withMem m).resetting = s.resetting := rfl
@[simp] theorem State.withMem_resetCause (m : Memory) :
    (s.withMem m).resetCause = s.resetCause := rfl
@[simp] theorem State.withMem_replaced (m : Memory) :
    (s.withMem m).replaced = s.replaced := rfl
@[simp] theorem State.withMem_domain (m : Memory) :
    (s.withMem m).domain = s.domain := rfl
@[simp] theorem State.withMem_ide (m : Memory) :
    (s.withMem m).ide = s.ide := rfl
@[simp] theorem State.withMem_warps (m : Memory) :
    (s.withMem m).warps = s.warps := rfl
@[simp] theorem State.withMem_wgs (m : Memory) :
    (s.withMem m).wgs = s.wgs := rfl
@[simp] theorem State.withMem_collies (m : Memory) :
    (s.withMem m).collies = s.collies := rfl
@[simp] theorem State.withMem_copies (m : Memory) :
    (s.withMem m).copies = s.copies := rfl
@[simp] theorem State.withMem_pillows (m : Memory) :
    (s.withMem m).pillows = s.pillows := rfl
@[simp] theorem State.withMem_estates (m : Memory) :
    (s.withMem m).estates = s.estates := rfl
@[simp] theorem State.withMem_dist (m : Memory) :
    (s.withMem m).dist = s.dist := rfl
@[simp] theorem State.withMem_ctxs (m : Memory) :
    (s.withMem m).ctxs = s.ctxs := rfl
@[simp] theorem State.withMem_late (m : Memory) :
    (s.withMem m).late = s.late := rfl
@[simp] theorem State.withMem_mc (m : Memory) :
    (s.withMem m).mc = s.mc := rfl
@[simp] theorem State.withMem_mgmt (m : Memory) :
    (s.withMem m).mgmt = s.mgmt := rfl

/-! ### putWarp -/
@[simp] theorem State.putWarp_sched (w : Warp) :
    (s.putWarp w).sched = s.sched := rfl
@[simp] theorem State.putWarp_mem (w : Warp) :
    (s.putWarp w).mem = s.mem := rfl
@[simp] theorem State.putWarp_layout (w : Warp) :
    (s.putWarp w).layout = s.layout := rfl
@[simp] theorem State.putWarp_newLayout (w : Warp) :
    (s.putWarp w).newLayout = s.newLayout := rfl
@[simp] theorem State.putWarp_carving (w : Warp) :
    (s.putWarp w).carving = s.carving := rfl
@[simp] theorem State.putWarp_fns (w : Warp) :
    (s.putWarp w).fns = s.fns := rfl
@[simp] theorem State.putWarp_resetting (w : Warp) :
    (s.putWarp w).resetting = s.resetting := rfl
@[simp] theorem State.putWarp_resetCause (w : Warp) :
    (s.putWarp w).resetCause = s.resetCause := rfl
@[simp] theorem State.putWarp_replaced (w : Warp) :
    (s.putWarp w).replaced = s.replaced := rfl
@[simp] theorem State.putWarp_domain (w : Warp) :
    (s.putWarp w).domain = s.domain := rfl
@[simp] theorem State.putWarp_ide (w : Warp) :
    (s.putWarp w).ide = s.ide := rfl
@[simp] theorem State.putWarp_warps (w : Warp) :
    (s.putWarp w).warps = s.warps.map fun v => if v.core = w.core ∧ v.slot = w.slot then w else v := rfl
@[simp] theorem State.putWarp_wgs (w : Warp) :
    (s.putWarp w).wgs = s.wgs := rfl
@[simp] theorem State.putWarp_collies (w : Warp) :
    (s.putWarp w).collies = s.collies := rfl
@[simp] theorem State.putWarp_copies (w : Warp) :
    (s.putWarp w).copies = s.copies := rfl
@[simp] theorem State.putWarp_pillows (w : Warp) :
    (s.putWarp w).pillows = s.pillows := rfl
@[simp] theorem State.putWarp_estates (w : Warp) :
    (s.putWarp w).estates = s.estates := rfl
@[simp] theorem State.putWarp_dist (w : Warp) :
    (s.putWarp w).dist = s.dist := rfl
@[simp] theorem State.putWarp_ctxs (w : Warp) :
    (s.putWarp w).ctxs = s.ctxs := rfl
@[simp] theorem State.putWarp_late (w : Warp) :
    (s.putWarp w).late = s.late := rfl
@[simp] theorem State.putWarp_mc (w : Warp) :
    (s.putWarp w).mc = s.mc := rfl
@[simp] theorem State.putWarp_mgmt (w : Warp) :
    (s.putWarp w).mgmt = s.mgmt := rfl

/-! ### putSeat -/
@[simp] theorem State.putSeat_sched (q : Seat) :
    (s.putSeat q).sched = s.sched := rfl
@[simp] theorem State.putSeat_mem (q : Seat) :
    (s.putSeat q).mem = s.mem := rfl
@[simp] theorem State.putSeat_layout (q : Seat) :
    (s.putSeat q).layout = s.layout := rfl
@[simp] theorem State.putSeat_newLayout (q : Seat) :
    (s.putSeat q).newLayout = s.newLayout := rfl
@[simp] theorem State.putSeat_carving (q : Seat) :
    (s.putSeat q).carving = s.carving := rfl
@[simp] theorem State.putSeat_fns (q : Seat) :
    (s.putSeat q).fns = s.fns := rfl
@[simp] theorem State.putSeat_resetting (q : Seat) :
    (s.putSeat q).resetting = s.resetting := rfl
@[simp] theorem State.putSeat_resetCause (q : Seat) :
    (s.putSeat q).resetCause = s.resetCause := rfl
@[simp] theorem State.putSeat_replaced (q : Seat) :
    (s.putSeat q).replaced = s.replaced := rfl
@[simp] theorem State.putSeat_domain (q : Seat) :
    (s.putSeat q).domain = s.domain := rfl
@[simp] theorem State.putSeat_ide (q : Seat) :
    (s.putSeat q).ide = s.ide := rfl
@[simp] theorem State.putSeat_warps (q : Seat) :
    (s.putSeat q).warps = (s.putWarp (q.w.putGang q.lead q.g)).warps := rfl
@[simp] theorem State.putSeat_wgs (q : Seat) :
    (s.putSeat q).wgs = s.wgs := rfl
@[simp] theorem State.putSeat_collies (q : Seat) :
    (s.putSeat q).collies = s.collies := rfl
@[simp] theorem State.putSeat_copies (q : Seat) :
    (s.putSeat q).copies = s.copies := rfl
@[simp] theorem State.putSeat_pillows (q : Seat) :
    (s.putSeat q).pillows = s.pillows := rfl
@[simp] theorem State.putSeat_estates (q : Seat) :
    (s.putSeat q).estates = s.estates := rfl
@[simp] theorem State.putSeat_dist (q : Seat) :
    (s.putSeat q).dist = s.dist := rfl
@[simp] theorem State.putSeat_ctxs (q : Seat) :
    (s.putSeat q).ctxs = s.ctxs := rfl
@[simp] theorem State.putSeat_late (q : Seat) :
    (s.putSeat q).late = s.late := rfl
@[simp] theorem State.putSeat_mc (q : Seat) :
    (s.putSeat q).mc = s.mc := rfl
@[simp] theorem State.putSeat_mgmt (q : Seat) :
    (s.putSeat q).mgmt = s.mgmt := rfl

/-! ### putWg -/
@[simp] theorem State.putWg_sched (g : Workgroup) :
    (s.putWg g).sched = s.sched := rfl
@[simp] theorem State.putWg_mem (g : Workgroup) :
    (s.putWg g).mem = s.mem := rfl
@[simp] theorem State.putWg_layout (g : Workgroup) :
    (s.putWg g).layout = s.layout := rfl
@[simp] theorem State.putWg_newLayout (g : Workgroup) :
    (s.putWg g).newLayout = s.newLayout := rfl
@[simp] theorem State.putWg_carving (g : Workgroup) :
    (s.putWg g).carving = s.carving := rfl
@[simp] theorem State.putWg_fns (g : Workgroup) :
    (s.putWg g).fns = s.fns := rfl
@[simp] theorem State.putWg_resetting (g : Workgroup) :
    (s.putWg g).resetting = s.resetting := rfl
@[simp] theorem State.putWg_resetCause (g : Workgroup) :
    (s.putWg g).resetCause = s.resetCause := rfl
@[simp] theorem State.putWg_replaced (g : Workgroup) :
    (s.putWg g).replaced = s.replaced := rfl
@[simp] theorem State.putWg_domain (g : Workgroup) :
    (s.putWg g).domain = s.domain := rfl
@[simp] theorem State.putWg_ide (g : Workgroup) :
    (s.putWg g).ide = s.ide := rfl
@[simp] theorem State.putWg_warps (g : Workgroup) :
    (s.putWg g).warps = s.warps := rfl
@[simp] theorem State.putWg_wgs (g : Workgroup) :
    (s.putWg g).wgs = s.wgs.map fun h => if h.uid = g.uid then g else h := rfl
@[simp] theorem State.putWg_collies (g : Workgroup) :
    (s.putWg g).collies = s.collies := rfl
@[simp] theorem State.putWg_copies (g : Workgroup) :
    (s.putWg g).copies = s.copies := rfl
@[simp] theorem State.putWg_pillows (g : Workgroup) :
    (s.putWg g).pillows = s.pillows := rfl
@[simp] theorem State.putWg_estates (g : Workgroup) :
    (s.putWg g).estates = s.estates := rfl
@[simp] theorem State.putWg_dist (g : Workgroup) :
    (s.putWg g).dist = s.dist := rfl
@[simp] theorem State.putWg_ctxs (g : Workgroup) :
    (s.putWg g).ctxs = s.ctxs := rfl
@[simp] theorem State.putWg_late (g : Workgroup) :
    (s.putWg g).late = s.late := rfl
@[simp] theorem State.putWg_mc (g : Workgroup) :
    (s.putWg g).mc = s.mc := rfl
@[simp] theorem State.putWg_mgmt (g : Workgroup) :
    (s.putWg g).mgmt = s.mgmt := rfl

/-! ### putCollie -/
@[simp] theorem State.putCollie_sched (c : Collie) :
    (s.putCollie c).sched = s.sched := rfl
@[simp] theorem State.putCollie_mem (c : Collie) :
    (s.putCollie c).mem = s.mem := rfl
@[simp] theorem State.putCollie_layout (c : Collie) :
    (s.putCollie c).layout = s.layout := rfl
@[simp] theorem State.putCollie_newLayout (c : Collie) :
    (s.putCollie c).newLayout = s.newLayout := rfl
@[simp] theorem State.putCollie_carving (c : Collie) :
    (s.putCollie c).carving = s.carving := rfl
@[simp] theorem State.putCollie_fns (c : Collie) :
    (s.putCollie c).fns = s.fns := rfl
@[simp] theorem State.putCollie_resetting (c : Collie) :
    (s.putCollie c).resetting = s.resetting := rfl
@[simp] theorem State.putCollie_resetCause (c : Collie) :
    (s.putCollie c).resetCause = s.resetCause := rfl
@[simp] theorem State.putCollie_replaced (c : Collie) :
    (s.putCollie c).replaced = s.replaced := rfl
@[simp] theorem State.putCollie_domain (c : Collie) :
    (s.putCollie c).domain = s.domain := rfl
@[simp] theorem State.putCollie_ide (c : Collie) :
    (s.putCollie c).ide = s.ide := rfl
@[simp] theorem State.putCollie_warps (c : Collie) :
    (s.putCollie c).warps = s.warps := rfl
@[simp] theorem State.putCollie_wgs (c : Collie) :
    (s.putCollie c).wgs = s.wgs := rfl
@[simp] theorem State.putCollie_collies (c : Collie) :
    (s.putCollie c).collies = s.collies.map fun d => if d.core = c.core ∧ d.thread = c.thread then c else d := rfl
@[simp] theorem State.putCollie_copies (c : Collie) :
    (s.putCollie c).copies = s.copies := rfl
@[simp] theorem State.putCollie_pillows (c : Collie) :
    (s.putCollie c).pillows = s.pillows := rfl
@[simp] theorem State.putCollie_estates (c : Collie) :
    (s.putCollie c).estates = s.estates := rfl
@[simp] theorem State.putCollie_dist (c : Collie) :
    (s.putCollie c).dist = s.dist := rfl
@[simp] theorem State.putCollie_ctxs (c : Collie) :
    (s.putCollie c).ctxs = s.ctxs := rfl
@[simp] theorem State.putCollie_late (c : Collie) :
    (s.putCollie c).late = s.late := rfl
@[simp] theorem State.putCollie_mc (c : Collie) :
    (s.putCollie c).mc = s.mc := rfl
@[simp] theorem State.putCollie_mgmt (c : Collie) :
    (s.putCollie c).mgmt = s.mgmt := rfl

/-! ### putCtx -/
@[simp] theorem State.putCtx_sched (c : Context) :
    (s.putCtx c).sched = s.sched := rfl
@[simp] theorem State.putCtx_mem (c : Context) :
    (s.putCtx c).mem = s.mem := rfl
@[simp] theorem State.putCtx_layout (c : Context) :
    (s.putCtx c).layout = s.layout := rfl
@[simp] theorem State.putCtx_newLayout (c : Context) :
    (s.putCtx c).newLayout = s.newLayout := rfl
@[simp] theorem State.putCtx_carving (c : Context) :
    (s.putCtx c).carving = s.carving := rfl
@[simp] theorem State.putCtx_fns (c : Context) :
    (s.putCtx c).fns = s.fns := rfl
@[simp] theorem State.putCtx_resetting (c : Context) :
    (s.putCtx c).resetting = s.resetting := rfl
@[simp] theorem State.putCtx_resetCause (c : Context) :
    (s.putCtx c).resetCause = s.resetCause := rfl
@[simp] theorem State.putCtx_replaced (c : Context) :
    (s.putCtx c).replaced = s.replaced := rfl
@[simp] theorem State.putCtx_domain (c : Context) :
    (s.putCtx c).domain = s.domain := rfl
@[simp] theorem State.putCtx_ide (c : Context) :
    (s.putCtx c).ide = s.ide := rfl
@[simp] theorem State.putCtx_warps (c : Context) :
    (s.putCtx c).warps = s.warps := rfl
@[simp] theorem State.putCtx_wgs (c : Context) :
    (s.putCtx c).wgs = s.wgs := rfl
@[simp] theorem State.putCtx_collies (c : Context) :
    (s.putCtx c).collies = s.collies := rfl
@[simp] theorem State.putCtx_copies (c : Context) :
    (s.putCtx c).copies = s.copies := rfl
@[simp] theorem State.putCtx_pillows (c : Context) :
    (s.putCtx c).pillows = s.pillows := rfl
@[simp] theorem State.putCtx_estates (c : Context) :
    (s.putCtx c).estates = s.estates := rfl
@[simp] theorem State.putCtx_dist (c : Context) :
    (s.putCtx c).dist = s.dist := rfl
@[simp] theorem State.putCtx_ctxs (c : Context) :
    (s.putCtx c).ctxs = s.ctxs.map fun d => if d.owner = c.owner ∧ d.num = c.num then c else d := rfl
@[simp] theorem State.putCtx_late (c : Context) :
    (s.putCtx c).late = s.late := rfl
@[simp] theorem State.putCtx_mc (c : Context) :
    (s.putCtx c).mc = s.mc := rfl
@[simp] theorem State.putCtx_mgmt (c : Context) :
    (s.putCtx c).mgmt = s.mgmt := rfl

/-! ### putFn -/
@[simp] theorem State.putFn_sched (fn : Nat) (f : HostFn) :
    (s.putFn fn f).sched = s.sched := rfl
@[simp] theorem State.putFn_mem (fn : Nat) (f : HostFn) :
    (s.putFn fn f).mem = s.mem := rfl
@[simp] theorem State.putFn_layout (fn : Nat) (f : HostFn) :
    (s.putFn fn f).layout = s.layout := rfl
@[simp] theorem State.putFn_newLayout (fn : Nat) (f : HostFn) :
    (s.putFn fn f).newLayout = s.newLayout := rfl
@[simp] theorem State.putFn_carving (fn : Nat) (f : HostFn) :
    (s.putFn fn f).carving = s.carving := rfl
@[simp] theorem State.putFn_fns (fn : Nat) (f : HostFn) :
    (s.putFn fn f).fns = sparseSet {} s.fns fn f := rfl
@[simp] theorem State.putFn_resetting (fn : Nat) (f : HostFn) :
    (s.putFn fn f).resetting = s.resetting := rfl
@[simp] theorem State.putFn_resetCause (fn : Nat) (f : HostFn) :
    (s.putFn fn f).resetCause = s.resetCause := rfl
@[simp] theorem State.putFn_replaced (fn : Nat) (f : HostFn) :
    (s.putFn fn f).replaced = s.replaced := rfl
@[simp] theorem State.putFn_domain (fn : Nat) (f : HostFn) :
    (s.putFn fn f).domain = s.domain := rfl
@[simp] theorem State.putFn_ide (fn : Nat) (f : HostFn) :
    (s.putFn fn f).ide = s.ide := rfl
@[simp] theorem State.putFn_warps (fn : Nat) (f : HostFn) :
    (s.putFn fn f).warps = s.warps := rfl
@[simp] theorem State.putFn_wgs (fn : Nat) (f : HostFn) :
    (s.putFn fn f).wgs = s.wgs := rfl
@[simp] theorem State.putFn_collies (fn : Nat) (f : HostFn) :
    (s.putFn fn f).collies = s.collies := rfl
@[simp] theorem State.putFn_copies (fn : Nat) (f : HostFn) :
    (s.putFn fn f).copies = s.copies := rfl
@[simp] theorem State.putFn_pillows (fn : Nat) (f : HostFn) :
    (s.putFn fn f).pillows = s.pillows := rfl
@[simp] theorem State.putFn_estates (fn : Nat) (f : HostFn) :
    (s.putFn fn f).estates = s.estates := rfl
@[simp] theorem State.putFn_dist (fn : Nat) (f : HostFn) :
    (s.putFn fn f).dist = s.dist := rfl
@[simp] theorem State.putFn_ctxs (fn : Nat) (f : HostFn) :
    (s.putFn fn f).ctxs = s.ctxs := rfl
@[simp] theorem State.putFn_late (fn : Nat) (f : HostFn) :
    (s.putFn fn f).late = s.late := rfl
@[simp] theorem State.putFn_mc (fn : Nat) (f : HostFn) :
    (s.putFn fn f).mc = s.mc := rfl
@[simp] theorem State.putFn_mgmt (fn : Nat) (f : HostFn) :
    (s.putFn fn f).mgmt = s.mgmt := rfl

/-! ### putMgmt -/
@[simp] theorem State.putMgmt_sched (m : Mgmt) :
    (s.putMgmt m).sched = s.sched := rfl
@[simp] theorem State.putMgmt_mem (m : Mgmt) :
    (s.putMgmt m).mem = s.mem := rfl
@[simp] theorem State.putMgmt_layout (m : Mgmt) :
    (s.putMgmt m).layout = s.layout := rfl
@[simp] theorem State.putMgmt_newLayout (m : Mgmt) :
    (s.putMgmt m).newLayout = s.newLayout := rfl
@[simp] theorem State.putMgmt_carving (m : Mgmt) :
    (s.putMgmt m).carving = s.carving := rfl
@[simp] theorem State.putMgmt_fns (m : Mgmt) :
    (s.putMgmt m).fns = s.fns := rfl
@[simp] theorem State.putMgmt_resetting (m : Mgmt) :
    (s.putMgmt m).resetting = s.resetting := rfl
@[simp] theorem State.putMgmt_resetCause (m : Mgmt) :
    (s.putMgmt m).resetCause = s.resetCause := rfl
@[simp] theorem State.putMgmt_replaced (m : Mgmt) :
    (s.putMgmt m).replaced = s.replaced := rfl
@[simp] theorem State.putMgmt_domain (m : Mgmt) :
    (s.putMgmt m).domain = s.domain := rfl
@[simp] theorem State.putMgmt_ide (m : Mgmt) :
    (s.putMgmt m).ide = s.ide := rfl
@[simp] theorem State.putMgmt_warps (m : Mgmt) :
    (s.putMgmt m).warps = s.warps := rfl
@[simp] theorem State.putMgmt_wgs (m : Mgmt) :
    (s.putMgmt m).wgs = s.wgs := rfl
@[simp] theorem State.putMgmt_collies (m : Mgmt) :
    (s.putMgmt m).collies = s.collies := rfl
@[simp] theorem State.putMgmt_copies (m : Mgmt) :
    (s.putMgmt m).copies = s.copies := rfl
@[simp] theorem State.putMgmt_pillows (m : Mgmt) :
    (s.putMgmt m).pillows = s.pillows := rfl
@[simp] theorem State.putMgmt_estates (m : Mgmt) :
    (s.putMgmt m).estates = s.estates := rfl
@[simp] theorem State.putMgmt_dist (m : Mgmt) :
    (s.putMgmt m).dist = s.dist := rfl
@[simp] theorem State.putMgmt_ctxs (m : Mgmt) :
    (s.putMgmt m).ctxs = s.ctxs := rfl
@[simp] theorem State.putMgmt_late (m : Mgmt) :
    (s.putMgmt m).late = s.late := rfl
@[simp] theorem State.putMgmt_mc (m : Mgmt) :
    (s.putMgmt m).mc = s.mc := rfl
@[simp] theorem State.putMgmt_mgmt (m : Mgmt) :
    (s.putMgmt m).mgmt = m := rfl

/-! ### takeEstate -/
@[simp] theorem State.takeEstate_sched (e : Estate) :
    (s.takeEstate e).sched = s.sched := rfl
@[simp] theorem State.takeEstate_mem (e : Estate) :
    (s.takeEstate e).mem = s.mem := rfl
@[simp] theorem State.takeEstate_layout (e : Estate) :
    (s.takeEstate e).layout = s.layout := rfl
@[simp] theorem State.takeEstate_newLayout (e : Estate) :
    (s.takeEstate e).newLayout = s.newLayout := rfl
@[simp] theorem State.takeEstate_carving (e : Estate) :
    (s.takeEstate e).carving = s.carving := rfl
@[simp] theorem State.takeEstate_fns (e : Estate) :
    (s.takeEstate e).fns = s.fns := rfl
@[simp] theorem State.takeEstate_resetting (e : Estate) :
    (s.takeEstate e).resetting = s.resetting := rfl
@[simp] theorem State.takeEstate_resetCause (e : Estate) :
    (s.takeEstate e).resetCause = s.resetCause := rfl
@[simp] theorem State.takeEstate_replaced (e : Estate) :
    (s.takeEstate e).replaced = s.replaced := rfl
@[simp] theorem State.takeEstate_domain (e : Estate) :
    (s.takeEstate e).domain = s.domain := rfl
@[simp] theorem State.takeEstate_ide (e : Estate) :
    (s.takeEstate e).ide = s.ide := rfl
@[simp] theorem State.takeEstate_warps (e : Estate) :
    (s.takeEstate e).warps = s.warps := rfl
@[simp] theorem State.takeEstate_wgs (e : Estate) :
    (s.takeEstate e).wgs = s.wgs := rfl
@[simp] theorem State.takeEstate_collies (e : Estate) :
    (s.takeEstate e).collies = s.collies := rfl
@[simp] theorem State.takeEstate_copies (e : Estate) :
    (s.takeEstate e).copies = s.copies := rfl
@[simp] theorem State.takeEstate_pillows (e : Estate) :
    (s.takeEstate e).pillows = s.pillows := rfl
@[simp] theorem State.takeEstate_estates (e : Estate) :
    (s.takeEstate e).estates = s.estates.filter fun f => f.id != e.id := rfl
@[simp] theorem State.takeEstate_dist (e : Estate) :
    (s.takeEstate e).dist = s.dist := rfl
@[simp] theorem State.takeEstate_ctxs (e : Estate) :
    (s.takeEstate e).ctxs = s.ctxs := rfl
@[simp] theorem State.takeEstate_late (e : Estate) :
    (s.takeEstate e).late = s.late := rfl
@[simp] theorem State.takeEstate_mc (e : Estate) :
    (s.takeEstate e).mc = s.mc := rfl
@[simp] theorem State.takeEstate_mgmt (e : Estate) :
    (s.takeEstate e).mgmt = s.mgmt := rfl

/-! ### putEstate -/
@[simp] theorem State.putEstate_sched (e : Estate) :
    (s.putEstate e).sched = s.sched := rfl
@[simp] theorem State.putEstate_mem (e : Estate) :
    (s.putEstate e).mem = s.mem := rfl
@[simp] theorem State.putEstate_layout (e : Estate) :
    (s.putEstate e).layout = s.layout := rfl
@[simp] theorem State.putEstate_newLayout (e : Estate) :
    (s.putEstate e).newLayout = s.newLayout := rfl
@[simp] theorem State.putEstate_carving (e : Estate) :
    (s.putEstate e).carving = s.carving := rfl
@[simp] theorem State.putEstate_fns (e : Estate) :
    (s.putEstate e).fns = s.fns := rfl
@[simp] theorem State.putEstate_resetting (e : Estate) :
    (s.putEstate e).resetting = s.resetting := rfl
@[simp] theorem State.putEstate_resetCause (e : Estate) :
    (s.putEstate e).resetCause = s.resetCause := rfl
@[simp] theorem State.putEstate_replaced (e : Estate) :
    (s.putEstate e).replaced = s.replaced := rfl
@[simp] theorem State.putEstate_domain (e : Estate) :
    (s.putEstate e).domain = s.domain := rfl
@[simp] theorem State.putEstate_ide (e : Estate) :
    (s.putEstate e).ide = s.ide := rfl
@[simp] theorem State.putEstate_warps (e : Estate) :
    (s.putEstate e).warps = s.warps := rfl
@[simp] theorem State.putEstate_wgs (e : Estate) :
    (s.putEstate e).wgs = s.wgs := rfl
@[simp] theorem State.putEstate_collies (e : Estate) :
    (s.putEstate e).collies = s.collies := rfl
@[simp] theorem State.putEstate_copies (e : Estate) :
    (s.putEstate e).copies = s.copies := rfl
@[simp] theorem State.putEstate_pillows (e : Estate) :
    (s.putEstate e).pillows = s.pillows := rfl
@[simp] theorem State.putEstate_estates (e : Estate) :
    (s.putEstate e).estates = s.estates.map fun f => if f.id = e.id then e else f := rfl
@[simp] theorem State.putEstate_dist (e : Estate) :
    (s.putEstate e).dist = s.dist := rfl
@[simp] theorem State.putEstate_ctxs (e : Estate) :
    (s.putEstate e).ctxs = s.ctxs := rfl
@[simp] theorem State.putEstate_late (e : Estate) :
    (s.putEstate e).late = s.late := rfl
@[simp] theorem State.putEstate_mc (e : Estate) :
    (s.putEstate e).mc = s.mc := rfl
@[simp] theorem State.putEstate_mgmt (e : Estate) :
    (s.putEstate e).mgmt = s.mgmt := rfl

/-! ### mapViews and startViews: only what the agents of one workgroup have seen -/
@[simp] theorem State.mapViews_sched (uid : Nat) (f : View → View) :
    (s.mapViews uid f).sched = s.sched := rfl
@[simp] theorem State.startViews_sched (uid : Nat) :
    (s.startViews uid).sched = s.sched := rfl
@[simp] theorem State.mapViews_mem (uid : Nat) (f : View → View) :
    (s.mapViews uid f).mem = s.mem := rfl
@[simp] theorem State.startViews_mem (uid : Nat) :
    (s.startViews uid).mem = s.mem := rfl
@[simp] theorem State.mapViews_layout (uid : Nat) (f : View → View) :
    (s.mapViews uid f).layout = s.layout := rfl
@[simp] theorem State.startViews_layout (uid : Nat) :
    (s.startViews uid).layout = s.layout := rfl
@[simp] theorem State.mapViews_newLayout (uid : Nat) (f : View → View) :
    (s.mapViews uid f).newLayout = s.newLayout := rfl
@[simp] theorem State.startViews_newLayout (uid : Nat) :
    (s.startViews uid).newLayout = s.newLayout := rfl
@[simp] theorem State.mapViews_carving (uid : Nat) (f : View → View) :
    (s.mapViews uid f).carving = s.carving := rfl
@[simp] theorem State.startViews_carving (uid : Nat) :
    (s.startViews uid).carving = s.carving := rfl
@[simp] theorem State.mapViews_fns (uid : Nat) (f : View → View) :
    (s.mapViews uid f).fns = s.fns := rfl
@[simp] theorem State.startViews_fns (uid : Nat) :
    (s.startViews uid).fns = s.fns := rfl
@[simp] theorem State.mapViews_resetting (uid : Nat) (f : View → View) :
    (s.mapViews uid f).resetting = s.resetting := rfl
@[simp] theorem State.startViews_resetting (uid : Nat) :
    (s.startViews uid).resetting = s.resetting := rfl
@[simp] theorem State.mapViews_resetCause (uid : Nat) (f : View → View) :
    (s.mapViews uid f).resetCause = s.resetCause := rfl
@[simp] theorem State.startViews_resetCause (uid : Nat) :
    (s.startViews uid).resetCause = s.resetCause := rfl
@[simp] theorem State.mapViews_replaced (uid : Nat) (f : View → View) :
    (s.mapViews uid f).replaced = s.replaced := rfl
@[simp] theorem State.startViews_replaced (uid : Nat) :
    (s.startViews uid).replaced = s.replaced := rfl
@[simp] theorem State.mapViews_domain (uid : Nat) (f : View → View) :
    (s.mapViews uid f).domain = s.domain := rfl
@[simp] theorem State.startViews_domain (uid : Nat) :
    (s.startViews uid).domain = s.domain := rfl
@[simp] theorem State.mapViews_ide (uid : Nat) (f : View → View) :
    (s.mapViews uid f).ide = s.ide := rfl
@[simp] theorem State.startViews_ide (uid : Nat) :
    (s.startViews uid).ide = s.ide := rfl
@[simp] theorem State.mapViews_copies (uid : Nat) (f : View → View) :
    (s.mapViews uid f).copies = s.copies := rfl
@[simp] theorem State.startViews_copies (uid : Nat) :
    (s.startViews uid).copies = s.copies := rfl
@[simp] theorem State.mapViews_pillows (uid : Nat) (f : View → View) :
    (s.mapViews uid f).pillows = s.pillows := rfl
@[simp] theorem State.startViews_pillows (uid : Nat) :
    (s.startViews uid).pillows = s.pillows := rfl
@[simp] theorem State.mapViews_estates (uid : Nat) (f : View → View) :
    (s.mapViews uid f).estates = s.estates := rfl
@[simp] theorem State.startViews_estates (uid : Nat) :
    (s.startViews uid).estates = s.estates := rfl
@[simp] theorem State.mapViews_dist (uid : Nat) (f : View → View) :
    (s.mapViews uid f).dist = s.dist := rfl
@[simp] theorem State.startViews_dist (uid : Nat) :
    (s.startViews uid).dist = s.dist := rfl
@[simp] theorem State.mapViews_ctxs (uid : Nat) (f : View → View) :
    (s.mapViews uid f).ctxs = s.ctxs := rfl
@[simp] theorem State.startViews_ctxs (uid : Nat) :
    (s.startViews uid).ctxs = s.ctxs := rfl
@[simp] theorem State.mapViews_late (uid : Nat) (f : View → View) :
    (s.mapViews uid f).late = s.late := rfl
@[simp] theorem State.startViews_late (uid : Nat) :
    (s.startViews uid).late = s.late := rfl
@[simp] theorem State.mapViews_mc (uid : Nat) (f : View → View) :
    (s.mapViews uid f).mc = s.mc := rfl
@[simp] theorem State.startViews_mc (uid : Nat) :
    (s.startViews uid).mc = s.mc := rfl
@[simp] theorem State.mapViews_mgmt (uid : Nat) (f : View → View) :
    (s.mapViews uid f).mgmt = s.mgmt := rfl
@[simp] theorem State.startViews_mgmt (uid : Nat) :
    (s.startViews uid).mgmt = s.mgmt := rfl

/-! ### The views of a warp -/
@[simp] theorem Warp.mapViews_core (w : Warp) (sl : List Nat) (f : View → View) :
    (w.mapViews sl f).core = w.core := rfl
@[simp] theorem Warp.mapViews_slot (w : Warp) (sl : List Nat) (f : View → View) :
    (w.mapViews sl f).slot = w.slot := rfl
@[simp] theorem Warp.mapViews_wg (w : Warp) (sl : List Nat) (f : View → View) :
    (w.mapViews sl f).wg = w.wg := rfl
@[simp] theorem Warp.mapViews_index (w : Warp) (sl : List Nat) (f : View → View) :
    (w.mapViews sl f).index = w.index := rfl
@[simp] theorem Warp.mapViews_birth (w : Warp) (sl : List Nat) (f : View → View) :
    (w.mapViews sl f).birth = w.birth := rfl
@[simp] theorem Warp.mapViews_wid (w : Warp) (sl : List Nat) (f : View → View) :
    (w.mapViews sl f).wid = w.wid := rfl
@[simp] theorem Warp.mapViews_wgWarps (w : Warp) (sl : List Nat) (f : View → View) :
    (w.mapViews sl f).wgWarps = w.wgWarps := rfl
@[simp] theorem Warp.mapViews_width (w : Warp) (sl : List Nat) (f : View → View) :
    (w.mapViews sl f).width = w.width := rfl
@[simp] theorem Warp.mapViews_alloc (w : Warp) (sl : List Nat) (f : View → View) :
    (w.mapViews sl f).alloc = w.alloc := rfl
@[simp] theorem Warp.mapViews_slices (w : Warp) (sl : List Nat) (f : View → View) :
    (w.mapViews sl f).slices = w.slices := rfl
@[simp] theorem Warp.mapViews_gangs (w : Warp) (sl : List Nat) (f : View → View) :
    (w.mapViews sl f).gangs = w.gangs := rfl
@[simp] theorem Warp.mapViews_regs (w : Warp) (sl : List Nat) (f : View → View) :
    (w.mapViews sl f).regs = w.regs := rfl
@[simp] theorem Warp.mapViews_temps (w : Warp) (sl : List Nat) (f : View → View) :
    (w.mapViews sl f).temps = w.temps := rfl
@[simp] theorem Warp.mapViews_s (w : Warp) (sl : List Nat) (f : View → View) :
    (w.mapViews sl f).s = w.s := rfl
@[simp] theorem Warp.mapViews_p (w : Warp) (sl : List Nat) (f : View → View) :
    (w.mapViews sl f).p = w.p := rfl
@[simp] theorem Warp.mapViews_c (w : Warp) (sl : List Nat) (f : View → View) :
    (w.mapViews sl f).c = w.c := rfl
@[simp] theorem Warp.mapViews_k (w : Warp) (sl : List Nat) (f : View → View) :
    (w.mapViews sl f).k = w.k := rfl
@[simp] theorem Warp.mapViews_geo (w : Warp) (sl : List Nat) (f : View → View) :
    (w.mapViews sl f).geo = w.geo := rfl
@[simp] theorem Warp.mapViews_q0 (w : Warp) (sl : List Nat) (f : View → View) :
    (w.mapViews sl f).q0 = w.q0 := rfl
@[simp] theorem Warp.mapViews_q1 (w : Warp) (sl : List Nat) (f : View → View) :
    (w.mapViews sl f).q1 = w.q1 := rfl
@[simp] theorem Warp.mapViews_cover0 (w : Warp) (sl : List Nat) (f : View → View) :
    (w.mapViews sl f).cover0 = w.cover0 := rfl
@[simp] theorem Warp.mapViews_cover1 (w : Warp) (sl : List Nat) (f : View → View) :
    (w.mapViews sl f).cover1 = w.cover1 := rfl
@[simp] theorem Warp.mapViews_pend (w : Warp) (sl : List Nat) (f : View → View) :
    (w.mapViews sl f).pend = w.pend := rfl
@[simp] theorem Warp.mapViews_claims (w : Warp) (sl : List Nat) (f : View → View) :
    (w.mapViews sl f).claims = w.claims := rfl
@[simp] theorem Warp.mapViews_deposits (w : Warp) (sl : List Nat) (f : View → View) :
    (w.mapViews sl f).deposits = w.deposits := rfl
@[simp] theorem Warp.mapViews_estat (w : Warp) (sl : List Nat) (f : View → View) :
    (w.mapViews sl f).estat = w.estat := rfl
@[simp] theorem Warp.mapViews_kstep (w : Warp) (sl : List Nat) (f : View → View) :
    (w.mapViews sl f).kstep = w.kstep := rfl
@[simp] theorem Warp.mapViews_forks (w : Warp) (sl : List Nat) (f : View → View) :
    (w.mapViews sl f).forks = w.forks := rfl
@[simp] theorem Warp.mapViews_tiled (w : Warp) (sl : List Nat) (f : View → View) :
    (w.mapViews sl f).tiled = w.tiled := rfl

/-! ### What a recorded failure of a translation changes -/
@[simp] theorem State.noteFault_cells (core part ctx va path kind : Nat) (rl : Nat × Nat) :
    (s.noteFault core part ctx va path kind rl).mem.cells = s.mem.cells := rfl
@[simp] theorem State.noteFault_warps (core part ctx va path kind : Nat) (rl : Nat × Nat) :
    (s.noteFault core part ctx va path kind rl).warps = s.warps := rfl
theorem State.noteOnce_cells (part ctx va path kind : Nat) (rl : Nat × Nat) :
    (s.noteOnce part ctx va path kind rl).mem.cells = s.mem.cells := by
  unfold State.noteOnce
  split <;> rfl
theorem State.noteOnce_warps (part ctx va path kind : Nat) (rl : Nat × Nat) :
    (s.noteOnce part ctx va path kind rl).warps = s.warps := by
  unfold State.noteOnce
  split <;> rfl

end Sys2Proof.Machine
end

