-- ==== Sys2Proof/Laws/Issue.lean ====
section
/-!
SUPPORT. What issuing a word does, said once for each agent: under the conditions of Safety.lean the word's own effect
decides the next state.
-/
namespace Sys2Proof.Machine

/-! ### Finding what was put -/

theorem State.findWarp_putWarp {s : State} {w v : Warp} {core slot : Nat} (h : s.findWarp core slot = some v)
    (hc : w.core = core) (hs : w.slot = slot) : (s.putWarp w).findWarp core slot = some w := by
  subst hc hs
  simp only [State.findWarp, State.putWarp] at h ⊢
  generalize s.warps = l at h
  induction l with
  | nil => simp at h
  | cons a t ih =>
    simp only [List.map_cons, List.find?_cons] at h ⊢
    by_cases ha : a.core = w.core ∧ a.slot = w.slot
    · simp [ha]
    · have h0 : (a.core == w.core && a.slot == w.slot) = false := by simpa using ha
      rw [h0] at h
      simp only [ha, if_false, h0]
      exact ih h

theorem State.putWarp_putWarp (s : State) (v w : Warp) (hc : v.core = w.core) (hs : v.slot = w.slot) :
    (s.putWarp v).putWarp w = s.putWarp w := by
  simp only [State.putWarp, List.map_map]
  congr 1
  apply List.map_congr_left
  intro a _
  simp only [Function.comp]
  by_cases ha : a.core = w.core ∧ a.slot = w.slot
  · simp [hc, hs, ha]
  · simp [hc, hs, ha]

theorem State.findCollie_putCollie {s : State} {c d : Collie} {core thread : Nat}
    (h : s.findCollie core thread = some d) (hc : c.core = core) (ht : c.thread = thread) :
    (s.putCollie c).findCollie core thread = some c := by
  subst hc ht
  simp only [State.findCollie, State.putCollie] at h ⊢
  generalize s.collies = l at h
  induction l with
  | nil => simp at h
  | cons a t ih =>
    simp only [List.map_cons, List.find?_cons] at h ⊢
    by_cases ha : a.core = c.core ∧ a.thread = c.thread
    · simp [ha]
    · have h0 : (a.core == c.core && a.thread == c.thread) = false := by simpa using ha
      rw [h0] at h
      simp only [ha, if_false, h0]
      exact ih h

theorem State.putCollie_putCollie (s : State) (v w : Collie) (hc : v.core = w.core) (hs : v.thread = w.thread) :
    (s.putCollie v).putCollie w = s.putCollie w := by
  simp only [State.putCollie, List.map_map]
  congr 1
  apply List.map_congr_left
  intro a _
  simp only [Function.comp]
  by_cases ha : a.core = w.core ∧ a.thread = w.thread
  · simp [hc, hs, ha]
  · simp [hc, hs, ha]

theorem State.findWarp_core {s : State} {core slot : Nat} {w : Warp} (h : s.findWarp core slot = some w) :
    w.core = core ∧ w.slot = slot := by
  have := List.find?_some h
  simpa using this

theorem State.findCollie_core {s : State} {core thread : Nat} {c : Collie} (h : s.findCollie core thread = some c) :
    c.core = core ∧ c.thread = thread := by
  have := List.find?_some h
  simpa using this

theorem State.seat_some {s : State} {core slot lead : Nat} {q : Seat} (h : s.seat core slot lead = some q) :
    s.findWarp core slot = some q.w ∧ q.w.findGang lead = some q.g := by
  simp only [State.seat] at h
  split at h
  · cases h
  · rename_i w hw
    split at h
    · cases h
    · rename_i g hg
      cases h
      exact ⟨hw, hg⟩

theorem State.seat_of {s : State} {core slot lead : Nat} {w : Warp} {g : Gang} (hw : s.findWarp core slot = some w)
    (hg : w.findGang lead = some g) : s.seat core slot lead = some ⟨w, g⟩ := by
  simp [State.seat, hw, hg]

/-! ### Gangs -/

/-- What becomes of an effect's answer, for a gang. -/
def finishGang (i : Instr) (s : State) (q : Seat) (e : Eff) : State :=
  match e with
  | .done t =>
    (match t.seat q.w.core q.w.slot q.lead with
    | some r => t.putSeat (r.advance i none)
    | none => t)
  | .long t id look =>
    (match t.seat q.w.core q.w.slot q.lead with
    | some r => t.putSeat (r.advance i (some ⟨id, dstCodes q.profile i, look⟩))
    | none => t)
  | .jump t => t
  | .stay t => t
  | .trap t => s.raiseAt q t
  | .guardOvf t tr =>
    (match t.seat q.w.core q.w.slot q.lead with
    | some r =>
      if (t.ctxOf r.w.wg).guardentry = 0 then t.raiseAt r tr
      else t.enterHandler r (t.ctxOf r.w.wg).guardentry (wordOf i) 0 0x25 0
    | none => t)

/-- A word that executes: its own effect decides. -/
theorem issueGang_runs {i : Instr} {s : State} {q : Seat} (h : GangRuns i s q) (eff : Seat → State → Eff) :
    issueGang i q.w.core q.w.slot q.lead s eff = finishGang i s q (eff (s.primed q i) s.nextFree) := by
  have hpc : (fallsThrough i q.exe && pcWraps q.pc) = false := by
    rcases h.inText with h | h <;> simp [h]
  have hmust : (q.g.mustExit && i != .exit) = false := by
    cases hm : q.g.mustExit
    · rfl
    · simp [h.stays hm]
  unfold issueGang finishGang
  simp only [h.seat, h.ready, h.live, h.fate, h.kept, h.free, hpc, hmust, State.primed]
  rfl

theorem issue_gang {i : Instr} {s : State} {q : Seat} (h : GangRuns i s q) (g : Seat → State → Eff)
    (c : Collie → State → Eff) (m : Scalar → State → Eff) :
    issue i s g c m = .next (finishGang i s q (g (s.primed q i) s.nextFree)) := by
  simp only [issue, h.cur, issueGang_runs h]

@[simp] theorem State.primed_g (s : State) (q : Seat) (i : Instr) : (s.primed q i).g = q.g := rfl
@[simp] theorem State.primed_core (s : State) (q : Seat) (i : Instr) : (s.primed q i).w.core = q.w.core := rfl
@[simp] theorem State.primed_slot (s : State) (q : Seat) (i : Instr) : (s.primed q i).w.slot = q.w.slot := rfl
@[simp] theorem State.primed_gangs (s : State) (q : Seat) (i : Instr) : (s.primed q i).w.gangs = q.w.gangs := rfl
@[simp] theorem State.primed_slices (s : State) (q : Seat) (i : Instr) : (s.primed q i).w.slices = q.w.slices := rfl

/-- A warp with the place and the gangs of another one. -/
structure Warp.SamePlace (v w : Warp) : Prop where
  core : v.core = w.core
  slot : v.slot = w.slot
  gangs : v.gangs = w.gangs

theorem Warp.SamePlace.rfl' (w : Warp) : w.SamePlace w := ⟨rfl, rfl, rfl⟩

theorem Warp.write_samePlace (w : Warp) (c : Nat) (vals : List (Nat × BitVec 32)) : (w.write c vals).SamePlace w := by
  unfold Warp.write
  repeat' split
  all_goals exact ⟨rfl, rfl, rfl⟩

theorem Warp.setSlice_samePlace (w : Warp) (j : Nat) (x : Slice) : (w.setSlice j x).SamePlace w := ⟨rfl, rfl, rfl⟩

theorem Warp.SamePlace.trans {u v w : Warp} (h : u.SamePlace v) (k : v.SamePlace w) : u.SamePlace w :=
  ⟨h.core.trans k.core, h.slot.trans k.slot, h.gangs.trans k.gangs⟩

theorem Warp.mapSlices_samePlace (w : Warp) (js : List Nat) (f : Nat → Slice → Slice) : (w.mapSlices js f).SamePlace w := by
  unfold Warp.mapSlices
  induction js generalizing w with
  | nil => exact .rfl' w
  | cons j t ih => exact (ih _).trans (Warp.setSlice_samePlace w j _)

/-- A word that goes on at the next word with another warp in the gang's place. -/
theorem finishGang_done {i : Instr} {s : State} {q : Seat} (h : GangRuns i s q) {w : Warp} (hw : w.SamePlace q.w) :
    finishGang i s q (.done (s.nextFree.putWarp w)) = s.afterGang q i w := by
  obtain ⟨hf, hg⟩ := State.seat_some h.seat
  have h1 : (s.nextFree.putWarp w).findWarp q.w.core q.w.slot = some w :=
    State.findWarp_putWarp (s := s.nextFree) hf hw.core hw.slot
  have h2 : w.findGang q.lead = some q.g := by
    unfold Warp.findGang at hg ⊢
    rw [hw.gangs]; exact hg
  simp only [finishGang, State.seat_of h1 h2, State.afterGang, State.primed_g]
  have k : ∀ r : Seat, r.w.core = w.core → r.w.slot = w.slot →
      (s.nextFree.putWarp w).putSeat r = s.nextFree.putSeat r := by
    intro r h3 h4
    unfold State.putSeat
    exact State.putWarp_putWarp _ _ _ h3.symm h4.symm
  apply k
  · exact (Warp.mapSlices_samePlace _ _ _).core
  · exact (Warp.mapSlices_samePlace _ _ _).slot

/-! ### Scalar agents -/

/-- What becomes of an effect's answer, for a Collie thread. -/
def finishCollie (i : Instr) (s : State) (c : Collie) (e : Eff) : State :=
  match e with
  | .done t =>
    (match t.findCollie c.core c.thread with
    | some d => t.putCollie (d.advance i none)
    | none => t)
  | .long t id look =>
    (match t.findCollie c.core c.thread with
    | some d => t.putCollie (d.advance i (some ⟨id, dstCodes .collie i, look⟩))
    | none => t)
  | .jump t => t
  | .stay t => t
  | .trap t => s.raiseCollie c t
  | .guardOvf _ t => s.raiseCollie c t

theorem issue_collie {i : Instr} {s : State} {c : Collie} (h : CollieRuns i s c) (g : Seat → State → Eff)
    (f : Collie → State → Eff) (m : Scalar → State → Eff) :
    issue i s g f m = .next (finishCollie i s c (f c s)) := by
  have hpc : (fallsThrough i (.scal c.x) && pcWraps c.x.pc) = false := by
    rcases h.inText with h | h <;> simp [h]
  unfold issue issueCollie finishCollie
  simp only [h.cur, h.found, h.running, h.unparked, h.unheld, h.live, h.goesOn, h.fate, h.kept, h.free, hpc]
  rfl

theorem finishCollie_done {i : Instr} {s : State} {c : Collie} (h : CollieRuns i s c) (x : Scalar) :
    finishCollie i s c (.done (s.putCollie { c with x := x })) = s.afterCollie c i x := by
  have h1 : (s.putCollie { c with x := x }).findCollie c.core c.thread = some { c with x := x } :=
    State.findCollie_putCollie h.found rfl rfl
  simp only [finishCollie, h1, State.afterCollie]
  exact State.putCollie_putCollie _ _ _ rfl rfl

/-- What becomes of an effect's answer, for the controller. -/
def finishMc (i : Instr) (s : State) (e : Eff) : State :=
  match e with
  | .done t => { t with mc := { t.mc with x := t.mc.x.advance none } }
  | .long t id look => { t with mc := { t.mc with x := t.mc.x.advance (some ⟨id, dstCodes .mc i, look⟩) } }
  | .jump t => t
  | .stay t => t
  | .trap t => s.mcEnter 5 (wordOf i) t.cause 0
  | .guardOvf _ t => s.mcEnter 5 (wordOf i) t.cause 0

theorem issue_mc {i : Instr} {s : State} (h : McRuns i s) (g : Seat → State → Eff)
    (f : Collie → State → Eff) (m : Scalar → State → Eff) :
    issue i s g f m = .next (finishMc i s (m s.mc.x s)) := by
  have hpc : (fallsThrough i (.scal s.mc.x) && pcWraps s.mc.x.pc) = false := by
    rcases h.inText with h | h <;> simp [h]
  unfold issue issueMc finishMc
  simp only [h.cur, h.unheld, h.unparked, h.fate, h.kept, h.free, hpc]
  rfl

/-! ### Words that compute on registers -/

/-- f leaves the place, gangs and slices of a warp alone. -/
def KeepsPlace (f : Exe → Exe) : Prop := ∀ w sl, ((f (.simt w sl)).warpOf w).SamePlace w

theorem aluWord_computes {i : Instr} {f : Exe → Exe} (he : ∀ s, exec i s = aluWord i s f) (hf : KeepsPlace f) :
    Computes i f := by
  refine ⟨fun s q h => ?_, fun s c h => ?_, fun s h => ?_⟩
  · rw [he, aluWord, issue_gang h]
    exact congrArg _ (finishGang_done h ((hf _ _).trans ⟨rfl, rfl, rfl⟩))
  · rw [he, aluWord, issue_collie h]
    exact congrArg _ (finishCollie_done h _)
  · rw [he, aluWord, issue_mc h]
    rfl

theorem keepsPlace_wr (d : Nat) (v : Exe → List (Nat × BitVec 32)) : KeepsPlace fun x => x.wr d (v x) :=
  fun w _ => Warp.write_samePlace w d _

theorem keepsPlace_wrPr (d : Nat) (v : Exe → List (Nat × Bool)) : KeepsPlace fun x => x.wrPr d (v x) :=
  fun _ _ => ⟨rfl, rfl, rfl⟩

theorem keepsPlace_wr64 (d : Nat) (v : Exe → List (Nat × BitVec 64)) : KeepsPlace fun x => x.wr64 d (v x) := by
  intro w sl
  unfold Exe.wr64
  split
  · exact .rfl' w
  · exact (Warp.write_samePlace _ _ _).trans (Warp.write_samePlace _ _ _)

theorem keepsPlace_swr (d : Nat) (v : Exe → BitVec 32) : KeepsPlace fun x => x.swr d (v x) :=
  fun _ _ => ⟨rfl, rfl, rfl⟩

end Sys2Proof.Machine
end

