-- ==== Sys2Proof/Laws/PerInstr.lean ====
section
/-!
SUPPORT. The family RoundTrip: the decoder reads back from an instruction's word exactly that instruction, with every operand
at every value (R23, R45, R52 to R57). One lemma per constructor.
-/
set_option Elab.async false
set_option linter.unusedTactic false
set_option linter.unreachableTactic false

namespace Sys2Proof.Laws.RoundTrip

open Sys2Proof Sys2Proof.Machine

/-- The word of an instruction, if it has one, decodes to that instruction. -/
def Statement (i : Instr) : Prop := ∀ w : BitVec 32, encode i = some w → decodeWord w.toNat = .ok i

/-- A field of a number that is split at the field's two ends. -/
theorem field_at {m lo n : Nat} (r x hi : Nat) (hm : m = r + 2 ^ lo * (x + 2 ^ n * hi)) (hr : r < 2 ^ lo) (hx : x < 2 ^ n) :
    field m lo n = x := by
  subst hm
  unfold field
  rw [Nat.add_mul_div_left _ _ (Nat.two_pow_pos lo), Nat.div_eq_of_lt hr, Nat.zero_add, Nat.add_mul_mod_self_left,
    Nat.mod_eq_of_lt hx]

/-- A field of a word as a bit vector. -/
theorem fld_at {m lo n : Nat} {x : BitVec n} (r hi : Nat) (hm : m = r + 2 ^ lo * (x.toNat + 2 ^ n * hi)) (hr : r < 2 ^ lo) :
    fld m lo n = x :=
  BitVec.eq_of_toNat_eq (by simp [fld, field_at r x.toNat hi hm hr x.isLt])

/-! The number of a word that is built from one to seven fields. -/

theorem word1 {v : BitVec 32} {f a ia A : Nat} (h : mkWord f [(a, ia)] = v) (ha : 2 ^ ia = A)
    (hl : f + a * A < 4294967296) : v.toNat = f + a * A := by
  subst h ha
  exact (BitVec.toNat_ofNat _ _).trans (Nat.mod_eq_of_lt hl)
theorem word2 {v : BitVec 32} {f a ia A b ib B : Nat} (h : mkWord f [(a, ia), (b, ib)] = v) (ha : 2 ^ ia = A) (hb : 2 ^ ib = B)
    (hl : f + a * A + b * B < 4294967296) : v.toNat = f + a * A + b * B := by
  subst h ha hb
  exact (BitVec.toNat_ofNat _ _).trans (Nat.mod_eq_of_lt hl)
theorem word3 {v : BitVec 32} {f a ia A b ib B c ic C : Nat} (h : mkWord f [(a, ia), (b, ib), (c, ic)] = v) (ha : 2 ^ ia = A) (hb : 2 ^ ib = B) (hc : 2 ^ ic = C)
    (hl : f + a * A + b * B + c * C < 4294967296) : v.toNat = f + a * A + b * B + c * C := by
  subst h ha hb hc
  exact (BitVec.toNat_ofNat _ _).trans (Nat.mod_eq_of_lt hl)
theorem word4 {v : BitVec 32} {f a ia A b ib B c ic C d id D : Nat} (h : mkWord f [(a, ia), (b, ib), (c, ic), (d, id)] = v) (ha : 2 ^ ia = A) (hb : 2 ^ ib = B) (hc : 2 ^ ic = C) (hd : 2 ^ id = D)
    (hl : f + a * A + b * B + c * C + d * D < 4294967296) : v.toNat = f + a * A + b * B + c * C + d * D := by
  subst h ha hb hc hd
  exact (BitVec.toNat_ofNat _ _).trans (Nat.mod_eq_of_lt hl)
theorem word5 {v : BitVec 32} {f a ia A b ib B c ic C d id D e ie E : Nat} (h : mkWord f [(a, ia), (b, ib), (c, ic), (d, id), (e, ie)] = v) (ha : 2 ^ ia = A) (hb : 2 ^ ib = B) (hc : 2 ^ ic = C) (hd : 2 ^ id = D) (he : 2 ^ ie = E)
    (hl : f + a * A + b * B + c * C + d * D + e * E < 4294967296) : v.toNat = f + a * A + b * B + c * C + d * D + e * E := by
  subst h ha hb hc hd he
  exact (BitVec.toNat_ofNat _ _).trans (Nat.mod_eq_of_lt hl)
theorem word6 {v : BitVec 32} {f a ia A b ib B c ic C d id D e ie E g ig G : Nat} (h : mkWord f [(a, ia), (b, ib), (c, ic), (d, id), (e, ie), (g, ig)] = v) (ha : 2 ^ ia = A) (hb : 2 ^ ib = B) (hc : 2 ^ ic = C) (hd : 2 ^ id = D) (he : 2 ^ ie = E) (hg : 2 ^ ig = G)
    (hl : f + a * A + b * B + c * C + d * D + e * E + g * G < 4294967296) : v.toNat = f + a * A + b * B + c * C + d * D + e * E + g * G := by
  subst h ha hb hc hd he hg
  exact (BitVec.toNat_ofNat _ _).trans (Nat.mod_eq_of_lt hl)
theorem word7 {v : BitVec 32} {f a ia A b ib B c ic C d id D e ie E g ig G k ik K : Nat} (h : mkWord f [(a, ia), (b, ib), (c, ic), (d, id), (e, ie), (g, ig), (k, ik)] = v) (ha : 2 ^ ia = A) (hb : 2 ^ ib = B) (hc : 2 ^ ic = C) (hd : 2 ^ id = D) (he : 2 ^ ie = E) (hg : 2 ^ ig = G) (hk : 2 ^ ik = K)
    (hl : f + a * A + b * B + c * C + d * D + e * E + g * G + k * K < 4294967296) : v.toNat = f + a * A + b * B + c * C + d * D + e * E + g * G + k * K := by
  subst h ha hb hc hd he hg hk
  exact (BitVec.toNat_ofNat _ _).trans (Nat.mod_eq_of_lt hl)

/-! Powers of two that stand in words. -/

theorem pow0 : 2 ^ 0 = 1 := by norm_num
theorem pow1 : 2 ^ 1 = 2 := by norm_num
theorem pow2 : 2 ^ 2 = 4 := by norm_num
theorem pow3 : 2 ^ 3 = 8 := by norm_num
theorem pow4 : 2 ^ 4 = 16 := by norm_num
theorem pow5 : 2 ^ 5 = 32 := by norm_num
theorem pow6 : 2 ^ 6 = 64 := by norm_num
theorem pow7 : 2 ^ 7 = 128 := by norm_num
theorem pow8 : 2 ^ 8 = 256 := by norm_num
theorem pow9 : 2 ^ 9 = 512 := by norm_num
theorem pow10 : 2 ^ 10 = 1024 := by norm_num
theorem pow11 : 2 ^ 11 = 2048 := by norm_num
theorem pow12 : 2 ^ 12 = 4096 := by norm_num
theorem pow13 : 2 ^ 13 = 8192 := by norm_num
theorem pow14 : 2 ^ 14 = 16384 := by norm_num
theorem pow15 : 2 ^ 15 = 32768 := by norm_num
theorem pow16 : 2 ^ 16 = 65536 := by norm_num
theorem pow17 : 2 ^ 17 = 131072 := by norm_num
theorem pow18 : 2 ^ 18 = 262144 := by norm_num
theorem pow19 : 2 ^ 19 = 524288 := by norm_num
theorem pow20 : 2 ^ 20 = 1048576 := by norm_num
theorem pow21 : 2 ^ 21 = 2097152 := by norm_num
theorem pow22 : 2 ^ 22 = 4194304 := by norm_num
theorem pow23 : 2 ^ 23 = 8388608 := by norm_num

theorem mode (mguard : BitVec 1) (mtype : BitVec 1) (mrnd : BitVec 1) (msat : BitVec 1) (msub : BitVec 1) (value : BitVec 15) : Statement (.mode mguard mtype mrnd msat msub value) := by
  intro v0 h0
  replace h0 := Option.some.inj h0
  have b_mguard := mguard.isLt
  have b_mtype := mtype.isLt
  have b_mrnd := mrnd.isLt
  have b_msat := msat.isLt
  have b_msub := msub.isLt
  have b_value := value.isLt
  have w0 : v0.toNat = 16777216 + mguard.toNat * 8388608 + mtype.toNat * 4194304 + mrnd.toNat * 2097152 + msat.toNat * 1048576 + msub.toNat * 524288 + value.toNat * 1 := word6 h0 pow23 pow22 pow21 pow20 pow19 pow0 (by omega)
  clear h0
  generalize v0.toNat = m0 at w0
  have f28_4 : field m0 28 4 = 0 := field_at (16777216 + mguard.toNat * 8388608 + mtype.toNat * 4194304 + mrnd.toNat * 2097152 + msat.toNat * 1048576 + msub.toNat * 524288 + value.toNat) 0 (0) (by omega) (by omega) (by omega)
  have f24_4 : field m0 24 4 = 1 := field_at (0 + mguard.toNat * 8388608 + mtype.toNat * 4194304 + mrnd.toNat * 2097152 + msat.toNat * 1048576 + msub.toNat * 524288 + value.toNat) 1 (0) (by omega) (by omega) (by omega)
  have f15_4 : field m0 15 4 = 0 := field_at (0 + value.toNat) 0 (32 + mguard.toNat * 16 + mtype.toNat * 8 + mrnd.toNat * 4 + msat.toNat * 2 + msub.toNat) (by omega) (by omega) (by omega)
  have v_mguard : fld m0 23 1 = mguard := fld_at (0 + mtype.toNat * 4194304 + mrnd.toNat * 2097152 + msat.toNat * 1048576 + msub.toNat * 524288 + value.toNat) (1) (by omega) (by omega)
  have v_mtype : fld m0 22 1 = mtype := fld_at (0 + mrnd.toNat * 2097152 + msat.toNat * 1048576 + msub.toNat * 524288 + value.toNat) (2 + mguard.toNat) (by omega) (by omega)
  have v_mrnd : fld m0 21 1 = mrnd := fld_at (0 + msat.toNat * 1048576 + msub.toNat * 524288 + value.toNat) (4 + mguard.toNat * 2 + mtype.toNat) (by omega) (by omega)
  have v_msat : fld m0 20 1 = msat := fld_at (0 + msub.toNat * 524288 + value.toNat) (8 + mguard.toNat * 4 + mtype.toNat * 2 + mrnd.toNat) (by omega) (by omega)
  have v_msub : fld m0 19 1 = msub := fld_at (0 + value.toNat) (16 + mguard.toNat * 8 + mtype.toNat * 4 + mrnd.toNat * 2 + msat.toNat) (by omega) (by omega)
  have v_value : fld m0 0 15 = value := fld_at (0) (512 + mguard.toNat * 256 + mtype.toNat * 128 + mrnd.toNat * 64 + msat.toNat * 32 + msub.toNat * 16) (by omega) (by omega)
  simp only [decodeWord, decodeGroup0, decode01, f28_4, f24_4, f15_4, v_mguard, v_mtype, v_mrnd, v_msat, v_msub, v_value]
  all_goals rfl

theorem trl (count : BitVec 2) (x1 : BitVec 6) (x2 : BitVec 6) (x3 : BitVec 6) : Statement (.trl count x1 x2 x3) := by
  intro v0 h0
  replace h0 := Option.some.inj h0
  have b_count := count.isLt
  have b_x1 := x1.isLt
  have b_x2 := x2.isLt
  have b_x3 := x3.isLt
  have w0 : v0.toNat = 33554432 + count.toNat * 1048576 + x1.toNat * 4096 + x2.toNat * 64 + x3.toNat * 1 := word4 h0 pow20 pow12 pow6 pow0 (by omega)
  clear h0
  generalize v0.toNat = m0 at w0
  have f28_4 : field m0 28 4 = 0 := field_at (33554432 + count.toNat * 1048576 + x1.toNat * 4096 + x2.toNat * 64 + x3.toNat) 0 (0) (by omega) (by omega) (by omega)
  have f24_4 : field m0 24 4 = 2 := field_at (0 + count.toNat * 1048576 + x1.toNat * 4096 + x2.toNat * 64 + x3.toNat) 2 (0) (by omega) (by omega) (by omega)
  have f18_2 : field m0 18 2 = 0 := field_at (0 + x1.toNat * 4096 + x2.toNat * 64 + x3.toNat) 0 (32 + count.toNat) (by omega) (by omega) (by omega)
  have f22_2 : field m0 22 2 = 0 := field_at (0 + count.toNat * 1048576 + x1.toNat * 4096 + x2.toNat * 64 + x3.toNat) 0 (2) (by omega) (by omega) (by omega)
  have v_count : fld m0 20 2 = count := fld_at (0 + x1.toNat * 4096 + x2.toNat * 64 + x3.toNat) (8) (by omega) (by omega)
  have v_x1 : fld m0 12 6 = x1 := fld_at (0 + x2.toNat * 64 + x3.toNat) (128 + count.toNat * 4) (by omega) (by omega)
  have v_x2 : fld m0 6 6 = x2 := fld_at (0 + x3.toNat) (8192 + count.toNat * 256 + x1.toNat) (by omega) (by omega)
  have v_x3 : fld m0 0 6 = x3 := fld_at (0) (524288 + count.toNat * 16384 + x1.toNat * 64 + x2.toNat) (by omega) (by omega)
  simp only [decodeWord, decodeGroup0, decode02, f28_4, f24_4, f18_2, f22_2, v_count, v_x1, v_x2, v_x3]
  all_goals rfl

theorem trlRange (x1 : BitVec 6) (x2 : BitVec 6) : Statement (.trlRange x1 x2) := by
  intro v0 h0
  replace h0 := Option.some.inj h0
  have b_x1 := x1.isLt
  have b_x2 := x2.isLt
  have w0 : v0.toNat = 37748736 + x1.toNat * 4096 + x2.toNat * 64 := word2 h0 pow12 pow6 (by omega)
  clear h0
  generalize v0.toNat = m0 at w0
  have f28_4 : field m0 28 4 = 0 := field_at (37748736 + x1.toNat * 4096 + x2.toNat * 64) 0 (0) (by omega) (by omega) (by omega)
  have f24_4 : field m0 24 4 = 2 := field_at (4194304 + x1.toNat * 4096 + x2.toNat * 64) 2 (0) (by omega) (by omega) (by omega)
  have f0_6 : field m0 0 6 = 0 := field_at (0) 0 (589824 + x1.toNat * 64 + x2.toNat) (by omega) (by omega) (by omega)
  have f18_2 : field m0 18 2 = 0 := field_at (0 + x1.toNat * 4096 + x2.toNat * 64) 0 (36) (by omega) (by omega) (by omega)
  have f18_6 : field m0 18 6 = 16 := field_at (0 + x1.toNat * 4096 + x2.toNat * 64) 16 (2) (by omega) (by omega) (by omega)
  have f22_2 : field m0 22 2 = 1 := field_at (0 + x1.toNat * 4096 + x2.toNat * 64) 1 (2) (by omega) (by omega) (by omega)
  have v_x1 : fld m0 12 6 = x1 := fld_at (0 + x2.toNat * 64) (144) (by omega) (by omega)
  have v_x2 : fld m0 6 6 = x2 := fld_at (0) (9216 + x1.toNat) (by omega) (by omega)
  simp only [decodeWord, decodeGroup0, decode02, f28_4, f24_4, f0_6, f18_2, f18_6, f22_2, v_x1, v_x2]
  all_goals rfl

theorem nop : Statement (.nop) := by
  intro v0 h0
  replace h0 := Option.some.inj h0
  subst h0
  rfl

theorem br (cond : BitVec 4) (off : BitVec 20) : Statement (.br cond off) := by
  intro v0 h0
  replace h0 := Option.some.inj h0
  have b_cond := cond.isLt
  have b_off := off.isLt
  have w0 : v0.toNat = 67108864 + cond.toNat * 1048576 + off.toNat * 1 := word2 h0 pow20 pow0 (by omega)
  clear h0
  generalize v0.toNat = m0 at w0
  have f28_4 : field m0 28 4 = 0 := field_at (67108864 + cond.toNat * 1048576 + off.toNat) 0 (0) (by omega) (by omega) (by omega)
  have f24_4 : field m0 24 4 = 4 := field_at (0 + cond.toNat * 1048576 + off.toNat) 4 (0) (by omega) (by omega) (by omega)
  have v_cond : fld m0 20 4 = cond := fld_at (0 + off.toNat) (4) (by omega) (by omega)
  have v_off : fld m0 0 20 = off := fld_at (0) (64 + cond.toNat) (by omega) (by omega)
  simp only [decodeWord, decodeGroup0, decode04, f28_4, f24_4, v_cond, v_off]
  all_goals rfl

theorem brd (cond : BitVec 4) (off : BitVec 20) : Statement (.brd cond off) := by
  intro v0 h0
  replace h0 := Option.some.inj h0
  have b_cond := cond.isLt
  have b_off := off.isLt
  have w0 : v0.toNat = 83886080 + cond.toNat * 1048576 + off.toNat * 1 := word2 h0 pow20 pow0 (by omega)
  clear h0
  generalize v0.toNat = m0 at w0
  have f28_4 : field m0 28 4 = 0 := field_at (83886080 + cond.toNat * 1048576 + off.toNat) 0 (0) (by omega) (by omega) (by omega)
  have f24_4 : field m0 24 4 = 5 := field_at (0 + cond.toNat * 1048576 + off.toNat) 5 (0) (by omega) (by omega) (by omega)
  have v_cond : fld m0 20 4 = cond := fld_at (0 + off.toNat) (5) (by omega) (by omega)
  have v_off : fld m0 0 20 = off := fld_at (0) (80 + cond.toNat) (by omega) (by omega)
  simp only [decodeWord, decodeGroup0, decode05, f28_4, f24_4, v_cond, v_off]
  all_goals rfl

theorem rjoin (off : BitVec 20) : Statement (.rjoin off) := by
  intro v0 h0
  replace h0 := Option.some.inj h0
  have b_off := off.isLt
  have w0 : v0.toNat = 100663296 + off.toNat * 1 := word1 h0 pow0 (by omega)
  clear h0
  generalize v0.toNat = m0 at w0
  have f28_4 : field m0 28 4 = 0 := field_at (100663296 + off.toNat) 0 (0) (by omega) (by omega) (by omega)
  have f24_4 : field m0 24 4 = 6 := field_at (0 + off.toNat) 6 (0) (by omega) (by omega) (by omega)
  have f20_4 : field m0 20 4 = 0 := field_at (0 + off.toNat) 0 (6) (by omega) (by omega) (by omega)
  have v_off : fld m0 0 20 = off := fld_at (0) (96) (by omega) (by omega)
  simp only [decodeWord, decodeGroup0, decode06, f28_4, f24_4, f20_4, v_off]
  all_goals rfl

theorem regang (slices : BitVec 16) : Statement (.regang slices) := by
  intro v0 h0
  replace h0 := Option.some.inj h0
  have b_slices := slices.isLt
  have w0 : v0.toNat = 117440512 + slices.toNat * 1 := word1 h0 pow0 (by omega)
  clear h0
  generalize v0.toNat = m0 at w0
  have f28_4 : field m0 28 4 = 0 := field_at (117440512 + slices.toNat) 0 (0) (by omega) (by omega) (by omega)
  have f24_4 : field m0 24 4 = 7 := field_at (0 + slices.toNat) 7 (0) (by omega) (by omega) (by omega)
  have f16_8 : field m0 16 8 = 0 := field_at (0 + slices.toNat) 0 (7) (by omega) (by omega) (by omega)
  have v_slices : fld m0 0 16 = slices := fld_at (0) (1792) (by omega) (by omega)
  simp only [decodeWord, decodeGroup0, decode07, f28_4, f24_4, f16_8, v_slices]
  all_goals rfl

theorem call (n : BitVec 6) (off : BitVec 18) : Statement (.call n off) := by
  intro v0 h0
  replace h0 := Option.some.inj h0
  have b_n := n.isLt
  have b_off := off.isLt
  have w0 : v0.toNat = 134217728 + n.toNat * 262144 + off.toNat * 1 := word2 h0 pow18 pow0 (by omega)
  clear h0
  generalize v0.toNat = m0 at w0
  have f28_4 : field m0 28 4 = 0 := field_at (134217728 + n.toNat * 262144 + off.toNat) 0 (0) (by omega) (by omega) (by omega)
  have f24_4 : field m0 24 4 = 8 := field_at (0 + n.toNat * 262144 + off.toNat) 8 (0) (by omega) (by omega) (by omega)
  have v_n : fld m0 18 6 = n := fld_at (0 + off.toNat) (8) (by omega) (by omega)
  have v_off : fld m0 0 18 = off := fld_at (0) (512 + n.toNat) (by omega) (by omega)
  simp only [decodeWord, decodeGroup0, decode08, f28_4, f24_4, v_n, v_off]
  all_goals rfl

theorem calli (n : BitVec 6) (a : BitVec 6) : Statement (.calli n a) := by
  intro v0 h0
  replace h0 := Option.some.inj h0
  have b_n := n.isLt
  have b_a := a.isLt
  have w0 : v0.toNat = 150994944 + n.toNat * 262144 + a.toNat * 4096 := word2 h0 pow18 pow12 (by omega)
  clear h0
  generalize v0.toNat = m0 at w0
  have f28_4 : field m0 28 4 = 0 := field_at (150994944 + n.toNat * 262144 + a.toNat * 4096) 0 (0) (by omega) (by omega) (by omega)
  have f24_4 : field m0 24 4 = 9 := field_at (0 + n.toNat * 262144 + a.toNat * 4096) 9 (0) (by omega) (by omega) (by omega)
  have f0_12 : field m0 0 12 = 0 := field_at (0) 0 (36864 + n.toNat * 64 + a.toNat) (by omega) (by omega) (by omega)
  have v_n : fld m0 18 6 = n := fld_at (0 + a.toNat * 4096) (9) (by omega) (by omega)
  have v_a : fld m0 12 6 = a := fld_at (0) (576 + n.toNat) (by omega) (by omega)
  simp only [decodeWord, decodeGroup0, decode09, f28_4, f24_4, f0_12, v_n, v_a]
  all_goals rfl

theorem ret (n : BitVec 6) : Statement (.ret n) := by
  intro v0 h0
  replace h0 := Option.some.inj h0
  have b_n := n.isLt
  have w0 : v0.toNat = 167772160 + n.toNat * 262144 := word1 h0 pow18 (by omega)
  clear h0
  generalize v0.toNat = m0 at w0
  have f28_4 : field m0 28 4 = 0 := field_at (167772160 + n.toNat * 262144) 0 (0) (by omega) (by omega) (by omega)
  have f24_4 : field m0 24 4 = 10 := field_at (0 + n.toNat * 262144) 10 (0) (by omega) (by omega) (by omega)
  have f0_18 : field m0 0 18 = 0 := field_at (0) 0 (640 + n.toNat) (by omega) (by omega) (by omega)
  have v_n : fld m0 18 6 = n := fld_at (0) (10) (by omega) (by omega)
  simp only [decodeWord, decodeGroup0, decode0A, f28_4, f24_4, f0_18, v_n]
  all_goals rfl

theorem brx (a : BitVec 6) : Statement (.brx a) := by
  intro v0 h0
  replace h0 := Option.some.inj h0
  have b_a := a.isLt
  have w0 : v0.toNat = 184549376 + a.toNat * 4096 := word1 h0 pow12 (by omega)
  clear h0
  generalize v0.toNat = m0 at w0
  have f28_4 : field m0 28 4 = 0 := field_at (184549376 + a.toNat * 4096) 0 (0) (by omega) (by omega) (by omega)
  have f24_4 : field m0 24 4 = 11 := field_at (0 + a.toNat * 4096) 11 (0) (by omega) (by omega) (by omega)
  have f0_12 : field m0 0 12 = 0 := field_at (0) 0 (45056 + a.toNat) (by omega) (by omega) (by omega)
  have f18_6 : field m0 18 6 = 0 := field_at (0 + a.toNat * 4096) 0 (11) (by omega) (by omega) (by omega)
  have v_a : fld m0 12 6 = a := fld_at (0) (704) (by omega) (by omega)
  simp only [decodeWord, decodeGroup0, decode0B, f28_4, f24_4, f0_12, f18_6, v_a]
  all_goals rfl

theorem yield (off : BitVec 20) : Statement (.yield off) := by
  intro v0 h0
  replace h0 := Option.some.inj h0
  have b_off := off.isLt
  have w0 : v0.toNat = 201326592 + off.toNat * 1 := word1 h0 pow0 (by omega)
  clear h0
  generalize v0.toNat = m0 at w0
  have f28_4 : field m0 28 4 = 0 := field_at (201326592 + off.toNat) 0 (0) (by omega) (by omega) (by omega)
  have f24_4 : field m0 24 4 = 12 := field_at (0 + off.toNat) 12 (0) (by omega) (by omega) (by omega)
  have f20_4 : field m0 20 4 = 0 := field_at (0 + off.toNat) 0 (12) (by omega) (by omega) (by omega)
  have v_off : fld m0 0 20 = off := fld_at (0) (192) (by omega) (by omega)
  simp only [decodeWord, decodeGroup0, decode0C, f28_4, f24_4, f20_4, v_off]
  all_goals rfl

theorem yieldB (b : BitVec 4) (off : BitVec 20) : Statement (.yieldB b off) := by
  intro v0 h0
  replace h0 := Option.some.inj h0
  have b_b := b.isLt
  have b_off := off.isLt
  have w0 : v0.toNat = 218103808 + b.toNat * 1048576 + off.toNat * 1 := word2 h0 pow20 pow0 (by omega)
  clear h0
  generalize v0.toNat = m0 at w0
  have f28_4 : field m0 28 4 = 0 := field_at (218103808 + b.toNat * 1048576 + off.toNat) 0 (0) (by omega) (by omega) (by omega)
  have f24_4 : field m0 24 4 = 13 := field_at (0 + b.toNat * 1048576 + off.toNat) 13 (0) (by omega) (by omega) (by omega)
  have v_b : fld m0 20 4 = b := fld_at (0 + off.toNat) (13) (by omega) (by omega)
  have v_off : fld m0 0 20 = off := fld_at (0) (208 + b.toNat) (by omega) (by omega)
  simp only [decodeWord, decodeGroup0, decode0D, f28_4, f24_4, v_b, v_off]
  all_goals rfl

theorem waitmon (lvl : BitVec 2) (c : BitVec 4) (a : BitVec 6) (b : BitVec 6) (tmo : BitVec 6) : Statement (.waitmon lvl c a b tmo) := by
  intro v0 h0
  replace h0 := Option.some.inj h0
  have b_lvl := lvl.isLt
  have b_c := c.isLt
  have b_a := a.isLt
  have b_b := b.isLt
  have b_tmo := tmo.isLt
  have w0 : v0.toNat = 234881024 + lvl.toNat * 4194304 + c.toNat * 262144 + a.toNat * 4096 + b.toNat * 64 + tmo.toNat * 1 := word5 h0 pow22 pow18 pow12 pow6 pow0 (by omega)
  clear h0
  generalize v0.toNat = m0 at w0
  have f28_4 : field m0 28 4 = 0 := field_at (234881024 + lvl.toNat * 4194304 + c.toNat * 262144 + a.toNat * 4096 + b.toNat * 64 + tmo.toNat) 0 (0) (by omega) (by omega) (by omega)
  have f24_4 : field m0 24 4 = 14 := field_at (0 + lvl.toNat * 4194304 + c.toNat * 262144 + a.toNat * 4096 + b.toNat * 64 + tmo.toNat) 14 (0) (by omega) (by omega) (by omega)
  have v_lvl : fld m0 22 2 = lvl := fld_at (0 + c.toNat * 262144 + a.toNat * 4096 + b.toNat * 64 + tmo.toNat) (14) (by omega) (by omega)
  have v_c : fld m0 18 4 = c := fld_at (0 + a.toNat * 4096 + b.toNat * 64 + tmo.toNat) (56 + lvl.toNat) (by omega) (by omega)
  have v_a : fld m0 12 6 = a := fld_at (0 + b.toNat * 64 + tmo.toNat) (896 + lvl.toNat * 16 + c.toNat) (by omega) (by omega)
  have v_b : fld m0 6 6 = b := fld_at (0 + tmo.toNat) (57344 + lvl.toNat * 1024 + c.toNat * 64 + a.toNat) (by omega) (by omega)
  have v_tmo : fld m0 0 6 = tmo := fld_at (0) (3670016 + lvl.toNat * 65536 + c.toNat * 4096 + a.toNat * 64 + b.toNat) (by omega) (by omega)
  simp only [decodeWord, decodeGroup0, decode0E, f28_4, f24_4, v_lvl, v_c, v_a, v_b, v_tmo]
  all_goals rfl

theorem exit : Statement (.exit) := by
  intro v0 h0
  replace h0 := Option.some.inj h0
  subst h0
  rfl

theorem iadd (d : BitVec 6) (a : BitVec 6) (b : BitVec 6) : Statement (.iadd d a b) := by
  intro v0 h0
  replace h0 := Option.some.inj h0
  have b_d := d.isLt
  have b_a := a.isLt
  have b_b := b.isLt
  have w0 : v0.toNat = 268435456 + d.toNat * 262144 + a.toNat * 4096 + b.toNat * 64 := word3 h0 pow18 pow12 pow6 (by omega)
  clear h0
  generalize v0.toNat = m0 at w0
  have f28_4 : field m0 28 4 = 1 := field_at (0 + d.toNat * 262144 + a.toNat * 4096 + b.toNat * 64) 1 (0) (by omega) (by omega) (by omega)
  have f24_4 : field m0 24 4 = 0 := field_at (0 + d.toNat * 262144 + a.toNat * 4096 + b.toNat * 64) 0 (1) (by omega) (by omega) (by omega)
  have f0_6 : field m0 0 6 = 0 := field_at (0) 0 (4194304 + d.toNat * 4096 + a.toNat * 64 + b.toNat) (by omega) (by omega) (by omega)
  have v_d : fld m0 18 6 = d := fld_at (0 + a.toNat * 4096 + b.toNat * 64) (16) (by omega) (by omega)
  have v_a : fld m0 12 6 = a := fld_at (0 + b.toNat * 64) (1024 + d.toNat) (by omega) (by omega)
  have v_b : fld m0 6 6 = b := fld_at (0) (65536 + d.toNat * 64 + a.toNat) (by omega) (by omega)
  simp only [decodeWord, decodeGroup1, decode10, f28_4, f24_4, f0_6, v_d, v_a, v_b]
  all_goals rfl

theorem isub (d : BitVec 6) (a : BitVec 6) (b : BitVec 6) : Statement (.isub d a b) := by
  intro v0 h0
  replace h0 := Option.some.inj h0
  have b_d := d.isLt
  have b_a := a.isLt
  have b_b := b.isLt
  have w0 : v0.toNat = 268435457 + d.toNat * 262144 + a.toNat * 4096 + b.toNat * 64 := word3 h0 pow18 pow12 pow6 (by omega)
  clear h0
  generalize v0.toNat = m0 at w0
  have f28_4 : field m0 28 4 = 1 := field_at (1 + d.toNat * 262144 + a.toNat * 4096 + b.toNat * 64) 1 (0) (by omega) (by omega) (by omega)
  have f24_4 : field m0 24 4 = 0 := field_at (1 + d.toNat * 262144 + a.toNat * 4096 + b.toNat * 64) 0 (1) (by omega) (by omega) (by omega)
  have f0_6 : field m0 0 6 = 1 := field_at (0) 1 (4194304 + d.toNat * 4096 + a.toNat * 64 + b.toNat) (by omega) (by omega) (by omega)
  have v_d : fld m0 18 6 = d := fld_at (1 + a.toNat * 4096 + b.toNat * 64) (16) (by omega) (by omega)
  have v_a : fld m0 12 6 = a := fld_at (1 + b.toNat * 64) (1024 + d.toNat) (by omega) (by omega)
  have v_b : fld m0 6 6 = b := fld_at (1) (65536 + d.toNat * 64 + a.toNat) (by omega) (by omega)
  simp only [decodeWord, decodeGroup1, decode10, f28_4, f24_4, f0_6, v_d, v_a, v_b]
  all_goals rfl

theorem imin (d : BitVec 6) (a : BitVec 6) (b : BitVec 6) : Statement (.imin d a b) := by
  intro v0 h0
  replace h0 := Option.some.inj h0
  have b_d := d.isLt
  have b_a := a.isLt
  have b_b := b.isLt
  have w0 : v0.toNat = 268435458 + d.toNat * 262144 + a.toNat * 4096 + b.toNat * 64 := word3 h0 pow18 pow12 pow6 (by omega)
  clear h0
  generalize v0.toNat = m0 at w0
  have f28_4 : field m0 28 4 = 1 := field_at (2 + d.toNat * 262144 + a.toNat * 4096 + b.toNat * 64) 1 (0) (by omega) (by omega) (by omega)
  have f24_4 : field m0 24 4 = 0 := field_at (2 + d.toNat * 262144 + a.toNat * 4096 + b.toNat * 64) 0 (1) (by omega) (by omega) (by omega)
  have f0_6 : field m0 0 6 = 2 := field_at (0) 2 (4194304 + d.toNat * 4096 + a.toNat * 64 + b.toNat) (by omega) (by omega) (by omega)
  have v_d : fld m0 18 6 = d := fld_at (2 + a.toNat * 4096 + b.toNat * 64) (16) (by omega) (by omega)
  have v_a : fld m0 12 6 = a := fld_at (2 + b.toNat * 64) (1024 + d.toNat) (by omega) (by omega)
  have v_b : fld m0 6 6 = b := fld_at (2) (65536 + d.toNat * 64 + a.toNat) (by omega) (by omega)
  simp only [decodeWord, decodeGroup1, decode10, f28_4, f24_4, f0_6, v_d, v_a, v_b]
  all_goals rfl

theorem imax (d : BitVec 6) (a : BitVec 6) (b : BitVec 6) : Statement (.imax d a b) := by
  intro v0 h0
  replace h0 := Option.some.inj h0
  have b_d := d.isLt
  have b_a := a.isLt
  have b_b := b.isLt
  have w0 : v0.toNat = 268435459 + d.toNat * 262144 + a.toNat * 4096 + b.toNat * 64 := word3 h0 pow18 pow12 pow6 (by omega)
  clear h0
  generalize v0.toNat = m0 at w0
  have f28_4 : field m0 28 4 = 1 := field_at (3 + d.toNat * 262144 + a.toNat * 4096 + b.toNat * 64) 1 (0) (by omega) (by omega) (by omega)
  have f24_4 : field m0 24 4 = 0 := field_at (3 + d.toNat * 262144 + a.toNat * 4096 + b.toNat * 64) 0 (1) (by omega) (by omega) (by omega)
  have f0_6 : field m0 0 6 = 3 := field_at (0) 3 (4194304 + d.toNat * 4096 + a.toNat * 64 + b.toNat) (by omega) (by omega) (by omega)
  have v_d : fld m0 18 6 = d := fld_at (3 + a.toNat * 4096 + b.toNat * 64) (16) (by omega) (by omega)
  have v_a : fld m0 12 6 = a := fld_at (3 + b.toNat * 64) (1024 + d.toNat) (by omega) (by omega)
  have v_b : fld m0 6 6 = b := fld_at (3) (65536 + d.toNat * 64 + a.toNat) (by omega) (by omega)
  simp only [decodeWord, decodeGroup1, decode10, f28_4, f24_4, f0_6, v_d, v_a, v_b]
  all_goals rfl

theorem nmin (d : BitVec 6) (a : BitVec 6) (b : BitVec 6) : Statement (.nmin d a b) := by
  intro v0 h0
  replace h0 := Option.some.inj h0
  have b_d := d.isLt
  have b_a := a.isLt
  have b_b := b.isLt
  have w0 : v0.toNat = 268435460 + d.toNat * 262144 + a.toNat * 4096 + b.toNat * 64 := word3 h0 pow18 pow12 pow6 (by omega)
  clear h0
  generalize v0.toNat = m0 at w0
  have f28_4 : field m0 28 4 = 1 := field_at (4 + d.toNat * 262144 + a.toNat * 4096 + b.toNat * 64) 1 (0) (by omega) (by omega) (by omega)
  have f24_4 : field m0 24 4 = 0 := field_at (4 + d.toNat * 262144 + a.toNat * 4096 + b.toNat * 64) 0 (1) (by omega) (by omega) (by omega)
  have f0_6 : field m0 0 6 = 4 := field_at (0) 4 (4194304 + d.toNat * 4096 + a.toNat * 64 + b.toNat) (by omega) (by omega) (by omega)
  have v_d : fld m0 18 6 = d := fld_at (4 + a.toNat * 4096 + b.toNat * 64) (16) (by omega) (by omega)
  have v_a : fld m0 12 6 = a := fld_at (4 + b.toNat * 64) (1024 + d.toNat) (by omega) (by omega)
  have v_b : fld m0 6 6 = b := fld_at (4) (65536 + d.toNat * 64 + a.toNat) (by omega) (by omega)
  simp only [decodeWord, decodeGroup1, decode10, f28_4, f24_4, f0_6, v_d, v_a, v_b]
  all_goals rfl

theorem nmax (d : BitVec 6) (a : BitVec 6) (b : BitVec 6) : Statement (.nmax d a b) := by
  intro v0 h0
  replace h0 := Option.some.inj h0
  have b_d := d.isLt
  have b_a := a.isLt
  have b_b := b.isLt
  have w0 : v0.toNat = 268435461 + d.toNat * 262144 + a.toNat * 4096 + b.toNat * 64 := word3 h0 pow18 pow12 pow6 (by omega)
  clear h0
  generalize v0.toNat = m0 at w0
  have f28_4 : field m0 28 4 = 1 := field_at (5 + d.toNat * 262144 + a.toNat * 4096 + b.toNat * 64) 1 (0) (by omega) (by omega) (by omega)
  have f24_4 : field m0 24 4 = 0 := field_at (5 + d.toNat * 262144 + a.toNat * 4096 + b.toNat * 64) 0 (1) (by omega) (by omega) (by omega)
  have f0_6 : field m0 0 6 = 5 := field_at (0) 5 (4194304 + d.toNat * 4096 + a.toNat * 64 + b.toNat) (by omega) (by omega) (by omega)
  have v_d : fld m0 18 6 = d := fld_at (5 + a.toNat * 4096 + b.toNat * 64) (16) (by omega) (by omega)
  have v_a : fld m0 12 6 = a := fld_at (5 + b.toNat * 64) (1024 + d.toNat) (by omega) (by omega)
  have v_b : fld m0 6 6 = b := fld_at (5) (65536 + d.toNat * 64 + a.toNat) (by omega) (by omega)
  simp only [decodeWord, decodeGroup1, decode10, f28_4, f24_4, f0_6, v_d, v_a, v_b]
  all_goals rfl

theorem iabsd (d : BitVec 6) (a : BitVec 6) (b : BitVec 6) : Statement (.iabsd d a b) := by
  intro v0 h0
  replace h0 := Option.some.inj h0
  have b_d := d.isLt
  have b_a := a.isLt
  have b_b := b.isLt
  have w0 : v0.toNat = 268435462 + d.toNat * 262144 + a.toNat * 4096 + b.toNat * 64 := word3 h0 pow18 pow12 pow6 (by omega)
  clear h0
  generalize v0.toNat = m0 at w0
  have f28_4 : field m0 28 4 = 1 := field_at (6 + d.toNat * 262144 + a.toNat * 4096 + b.toNat * 64) 1 (0) (by omega) (by omega) (by omega)
  have f24_4 : field m0 24 4 = 0 := field_at (6 + d.toNat * 262144 + a.toNat * 4096 + b.toNat * 64) 0 (1) (by omega) (by omega) (by omega)
  have f0_6 : field m0 0 6 = 6 := field_at (0) 6 (4194304 + d.toNat * 4096 + a.toNat * 64 + b.toNat) (by omega) (by omega) (by omega)
  have v_d : fld m0 18 6 = d := fld_at (6 + a.toNat * 4096 + b.toNat * 64) (16) (by omega) (by omega)
  have v_a : fld m0 12 6 = a := fld_at (6 + b.toNat * 64) (1024 + d.toNat) (by omega) (by omega)
  have v_b : fld m0 6 6 = b := fld_at (6) (65536 + d.toNat * 64 + a.toNat) (by omega) (by omega)
  simp only [decodeWord, decodeGroup1, decode10, f28_4, f24_4, f0_6, v_d, v_a, v_b]
  all_goals rfl

theorem and (d : BitVec 6) (a : BitVec 6) (b : BitVec 6) : Statement (.and d a b) := by
  intro v0 h0
  replace h0 := Option.some.inj h0
  have b_d := d.isLt
  have b_a := a.isLt
  have b_b := b.isLt
  have w0 : v0.toNat = 285212672 + d.toNat * 262144 + a.toNat * 4096 + b.toNat * 64 := word3 h0 pow18 pow12 pow6 (by omega)
  clear h0
  generalize v0.toNat = m0 at w0
  have f28_4 : field m0 28 4 = 1 := field_at (16777216 + d.toNat * 262144 + a.toNat * 4096 + b.toNat * 64) 1 (0) (by omega) (by omega) (by omega)
  have f24_4 : field m0 24 4 = 1 := field_at (0 + d.toNat * 262144 + a.toNat * 4096 + b.toNat * 64) 1 (1) (by omega) (by omega) (by omega)
  have f0_6 : field m0 0 6 = 0 := field_at (0) 0 (4456448 + d.toNat * 4096 + a.toNat * 64 + b.toNat) (by omega) (by omega) (by omega)
  have v_d : fld m0 18 6 = d := fld_at (0 + a.toNat * 4096 + b.toNat * 64) (17) (by omega) (by omega)
  have v_a : fld m0 12 6 = a := fld_at (0 + b.toNat * 64) (1088 + d.toNat) (by omega) (by omega)
  have v_b : fld m0 6 6 = b := fld_at (0) (69632 + d.toNat * 64 + a.toNat) (by omega) (by omega)
  simp only [decodeWord, decodeGroup1, decode11, f28_4, f24_4, f0_6, v_d, v_a, v_b]
  all_goals rfl

theorem or (d : BitVec 6) (a : BitVec 6) (b : BitVec 6) : Statement (.or d a b) := by
  intro v0 h0
  replace h0 := Option.some.inj h0
  have b_d := d.isLt
  have b_a := a.isLt
  have b_b := b.isLt
  have w0 : v0.toNat = 285212673 + d.toNat * 262144 + a.toNat * 4096 + b.toNat * 64 := word3 h0 pow18 pow12 pow6 (by omega)
  clear h0
  generalize v0.toNat = m0 at w0
  have f28_4 : field m0 28 4 = 1 := field_at (16777217 + d.toNat * 262144 + a.toNat * 4096 + b.toNat * 64) 1 (0) (by omega) (by omega) (by omega)
  have f24_4 : field m0 24 4 = 1 := field_at (1 + d.toNat * 262144 + a.toNat * 4096 + b.toNat * 64) 1 (1) (by omega) (by omega) (by omega)
  have f0_6 : field m0 0 6 = 1 := field_at (0) 1 (4456448 + d.toNat * 4096 + a.toNat * 64 + b.toNat) (by omega) (by omega) (by omega)
  have v_d : fld m0 18 6 = d := fld_at (1 + a.toNat * 4096 + b.toNat * 64) (17) (by omega) (by omega)
  have v_a : fld m0 12 6 = a := fld_at (1 + b.toNat * 64) (1088 + d.toNat) (by omega) (by omega)
  have v_b : fld m0 6 6 = b := fld_at (1) (69632 + d.toNat * 64 + a.toNat) (by omega) (by omega)
  simp only [decodeWord, decodeGroup1, decode11, f28_4, f24_4, f0_6, v_d, v_a, v_b]
  all_goals rfl

theorem xor (d : BitVec 6) (a : BitVec 6) (b : BitVec 6) : Statement (.xor d a b) := by
  intro v0 h0
  replace h0 := Option.some.inj h0
  have b_d := d.isLt
  have b_a := a.isLt
  have b_b := b.isLt
  have w0 : v0.toNat = 285212674 + d.toNat * 262144 + a.toNat * 4096 + b.toNat * 64 := word3 h0 pow18 pow12 pow6 (by omega)
  clear h0
  generalize v0.toNat = m0 at w0
  have f28_4 : field m0 28 4 = 1 := field_at (16777218 + d.toNat * 262144 + a.toNat * 4096 + b.toNat * 64) 1 (0) (by omega) (by omega) (by omega)
  have f24_4 : field m0 24 4 = 1 := field_at (2 + d.toNat * 262144 + a.toNat * 4096 + b.toNat * 64) 1 (1) (by omega) (by omega) (by omega)
  have f0_6 : field m0 0 6 = 2 := field_at (0) 2 (4456448 + d.toNat * 4096 + a.toNat * 64 + b.toNat) (by omega) (by omega) (by omega)
  have v_d : fld m0 18 6 = d := fld_at (2 + a.toNat * 4096 + b.toNat * 64) (17) (by omega) (by omega)
  have v_a : fld m0 12 6 = a := fld_at (2 + b.toNat * 64) (1088 + d.toNat) (by omega) (by omega)
  have v_b : fld m0 6 6 = b := fld_at (2) (69632 + d.toNat * 64 + a.toNat) (by omega) (by omega)
  simp only [decodeWord, decodeGroup1, decode11, f28_4, f24_4, f0_6, v_d, v_a, v_b]
  all_goals rfl

theorem andn (d : BitVec 6) (a : BitVec 6) (b : BitVec 6) : Statement (.andn d a b) := by
  intro v0 h0
  replace h0 := Option.some.inj h0
  have b_d := d.isLt
  have b_a := a.isLt
  have b_b := b.isLt
  have w0 : v0.toNat = 285212675 + d.toNat * 262144 + a.toNat * 4096 + b.toNat * 64 := word3 h0 pow18 pow12 pow6 (by omega)
  clear h0
  generalize v0.toNat = m0 at w0
  have f28_4 : field m0 28 4 = 1 := field_at (16777219 + d.toNat * 262144 + a.toNat * 4096 + b.toNat * 64) 1 (0) (by omega) (by omega) (by omega)
  have f24_4 : field m0 24 4 = 1 := field_at (3 + d.toNat * 262144 + a.toNat * 4096 + b.toNat * 64) 1 (1) (by omega) (by omega) (by omega)
  have f0_6 : field m0 0 6 = 3 := field_at (0) 3 (4456448 + d.toNat * 4096 + a.toNat * 64 + b.toNat) (by omega) (by omega) (by omega)
  have v_d : fld m0 18 6 = d := fld_at (3 + a.toNat * 4096 + b.toNat * 64) (17) (by omega) (by omega)
  have v_a : fld m0 12 6 = a := fld_at (3 + b.toNat * 64) (1088 + d.toNat) (by omega) (by omega)
  have v_b : fld m0 6 6 = b := fld_at (3) (69632 + d.toNat * 64 + a.toNat) (by omega) (by omega)
  simp only [decodeWord, decodeGroup1, decode11, f28_4, f24_4, f0_6, v_d, v_a, v_b]
  all_goals rfl

theorem orn (d : BitVec 6) (a : BitVec 6) (b : BitVec 6) : Statement (.orn d a b) := by
  intro v0 h0
  replace h0 := Option.some.inj h0
  have b_d := d.isLt
  have b_a := a.isLt
  have b_b := b.isLt
  have w0 : v0.toNat = 285212676 + d.toNat * 262144 + a.toNat * 4096 + b.toNat * 64 := word3 h0 pow18 pow12 pow6 (by omega)
  clear h0
  generalize v0.toNat = m0 at w0
  have f28_4 : field m0 28 4 = 1 := field_at (16777220 + d.toNat * 262144 + a.toNat * 4096 + b.toNat * 64) 1 (0) (by omega) (by omega) (by omega)
  have f24_4 : field m0 24 4 = 1 := field_at (4 + d.toNat * 262144 + a.toNat * 4096 + b.toNat * 64) 1 (1) (by omega) (by omega) (by omega)
  have f0_6 : field m0 0 6 = 4 := field_at (0) 4 (4456448 + d.toNat * 4096 + a.toNat * 64 + b.toNat) (by omega) (by omega) (by omega)
  have v_d : fld m0 18 6 = d := fld_at (4 + a.toNat * 4096 + b.toNat * 64) (17) (by omega) (by omega)
  have v_a : fld m0 12 6 = a := fld_at (4 + b.toNat * 64) (1088 + d.toNat) (by omega) (by omega)
  have v_b : fld m0 6 6 = b := fld_at (4) (69632 + d.toNat * 64 + a.toNat) (by omega) (by omega)
  simp only [decodeWord, decodeGroup1, decode11, f28_4, f24_4, f0_6, v_d, v_a, v_b]
  all_goals rfl

theorem shl (d : BitVec 6) (a : BitVec 6) (b : BitVec 6) : Statement (.shl d a b) := by
  intro v0 h0
  replace h0 := Option.some.inj h0
  have b_d := d.isLt
  have b_a := a.isLt
  have b_b := b.isLt
  have w0 : v0.toNat = 301989888 + d.toNat * 262144 + a.toNat * 4096 + b.toNat * 64 := word3 h0 pow18 pow12 pow6 (by omega)
  clear h0
  generalize v0.toNat = m0 at w0
  have f28_4 : field m0 28 4 = 1 := field_at (33554432 + d.toNat * 262144 + a.toNat * 4096 + b.toNat * 64) 1 (0) (by omega) (by omega) (by omega)
  have f24_4 : field m0 24 4 = 2 := field_at (0 + d.toNat * 262144 + a.toNat * 4096 + b.toNat * 64) 2 (1) (by omega) (by omega) (by omega)
  have f0_6 : field m0 0 6 = 0 := field_at (0) 0 (4718592 + d.toNat * 4096 + a.toNat * 64 + b.toNat) (by omega) (by omega) (by omega)
  have v_d : fld m0 18 6 = d := fld_at (0 + a.toNat * 4096 + b.toNat * 64) (18) (by omega) (by omega)
  have v_a : fld m0 12 6 = a := fld_at (0 + b.toNat * 64) (1152 + d.toNat) (by omega) (by omega)
  have v_b : fld m0 6 6 = b := fld_at (0) (73728 + d.toNat * 64 + a.toNat) (by omega) (by omega)
  simp only [decodeWord, decodeGroup1, decode12, f28_4, f24_4, f0_6, v_d, v_a, v_b]
  all_goals rfl

theorem shr (d : BitVec 6) (a : BitVec 6) (b : BitVec 6) : Statement (.shr d a b) := by
  intro v0 h0
  replace h0 := Option.some.inj h0
  have b_d := d.isLt
  have b_a := a.isLt
  have b_b := b.isLt
  have w0 : v0.toNat = 301989889 + d.toNat * 262144 + a.toNat * 4096 + b.toNat * 64 := word3 h0 pow18 pow12 pow6 (by omega)
  clear h0
  generalize v0.toNat = m0 at w0
  have f28_4 : field m0 28 4 = 1 := field_at (33554433 + d.toNat * 262144 + a.toNat * 4096 + b.toNat * 64) 1 (0) (by omega) (by omega) (by omega)
  have f24_4 : field m0 24 4 = 2 := field_at (1 + d.toNat * 262144 + a.toNat * 4096 + b.toNat * 64) 2 (1) (by omega) (by omega) (by omega)
  have f0_6 : field m0 0 6 = 1 := field_at (0) 1 (4718592 + d.toNat * 4096 + a.toNat * 64 + b.toNat) (by omega) (by omega) (by omega)
  have v_d : fld m0 18 6 = d := fld_at (1 + a.toNat * 4096 + b.toNat * 64) (18) (by omega) (by omega)
  have v_a : fld m0 12 6 = a := fld_at (1 + b.toNat * 64) (1152 + d.toNat) (by omega) (by omega)
  have v_b : fld m0 6 6 = b := fld_at (1) (73728 + d.toNat * 64 + a.toNat) (by omega) (by omega)
  simp only [decodeWord, decodeGroup1, decode12, f28_4, f24_4, f0_6, v_d, v_a, v_b]
  all_goals rfl

theorem sar (d : BitVec 6) (a : BitVec 6) (b : BitVec 6) : Statement (.sar d a b) := by
  intro v0 h0
  replace h0 := Option.some.inj h0
  have b_d := d.isLt
  have b_a := a.isLt
  have b_b := b.isLt
  have w0 : v0.toNat = 301989890 + d.toNat * 262144 + a.toNat * 4096 + b.toNat * 64 := word3 h0 pow18 pow12 pow6 (by omega)
  clear h0
  generalize v0.toNat = m0 at w0
  have f28_4 : field m0 28 4 = 1 := field_at (33554434 + d.toNat * 262144 + a.toNat * 4096 + b.toNat * 64) 1 (0) (by omega) (by omega) (by omega)
  have f24_4 : field m0 24 4 = 2 := field_at (2 + d.toNat * 262144 + a.toNat * 4096 + b.toNat * 64) 2 (1) (by omega) (by omega) (by omega)
  have f0_6 : field m0 0 6 = 2 := field_at (0) 2 (4718592 + d.toNat * 4096 + a.toNat * 64 + b.toNat) (by omega) (by omega) (by omega)
  have v_d : fld m0 18 6 = d := fld_at (2 + a.toNat * 4096 + b.toNat * 64) (18) (by omega) (by omega)
  have v_a : fld m0 12 6 = a := fld_at (2 + b.toNat * 64) (1152 + d.toNat) (by omega) (by omega)
  have v_b : fld m0 6 6 = b := fld_at (2) (73728 + d.toNat * 64 + a.toNat) (by omega) (by omega)
  simp only [decodeWord, decodeGroup1, decode12, f28_4, f24_4, f0_6, v_d, v_a, v_b]
  all_goals rfl

theorem rol (d : BitVec 6) (a : BitVec 6) (b : BitVec 6) : Statement (.rol d a b) := by
  intro v0 h0
  replace h0 := Option.some.inj h0
  have b_d := d.isLt
  have b_a := a.isLt
  have b_b := b.isLt
  have w0 : v0.toNat = 301989891 + d.toNat * 262144 + a.toNat * 4096 + b.toNat * 64 := word3 h0 pow18 pow12 pow6 (by omega)
  clear h0
  generalize v0.toNat = m0 at w0
  have f28_4 : field m0 28 4 = 1 := field_at (33554435 + d.toNat * 262144 + a.toNat * 4096 + b.toNat * 64) 1 (0) (by omega) (by omega) (by omega)
  have f24_4 : field m0 24 4 = 2 := field_at (3 + d.toNat * 262144 + a.toNat * 4096 + b.toNat * 64) 2 (1) (by omega) (by omega) (by omega)
  have f0_6 : field m0 0 6 = 3 := field_at (0) 3 (4718592 + d.toNat * 4096 + a.toNat * 64 + b.toNat) (by omega) (by omega) (by omega)
  have v_d : fld m0 18 6 = d := fld_at (3 + a.toNat * 4096 + b.toNat * 64) (18) (by omega) (by omega)
  have v_a : fld m0 12 6 = a := fld_at (3 + b.toNat * 64) (1152 + d.toNat) (by omega) (by omega)
  have v_b : fld m0 6 6 = b := fld_at (3) (73728 + d.toNat * 64 + a.toNat) (by omega) (by omega)
  simp only [decodeWord, decodeGroup1, decode12, f28_4, f24_4, f0_6, v_d, v_a, v_b]
  all_goals rfl

theorem ror (d : BitVec 6) (a : BitVec 6) (b : BitVec 6) : Statement (.ror d a b) := by
  intro v0 h0
  replace h0 := Option.some.inj h0
  have b_d := d.isLt
  have b_a := a.isLt
  have b_b := b.isLt
  have w0 : v0.toNat = 301989892 + d.toNat * 262144 + a.toNat * 4096 + b.toNat * 64 := word3 h0 pow18 pow12 pow6 (by omega)
  clear h0
  generalize v0.toNat = m0 at w0
  have f28_4 : field m0 28 4 = 1 := field_at (33554436 + d.toNat * 262144 + a.toNat * 4096 + b.toNat * 64) 1 (0) (by omega) (by omega) (by omega)
  have f24_4 : field m0 24 4 = 2 := field_at (4 + d.toNat * 262144 + a.toNat * 4096 + b.toNat * 64) 2 (1) (by omega) (by omega) (by omega)
  have f0_6 : field m0 0 6 = 4 := field_at (0) 4 (4718592 + d.toNat * 4096 + a.toNat * 64 + b.toNat) (by omega) (by omega) (by omega)
  have v_d : fld m0 18 6 = d := fld_at (4 + a.toNat * 4096 + b.toNat * 64) (18) (by omega) (by omega)
  have v_a : fld m0 12 6 = a := fld_at (4 + b.toNat * 64) (1152 + d.toNat) (by omega) (by omega)
  have v_b : fld m0 6 6 = b := fld_at (4) (73728 + d.toNat * 64 + a.toNat) (by omega) (by omega)
  simp only [decodeWord, decodeGroup1, decode12, f28_4, f24_4, f0_6, v_d, v_a, v_b]
  all_goals rfl

theorem imad24 (d : BitVec 6) (a : BitVec 6) (b : BitVec 6) (c : BitVec 6) : Statement (.imad24 d a b c) := by
  intro v0 h0
  replace h0 := Option.some.inj h0
  have b_d := d.isLt
  have b_a := a.isLt
  have b_b := b.isLt
  have b_c := c.isLt
  have w0 : v0.toNat = 318767104 + d.toNat * 262144 + a.toNat * 4096 + b.toNat * 64 + c.toNat * 1 := word4 h0 pow18 pow12 pow6 pow0 (by omega)
  clear h0
  generalize v0.toNat = m0 at w0
  have f28_4 : field m0 28 4 = 1 := field_at (50331648 + d.toNat * 262144 + a.toNat * 4096 + b.toNat * 64 + c.toNat) 1 (0) (by omega) (by omega) (by omega)
  have f24_4 : field m0 24 4 = 3 := field_at (0 + d.toNat * 262144 + a.toNat * 4096 + b.toNat * 64 + c.toNat) 3 (1) (by omega) (by omega) (by omega)
  have v_d : fld m0 18 6 = d := fld_at (0 + a.toNat * 4096 + b.toNat * 64 + c.toNat) (19) (by omega) (by omega)
  have v_a : fld m0 12 6 = a := fld_at (0 + b.toNat * 64 + c.toNat) (1216 + d.toNat) (by omega) (by omega)
  have v_b : fld m0 6 6 = b := fld_at (0 + c.toNat) (77824 + d.toNat * 64 + a.toNat) (by omega) (by omega)
  have v_c : fld m0 0 6 = c := fld_at (0) (4980736 + d.toNat * 4096 + a.toNat * 64 + b.toNat) (by omega) (by omega)
  simp only [decodeWord, decodeGroup1, decode13, f28_4, f24_4, v_d, v_a, v_b, v_c]
  all_goals rfl

theorem nmad24 (d : BitVec 6) (a : BitVec 6) (b : BitVec 6) (c : BitVec 6) : Statement (.nmad24 d a b c) := by
  intro v0 h0
  replace h0 := Option.some.inj h0
  have b_d := d.isLt
  have b_a := a.isLt
  have b_b := b.isLt
  have b_c := c.isLt
  have w0 : v0.toNat = 335544320 + d.toNat * 262144 + a.toNat * 4096 + b.toNat * 64 + c.toNat * 1 := word4 h0 pow18 pow12 pow6 pow0 (by omega)
  clear h0
  generalize v0.toNat = m0 at w0
  have f28_4 : field m0 28 4 = 1 := field_at (67108864 + d.toNat * 262144 + a.toNat * 4096 + b.toNat * 64 + c.toNat) 1 (0) (by omega) (by omega) (by omega)
  have f24_4 : field m0 24 4 = 4 := field_at (0 + d.toNat * 262144 + a.toNat * 4096 + b.toNat * 64 + c.toNat) 4 (1) (by omega) (by omega) (by omega)
  have v_d : fld m0 18 6 = d := fld_at (0 + a.toNat * 4096 + b.toNat * 64 + c.toNat) (20) (by omega) (by omega)
  have v_a : fld m0 12 6 = a := fld_at (0 + b.toNat * 64 + c.toNat) (1280 + d.toNat) (by omega) (by omega)
  have v_b : fld m0 6 6 = b := fld_at (0 + c.toNat) (81920 + d.toNat * 64 + a.toNat) (by omega) (by omega)
  have v_c : fld m0 0 6 = c := fld_at (0) (5242880 + d.toNat * 4096 + a.toNat * 64 + b.toNat) (by omega) (by omega)
  simp only [decodeWord, decodeGroup1, decode14, f28_4, f24_4, v_d, v_a, v_b, v_c]
  all_goals rfl

theorem imul32Lo (d : BitVec 6) (a : BitVec 6) (b : BitVec 6) (look : BitVec 4) : Statement (.imul32Lo d a b look) := by
  intro v0 h0
  replace h0 := Option.some.inj h0
  have b_d := d.isLt
  have b_a := a.isLt
  have b_b := b.isLt
  have b_look := look.isLt
  have w0 : v0.toNat = 352321536 + d.toNat * 262144 + a.toNat * 4096 + b.toNat * 64 + look.toNat * 4 := word4 h0 pow18 pow12 pow6 pow2 (by omega)
  clear h0
  generalize v0.toNat = m0 at w0
  have f28_4 : field m0 28 4 = 1 := field_at (83886080 + d.toNat * 262144 + a.toNat * 4096 + b.toNat * 64 + look.toNat * 4) 1 (0) (by omega) (by omega) (by omega)
  have f24_4 : field m0 24 4 = 5 := field_at (0 + d.toNat * 262144 + a.toNat * 4096 + b.toNat * 64 + look.toNat * 4) 5 (1) (by omega) (by omega) (by omega)
  have f0_2 : field m0 0 2 = 0 := field_at (0) 0 (88080384 + d.toNat * 65536 + a.toNat * 1024 + b.toNat * 16 + look.toNat) (by omega) (by omega) (by omega)
  have v_d : fld m0 18 6 = d := fld_at (0 + a.toNat * 4096 + b.toNat * 64 + look.toNat * 4) (21) (by omega) (by omega)
  have v_a : fld m0 12 6 = a := fld_at (0 + b.toNat * 64 + look.toNat * 4) (1344 + d.toNat) (by omega) (by omega)
  have v_b : fld m0 6 6 = b := fld_at (0 + look.toNat * 4) (86016 + d.toNat * 64 + a.toNat) (by omega) (by omega)
  have v_look : fld m0 2 4 = look := fld_at (0) (5505024 + d.toNat * 4096 + a.toNat * 64 + b.toNat) (by omega) (by omega)
  simp only [decodeWord, decodeGroup1, decode15, f28_4, f24_4, f0_2, v_d, v_a, v_b, v_look]
  all_goals rfl

theorem imul32Hi (d : BitVec 6) (a : BitVec 6) (b : BitVec 6) (look : BitVec 4) : Statement (.imul32Hi d a b look) := by
  intro v0 h0
  replace h0 := Option.some.inj h0
  have b_d := d.isLt
  have b_a := a.isLt
  have b_b := b.isLt
  have b_look := look.isLt
  have w0 : v0.toNat = 352321537 + d.toNat * 262144 + a.toNat * 4096 + b.toNat * 64 + look.toNat * 4 := word4 h0 pow18 pow12 pow6 pow2 (by omega)
  clear h0
  generalize v0.toNat = m0 at w0
  have f28_4 : field m0 28 4 = 1 := field_at (83886081 + d.toNat * 262144 + a.toNat * 4096 + b.toNat * 64 + look.toNat * 4) 1 (0) (by omega) (by omega) (by omega)
  have f24_4 : field m0 24 4 = 5 := field_at (1 + d.toNat * 262144 + a.toNat * 4096 + b.toNat * 64 + look.toNat * 4) 5 (1) (by omega) (by omega) (by omega)
  have f0_2 : field m0 0 2 = 1 := field_at (0) 1 (88080384 + d.toNat * 65536 + a.toNat * 1024 + b.toNat * 16 + look.toNat) (by omega) (by omega) (by omega)
  have v_d : fld m0 18 6 = d := fld_at (1 + a.toNat * 4096 + b.toNat * 64 + look.toNat * 4) (21) (by omega) (by omega)
  have v_a : fld m0 12 6 = a := fld_at (1 + b.toNat * 64 + look.toNat * 4) (1344 + d.toNat) (by omega) (by omega)
  have v_b : fld m0 6 6 = b := fld_at (1 + look.toNat * 4) (86016 + d.toNat * 64 + a.toNat) (by omega) (by omega)
  have v_look : fld m0 2 4 = look := fld_at (1) (5505024 + d.toNat * 4096 + a.toNat * 64 + b.toNat) (by omega) (by omega)
  simp only [decodeWord, decodeGroup1, decode15, f28_4, f24_4, f0_2, v_d, v_a, v_b, v_look]
  all_goals rfl

theorem imul32Nhi (d : BitVec 6) (a : BitVec 6) (b : BitVec 6) (look : BitVec 4) : Statement (.imul32Nhi d a b look) := by
  intro v0 h0
  replace h0 := Option.some.inj h0
  have b_d := d.isLt
  have b_a := a.isLt
  have b_b := b.isLt
  have b_look := look.isLt
  have w0 : v0.toNat = 352321538 + d.toNat * 262144 + a.toNat * 4096 + b.toNat * 64 + look.toNat * 4 := word4 h0 pow18 pow12 pow6 pow2 (by omega)
  clear h0
  generalize v0.toNat = m0 at w0
  have f28_4 : field m0 28 4 = 1 := field_at (83886082 + d.toNat * 262144 + a.toNat * 4096 + b.toNat * 64 + look.toNat * 4) 1 (0) (by omega) (by omega) (by omega)
  have f24_4 : field m0 24 4 = 5 := field_at (2 + d.toNat * 262144 + a.toNat * 4096 + b.toNat * 64 + look.toNat * 4) 5 (1) (by omega) (by omega) (by omega)
  have f0_2 : field m0 0 2 = 2 := field_at (0) 2 (88080384 + d.toNat * 65536 + a.toNat * 1024 + b.toNat * 16 + look.toNat) (by omega) (by omega) (by omega)
  have v_d : fld m0 18 6 = d := fld_at (2 + a.toNat * 4096 + b.toNat * 64 + look.toNat * 4) (21) (by omega) (by omega)
  have v_a : fld m0 12 6 = a := fld_at (2 + b.toNat * 64 + look.toNat * 4) (1344 + d.toNat) (by omega) (by omega)
  have v_b : fld m0 6 6 = b := fld_at (2 + look.toNat * 4) (86016 + d.toNat * 64 + a.toNat) (by omega) (by omega)
  have v_look : fld m0 2 4 = look := fld_at (2) (5505024 + d.toNat * 4096 + a.toNat * 64 + b.toNat) (by omega) (by omega)
  simp only [decodeWord, decodeGroup1, decode15, f28_4, f24_4, f0_2, v_d, v_a, v_b, v_look]
  all_goals rfl

theorem bfe (d : BitVec 6) (a : BitVec 6) (b : BitVec 6) (c : BitVec 6) : Statement (.bfe d a b c) := by
  intro v0 h0
  replace h0 := Option.some.inj h0
  have b_d := d.isLt
  have b_a := a.isLt
  have b_b := b.isLt
  have b_c := c.isLt
  have w0 : v0.toNat = 369098752 + d.toNat * 262144 + a.toNat * 4096 + b.toNat * 64 + c.toNat * 1 := word4 h0 pow18 pow12 pow6 pow0 (by omega)
  clear h0
  generalize v0.toNat = m0 at w0
  have f28_4 : field m0 28 4 = 1 := field_at (100663296 + d.toNat * 262144 + a.toNat * 4096 + b.toNat * 64 + c.toNat) 1 (0) (by omega) (by omega) (by omega)
  have f24_4 : field m0 24 4 = 6 := field_at (0 + d.toNat * 262144 + a.toNat * 4096 + b.toNat * 64 + c.toNat) 6 (1) (by omega) (by omega) (by omega)
  have v_d : fld m0 18 6 = d := fld_at (0 + a.toNat * 4096 + b.toNat * 64 + c.toNat) (22) (by omega) (by omega)
  have v_a : fld m0 12 6 = a := fld_at (0 + b.toNat * 64 + c.toNat) (1408 + d.toNat) (by omega) (by omega)
  have v_b : fld m0 6 6 = b := fld_at (0 + c.toNat) (90112 + d.toNat * 64 + a.toNat) (by omega) (by omega)
  have v_c : fld m0 0 6 = c := fld_at (0) (5767168 + d.toNat * 4096 + a.toNat * 64 + b.toNat) (by omega) (by omega)
  simp only [decodeWord, decodeGroup1, decode16, f28_4, f24_4, v_d, v_a, v_b, v_c]
  all_goals rfl

theorem bfi (d : BitVec 6) (a : BitVec 6) (b : BitVec 6) (c : BitVec 6) : Statement (.bfi d a b c) := by
  intro v0 h0
  replace h0 := Option.some.inj h0
  have b_d := d.isLt
  have b_a := a.isLt
  have b_b := b.isLt
  have b_c := c.isLt
  have w0 : v0.toNat = 385875968 + d.toNat * 262144 + a.toNat * 4096 + b.toNat * 64 + c.toNat * 1 := word4 h0 pow18 pow12 pow6 pow0 (by omega)
  clear h0
  generalize v0.toNat = m0 at w0
  have f28_4 : field m0 28 4 = 1 := field_at (117440512 + d.toNat * 262144 + a.toNat * 4096 + b.toNat * 64 + c.toNat) 1 (0) (by omega) (by omega) (by omega)
  have f24_4 : field m0 24 4 = 7 := field_at (0 + d.toNat * 262144 + a.toNat * 4096 + b.toNat * 64 + c.toNat) 7 (1) (by omega) (by omega) (by omega)
  have v_d : fld m0 18 6 = d := fld_at (0 + a.toNat * 4096 + b.toNat * 64 + c.toNat) (23) (by omega) (by omega)
  have v_a : fld m0 12 6 = a := fld_at (0 + b.toNat * 64 + c.toNat) (1472 + d.toNat) (by omega) (by omega)
  have v_b : fld m0 6 6 = b := fld_at (0 + c.toNat) (94208 + d.toNat * 64 + a.toNat) (by omega) (by omega)
  have v_c : fld m0 0 6 = c := fld_at (0) (6029312 + d.toNat * 4096 + a.toNat * 64 + b.toNat) (by omega) (by omega)
  simp only [decodeWord, decodeGroup1, decode17, f28_4, f24_4, v_d, v_a, v_b, v_c]
  all_goals rfl

theorem popc (d : BitVec 6) (a : BitVec 6) : Statement (.popc d a) := by
  intro v0 h0
  replace h0 := Option.some.inj h0
  have b_d := d.isLt
  have b_a := a.isLt
  have w0 : v0.toNat = 402653184 + d.toNat * 262144 + a.toNat * 4096 := word2 h0 pow18 pow12 (by omega)
  clear h0
  generalize v0.toNat = m0 at w0
  have f28_4 : field m0 28 4 = 1 := field_at (134217728 + d.toNat * 262144 + a.toNat * 4096) 1 (0) (by omega) (by omega) (by omega)
  have f24_4 : field m0 24 4 = 8 := field_at (0 + d.toNat * 262144 + a.toNat * 4096) 8 (1) (by omega) (by omega) (by omega)
  have f0_12 : field m0 0 12 = 0 := field_at (0) 0 (98304 + d.toNat * 64 + a.toNat) (by omega) (by omega) (by omega)
  have v_d : fld m0 18 6 = d := fld_at (0 + a.toNat * 4096) (24) (by omega) (by omega)
  have v_a : fld m0 12 6 = a := fld_at (0) (1536 + d.toNat) (by omega) (by omega)
  simp only [decodeWord, decodeGroup1, decode18, f28_4, f24_4, f0_12, v_d, v_a]
  all_goals rfl

theorem clz (d : BitVec 6) (a : BitVec 6) : Statement (.clz d a) := by
  intro v0 h0
  replace h0 := Option.some.inj h0
  have b_d := d.isLt
  have b_a := a.isLt
  have w0 : v0.toNat = 402653185 + d.toNat * 262144 + a.toNat * 4096 := word2 h0 pow18 pow12 (by omega)
  clear h0
  generalize v0.toNat = m0 at w0
  have f28_4 : field m0 28 4 = 1 := field_at (134217729 + d.toNat * 262144 + a.toNat * 4096) 1 (0) (by omega) (by omega) (by omega)
  have f24_4 : field m0 24 4 = 8 := field_at (1 + d.toNat * 262144 + a.toNat * 4096) 8 (1) (by omega) (by omega) (by omega)
  have f0_12 : field m0 0 12 = 1 := field_at (0) 1 (98304 + d.toNat * 64 + a.toNat) (by omega) (by omega) (by omega)
  have v_d : fld m0 18 6 = d := fld_at (1 + a.toNat * 4096) (24) (by omega) (by omega)
  have v_a : fld m0 12 6 = a := fld_at (1) (1536 + d.toNat) (by omega) (by omega)
  simp only [decodeWord, decodeGroup1, decode18, f28_4, f24_4, f0_12, v_d, v_a]
  all_goals rfl

theorem brev (d : BitVec 6) (a : BitVec 6) : Statement (.brev d a) := by
  intro v0 h0
  replace h0 := Option.some.inj h0
  have b_d := d.isLt
  have b_a := a.isLt
  have w0 : v0.toNat = 402653186 + d.toNat * 262144 + a.toNat * 4096 := word2 h0 pow18 pow12 (by omega)
  clear h0
  generalize v0.toNat = m0 at w0
  have f28_4 : field m0 28 4 = 1 := field_at (134217730 + d.toNat * 262144 + a.toNat * 4096) 1 (0) (by omega) (by omega) (by omega)
  have f24_4 : field m0 24 4 = 8 := field_at (2 + d.toNat * 262144 + a.toNat * 4096) 8 (1) (by omega) (by omega) (by omega)
  have f0_12 : field m0 0 12 = 2 := field_at (0) 2 (98304 + d.toNat * 64 + a.toNat) (by omega) (by omega) (by omega)
  have v_d : fld m0 18 6 = d := fld_at (2 + a.toNat * 4096) (24) (by omega) (by omega)
  have v_a : fld m0 12 6 = a := fld_at (2) (1536 + d.toNat) (by omega) (by omega)
  simp only [decodeWord, decodeGroup1, decode18, f28_4, f24_4, f0_12, v_d, v_a]
  all_goals rfl

theorem ffs (d : BitVec 6) (a : BitVec 6) : Statement (.ffs d a) := by
  intro v0 h0
  replace h0 := Option.some.inj h0
  have b_d := d.isLt
  have b_a := a.isLt
  have w0 : v0.toNat = 402653187 + d.toNat * 262144 + a.toNat * 4096 := word2 h0 pow18 pow12 (by omega)
  clear h0
  generalize v0.toNat = m0 at w0
  have f28_4 : field m0 28 4 = 1 := field_at (134217731 + d.toNat * 262144 + a.toNat * 4096) 1 (0) (by omega) (by omega) (by omega)
  have f24_4 : field m0 24 4 = 8 := field_at (3 + d.toNat * 262144 + a.toNat * 4096) 8 (1) (by omega) (by omega) (by omega)
  have f0_12 : field m0 0 12 = 3 := field_at (0) 3 (98304 + d.toNat * 64 + a.toNat) (by omega) (by omega) (by omega)
  have v_d : fld m0 18 6 = d := fld_at (3 + a.toNat * 4096) (24) (by omega) (by omega)
  have v_a : fld m0 12 6 = a := fld_at (3) (1536 + d.toNat) (by omega) (by omega)
  simp only [decodeWord, decodeGroup1, decode18, f28_4, f24_4, f0_12, v_d, v_a]
  all_goals rfl

theorem sel (d : BitVec 6) (a : BitVec 6) (b : BitVec 6) (c : BitVec 6) : Statement (.sel d a b c) := by
  intro v0 h0
  replace h0 := Option.some.inj h0
  have b_d := d.isLt
  have b_a := a.isLt
  have b_b := b.isLt
  have b_c := c.isLt
  have w0 : v0.toNat = 419430400 + d.toNat * 262144 + a.toNat * 4096 + b.toNat * 64 + c.toNat * 1 := word4 h0 pow18 pow12 pow6 pow0 (by omega)
  clear h0
  generalize v0.toNat = m0 at w0
  have f28_4 : field m0 28 4 = 1 := field_at (150994944 + d.toNat * 262144 + a.toNat * 4096 + b.toNat * 64 + c.toNat) 1 (0) (by omega) (by omega) (by omega)
  have f24_4 : field m0 24 4 = 9 := field_at (0 + d.toNat * 262144 + a.toNat * 4096 + b.toNat * 64 + c.toNat) 9 (1) (by omega) (by omega) (by omega)
  have v_d : fld m0 18 6 = d := fld_at (0 + a.toNat * 4096 + b.toNat * 64 + c.toNat) (25) (by omega) (by omega)
  have v_a : fld m0 12 6 = a := fld_at (0 + b.toNat * 64 + c.toNat) (1600 + d.toNat) (by omega) (by omega)
  have v_b : fld m0 6 6 = b := fld_at (0 + c.toNat) (102400 + d.toNat * 64 + a.toNat) (by omega) (by omega)
  have v_c : fld m0 0 6 = c := fld_at (0) (6553600 + d.toNat * 4096 + a.toNat * 64 + b.toNat) (by omega) (by omega)
  simp only [decodeWord, decodeGroup1, decode19, f28_4, f24_4, v_d, v_a, v_b, v_c]
  all_goals rfl

theorem icmp (d : BitVec 6) (a : BitVec 6) (b : BitVec 6) (fn : BitVec 6) : Statement (.icmp d a b fn) := by
  intro v0 h0
  replace h0 := Option.some.inj h0
  have b_d := d.isLt
  have b_a := a.isLt
  have b_b := b.isLt
  have b_fn := fn.isLt
  have w0 : v0.toNat = 436207616 + d.toNat * 262144 + a.toNat * 4096 + b.toNat * 64 + fn.toNat * 1 := word4 h0 pow18 pow12 pow6 pow0 (by omega)
  clear h0
  generalize v0.toNat = m0 at w0
  have f28_4 : field m0 28 4 = 1 := field_at (167772160 + d.toNat * 262144 + a.toNat * 4096 + b.toNat * 64 + fn.toNat) 1 (0) (by omega) (by omega) (by omega)
  have f24_4 : field m0 24 4 = 10 := field_at (0 + d.toNat * 262144 + a.toNat * 4096 + b.toNat * 64 + fn.toNat) 10 (1) (by omega) (by omega) (by omega)
  have v_d : fld m0 18 6 = d := fld_at (0 + a.toNat * 4096 + b.toNat * 64 + fn.toNat) (26) (by omega) (by omega)
  have v_a : fld m0 12 6 = a := fld_at (0 + b.toNat * 64 + fn.toNat) (1664 + d.toNat) (by omega) (by omega)
  have v_b : fld m0 6 6 = b := fld_at (0 + fn.toNat) (106496 + d.toNat * 64 + a.toNat) (by omega) (by omega)
  have v_fn : fld m0 0 6 = fn := fld_at (0) (6815744 + d.toNat * 4096 + a.toNat * 64 + b.toNat) (by omega) (by omega)
  simp only [decodeWord, decodeGroup1, decode1A, f28_4, f24_4, v_d, v_a, v_b, v_fn]
  all_goals rfl

theorem pand (d : BitVec 6) (a : BitVec 6) (b : BitVec 6) : Statement (.pand d a b) := by
  intro v0 h0
  replace h0 := Option.some.inj h0
  have b_d := d.isLt
  have b_a := a.isLt
  have b_b := b.isLt
  have w0 : v0.toNat = 452984832 + d.toNat * 262144 + a.toNat * 4096 + b.toNat * 64 := word3 h0 pow18 pow12 pow6 (by omega)
  clear h0
  generalize v0.toNat = m0 at w0
  have f28_4 : field m0 28 4 = 1 := field_at (184549376 + d.toNat * 262144 + a.toNat * 4096 + b.toNat * 64) 1 (0) (by omega) (by omega) (by omega)
  have f24_4 : field m0 24 4 = 11 := field_at (0 + d.toNat * 262144 + a.toNat * 4096 + b.toNat * 64) 11 (1) (by omega) (by omega) (by omega)
  have f0_6 : field m0 0 6 = 0 := field_at (0) 0 (7077888 + d.toNat * 4096 + a.toNat * 64 + b.toNat) (by omega) (by omega) (by omega)
  have v_d : fld m0 18 6 = d := fld_at (0 + a.toNat * 4096 + b.toNat * 64) (27) (by omega) (by omega)
  have v_a : fld m0 12 6 = a := fld_at (0 + b.toNat * 64) (1728 + d.toNat) (by omega) (by omega)
  have v_b : fld m0 6 6 = b := fld_at (0) (110592 + d.toNat * 64 + a.toNat) (by omega) (by omega)
  simp only [decodeWord, decodeGroup1, decode1B, f28_4, f24_4, f0_6, v_d, v_a, v_b]
  all_goals rfl

theorem por (d : BitVec 6) (a : BitVec 6) (b : BitVec 6) : Statement (.por d a b) := by
  intro v0 h0
  replace h0 := Option.some.inj h0
  have b_d := d.isLt
  have b_a := a.isLt
  have b_b := b.isLt
  have w0 : v0.toNat = 452984833 + d.toNat * 262144 + a.toNat * 4096 + b.toNat * 64 := word3 h0 pow18 pow12 pow6 (by omega)
  clear h0
  generalize v0.toNat = m0 at w0
  have f28_4 : field m0 28 4 = 1 := field_at (184549377 + d.toNat * 262144 + a.toNat * 4096 + b.toNat * 64) 1 (0) (by omega) (by omega) (by omega)
  have f24_4 : field m0 24 4 = 11 := field_at (1 + d.toNat * 262144 + a.toNat * 4096 + b.toNat * 64) 11 (1) (by omega) (by omega) (by omega)
  have f0_6 : field m0 0 6 = 1 := field_at (0) 1 (7077888 + d.toNat * 4096 + a.toNat * 64 + b.toNat) (by omega) (by omega) (by omega)
  have v_d : fld m0 18 6 = d := fld_at (1 + a.toNat * 4096 + b.toNat * 64) (27) (by omega) (by omega)
  have v_a : fld m0 12 6 = a := fld_at (1 + b.toNat * 64) (1728 + d.toNat) (by omega) (by omega)
  have v_b : fld m0 6 6 = b := fld_at (1) (110592 + d.toNat * 64 + a.toNat) (by omega) (by omega)
  simp only [decodeWord, decodeGroup1, decode1B, f28_4, f24_4, f0_6, v_d, v_a, v_b]
  all_goals rfl

theorem pxor (d : BitVec 6) (a : BitVec 6) (b : BitVec 6) : Statement (.pxor d a b) := by
  intro v0 h0
  replace h0 := Option.some.inj h0
  have b_d := d.isLt
  have b_a := a.isLt
  have b_b := b.isLt
  have w0 : v0.toNat = 452984834 + d.toNat * 262144 + a.toNat * 4096 + b.toNat * 64 := word3 h0 pow18 pow12 pow6 (by omega)
  clear h0
  generalize v0.toNat = m0 at w0
  have f28_4 : field m0 28 4 = 1 := field_at (184549378 + d.toNat * 262144 + a.toNat * 4096 + b.toNat * 64) 1 (0) (by omega) (by omega) (by omega)
  have f24_4 : field m0 24 4 = 11 := field_at (2 + d.toNat * 262144 + a.toNat * 4096 + b.toNat * 64) 11 (1) (by omega) (by omega) (by omega)
  have f0_6 : field m0 0 6 = 2 := field_at (0) 2 (7077888 + d.toNat * 4096 + a.toNat * 64 + b.toNat) (by omega) (by omega) (by omega)
  have v_d : fld m0 18 6 = d := fld_at (2 + a.toNat * 4096 + b.toNat * 64) (27) (by omega) (by omega)
  have v_a : fld m0 12 6 = a := fld_at (2 + b.toNat * 64) (1728 + d.toNat) (by omega) (by omega)
  have v_b : fld m0 6 6 = b := fld_at (2) (110592 + d.toNat * 64 + a.toNat) (by omega) (by omega)
  simp only [decodeWord, decodeGroup1, decode1B, f28_4, f24_4, f0_6, v_d, v_a, v_b]
  all_goals rfl

theorem pandn (d : BitVec 6) (a : BitVec 6) (b : BitVec 6) : Statement (.pandn d a b) := by
  intro v0 h0
  replace h0 := Option.some.inj h0
  have b_d := d.isLt
  have b_a := a.isLt
  have b_b := b.isLt
  have w0 : v0.toNat = 452984835 + d.toNat * 262144 + a.toNat * 4096 + b.toNat * 64 := word3 h0 pow18 pow12 pow6 (by omega)
  clear h0
  generalize v0.toNat = m0 at w0
  have f28_4 : field m0 28 4 = 1 := field_at (184549379 + d.toNat * 262144 + a.toNat * 4096 + b.toNat * 64) 1 (0) (by omega) (by omega) (by omega)
  have f24_4 : field m0 24 4 = 11 := field_at (3 + d.toNat * 262144 + a.toNat * 4096 + b.toNat * 64) 11 (1) (by omega) (by omega) (by omega)
  have f0_6 : field m0 0 6 = 3 := field_at (0) 3 (7077888 + d.toNat * 4096 + a.toNat * 64 + b.toNat) (by omega) (by omega) (by omega)
  have v_d : fld m0 18 6 = d := fld_at (3 + a.toNat * 4096 + b.toNat * 64) (27) (by omega) (by omega)
  have v_a : fld m0 12 6 = a := fld_at (3 + b.toNat * 64) (1728 + d.toNat) (by omega) (by omega)
  have v_b : fld m0 6 6 = b := fld_at (3) (110592 + d.toNat * 64 + a.toNat) (by omega) (by omega)
  simp only [decodeWord, decodeGroup1, decode1B, f28_4, f24_4, f0_6, v_d, v_a, v_b]
  all_goals rfl

theorem iaddi (d : BitVec 6) (a : BitVec 6) (imm : BitVec 12) : Statement (.iaddi d a imm) := by
  intro v0 h0
  replace h0 := Option.some.inj h0
  have b_d := d.isLt
  have b_a := a.isLt
  have b_imm := imm.isLt
  have w0 : v0.toNat = 469762048 + d.toNat * 262144 + a.toNat * 4096 + imm.toNat * 1 := word3 h0 pow18 pow12 pow0 (by omega)
  clear h0
  generalize v0.toNat = m0 at w0
  have f28_4 : field m0 28 4 = 1 := field_at (201326592 + d.toNat * 262144 + a.toNat * 4096 + imm.toNat) 1 (0) (by omega) (by omega) (by omega)
  have f24_4 : field m0 24 4 = 12 := field_at (0 + d.toNat * 262144 + a.toNat * 4096 + imm.toNat) 12 (1) (by omega) (by omega) (by omega)
  have v_d : fld m0 18 6 = d := fld_at (0 + a.toNat * 4096 + imm.toNat) (28) (by omega) (by omega)
  have v_a : fld m0 12 6 = a := fld_at (0 + imm.toNat) (1792 + d.toNat) (by omega) (by omega)
  have v_imm : fld m0 0 12 = imm := fld_at (0) (114688 + d.toNat * 64 + a.toNat) (by omega) (by omega)
  simp only [decodeWord, decodeGroup1, decode1C, f28_4, f24_4, v_d, v_a, v_imm]
  all_goals rfl

theorem andi (d : BitVec 6) (a : BitVec 6) (imm : BitVec 12) : Statement (.andi d a imm) := by
  intro v0 h0
  replace h0 := Option.some.inj h0
  have b_d := d.isLt
  have b_a := a.isLt
  have b_imm := imm.isLt
  have w0 : v0.toNat = 486539264 + d.toNat * 262144 + a.toNat * 4096 + imm.toNat * 1 := word3 h0 pow18 pow12 pow0 (by omega)
  clear h0
  generalize v0.toNat = m0 at w0
  have f28_4 : field m0 28 4 = 1 := field_at (218103808 + d.toNat * 262144 + a.toNat * 4096 + imm.toNat) 1 (0) (by omega) (by omega) (by omega)
  have f24_4 : field m0 24 4 = 13 := field_at (0 + d.toNat * 262144 + a.toNat * 4096 + imm.toNat) 13 (1) (by omega) (by omega) (by omega)
  have v_d : fld m0 18 6 = d := fld_at (0 + a.toNat * 4096 + imm.toNat) (29) (by omega) (by omega)
  have v_a : fld m0 12 6 = a := fld_at (0 + imm.toNat) (1856 + d.toNat) (by omega) (by omega)
  have v_imm : fld m0 0 12 = imm := fld_at (0) (118784 + d.toNat * 64 + a.toNat) (by omega) (by omega)
  simp only [decodeWord, decodeGroup1, decode1D, f28_4, f24_4, v_d, v_a, v_imm]
  all_goals rfl

theorem ori (d : BitVec 6) (a : BitVec 6) (imm : BitVec 12) : Statement (.ori d a imm) := by
  intro v0 h0
  replace h0 := Option.some.inj h0
  have b_d := d.isLt
  have b_a := a.isLt
  have b_imm := imm.isLt
  have w0 : v0.toNat = 503316480 + d.toNat * 262144 + a.toNat * 4096 + imm.toNat * 1 := word3 h0 pow18 pow12 pow0 (by omega)
  clear h0
  generalize v0.toNat = m0 at w0
  have f28_4 : field m0 28 4 = 1 := field_at (234881024 + d.toNat * 262144 + a.toNat * 4096 + imm.toNat) 1 (0) (by omega) (by omega) (by omega)
  have f24_4 : field m0 24 4 = 14 := field_at (0 + d.toNat * 262144 + a.toNat * 4096 + imm.toNat) 14 (1) (by omega) (by omega) (by omega)
  have v_d : fld m0 18 6 = d := fld_at (0 + a.toNat * 4096 + imm.toNat) (30) (by omega) (by omega)
  have v_a : fld m0 12 6 = a := fld_at (0 + imm.toNat) (1920 + d.toNat) (by omega) (by omega)
  have v_imm : fld m0 0 12 = imm := fld_at (0) (122880 + d.toNat * 64 + a.toNat) (by omega) (by omega)
  simp only [decodeWord, decodeGroup1, decode1E, f28_4, f24_4, v_d, v_a, v_imm]
  all_goals rfl

theorem movi (d : BitVec 6) (imm : BitVec 18) : Statement (.movi d imm) := by
  intro v0 h0
  replace h0 := Option.some.inj h0
  have b_d := d.isLt
  have b_imm := imm.isLt
  have w0 : v0.toNat = 520093696 + d.toNat * 262144 + imm.toNat * 1 := word2 h0 pow18 pow0 (by omega)
  clear h0
  generalize v0.toNat = m0 at w0
  have f28_4 : field m0 28 4 = 1 := field_at (251658240 + d.toNat * 262144 + imm.toNat) 1 (0) (by omega) (by omega) (by omega)
  have f24_4 : field m0 24 4 = 15 := field_at (0 + d.toNat * 262144 + imm.toNat) 15 (1) (by omega) (by omega) (by omega)
  have v_d : fld m0 18 6 = d := fld_at (0 + imm.toNat) (31) (by omega) (by omega)
  have v_imm : fld m0 0 18 = imm := fld_at (0) (1984 + d.toNat) (by omega) (by omega)
  simp only [decodeWord, decodeGroup1, decode1F, f28_4, f24_4, v_d, v_imm]
  all_goals rfl

theorem movhi (d : BitVec 6) (imm : BitVec 16) : Statement (.movhi d imm) := by
  intro v0 h0
  replace h0 := Option.some.inj h0
  have b_d := d.isLt
  have b_imm := imm.isLt
  have w0 : v0.toNat = 536870912 + d.toNat * 262144 + imm.toNat * 1 := word2 h0 pow18 pow0 (by omega)
  clear h0
  generalize v0.toNat = m0 at w0
  have f28_4 : field m0 28 4 = 2 := field_at (0 + d.toNat * 262144 + imm.toNat) 2 (0) (by omega) (by omega) (by omega)
  have f24_4 : field m0 24 4 = 0 := field_at (0 + d.toNat * 262144 + imm.toNat) 0 (2) (by omega) (by omega) (by omega)
  have f16_2 : field m0 16 2 = 0 := field_at (0 + imm.toNat) 0 (2048 + d.toNat) (by omega) (by omega) (by omega)
  have v_d : fld m0 18 6 = d := fld_at (0 + imm.toNat) (32) (by omega) (by omega)
  have v_imm : fld m0 0 16 = imm := fld_at (0) (8192 + d.toNat * 4) (by omega) (by omega)
  simp only [decodeWord, decodeGroup2, decode20, f28_4, f24_4, f16_2, v_d, v_imm]
  all_goals rfl

theorem lea (d : BitVec 6) (a : BitVec 6) (b : BitVec 6) (sh : BitVec 4) : Statement (.lea d a b sh) := by
  intro v0 h0
  replace h0 := Option.some.inj h0
  have b_d := d.isLt
  have b_a := a.isLt
  have b_b := b.isLt
  have b_sh := sh.isLt
  have w0 : v0.toNat = 553648128 + d.toNat * 262144 + a.toNat * 4096 + b.toNat * 64 + sh.toNat * 1 := word4 h0 pow18 pow12 pow6 pow0 (by omega)
  clear h0
  generalize v0.toNat = m0 at w0
  have f28_4 : field m0 28 4 = 2 := field_at (16777216 + d.toNat * 262144 + a.toNat * 4096 + b.toNat * 64 + sh.toNat) 2 (0) (by omega) (by omega) (by omega)
  have f24_4 : field m0 24 4 = 1 := field_at (0 + d.toNat * 262144 + a.toNat * 4096 + b.toNat * 64 + sh.toNat) 1 (2) (by omega) (by omega) (by omega)
  have f4_2 : field m0 4 2 = 0 := field_at (0 + sh.toNat) 0 (8650752 + d.toNat * 4096 + a.toNat * 64 + b.toNat) (by omega) (by omega) (by omega)
  have v_d : fld m0 18 6 = d := fld_at (0 + a.toNat * 4096 + b.toNat * 64 + sh.toNat) (33) (by omega) (by omega)
  have v_a : fld m0 12 6 = a := fld_at (0 + b.toNat * 64 + sh.toNat) (2112 + d.toNat) (by omega) (by omega)
  have v_b : fld m0 6 6 = b := fld_at (0 + sh.toNat) (135168 + d.toNat * 64 + a.toNat) (by omega) (by omega)
  have v_sh : fld m0 0 4 = sh := fld_at (0) (34603008 + d.toNat * 16384 + a.toNat * 256 + b.toNat * 4) (by omega) (by omega)
  simp only [decodeWord, decodeGroup2, decode21, f28_4, f24_4, f4_2, v_d, v_a, v_b, v_sh]
  all_goals rfl

theorem iadd64 (d : BitVec 6) (a : BitVec 6) (b : BitVec 6) : Statement (.iadd64 d a b) := by
  intro v0 h0
  replace h0 := Option.some.inj h0
  have b_d := d.isLt
  have b_a := a.isLt
  have b_b := b.isLt
  have w0 : v0.toNat = 570425344 + d.toNat * 262144 + a.toNat * 4096 + b.toNat * 64 := word3 h0 pow18 pow12 pow6 (by omega)
  clear h0
  generalize v0.toNat = m0 at w0
  have f28_4 : field m0 28 4 = 2 := field_at (33554432 + d.toNat * 262144 + a.toNat * 4096 + b.toNat * 64) 2 (0) (by omega) (by omega) (by omega)
  have f24_4 : field m0 24 4 = 2 := field_at (0 + d.toNat * 262144 + a.toNat * 4096 + b.toNat * 64) 2 (2) (by omega) (by omega) (by omega)
  have f0_6 : field m0 0 6 = 0 := field_at (0) 0 (8912896 + d.toNat * 4096 + a.toNat * 64 + b.toNat) (by omega) (by omega) (by omega)
  have v_d : fld m0 18 6 = d := fld_at (0 + a.toNat * 4096 + b.toNat * 64) (34) (by omega) (by omega)
  have v_a : fld m0 12 6 = a := fld_at (0 + b.toNat * 64) (2176 + d.toNat) (by omega) (by omega)
  have v_b : fld m0 6 6 = b := fld_at (0) (139264 + d.toNat * 64 + a.toNat) (by omega) (by omega)
  simp only [decodeWord, decodeGroup2, decode22, f28_4, f24_4, f0_6, v_d, v_a, v_b]
  all_goals rfl

theorem isub64 (d : BitVec 6) (a : BitVec 6) (b : BitVec 6) : Statement (.isub64 d a b) := by
  intro v0 h0
  replace h0 := Option.some.inj h0
  have b_d := d.isLt
  have b_a := a.isLt
  have b_b := b.isLt
  have w0 : v0.toNat = 570425345 + d.toNat * 262144 + a.toNat * 4096 + b.toNat * 64 := word3 h0 pow18 pow12 pow6 (by omega)
  clear h0
  generalize v0.toNat = m0 at w0
  have f28_4 : field m0 28 4 = 2 := field_at (33554433 + d.toNat * 262144 + a.toNat * 4096 + b.toNat * 64) 2 (0) (by omega) (by omega) (by omega)
  have f24_4 : field m0 24 4 = 2 := field_at (1 + d.toNat * 262144 + a.toNat * 4096 + b.toNat * 64) 2 (2) (by omega) (by omega) (by omega)
  have f0_6 : field m0 0 6 = 1 := field_at (0) 1 (8912896 + d.toNat * 4096 + a.toNat * 64 + b.toNat) (by omega) (by omega) (by omega)
  have v_d : fld m0 18 6 = d := fld_at (1 + a.toNat * 4096 + b.toNat * 64) (34) (by omega) (by omega)
  have v_a : fld m0 12 6 = a := fld_at (1 + b.toNat * 64) (2176 + d.toNat) (by omega) (by omega)
  have v_b : fld m0 6 6 = b := fld_at (1) (139264 + d.toNat * 64 + a.toNat) (by omega) (by omega)
  simp only [decodeWord, decodeGroup2, decode22, f28_4, f24_4, f0_6, v_d, v_a, v_b]
  all_goals rfl

theorem smovSs (x : BitVec 6) (y : BitVec 6) : Statement (.smovSs x y) := by
  intro v0 h0
  replace h0 := Option.some.inj h0
  have b_x := x.isLt
  have b_y := y.isLt
  have w0 : v0.toNat = 587202560 + x.toNat * 65536 + y.toNat * 1024 := word2 h0 pow16 pow10 (by omega)
  clear h0
  generalize v0.toNat = m0 at w0
  have f28_4 : field m0 28 4 = 2 := field_at (50331648 + x.toNat * 65536 + y.toNat * 1024) 2 (0) (by omega) (by omega) (by omega)
  have f24_4 : field m0 24 4 = 3 := field_at (0 + x.toNat * 65536 + y.toNat * 1024) 3 (2) (by omega) (by omega) (by omega)
  have f0_10 : field m0 0 10 = 0 := field_at (0) 0 (573440 + x.toNat * 64 + y.toNat) (by omega) (by omega) (by omega)
  have f22_2 : field m0 22 2 = 0 := field_at (0 + x.toNat * 65536 + y.toNat * 1024) 0 (35) (by omega) (by omega) (by omega)
  have v_x : fld m0 16 6 = x := fld_at (0 + y.toNat * 1024) (140) (by omega) (by omega)
  have v_y : fld m0 10 6 = y := fld_at (0) (8960 + x.toNat) (by omega) (by omega)
  simp only [decodeWord, decodeGroup2, decode23, f28_4, f24_4, f0_10, f22_2, v_x, v_y]
  all_goals rfl

theorem smovSr (x : BitVec 6) (y : BitVec 6) : Statement (.smovSr x y) := by
  intro v0 h0
  replace h0 := Option.some.inj h0
  have b_x := x.isLt
  have b_y := y.isLt
  have w0 : v0.toNat = 591396864 + x.toNat * 65536 + y.toNat * 1024 := word2 h0 pow16 pow10 (by omega)
  clear h0
  generalize v0.toNat = m0 at w0
  have f28_4 : field m0 28 4 = 2 := field_at (54525952 + x.toNat * 65536 + y.toNat * 1024) 2 (0) (by omega) (by omega) (by omega)
  have f24_4 : field m0 24 4 = 3 := field_at (4194304 + x.toNat * 65536 + y.toNat * 1024) 3 (2) (by omega) (by omega) (by omega)
  have f0_10 : field m0 0 10 = 0 := field_at (0) 0 (577536 + x.toNat * 64 + y.toNat) (by omega) (by omega) (by omega)
  have f22_2 : field m0 22 2 = 1 := field_at (0 + x.toNat * 65536 + y.toNat * 1024) 1 (35) (by omega) (by omega) (by omega)
  have v_x : fld m0 16 6 = x := fld_at (0 + y.toNat * 1024) (141) (by omega) (by omega)
  have v_y : fld m0 10 6 = y := fld_at (0) (9024 + x.toNat) (by omega) (by omega)
  simp only [decodeWord, decodeGroup2, decode23, f28_4, f24_4, f0_10, f22_2, v_x, v_y]
  all_goals rfl

theorem smovRs (x : BitVec 6) (y : BitVec 6) : Statement (.smovRs x y) := by
  intro v0 h0
  replace h0 := Option.some.inj h0
  have b_x := x.isLt
  have b_y := y.isLt
  have w0 : v0.toNat = 595591168 + x.toNat * 65536 + y.toNat * 1024 := word2 h0 pow16 pow10 (by omega)
  clear h0
  generalize v0.toNat = m0 at w0
  have f28_4 : field m0 28 4 = 2 := field_at (58720256 + x.toNat * 65536 + y.toNat * 1024) 2 (0) (by omega) (by omega) (by omega)
  have f24_4 : field m0 24 4 = 3 := field_at (8388608 + x.toNat * 65536 + y.toNat * 1024) 3 (2) (by omega) (by omega) (by omega)
  have f0_10 : field m0 0 10 = 0 := field_at (0) 0 (581632 + x.toNat * 64 + y.toNat) (by omega) (by omega) (by omega)
  have f22_2 : field m0 22 2 = 2 := field_at (0 + x.toNat * 65536 + y.toNat * 1024) 2 (35) (by omega) (by omega) (by omega)
  have v_x : fld m0 16 6 = x := fld_at (0 + y.toNat * 1024) (142) (by omega) (by omega)
  have v_y : fld m0 10 6 = y := fld_at (0) (9088 + x.toNat) (by omega) (by omega)
  simp only [decodeWord, decodeGroup2, decode23, f28_4, f24_4, f0_10, f22_2, v_x, v_y]
  all_goals rfl

theorem sop (fn : BitVec 4) (d : BitVec 5) (a : BitVec 5) (b : BitVec 5) : Statement (.sop fn d a b) := by
  intro v0 h0
  replace h0 := Option.some.inj h0
  have b_fn := fn.isLt
  have b_d := d.isLt
  have b_a := a.isLt
  have b_b := b.isLt
  have w0 : v0.toNat = 603979776 + fn.toNat * 1048576 + d.toNat * 32768 + a.toNat * 1024 + b.toNat * 32 := word4 h0 pow20 pow15 pow10 pow5 (by omega)
  clear h0
  generalize v0.toNat = m0 at w0
  have f28_4 : field m0 28 4 = 2 := field_at (67108864 + fn.toNat * 1048576 + d.toNat * 32768 + a.toNat * 1024 + b.toNat * 32) 2 (0) (by omega) (by omega) (by omega)
  have f24_4 : field m0 24 4 = 4 := field_at (0 + fn.toNat * 1048576 + d.toNat * 32768 + a.toNat * 1024 + b.toNat * 32) 4 (2) (by omega) (by omega) (by omega)
  have f0_5 : field m0 0 5 = 0 := field_at (0) 0 (18874368 + fn.toNat * 32768 + d.toNat * 1024 + a.toNat * 32 + b.toNat) (by omega) (by omega) (by omega)
  have v_fn : fld m0 20 4 = fn := fld_at (0 + d.toNat * 32768 + a.toNat * 1024 + b.toNat * 32) (36) (by omega) (by omega)
  have v_d : fld m0 15 5 = d := fld_at (0 + a.toNat * 1024 + b.toNat * 32) (576 + fn.toNat) (by omega) (by omega)
  have v_a : fld m0 10 5 = a := fld_at (0 + b.toNat * 32) (18432 + fn.toNat * 32 + d.toNat) (by omega) (by omega)
  have v_b : fld m0 5 5 = b := fld_at (0) (589824 + fn.toNat * 1024 + d.toNat * 32 + a.toNat) (by omega) (by omega)
  simp only [decodeWord, decodeGroup2, decode24, f28_4, f24_4, f0_5, v_fn, v_d, v_a, v_b]
  all_goals rfl

theorem ffma (d : BitVec 6) (a : BitVec 6) (b : BitVec 6) (c : BitVec 6) : Statement (.ffma d a b c) := by
  intro v0 h0
  replace h0 := Option.some.inj h0
  have b_d := d.isLt
  have b_a := a.isLt
  have b_b := b.isLt
  have b_c := c.isLt
  have w0 : v0.toNat = 1073741824 + d.toNat * 262144 + a.toNat * 4096 + b.toNat * 64 + c.toNat * 1 := word4 h0 pow18 pow12 pow6 pow0 (by omega)
  clear h0
  generalize v0.toNat = m0 at w0
  have f28_4 : field m0 28 4 = 4 := field_at (0 + d.toNat * 262144 + a.toNat * 4096 + b.toNat * 64 + c.toNat) 4 (0) (by omega) (by omega) (by omega)
  have f24_4 : field m0 24 4 = 0 := field_at (0 + d.toNat * 262144 + a.toNat * 4096 + b.toNat * 64 + c.toNat) 0 (4) (by omega) (by omega) (by omega)
  have v_d : fld m0 18 6 = d := fld_at (0 + a.toNat * 4096 + b.toNat * 64 + c.toNat) (64) (by omega) (by omega)
  have v_a : fld m0 12 6 = a := fld_at (0 + b.toNat * 64 + c.toNat) (4096 + d.toNat) (by omega) (by omega)
  have v_b : fld m0 6 6 = b := fld_at (0 + c.toNat) (262144 + d.toNat * 64 + a.toNat) (by omega) (by omega)
  have v_c : fld m0 0 6 = c := fld_at (0) (16777216 + d.toNat * 4096 + a.toNat * 64 + b.toNat) (by omega) (by omega)
  simp only [decodeWord, decodeGroup4, decode40, f28_4, f24_4, v_d, v_a, v_b, v_c]
  all_goals rfl

theorem fadd (d : BitVec 6) (a : BitVec 6) (b : BitVec 6) : Statement (.fadd d a b) := by
  intro v0 h0
  replace h0 := Option.some.inj h0
  have b_d := d.isLt
  have b_a := a.isLt
  have b_b := b.isLt
  have w0 : v0.toNat = 1090519040 + d.toNat * 262144 + a.toNat * 4096 + b.toNat * 64 := word3 h0 pow18 pow12 pow6 (by omega)
  clear h0
  generalize v0.toNat = m0 at w0
  have f28_4 : field m0 28 4 = 4 := field_at (16777216 + d.toNat * 262144 + a.toNat * 4096 + b.toNat * 64) 4 (0) (by omega) (by omega) (by omega)
  have f24_4 : field m0 24 4 = 1 := field_at (0 + d.toNat * 262144 + a.toNat * 4096 + b.toNat * 64) 1 (4) (by omega) (by omega) (by omega)
  have f0_6 : field m0 0 6 = 0 := field_at (0) 0 (17039360 + d.toNat * 4096 + a.toNat * 64 + b.toNat) (by omega) (by omega) (by omega)
  have v_d : fld m0 18 6 = d := fld_at (0 + a.toNat * 4096 + b.toNat * 64) (65) (by omega) (by omega)
  have v_a : fld m0 12 6 = a := fld_at (0 + b.toNat * 64) (4160 + d.toNat) (by omega) (by omega)
  have v_b : fld m0 6 6 = b := fld_at (0) (266240 + d.toNat * 64 + a.toNat) (by omega) (by omega)
  simp only [decodeWord, decodeGroup4, decode41, f28_4, f24_4, f0_6, v_d, v_a, v_b]
  all_goals rfl

theorem fsub (d : BitVec 6) (a : BitVec 6) (b : BitVec 6) : Statement (.fsub d a b) := by
  intro v0 h0
  replace h0 := Option.some.inj h0
  have b_d := d.isLt
  have b_a := a.isLt
  have b_b := b.isLt
  have w0 : v0.toNat = 1090519041 + d.toNat * 262144 + a.toNat * 4096 + b.toNat * 64 := word3 h0 pow18 pow12 pow6 (by omega)
  clear h0
  generalize v0.toNat = m0 at w0
  have f28_4 : field m0 28 4 = 4 := field_at (16777217 + d.toNat * 262144 + a.toNat * 4096 + b.toNat * 64) 4 (0) (by omega) (by omega) (by omega)
  have f24_4 : field m0 24 4 = 1 := field_at (1 + d.toNat * 262144 + a.toNat * 4096 + b.toNat * 64) 1 (4) (by omega) (by omega) (by omega)
  have f0_6 : field m0 0 6 = 1 := field_at (0) 1 (17039360 + d.toNat * 4096 + a.toNat * 64 + b.toNat) (by omega) (by omega) (by omega)
  have v_d : fld m0 18 6 = d := fld_at (1 + a.toNat * 4096 + b.toNat * 64) (65) (by omega) (by omega)
  have v_a : fld m0 12 6 = a := fld_at (1 + b.toNat * 64) (4160 + d.toNat) (by omega) (by omega)
  have v_b : fld m0 6 6 = b := fld_at (1) (266240 + d.toNat * 64 + a.toNat) (by omega) (by omega)
  simp only [decodeWord, decodeGroup4, decode41, f28_4, f24_4, f0_6, v_d, v_a, v_b]
  all_goals rfl

theorem fmul (d : BitVec 6) (a : BitVec 6) (b : BitVec 6) : Statement (.fmul d a b) := by
  intro v0 h0
  replace h0 := Option.some.inj h0
  have b_d := d.isLt
  have b_a := a.isLt
  have b_b := b.isLt
  have w0 : v0.toNat = 1090519042 + d.toNat * 262144 + a.toNat * 4096 + b.toNat * 64 := word3 h0 pow18 pow12 pow6 (by omega)
  clear h0
  generalize v0.toNat = m0 at w0
  have f28_4 : field m0 28 4 = 4 := field_at (16777218 + d.toNat * 262144 + a.toNat * 4096 + b.toNat * 64) 4 (0) (by omega) (by omega) (by omega)
  have f24_4 : field m0 24 4 = 1 := field_at (2 + d.toNat * 262144 + a.toNat * 4096 + b.toNat * 64) 1 (4) (by omega) (by omega) (by omega)
  have f0_6 : field m0 0 6 = 2 := field_at (0) 2 (17039360 + d.toNat * 4096 + a.toNat * 64 + b.toNat) (by omega) (by omega) (by omega)
  have v_d : fld m0 18 6 = d := fld_at (2 + a.toNat * 4096 + b.toNat * 64) (65) (by omega) (by omega)
  have v_a : fld m0 12 6 = a := fld_at (2 + b.toNat * 64) (4160 + d.toNat) (by omega) (by omega)
  have v_b : fld m0 6 6 = b := fld_at (2) (266240 + d.toNat * 64 + a.toNat) (by omega) (by omega)
  simp only [decodeWord, decodeGroup4, decode41, f28_4, f24_4, f0_6, v_d, v_a, v_b]
  all_goals rfl

theorem fmin (d : BitVec 6) (a : BitVec 6) (b : BitVec 6) : Statement (.fmin d a b) := by
  intro v0 h0
  replace h0 := Option.some.inj h0
  have b_d := d.isLt
  have b_a := a.isLt
  have b_b := b.isLt
  have w0 : v0.toNat = 1090519043 + d.toNat * 262144 + a.toNat * 4096 + b.toNat * 64 := word3 h0 pow18 pow12 pow6 (by omega)
  clear h0
  generalize v0.toNat = m0 at w0
  have f28_4 : field m0 28 4 = 4 := field_at (16777219 + d.toNat * 262144 + a.toNat * 4096 + b.toNat * 64) 4 (0) (by omega) (by omega) (by omega)
  have f24_4 : field m0 24 4 = 1 := field_at (3 + d.toNat * 262144 + a.toNat * 4096 + b.toNat * 64) 1 (4) (by omega) (by omega) (by omega)
  have f0_6 : field m0 0 6 = 3 := field_at (0) 3 (17039360 + d.toNat * 4096 + a.toNat * 64 + b.toNat) (by omega) (by omega) (by omega)
  have v_d : fld m0 18 6 = d := fld_at (3 + a.toNat * 4096 + b.toNat * 64) (65) (by omega) (by omega)
  have v_a : fld m0 12 6 = a := fld_at (3 + b.toNat * 64) (4160 + d.toNat) (by omega) (by omega)
  have v_b : fld m0 6 6 = b := fld_at (3) (266240 + d.toNat * 64 + a.toNat) (by omega) (by omega)
  simp only [decodeWord, decodeGroup4, decode41, f28_4, f24_4, f0_6, v_d, v_a, v_b]
  all_goals rfl

theorem fmax (d : BitVec 6) (a : BitVec 6) (b : BitVec 6) : Statement (.fmax d a b) := by
  intro v0 h0
  replace h0 := Option.some.inj h0
  have b_d := d.isLt
  have b_a := a.isLt
  have b_b := b.isLt
  have w0 : v0.toNat = 1090519044 + d.toNat * 262144 + a.toNat * 4096 + b.toNat * 64 := word3 h0 pow18 pow12 pow6 (by omega)
  clear h0
  generalize v0.toNat = m0 at w0
  have f28_4 : field m0 28 4 = 4 := field_at (16777220 + d.toNat * 262144 + a.toNat * 4096 + b.toNat * 64) 4 (0) (by omega) (by omega) (by omega)
  have f24_4 : field m0 24 4 = 1 := field_at (4 + d.toNat * 262144 + a.toNat * 4096 + b.toNat * 64) 1 (4) (by omega) (by omega) (by omega)
  have f0_6 : field m0 0 6 = 4 := field_at (0) 4 (17039360 + d.toNat * 4096 + a.toNat * 64 + b.toNat) (by omega) (by omega) (by omega)
  have v_d : fld m0 18 6 = d := fld_at (4 + a.toNat * 4096 + b.toNat * 64) (65) (by omega) (by omega)
  have v_a : fld m0 12 6 = a := fld_at (4 + b.toNat * 64) (4160 + d.toNat) (by omega) (by omega)
  have v_b : fld m0 6 6 = b := fld_at (4) (266240 + d.toNat * 64 + a.toNat) (by omega) (by omega)
  simp only [decodeWord, decodeGroup4, decode41, f28_4, f24_4, f0_6, v_d, v_a, v_b]
  all_goals rfl

theorem fcmp (d : BitVec 6) (a : BitVec 6) (b : BitVec 6) (fn : BitVec 6) : Statement (.fcmp d a b fn) := by
  intro v0 h0
  replace h0 := Option.some.inj h0
  have b_d := d.isLt
  have b_a := a.isLt
  have b_b := b.isLt
  have b_fn := fn.isLt
  have w0 : v0.toNat = 1107296256 + d.toNat * 262144 + a.toNat * 4096 + b.toNat * 64 + fn.toNat * 1 := word4 h0 pow18 pow12 pow6 pow0 (by omega)
  clear h0
  generalize v0.toNat = m0 at w0
  have f28_4 : field m0 28 4 = 4 := field_at (33554432 + d.toNat * 262144 + a.toNat * 4096 + b.toNat * 64 + fn.toNat) 4 (0) (by omega) (by omega) (by omega)
  have f24_4 : field m0 24 4 = 2 := field_at (0 + d.toNat * 262144 + a.toNat * 4096 + b.toNat * 64 + fn.toNat) 2 (4) (by omega) (by omega) (by omega)
  have v_d : fld m0 18 6 = d := fld_at (0 + a.toNat * 4096 + b.toNat * 64 + fn.toNat) (66) (by omega) (by omega)
  have v_a : fld m0 12 6 = a := fld_at (0 + b.toNat * 64 + fn.toNat) (4224 + d.toNat) (by omega) (by omega)
  have v_b : fld m0 6 6 = b := fld_at (0 + fn.toNat) (270336 + d.toNat * 64 + a.toNat) (by omega) (by omega)
  have v_fn : fld m0 0 6 = fn := fld_at (0) (17301504 + d.toNat * 4096 + a.toNat * 64 + b.toNat) (by omega) (by omega)
  simp only [decodeWord, decodeGroup4, decode42, f28_4, f24_4, v_d, v_a, v_b, v_fn]
  all_goals rfl

theorem rcp (d : BitVec 6) (a : BitVec 6) (look : BitVec 4) : Statement (.rcp d a look) := by
  intro v0 h0
  replace h0 := Option.some.inj h0
  have b_d := d.isLt
  have b_a := a.isLt
  have b_look := look.isLt
  have w0 : v0.toNat = 1124073472 + d.toNat * 262144 + a.toNat * 4096 + look.toNat * 4 := word3 h0 pow18 pow12 pow2 (by omega)
  clear h0
  generalize v0.toNat = m0 at w0
  have f28_4 : field m0 28 4 = 4 := field_at (50331648 + d.toNat * 262144 + a.toNat * 4096 + look.toNat * 4) 4 (0) (by omega) (by omega) (by omega)
  have f24_4 : field m0 24 4 = 3 := field_at (0 + d.toNat * 262144 + a.toNat * 4096 + look.toNat * 4) 3 (4) (by omega) (by omega) (by omega)
  have f0_2 : field m0 0 2 = 0 := field_at (0) 0 (281018368 + d.toNat * 65536 + a.toNat * 1024 + look.toNat) (by omega) (by omega) (by omega)
  have f6_6 : field m0 6 6 = 0 := field_at (0 + look.toNat * 4) 0 (274432 + d.toNat * 64 + a.toNat) (by omega) (by omega) (by omega)
  have v_d : fld m0 18 6 = d := fld_at (0 + a.toNat * 4096 + look.toNat * 4) (67) (by omega) (by omega)
  have v_a : fld m0 12 6 = a := fld_at (0 + look.toNat * 4) (4288 + d.toNat) (by omega) (by omega)
  have v_look : fld m0 2 4 = look := fld_at (0) (17563648 + d.toNat * 4096 + a.toNat * 64) (by omega) (by omega)
  simp only [decodeWord, decodeGroup4, decode43, f28_4, f24_4, f0_2, f6_6, v_d, v_a, v_look]
  all_goals rfl

theorem rsqrt (d : BitVec 6) (a : BitVec 6) (look : BitVec 4) : Statement (.rsqrt d a look) := by
  intro v0 h0
  replace h0 := Option.some.inj h0
  have b_d := d.isLt
  have b_a := a.isLt
  have b_look := look.isLt
  have w0 : v0.toNat = 1124073473 + d.toNat * 262144 + a.toNat * 4096 + look.toNat * 4 := word3 h0 pow18 pow12 pow2 (by omega)
  clear h0
  generalize v0.toNat = m0 at w0
  have f28_4 : field m0 28 4 = 4 := field_at (50331649 + d.toNat * 262144 + a.toNat * 4096 + look.toNat * 4) 4 (0) (by omega) (by omega) (by omega)
  have f24_4 : field m0 24 4 = 3 := field_at (1 + d.toNat * 262144 + a.toNat * 4096 + look.toNat * 4) 3 (4) (by omega) (by omega) (by omega)
  have f0_2 : field m0 0 2 = 1 := field_at (0) 1 (281018368 + d.toNat * 65536 + a.toNat * 1024 + look.toNat) (by omega) (by omega) (by omega)
  have f6_6 : field m0 6 6 = 0 := field_at (1 + look.toNat * 4) 0 (274432 + d.toNat * 64 + a.toNat) (by omega) (by omega) (by omega)
  have v_d : fld m0 18 6 = d := fld_at (1 + a.toNat * 4096 + look.toNat * 4) (67) (by omega) (by omega)
  have v_a : fld m0 12 6 = a := fld_at (1 + look.toNat * 4) (4288 + d.toNat) (by omega) (by omega)
  have v_look : fld m0 2 4 = look := fld_at (1) (17563648 + d.toNat * 4096 + a.toNat * 64) (by omega) (by omega)
  simp only [decodeWord, decodeGroup4, decode43, f28_4, f24_4, f0_2, f6_6, v_d, v_a, v_look]
  all_goals rfl

theorem sqrt (d : BitVec 6) (a : BitVec 6) (look : BitVec 4) : Statement (.sqrt d a look) := by
  intro v0 h0
  replace h0 := Option.some.inj h0
  have b_d := d.isLt
  have b_a := a.isLt
  have b_look := look.isLt
  have w0 : v0.toNat = 1124073474 + d.toNat * 262144 + a.toNat * 4096 + look.toNat * 4 := word3 h0 pow18 pow12 pow2 (by omega)
  clear h0
  generalize v0.toNat = m0 at w0
  have f28_4 : field m0 28 4 = 4 := field_at (50331650 + d.toNat * 262144 + a.toNat * 4096 + look.toNat * 4) 4 (0) (by omega) (by omega) (by omega)
  have f24_4 : field m0 24 4 = 3 := field_at (2 + d.toNat * 262144 + a.toNat * 4096 + look.toNat * 4) 3 (4) (by omega) (by omega) (by omega)
  have f0_2 : field m0 0 2 = 2 := field_at (0) 2 (281018368 + d.toNat * 65536 + a.toNat * 1024 + look.toNat) (by omega) (by omega) (by omega)
  have f6_6 : field m0 6 6 = 0 := field_at (2 + look.toNat * 4) 0 (274432 + d.toNat * 64 + a.toNat) (by omega) (by omega) (by omega)
  have v_d : fld m0 18 6 = d := fld_at (2 + a.toNat * 4096 + look.toNat * 4) (67) (by omega) (by omega)
  have v_a : fld m0 12 6 = a := fld_at (2 + look.toNat * 4) (4288 + d.toNat) (by omega) (by omega)
  have v_look : fld m0 2 4 = look := fld_at (2) (17563648 + d.toNat * 4096 + a.toNat * 64) (by omega) (by omega)
  simp only [decodeWord, decodeGroup4, decode43, f28_4, f24_4, f0_2, f6_6, v_d, v_a, v_look]
  all_goals rfl

theorem div (d : BitVec 6) (a : BitVec 6) (b : BitVec 6) (look : BitVec 4) : Statement (.div d a b look) := by
  intro v0 h0
  replace h0 := Option.some.inj h0
  have b_d := d.isLt
  have b_a := a.isLt
  have b_b := b.isLt
  have b_look := look.isLt
  have w0 : v0.toNat = 1124073475 + d.toNat * 262144 + a.toNat * 4096 + b.toNat * 64 + look.toNat * 4 := word4 h0 pow18 pow12 pow6 pow2 (by omega)
  clear h0
  generalize v0.toNat = m0 at w0
  have f28_4 : field m0 28 4 = 4 := field_at (50331651 + d.toNat * 262144 + a.toNat * 4096 + b.toNat * 64 + look.toNat * 4) 4 (0) (by omega) (by omega) (by omega)
  have f24_4 : field m0 24 4 = 3 := field_at (3 + d.toNat * 262144 + a.toNat * 4096 + b.toNat * 64 + look.toNat * 4) 3 (4) (by omega) (by omega) (by omega)
  have f0_2 : field m0 0 2 = 3 := field_at (0) 3 (281018368 + d.toNat * 65536 + a.toNat * 1024 + b.toNat * 16 + look.toNat) (by omega) (by omega) (by omega)
  have v_d : fld m0 18 6 = d := fld_at (3 + a.toNat * 4096 + b.toNat * 64 + look.toNat * 4) (67) (by omega) (by omega)
  have v_a : fld m0 12 6 = a := fld_at (3 + b.toNat * 64 + look.toNat * 4) (4288 + d.toNat) (by omega) (by omega)
  have v_b : fld m0 6 6 = b := fld_at (3 + look.toNat * 4) (274432 + d.toNat * 64 + a.toNat) (by omega) (by omega)
  have v_look : fld m0 2 4 = look := fld_at (3) (17563648 + d.toNat * 4096 + a.toNat * 64 + b.toNat) (by omega) (by omega)
  simp only [decodeWord, decodeGroup4, decode43, f28_4, f24_4, f0_2, v_d, v_a, v_b, v_look]
  all_goals rfl

theorem exp2 (d : BitVec 6) (a : BitVec 6) (look : BitVec 4) : Statement (.exp2 d a look) := by
  intro v0 h0
  replace h0 := Option.some.inj h0
  have b_d := d.isLt
  have b_a := a.isLt
  have b_look := look.isLt
  have w0 : v0.toNat = 1140850688 + d.toNat * 262144 + a.toNat * 4096 + look.toNat * 4 := word3 h0 pow18 pow12 pow2 (by omega)
  clear h0
  generalize v0.toNat = m0 at w0
  have f28_4 : field m0 28 4 = 4 := field_at (67108864 + d.toNat * 262144 + a.toNat * 4096 + look.toNat * 4) 4 (0) (by omega) (by omega) (by omega)
  have f24_4 : field m0 24 4 = 4 := field_at (0 + d.toNat * 262144 + a.toNat * 4096 + look.toNat * 4) 4 (4) (by omega) (by omega) (by omega)
  have f0_2 : field m0 0 2 = 0 := field_at (0) 0 (285212672 + d.toNat * 65536 + a.toNat * 1024 + look.toNat) (by omega) (by omega) (by omega)
  have f6_6 : field m0 6 6 = 0 := field_at (0 + look.toNat * 4) 0 (278528 + d.toNat * 64 + a.toNat) (by omega) (by omega) (by omega)
  have v_d : fld m0 18 6 = d := fld_at (0 + a.toNat * 4096 + look.toNat * 4) (68) (by omega) (by omega)
  have v_a : fld m0 12 6 = a := fld_at (0 + look.toNat * 4) (4352 + d.toNat) (by omega) (by omega)
  have v_look : fld m0 2 4 = look := fld_at (0) (17825792 + d.toNat * 4096 + a.toNat * 64) (by omega) (by omega)
  simp only [decodeWord, decodeGroup4, decode44, f28_4, f24_4, f0_2, f6_6, v_d, v_a, v_look]
  all_goals rfl

theorem log2 (d : BitVec 6) (a : BitVec 6) (look : BitVec 4) : Statement (.log2 d a look) := by
  intro v0 h0
  replace h0 := Option.some.inj h0
  have b_d := d.isLt
  have b_a := a.isLt
  have b_look := look.isLt
  have w0 : v0.toNat = 1140850689 + d.toNat * 262144 + a.toNat * 4096 + look.toNat * 4 := word3 h0 pow18 pow12 pow2 (by omega)
  clear h0
  generalize v0.toNat = m0 at w0
  have f28_4 : field m0 28 4 = 4 := field_at (67108865 + d.toNat * 262144 + a.toNat * 4096 + look.toNat * 4) 4 (0) (by omega) (by omega) (by omega)
  have f24_4 : field m0 24 4 = 4 := field_at (1 + d.toNat * 262144 + a.toNat * 4096 + look.toNat * 4) 4 (4) (by omega) (by omega) (by omega)
  have f0_2 : field m0 0 2 = 1 := field_at (0) 1 (285212672 + d.toNat * 65536 + a.toNat * 1024 + look.toNat) (by omega) (by omega) (by omega)
  have f6_6 : field m0 6 6 = 0 := field_at (1 + look.toNat * 4) 0 (278528 + d.toNat * 64 + a.toNat) (by omega) (by omega) (by omega)
  have v_d : fld m0 18 6 = d := fld_at (1 + a.toNat * 4096 + look.toNat * 4) (68) (by omega) (by omega)
  have v_a : fld m0 12 6 = a := fld_at (1 + look.toNat * 4) (4352 + d.toNat) (by omega) (by omega)
  have v_look : fld m0 2 4 = look := fld_at (1) (17825792 + d.toNat * 4096 + a.toNat * 64) (by omega) (by omega)
  simp only [decodeWord, decodeGroup4, decode44, f28_4, f24_4, f0_2, f6_6, v_d, v_a, v_look]
  all_goals rfl

theorem sin (d : BitVec 6) (a : BitVec 6) (look : BitVec 4) : Statement (.sin d a look) := by
  intro v0 h0
  replace h0 := Option.some.inj h0
  have b_d := d.isLt
  have b_a := a.isLt
  have b_look := look.isLt
  have w0 : v0.toNat = 1140850690 + d.toNat * 262144 + a.toNat * 4096 + look.toNat * 4 := word3 h0 pow18 pow12 pow2 (by omega)
  clear h0
  generalize v0.toNat = m0 at w0
  have f28_4 : field m0 28 4 = 4 := field_at (67108866 + d.toNat * 262144 + a.toNat * 4096 + look.toNat * 4) 4 (0) (by omega) (by omega) (by omega)
  have f24_4 : field m0 24 4 = 4 := field_at (2 + d.toNat * 262144 + a.toNat * 4096 + look.toNat * 4) 4 (4) (by omega) (by omega) (by omega)
  have f0_2 : field m0 0 2 = 2 := field_at (0) 2 (285212672 + d.toNat * 65536 + a.toNat * 1024 + look.toNat) (by omega) (by omega) (by omega)
  have f6_6 : field m0 6 6 = 0 := field_at (2 + look.toNat * 4) 0 (278528 + d.toNat * 64 + a.toNat) (by omega) (by omega) (by omega)
  have v_d : fld m0 18 6 = d := fld_at (2 + a.toNat * 4096 + look.toNat * 4) (68) (by omega) (by omega)
  have v_a : fld m0 12 6 = a := fld_at (2 + look.toNat * 4) (4352 + d.toNat) (by omega) (by omega)
  have v_look : fld m0 2 4 = look := fld_at (2) (17825792 + d.toNat * 4096 + a.toNat * 64) (by omega) (by omega)
  simp only [decodeWord, decodeGroup4, decode44, f28_4, f24_4, f0_2, f6_6, v_d, v_a, v_look]
  all_goals rfl

theorem cos (d : BitVec 6) (a : BitVec 6) (look : BitVec 4) : Statement (.cos d a look) := by
  intro v0 h0
  replace h0 := Option.some.inj h0
  have b_d := d.isLt
  have b_a := a.isLt
  have b_look := look.isLt
  have w0 : v0.toNat = 1140850691 + d.toNat * 262144 + a.toNat * 4096 + look.toNat * 4 := word3 h0 pow18 pow12 pow2 (by omega)
  clear h0
  generalize v0.toNat = m0 at w0
  have f28_4 : field m0 28 4 = 4 := field_at (67108867 + d.toNat * 262144 + a.toNat * 4096 + look.toNat * 4) 4 (0) (by omega) (by omega) (by omega)
  have f24_4 : field m0 24 4 = 4 := field_at (3 + d.toNat * 262144 + a.toNat * 4096 + look.toNat * 4) 4 (4) (by omega) (by omega) (by omega)
  have f0_2 : field m0 0 2 = 3 := field_at (0) 3 (285212672 + d.toNat * 65536 + a.toNat * 1024 + look.toNat) (by omega) (by omega) (by omega)
  have f6_6 : field m0 6 6 = 0 := field_at (3 + look.toNat * 4) 0 (278528 + d.toNat * 64 + a.toNat) (by omega) (by omega) (by omega)
  have v_d : fld m0 18 6 = d := fld_at (3 + a.toNat * 4096 + look.toNat * 4) (68) (by omega) (by omega)
  have v_a : fld m0 12 6 = a := fld_at (3 + look.toNat * 4) (4352 + d.toNat) (by omega) (by omega)
  have v_look : fld m0 2 4 = look := fld_at (3) (17825792 + d.toNat * 4096 + a.toNat * 64) (by omega) (by omega)
  simp only [decodeWord, decodeGroup4, decode44, f28_4, f24_4, f0_2, f6_6, v_d, v_a, v_look]
  all_goals rfl

theorem tanh (d : BitVec 6) (a : BitVec 6) (look : BitVec 4) : Statement (.tanh d a look) := by
  intro v0 h0
  replace h0 := Option.some.inj h0
  have b_d := d.isLt
  have b_a := a.isLt
  have b_look := look.isLt
  have w0 : v0.toNat = 1157627904 + d.toNat * 262144 + a.toNat * 4096 + look.toNat * 4 := word3 h0 pow18 pow12 pow2 (by omega)
  clear h0
  generalize v0.toNat = m0 at w0
  have f28_4 : field m0 28 4 = 4 := field_at (83886080 + d.toNat * 262144 + a.toNat * 4096 + look.toNat * 4) 4 (0) (by omega) (by omega) (by omega)
  have f24_4 : field m0 24 4 = 5 := field_at (0 + d.toNat * 262144 + a.toNat * 4096 + look.toNat * 4) 5 (4) (by omega) (by omega) (by omega)
  have f0_2 : field m0 0 2 = 0 := field_at (0) 0 (289406976 + d.toNat * 65536 + a.toNat * 1024 + look.toNat) (by omega) (by omega) (by omega)
  have f6_6 : field m0 6 6 = 0 := field_at (0 + look.toNat * 4) 0 (282624 + d.toNat * 64 + a.toNat) (by omega) (by omega) (by omega)
  have v_d : fld m0 18 6 = d := fld_at (0 + a.toNat * 4096 + look.toNat * 4) (69) (by omega) (by omega)
  have v_a : fld m0 12 6 = a := fld_at (0 + look.toNat * 4) (4416 + d.toNat) (by omega) (by omega)
  have v_look : fld m0 2 4 = look := fld_at (0) (18087936 + d.toNat * 4096 + a.toNat * 64) (by omega) (by omega)
  simp only [decodeWord, decodeGroup4, decode45, f28_4, f24_4, f0_2, f6_6, v_d, v_a, v_look]
  all_goals rfl

theorem sigm (d : BitVec 6) (a : BitVec 6) (look : BitVec 4) : Statement (.sigm d a look) := by
  intro v0 h0
  replace h0 := Option.some.inj h0
  have b_d := d.isLt
  have b_a := a.isLt
  have b_look := look.isLt
  have w0 : v0.toNat = 1157627905 + d.toNat * 262144 + a.toNat * 4096 + look.toNat * 4 := word3 h0 pow18 pow12 pow2 (by omega)
  clear h0
  generalize v0.toNat = m0 at w0
  have f28_4 : field m0 28 4 = 4 := field_at (83886081 + d.toNat * 262144 + a.toNat * 4096 + look.toNat * 4) 4 (0) (by omega) (by omega) (by omega)
  have f24_4 : field m0 24 4 = 5 := field_at (1 + d.toNat * 262144 + a.toNat * 4096 + look.toNat * 4) 5 (4) (by omega) (by omega) (by omega)
  have f0_2 : field m0 0 2 = 1 := field_at (0) 1 (289406976 + d.toNat * 65536 + a.toNat * 1024 + look.toNat) (by omega) (by omega) (by omega)
  have f6_6 : field m0 6 6 = 0 := field_at (1 + look.toNat * 4) 0 (282624 + d.toNat * 64 + a.toNat) (by omega) (by omega) (by omega)
  have v_d : fld m0 18 6 = d := fld_at (1 + a.toNat * 4096 + look.toNat * 4) (69) (by omega) (by omega)
  have v_a : fld m0 12 6 = a := fld_at (1 + look.toNat * 4) (4416 + d.toNat) (by omega) (by omega)
  have v_look : fld m0 2 4 = look := fld_at (1) (18087936 + d.toNat * 4096 + a.toNat * 64) (by omega) (by omega)
  simp only [decodeWord, decodeGroup4, decode45, f28_4, f24_4, f0_2, f6_6, v_d, v_a, v_look]
  all_goals rfl

theorem cvt (d : BitVec 6) (a : BitVec 6) (op : BitVec 4) (sel : BitVec 2) : Statement (.cvt d a op sel) := by
  intro v0 h0
  replace h0 := Option.some.inj h0
  have b_d := d.isLt
  have b_a := a.isLt
  have b_op := op.isLt
  have b_sel := sel.isLt
  have w0 : v0.toNat = 1174405120 + d.toNat * 262144 + a.toNat * 4096 + op.toNat * 256 + sel.toNat * 64 := word4 h0 pow18 pow12 pow8 pow6 (by omega)
  clear h0
  generalize v0.toNat = m0 at w0
  have f28_4 : field m0 28 4 = 4 := field_at (100663296 + d.toNat * 262144 + a.toNat * 4096 + op.toNat * 256 + sel.toNat * 64) 4 (0) (by omega) (by omega) (by omega)
  have f24_4 : field m0 24 4 = 6 := field_at (0 + d.toNat * 262144 + a.toNat * 4096 + op.toNat * 256 + sel.toNat * 64) 6 (4) (by omega) (by omega) (by omega)
  have f0_6 : field m0 0 6 = 0 := field_at (0) 0 (18350080 + d.toNat * 4096 + a.toNat * 64 + op.toNat * 4 + sel.toNat) (by omega) (by omega) (by omega)
  have v_d : fld m0 18 6 = d := fld_at (0 + a.toNat * 4096 + op.toNat * 256 + sel.toNat * 64) (70) (by omega) (by omega)
  have v_a : fld m0 12 6 = a := fld_at (0 + op.toNat * 256 + sel.toNat * 64) (4480 + d.toNat) (by omega) (by omega)
  have v_op : fld m0 8 4 = op := fld_at (0 + sel.toNat * 64) (286720 + d.toNat * 64 + a.toNat) (by omega) (by omega)
  have v_sel : fld m0 6 2 = sel := fld_at (0) (4587520 + d.toNat * 1024 + a.toNat * 16 + op.toNat) (by omega) (by omega)
  simp only [decodeWord, decodeGroup4, decode46, f28_4, f24_4, f0_6, v_d, v_a, v_op, v_sel]
  all_goals rfl

theorem f2i (d : BitVec 6) (a : BitVec 6) : Statement (.f2i d a) := by
  intro v0 h0
  replace h0 := Option.some.inj h0
  have b_d := d.isLt
  have b_a := a.isLt
  have w0 : v0.toNat = 1191182336 + d.toNat * 262144 + a.toNat * 4096 := word2 h0 pow18 pow12 (by omega)
  clear h0
  generalize v0.toNat = m0 at w0
  have f28_4 : field m0 28 4 = 4 := field_at (117440512 + d.toNat * 262144 + a.toNat * 4096) 4 (0) (by omega) (by omega) (by omega)
  have f24_4 : field m0 24 4 = 7 := field_at (0 + d.toNat * 262144 + a.toNat * 4096) 7 (4) (by omega) (by omega) (by omega)
  have f0_12 : field m0 0 12 = 0 := field_at (0) 0 (290816 + d.toNat * 64 + a.toNat) (by omega) (by omega) (by omega)
  have v_d : fld m0 18 6 = d := fld_at (0 + a.toNat * 4096) (71) (by omega) (by omega)
  have v_a : fld m0 12 6 = a := fld_at (0) (4544 + d.toNat) (by omega) (by omega)
  simp only [decodeWord, decodeGroup4, decode47, f28_4, f24_4, f0_12, v_d, v_a]
  all_goals rfl

theorem i2f (d : BitVec 6) (a : BitVec 6) : Statement (.i2f d a) := by
  intro v0 h0
  replace h0 := Option.some.inj h0
  have b_d := d.isLt
  have b_a := a.isLt
  have w0 : v0.toNat = 1191182337 + d.toNat * 262144 + a.toNat * 4096 := word2 h0 pow18 pow12 (by omega)
  clear h0
  generalize v0.toNat = m0 at w0
  have f28_4 : field m0 28 4 = 4 := field_at (117440513 + d.toNat * 262144 + a.toNat * 4096) 4 (0) (by omega) (by omega) (by omega)
  have f24_4 : field m0 24 4 = 7 := field_at (1 + d.toNat * 262144 + a.toNat * 4096) 7 (4) (by omega) (by omega) (by omega)
  have f0_12 : field m0 0 12 = 1 := field_at (0) 1 (290816 + d.toNat * 64 + a.toNat) (by omega) (by omega) (by omega)
  have v_d : fld m0 18 6 = d := fld_at (1 + a.toNat * 4096) (71) (by omega) (by omega)
  have v_a : fld m0 12 6 = a := fld_at (1) (4544 + d.toNat) (by omega) (by omega)
  simp only [decodeWord, decodeGroup4, decode47, f28_4, f24_4, f0_12, v_d, v_a]
  all_goals rfl

theorem f2n (d : BitVec 6) (a : BitVec 6) : Statement (.f2n d a) := by
  intro v0 h0
  replace h0 := Option.some.inj h0
  have b_d := d.isLt
  have b_a := a.isLt
  have w0 : v0.toNat = 1191182338 + d.toNat * 262144 + a.toNat * 4096 := word2 h0 pow18 pow12 (by omega)
  clear h0
  generalize v0.toNat = m0 at w0
  have f28_4 : field m0 28 4 = 4 := field_at (117440514 + d.toNat * 262144 + a.toNat * 4096) 4 (0) (by omega) (by omega) (by omega)
  have f24_4 : field m0 24 4 = 7 := field_at (2 + d.toNat * 262144 + a.toNat * 4096) 7 (4) (by omega) (by omega) (by omega)
  have f0_12 : field m0 0 12 = 2 := field_at (0) 2 (290816 + d.toNat * 64 + a.toNat) (by omega) (by omega) (by omega)
  have v_d : fld m0 18 6 = d := fld_at (2 + a.toNat * 4096) (71) (by omega) (by omega)
  have v_a : fld m0 12 6 = a := fld_at (2) (4544 + d.toNat) (by omega) (by omega)
  simp only [decodeWord, decodeGroup4, decode47, f28_4, f24_4, f0_12, v_d, v_a]
  all_goals rfl

theorem n2f (d : BitVec 6) (a : BitVec 6) : Statement (.n2f d a) := by
  intro v0 h0
  replace h0 := Option.some.inj h0
  have b_d := d.isLt
  have b_a := a.isLt
  have w0 : v0.toNat = 1191182339 + d.toNat * 262144 + a.toNat * 4096 := word2 h0 pow18 pow12 (by omega)
  clear h0
  generalize v0.toNat = m0 at w0
  have f28_4 : field m0 28 4 = 4 := field_at (117440515 + d.toNat * 262144 + a.toNat * 4096) 4 (0) (by omega) (by omega) (by omega)
  have f24_4 : field m0 24 4 = 7 := field_at (3 + d.toNat * 262144 + a.toNat * 4096) 7 (4) (by omega) (by omega) (by omega)
  have f0_12 : field m0 0 12 = 3 := field_at (0) 3 (290816 + d.toNat * 64 + a.toNat) (by omega) (by omega) (by omega)
  have v_d : fld m0 18 6 = d := fld_at (3 + a.toNat * 4096) (71) (by omega) (by omega)
  have v_a : fld m0 12 6 = a := fld_at (3) (4544 + d.toNat) (by omega) (by omega)
  simp only [decodeWord, decodeGroup4, decode47, f28_4, f24_4, f0_12, v_d, v_a]
  all_goals rfl

theorem frnd (d : BitVec 6) (a : BitVec 6) : Statement (.frnd d a) := by
  intro v0 h0
  replace h0 := Option.some.inj h0
  have b_d := d.isLt
  have b_a := a.isLt
  have w0 : v0.toNat = 1191182340 + d.toNat * 262144 + a.toNat * 4096 := word2 h0 pow18 pow12 (by omega)
  clear h0
  generalize v0.toNat = m0 at w0
  have f28_4 : field m0 28 4 = 4 := field_at (117440516 + d.toNat * 262144 + a.toNat * 4096) 4 (0) (by omega) (by omega) (by omega)
  have f24_4 : field m0 24 4 = 7 := field_at (4 + d.toNat * 262144 + a.toNat * 4096) 7 (4) (by omega) (by omega) (by omega)
  have f0_12 : field m0 0 12 = 4 := field_at (0) 4 (290816 + d.toNat * 64 + a.toNat) (by omega) (by omega) (by omega)
  have v_d : fld m0 18 6 = d := fld_at (4 + a.toNat * 4096) (71) (by omega) (by omega)
  have v_a : fld m0 12 6 = a := fld_at (4) (4544 + d.toNat) (by omega) (by omega)
  simp only [decodeWord, decodeGroup4, decode47, f28_4, f24_4, f0_12, v_d, v_a]
  all_goals rfl

theorem ffma2 (d : BitVec 6) (a : BitVec 6) (b : BitVec 6) (c : BitVec 6) : Statement (.ffma2 d a b c) := by
  intro v0 h0
  replace h0 := Option.some.inj h0
  have b_d := d.isLt
  have b_a := a.isLt
  have b_b := b.isLt
  have b_c := c.isLt
  have w0 : v0.toNat = 1207959552 + d.toNat * 262144 + a.toNat * 4096 + b.toNat * 64 + c.toNat * 1 := word4 h0 pow18 pow12 pow6 pow0 (by omega)
  clear h0
  generalize v0.toNat = m0 at w0
  have f28_4 : field m0 28 4 = 4 := field_at (134217728 + d.toNat * 262144 + a.toNat * 4096 + b.toNat * 64 + c.toNat) 4 (0) (by omega) (by omega) (by omega)
  have f24_4 : field m0 24 4 = 8 := field_at (0 + d.toNat * 262144 + a.toNat * 4096 + b.toNat * 64 + c.toNat) 8 (4) (by omega) (by omega) (by omega)
  have v_d : fld m0 18 6 = d := fld_at (0 + a.toNat * 4096 + b.toNat * 64 + c.toNat) (72) (by omega) (by omega)
  have v_a : fld m0 12 6 = a := fld_at (0 + b.toNat * 64 + c.toNat) (4608 + d.toNat) (by omega) (by omega)
  have v_b : fld m0 6 6 = b := fld_at (0 + c.toNat) (294912 + d.toNat * 64 + a.toNat) (by omega) (by omega)
  have v_c : fld m0 0 6 = c := fld_at (0) (18874368 + d.toNat * 4096 + a.toNat * 64 + b.toNat) (by omega) (by omega)
  simp only [decodeWord, decodeGroup4, decode48, f28_4, f24_4, v_d, v_a, v_b, v_c]
  all_goals rfl

theorem fadd2 (d : BitVec 6) (a : BitVec 6) (b : BitVec 6) : Statement (.fadd2 d a b) := by
  intro v0 h0
  replace h0 := Option.some.inj h0
  have b_d := d.isLt
  have b_a := a.isLt
  have b_b := b.isLt
  have w0 : v0.toNat = 1224736768 + d.toNat * 262144 + a.toNat * 4096 + b.toNat * 64 := word3 h0 pow18 pow12 pow6 (by omega)
  clear h0
  generalize v0.toNat = m0 at w0
  have f28_4 : field m0 28 4 = 4 := field_at (150994944 + d.toNat * 262144 + a.toNat * 4096 + b.toNat * 64) 4 (0) (by omega) (by omega) (by omega)
  have f24_4 : field m0 24 4 = 9 := field_at (0 + d.toNat * 262144 + a.toNat * 4096 + b.toNat * 64) 9 (4) (by omega) (by omega) (by omega)
  have f0_6 : field m0 0 6 = 0 := field_at (0) 0 (19136512 + d.toNat * 4096 + a.toNat * 64 + b.toNat) (by omega) (by omega) (by omega)
  have v_d : fld m0 18 6 = d := fld_at (0 + a.toNat * 4096 + b.toNat * 64) (73) (by omega) (by omega)
  have v_a : fld m0 12 6 = a := fld_at (0 + b.toNat * 64) (4672 + d.toNat) (by omega) (by omega)
  have v_b : fld m0 6 6 = b := fld_at (0) (299008 + d.toNat * 64 + a.toNat) (by omega) (by omega)
  simp only [decodeWord, decodeGroup4, decode49, f28_4, f24_4, f0_6, v_d, v_a, v_b]
  all_goals rfl

theorem fmul2 (d : BitVec 6) (a : BitVec 6) (b : BitVec 6) : Statement (.fmul2 d a b) := by
  intro v0 h0
  replace h0 := Option.some.inj h0
  have b_d := d.isLt
  have b_a := a.isLt
  have b_b := b.isLt
  have w0 : v0.toNat = 1224736769 + d.toNat * 262144 + a.toNat * 4096 + b.toNat * 64 := word3 h0 pow18 pow12 pow6 (by omega)
  clear h0
  generalize v0.toNat = m0 at w0
  have f28_4 : field m0 28 4 = 4 := field_at (150994945 + d.toNat * 262144 + a.toNat * 4096 + b.toNat * 64) 4 (0) (by omega) (by omega) (by omega)
  have f24_4 : field m0 24 4 = 9 := field_at (1 + d.toNat * 262144 + a.toNat * 4096 + b.toNat * 64) 9 (4) (by omega) (by omega) (by omega)
  have f0_6 : field m0 0 6 = 1 := field_at (0) 1 (19136512 + d.toNat * 4096 + a.toNat * 64 + b.toNat) (by omega) (by omega) (by omega)
  have v_d : fld m0 18 6 = d := fld_at (1 + a.toNat * 4096 + b.toNat * 64) (73) (by omega) (by omega)
  have v_a : fld m0 12 6 = a := fld_at (1 + b.toNat * 64) (4672 + d.toNat) (by omega) (by omega)
  have v_b : fld m0 6 6 = b := fld_at (1) (299008 + d.toNat * 64 + a.toNat) (by omega) (by omega)
  simp only [decodeWord, decodeGroup4, decode49, f28_4, f24_4, f0_6, v_d, v_a, v_b]
  all_goals rfl

theorem fmin2 (d : BitVec 6) (a : BitVec 6) (b : BitVec 6) : Statement (.fmin2 d a b) := by
  intro v0 h0
  replace h0 := Option.some.inj h0
  have b_d := d.isLt
  have b_a := a.isLt
  have b_b := b.isLt
  have w0 : v0.toNat = 1224736770 + d.toNat * 262144 + a.toNat * 4096 + b.toNat * 64 := word3 h0 pow18 pow12 pow6 (by omega)
  clear h0
  generalize v0.toNat = m0 at w0
  have f28_4 : field m0 28 4 = 4 := field_at (150994946 + d.toNat * 262144 + a.toNat * 4096 + b.toNat * 64) 4 (0) (by omega) (by omega) (by omega)
  have f24_4 : field m0 24 4 = 9 := field_at (2 + d.toNat * 262144 + a.toNat * 4096 + b.toNat * 64) 9 (4) (by omega) (by omega) (by omega)
  have f0_6 : field m0 0 6 = 2 := field_at (0) 2 (19136512 + d.toNat * 4096 + a.toNat * 64 + b.toNat) (by omega) (by omega) (by omega)
  have v_d : fld m0 18 6 = d := fld_at (2 + a.toNat * 4096 + b.toNat * 64) (73) (by omega) (by omega)
  have v_a : fld m0 12 6 = a := fld_at (2 + b.toNat * 64) (4672 + d.toNat) (by omega) (by omega)
  have v_b : fld m0 6 6 = b := fld_at (2) (299008 + d.toNat * 64 + a.toNat) (by omega) (by omega)
  simp only [decodeWord, decodeGroup4, decode49, f28_4, f24_4, f0_6, v_d, v_a, v_b]
  all_goals rfl

theorem fmax2 (d : BitVec 6) (a : BitVec 6) (b : BitVec 6) : Statement (.fmax2 d a b) := by
  intro v0 h0
  replace h0 := Option.some.inj h0
  have b_d := d.isLt
  have b_a := a.isLt
  have b_b := b.isLt
  have w0 : v0.toNat = 1224736771 + d.toNat * 262144 + a.toNat * 4096 + b.toNat * 64 := word3 h0 pow18 pow12 pow6 (by omega)
  clear h0
  generalize v0.toNat = m0 at w0
  have f28_4 : field m0 28 4 = 4 := field_at (150994947 + d.toNat * 262144 + a.toNat * 4096 + b.toNat * 64) 4 (0) (by omega) (by omega) (by omega)
  have f24_4 : field m0 24 4 = 9 := field_at (3 + d.toNat * 262144 + a.toNat * 4096 + b.toNat * 64) 9 (4) (by omega) (by omega) (by omega)
  have f0_6 : field m0 0 6 = 3 := field_at (0) 3 (19136512 + d.toNat * 4096 + a.toNat * 64 + b.toNat) (by omega) (by omega) (by omega)
  have v_d : fld m0 18 6 = d := fld_at (3 + a.toNat * 4096 + b.toNat * 64) (73) (by omega) (by omega)
  have v_a : fld m0 12 6 = a := fld_at (3 + b.toNat * 64) (4672 + d.toNat) (by omega) (by omega)
  have v_b : fld m0 6 6 = b := fld_at (3) (299008 + d.toNat * 64 + a.toNat) (by omega) (by omega)
  simp only [decodeWord, decodeGroup4, decode49, f28_4, f24_4, f0_6, v_d, v_a, v_b]
  all_goals rfl

theorem fabs (d : BitVec 6) (a : BitVec 6) : Statement (.fabs d a) := by
  intro v0 h0
  replace h0 := Option.some.inj h0
  have b_d := d.isLt
  have b_a := a.isLt
  have w0 : v0.toNat = 1241513984 + d.toNat * 262144 + a.toNat * 4096 := word2 h0 pow18 pow12 (by omega)
  clear h0
  generalize v0.toNat = m0 at w0
  have f28_4 : field m0 28 4 = 4 := field_at (167772160 + d.toNat * 262144 + a.toNat * 4096) 4 (0) (by omega) (by omega) (by omega)
  have f24_4 : field m0 24 4 = 10 := field_at (0 + d.toNat * 262144 + a.toNat * 4096) 10 (4) (by omega) (by omega) (by omega)
  have f0_12 : field m0 0 12 = 0 := field_at (0) 0 (303104 + d.toNat * 64 + a.toNat) (by omega) (by omega) (by omega)
  have v_d : fld m0 18 6 = d := fld_at (0 + a.toNat * 4096) (74) (by omega) (by omega)
  have v_a : fld m0 12 6 = a := fld_at (0) (4736 + d.toNat) (by omega) (by omega)
  simp only [decodeWord, decodeGroup4, decode4A, f28_4, f24_4, f0_12, v_d, v_a]
  all_goals rfl

theorem fneg (d : BitVec 6) (a : BitVec 6) : Statement (.fneg d a) := by
  intro v0 h0
  replace h0 := Option.some.inj h0
  have b_d := d.isLt
  have b_a := a.isLt
  have w0 : v0.toNat = 1241513985 + d.toNat * 262144 + a.toNat * 4096 := word2 h0 pow18 pow12 (by omega)
  clear h0
  generalize v0.toNat = m0 at w0
  have f28_4 : field m0 28 4 = 4 := field_at (167772161 + d.toNat * 262144 + a.toNat * 4096) 4 (0) (by omega) (by omega) (by omega)
  have f24_4 : field m0 24 4 = 10 := field_at (1 + d.toNat * 262144 + a.toNat * 4096) 10 (4) (by omega) (by omega) (by omega)
  have f0_12 : field m0 0 12 = 1 := field_at (0) 1 (303104 + d.toNat * 64 + a.toNat) (by omega) (by omega) (by omega)
  have v_d : fld m0 18 6 = d := fld_at (1 + a.toNat * 4096) (74) (by omega) (by omega)
  have v_a : fld m0 12 6 = a := fld_at (1) (4736 + d.toNat) (by omega) (by omega)
  simp only [decodeWord, decodeGroup4, decode4A, f28_4, f24_4, f0_12, v_d, v_a]
  all_goals rfl

theorem fclass (d : BitVec 6) (a : BitVec 6) : Statement (.fclass d a) := by
  intro v0 h0
  replace h0 := Option.some.inj h0
  have b_d := d.isLt
  have b_a := a.isLt
  have w0 : v0.toNat = 1241513986 + d.toNat * 262144 + a.toNat * 4096 := word2 h0 pow18 pow12 (by omega)
  clear h0
  generalize v0.toNat = m0 at w0
  have f28_4 : field m0 28 4 = 4 := field_at (167772162 + d.toNat * 262144 + a.toNat * 4096) 4 (0) (by omega) (by omega) (by omega)
  have f24_4 : field m0 24 4 = 10 := field_at (2 + d.toNat * 262144 + a.toNat * 4096) 10 (4) (by omega) (by omega) (by omega)
  have f0_12 : field m0 0 12 = 2 := field_at (0) 2 (303104 + d.toNat * 64 + a.toNat) (by omega) (by omega) (by omega)
  have v_d : fld m0 18 6 = d := fld_at (2 + a.toNat * 4096) (74) (by omega) (by omega)
  have v_a : fld m0 12 6 = a := fld_at (2) (4736 + d.toNat) (by omega) (by omega)
  simp only [decodeWord, decodeGroup4, decode4A, f28_4, f24_4, f0_12, v_d, v_a]
  all_goals rfl

theorem shfl (d : BitVec 6) (a : BitVec 6) (b : BitVec 6) (fn : BitVec 6) : Statement (.shfl d a b fn) := by
  intro v0 h0
  replace h0 := Option.some.inj h0
  have b_d := d.isLt
  have b_a := a.isLt
  have b_b := b.isLt
  have b_fn := fn.isLt
  have w0 : v0.toNat = 1879048192 + d.toNat * 262144 + a.toNat * 4096 + b.toNat * 64 + fn.toNat * 1 := word4 h0 pow18 pow12 pow6 pow0 (by omega)
  clear h0
  generalize v0.toNat = m0 at w0
  have f28_4 : field m0 28 4 = 7 := field_at (0 + d.toNat * 262144 + a.toNat * 4096 + b.toNat * 64 + fn.toNat) 7 (0) (by omega) (by omega) (by omega)
  have f24_4 : field m0 24 4 = 0 := field_at (0 + d.toNat * 262144 + a.toNat * 4096 + b.toNat * 64 + fn.toNat) 0 (7) (by omega) (by omega) (by omega)
  have v_d : fld m0 18 6 = d := fld_at (0 + a.toNat * 4096 + b.toNat * 64 + fn.toNat) (112) (by omega) (by omega)
  have v_a : fld m0 12 6 = a := fld_at (0 + b.toNat * 64 + fn.toNat) (7168 + d.toNat) (by omega) (by omega)
  have v_b : fld m0 6 6 = b := fld_at (0 + fn.toNat) (458752 + d.toNat * 64 + a.toNat) (by omega) (by omega)
  have v_fn : fld m0 0 6 = fn := fld_at (0) (29360128 + d.toNat * 4096 + a.toNat * 64 + b.toNat) (by omega) (by omega)
  simp only [decodeWord, decodeGroup7, decode70, f28_4, f24_4, v_d, v_a, v_b, v_fn]
  all_goals rfl

theorem vote (d : BitVec 6) (a : BitVec 6) (b : BitVec 6) (fn : BitVec 6) : Statement (.vote d a b fn) := by
  intro v0 h0
  replace h0 := Option.some.inj h0
  have b_d := d.isLt
  have b_a := a.isLt
  have b_b := b.isLt
  have b_fn := fn.isLt
  have w0 : v0.toNat = 1895825408 + d.toNat * 262144 + a.toNat * 4096 + b.toNat * 64 + fn.toNat * 1 := word4 h0 pow18 pow12 pow6 pow0 (by omega)
  clear h0
  generalize v0.toNat = m0 at w0
  have f28_4 : field m0 28 4 = 7 := field_at (16777216 + d.toNat * 262144 + a.toNat * 4096 + b.toNat * 64 + fn.toNat) 7 (0) (by omega) (by omega) (by omega)
  have f24_4 : field m0 24 4 = 1 := field_at (0 + d.toNat * 262144 + a.toNat * 4096 + b.toNat * 64 + fn.toNat) 1 (7) (by omega) (by omega) (by omega)
  have v_d : fld m0 18 6 = d := fld_at (0 + a.toNat * 4096 + b.toNat * 64 + fn.toNat) (113) (by omega) (by omega)
  have v_a : fld m0 12 6 = a := fld_at (0 + b.toNat * 64 + fn.toNat) (7232 + d.toNat) (by omega) (by omega)
  have v_b : fld m0 6 6 = b := fld_at (0 + fn.toNat) (462848 + d.toNat * 64 + a.toNat) (by omega) (by omega)
  have v_fn : fld m0 0 6 = fn := fld_at (0) (29622272 + d.toNat * 4096 + a.toNat * 64 + b.toNat) (by omega) (by omega)
  simp only [decodeWord, decodeGroup7, decode71, f28_4, f24_4, v_d, v_a, v_b, v_fn]
  all_goals rfl

theorem red (d : BitVec 6) (a : BitVec 6) (b : BitVec 6) (fn : BitVec 6) : Statement (.red d a b fn) := by
  intro v0 h0
  replace h0 := Option.some.inj h0
  have b_d := d.isLt
  have b_a := a.isLt
  have b_b := b.isLt
  have b_fn := fn.isLt
  have w0 : v0.toNat = 1912602624 + d.toNat * 262144 + a.toNat * 4096 + b.toNat * 64 + fn.toNat * 1 := word4 h0 pow18 pow12 pow6 pow0 (by omega)
  clear h0
  generalize v0.toNat = m0 at w0
  have f28_4 : field m0 28 4 = 7 := field_at (33554432 + d.toNat * 262144 + a.toNat * 4096 + b.toNat * 64 + fn.toNat) 7 (0) (by omega) (by omega) (by omega)
  have f24_4 : field m0 24 4 = 2 := field_at (0 + d.toNat * 262144 + a.toNat * 4096 + b.toNat * 64 + fn.toNat) 2 (7) (by omega) (by omega) (by omega)
  have v_d : fld m0 18 6 = d := fld_at (0 + a.toNat * 4096 + b.toNat * 64 + fn.toNat) (114) (by omega) (by omega)
  have v_a : fld m0 12 6 = a := fld_at (0 + b.toNat * 64 + fn.toNat) (7296 + d.toNat) (by omega) (by omega)
  have v_b : fld m0 6 6 = b := fld_at (0 + fn.toNat) (466944 + d.toNat * 64 + a.toNat) (by omega) (by omega)
  have v_fn : fld m0 0 6 = fn := fld_at (0) (29884416 + d.toNat * 4096 + a.toNat * 64 + b.toNat) (by omega) (by omega)
  simp only [decodeWord, decodeGroup7, decode72, f28_4, f24_4, v_d, v_a, v_b, v_fn]
  all_goals rfl

theorem scan (d : BitVec 6) (a : BitVec 6) (b : BitVec 6) (fn : BitVec 6) : Statement (.scan d a b fn) := by
  intro v0 h0
  replace h0 := Option.some.inj h0
  have b_d := d.isLt
  have b_a := a.isLt
  have b_b := b.isLt
  have b_fn := fn.isLt
  have w0 : v0.toNat = 1929379840 + d.toNat * 262144 + a.toNat * 4096 + b.toNat * 64 + fn.toNat * 1 := word4 h0 pow18 pow12 pow6 pow0 (by omega)
  clear h0
  generalize v0.toNat = m0 at w0
  have f28_4 : field m0 28 4 = 7 := field_at (50331648 + d.toNat * 262144 + a.toNat * 4096 + b.toNat * 64 + fn.toNat) 7 (0) (by omega) (by omega) (by omega)
  have f24_4 : field m0 24 4 = 3 := field_at (0 + d.toNat * 262144 + a.toNat * 4096 + b.toNat * 64 + fn.toNat) 3 (7) (by omega) (by omega) (by omega)
  have v_d : fld m0 18 6 = d := fld_at (0 + a.toNat * 4096 + b.toNat * 64 + fn.toNat) (115) (by omega) (by omega)
  have v_a : fld m0 12 6 = a := fld_at (0 + b.toNat * 64 + fn.toNat) (7360 + d.toNat) (by omega) (by omega)
  have v_b : fld m0 6 6 = b := fld_at (0 + fn.toNat) (471040 + d.toNat * 64 + a.toNat) (by omega) (by omega)
  have v_fn : fld m0 0 6 = fn := fld_at (0) (30146560 + d.toNat * 4096 + a.toNat * 64 + b.toNat) (by omega) (by omega)
  simp only [decodeWord, decodeGroup7, decode73, f28_4, f24_4, v_d, v_a, v_b, v_fn]
  all_goals rfl

theorem matchKey (d : BitVec 6) (a : BitVec 6) : Statement (.matchKey d a) := by
  intro v0 h0
  replace h0 := Option.some.inj h0
  have b_d := d.isLt
  have b_a := a.isLt
  have w0 : v0.toNat = 1946157056 + d.toNat * 262144 + a.toNat * 4096 := word2 h0 pow18 pow12 (by omega)
  clear h0
  generalize v0.toNat = m0 at w0
  have f28_4 : field m0 28 4 = 7 := field_at (67108864 + d.toNat * 262144 + a.toNat * 4096) 7 (0) (by omega) (by omega) (by omega)
  have f24_4 : field m0 24 4 = 4 := field_at (0 + d.toNat * 262144 + a.toNat * 4096) 4 (7) (by omega) (by omega) (by omega)
  have f0_12 : field m0 0 12 = 0 := field_at (0) 0 (475136 + d.toNat * 64 + a.toNat) (by omega) (by omega) (by omega)
  have v_d : fld m0 18 6 = d := fld_at (0 + a.toNat * 4096) (116) (by omega) (by omega)
  have v_a : fld m0 12 6 = a := fld_at (0) (7424 + d.toNat) (by omega) (by omega)
  simp only [decodeWord, decodeGroup7, decode74, f28_4, f24_4, f0_12, v_d, v_a]
  all_goals rfl

theorem bcast (d : BitVec 6) (a : BitVec 6) (b : BitVec 6) : Statement (.bcast d a b) := by
  intro v0 h0
  replace h0 := Option.some.inj h0
  have b_d := d.isLt
  have b_a := a.isLt
  have b_b := b.isLt
  have w0 : v0.toNat = 1962934272 + d.toNat * 262144 + a.toNat * 4096 + b.toNat * 64 := word3 h0 pow18 pow12 pow6 (by omega)
  clear h0
  generalize v0.toNat = m0 at w0
  have f28_4 : field m0 28 4 = 7 := field_at (83886080 + d.toNat * 262144 + a.toNat * 4096 + b.toNat * 64) 7 (0) (by omega) (by omega) (by omega)
  have f24_4 : field m0 24 4 = 5 := field_at (0 + d.toNat * 262144 + a.toNat * 4096 + b.toNat * 64) 5 (7) (by omega) (by omega) (by omega)
  have f0_6 : field m0 0 6 = 0 := field_at (0) 0 (30670848 + d.toNat * 4096 + a.toNat * 64 + b.toNat) (by omega) (by omega) (by omega)
  have v_d : fld m0 18 6 = d := fld_at (0 + a.toNat * 4096 + b.toNat * 64) (117) (by omega) (by omega)
  have v_a : fld m0 12 6 = a := fld_at (0 + b.toNat * 64) (7488 + d.toNat) (by omega) (by omega)
  have v_b : fld m0 6 6 = b := fld_at (0) (479232 + d.toNat * 64 + a.toNat) (by omega) (by omega)
  simp only [decodeWord, decodeGroup7, decode75, f28_4, f24_4, f0_6, v_d, v_a, v_b]
  all_goals rfl

theorem ldl (d : BitVec 6) (a : BitVec 6) (b : BitVec 6) (look : BitVec 4) (wd : BitVec 2) : Statement (.ldl d a b look wd) := by
  intro v0 h0
  replace h0 := Option.some.inj h0
  have b_d := d.isLt
  have b_a := a.isLt
  have b_b := b.isLt
  have b_look := look.isLt
  have b_wd := wd.isLt
  have w0 : v0.toNat = 2147483648 + d.toNat * 262144 + a.toNat * 4096 + b.toNat * 64 + look.toNat * 4 + wd.toNat * 1 := word5 h0 pow18 pow12 pow6 pow2 pow0 (by omega)
  clear h0
  generalize v0.toNat = m0 at w0
  have f28_4 : field m0 28 4 = 8 := field_at (0 + d.toNat * 262144 + a.toNat * 4096 + b.toNat * 64 + look.toNat * 4 + wd.toNat) 8 (0) (by omega) (by omega) (by omega)
  have f24_4 : field m0 24 4 = 0 := field_at (0 + d.toNat * 262144 + a.toNat * 4096 + b.toNat * 64 + look.toNat * 4 + wd.toNat) 0 (8) (by omega) (by omega) (by omega)
  have v_d : fld m0 18 6 = d := fld_at (0 + a.toNat * 4096 + b.toNat * 64 + look.toNat * 4 + wd.toNat) (128) (by omega) (by omega)
  have v_a : fld m0 12 6 = a := fld_at (0 + b.toNat * 64 + look.toNat * 4 + wd.toNat) (8192 + d.toNat) (by omega) (by omega)
  have v_b : fld m0 6 6 = b := fld_at (0 + look.toNat * 4 + wd.toNat) (524288 + d.toNat * 64 + a.toNat) (by omega) (by omega)
  have v_look : fld m0 2 4 = look := fld_at (0 + wd.toNat) (33554432 + d.toNat * 4096 + a.toNat * 64 + b.toNat) (by omega) (by omega)
  have v_wd : fld m0 0 2 = wd := fld_at (0) (536870912 + d.toNat * 65536 + a.toNat * 1024 + b.toNat * 16 + look.toNat) (by omega) (by omega)
  simp only [decodeWord, decodeGroup8, decode80, f28_4, f24_4, v_d, v_a, v_b, v_look, v_wd]
  all_goals rfl

theorem stl (d : BitVec 6) (a : BitVec 6) (b : BitVec 6) (wd : BitVec 2) : Statement (.stl d a b wd) := by
  intro v0 h0
  replace h0 := Option.some.inj h0
  have b_d := d.isLt
  have b_a := a.isLt
  have b_b := b.isLt
  have b_wd := wd.isLt
  have w0 : v0.toNat = 2164260864 + d.toNat * 262144 + a.toNat * 4096 + b.toNat * 64 + wd.toNat * 1 := word4 h0 pow18 pow12 pow6 pow0 (by omega)
  clear h0
  generalize v0.toNat = m0 at w0
  have f28_4 : field m0 28 4 = 8 := field_at (16777216 + d.toNat * 262144 + a.toNat * 4096 + b.toNat * 64 + wd.toNat) 8 (0) (by omega) (by omega) (by omega)
  have f24_4 : field m0 24 4 = 1 := field_at (0 + d.toNat * 262144 + a.toNat * 4096 + b.toNat * 64 + wd.toNat) 1 (8) (by omega) (by omega) (by omega)
  have f2_4 : field m0 2 4 = 0 := field_at (0 + wd.toNat) 0 (33816576 + d.toNat * 4096 + a.toNat * 64 + b.toNat) (by omega) (by omega) (by omega)
  have v_d : fld m0 18 6 = d := fld_at (0 + a.toNat * 4096 + b.toNat * 64 + wd.toNat) (129) (by omega) (by omega)
  have v_a : fld m0 12 6 = a := fld_at (0 + b.toNat * 64 + wd.toNat) (8256 + d.toNat) (by omega) (by omega)
  have v_b : fld m0 6 6 = b := fld_at (0 + wd.toNat) (528384 + d.toNat * 64 + a.toNat) (by omega) (by omega)
  have v_wd : fld m0 0 2 = wd := fld_at (0) (541065216 + d.toNat * 65536 + a.toNat * 1024 + b.toNat * 16) (by omega) (by omega)
  simp only [decodeWord, decodeGroup8, decode81, f28_4, f24_4, f2_4, v_d, v_a, v_b, v_wd]
  all_goals rfl

theorem lds (d : BitVec 6) (a : BitVec 6) (b : BitVec 6) (look : BitVec 4) (wd : BitVec 2) : Statement (.lds d a b look wd) := by
  intro v0 h0
  replace h0 := Option.some.inj h0
  have b_d := d.isLt
  have b_a := a.isLt
  have b_b := b.isLt
  have b_look := look.isLt
  have b_wd := wd.isLt
  have w0 : v0.toNat = 2181038080 + d.toNat * 262144 + a.toNat * 4096 + b.toNat * 64 + look.toNat * 4 + wd.toNat * 1 := word5 h0 pow18 pow12 pow6 pow2 pow0 (by omega)
  clear h0
  generalize v0.toNat = m0 at w0
  have f28_4 : field m0 28 4 = 8 := field_at (33554432 + d.toNat * 262144 + a.toNat * 4096 + b.toNat * 64 + look.toNat * 4 + wd.toNat) 8 (0) (by omega) (by omega) (by omega)
  have f24_4 : field m0 24 4 = 2 := field_at (0 + d.toNat * 262144 + a.toNat * 4096 + b.toNat * 64 + look.toNat * 4 + wd.toNat) 2 (8) (by omega) (by omega) (by omega)
  have v_d : fld m0 18 6 = d := fld_at (0 + a.toNat * 4096 + b.toNat * 64 + look.toNat * 4 + wd.toNat) (130) (by omega) (by omega)
  have v_a : fld m0 12 6 = a := fld_at (0 + b.toNat * 64 + look.toNat * 4 + wd.toNat) (8320 + d.toNat) (by omega) (by omega)
  have v_b : fld m0 6 6 = b := fld_at (0 + look.toNat * 4 + wd.toNat) (532480 + d.toNat * 64 + a.toNat) (by omega) (by omega)
  have v_look : fld m0 2 4 = look := fld_at (0 + wd.toNat) (34078720 + d.toNat * 4096 + a.toNat * 64 + b.toNat) (by omega) (by omega)
  have v_wd : fld m0 0 2 = wd := fld_at (0) (545259520 + d.toNat * 65536 + a.toNat * 1024 + b.toNat * 16 + look.toNat) (by omega) (by omega)
  simp only [decodeWord, decodeGroup8, decode82, f28_4, f24_4, v_d, v_a, v_b, v_look, v_wd]
  all_goals rfl

theorem sts (d : BitVec 6) (a : BitVec 6) (b : BitVec 6) (wd : BitVec 2) : Statement (.sts d a b wd) := by
  intro v0 h0
  replace h0 := Option.some.inj h0
  have b_d := d.isLt
  have b_a := a.isLt
  have b_b := b.isLt
  have b_wd := wd.isLt
  have w0 : v0.toNat = 2197815296 + d.toNat * 262144 + a.toNat * 4096 + b.toNat * 64 + wd.toNat * 1 := word4 h0 pow18 pow12 pow6 pow0 (by omega)
  clear h0
  generalize v0.toNat = m0 at w0
  have f28_4 : field m0 28 4 = 8 := field_at (50331648 + d.toNat * 262144 + a.toNat * 4096 + b.toNat * 64 + wd.toNat) 8 (0) (by omega) (by omega) (by omega)
  have f24_4 : field m0 24 4 = 3 := field_at (0 + d.toNat * 262144 + a.toNat * 4096 + b.toNat * 64 + wd.toNat) 3 (8) (by omega) (by omega) (by omega)
  have f2_4 : field m0 2 4 = 0 := field_at (0 + wd.toNat) 0 (34340864 + d.toNat * 4096 + a.toNat * 64 + b.toNat) (by omega) (by omega) (by omega)
  have v_d : fld m0 18 6 = d := fld_at (0 + a.toNat * 4096 + b.toNat * 64 + wd.toNat) (131) (by omega) (by omega)
  have v_a : fld m0 12 6 = a := fld_at (0 + b.toNat * 64 + wd.toNat) (8384 + d.toNat) (by omega) (by omega)
  have v_b : fld m0 6 6 = b := fld_at (0 + wd.toNat) (536576 + d.toNat * 64 + a.toNat) (by omega) (by omega)
  have v_wd : fld m0 0 2 = wd := fld_at (0) (549453824 + d.toNat * 65536 + a.toNat * 1024 + b.toNat * 16) (by omega) (by omega)
  simp only [decodeWord, decodeGroup8, decode83, f28_4, f24_4, f2_4, v_d, v_a, v_b, v_wd]
  all_goals rfl

theorem ldc (d : BitVec 6) (a : BitVec 6) (b : BitVec 6) (look : BitVec 4) (wd : BitVec 2) : Statement (.ldc d a b look wd) := by
  intro v0 h0
  replace h0 := Option.some.inj h0
  have b_d := d.isLt
  have b_a := a.isLt
  have b_b := b.isLt
  have b_look := look.isLt
  have b_wd := wd.isLt
  have w0 : v0.toNat = 2214592512 + d.toNat * 262144 + a.toNat * 4096 + b.toNat * 64 + look.toNat * 4 + wd.toNat * 1 := word5 h0 pow18 pow12 pow6 pow2 pow0 (by omega)
  clear h0
  generalize v0.toNat = m0 at w0
  have f28_4 : field m0 28 4 = 8 := field_at (67108864 + d.toNat * 262144 + a.toNat * 4096 + b.toNat * 64 + look.toNat * 4 + wd.toNat) 8 (0) (by omega) (by omega) (by omega)
  have f24_4 : field m0 24 4 = 4 := field_at (0 + d.toNat * 262144 + a.toNat * 4096 + b.toNat * 64 + look.toNat * 4 + wd.toNat) 4 (8) (by omega) (by omega) (by omega)
  have v_d : fld m0 18 6 = d := fld_at (0 + a.toNat * 4096 + b.toNat * 64 + look.toNat * 4 + wd.toNat) (132) (by omega) (by omega)
  have v_a : fld m0 12 6 = a := fld_at (0 + b.toNat * 64 + look.toNat * 4 + wd.toNat) (8448 + d.toNat) (by omega) (by omega)
  have v_b : fld m0 6 6 = b := fld_at (0 + look.toNat * 4 + wd.toNat) (540672 + d.toNat * 64 + a.toNat) (by omega) (by omega)
  have v_look : fld m0 2 4 = look := fld_at (0 + wd.toNat) (34603008 + d.toNat * 4096 + a.toNat * 64 + b.toNat) (by omega) (by omega)
  have v_wd : fld m0 0 2 = wd := fld_at (0) (553648128 + d.toNat * 65536 + a.toNat * 1024 + b.toNat * 16 + look.toNat) (by omega) (by omega)
  simp only [decodeWord, decodeGroup8, decode84, f28_4, f24_4, v_d, v_a, v_b, v_look, v_wd]
  all_goals rfl

theorem stc (d : BitVec 6) (a : BitVec 6) (b : BitVec 6) (wd : BitVec 2) : Statement (.stc d a b wd) := by
  intro v0 h0
  replace h0 := Option.some.inj h0
  have b_d := d.isLt
  have b_a := a.isLt
  have b_b := b.isLt
  have b_wd := wd.isLt
  have w0 : v0.toNat = 2231369728 + d.toNat * 262144 + a.toNat * 4096 + b.toNat * 64 + wd.toNat * 1 := word4 h0 pow18 pow12 pow6 pow0 (by omega)
  clear h0
  generalize v0.toNat = m0 at w0
  have f28_4 : field m0 28 4 = 8 := field_at (83886080 + d.toNat * 262144 + a.toNat * 4096 + b.toNat * 64 + wd.toNat) 8 (0) (by omega) (by omega) (by omega)
  have f24_4 : field m0 24 4 = 5 := field_at (0 + d.toNat * 262144 + a.toNat * 4096 + b.toNat * 64 + wd.toNat) 5 (8) (by omega) (by omega) (by omega)
  have f2_4 : field m0 2 4 = 0 := field_at (0 + wd.toNat) 0 (34865152 + d.toNat * 4096 + a.toNat * 64 + b.toNat) (by omega) (by omega) (by omega)
  have v_d : fld m0 18 6 = d := fld_at (0 + a.toNat * 4096 + b.toNat * 64 + wd.toNat) (133) (by omega) (by omega)
  have v_a : fld m0 12 6 = a := fld_at (0 + b.toNat * 64 + wd.toNat) (8512 + d.toNat) (by omega) (by omega)
  have v_b : fld m0 6 6 = b := fld_at (0 + wd.toNat) (544768 + d.toNat * 64 + a.toNat) (by omega) (by omega)
  have v_wd : fld m0 0 2 = wd := fld_at (0) (557842432 + d.toNat * 65536 + a.toNat * 1024 + b.toNat * 16) (by omega) (by omega)
  simp only [decodeWord, decodeGroup8, decode85, f28_4, f24_4, f2_4, v_d, v_a, v_b, v_wd]
  all_goals rfl

theorem ldd (d : BitVec 6) (a : BitVec 6) (b : BitVec 6) (look : BitVec 4) (wd : BitVec 2) : Statement (.ldd d a b look wd) := by
  intro v0 h0
  replace h0 := Option.some.inj h0
  have b_d := d.isLt
  have b_a := a.isLt
  have b_b := b.isLt
  have b_look := look.isLt
  have b_wd := wd.isLt
  have w0 : v0.toNat = 2248146944 + d.toNat * 262144 + a.toNat * 4096 + b.toNat * 64 + look.toNat * 4 + wd.toNat * 1 := word5 h0 pow18 pow12 pow6 pow2 pow0 (by omega)
  clear h0
  generalize v0.toNat = m0 at w0
  have f28_4 : field m0 28 4 = 8 := field_at (100663296 + d.toNat * 262144 + a.toNat * 4096 + b.toNat * 64 + look.toNat * 4 + wd.toNat) 8 (0) (by omega) (by omega) (by omega)
  have f24_4 : field m0 24 4 = 6 := field_at (0 + d.toNat * 262144 + a.toNat * 4096 + b.toNat * 64 + look.toNat * 4 + wd.toNat) 6 (8) (by omega) (by omega) (by omega)
  have v_d : fld m0 18 6 = d := fld_at (0 + a.toNat * 4096 + b.toNat * 64 + look.toNat * 4 + wd.toNat) (134) (by omega) (by omega)
  have v_a : fld m0 12 6 = a := fld_at (0 + b.toNat * 64 + look.toNat * 4 + wd.toNat) (8576 + d.toNat) (by omega) (by omega)
  have v_b : fld m0 6 6 = b := fld_at (0 + look.toNat * 4 + wd.toNat) (548864 + d.toNat * 64 + a.toNat) (by omega) (by omega)
  have v_look : fld m0 2 4 = look := fld_at (0 + wd.toNat) (35127296 + d.toNat * 4096 + a.toNat * 64 + b.toNat) (by omega) (by omega)
  have v_wd : fld m0 0 2 = wd := fld_at (0) (562036736 + d.toNat * 65536 + a.toNat * 1024 + b.toNat * 16 + look.toNat) (by omega) (by omega)
  simp only [decodeWord, decodeGroup8, decode86, f28_4, f24_4, v_d, v_a, v_b, v_look, v_wd]
  all_goals rfl

theorem std (d : BitVec 6) (a : BitVec 6) (b : BitVec 6) (wd : BitVec 2) : Statement (.std d a b wd) := by
  intro v0 h0
  replace h0 := Option.some.inj h0
  have b_d := d.isLt
  have b_a := a.isLt
  have b_b := b.isLt
  have b_wd := wd.isLt
  have w0 : v0.toNat = 2264924160 + d.toNat * 262144 + a.toNat * 4096 + b.toNat * 64 + wd.toNat * 1 := word4 h0 pow18 pow12 pow6 pow0 (by omega)
  clear h0
  generalize v0.toNat = m0 at w0
  have f28_4 : field m0 28 4 = 8 := field_at (117440512 + d.toNat * 262144 + a.toNat * 4096 + b.toNat * 64 + wd.toNat) 8 (0) (by omega) (by omega) (by omega)
  have f24_4 : field m0 24 4 = 7 := field_at (0 + d.toNat * 262144 + a.toNat * 4096 + b.toNat * 64 + wd.toNat) 7 (8) (by omega) (by omega) (by omega)
  have f2_4 : field m0 2 4 = 0 := field_at (0 + wd.toNat) 0 (35389440 + d.toNat * 4096 + a.toNat * 64 + b.toNat) (by omega) (by omega) (by omega)
  have v_d : fld m0 18 6 = d := fld_at (0 + a.toNat * 4096 + b.toNat * 64 + wd.toNat) (135) (by omega) (by omega)
  have v_a : fld m0 12 6 = a := fld_at (0 + b.toNat * 64 + wd.toNat) (8640 + d.toNat) (by omega) (by omega)
  have v_b : fld m0 6 6 = b := fld_at (0 + wd.toNat) (552960 + d.toNat * 64 + a.toNat) (by omega) (by omega)
  have v_wd : fld m0 0 2 = wd := fld_at (0) (566231040 + d.toNat * 65536 + a.toNat * 1024 + b.toNat * 16) (by omega) (by omega)
  simp only [decodeWord, decodeGroup8, decode87, f28_4, f24_4, f2_4, v_d, v_a, v_b, v_wd]
  all_goals rfl

theorem glq (q : BitVec 1) (wd : BitVec 2) (c : BitVec 4) (a : BitVec 6) (x : BitVec 1) : Statement (.glq q wd c a x) := by
  intro v0 h0
  replace h0 := Option.some.inj h0
  have b_q := q.isLt
  have b_wd := wd.isLt
  have b_c := c.isLt
  have b_a := a.isLt
  have b_x := x.isLt
  have w0 : v0.toNat = 2281701376 + q.toNat * 8388608 + wd.toNat * 2097152 + c.toNat * 131072 + a.toNat * 2048 + x.toNat * 1024 := word5 h0 pow23 pow21 pow17 pow11 pow10 (by omega)
  clear h0
  generalize v0.toNat = m0 at w0
  have f28_4 : field m0 28 4 = 8 := field_at (134217728 + q.toNat * 8388608 + wd.toNat * 2097152 + c.toNat * 131072 + a.toNat * 2048 + x.toNat * 1024) 8 (0) (by omega) (by omega) (by omega)
  have f24_4 : field m0 24 4 = 8 := field_at (0 + q.toNat * 8388608 + wd.toNat * 2097152 + c.toNat * 131072 + a.toNat * 2048 + x.toNat * 1024) 8 (8) (by omega) (by omega) (by omega)
  have f0_10 : field m0 0 10 = 0 := field_at (0) 0 (2228224 + q.toNat * 8192 + wd.toNat * 2048 + c.toNat * 128 + a.toNat * 2 + x.toNat) (by omega) (by omega) (by omega)
  have v_q : fld m0 23 1 = q := fld_at (0 + wd.toNat * 2097152 + c.toNat * 131072 + a.toNat * 2048 + x.toNat * 1024) (136) (by omega) (by omega)
  have v_wd : fld m0 21 2 = wd := fld_at (0 + c.toNat * 131072 + a.toNat * 2048 + x.toNat * 1024) (272 + q.toNat) (by omega) (by omega)
  have v_c : fld m0 17 4 = c := fld_at (0 + a.toNat * 2048 + x.toNat * 1024) (1088 + q.toNat * 4 + wd.toNat) (by omega) (by omega)
  have v_a : fld m0 11 6 = a := fld_at (0 + x.toNat * 1024) (17408 + q.toNat * 64 + wd.toNat * 16 + c.toNat) (by omega) (by omega)
  have v_x : fld m0 10 1 = x := fld_at (0) (1114112 + q.toNat * 4096 + wd.toNat * 1024 + c.toNat * 64 + a.toNat) (by omega) (by omega)
  simp only [decodeWord, decodeGroup8, decode88, f28_4, f24_4, f0_10, v_q, v_wd, v_c, v_a, v_x]
  all_goals rfl

theorem gsq (wd : BitVec 2) (c : BitVec 4) (a : BitVec 6) (d : BitVec 6) (x : BitVec 1) : Statement (.gsq wd c a d x) := by
  intro v0 h0
  replace h0 := Option.some.inj h0
  have b_wd := wd.isLt
  have b_c := c.isLt
  have b_a := a.isLt
  have b_d := d.isLt
  have b_x := x.isLt
  have w0 : v0.toNat = 2298478592 + wd.toNat * 4194304 + c.toNat * 262144 + a.toNat * 4096 + d.toNat * 64 + x.toNat * 32 := word5 h0 pow22 pow18 pow12 pow6 pow5 (by omega)
  clear h0
  generalize v0.toNat = m0 at w0
  have f28_4 : field m0 28 4 = 8 := field_at (150994944 + wd.toNat * 4194304 + c.toNat * 262144 + a.toNat * 4096 + d.toNat * 64 + x.toNat * 32) 8 (0) (by omega) (by omega) (by omega)
  have f24_4 : field m0 24 4 = 9 := field_at (0 + wd.toNat * 4194304 + c.toNat * 262144 + a.toNat * 4096 + d.toNat * 64 + x.toNat * 32) 9 (8) (by omega) (by omega) (by omega)
  have f0_5 : field m0 0 5 = 0 := field_at (0) 0 (71827456 + wd.toNat * 131072 + c.toNat * 8192 + a.toNat * 128 + d.toNat * 2 + x.toNat) (by omega) (by omega) (by omega)
  have v_wd : fld m0 22 2 = wd := fld_at (0 + c.toNat * 262144 + a.toNat * 4096 + d.toNat * 64 + x.toNat * 32) (137) (by omega) (by omega)
  have v_c : fld m0 18 4 = c := fld_at (0 + a.toNat * 4096 + d.toNat * 64 + x.toNat * 32) (548 + wd.toNat) (by omega) (by omega)
  have v_a : fld m0 12 6 = a := fld_at (0 + d.toNat * 64 + x.toNat * 32) (8768 + wd.toNat * 16 + c.toNat) (by omega) (by omega)
  have v_d : fld m0 6 6 = d := fld_at (0 + x.toNat * 32) (561152 + wd.toNat * 1024 + c.toNat * 64 + a.toNat) (by omega) (by omega)
  have v_x : fld m0 5 1 = x := fld_at (0) (35913728 + wd.toNat * 65536 + c.toNat * 4096 + a.toNat * 64 + d.toNat) (by omega) (by omega)
  simp only [decodeWord, decodeGroup8, decode89, f28_4, f24_4, f0_5, v_wd, v_c, v_a, v_d, v_x]
  all_goals rfl

theorem waitq (q : BitVec 1) (n : BitVec 5) : Statement (.waitq q n) := by
  intro v0 h0
  replace h0 := Option.some.inj h0
  have b_q := q.isLt
  have b_n := n.isLt
  have w0 : v0.toNat = 2315255808 + q.toNat * 8388608 + n.toNat * 262144 := word2 h0 pow23 pow18 (by omega)
  clear h0
  generalize v0.toNat = m0 at w0
  have f28_4 : field m0 28 4 = 8 := field_at (167772160 + q.toNat * 8388608 + n.toNat * 262144) 8 (0) (by omega) (by omega) (by omega)
  have f24_4 : field m0 24 4 = 10 := field_at (0 + q.toNat * 8388608 + n.toNat * 262144) 10 (8) (by omega) (by omega) (by omega)
  have f0_18 : field m0 0 18 = 0 := field_at (0) 0 (8832 + q.toNat * 32 + n.toNat) (by omega) (by omega) (by omega)
  have v_q : fld m0 23 1 = q := fld_at (0 + n.toNat * 262144) (138) (by omega) (by omega)
  have v_n : fld m0 18 5 = n := fld_at (0) (276 + q.toNat) (by omega) (by omega)
  simp only [decodeWord, decodeGroup8, decode8A, f28_4, f24_4, f0_18, v_q, v_n]
  all_goals rfl

theorem popq (q : BitVec 1) (wd : BitVec 2) (d : BitVec 6) : Statement (.popq q wd d) := by
  intro v0 h0
  replace h0 := Option.some.inj h0
  have b_q := q.isLt
  have b_wd := wd.isLt
  have b_d := d.isLt
  have w0 : v0.toNat = 2332033024 + q.toNat * 8388608 + wd.toNat * 2097152 + d.toNat * 32768 := word3 h0 pow23 pow21 pow15 (by omega)
  clear h0
  generalize v0.toNat = m0 at w0
  have f28_4 : field m0 28 4 = 8 := field_at (184549376 + q.toNat * 8388608 + wd.toNat * 2097152 + d.toNat * 32768) 8 (0) (by omega) (by omega) (by omega)
  have f24_4 : field m0 24 4 = 11 := field_at (0 + q.toNat * 8388608 + wd.toNat * 2097152 + d.toNat * 32768) 11 (8) (by omega) (by omega) (by omega)
  have f0_15 : field m0 0 15 = 0 := field_at (0) 0 (71168 + q.toNat * 256 + wd.toNat * 64 + d.toNat) (by omega) (by omega) (by omega)
  have v_q : fld m0 23 1 = q := fld_at (0 + wd.toNat * 2097152 + d.toNat * 32768) (139) (by omega) (by omega)
  have v_wd : fld m0 21 2 = wd := fld_at (0 + d.toNat * 32768) (278 + q.toNat) (by omega) (by omega)
  have v_d : fld m0 15 6 = d := fld_at (0) (1112 + q.toNat * 4 + wd.toNat) (by omega) (by omega)
  simp only [decodeWord, decodeGroup8, decode8B, f28_4, f24_4, f0_15, v_q, v_wd, v_d]
  all_goals rfl

theorem atom (op : BitVec 4) (wd : BitVec 1) (rq : BitVec 2) (sp : BitVec 5) (a : BitVec 6) (b : BitVec 6) : Statement (.atom op wd rq sp a b) := by
  intro v0 h0
  replace h0 := Option.some.inj h0
  have b_op := op.isLt
  have b_wd := wd.isLt
  have b_rq := rq.isLt
  have b_sp := sp.isLt
  have b_a := a.isLt
  have b_b := b.isLt
  have w0 : v0.toNat = 2348810240 + op.toNat * 1048576 + wd.toNat * 524288 + rq.toNat * 131072 + sp.toNat * 4096 + a.toNat * 64 + b.toNat * 1 := word6 h0 pow20 pow19 pow17 pow12 pow6 pow0 (by omega)
  clear h0
  generalize v0.toNat = m0 at w0
  have f28_4 : field m0 28 4 = 8 := field_at (201326592 + op.toNat * 1048576 + wd.toNat * 524288 + rq.toNat * 131072 + sp.toNat * 4096 + a.toNat * 64 + b.toNat) 8 (0) (by omega) (by omega) (by omega)
  have f24_4 : field m0 24 4 = 12 := field_at (0 + op.toNat * 1048576 + wd.toNat * 524288 + rq.toNat * 131072 + sp.toNat * 4096 + a.toNat * 64 + b.toNat) 12 (8) (by omega) (by omega) (by omega)
  have v_op : fld m0 20 4 = op := fld_at (0 + wd.toNat * 524288 + rq.toNat * 131072 + sp.toNat * 4096 + a.toNat * 64 + b.toNat) (140) (by omega) (by omega)
  have v_wd : fld m0 19 1 = wd := fld_at (0 + rq.toNat * 131072 + sp.toNat * 4096 + a.toNat * 64 + b.toNat) (2240 + op.toNat) (by omega) (by omega)
  have v_rq : fld m0 17 2 = rq := fld_at (0 + sp.toNat * 4096 + a.toNat * 64 + b.toNat) (4480 + op.toNat * 2 + wd.toNat) (by omega) (by omega)
  have v_sp : fld m0 12 5 = sp := fld_at (0 + a.toNat * 64 + b.toNat) (17920 + op.toNat * 8 + wd.toNat * 4 + rq.toNat) (by omega) (by omega)
  have v_a : fld m0 6 6 = a := fld_at (0 + b.toNat) (573440 + op.toNat * 256 + wd.toNat * 128 + rq.toNat * 32 + sp.toNat) (by omega) (by omega)
  have v_b : fld m0 0 6 = b := fld_at (0) (36700160 + op.toNat * 16384 + wd.toNat * 8192 + rq.toNat * 2048 + sp.toNat * 64 + a.toNat) (by omega) (by omega)
  simp only [decodeWord, decodeGroup8, decode8C, f28_4, f24_4, v_op, v_wd, v_rq, v_sp, v_a, v_b]
  all_goals rfl

theorem atomSc (op : BitVec 4) (wd : BitVec 1) (rq : BitVec 2) (dom : BitVec 1) (c : BitVec 4) (a : BitVec 6) (b : BitVec 6) : Statement (.atomSc op wd rq dom c a b) := by
  intro v0 h0
  replace h0 := Option.some.inj h0
  have b_op := op.isLt
  have b_wd := wd.isLt
  have b_rq := rq.isLt
  have b_dom := dom.isLt
  have b_c := c.isLt
  have b_a := a.isLt
  have b_b := b.isLt
  have w0 : v0.toNat = 2365587456 + op.toNat * 1048576 + wd.toNat * 524288 + rq.toNat * 131072 + dom.toNat * 65536 + c.toNat * 4096 + a.toNat * 64 + b.toNat * 1 := word7 h0 pow20 pow19 pow17 pow16 pow12 pow6 pow0 (by omega)
  clear h0
  generalize v0.toNat = m0 at w0
  have f28_4 : field m0 28 4 = 8 := field_at (218103808 + op.toNat * 1048576 + wd.toNat * 524288 + rq.toNat * 131072 + dom.toNat * 65536 + c.toNat * 4096 + a.toNat * 64 + b.toNat) 8 (0) (by omega) (by omega) (by omega)
  have f24_4 : field m0 24 4 = 13 := field_at (0 + op.toNat * 1048576 + wd.toNat * 524288 + rq.toNat * 131072 + dom.toNat * 65536 + c.toNat * 4096 + a.toNat * 64 + b.toNat) 13 (8) (by omega) (by omega) (by omega)
  have v_op : fld m0 20 4 = op := fld_at (0 + wd.toNat * 524288 + rq.toNat * 131072 + dom.toNat * 65536 + c.toNat * 4096 + a.toNat * 64 + b.toNat) (141) (by omega) (by omega)
  have v_wd : fld m0 19 1 = wd := fld_at (0 + rq.toNat * 131072 + dom.toNat * 65536 + c.toNat * 4096 + a.toNat * 64 + b.toNat) (2256 + op.toNat) (by omega) (by omega)
  have v_rq : fld m0 17 2 = rq := fld_at (0 + dom.toNat * 65536 + c.toNat * 4096 + a.toNat * 64 + b.toNat) (4512 + op.toNat * 2 + wd.toNat) (by omega) (by omega)
  have v_dom : fld m0 16 1 = dom := fld_at (0 + c.toNat * 4096 + a.toNat * 64 + b.toNat) (18048 + op.toNat * 8 + wd.toNat * 4 + rq.toNat) (by omega) (by omega)
  have v_c : fld m0 12 4 = c := fld_at (0 + a.toNat * 64 + b.toNat) (36096 + op.toNat * 16 + wd.toNat * 8 + rq.toNat * 2 + dom.toNat) (by omega) (by omega)
  have v_a : fld m0 6 6 = a := fld_at (0 + b.toNat) (577536 + op.toNat * 256 + wd.toNat * 128 + rq.toNat * 32 + dom.toNat * 16 + c.toNat) (by omega) (by omega)
  have v_b : fld m0 0 6 = b := fld_at (0) (36962304 + op.toNat * 16384 + wd.toNat * 8192 + rq.toNat * 2048 + dom.toNat * 1024 + c.toNat * 64 + a.toNat) (by omega) (by omega)
  simp only [decodeWord, decodeGroup8, decode8D, f28_4, f24_4, v_op, v_wd, v_rq, v_dom, v_c, v_a, v_b]
  all_goals rfl

theorem bind (c : BitVec 4) (o : BitVec 4) (a : BitVec 6) (unb : BitVec 1) : Statement (.bind c o a unb) := by
  intro v0 h0
  replace h0 := Option.some.inj h0
  have b_c := c.isLt
  have b_o := o.isLt
  have b_a := a.isLt
  have b_unb := unb.isLt
  have w0 : v0.toNat = 2382364672 + c.toNat * 1048576 + o.toNat * 65536 + a.toNat * 1024 + unb.toNat * 512 := word4 h0 pow20 pow16 pow10 pow9 (by omega)
  clear h0
  generalize v0.toNat = m0 at w0
  have f28_4 : field m0 28 4 = 8 := field_at (234881024 + c.toNat * 1048576 + o.toNat * 65536 + a.toNat * 1024 + unb.toNat * 512) 8 (0) (by omega) (by omega) (by omega)
  have f24_4 : field m0 24 4 = 14 := field_at (0 + c.toNat * 1048576 + o.toNat * 65536 + a.toNat * 1024 + unb.toNat * 512) 14 (8) (by omega) (by omega) (by omega)
  have f0_9 : field m0 0 9 = 0 := field_at (0) 0 (4653056 + c.toNat * 2048 + o.toNat * 128 + a.toNat * 2 + unb.toNat) (by omega) (by omega) (by omega)
  have v_c : fld m0 20 4 = c := fld_at (0 + o.toNat * 65536 + a.toNat * 1024 + unb.toNat * 512) (142) (by omega) (by omega)
  have v_o : fld m0 16 4 = o := fld_at (0 + a.toNat * 1024 + unb.toNat * 512) (2272 + c.toNat) (by omega) (by omega)
  have v_a : fld m0 10 6 = a := fld_at (0 + unb.toNat * 512) (36352 + c.toNat * 16 + o.toNat) (by omega) (by omega)
  have v_unb : fld m0 9 1 = unb := fld_at (0) (2326528 + c.toNat * 1024 + o.toNat * 64 + a.toNat) (by omega) (by omega)
  simp only [decodeWord, decodeGroup8, decode8E, f28_4, f24_4, f0_9, v_c, v_o, v_a, v_unb]
  all_goals rfl

theorem acq (d : BitVec 6) (o : BitVec 4) (a : BitVec 6) (scope : BitVec 3) : Statement (.acq d o a scope) := by
  intro v0 h0
  replace h0 := Option.some.inj h0
  have b_d := d.isLt
  have b_o := o.isLt
  have b_a := a.isLt
  have b_scope := scope.isLt
  have w0 : v0.toNat = 2399141888 + d.toNat * 262144 + o.toNat * 16384 + a.toNat * 256 + scope.toNat * 32 := word4 h0 pow18 pow14 pow8 pow5 (by omega)
  clear h0
  generalize v0.toNat = m0 at w0
  have f28_4 : field m0 28 4 = 8 := field_at (251658240 + d.toNat * 262144 + o.toNat * 16384 + a.toNat * 256 + scope.toNat * 32) 8 (0) (by omega) (by omega) (by omega)
  have f24_4 : field m0 24 4 = 15 := field_at (0 + d.toNat * 262144 + o.toNat * 16384 + a.toNat * 256 + scope.toNat * 32) 15 (8) (by omega) (by omega) (by omega)
  have f0_5 : field m0 0 5 = 0 := field_at (0) 0 (74973184 + d.toNat * 8192 + o.toNat * 512 + a.toNat * 8 + scope.toNat) (by omega) (by omega) (by omega)
  have v_d : fld m0 18 6 = d := fld_at (0 + o.toNat * 16384 + a.toNat * 256 + scope.toNat * 32) (143) (by omega) (by omega)
  have v_o : fld m0 14 4 = o := fld_at (0 + a.toNat * 256 + scope.toNat * 32) (9152 + d.toNat) (by omega) (by omega)
  have v_a : fld m0 8 6 = a := fld_at (0 + scope.toNat * 32) (146432 + d.toNat * 16 + o.toNat) (by omega) (by omega)
  have v_scope : fld m0 5 3 = scope := fld_at (0) (9371648 + d.toNat * 1024 + o.toNat * 64 + a.toNat) (by omega) (by omega)
  simp only [decodeWord, decodeGroup8, decode8F, f28_4, f24_4, f0_5, v_d, v_o, v_a, v_scope]
  all_goals rfl

theorem rel (o : BitVec 4) (a : BitVec 6) (scope : BitVec 3) : Statement (.rel o a scope) := by
  intro v0 h0
  replace h0 := Option.some.inj h0
  have b_o := o.isLt
  have b_a := a.isLt
  have b_scope := scope.isLt
  have w0 : v0.toNat = 2415919104 + o.toNat * 16384 + a.toNat * 256 + scope.toNat * 32 := word3 h0 pow14 pow8 pow5 (by omega)
  clear h0
  generalize v0.toNat = m0 at w0
  have f28_4 : field m0 28 4 = 9 := field_at (0 + o.toNat * 16384 + a.toNat * 256 + scope.toNat * 32) 9 (0) (by omega) (by omega) (by omega)
  have f24_4 : field m0 24 4 = 0 := field_at (0 + o.toNat * 16384 + a.toNat * 256 + scope.toNat * 32) 0 (9) (by omega) (by omega) (by omega)
  have f0_5 : field m0 0 5 = 0 := field_at (0) 0 (75497472 + o.toNat * 512 + a.toNat * 8 + scope.toNat) (by omega) (by omega) (by omega)
  have f18_6 : field m0 18 6 = 0 := field_at (0 + o.toNat * 16384 + a.toNat * 256 + scope.toNat * 32) 0 (144) (by omega) (by omega) (by omega)
  have v_o : fld m0 14 4 = o := fld_at (0 + a.toNat * 256 + scope.toNat * 32) (9216) (by omega) (by omega)
  have v_a : fld m0 8 6 = a := fld_at (0 + scope.toNat * 32) (147456 + o.toNat) (by omega) (by omega)
  have v_scope : fld m0 5 3 = scope := fld_at (0) (9437184 + o.toNat * 64 + a.toNat) (by omega) (by omega)
  simp only [decodeWord, decodeGroup9, decode90, f28_4, f24_4, f0_5, f18_6, v_o, v_a, v_scope]
  all_goals rfl

theorem fence (scope : BitVec 3) : Statement (.fence scope) := by
  intro v0 h0
  replace h0 := Option.some.inj h0
  have b_scope := scope.isLt
  have w0 : v0.toNat = 2432696320 + scope.toNat * 2097152 := word1 h0 pow21 (by omega)
  clear h0
  generalize v0.toNat = m0 at w0
  have f28_4 : field m0 28 4 = 9 := field_at (16777216 + scope.toNat * 2097152) 9 (0) (by omega) (by omega) (by omega)
  have f24_4 : field m0 24 4 = 1 := field_at (0 + scope.toNat * 2097152) 1 (9) (by omega) (by omega) (by omega)
  have f0_21 : field m0 0 21 = 0 := field_at (0) 0 (1160 + scope.toNat) (by omega) (by omega) (by omega)
  have v_scope : fld m0 21 3 = scope := fld_at (0) (145) (by omega) (by omega)
  simp only [decodeWord, decodeGroup9, decode91, f28_4, f24_4, f0_21, v_scope]
  all_goals rfl

theorem fenceX (scope : BitVec 3) (src : BitVec 5) (dst : BitVec 5) : Statement (.fenceX scope src dst) := by
  intro v0 h0
  replace h0 := Option.some.inj h0
  have b_scope := scope.isLt
  have b_src := src.isLt
  have b_dst := dst.isLt
  have w0 : v0.toNat = 2449473536 + scope.toNat * 2097152 + src.toNat * 65536 + dst.toNat * 2048 := word3 h0 pow21 pow16 pow11 (by omega)
  clear h0
  generalize v0.toNat = m0 at w0
  have f28_4 : field m0 28 4 = 9 := field_at (33554432 + scope.toNat * 2097152 + src.toNat * 65536 + dst.toNat * 2048) 9 (0) (by omega) (by omega) (by omega)
  have f24_4 : field m0 24 4 = 2 := field_at (0 + scope.toNat * 2097152 + src.toNat * 65536 + dst.toNat * 2048) 2 (9) (by omega) (by omega) (by omega)
  have f0_11 : field m0 0 11 = 0 := field_at (0) 0 (1196032 + scope.toNat * 1024 + src.toNat * 32 + dst.toNat) (by omega) (by omega) (by omega)
  have v_scope : fld m0 21 3 = scope := fld_at (0 + src.toNat * 65536 + dst.toNat * 2048) (146) (by omega) (by omega)
  have v_src : fld m0 16 5 = src := fld_at (0 + dst.toNat * 2048) (1168 + scope.toNat) (by omega) (by omega)
  have v_dst : fld m0 11 5 = dst := fld_at (0) (37376 + scope.toNat * 32 + src.toNat) (by omega) (by omega)
  simp only [decodeWord, decodeGroup9, decode92, f28_4, f24_4, f0_11, v_scope, v_src, v_dst]
  all_goals rfl

theorem mpost (d : BitVec 6) : Statement (.mpost d) := by
  intro v0 h0
  replace h0 := Option.some.inj h0
  have b_d := d.isLt
  have w0 : v0.toNat = 2466250752 + d.toNat * 262144 := word1 h0 pow18 (by omega)
  clear h0
  generalize v0.toNat = m0 at w0
  have f28_4 : field m0 28 4 = 9 := field_at (50331648 + d.toNat * 262144) 9 (0) (by omega) (by omega) (by omega)
  have f24_4 : field m0 24 4 = 3 := field_at (0 + d.toNat * 262144) 3 (9) (by omega) (by omega) (by omega)
  have f0_18 : field m0 0 18 = 0 := field_at (0) 0 (9408 + d.toNat) (by omega) (by omega) (by omega)
  have v_d : fld m0 18 6 = d := fld_at (0) (147) (by omega) (by omega)
  simp only [decodeWord, decodeGroup9, decode93, f28_4, f24_4, f0_18, v_d]
  all_goals rfl

theorem cmov (d : BitVec 4) (a : BitVec 4) : Statement (.cmov d a) := by
  intro v0 h0
  replace h0 := Option.some.inj h0
  have b_d := d.isLt
  have b_a := a.isLt
  have w0 : v0.toNat = 2684354560 + d.toNat * 1048576 + a.toNat * 65536 := word2 h0 pow20 pow16 (by omega)
  clear h0
  generalize v0.toNat = m0 at w0
  have f28_4 : field m0 28 4 = 10 := field_at (0 + d.toNat * 1048576 + a.toNat * 65536) 10 (0) (by omega) (by omega) (by omega)
  have f24_4 : field m0 24 4 = 0 := field_at (0 + d.toNat * 1048576 + a.toNat * 65536) 0 (10) (by omega) (by omega) (by omega)
  have f0_16 : field m0 0 16 = 0 := field_at (0) 0 (40960 + d.toNat * 16 + a.toNat) (by omega) (by omega) (by omega)
  have v_d : fld m0 20 4 = d := fld_at (0 + a.toNat * 65536) (160) (by omega) (by omega)
  have v_a : fld m0 16 4 = a := fld_at (0) (2560 + d.toNat) (by omega) (by omega)
  simp only [decodeWord, decodeGroupA, decodeA0, f28_4, f24_4, f0_16, v_d, v_a]
  all_goals rfl

theorem csetb (d : BitVec 4) (a : BitVec 4) (off : BitVec 6) (len : BitVec 6) : Statement (.csetb d a off len) := by
  intro v0 h0
  replace h0 := Option.some.inj h0
  have b_d := d.isLt
  have b_a := a.isLt
  have b_off := off.isLt
  have b_len := len.isLt
  have w0 : v0.toNat = 2701131776 + d.toNat * 1048576 + a.toNat * 65536 + off.toNat * 1024 + len.toNat * 16 := word4 h0 pow20 pow16 pow10 pow4 (by omega)
  clear h0
  generalize v0.toNat = m0 at w0
  have f28_4 : field m0 28 4 = 10 := field_at (16777216 + d.toNat * 1048576 + a.toNat * 65536 + off.toNat * 1024 + len.toNat * 16) 10 (0) (by omega) (by omega) (by omega)
  have f24_4 : field m0 24 4 = 1 := field_at (0 + d.toNat * 1048576 + a.toNat * 65536 + off.toNat * 1024 + len.toNat * 16) 1 (10) (by omega) (by omega) (by omega)
  have f0_4 : field m0 0 4 = 0 := field_at (0) 0 (168820736 + d.toNat * 65536 + a.toNat * 4096 + off.toNat * 64 + len.toNat) (by omega) (by omega) (by omega)
  have v_d : fld m0 20 4 = d := fld_at (0 + a.toNat * 65536 + off.toNat * 1024 + len.toNat * 16) (161) (by omega) (by omega)
  have v_a : fld m0 16 4 = a := fld_at (0 + off.toNat * 1024 + len.toNat * 16) (2576 + d.toNat) (by omega) (by omega)
  have v_off : fld m0 10 6 = off := fld_at (0 + len.toNat * 16) (41216 + d.toNat * 16 + a.toNat) (by omega) (by omega)
  have v_len : fld m0 4 6 = len := fld_at (0) (2637824 + d.toNat * 1024 + a.toNat * 64 + off.toNat) (by omega) (by omega)
  simp only [decodeWord, decodeGroupA, decodeA1, f28_4, f24_4, f0_4, v_d, v_a, v_off, v_len]
  all_goals rfl

theorem candp (d : BitVec 4) (a : BitVec 4) (perm : BitVec 5) : Statement (.candp d a perm) := by
  intro v0 h0
  replace h0 := Option.some.inj h0
  have b_d := d.isLt
  have b_a := a.isLt
  have b_perm := perm.isLt
  have w0 : v0.toNat = 2717908992 + d.toNat * 1048576 + a.toNat * 65536 + perm.toNat * 2048 := word3 h0 pow20 pow16 pow11 (by omega)
  clear h0
  generalize v0.toNat = m0 at w0
  have f28_4 : field m0 28 4 = 10 := field_at (33554432 + d.toNat * 1048576 + a.toNat * 65536 + perm.toNat * 2048) 10 (0) (by omega) (by omega) (by omega)
  have f24_4 : field m0 24 4 = 2 := field_at (0 + d.toNat * 1048576 + a.toNat * 65536 + perm.toNat * 2048) 2 (10) (by omega) (by omega) (by omega)
  have f0_11 : field m0 0 11 = 0 := field_at (0) 0 (1327104 + d.toNat * 512 + a.toNat * 32 + perm.toNat) (by omega) (by omega) (by omega)
  have v_d : fld m0 20 4 = d := fld_at (0 + a.toNat * 65536 + perm.toNat * 2048) (162) (by omega) (by omega)
  have v_a : fld m0 16 4 = a := fld_at (0 + perm.toNat * 2048) (2592 + d.toNat) (by omega) (by omega)
  have v_perm : fld m0 11 5 = perm := fld_at (0) (41472 + d.toNat * 16 + a.toNat) (by omega) (by omega)
  simp only [decodeWord, decodeGroupA, decodeA2, f28_4, f24_4, f0_11, v_d, v_a, v_perm]
  all_goals rfl

theorem cseal (d : BitVec 4) (a : BitVec 4) (k : BitVec 4) : Statement (.cseal d a k) := by
  intro v0 h0
  replace h0 := Option.some.inj h0
  have b_d := d.isLt
  have b_a := a.isLt
  have b_k := k.isLt
  have w0 : v0.toNat = 2734686208 + d.toNat * 1048576 + a.toNat * 65536 + k.toNat * 4096 := word3 h0 pow20 pow16 pow12 (by omega)
  clear h0
  generalize v0.toNat = m0 at w0
  have f28_4 : field m0 28 4 = 10 := field_at (50331648 + d.toNat * 1048576 + a.toNat * 65536 + k.toNat * 4096) 10 (0) (by omega) (by omega) (by omega)
  have f24_4 : field m0 24 4 = 3 := field_at (0 + d.toNat * 1048576 + a.toNat * 65536 + k.toNat * 4096) 3 (10) (by omega) (by omega) (by omega)
  have f0_12 : field m0 0 12 = 0 := field_at (0) 0 (667648 + d.toNat * 256 + a.toNat * 16 + k.toNat) (by omega) (by omega) (by omega)
  have v_d : fld m0 20 4 = d := fld_at (0 + a.toNat * 65536 + k.toNat * 4096) (163) (by omega) (by omega)
  have v_a : fld m0 16 4 = a := fld_at (0 + k.toNat * 4096) (2608 + d.toNat) (by omega) (by omega)
  have v_k : fld m0 12 4 = k := fld_at (0) (41728 + d.toNat * 16 + a.toNat) (by omega) (by omega)
  simp only [decodeWord, decodeGroupA, decodeA3, f28_4, f24_4, f0_12, v_d, v_a, v_k]
  all_goals rfl

theorem cunseal (d : BitVec 4) (a : BitVec 4) (k : BitVec 4) : Statement (.cunseal d a k) := by
  intro v0 h0
  replace h0 := Option.some.inj h0
  have b_d := d.isLt
  have b_a := a.isLt
  have b_k := k.isLt
  have w0 : v0.toNat = 2751463424 + d.toNat * 1048576 + a.toNat * 65536 + k.toNat * 4096 := word3 h0 pow20 pow16 pow12 (by omega)
  clear h0
  generalize v0.toNat = m0 at w0
  have f28_4 : field m0 28 4 = 10 := field_at (67108864 + d.toNat * 1048576 + a.toNat * 65536 + k.toNat * 4096) 10 (0) (by omega) (by omega) (by omega)
  have f24_4 : field m0 24 4 = 4 := field_at (0 + d.toNat * 1048576 + a.toNat * 65536 + k.toNat * 4096) 4 (10) (by omega) (by omega) (by omega)
  have f0_12 : field m0 0 12 = 0 := field_at (0) 0 (671744 + d.toNat * 256 + a.toNat * 16 + k.toNat) (by omega) (by omega) (by omega)
  have v_d : fld m0 20 4 = d := fld_at (0 + a.toNat * 65536 + k.toNat * 4096) (164) (by omega) (by omega)
  have v_a : fld m0 16 4 = a := fld_at (0 + k.toNat * 4096) (2624 + d.toNat) (by omega) (by omega)
  have v_k : fld m0 12 4 = k := fld_at (0) (41984 + d.toNat * 16 + a.toNat) (by omega) (by omega)
  simp only [decodeWord, decodeGroupA, decodeA4, f28_4, f24_4, f0_12, v_d, v_a, v_k]
  all_goals rfl

theorem cget (d : BitVec 6) (a : BitVec 4) (f : BitVec 3) : Statement (.cget d a f) := by
  intro v0 h0
  replace h0 := Option.some.inj h0
  have b_d := d.isLt
  have b_a := a.isLt
  have b_f := f.isLt
  have w0 : v0.toNat = 2768240640 + d.toNat * 262144 + a.toNat * 16384 + f.toNat * 2048 := word3 h0 pow18 pow14 pow11 (by omega)
  clear h0
  generalize v0.toNat = m0 at w0
  have f28_4 : field m0 28 4 = 10 := field_at (83886080 + d.toNat * 262144 + a.toNat * 16384 + f.toNat * 2048) 10 (0) (by omega) (by omega) (by omega)
  have f24_4 : field m0 24 4 = 5 := field_at (0 + d.toNat * 262144 + a.toNat * 16384 + f.toNat * 2048) 5 (10) (by omega) (by omega) (by omega)
  have f0_11 : field m0 0 11 = 0 := field_at (0) 0 (1351680 + d.toNat * 128 + a.toNat * 8 + f.toNat) (by omega) (by omega) (by omega)
  have v_d : fld m0 18 6 = d := fld_at (0 + a.toNat * 16384 + f.toNat * 2048) (165) (by omega) (by omega)
  have v_a : fld m0 14 4 = a := fld_at (0 + f.toNat * 2048) (10560 + d.toNat) (by omega) (by omega)
  have v_f : fld m0 11 3 = f := fld_at (0) (168960 + d.toNat * 16 + a.toNat) (by omega) (by omega)
  simp only [decodeWord, decodeGroupA, decodeA5, f28_4, f24_4, f0_11, v_d, v_a, v_f]
  all_goals rfl

theorem cldc (d : BitVec 4) (c : BitVec 4) (a : BitVec 6) : Statement (.cldc d c a) := by
  intro v0 h0
  replace h0 := Option.some.inj h0
  have b_d := d.isLt
  have b_c := c.isLt
  have b_a := a.isLt
  have w0 : v0.toNat = 2785017856 + d.toNat * 1048576 + c.toNat * 65536 + a.toNat * 1024 := word3 h0 pow20 pow16 pow10 (by omega)
  clear h0
  generalize v0.toNat = m0 at w0
  have f28_4 : field m0 28 4 = 10 := field_at (100663296 + d.toNat * 1048576 + c.toNat * 65536 + a.toNat * 1024) 10 (0) (by omega) (by omega) (by omega)
  have f24_4 : field m0 24 4 = 6 := field_at (0 + d.toNat * 1048576 + c.toNat * 65536 + a.toNat * 1024) 6 (10) (by omega) (by omega) (by omega)
  have f0_10 : field m0 0 10 = 0 := field_at (0) 0 (2719744 + d.toNat * 1024 + c.toNat * 64 + a.toNat) (by omega) (by omega) (by omega)
  have v_d : fld m0 20 4 = d := fld_at (0 + c.toNat * 65536 + a.toNat * 1024) (166) (by omega) (by omega)
  have v_c : fld m0 16 4 = c := fld_at (0 + a.toNat * 1024) (2656 + d.toNat) (by omega) (by omega)
  have v_a : fld m0 10 6 = a := fld_at (0) (42496 + d.toNat * 16 + c.toNat) (by omega) (by omega)
  simp only [decodeWord, decodeGroupA, decodeA6, f28_4, f24_4, f0_10, v_d, v_c, v_a]
  all_goals rfl

theorem cstc (d : BitVec 4) (c : BitVec 4) (a : BitVec 6) : Statement (.cstc d c a) := by
  intro v0 h0
  replace h0 := Option.some.inj h0
  have b_d := d.isLt
  have b_c := c.isLt
  have b_a := a.isLt
  have w0 : v0.toNat = 2801795072 + d.toNat * 1048576 + c.toNat * 65536 + a.toNat * 1024 := word3 h0 pow20 pow16 pow10 (by omega)
  clear h0
  generalize v0.toNat = m0 at w0
  have f28_4 : field m0 28 4 = 10 := field_at (117440512 + d.toNat * 1048576 + c.toNat * 65536 + a.toNat * 1024) 10 (0) (by omega) (by omega) (by omega)
  have f24_4 : field m0 24 4 = 7 := field_at (0 + d.toNat * 1048576 + c.toNat * 65536 + a.toNat * 1024) 7 (10) (by omega) (by omega) (by omega)
  have f0_10 : field m0 0 10 = 0 := field_at (0) 0 (2736128 + d.toNat * 1024 + c.toNat * 64 + a.toNat) (by omega) (by omega) (by omega)
  have v_d : fld m0 20 4 = d := fld_at (0 + c.toNat * 65536 + a.toNat * 1024) (167) (by omega) (by omega)
  have v_c : fld m0 16 4 = c := fld_at (0 + a.toNat * 1024) (2672 + d.toNat) (by omega) (by omega)
  have v_a : fld m0 10 6 = a := fld_at (0) (42752 + d.toNat * 16 + c.toNat) (by omega) (by omega)
  simp only [decodeWord, decodeGroupA, decodeA7, f28_4, f24_4, f0_10, v_d, v_c, v_a]
  all_goals rfl

theorem kgw (pc : BitVec 2) (qc : BitVec 2) (g : BitVec 5) (sa : BitVec 1) (sb : BitVec 1) (stride : BitVec 7) : Statement (.kgw pc qc g sa sb stride) := by
  intro v0 h0
  replace h0 := Option.some.inj h0
  have b_pc := pc.isLt
  have b_qc := qc.isLt
  have b_g := g.isLt
  have b_sa := sa.isLt
  have b_sb := sb.isLt
  have b_stride := stride.isLt
  have w0 : v0.toNat = 2952790016 + pc.toNat * 2097152 + qc.toNat * 524288 + g.toNat * 16384 + sa.toNat * 8192 + sb.toNat * 4096 + stride.toNat * 32 := word6 h0 pow21 pow19 pow14 pow13 pow12 pow5 (by omega)
  clear h0
  generalize v0.toNat = m0 at w0
  have f28_4 : field m0 28 4 = 11 := field_at (0 + pc.toNat * 2097152 + qc.toNat * 524288 + g.toNat * 16384 + sa.toNat * 8192 + sb.toNat * 4096 + stride.toNat * 32) 11 (0) (by omega) (by omega) (by omega)
  have f24_4 : field m0 24 4 = 0 := field_at (0 + pc.toNat * 2097152 + qc.toNat * 524288 + g.toNat * 16384 + sa.toNat * 8192 + sb.toNat * 4096 + stride.toNat * 32) 0 (11) (by omega) (by omega) (by omega)
  have f0_5 : field m0 0 5 = 0 := field_at (0) 0 (92274688 + pc.toNat * 65536 + qc.toNat * 16384 + g.toNat * 512 + sa.toNat * 256 + sb.toNat * 128 + stride.toNat) (by omega) (by omega) (by omega)
  have f23_1 : field m0 23 1 = 0 := field_at (0 + pc.toNat * 2097152 + qc.toNat * 524288 + g.toNat * 16384 + sa.toNat * 8192 + sb.toNat * 4096 + stride.toNat * 32) 0 (176) (by omega) (by omega) (by omega)
  have v_pc : fld m0 21 2 = pc := fld_at (0 + qc.toNat * 524288 + g.toNat * 16384 + sa.toNat * 8192 + sb.toNat * 4096 + stride.toNat * 32) (352) (by omega) (by omega)
  have v_qc : fld m0 19 2 = qc := fld_at (0 + g.toNat * 16384 + sa.toNat * 8192 + sb.toNat * 4096 + stride.toNat * 32) (1408 + pc.toNat) (by omega) (by omega)
  have v_g : fld m0 14 5 = g := fld_at (0 + sa.toNat * 8192 + sb.toNat * 4096 + stride.toNat * 32) (5632 + pc.toNat * 4 + qc.toNat) (by omega) (by omega)
  have v_sa : fld m0 13 1 = sa := fld_at (0 + sb.toNat * 4096 + stride.toNat * 32) (180224 + pc.toNat * 128 + qc.toNat * 32 + g.toNat) (by omega) (by omega)
  have v_sb : fld m0 12 1 = sb := fld_at (0 + stride.toNat * 32) (360448 + pc.toNat * 256 + qc.toNat * 64 + g.toNat * 2 + sa.toNat) (by omega) (by omega)
  have v_stride : fld m0 5 7 = stride := fld_at (0) (720896 + pc.toNat * 512 + qc.toNat * 128 + g.toNat * 4 + sa.toNat * 2 + sb.toNat) (by omega) (by omega)
  simp only [decodeWord, decodeGroupB, decodeB0, f28_4, f24_4, f0_5, f23_1, v_pc, v_qc, v_g, v_sa, v_sb, v_stride]
  all_goals rfl

theorem kgwRd (sel : BitVec 3) (d : BitVec 6) : Statement (.kgwRd sel d) := by
  intro v0 h0
  replace h0 := Option.some.inj h0
  have b_sel := sel.isLt
  have b_d := d.isLt
  have w0 : v0.toNat = 2961178624 + sel.toNat * 1048576 + d.toNat * 16384 := word2 h0 pow20 pow14 (by omega)
  clear h0
  generalize v0.toNat = m0 at w0
  have f28_4 : field m0 28 4 = 11 := field_at (8388608 + sel.toNat * 1048576 + d.toNat * 16384) 11 (0) (by omega) (by omega) (by omega)
  have f24_4 : field m0 24 4 = 0 := field_at (8388608 + sel.toNat * 1048576 + d.toNat * 16384) 0 (11) (by omega) (by omega) (by omega)
  have f0_14 : field m0 0 14 = 0 := field_at (0) 0 (180736 + sel.toNat * 64 + d.toNat) (by omega) (by omega) (by omega)
  have f0_5 : field m0 0 5 = 0 := field_at (0) 0 (92536832 + sel.toNat * 32768 + d.toNat * 512) (by omega) (by omega) (by omega)
  have f23_1 : field m0 23 1 = 1 := field_at (0 + sel.toNat * 1048576 + d.toNat * 16384) 1 (176) (by omega) (by omega) (by omega)
  have v_sel : fld m0 20 3 = sel := fld_at (0 + d.toNat * 16384) (353) (by omega) (by omega)
  have v_d : fld m0 14 6 = d := fld_at (0) (2824 + sel.toNat) (by omega) (by omega)
  simp only [decodeWord, decodeGroupB, decodeB0, f28_4, f24_4, f0_14, f0_5, f23_1, v_sel, v_d]
  all_goals rfl

theorem kpack (k : BitVec 3) (a : BitVec 6) (mode : BitVec 2) (role : BitVec 1) (acc : BitVec 1) (base : BitVec 7) : Statement (.kpack k a mode role acc base) := by
  intro v0 h0
  replace h0 := Option.some.inj h0
  have b_k := k.isLt
  have b_a := a.isLt
  have b_mode := mode.isLt
  have b_role := role.isLt
  have b_acc := acc.isLt
  have b_base := base.isLt
  have w0 : v0.toNat = 2969567232 + k.toNat * 2097152 + a.toNat * 32768 + mode.toNat * 8192 + role.toNat * 4096 + acc.toNat * 2048 + base.toNat * 16 := word6 h0 pow21 pow15 pow13 pow12 pow11 pow4 (by omega)
  clear h0
  generalize v0.toNat = m0 at w0
  have f28_4 : field m0 28 4 = 11 := field_at (16777216 + k.toNat * 2097152 + a.toNat * 32768 + mode.toNat * 8192 + role.toNat * 4096 + acc.toNat * 2048 + base.toNat * 16) 11 (0) (by omega) (by omega) (by omega)
  have f24_4 : field m0 24 4 = 1 := field_at (0 + k.toNat * 2097152 + a.toNat * 32768 + mode.toNat * 8192 + role.toNat * 4096 + acc.toNat * 2048 + base.toNat * 16) 1 (11) (by omega) (by omega) (by omega)
  have f0_4 : field m0 0 4 = 0 := field_at (0) 0 (185597952 + k.toNat * 131072 + a.toNat * 2048 + mode.toNat * 512 + role.toNat * 256 + acc.toNat * 128 + base.toNat) (by omega) (by omega) (by omega)
  have v_k : fld m0 21 3 = k := fld_at (0 + a.toNat * 32768 + mode.toNat * 8192 + role.toNat * 4096 + acc.toNat * 2048 + base.toNat * 16) (177) (by omega) (by omega)
  have v_a : fld m0 15 6 = a := fld_at (0 + mode.toNat * 8192 + role.toNat * 4096 + acc.toNat * 2048 + base.toNat * 16) (1416 + k.toNat) (by omega) (by omega)
  have v_mode : fld m0 13 2 = mode := fld_at (0 + role.toNat * 4096 + acc.toNat * 2048 + base.toNat * 16) (90624 + k.toNat * 64 + a.toNat) (by omega) (by omega)
  have v_role : fld m0 12 1 = role := fld_at (0 + acc.toNat * 2048 + base.toNat * 16) (362496 + k.toNat * 256 + a.toNat * 4 + mode.toNat) (by omega) (by omega)
  have v_acc : fld m0 11 1 = acc := fld_at (0 + base.toNat * 16) (724992 + k.toNat * 512 + a.toNat * 8 + mode.toNat * 2 + role.toNat) (by omega) (by omega)
  have v_base : fld m0 4 7 = base := fld_at (0) (1449984 + k.toNat * 1024 + a.toNat * 16 + mode.toNat * 4 + role.toNat * 2 + acc.toNat) (by omega) (by omega)
  simp only [decodeWord, decodeGroupB, decodeB1, f28_4, f24_4, f0_4, v_k, v_a, v_mode, v_role, v_acc, v_base]
  all_goals rfl

theorem kext (d : BitVec 6) (k : BitVec 3) (pr : BitVec 1) (mode : BitVec 2) (sel : BitVec 2) (base : BitVec 8) : Statement (.kext d k pr mode sel base) := by
  intro v0 h0
  replace h0 := Option.some.inj h0
  have b_d := d.isLt
  have b_k := k.isLt
  have b_pr := pr.isLt
  have b_mode := mode.isLt
  have b_sel := sel.isLt
  have b_base := base.isLt
  have w0 : v0.toNat = 2986344448 + d.toNat * 262144 + k.toNat * 32768 + pr.toNat * 16384 + mode.toNat * 4096 + sel.toNat * 1024 + base.toNat * 4 := word6 h0 pow18 pow15 pow14 pow12 pow10 pow2 (by omega)
  clear h0
  generalize v0.toNat = m0 at w0
  have f28_4 : field m0 28 4 = 11 := field_at (33554432 + d.toNat * 262144 + k.toNat * 32768 + pr.toNat * 16384 + mode.toNat * 4096 + sel.toNat * 1024 + base.toNat * 4) 11 (0) (by omega) (by omega) (by omega)
  have f24_4 : field m0 24 4 = 2 := field_at (0 + d.toNat * 262144 + k.toNat * 32768 + pr.toNat * 16384 + mode.toNat * 4096 + sel.toNat * 1024 + base.toNat * 4) 2 (11) (by omega) (by omega) (by omega)
  have f0_2 : field m0 0 2 = 0 := field_at (0) 0 (746586112 + d.toNat * 65536 + k.toNat * 8192 + pr.toNat * 4096 + mode.toNat * 1024 + sel.toNat * 256 + base.toNat) (by omega) (by omega) (by omega)
  have v_d : fld m0 18 6 = d := fld_at (0 + k.toNat * 32768 + pr.toNat * 16384 + mode.toNat * 4096 + sel.toNat * 1024 + base.toNat * 4) (178) (by omega) (by omega)
  have v_k : fld m0 15 3 = k := fld_at (0 + pr.toNat * 16384 + mode.toNat * 4096 + sel.toNat * 1024 + base.toNat * 4) (11392 + d.toNat) (by omega) (by omega)
  have v_pr : fld m0 14 1 = pr := fld_at (0 + mode.toNat * 4096 + sel.toNat * 1024 + base.toNat * 4) (91136 + d.toNat * 8 + k.toNat) (by omega) (by omega)
  have v_mode : fld m0 12 2 = mode := fld_at (0 + sel.toNat * 1024 + base.toNat * 4) (182272 + d.toNat * 16 + k.toNat * 2 + pr.toNat) (by omega) (by omega)
  have v_sel : fld m0 10 2 = sel := fld_at (0 + base.toNat * 4) (729088 + d.toNat * 64 + k.toNat * 8 + pr.toNat * 4 + mode.toNat) (by omega) (by omega)
  have v_base : fld m0 2 8 = base := fld_at (0) (2916352 + d.toNat * 256 + k.toNat * 32 + pr.toNat * 16 + mode.toNat * 4 + sel.toNat) (by omega) (by omega)
  simp only [decodeWord, decodeGroupB, decodeB2, f28_4, f24_4, f0_2, v_d, v_k, v_pr, v_mode, v_sel, v_base]
  all_goals rfl

theorem kmul (d : BitVec 3) (a : BitVec 3) (b : BitVec 3) : Statement (.kmul d a b) := by
  intro v0 h0
  replace h0 := Option.some.inj h0
  have b_d := d.isLt
  have b_a := a.isLt
  have b_b := b.isLt
  have w0 : v0.toNat = 3003121664 + d.toNat * 2097152 + a.toNat * 262144 + b.toNat * 32768 := word3 h0 pow21 pow18 pow15 (by omega)
  clear h0
  generalize v0.toNat = m0 at w0
  have f28_4 : field m0 28 4 = 11 := field_at (50331648 + d.toNat * 2097152 + a.toNat * 262144 + b.toNat * 32768) 11 (0) (by omega) (by omega) (by omega)
  have f24_4 : field m0 24 4 = 3 := field_at (0 + d.toNat * 2097152 + a.toNat * 262144 + b.toNat * 32768) 3 (11) (by omega) (by omega) (by omega)
  have f0_15 : field m0 0 15 = 0 := field_at (0) 0 (91648 + d.toNat * 64 + a.toNat * 8 + b.toNat) (by omega) (by omega) (by omega)
  have v_d : fld m0 21 3 = d := fld_at (0 + a.toNat * 262144 + b.toNat * 32768) (179) (by omega) (by omega)
  have v_a : fld m0 18 3 = a := fld_at (0 + b.toNat * 32768) (1432 + d.toNat) (by omega) (by omega)
  have v_b : fld m0 15 3 = b := fld_at (0) (11456 + d.toNat * 8 + a.toNat) (by omega) (by omega)
  simp only [decodeWord, decodeGroupB, decodeB3, f28_4, f24_4, f0_15, v_d, v_a, v_b]
  all_goals rfl

theorem kmac (d : BitVec 3) (a : BitVec 3) (b : BitVec 3) : Statement (.kmac d a b) := by
  intro v0 h0
  replace h0 := Option.some.inj h0
  have b_d := d.isLt
  have b_a := a.isLt
  have b_b := b.isLt
  have w0 : v0.toNat = 3019898880 + d.toNat * 2097152 + a.toNat * 262144 + b.toNat * 32768 := word3 h0 pow21 pow18 pow15 (by omega)
  clear h0
  generalize v0.toNat = m0 at w0
  have f28_4 : field m0 28 4 = 11 := field_at (67108864 + d.toNat * 2097152 + a.toNat * 262144 + b.toNat * 32768) 11 (0) (by omega) (by omega) (by omega)
  have f24_4 : field m0 24 4 = 4 := field_at (0 + d.toNat * 2097152 + a.toNat * 262144 + b.toNat * 32768) 4 (11) (by omega) (by omega) (by omega)
  have f0_15 : field m0 0 15 = 0 := field_at (0) 0 (92160 + d.toNat * 64 + a.toNat * 8 + b.toNat) (by omega) (by omega) (by omega)
  have v_d : fld m0 21 3 = d := fld_at (0 + a.toNat * 262144 + b.toNat * 32768) (180) (by omega) (by omega)
  have v_a : fld m0 18 3 = a := fld_at (0 + b.toNat * 32768) (1440 + d.toNat) (by omega) (by omega)
  have v_b : fld m0 15 3 = b := fld_at (0) (11520 + d.toNat * 8 + a.toNat) (by omega) (by omega)
  simp only [decodeWord, decodeGroupB, decodeB4, f28_4, f24_4, f0_15, v_d, v_a, v_b]
  all_goals rfl

theorem kadd (d : BitVec 3) (a : BitVec 3) (b : BitVec 3) (pr : BitVec 1) (sel : BitVec 2) : Statement (.kadd d a b pr sel) := by
  intro v0 h0
  replace h0 := Option.some.inj h0
  have b_d := d.isLt
  have b_a := a.isLt
  have b_b := b.isLt
  have b_pr := pr.isLt
  have b_sel := sel.isLt
  have w0 : v0.toNat = 3036676096 + d.toNat * 2097152 + a.toNat * 262144 + b.toNat * 32768 + pr.toNat * 16384 + sel.toNat * 4096 := word5 h0 pow21 pow18 pow15 pow14 pow12 (by omega)
  clear h0
  generalize v0.toNat = m0 at w0
  have f28_4 : field m0 28 4 = 11 := field_at (83886080 + d.toNat * 2097152 + a.toNat * 262144 + b.toNat * 32768 + pr.toNat * 16384 + sel.toNat * 4096) 11 (0) (by omega) (by omega) (by omega)
  have f24_4 : field m0 24 4 = 5 := field_at (0 + d.toNat * 2097152 + a.toNat * 262144 + b.toNat * 32768 + pr.toNat * 16384 + sel.toNat * 4096) 5 (11) (by omega) (by omega) (by omega)
  have f0_12 : field m0 0 12 = 0 := field_at (0) 0 (741376 + d.toNat * 512 + a.toNat * 64 + b.toNat * 8 + pr.toNat * 4 + sel.toNat) (by omega) (by omega) (by omega)
  have v_d : fld m0 21 3 = d := fld_at (0 + a.toNat * 262144 + b.toNat * 32768 + pr.toNat * 16384 + sel.toNat * 4096) (181) (by omega) (by omega)
  have v_a : fld m0 18 3 = a := fld_at (0 + b.toNat * 32768 + pr.toNat * 16384 + sel.toNat * 4096) (1448 + d.toNat) (by omega) (by omega)
  have v_b : fld m0 15 3 = b := fld_at (0 + pr.toNat * 16384 + sel.toNat * 4096) (11584 + d.toNat * 8 + a.toNat) (by omega) (by omega)
  have v_pr : fld m0 14 1 = pr := fld_at (0 + sel.toNat * 4096) (92672 + d.toNat * 64 + a.toNat * 8 + b.toNat) (by omega) (by omega)
  have v_sel : fld m0 12 2 = sel := fld_at (0) (185344 + d.toNat * 128 + a.toNat * 16 + b.toNat * 2 + pr.toNat) (by omega) (by omega)
  simp only [decodeWord, decodeGroupB, decodeB5, f28_4, f24_4, f0_12, v_d, v_a, v_b, v_pr, v_sel]
  all_goals rfl

theorem ksub (d : BitVec 3) (a : BitVec 3) (b : BitVec 3) (pr : BitVec 1) (sel : BitVec 2) : Statement (.ksub d a b pr sel) := by
  intro v0 h0
  replace h0 := Option.some.inj h0
  have b_d := d.isLt
  have b_a := a.isLt
  have b_b := b.isLt
  have b_pr := pr.isLt
  have b_sel := sel.isLt
  have w0 : v0.toNat = 3053453312 + d.toNat * 2097152 + a.toNat * 262144 + b.toNat * 32768 + pr.toNat * 16384 + sel.toNat * 4096 := word5 h0 pow21 pow18 pow15 pow14 pow12 (by omega)
  clear h0
  generalize v0.toNat = m0 at w0
  have f28_4 : field m0 28 4 = 11 := field_at (100663296 + d.toNat * 2097152 + a.toNat * 262144 + b.toNat * 32768 + pr.toNat * 16384 + sel.toNat * 4096) 11 (0) (by omega) (by omega) (by omega)
  have f24_4 : field m0 24 4 = 6 := field_at (0 + d.toNat * 2097152 + a.toNat * 262144 + b.toNat * 32768 + pr.toNat * 16384 + sel.toNat * 4096) 6 (11) (by omega) (by omega) (by omega)
  have f0_12 : field m0 0 12 = 0 := field_at (0) 0 (745472 + d.toNat * 512 + a.toNat * 64 + b.toNat * 8 + pr.toNat * 4 + sel.toNat) (by omega) (by omega) (by omega)
  have v_d : fld m0 21 3 = d := fld_at (0 + a.toNat * 262144 + b.toNat * 32768 + pr.toNat * 16384 + sel.toNat * 4096) (182) (by omega) (by omega)
  have v_a : fld m0 18 3 = a := fld_at (0 + b.toNat * 32768 + pr.toNat * 16384 + sel.toNat * 4096) (1456 + d.toNat) (by omega) (by omega)
  have v_b : fld m0 15 3 = b := fld_at (0 + pr.toNat * 16384 + sel.toNat * 4096) (11648 + d.toNat * 8 + a.toNat) (by omega) (by omega)
  have v_pr : fld m0 14 1 = pr := fld_at (0 + sel.toNat * 4096) (93184 + d.toNat * 64 + a.toNat * 8 + b.toNat) (by omega) (by omega)
  have v_sel : fld m0 12 2 = sel := fld_at (0) (186368 + d.toNat * 128 + a.toNat * 16 + b.toNat * 2 + pr.toNat) (by omega) (by omega)
  simp only [decodeWord, decodeGroupB, decodeB6, f28_4, f24_4, f0_12, v_d, v_a, v_b, v_pr, v_sel]
  all_goals rfl

theorem kshl (d : BitVec 3) (a : BitVec 3) (pr : BitVec 1) (sel : BitVec 2) (m : BitVec 8) : Statement (.kshl d a pr sel m) := by
  intro v0 h0
  replace h0 := Option.some.inj h0
  have b_d := d.isLt
  have b_a := a.isLt
  have b_pr := pr.isLt
  have b_sel := sel.isLt
  have b_m := m.isLt
  have w0 : v0.toNat = 3070230528 + d.toNat * 2097152 + a.toNat * 262144 + pr.toNat * 131072 + sel.toNat * 32768 + m.toNat * 128 := word5 h0 pow21 pow18 pow17 pow15 pow7 (by omega)
  clear h0
  generalize v0.toNat = m0 at w0
  have f28_4 : field m0 28 4 = 11 := field_at (117440512 + d.toNat * 2097152 + a.toNat * 262144 + pr.toNat * 131072 + sel.toNat * 32768 + m.toNat * 128) 11 (0) (by omega) (by omega) (by omega)
  have f24_4 : field m0 24 4 = 7 := field_at (0 + d.toNat * 2097152 + a.toNat * 262144 + pr.toNat * 131072 + sel.toNat * 32768 + m.toNat * 128) 7 (11) (by omega) (by omega) (by omega)
  have f0_7 : field m0 0 7 = 0 := field_at (0) 0 (23986176 + d.toNat * 16384 + a.toNat * 2048 + pr.toNat * 1024 + sel.toNat * 256 + m.toNat) (by omega) (by omega) (by omega)
  have v_d : fld m0 21 3 = d := fld_at (0 + a.toNat * 262144 + pr.toNat * 131072 + sel.toNat * 32768 + m.toNat * 128) (183) (by omega) (by omega)
  have v_a : fld m0 18 3 = a := fld_at (0 + pr.toNat * 131072 + sel.toNat * 32768 + m.toNat * 128) (1464 + d.toNat) (by omega) (by omega)
  have v_pr : fld m0 17 1 = pr := fld_at (0 + sel.toNat * 32768 + m.toNat * 128) (11712 + d.toNat * 8 + a.toNat) (by omega) (by omega)
  have v_sel : fld m0 15 2 = sel := fld_at (0 + m.toNat * 128) (23424 + d.toNat * 16 + a.toNat * 2 + pr.toNat) (by omega) (by omega)
  have v_m : fld m0 7 8 = m := fld_at (0) (93696 + d.toNat * 64 + a.toNat * 8 + pr.toNat * 4 + sel.toNat) (by omega) (by omega)
  simp only [decodeWord, decodeGroupB, decodeB7, f28_4, f24_4, f0_7, v_d, v_a, v_pr, v_sel, v_m]
  all_goals rfl

theorem kshr (d : BitVec 3) (a : BitVec 3) (pr : BitVec 1) (sel : BitVec 2) (m : BitVec 8) : Statement (.kshr d a pr sel m) := by
  intro v0 h0
  replace h0 := Option.some.inj h0
  have b_d := d.isLt
  have b_a := a.isLt
  have b_pr := pr.isLt
  have b_sel := sel.isLt
  have b_m := m.isLt
  have w0 : v0.toNat = 3087007744 + d.toNat * 2097152 + a.toNat * 262144 + pr.toNat * 131072 + sel.toNat * 32768 + m.toNat * 128 := word5 h0 pow21 pow18 pow17 pow15 pow7 (by omega)
  clear h0
  generalize v0.toNat = m0 at w0
  have f28_4 : field m0 28 4 = 11 := field_at (134217728 + d.toNat * 2097152 + a.toNat * 262144 + pr.toNat * 131072 + sel.toNat * 32768 + m.toNat * 128) 11 (0) (by omega) (by omega) (by omega)
  have f24_4 : field m0 24 4 = 8 := field_at (0 + d.toNat * 2097152 + a.toNat * 262144 + pr.toNat * 131072 + sel.toNat * 32768 + m.toNat * 128) 8 (11) (by omega) (by omega) (by omega)
  have f0_7 : field m0 0 7 = 0 := field_at (0) 0 (24117248 + d.toNat * 16384 + a.toNat * 2048 + pr.toNat * 1024 + sel.toNat * 256 + m.toNat) (by omega) (by omega) (by omega)
  have v_d : fld m0 21 3 = d := fld_at (0 + a.toNat * 262144 + pr.toNat * 131072 + sel.toNat * 32768 + m.toNat * 128) (184) (by omega) (by omega)
  have v_a : fld m0 18 3 = a := fld_at (0 + pr.toNat * 131072 + sel.toNat * 32768 + m.toNat * 128) (1472 + d.toNat) (by omega) (by omega)
  have v_pr : fld m0 17 1 = pr := fld_at (0 + sel.toNat * 32768 + m.toNat * 128) (11776 + d.toNat * 8 + a.toNat) (by omega) (by omega)
  have v_sel : fld m0 15 2 = sel := fld_at (0 + m.toNat * 128) (23552 + d.toNat * 16 + a.toNat * 2 + pr.toNat) (by omega) (by omega)
  have v_m : fld m0 7 8 = m := fld_at (0) (94208 + d.toNat * 64 + a.toNat * 8 + pr.toNat * 4 + sel.toNat) (by omega) (by omega)
  simp only [decodeWord, decodeGroupB, decodeB8, f28_4, f24_4, f0_7, v_d, v_a, v_pr, v_sel, v_m]
  all_goals rfl

theorem kmov (d : BitVec 3) (a : BitVec 3) (pr : BitVec 1) (zero : BitVec 1) : Statement (.kmov d a pr zero) := by
  intro v0 h0
  replace h0 := Option.some.inj h0
  have b_d := d.isLt
  have b_a := a.isLt
  have b_pr := pr.isLt
  have b_zero := zero.isLt
  have w0 : v0.toNat = 3103784960 + d.toNat * 2097152 + a.toNat * 262144 + pr.toNat * 131072 + zero.toNat * 65536 := word4 h0 pow21 pow18 pow17 pow16 (by omega)
  clear h0
  generalize v0.toNat = m0 at w0
  have f28_4 : field m0 28 4 = 11 := field_at (150994944 + d.toNat * 2097152 + a.toNat * 262144 + pr.toNat * 131072 + zero.toNat * 65536) 11 (0) (by omega) (by omega) (by omega)
  have f24_4 : field m0 24 4 = 9 := field_at (0 + d.toNat * 2097152 + a.toNat * 262144 + pr.toNat * 131072 + zero.toNat * 65536) 9 (11) (by omega) (by omega) (by omega)
  have f0_16 : field m0 0 16 = 0 := field_at (0) 0 (47360 + d.toNat * 32 + a.toNat * 4 + pr.toNat * 2 + zero.toNat) (by omega) (by omega) (by omega)
  have v_d : fld m0 21 3 = d := fld_at (0 + a.toNat * 262144 + pr.toNat * 131072 + zero.toNat * 65536) (185) (by omega) (by omega)
  have v_a : fld m0 18 3 = a := fld_at (0 + pr.toNat * 131072 + zero.toNat * 65536) (1480 + d.toNat) (by omega) (by omega)
  have v_pr : fld m0 17 1 = pr := fld_at (0 + zero.toNat * 65536) (11840 + d.toNat * 8 + a.toNat) (by omega) (by omega)
  have v_zero : fld m0 16 1 = zero := fld_at (0) (23680 + d.toNat * 16 + a.toNat * 2 + pr.toNat) (by omega) (by omega)
  simp only [decodeWord, decodeGroupB, decodeB9, f28_4, f24_4, f0_16, v_d, v_a, v_pr, v_zero]
  all_goals rfl

theorem kld (k : BitVec 3) (pr : BitVec 1) (sp : BitVec 5) (a : BitVec 6) : Statement (.kld k pr sp a) := by
  intro v0 h0
  replace h0 := Option.some.inj h0
  have b_k := k.isLt
  have b_pr := pr.isLt
  have b_sp := sp.isLt
  have b_a := a.isLt
  have w0 : v0.toNat = 3120562176 + k.toNat * 2097152 + pr.toNat * 1048576 + sp.toNat * 32768 + a.toNat * 512 := word4 h0 pow21 pow20 pow15 pow9 (by omega)
  clear h0
  generalize v0.toNat = m0 at w0
  have f28_4 : field m0 28 4 = 11 := field_at (167772160 + k.toNat * 2097152 + pr.toNat * 1048576 + sp.toNat * 32768 + a.toNat * 512) 11 (0) (by omega) (by omega) (by omega)
  have f24_4 : field m0 24 4 = 10 := field_at (0 + k.toNat * 2097152 + pr.toNat * 1048576 + sp.toNat * 32768 + a.toNat * 512) 10 (11) (by omega) (by omega) (by omega)
  have f0_9 : field m0 0 9 = 0 := field_at (0) 0 (6094848 + k.toNat * 4096 + pr.toNat * 2048 + sp.toNat * 64 + a.toNat) (by omega) (by omega) (by omega)
  have v_k : fld m0 21 3 = k := fld_at (0 + pr.toNat * 1048576 + sp.toNat * 32768 + a.toNat * 512) (186) (by omega) (by omega)
  have v_pr : fld m0 20 1 = pr := fld_at (0 + sp.toNat * 32768 + a.toNat * 512) (1488 + k.toNat) (by omega) (by omega)
  have v_sp : fld m0 15 5 = sp := fld_at (0 + a.toNat * 512) (2976 + k.toNat * 2 + pr.toNat) (by omega) (by omega)
  have v_a : fld m0 9 6 = a := fld_at (0) (95232 + k.toNat * 64 + pr.toNat * 32 + sp.toNat) (by omega) (by omega)
  simp only [decodeWord, decodeGroupB, decodeBA, f28_4, f24_4, f0_9, v_k, v_pr, v_sp, v_a]
  all_goals rfl

theorem kst (k : BitVec 3) (pr : BitVec 1) (sp : BitVec 5) (a : BitVec 6) : Statement (.kst k pr sp a) := by
  intro v0 h0
  replace h0 := Option.some.inj h0
  have b_k := k.isLt
  have b_pr := pr.isLt
  have b_sp := sp.isLt
  have b_a := a.isLt
  have w0 : v0.toNat = 3137339392 + k.toNat * 2097152 + pr.toNat * 1048576 + sp.toNat * 32768 + a.toNat * 512 := word4 h0 pow21 pow20 pow15 pow9 (by omega)
  clear h0
  generalize v0.toNat = m0 at w0
  have f28_4 : field m0 28 4 = 11 := field_at (184549376 + k.toNat * 2097152 + pr.toNat * 1048576 + sp.toNat * 32768 + a.toNat * 512) 11 (0) (by omega) (by omega) (by omega)
  have f24_4 : field m0 24 4 = 11 := field_at (0 + k.toNat * 2097152 + pr.toNat * 1048576 + sp.toNat * 32768 + a.toNat * 512) 11 (11) (by omega) (by omega) (by omega)
  have f0_9 : field m0 0 9 = 0 := field_at (0) 0 (6127616 + k.toNat * 4096 + pr.toNat * 2048 + sp.toNat * 64 + a.toNat) (by omega) (by omega) (by omega)
  have v_k : fld m0 21 3 = k := fld_at (0 + pr.toNat * 1048576 + sp.toNat * 32768 + a.toNat * 512) (187) (by omega) (by omega)
  have v_pr : fld m0 20 1 = pr := fld_at (0 + sp.toNat * 32768 + a.toNat * 512) (1496 + k.toNat) (by omega) (by omega)
  have v_sp : fld m0 15 5 = sp := fld_at (0 + a.toNat * 512) (2992 + k.toNat * 2 + pr.toNat) (by omega) (by omega)
  have v_a : fld m0 9 6 = a := fld_at (0) (95744 + k.toNat * 64 + pr.toNat * 32 + sp.toNat) (by omega) (by omega)
  simp only [decodeWord, decodeGroupB, decodeBB, f28_4, f24_4, f0_9, v_k, v_pr, v_sp, v_a]
  all_goals rfl

theorem tmma (a : BitVec 6) (b : BitVec 6) (grp : BitVec 1) (fresh : BitVec 1) : Statement (.tmma a b grp fresh) := by
  intro v0 h0
  replace h0 := Option.some.inj h0
  have b_a := a.isLt
  have b_b := b.isLt
  have b_grp := grp.isLt
  have b_fresh := fresh.isLt
  have w0 : v0.toNat = 3221225472 + a.toNat * 262144 + b.toNat * 4096 + grp.toNat * 2048 + fresh.toNat * 1024 := word4 h0 pow18 pow12 pow11 pow10 (by omega)
  clear h0
  generalize v0.toNat = m0 at w0
  have f28_4 : field m0 28 4 = 12 := field_at (0 + a.toNat * 262144 + b.toNat * 4096 + grp.toNat * 2048 + fresh.toNat * 1024) 12 (0) (by omega) (by omega) (by omega)
  have f24_4 : field m0 24 4 = 0 := field_at (0 + a.toNat * 262144 + b.toNat * 4096 + grp.toNat * 2048 + fresh.toNat * 1024) 0 (12) (by omega) (by omega) (by omega)
  have f0_10 : field m0 0 10 = 0 := field_at (0) 0 (3145728 + a.toNat * 256 + b.toNat * 4 + grp.toNat * 2 + fresh.toNat) (by omega) (by omega) (by omega)
  have v_a : fld m0 18 6 = a := fld_at (0 + b.toNat * 4096 + grp.toNat * 2048 + fresh.toNat * 1024) (192) (by omega) (by omega)
  have v_b : fld m0 12 6 = b := fld_at (0 + grp.toNat * 2048 + fresh.toNat * 1024) (12288 + a.toNat) (by omega) (by omega)
  have v_grp : fld m0 11 1 = grp := fld_at (0 + fresh.toNat * 1024) (786432 + a.toNat * 64 + b.toNat) (by omega) (by omega)
  have v_fresh : fld m0 10 1 = fresh := fld_at (0) (1572864 + a.toNat * 128 + b.toNat * 2 + grp.toNat) (by omega) (by omega)
  simp only [decodeWord, decodeGroupC, decodeC0, f28_4, f24_4, f0_10, v_a, v_b, v_grp, v_fresh]
  all_goals rfl

theorem tmmaS (a : BitVec 6) (b : BitVec 6) (grp : BitVec 1) (fresh : BitVec 1) : Statement (.tmmaS a b grp fresh) := by
  intro v0 h0
  replace h0 := Option.some.inj h0
  have b_a := a.isLt
  have b_b := b.isLt
  have b_grp := grp.isLt
  have b_fresh := fresh.isLt
  have w0 : v0.toNat = 3238002688 + a.toNat * 262144 + b.toNat * 4096 + grp.toNat * 2048 + fresh.toNat * 1024 := word4 h0 pow18 pow12 pow11 pow10 (by omega)
  clear h0
  generalize v0.toNat = m0 at w0
  have f28_4 : field m0 28 4 = 12 := field_at (16777216 + a.toNat * 262144 + b.toNat * 4096 + grp.toNat * 2048 + fresh.toNat * 1024) 12 (0) (by omega) (by omega) (by omega)
  have f24_4 : field m0 24 4 = 1 := field_at (0 + a.toNat * 262144 + b.toNat * 4096 + grp.toNat * 2048 + fresh.toNat * 1024) 1 (12) (by omega) (by omega) (by omega)
  have f0_10 : field m0 0 10 = 0 := field_at (0) 0 (3162112 + a.toNat * 256 + b.toNat * 4 + grp.toNat * 2 + fresh.toNat) (by omega) (by omega) (by omega)
  have v_a : fld m0 18 6 = a := fld_at (0 + b.toNat * 4096 + grp.toNat * 2048 + fresh.toNat * 1024) (193) (by omega) (by omega)
  have v_b : fld m0 12 6 = b := fld_at (0 + grp.toNat * 2048 + fresh.toNat * 1024) (12352 + a.toNat) (by omega) (by omega)
  have v_grp : fld m0 11 1 = grp := fld_at (0 + fresh.toNat * 1024) (790528 + a.toNat * 64 + b.toNat) (by omega) (by omega)
  have v_fresh : fld m0 10 1 = fresh := fld_at (0) (1581056 + a.toNat * 128 + b.toNat * 2 + grp.toNat) (by omega) (by omega)
  simp only [decodeWord, decodeGroupC, decodeC1, f28_4, f24_4, f0_10, v_a, v_b, v_grp, v_fresh]
  all_goals rfl

theorem tmmaResume (a : BitVec 6) (b : BitVec 6) : Statement (.tmmaResume a b) := by
  intro v0 h0
  replace h0 := Option.some.inj h0
  have b_a := a.isLt
  have b_b := b.isLt
  have w0 : v0.toNat = 3254779904 + a.toNat * 262144 + b.toNat * 4096 := word2 h0 pow18 pow12 (by omega)
  clear h0
  generalize v0.toNat = m0 at w0
  have f28_4 : field m0 28 4 = 12 := field_at (33554432 + a.toNat * 262144 + b.toNat * 4096) 12 (0) (by omega) (by omega) (by omega)
  have f24_4 : field m0 24 4 = 2 := field_at (0 + a.toNat * 262144 + b.toNat * 4096) 2 (12) (by omega) (by omega) (by omega)
  have f0_12 : field m0 0 12 = 0 := field_at (0) 0 (794624 + a.toNat * 64 + b.toNat) (by omega) (by omega) (by omega)
  have v_a : fld m0 18 6 = a := fld_at (0 + b.toNat * 4096) (194) (by omega) (by omega)
  have v_b : fld m0 12 6 = b := fld_at (0) (12416 + a.toNat) (by omega) (by omega)
  simp only [decodeWord, decodeGroupC, decodeC2, f28_4, f24_4, f0_12, v_a, v_b]
  all_goals rfl

theorem twait (n : BitVec 2) : Statement (.twait n) := by
  intro v0 h0
  replace h0 := Option.some.inj h0
  have b_n := n.isLt
  have w0 : v0.toNat = 3271557120 + n.toNat * 4194304 := word1 h0 pow22 (by omega)
  clear h0
  generalize v0.toNat = m0 at w0
  have f28_4 : field m0 28 4 = 12 := field_at (50331648 + n.toNat * 4194304) 12 (0) (by omega) (by omega) (by omega)
  have f24_4 : field m0 24 4 = 3 := field_at (0 + n.toNat * 4194304) 3 (12) (by omega) (by omega) (by omega)
  have f0_22 : field m0 0 22 = 0 := field_at (0) 0 (780 + n.toNat) (by omega) (by omega) (by omega)
  have v_n : fld m0 22 2 = n := fld_at (0) (195) (by omega) (by omega)
  simp only [decodeWord, decodeGroupC, decodeC3, f28_4, f24_4, f0_22, v_n]
  all_goals rfl

theorem tzero (d : BitVec 4) (form : BitVec 1) (span : BitVec 1) (fresh : BitVec 1) (rel : BitVec 1) : Statement (.tzero d form span fresh rel) := by
  intro v0 h0
  replace h0 := Option.some.inj h0
  have b_d := d.isLt
  have b_form := form.isLt
  have b_span := span.isLt
  have b_fresh := fresh.isLt
  have b_rel := rel.isLt
  have w0 : v0.toNat = 3288334336 + d.toNat * 1048576 + form.toNat * 524288 + span.toNat * 262144 + fresh.toNat * 131072 + rel.toNat * 65536 := word5 h0 pow20 pow19 pow18 pow17 pow16 (by omega)
  clear h0
  generalize v0.toNat = m0 at w0
  have f28_4 : field m0 28 4 = 12 := field_at (67108864 + d.toNat * 1048576 + form.toNat * 524288 + span.toNat * 262144 + fresh.toNat * 131072 + rel.toNat * 65536) 12 (0) (by omega) (by omega) (by omega)
  have f24_4 : field m0 24 4 = 4 := field_at (0 + d.toNat * 1048576 + form.toNat * 524288 + span.toNat * 262144 + fresh.toNat * 131072 + rel.toNat * 65536) 4 (12) (by omega) (by omega) (by omega)
  have f0_16 : field m0 0 16 = 0 := field_at (0) 0 (50176 + d.toNat * 16 + form.toNat * 8 + span.toNat * 4 + fresh.toNat * 2 + rel.toNat) (by omega) (by omega) (by omega)
  have v_d : fld m0 20 4 = d := fld_at (0 + form.toNat * 524288 + span.toNat * 262144 + fresh.toNat * 131072 + rel.toNat * 65536) (196) (by omega) (by omega)
  have v_form : fld m0 19 1 = form := fld_at (0 + span.toNat * 262144 + fresh.toNat * 131072 + rel.toNat * 65536) (3136 + d.toNat) (by omega) (by omega)
  have v_span : fld m0 18 1 = span := fld_at (0 + fresh.toNat * 131072 + rel.toNat * 65536) (6272 + d.toNat * 2 + form.toNat) (by omega) (by omega)
  have v_fresh : fld m0 17 1 = fresh := fld_at (0 + rel.toNat * 65536) (12544 + d.toNat * 4 + form.toNat * 2 + span.toNat) (by omega) (by omega)
  have v_rel : fld m0 16 1 = rel := fld_at (0) (25088 + d.toNat * 8 + form.toNat * 4 + span.toNat * 2 + fresh.toNat) (by omega) (by omega)
  simp only [decodeWord, decodeGroupC, decodeC4, f28_4, f24_4, f0_16, v_d, v_form, v_span, v_fresh, v_rel]
  all_goals rfl

theorem tlda (a : BitVec 4) (h : BitVec 1) (fmt : BitVec 1) (sp : BitVec 2) (off : BitVec 6) (st : BitVec 6) : Statement (.tlda a h fmt sp off st) := by
  intro v0 h0
  replace h0 := Option.some.inj h0
  have b_a := a.isLt
  have b_h := h.isLt
  have b_fmt := fmt.isLt
  have b_sp := sp.isLt
  have b_off := off.isLt
  have b_st := st.isLt
  have w0 : v0.toNat = 3305111552 + a.toNat * 1048576 + h.toNat * 524288 + fmt.toNat * 262144 + sp.toNat * 65536 + off.toNat * 1024 + st.toNat * 16 := word6 h0 pow20 pow19 pow18 pow16 pow10 pow4 (by omega)
  clear h0
  generalize v0.toNat = m0 at w0
  have f28_4 : field m0 28 4 = 12 := field_at (83886080 + a.toNat * 1048576 + h.toNat * 524288 + fmt.toNat * 262144 + sp.toNat * 65536 + off.toNat * 1024 + st.toNat * 16) 12 (0) (by omega) (by omega) (by omega)
  have f24_4 : field m0 24 4 = 5 := field_at (0 + a.toNat * 1048576 + h.toNat * 524288 + fmt.toNat * 262144 + sp.toNat * 65536 + off.toNat * 1024 + st.toNat * 16) 5 (12) (by omega) (by omega) (by omega)
  have f0_4 : field m0 0 4 = 0 := field_at (0) 0 (206569472 + a.toNat * 65536 + h.toNat * 32768 + fmt.toNat * 16384 + sp.toNat * 4096 + off.toNat * 64 + st.toNat) (by omega) (by omega) (by omega)
  have v_a : fld m0 20 4 = a := fld_at (0 + h.toNat * 524288 + fmt.toNat * 262144 + sp.toNat * 65536 + off.toNat * 1024 + st.toNat * 16) (197) (by omega) (by omega)
  have v_h : fld m0 19 1 = h := fld_at (0 + fmt.toNat * 262144 + sp.toNat * 65536 + off.toNat * 1024 + st.toNat * 16) (3152 + a.toNat) (by omega) (by omega)
  have v_fmt : fld m0 18 1 = fmt := fld_at (0 + sp.toNat * 65536 + off.toNat * 1024 + st.toNat * 16) (6304 + a.toNat * 2 + h.toNat) (by omega) (by omega)
  have v_sp : fld m0 16 2 = sp := fld_at (0 + off.toNat * 1024 + st.toNat * 16) (12608 + a.toNat * 4 + h.toNat * 2 + fmt.toNat) (by omega) (by omega)
  have v_off : fld m0 10 6 = off := fld_at (0 + st.toNat * 16) (50432 + a.toNat * 16 + h.toNat * 8 + fmt.toNat * 4 + sp.toNat) (by omega) (by omega)
  have v_st : fld m0 4 6 = st := fld_at (0) (3227648 + a.toNat * 1024 + h.toNat * 512 + fmt.toNat * 256 + sp.toNat * 64 + off.toNat) (by omega) (by omega)
  simp only [decodeWord, decodeGroupC, decodeC5, f28_4, f24_4, f0_4, v_a, v_h, v_fmt, v_sp, v_off, v_st]
  all_goals rfl

theorem tsta (a : BitVec 4) (h : BitVec 1) (fmt : BitVec 1) (sp : BitVec 2) (off : BitVec 6) (st : BitVec 6) : Statement (.tsta a h fmt sp off st) := by
  intro v0 h0
  replace h0 := Option.some.inj h0
  have b_a := a.isLt
  have b_h := h.isLt
  have b_fmt := fmt.isLt
  have b_sp := sp.isLt
  have b_off := off.isLt
  have b_st := st.isLt
  have w0 : v0.toNat = 3321888768 + a.toNat * 1048576 + h.toNat * 524288 + fmt.toNat * 262144 + sp.toNat * 65536 + off.toNat * 1024 + st.toNat * 16 := word6 h0 pow20 pow19 pow18 pow16 pow10 pow4 (by omega)
  clear h0
  generalize v0.toNat = m0 at w0
  have f28_4 : field m0 28 4 = 12 := field_at (100663296 + a.toNat * 1048576 + h.toNat * 524288 + fmt.toNat * 262144 + sp.toNat * 65536 + off.toNat * 1024 + st.toNat * 16) 12 (0) (by omega) (by omega) (by omega)
  have f24_4 : field m0 24 4 = 6 := field_at (0 + a.toNat * 1048576 + h.toNat * 524288 + fmt.toNat * 262144 + sp.toNat * 65536 + off.toNat * 1024 + st.toNat * 16) 6 (12) (by omega) (by omega) (by omega)
  have f0_4 : field m0 0 4 = 0 := field_at (0) 0 (207618048 + a.toNat * 65536 + h.toNat * 32768 + fmt.toNat * 16384 + sp.toNat * 4096 + off.toNat * 64 + st.toNat) (by omega) (by omega) (by omega)
  have v_a : fld m0 20 4 = a := fld_at (0 + h.toNat * 524288 + fmt.toNat * 262144 + sp.toNat * 65536 + off.toNat * 1024 + st.toNat * 16) (198) (by omega) (by omega)
  have v_h : fld m0 19 1 = h := fld_at (0 + fmt.toNat * 262144 + sp.toNat * 65536 + off.toNat * 1024 + st.toNat * 16) (3168 + a.toNat) (by omega) (by omega)
  have v_fmt : fld m0 18 1 = fmt := fld_at (0 + sp.toNat * 65536 + off.toNat * 1024 + st.toNat * 16) (6336 + a.toNat * 2 + h.toNat) (by omega) (by omega)
  have v_sp : fld m0 16 2 = sp := fld_at (0 + off.toNat * 1024 + st.toNat * 16) (12672 + a.toNat * 4 + h.toNat * 2 + fmt.toNat) (by omega) (by omega)
  have v_off : fld m0 10 6 = off := fld_at (0 + st.toNat * 16) (50688 + a.toNat * 16 + h.toNat * 8 + fmt.toNat * 4 + sp.toNat) (by omega) (by omega)
  have v_st : fld m0 4 6 = st := fld_at (0) (3244032 + a.toNat * 1024 + h.toNat * 512 + fmt.toNat * 256 + sp.toNat * 64 + off.toNat) (by omega) (by omega)
  simp only [decodeWord, decodeGroupC, decodeC6, f28_4, f24_4, f0_4, v_a, v_h, v_fmt, v_sp, v_off, v_st]
  all_goals rfl

theorem scacc (d : BitVec 4) (a : BitVec 4) (sm : BitVec 2) (fresh : BitVec 1) (off : BitVec 6) : Statement (.scacc d a sm fresh off) := by
  intro v0 h0
  replace h0 := Option.some.inj h0
  have b_d := d.isLt
  have b_a := a.isLt
  have b_sm := sm.isLt
  have b_fresh := fresh.isLt
  have b_off := off.isLt
  have w0 : v0.toNat = 3338665984 + d.toNat * 1048576 + a.toNat * 65536 + sm.toNat * 16384 + fresh.toNat * 8192 + off.toNat * 128 := word5 h0 pow20 pow16 pow14 pow13 pow7 (by omega)
  clear h0
  generalize v0.toNat = m0 at w0
  have f28_4 : field m0 28 4 = 12 := field_at (117440512 + d.toNat * 1048576 + a.toNat * 65536 + sm.toNat * 16384 + fresh.toNat * 8192 + off.toNat * 128) 12 (0) (by omega) (by omega) (by omega)
  have f24_4 : field m0 24 4 = 7 := field_at (0 + d.toNat * 1048576 + a.toNat * 65536 + sm.toNat * 16384 + fresh.toNat * 8192 + off.toNat * 128) 7 (12) (by omega) (by omega) (by omega)
  have f0_7 : field m0 0 7 = 0 := field_at (0) 0 (26083328 + d.toNat * 8192 + a.toNat * 512 + sm.toNat * 128 + fresh.toNat * 64 + off.toNat) (by omega) (by omega) (by omega)
  have v_d : fld m0 20 4 = d := fld_at (0 + a.toNat * 65536 + sm.toNat * 16384 + fresh.toNat * 8192 + off.toNat * 128) (199) (by omega) (by omega)
  have v_a : fld m0 16 4 = a := fld_at (0 + sm.toNat * 16384 + fresh.toNat * 8192 + off.toNat * 128) (3184 + d.toNat) (by omega) (by omega)
  have v_sm : fld m0 14 2 = sm := fld_at (0 + fresh.toNat * 8192 + off.toNat * 128) (50944 + d.toNat * 16 + a.toNat) (by omega) (by omega)
  have v_fresh : fld m0 13 1 = fresh := fld_at (0 + off.toNat * 128) (203776 + d.toNat * 64 + a.toNat * 4 + sm.toNat) (by omega) (by omega)
  have v_off : fld m0 7 6 = off := fld_at (0) (407552 + d.toNat * 128 + a.toNat * 8 + sm.toNat * 2 + fresh.toNat) (by omega) (by omega)
  simp only [decodeWord, decodeGroupC, decodeC7, f28_4, f24_4, f0_7, v_d, v_a, v_sm, v_fresh, v_off]
  all_goals rfl

theorem axr (d : BitVec 6) (n : BitVec 4) (b : BitVec 6) (part : BitVec 1) : Statement (.axr d n b part) := by
  intro v0 h0
  replace h0 := Option.some.inj h0
  have b_d := d.isLt
  have b_n := n.isLt
  have b_b := b.isLt
  have b_part := part.isLt
  have w0 : v0.toNat = 3355443200 + d.toNat * 262144 + n.toNat * 16384 + b.toNat * 256 + part.toNat * 128 := word4 h0 pow18 pow14 pow8 pow7 (by omega)
  clear h0
  generalize v0.toNat = m0 at w0
  have f28_4 : field m0 28 4 = 12 := field_at (134217728 + d.toNat * 262144 + n.toNat * 16384 + b.toNat * 256 + part.toNat * 128) 12 (0) (by omega) (by omega) (by omega)
  have f24_4 : field m0 24 4 = 8 := field_at (0 + d.toNat * 262144 + n.toNat * 16384 + b.toNat * 256 + part.toNat * 128) 8 (12) (by omega) (by omega) (by omega)
  have f0_7 : field m0 0 7 = 0 := field_at (0) 0 (26214400 + d.toNat * 2048 + n.toNat * 128 + b.toNat * 2 + part.toNat) (by omega) (by omega) (by omega)
  have v_d : fld m0 18 6 = d := fld_at (0 + n.toNat * 16384 + b.toNat * 256 + part.toNat * 128) (200) (by omega) (by omega)
  have v_n : fld m0 14 4 = n := fld_at (0 + b.toNat * 256 + part.toNat * 128) (12800 + d.toNat) (by omega) (by omega)
  have v_b : fld m0 8 6 = b := fld_at (0 + part.toNat * 128) (204800 + d.toNat * 16 + n.toNat) (by omega) (by omega)
  have v_part : fld m0 7 1 = part := fld_at (0) (13107200 + d.toNat * 1024 + n.toNat * 64 + b.toNat) (by omega) (by omega)
  simp only [decodeWord, decodeGroupC, decodeC8, f28_4, f24_4, f0_7, v_d, v_n, v_b, v_part]
  all_goals rfl

theorem axw (a : BitVec 6) (n : BitVec 4) (b : BitVec 6) (part : BitVec 1) : Statement (.axw a n b part) := by
  intro v0 h0
  replace h0 := Option.some.inj h0
  have b_a := a.isLt
  have b_n := n.isLt
  have b_b := b.isLt
  have b_part := part.isLt
  have w0 : v0.toNat = 3372220416 + a.toNat * 262144 + n.toNat * 16384 + b.toNat * 256 + part.toNat * 128 := word4 h0 pow18 pow14 pow8 pow7 (by omega)
  clear h0
  generalize v0.toNat = m0 at w0
  have f28_4 : field m0 28 4 = 12 := field_at (150994944 + a.toNat * 262144 + n.toNat * 16384 + b.toNat * 256 + part.toNat * 128) 12 (0) (by omega) (by omega) (by omega)
  have f24_4 : field m0 24 4 = 9 := field_at (0 + a.toNat * 262144 + n.toNat * 16384 + b.toNat * 256 + part.toNat * 128) 9 (12) (by omega) (by omega) (by omega)
  have f0_7 : field m0 0 7 = 0 := field_at (0) 0 (26345472 + a.toNat * 2048 + n.toNat * 128 + b.toNat * 2 + part.toNat) (by omega) (by omega) (by omega)
  have v_a : fld m0 18 6 = a := fld_at (0 + n.toNat * 16384 + b.toNat * 256 + part.toNat * 128) (201) (by omega) (by omega)
  have v_n : fld m0 14 4 = n := fld_at (0 + b.toNat * 256 + part.toNat * 128) (12864 + a.toNat) (by omega) (by omega)
  have v_b : fld m0 8 6 = b := fld_at (0 + part.toNat * 128) (205824 + a.toNat * 16 + n.toNat) (by omega) (by omega)
  have v_part : fld m0 7 1 = part := fld_at (0) (13172736 + a.toNat * 1024 + n.toNat * 64 + b.toNat) (by omega) (by omega)
  simp only [decodeWord, decodeGroupC, decodeC9, f28_4, f24_4, f0_7, v_a, v_n, v_b, v_part]
  all_goals rfl

theorem tdesc (d : BitVec 6) (a : BitVec 6) : Statement (.tdesc d a) := by
  intro v0 h0
  replace h0 := Option.some.inj h0
  have b_d := d.isLt
  have b_a := a.isLt
  have w0 : v0.toNat = 3388997632 + d.toNat * 262144 + a.toNat * 4096 := word2 h0 pow18 pow12 (by omega)
  clear h0
  generalize v0.toNat = m0 at w0
  have f28_4 : field m0 28 4 = 12 := field_at (167772160 + d.toNat * 262144 + a.toNat * 4096) 12 (0) (by omega) (by omega) (by omega)
  have f24_4 : field m0 24 4 = 10 := field_at (0 + d.toNat * 262144 + a.toNat * 4096) 10 (12) (by omega) (by omega) (by omega)
  have f0_12 : field m0 0 12 = 0 := field_at (0) 0 (827392 + d.toNat * 64 + a.toNat) (by omega) (by omega) (by omega)
  have v_d : fld m0 18 6 = d := fld_at (0 + a.toNat * 4096) (202) (by omega) (by omega)
  have v_a : fld m0 12 6 = a := fld_at (0) (12928 + d.toNat) (by omega) (by omega)
  simp only [decodeWord, decodeGroupC, decodeCA, f28_4, f24_4, f0_12, v_d, v_a]
  all_goals rfl

theorem cpy (q : BitVec 2) : Statement (.cpy q) := by
  intro v0 h0
  replace h0 := Option.some.inj h0
  have b_q := q.isLt
  have w0 : v0.toNat = 3489660928 + q.toNat * 4194304 := word1 h0 pow22 (by omega)
  clear h0
  generalize v0.toNat = m0 at w0
  have f28_4 : field m0 28 4 = 13 := field_at (0 + q.toNat * 4194304) 13 (0) (by omega) (by omega) (by omega)
  have f24_4 : field m0 24 4 = 0 := field_at (0 + q.toNat * 4194304) 0 (13) (by omega) (by omega) (by omega)
  have f0_22 : field m0 0 22 = 0 := field_at (0) 0 (832 + q.toNat) (by omega) (by omega) (by omega)
  have v_q : fld m0 22 2 = q := fld_at (0) (208) (by omega) (by omega)
  simp only [decodeWord, decodeGroupD, decodeD0, f28_4, f24_4, f0_22, v_q]
  all_goals rfl

theorem cpySc (q : BitVec 2) : Statement (.cpySc q) := by
  intro v0 h0
  replace h0 := Option.some.inj h0
  have b_q := q.isLt
  have w0 : v0.toNat = 3506438144 + q.toNat * 4194304 := word1 h0 pow22 (by omega)
  clear h0
  generalize v0.toNat = m0 at w0
  have f28_4 : field m0 28 4 = 13 := field_at (16777216 + q.toNat * 4194304) 13 (0) (by omega) (by omega) (by omega)
  have f24_4 : field m0 24 4 = 1 := field_at (0 + q.toNat * 4194304) 1 (13) (by omega) (by omega) (by omega)
  have f0_22 : field m0 0 22 = 0 := field_at (0) 0 (836 + q.toNat) (by omega) (by omega) (by omega)
  have v_q : fld m0 22 2 = q := fld_at (0) (209) (by omega) (by omega)
  simp only [decodeWord, decodeGroupD, decodeD1, f28_4, f24_4, f0_22, v_q]
  all_goals rfl

theorem cpyX (q : BitVec 2) : Statement (.cpyX q) := by
  intro v0 h0
  replace h0 := Option.some.inj h0
  have b_q := q.isLt
  have w0 : v0.toNat = 3523215360 + q.toNat * 4194304 := word1 h0 pow22 (by omega)
  clear h0
  generalize v0.toNat = m0 at w0
  have f28_4 : field m0 28 4 = 13 := field_at (33554432 + q.toNat * 4194304) 13 (0) (by omega) (by omega) (by omega)
  have f24_4 : field m0 24 4 = 2 := field_at (0 + q.toNat * 4194304) 2 (13) (by omega) (by omega) (by omega)
  have f0_22 : field m0 0 22 = 0 := field_at (0) 0 (840 + q.toNat) (by omega) (by omega) (by omega)
  have v_q : fld m0 22 2 = q := fld_at (0) (210) (by omega) (by omega)
  simp only [decodeWord, decodeGroupD, decodeD2, f28_4, f24_4, f0_22, v_q]
  all_goals rfl

theorem cpyR (q : BitVec 2) : Statement (.cpyR q) := by
  intro v0 h0
  replace h0 := Option.some.inj h0
  have b_q := q.isLt
  have w0 : v0.toNat = 3539992576 + q.toNat * 4194304 := word1 h0 pow22 (by omega)
  clear h0
  generalize v0.toNat = m0 at w0
  have f28_4 : field m0 28 4 = 13 := field_at (50331648 + q.toNat * 4194304) 13 (0) (by omega) (by omega) (by omega)
  have f24_4 : field m0 24 4 = 3 := field_at (0 + q.toNat * 4194304) 3 (13) (by omega) (by omega) (by omega)
  have f0_22 : field m0 0 22 = 0 := field_at (0) 0 (844 + q.toNat) (by omega) (by omega) (by omega)
  have v_q : fld m0 22 2 = q := fld_at (0) (211) (by omega) (by omega)
  simp only [decodeWord, decodeGroupD, decodeD3, f28_4, f24_4, f0_22, v_q]
  all_goals rfl

theorem arrive (b : BitVec 4) : Statement (.arrive b) := by
  intro v0 h0
  replace h0 := Option.some.inj h0
  have b_b := b.isLt
  have w0 : v0.toNat = 3556769792 + b.toNat * 1048576 := word1 h0 pow20 (by omega)
  clear h0
  generalize v0.toNat = m0 at w0
  have f28_4 : field m0 28 4 = 13 := field_at (67108864 + b.toNat * 1048576) 13 (0) (by omega) (by omega) (by omega)
  have f24_4 : field m0 24 4 = 4 := field_at (0 + b.toNat * 1048576) 4 (13) (by omega) (by omega) (by omega)
  have f0_20 : field m0 0 20 = 0 := field_at (0) 0 (3392 + b.toNat) (by omega) (by omega) (by omega)
  have v_b : fld m0 20 4 = b := fld_at (0) (212) (by omega) (by omega)
  simp only [decodeWord, decodeGroupD, decodeD4, f28_4, f24_4, f0_20, v_b]
  all_goals rfl

theorem mbx (q : BitVec 3) (x : BitVec 3) : Statement (.mbx q x) := by
  intro v0 h0
  replace h0 := Option.some.inj h0
  have b_q := q.isLt
  have b_x := x.isLt
  have w0 : v0.toNat = 3573547008 + q.toNat * 2097152 + x.toNat * 262144 := word2 h0 pow21 pow18 (by omega)
  clear h0
  generalize v0.toNat = m0 at w0
  have f28_4 : field m0 28 4 = 13 := field_at (83886080 + q.toNat * 2097152 + x.toNat * 262144) 13 (0) (by omega) (by omega) (by omega)
  have f24_4 : field m0 24 4 = 5 := field_at (0 + q.toNat * 2097152 + x.toNat * 262144) 5 (13) (by omega) (by omega) (by omega)
  have f0_18 : field m0 0 18 = 0 := field_at (0) 0 (13632 + q.toNat * 8 + x.toNat) (by omega) (by omega) (by omega)
  have v_q : fld m0 21 3 = q := fld_at (0 + x.toNat * 262144) (213) (by omega) (by omega)
  have v_x : fld m0 18 3 = x := fld_at (0) (1704 + q.toNat) (by omega) (by omega)
  simp only [decodeWord, decodeGroupD, decodeD5, f28_4, f24_4, f0_18, v_q, v_x]
  all_goals rfl

theorem mbxw (q : BitVec 3) : Statement (.mbxw q) := by
  intro v0 h0
  replace h0 := Option.some.inj h0
  have b_q := q.isLt
  have w0 : v0.toNat = 3590324224 + q.toNat * 2097152 := word1 h0 pow21 (by omega)
  clear h0
  generalize v0.toNat = m0 at w0
  have f28_4 : field m0 28 4 = 13 := field_at (100663296 + q.toNat * 2097152) 13 (0) (by omega) (by omega) (by omega)
  have f24_4 : field m0 24 4 = 6 := field_at (0 + q.toNat * 2097152) 6 (13) (by omega) (by omega) (by omega)
  have f0_21 : field m0 0 21 = 0 := field_at (0) 0 (1712 + q.toNat) (by omega) (by omega) (by omega)
  have v_q : fld m0 21 3 = q := fld_at (0) (214) (by omega) (by omega)
  simp only [decodeWord, decodeGroupD, decodeD6, f28_4, f24_4, f0_21, v_q]
  all_goals rfl

theorem cwait (n : BitVec 6) : Statement (.cwait n) := by
  intro v0 h0
  replace h0 := Option.some.inj h0
  have b_n := n.isLt
  have w0 : v0.toNat = 3607101440 + n.toNat * 262144 := word1 h0 pow18 (by omega)
  clear h0
  generalize v0.toNat = m0 at w0
  have f28_4 : field m0 28 4 = 13 := field_at (117440512 + n.toNat * 262144) 13 (0) (by omega) (by omega) (by omega)
  have f24_4 : field m0 24 4 = 7 := field_at (0 + n.toNat * 262144) 7 (13) (by omega) (by omega) (by omega)
  have f0_18 : field m0 0 18 = 0 := field_at (0) 0 (13760 + n.toNat) (by omega) (by omega) (by omega)
  have v_n : fld m0 18 6 = n := fld_at (0) (215) (by omega) (by omega)
  simp only [decodeWord, decodeGroupD, decodeD7, f28_4, f24_4, f0_18, v_n]
  all_goals rfl

theorem cstat (d : BitVec 6) (sel : BitVec 3) : Statement (.cstat d sel) := by
  intro v0 h0
  replace h0 := Option.some.inj h0
  have b_d := d.isLt
  have b_sel := sel.isLt
  have w0 : v0.toNat = 3623878656 + d.toNat * 262144 + sel.toNat * 32768 := word2 h0 pow18 pow15 (by omega)
  clear h0
  generalize v0.toNat = m0 at w0
  have f28_4 : field m0 28 4 = 13 := field_at (134217728 + d.toNat * 262144 + sel.toNat * 32768) 13 (0) (by omega) (by omega) (by omega)
  have f24_4 : field m0 24 4 = 8 := field_at (0 + d.toNat * 262144 + sel.toNat * 32768) 8 (13) (by omega) (by omega) (by omega)
  have f0_15 : field m0 0 15 = 0 := field_at (0) 0 (110592 + d.toNat * 8 + sel.toNat) (by omega) (by omega) (by omega)
  have v_d : fld m0 18 6 = d := fld_at (0 + sel.toNat * 32768) (216) (by omega) (by omega)
  have v_sel : fld m0 15 3 = sel := fld_at (0) (13824 + d.toNat) (by omega) (by omega)
  simp only [decodeWord, decodeGroupD, decodeD8, f28_4, f24_4, f0_15, v_d, v_sel]
  all_goals rfl

theorem launch (d : BitVec 6) (sp : BitVec 5) (a : BitVec 6) : Statement (.launch d sp a) := by
  intro v0 h0
  replace h0 := Option.some.inj h0
  have b_d := d.isLt
  have b_sp := sp.isLt
  have b_a := a.isLt
  have w0 : v0.toNat = 3758096384 + d.toNat * 262144 + sp.toNat * 8192 + a.toNat * 128 := word3 h0 pow18 pow13 pow7 (by omega)
  clear h0
  generalize v0.toNat = m0 at w0
  have f28_4 : field m0 28 4 = 14 := field_at (0 + d.toNat * 262144 + sp.toNat * 8192 + a.toNat * 128) 14 (0) (by omega) (by omega) (by omega)
  have f24_4 : field m0 24 4 = 0 := field_at (0 + d.toNat * 262144 + sp.toNat * 8192 + a.toNat * 128) 0 (14) (by omega) (by omega) (by omega)
  have f0_7 : field m0 0 7 = 0 := field_at (0) 0 (29360128 + d.toNat * 2048 + sp.toNat * 64 + a.toNat) (by omega) (by omega) (by omega)
  have v_d : fld m0 18 6 = d := fld_at (0 + sp.toNat * 8192 + a.toNat * 128) (224) (by omega) (by omega)
  have v_sp : fld m0 13 5 = sp := fld_at (0 + a.toNat * 128) (14336 + d.toNat) (by omega) (by omega)
  have v_a : fld m0 7 6 = a := fld_at (0) (458752 + d.toNat * 32 + sp.toNat) (by omega) (by omega)
  simp only [decodeWord, decodeGroupE, decodeE0, f28_4, f24_4, f0_7, v_d, v_sp, v_a]
  all_goals rfl

theorem launchNb (d : BitVec 6) (sp : BitVec 5) (a : BitVec 6) : Statement (.launchNb d sp a) := by
  intro v0 h0
  replace h0 := Option.some.inj h0
  have b_d := d.isLt
  have b_sp := sp.isLt
  have b_a := a.isLt
  have w0 : v0.toNat = 3774873600 + d.toNat * 262144 + sp.toNat * 8192 + a.toNat * 128 := word3 h0 pow18 pow13 pow7 (by omega)
  clear h0
  generalize v0.toNat = m0 at w0
  have f28_4 : field m0 28 4 = 14 := field_at (16777216 + d.toNat * 262144 + sp.toNat * 8192 + a.toNat * 128) 14 (0) (by omega) (by omega) (by omega)
  have f24_4 : field m0 24 4 = 1 := field_at (0 + d.toNat * 262144 + sp.toNat * 8192 + a.toNat * 128) 1 (14) (by omega) (by omega) (by omega)
  have f0_7 : field m0 0 7 = 0 := field_at (0) 0 (29491200 + d.toNat * 2048 + sp.toNat * 64 + a.toNat) (by omega) (by omega) (by omega)
  have v_d : fld m0 18 6 = d := fld_at (0 + sp.toNat * 8192 + a.toNat * 128) (225) (by omega) (by omega)
  have v_sp : fld m0 13 5 = sp := fld_at (0 + a.toNat * 128) (14400 + d.toNat) (by omega) (by omega)
  have v_a : fld m0 7 6 = a := fld_at (0) (460800 + d.toNat * 32 + sp.toNat) (by omega) (by omega)
  simp only [decodeWord, decodeGroupE, decodeE1, f28_4, f24_4, f0_7, v_d, v_sp, v_a]
  all_goals rfl

theorem join (d : BitVec 6) (a : BitVec 6) : Statement (.join d a) := by
  intro v0 h0
  replace h0 := Option.some.inj h0
  have b_d := d.isLt
  have b_a := a.isLt
  have w0 : v0.toNat = 3791650816 + d.toNat * 262144 + a.toNat * 4096 := word2 h0 pow18 pow12 (by omega)
  clear h0
  generalize v0.toNat = m0 at w0
  have f28_4 : field m0 28 4 = 14 := field_at (33554432 + d.toNat * 262144 + a.toNat * 4096) 14 (0) (by omega) (by omega) (by omega)
  have f24_4 : field m0 24 4 = 2 := field_at (0 + d.toNat * 262144 + a.toNat * 4096) 2 (14) (by omega) (by omega) (by omega)
  have f0_12 : field m0 0 12 = 0 := field_at (0) 0 (925696 + d.toNat * 64 + a.toNat) (by omega) (by omega) (by omega)
  have v_d : fld m0 18 6 = d := fld_at (0 + a.toNat * 4096) (226) (by omega) (by omega)
  have v_a : fld m0 12 6 = a := fld_at (0) (14464 + d.toNat) (by omega) (by omega)
  simp only [decodeWord, decodeGroupE, decodeE2, f28_4, f24_4, f0_12, v_d, v_a]
  all_goals rfl

theorem post (a : BitVec 6) : Statement (.post a) := by
  intro v0 h0
  replace h0 := Option.some.inj h0
  have b_a := a.isLt
  have w0 : v0.toNat = 3808428032 + a.toNat * 262144 := word1 h0 pow18 (by omega)
  clear h0
  generalize v0.toNat = m0 at w0
  have f28_4 : field m0 28 4 = 14 := field_at (50331648 + a.toNat * 262144) 14 (0) (by omega) (by omega) (by omega)
  have f24_4 : field m0 24 4 = 3 := field_at (0 + a.toNat * 262144) 3 (14) (by omega) (by omega) (by omega)
  have f0_18 : field m0 0 18 = 0 := field_at (0) 0 (14528 + a.toNat) (by omega) (by omega) (by omega)
  have v_a : fld m0 18 6 = a := fld_at (0) (227) (by omega) (by omega)
  simp only [decodeWord, decodeGroupE, decodeE3, f28_4, f24_4, f0_18, v_a]
  all_goals rfl

theorem fork (a : BitVec 6) : Statement (.fork a) := by
  intro v0 h0
  replace h0 := Option.some.inj h0
  have b_a := a.isLt
  have w0 : v0.toNat = 3825205248 + a.toNat * 262144 := word1 h0 pow18 (by omega)
  clear h0
  generalize v0.toNat = m0 at w0
  have f28_4 : field m0 28 4 = 14 := field_at (67108864 + a.toNat * 262144) 14 (0) (by omega) (by omega) (by omega)
  have f24_4 : field m0 24 4 = 4 := field_at (0 + a.toNat * 262144) 4 (14) (by omega) (by omega) (by omega)
  have f0_18 : field m0 0 18 = 0 := field_at (0) 0 (14592 + a.toNat) (by omega) (by omega) (by omega)
  have v_a : fld m0 18 6 = a := fld_at (0) (228) (by omega) (by omega)
  simp only [decodeWord, decodeGroupE, decodeE4, f28_4, f24_4, f0_18, v_a]
  all_goals rfl

theorem joint : Statement (.joint) := by
  intro v0 h0
  replace h0 := Option.some.inj h0
  subst h0
  rfl

theorem bequeath (f : BitVec 6) (n : BitVec 3) (w : BitVec 3) (k : BitVec 6) : Statement (.bequeath f n w k) := by
  intro v0 h0
  replace h0 := Option.some.inj h0
  have b_f := f.isLt
  have b_n := n.isLt
  have b_w := w.isLt
  have b_k := k.isLt
  have w0 : v0.toNat = 3858759680 + f.toNat * 262144 + n.toNat * 32768 + w.toNat * 4096 + k.toNat * 64 := word4 h0 pow18 pow15 pow12 pow6 (by omega)
  clear h0
  generalize v0.toNat = m0 at w0
  have f28_4 : field m0 28 4 = 14 := field_at (100663296 + f.toNat * 262144 + n.toNat * 32768 + w.toNat * 4096 + k.toNat * 64) 14 (0) (by omega) (by omega) (by omega)
  have f24_4 : field m0 24 4 = 6 := field_at (0 + f.toNat * 262144 + n.toNat * 32768 + w.toNat * 4096 + k.toNat * 64) 6 (14) (by omega) (by omega) (by omega)
  have f0_6 : field m0 0 6 = 0 := field_at (0) 0 (60293120 + f.toNat * 4096 + n.toNat * 512 + w.toNat * 64 + k.toNat) (by omega) (by omega) (by omega)
  have v_f : fld m0 18 6 = f := fld_at (0 + n.toNat * 32768 + w.toNat * 4096 + k.toNat * 64) (230) (by omega) (by omega)
  have v_n : fld m0 15 3 = n := fld_at (0 + w.toNat * 4096 + k.toNat * 64) (14720 + f.toNat) (by omega) (by omega)
  have v_w : fld m0 12 3 = w := fld_at (0 + k.toNat * 64) (117760 + f.toNat * 8 + n.toNat) (by omega) (by omega)
  have v_k : fld m0 6 6 = k := fld_at (0) (942080 + f.toNat * 64 + n.toNat * 8 + w.toNat) (by omega) (by omega)
  simp only [decodeWord, decodeGroupE, decodeE6, f28_4, f24_4, f0_6, v_f, v_n, v_w, v_k]
  all_goals rfl

theorem estat (d : BitVec 6) (clr : BitVec 1) : Statement (.estat d clr) := by
  intro v0 h0
  replace h0 := Option.some.inj h0
  have b_d := d.isLt
  have b_clr := clr.isLt
  have w0 : v0.toNat = 3875536896 + d.toNat * 262144 + clr.toNat * 131072 := word2 h0 pow18 pow17 (by omega)
  clear h0
  generalize v0.toNat = m0 at w0
  have f28_4 : field m0 28 4 = 14 := field_at (117440512 + d.toNat * 262144 + clr.toNat * 131072) 14 (0) (by omega) (by omega) (by omega)
  have f24_4 : field m0 24 4 = 7 := field_at (0 + d.toNat * 262144 + clr.toNat * 131072) 7 (14) (by omega) (by omega) (by omega)
  have f0_17 : field m0 0 17 = 0 := field_at (0) 0 (29568 + d.toNat * 2 + clr.toNat) (by omega) (by omega) (by omega)
  have v_d : fld m0 18 6 = d := fld_at (0 + clr.toNat * 131072) (231) (by omega) (by omega)
  have v_clr : fld m0 17 1 = clr := fld_at (0) (14784 + d.toNat) (by omega) (by omega)
  simp only [decodeWord, decodeGroupE, decodeE7, f28_4, f24_4, f0_17, v_d, v_clr]
  all_goals rfl

theorem eclaim (f : BitVec 6) (n : BitVec 3) (w : BitVec 3) (k : BitVec 6) (l : BitVec 3) (slot : BitVec 2) : Statement (.eclaim f n w k l slot) := by
  intro v0 h0
  replace h0 := Option.some.inj h0
  have b_f := f.isLt
  have b_n := n.isLt
  have b_w := w.isLt
  have b_k := k.isLt
  have b_l := l.isLt
  have b_slot := slot.isLt
  have w0 : v0.toNat = 3892314112 + f.toNat * 262144 + n.toNat * 32768 + w.toNat * 4096 + k.toNat * 64 + l.toNat * 8 + slot.toNat * 2 := word6 h0 pow18 pow15 pow12 pow6 pow3 pow1 (by omega)
  clear h0
  generalize v0.toNat = m0 at w0
  have f28_4 : field m0 28 4 = 14 := field_at (134217728 + f.toNat * 262144 + n.toNat * 32768 + w.toNat * 4096 + k.toNat * 64 + l.toNat * 8 + slot.toNat * 2) 14 (0) (by omega) (by omega) (by omega)
  have f24_4 : field m0 24 4 = 8 := field_at (0 + f.toNat * 262144 + n.toNat * 32768 + w.toNat * 4096 + k.toNat * 64 + l.toNat * 8 + slot.toNat * 2) 8 (14) (by omega) (by omega) (by omega)
  have f0_1 : field m0 0 1 = 0 := field_at (0) 0 (1946157056 + f.toNat * 131072 + n.toNat * 16384 + w.toNat * 2048 + k.toNat * 32 + l.toNat * 4 + slot.toNat) (by omega) (by omega) (by omega)
  have v_f : fld m0 18 6 = f := fld_at (0 + n.toNat * 32768 + w.toNat * 4096 + k.toNat * 64 + l.toNat * 8 + slot.toNat * 2) (232) (by omega) (by omega)
  have v_n : fld m0 15 3 = n := fld_at (0 + w.toNat * 4096 + k.toNat * 64 + l.toNat * 8 + slot.toNat * 2) (14848 + f.toNat) (by omega) (by omega)
  have v_w : fld m0 12 3 = w := fld_at (0 + k.toNat * 64 + l.toNat * 8 + slot.toNat * 2) (118784 + f.toNat * 8 + n.toNat) (by omega) (by omega)
  have v_k : fld m0 6 6 = k := fld_at (0 + l.toNat * 8 + slot.toNat * 2) (950272 + f.toNat * 64 + n.toNat * 8 + w.toNat) (by omega) (by omega)
  have v_l : fld m0 3 3 = l := fld_at (0 + slot.toNat * 2) (60817408 + f.toNat * 4096 + n.toNat * 512 + w.toNat * 64 + k.toNat) (by omega) (by omega)
  have v_slot : fld m0 1 2 = slot := fld_at (0) (486539264 + f.toNat * 32768 + n.toNat * 4096 + w.toNat * 512 + k.toNat * 8 + l.toNat) (by omega) (by omega)
  simp only [decodeWord, decodeGroupE, decodeE8, f28_4, f24_4, f0_1, v_f, v_n, v_w, v_k, v_l, v_slot]
  all_goals rfl

theorem erelease (l : BitVec 3) : Statement (.erelease l) := by
  intro v0 h0
  replace h0 := Option.some.inj h0
  have b_l := l.isLt
  have w0 : v0.toNat = 3909091328 + l.toNat * 1048576 := word1 h0 pow20 (by omega)
  clear h0
  generalize v0.toNat = m0 at w0
  have f28_4 : field m0 28 4 = 14 := field_at (150994944 + l.toNat * 1048576) 14 (0) (by omega) (by omega) (by omega)
  have f24_4 : field m0 24 4 = 9 := field_at (0 + l.toNat * 1048576) 9 (14) (by omega) (by omega) (by omega)
  have f0_14 : field m0 0 14 = 0 := field_at (0) 0 (238592 + l.toNat * 64) (by omega) (by omega) (by omega)
  have f0_20 : field m0 0 20 = 0 := field_at (0) 0 (3728 + l.toNat) (by omega) (by omega) (by omega)
  have f23_1 : field m0 23 1 = 0 := field_at (0 + l.toNat * 1048576) 0 (233) (by omega) (by omega) (by omega)
  have v_l : fld m0 20 3 = l := fld_at (0) (466) (by omega) (by omega)
  simp only [decodeWord, decodeGroupE, decodeE9, f28_4, f24_4, f0_14, f0_20, f23_1, v_l]
  all_goals rfl

theorem ereleaseKey (l : BitVec 3) (k : BitVec 6) : Statement (.ereleaseKey l k) := by
  intro v0 h0
  replace h0 := Option.some.inj h0
  have b_l := l.isLt
  have b_k := k.isLt
  have w0 : v0.toNat = 3917479936 + l.toNat * 1048576 + k.toNat * 16384 := word2 h0 pow20 pow14 (by omega)
  clear h0
  generalize v0.toNat = m0 at w0
  have f28_4 : field m0 28 4 = 14 := field_at (159383552 + l.toNat * 1048576 + k.toNat * 16384) 14 (0) (by omega) (by omega) (by omega)
  have f24_4 : field m0 24 4 = 9 := field_at (8388608 + l.toNat * 1048576 + k.toNat * 16384) 9 (14) (by omega) (by omega) (by omega)
  have f0_14 : field m0 0 14 = 0 := field_at (0) 0 (239104 + l.toNat * 64 + k.toNat) (by omega) (by omega) (by omega)
  have f23_1 : field m0 23 1 = 1 := field_at (0 + l.toNat * 1048576 + k.toNat * 16384) 1 (233) (by omega) (by omega) (by omega)
  have v_l : fld m0 20 3 = l := fld_at (0 + k.toNat * 16384) (467) (by omega) (by omega)
  have v_k : fld m0 14 6 = k := fld_at (0) (3736 + l.toNat) (by omega) (by omega)
  simp only [decodeWord, decodeGroupE, decodeE9, f28_4, f24_4, f0_14, f23_1, v_l, v_k]
  simp

theorem eprobe (d : BitVec 6) (k : BitVec 6) (l : BitVec 3) : Statement (.eprobe d k l) := by
  intro v0 h0
  replace h0 := Option.some.inj h0
  have b_d := d.isLt
  have b_k := k.isLt
  have b_l := l.isLt
  have w0 : v0.toNat = 3925868544 + d.toNat * 262144 + k.toNat * 4096 + l.toNat * 512 := word3 h0 pow18 pow12 pow9 (by omega)
  clear h0
  generalize v0.toNat = m0 at w0
  have f28_4 : field m0 28 4 = 14 := field_at (167772160 + d.toNat * 262144 + k.toNat * 4096 + l.toNat * 512) 14 (0) (by omega) (by omega) (by omega)
  have f24_4 : field m0 24 4 = 10 := field_at (0 + d.toNat * 262144 + k.toNat * 4096 + l.toNat * 512) 10 (14) (by omega) (by omega) (by omega)
  have f0_9 : field m0 0 9 = 0 := field_at (0) 0 (7667712 + d.toNat * 512 + k.toNat * 8 + l.toNat) (by omega) (by omega) (by omega)
  have v_d : fld m0 18 6 = d := fld_at (0 + k.toNat * 4096 + l.toNat * 512) (234) (by omega) (by omega)
  have v_k : fld m0 12 6 = k := fld_at (0 + l.toNat * 512) (14976 + d.toNat) (by omega) (by omega)
  have v_l : fld m0 9 3 = l := fld_at (0) (958464 + d.toNat * 64 + k.toNat) (by omega) (by omega)
  simp only [decodeWord, decodeGroupE, decodeEA, f28_4, f24_4, f0_9, v_d, v_k, v_l]
  all_goals rfl

theorem barInit (b : BitVec 4) (n : BitVec 12) : Statement (.barInit b n) := by
  intro v0 h0
  replace h0 := Option.some.inj h0
  have b_b := b.isLt
  have b_n := n.isLt
  have w0 : v0.toNat = 3942645760 + b.toNat * 1048576 + n.toNat * 256 := word2 h0 pow20 pow8 (by omega)
  clear h0
  generalize v0.toNat = m0 at w0
  have f28_4 : field m0 28 4 = 14 := field_at (184549376 + b.toNat * 1048576 + n.toNat * 256) 14 (0) (by omega) (by omega) (by omega)
  have f24_4 : field m0 24 4 = 11 := field_at (0 + b.toNat * 1048576 + n.toNat * 256) 11 (14) (by omega) (by omega) (by omega)
  have f0_8 : field m0 0 8 = 0 := field_at (0) 0 (15400960 + b.toNat * 4096 + n.toNat) (by omega) (by omega) (by omega)
  have v_b : fld m0 20 4 = b := fld_at (0 + n.toNat * 256) (235) (by omega) (by omega)
  have v_n : fld m0 8 12 = n := fld_at (0) (3760 + b.toNat) (by omega) (by omega)
  simp only [decodeWord, decodeGroupE, decodeEB, f28_4, f24_4, f0_8, v_b, v_n]
  all_goals rfl

theorem barArrive (b : BitVec 4) : Statement (.barArrive b) := by
  intro v0 h0
  replace h0 := Option.some.inj h0
  have b_b := b.isLt
  have w0 : v0.toNat = 3959422976 + b.toNat * 1048576 := word1 h0 pow20 (by omega)
  clear h0
  generalize v0.toNat = m0 at w0
  have f28_4 : field m0 28 4 = 14 := field_at (201326592 + b.toNat * 1048576) 14 (0) (by omega) (by omega) (by omega)
  have f24_4 : field m0 24 4 = 12 := field_at (0 + b.toNat * 1048576) 12 (14) (by omega) (by omega) (by omega)
  have f0_20 : field m0 0 20 = 0 := field_at (0) 0 (3776 + b.toNat) (by omega) (by omega) (by omega)
  have v_b : fld m0 20 4 = b := fld_at (0) (236) (by omega) (by omega)
  simp only [decodeWord, decodeGroupE, decodeEC, f28_4, f24_4, f0_20, v_b]
  all_goals rfl

theorem barWait (b : BitVec 4) (pw : BitVec 1) : Statement (.barWait b pw) := by
  intro v0 h0
  replace h0 := Option.some.inj h0
  have b_b := b.isLt
  have b_pw := pw.isLt
  have w0 : v0.toNat = 3976200192 + b.toNat * 1048576 + pw.toNat * 524288 := word2 h0 pow20 pow19 (by omega)
  clear h0
  generalize v0.toNat = m0 at w0
  have f28_4 : field m0 28 4 = 14 := field_at (218103808 + b.toNat * 1048576 + pw.toNat * 524288) 14 (0) (by omega) (by omega) (by omega)
  have f24_4 : field m0 24 4 = 13 := field_at (0 + b.toNat * 1048576 + pw.toNat * 524288) 13 (14) (by omega) (by omega) (by omega)
  have f0_19 : field m0 0 19 = 0 := field_at (0) 0 (7584 + b.toNat * 2 + pw.toNat) (by omega) (by omega) (by omega)
  have v_b : fld m0 20 4 = b := fld_at (0 + pw.toNat * 524288) (237) (by omega) (by omega)
  have v_pw : fld m0 19 1 = pw := fld_at (0) (3792 + b.toNat) (by omega) (by omega)
  simp only [decodeWord, decodeGroupE, decodeED, f28_4, f24_4, f0_19, v_b, v_pw]
  all_goals rfl

theorem trap (code : BitVec 12) : Statement (.trap code) := by
  intro v0 h0
  replace h0 := Option.some.inj h0
  have b_code := code.isLt
  have w0 : v0.toNat = 4026531840 + code.toNat * 4096 := word1 h0 pow12 (by omega)
  clear h0
  generalize v0.toNat = m0 at w0
  have f28_4 : field m0 28 4 = 15 := field_at (0 + code.toNat * 4096) 15 (0) (by omega) (by omega) (by omega)
  have f24_4 : field m0 24 4 = 0 := field_at (0 + code.toNat * 4096) 0 (15) (by omega) (by omega) (by omega)
  have f0_12 : field m0 0 12 = 0 := field_at (0) 0 (983040 + code.toNat) (by omega) (by omega) (by omega)
  have v_code : fld m0 12 12 = code := fld_at (0) (240) (by omega) (by omega)
  simp only [decodeWord, decodeGroupF, decodeF0, f28_4, f24_4, f0_12, v_code]
  all_goals rfl

theorem rdsr (d : BitVec 6) (sr : BitVec 8) : Statement (.rdsr d sr) := by
  intro v0 h0
  replace h0 := Option.some.inj h0
  have b_d := d.isLt
  have b_sr := sr.isLt
  have w0 : v0.toNat = 4043309056 + d.toNat * 262144 + sr.toNat * 1024 := word2 h0 pow18 pow10 (by omega)
  clear h0
  generalize v0.toNat = m0 at w0
  have f28_4 : field m0 28 4 = 15 := field_at (16777216 + d.toNat * 262144 + sr.toNat * 1024) 15 (0) (by omega) (by omega) (by omega)
  have f24_4 : field m0 24 4 = 1 := field_at (0 + d.toNat * 262144 + sr.toNat * 1024) 1 (15) (by omega) (by omega) (by omega)
  have f0_10 : field m0 0 10 = 0 := field_at (0) 0 (3948544 + d.toNat * 256 + sr.toNat) (by omega) (by omega) (by omega)
  have v_d : fld m0 18 6 = d := fld_at (0 + sr.toNat * 1024) (241) (by omega) (by omega)
  have v_sr : fld m0 10 8 = sr := fld_at (0) (15424 + d.toNat) (by omega) (by omega)
  simp only [decodeWord, decodeGroupF, decodeF1, f28_4, f24_4, f0_10, v_d, v_sr]
  all_goals rfl

theorem wrsr (a : BitVec 6) (sr : BitVec 8) : Statement (.wrsr a sr) := by
  intro v0 h0
  replace h0 := Option.some.inj h0
  have b_a := a.isLt
  have b_sr := sr.isLt
  have w0 : v0.toNat = 4060086272 + a.toNat * 262144 + sr.toNat * 1024 := word2 h0 pow18 pow10 (by omega)
  clear h0
  generalize v0.toNat = m0 at w0
  have f28_4 : field m0 28 4 = 15 := field_at (33554432 + a.toNat * 262144 + sr.toNat * 1024) 15 (0) (by omega) (by omega) (by omega)
  have f24_4 : field m0 24 4 = 2 := field_at (0 + a.toNat * 262144 + sr.toNat * 1024) 2 (15) (by omega) (by omega) (by omega)
  have f0_10 : field m0 0 10 = 0 := field_at (0) 0 (3964928 + a.toNat * 256 + sr.toNat) (by omega) (by omega) (by omega)
  have v_a : fld m0 18 6 = a := fld_at (0 + sr.toNat * 1024) (242) (by omega) (by omega)
  have v_sr : fld m0 10 8 = sr := fld_at (0) (15488 + a.toNat) (by omega) (by omega)
  simp only [decodeWord, decodeGroupF, decodeF2, f28_4, f24_4, f0_10, v_a, v_sr]
  all_goals rfl

theorem emuget (d : BitVec 6) (o : BitVec 3) : Statement (.emuget d o) := by
  intro v0 h0
  replace h0 := Option.some.inj h0
  have b_d := d.isLt
  have b_o := o.isLt
  have w0 : v0.toNat = 4076863488 + d.toNat * 262144 + o.toNat * 32768 := word2 h0 pow18 pow15 (by omega)
  clear h0
  generalize v0.toNat = m0 at w0
  have f28_4 : field m0 28 4 = 15 := field_at (50331648 + d.toNat * 262144 + o.toNat * 32768) 15 (0) (by omega) (by omega) (by omega)
  have f24_4 : field m0 24 4 = 3 := field_at (0 + d.toNat * 262144 + o.toNat * 32768) 3 (15) (by omega) (by omega) (by omega)
  have f0_15 : field m0 0 15 = 0 := field_at (0) 0 (124416 + d.toNat * 8 + o.toNat) (by omega) (by omega) (by omega)
  have v_d : fld m0 18 6 = d := fld_at (0 + o.toNat * 32768) (243) (by omega) (by omega)
  have v_o : fld m0 15 3 = o := fld_at (0) (15552 + d.toNat) (by omega) (by omega)
  simp only [decodeWord, decodeGroupF, decodeF3, f28_4, f24_4, f0_15, v_d, v_o]
  all_goals rfl

theorem emuput (o : BitVec 3) (a : BitVec 6) : Statement (.emuput o a) := by
  intro v0 h0
  replace h0 := Option.some.inj h0
  have b_o := o.isLt
  have b_a := a.isLt
  have w0 : v0.toNat = 4093640704 + o.toNat * 2097152 + a.toNat * 4096 := word2 h0 pow21 pow12 (by omega)
  clear h0
  generalize v0.toNat = m0 at w0
  have f28_4 : field m0 28 4 = 15 := field_at (67108864 + o.toNat * 2097152 + a.toNat * 4096) 15 (0) (by omega) (by omega) (by omega)
  have f24_4 : field m0 24 4 = 4 := field_at (0 + o.toNat * 2097152 + a.toNat * 4096) 4 (15) (by omega) (by omega) (by omega)
  have f0_12 : field m0 0 12 = 0 := field_at (0) 0 (999424 + o.toNat * 512 + a.toNat) (by omega) (by omega) (by omega)
  have f18_3 : field m0 18 3 = 0 := field_at (0 + a.toNat * 4096) 0 (1952 + o.toNat) (by omega) (by omega) (by omega)
  have v_o : fld m0 21 3 = o := fld_at (0 + a.toNat * 4096) (244) (by omega) (by omega)
  have v_a : fld m0 12 6 = a := fld_at (0) (15616 + o.toNat * 8) (by omega) (by omega)
  simp only [decodeWord, decodeGroupF, decodeF4, f28_4, f24_4, f0_12, f18_3, v_o, v_a]
  all_goals rfl

theorem emurd (d : BitVec 6) (kind : BitVec 3) (idx : BitVec 6) (part : BitVec 4) : Statement (.emurd d kind idx part) := by
  intro v0 h0
  replace h0 := Option.some.inj h0
  have b_d := d.isLt
  have b_kind := kind.isLt
  have b_idx := idx.isLt
  have b_part := part.isLt
  have w0 : v0.toNat = 4110417920 + d.toNat * 262144 + kind.toNat * 32768 + idx.toNat * 512 + part.toNat * 32 := word4 h0 pow18 pow15 pow9 pow5 (by omega)
  clear h0
  generalize v0.toNat = m0 at w0
  have f28_4 : field m0 28 4 = 15 := field_at (83886080 + d.toNat * 262144 + kind.toNat * 32768 + idx.toNat * 512 + part.toNat * 32) 15 (0) (by omega) (by omega) (by omega)
  have f24_4 : field m0 24 4 = 5 := field_at (0 + d.toNat * 262144 + kind.toNat * 32768 + idx.toNat * 512 + part.toNat * 32) 5 (15) (by omega) (by omega) (by omega)
  have f0_5 : field m0 0 5 = 0 := field_at (0) 0 (128450560 + d.toNat * 8192 + kind.toNat * 1024 + idx.toNat * 16 + part.toNat) (by omega) (by omega) (by omega)
  have v_d : fld m0 18 6 = d := fld_at (0 + kind.toNat * 32768 + idx.toNat * 512 + part.toNat * 32) (245) (by omega) (by omega)
  have v_kind : fld m0 15 3 = kind := fld_at (0 + idx.toNat * 512 + part.toNat * 32) (15680 + d.toNat) (by omega) (by omega)
  have v_idx : fld m0 9 6 = idx := fld_at (0 + part.toNat * 32) (125440 + d.toNat * 8 + kind.toNat) (by omega) (by omega)
  have v_part : fld m0 5 4 = part := fld_at (0) (8028160 + d.toNat * 512 + kind.toNat * 64 + idx.toNat) (by omega) (by omega)
  simp only [decodeWord, decodeGroupF, decodeF5, f28_4, f24_4, f0_5, v_d, v_kind, v_idx, v_part]
  all_goals rfl

theorem emuwr (a : BitVec 6) (kind : BitVec 3) (idx : BitVec 6) (part : BitVec 4) : Statement (.emuwr a kind idx part) := by
  intro v0 h0
  replace h0 := Option.some.inj h0
  have b_a := a.isLt
  have b_kind := kind.isLt
  have b_idx := idx.isLt
  have b_part := part.isLt
  have w0 : v0.toNat = 4127195136 + a.toNat * 262144 + kind.toNat * 32768 + idx.toNat * 512 + part.toNat * 32 := word4 h0 pow18 pow15 pow9 pow5 (by omega)
  clear h0
  generalize v0.toNat = m0 at w0
  have f28_4 : field m0 28 4 = 15 := field_at (100663296 + a.toNat * 262144 + kind.toNat * 32768 + idx.toNat * 512 + part.toNat * 32) 15 (0) (by omega) (by omega) (by omega)
  have f24_4 : field m0 24 4 = 6 := field_at (0 + a.toNat * 262144 + kind.toNat * 32768 + idx.toNat * 512 + part.toNat * 32) 6 (15) (by omega) (by omega) (by omega)
  have f0_5 : field m0 0 5 = 0 := field_at (0) 0 (128974848 + a.toNat * 8192 + kind.toNat * 1024 + idx.toNat * 16 + part.toNat) (by omega) (by omega) (by omega)
  have v_a : fld m0 18 6 = a := fld_at (0 + kind.toNat * 32768 + idx.toNat * 512 + part.toNat * 32) (246) (by omega) (by omega)
  have v_kind : fld m0 15 3 = kind := fld_at (0 + idx.toNat * 512 + part.toNat * 32) (15744 + a.toNat) (by omega) (by omega)
  have v_idx : fld m0 9 6 = idx := fld_at (0 + part.toNat * 32) (125952 + a.toNat * 8 + kind.toNat) (by omega) (by omega)
  have v_part : fld m0 5 4 = part := fld_at (0) (8060928 + a.toNat * 512 + kind.toNat * 64 + idx.toNat) (by omega) (by omega)
  simp only [decodeWord, decodeGroupF, decodeF6, f28_4, f24_4, f0_5, v_a, v_kind, v_idx, v_part]
  all_goals rfl

theorem emuret (nc : BitVec 1) (at_ : BitVec 2) (a : BitVec 6) : Statement (.emuret nc at_ a) := by
  intro v0 h0
  replace h0 := Option.some.inj h0
  have b_nc := nc.isLt
  have b_at_ := at_.isLt
  have b_a := a.isLt
  have w0 : v0.toNat = 4143972352 + nc.toNat * 8388608 + at_.toNat * 2097152 + a.toNat * 4096 := word3 h0 pow23 pow21 pow12 (by omega)
  clear h0
  generalize v0.toNat = m0 at w0
  have f28_4 : field m0 28 4 = 15 := field_at (117440512 + nc.toNat * 8388608 + at_.toNat * 2097152 + a.toNat * 4096) 15 (0) (by omega) (by omega) (by omega)
  have f24_4 : field m0 24 4 = 7 := field_at (0 + nc.toNat * 8388608 + at_.toNat * 2097152 + a.toNat * 4096) 7 (15) (by omega) (by omega) (by omega)
  have f0_12 : field m0 0 12 = 0 := field_at (0) 0 (1011712 + nc.toNat * 2048 + at_.toNat * 512 + a.toNat) (by omega) (by omega) (by omega)
  have f18_3 : field m0 18 3 = 0 := field_at (0 + a.toNat * 4096) 0 (1976 + nc.toNat * 4 + at_.toNat) (by omega) (by omega) (by omega)
  have v_nc : fld m0 23 1 = nc := fld_at (0 + at_.toNat * 2097152 + a.toNat * 4096) (247) (by omega) (by omega)
  have v_at_ : fld m0 21 2 = at_ := fld_at (0 + a.toNat * 4096) (494 + nc.toNat) (by omega) (by omega)
  have v_a : fld m0 12 6 = a := fld_at (0) (15808 + nc.toNat * 32 + at_.toNat * 8) (by omega) (by omega)
  simp only [decodeWord, decodeGroupF, decodeF7, f28_4, f24_4, f0_12, f18_3, v_nc, v_at_, v_a]
  all_goals rfl

theorem dfma (d : BitVec 6) (a : BitVec 6) (b : BitVec 6) (c : BitVec 6) : Statement (.dfma d a b c) := by
  intro v0 h0
  replace h0 := Option.some.inj h0
  have b_d := d.isLt
  have b_a := a.isLt
  have b_b := b.isLt
  have b_c := c.isLt
  have w0 : v0.toNat = 4160749568 + d.toNat * 262144 + a.toNat * 4096 + b.toNat * 64 + c.toNat * 1 := word4 h0 pow18 pow12 pow6 pow0 (by omega)
  clear h0
  generalize v0.toNat = m0 at w0
  have f28_4 : field m0 28 4 = 15 := field_at (134217728 + d.toNat * 262144 + a.toNat * 4096 + b.toNat * 64 + c.toNat) 15 (0) (by omega) (by omega) (by omega)
  have f24_4 : field m0 24 4 = 8 := field_at (0 + d.toNat * 262144 + a.toNat * 4096 + b.toNat * 64 + c.toNat) 8 (15) (by omega) (by omega) (by omega)
  have v_d : fld m0 18 6 = d := fld_at (0 + a.toNat * 4096 + b.toNat * 64 + c.toNat) (248) (by omega) (by omega)
  have v_a : fld m0 12 6 = a := fld_at (0 + b.toNat * 64 + c.toNat) (15872 + d.toNat) (by omega) (by omega)
  have v_b : fld m0 6 6 = b := fld_at (0 + c.toNat) (1015808 + d.toNat * 64 + a.toNat) (by omega) (by omega)
  have v_c : fld m0 0 6 = c := fld_at (0) (65011712 + d.toNat * 4096 + a.toNat * 64 + b.toNat) (by omega) (by omega)
  simp only [decodeWord, decodeGroupF, decodeF8, f28_4, f24_4, v_d, v_a, v_b, v_c]
  all_goals rfl

theorem dop (d : BitVec 6) (a : BitVec 6) (b : BitVec 6) (fn : BitVec 6) : Statement (.dop d a b fn) := by
  intro v0 h0
  replace h0 := Option.some.inj h0
  have b_d := d.isLt
  have b_a := a.isLt
  have b_b := b.isLt
  have b_fn := fn.isLt
  have w0 : v0.toNat = 4177526784 + d.toNat * 262144 + a.toNat * 4096 + b.toNat * 64 + fn.toNat * 1 := word4 h0 pow18 pow12 pow6 pow0 (by omega)
  clear h0
  generalize v0.toNat = m0 at w0
  have f28_4 : field m0 28 4 = 15 := field_at (150994944 + d.toNat * 262144 + a.toNat * 4096 + b.toNat * 64 + fn.toNat) 15 (0) (by omega) (by omega) (by omega)
  have f24_4 : field m0 24 4 = 9 := field_at (0 + d.toNat * 262144 + a.toNat * 4096 + b.toNat * 64 + fn.toNat) 9 (15) (by omega) (by omega) (by omega)
  have v_d : fld m0 18 6 = d := fld_at (0 + a.toNat * 4096 + b.toNat * 64 + fn.toNat) (249) (by omega) (by omega)
  have v_a : fld m0 12 6 = a := fld_at (0 + b.toNat * 64 + fn.toNat) (15936 + d.toNat) (by omega) (by omega)
  have v_b : fld m0 6 6 = b := fld_at (0 + fn.toNat) (1019904 + d.toNat * 64 + a.toNat) (by omega) (by omega)
  have v_fn : fld m0 0 6 = fn := fld_at (0) (65273856 + d.toNat * 4096 + a.toNat * 64 + b.toNat) (by omega) (by omega)
  simp only [decodeWord, decodeGroupF, decodeF9, f28_4, f24_4, v_d, v_a, v_b, v_fn]
  all_goals rfl

theorem dcmp (d : BitVec 6) (a : BitVec 6) (b : BitVec 6) (fn : BitVec 6) : Statement (.dcmp d a b fn) := by
  intro v0 h0
  replace h0 := Option.some.inj h0
  have b_d := d.isLt
  have b_a := a.isLt
  have b_b := b.isLt
  have b_fn := fn.isLt
  have w0 : v0.toNat = 4194304000 + d.toNat * 262144 + a.toNat * 4096 + b.toNat * 64 + fn.toNat * 1 := word4 h0 pow18 pow12 pow6 pow0 (by omega)
  clear h0
  generalize v0.toNat = m0 at w0
  have f28_4 : field m0 28 4 = 15 := field_at (167772160 + d.toNat * 262144 + a.toNat * 4096 + b.toNat * 64 + fn.toNat) 15 (0) (by omega) (by omega) (by omega)
  have f24_4 : field m0 24 4 = 10 := field_at (0 + d.toNat * 262144 + a.toNat * 4096 + b.toNat * 64 + fn.toNat) 10 (15) (by omega) (by omega) (by omega)
  have v_d : fld m0 18 6 = d := fld_at (0 + a.toNat * 4096 + b.toNat * 64 + fn.toNat) (250) (by omega) (by omega)
  have v_a : fld m0 12 6 = a := fld_at (0 + b.toNat * 64 + fn.toNat) (16000 + d.toNat) (by omega) (by omega)
  have v_b : fld m0 6 6 = b := fld_at (0 + fn.toNat) (1024000 + d.toNat * 64 + a.toNat) (by omega) (by omega)
  have v_fn : fld m0 0 6 = fn := fld_at (0) (65536000 + d.toNat * 4096 + a.toNat * 64 + b.toNat) (by omega) (by omega)
  simp only [decodeWord, decodeGroupF, decodeFA, f28_4, f24_4, v_d, v_a, v_b, v_fn]
  all_goals rfl

theorem dcvt (d : BitVec 6) (a : BitVec 6) (dir : BitVec 2) : Statement (.dcvt d a dir) := by
  intro v0 h0
  replace h0 := Option.some.inj h0
  have b_d := d.isLt
  have b_a := a.isLt
  have b_dir := dir.isLt
  have w0 : v0.toNat = 4211081216 + d.toNat * 262144 + a.toNat * 4096 + dir.toNat * 1024 := word3 h0 pow18 pow12 pow10 (by omega)
  clear h0
  generalize v0.toNat = m0 at w0
  have f28_4 : field m0 28 4 = 15 := field_at (184549376 + d.toNat * 262144 + a.toNat * 4096 + dir.toNat * 1024) 15 (0) (by omega) (by omega) (by omega)
  have f24_4 : field m0 24 4 = 11 := field_at (0 + d.toNat * 262144 + a.toNat * 4096 + dir.toNat * 1024) 11 (15) (by omega) (by omega) (by omega)
  have f0_10 : field m0 0 10 = 0 := field_at (0) 0 (4112384 + d.toNat * 256 + a.toNat * 4 + dir.toNat) (by omega) (by omega) (by omega)
  have v_d : fld m0 18 6 = d := fld_at (0 + a.toNat * 4096 + dir.toNat * 1024) (251) (by omega) (by omega)
  have v_a : fld m0 12 6 = a := fld_at (0 + dir.toNat * 1024) (16064 + d.toNat) (by omega) (by omega)
  have v_dir : fld m0 10 2 = dir := fld_at (0) (1028096 + d.toNat * 64 + a.toNat) (by omega) (by omega)
  simp only [decodeWord, decodeGroupF, decodeFB, f28_4, f24_4, f0_10, v_d, v_a, v_dir]
  all_goals rfl

theorem endOfText (word : BitVec 32) : Statement (.endOfText word) := fun _ h => by simp [encode] at h

theorem reservedWord (word : BitVec 32) : Statement (.reservedWord word) := fun _ h => by simp [encode] at h

theorem emulationEntry (word : BitVec 32) (reason : Nat) : Statement (.emulationEntry word reason) := fun _ h => by simp [encode] at h

theorem collieHandlerEntry (word : BitVec 32) (reason : Nat) : Statement (.collieHandlerEntry word reason) := fun _ h => by simp [encode] at h

theorem guardHandlerEntry (word : BitVec 32) : Statement (.guardHandlerEntry word) := fun _ h => by simp [encode] at h

theorem mcVectorEntry (entry : Nat) (word : BitVec 32) (etrap : Nat) (reason : Nat) : Statement (.mcVectorEntry entry word etrap reason) := fun _ h => by simp [encode] at h

theorem runStart (core : Nat) : Statement (.runStart core) := fun _ h => by simp [encode] at h

theorem resultArrival (who : Agent) (id : Nat) : Statement (.resultArrival who id) := fun _ h => by simp [encode] at h

theorem windowSpillFillDone (core : Nat) (slot : Nat) (lead : Nat) : Statement (.windowSpillFillDone core slot lead) := fun _ h => by simp [encode] at h

theorem yieldWake (core : Nat) (slot : Nat) (lead : Nat) : Statement (.yieldWake core slot lead) := fun _ h => by simp [encode] at h

theorem monitorWriteWake (who : Agent) : Statement (.monitorWriteWake who) := fun _ h => by simp [encode] at h

theorem waitmonTimeout (who : Agent) : Statement (.waitmonTimeout who) := fun _ h => by simp [encode] at h

theorem spuriousWake (who : Agent) : Statement (.spuriousWake who) := fun _ h => by simp [encode] at h

theorem queueDataArrival (core : Nat) (slot : Nat) (q : Nat) (idx : Nat) : Statement (.queueDataArrival core slot q idx) := fun _ h => by simp [encode] at h

theorem storePerform (id : Nat) : Statement (.storePerform id) := fun _ h => by simp [encode] at h

theorem fbRemoteAccessArrival (src : Nat) (owner : Nat) (acc : RemoteAccess) : Statement (.fbRemoteAccessArrival src owner acc) := fun _ h => by simp [encode] at h

theorem fbAcknowledgement (id : Nat) : Statement (.fbAcknowledgement id) := fun _ h => by simp [encode] at h

theorem fbGrant (dst : Nat) (flits : Nat) : Statement (.fbGrant dst flits) := fun _ h => by simp [encode] at h

theorem fbAccessTimeout (id : Nat) : Statement (.fbAccessTimeout id) := fun _ h => by simp [encode] at h

theorem domainLinkDown (device : Nat) : Statement (.domainLinkDown device) := fun _ h => by simp [encode] at h

theorem trapReportWrite (idx : Nat) : Statement (.trapReportWrite idx) := fun _ h => by simp [encode] at h

theorem versionCommit (wg : Nat) : Statement (.versionCommit wg) := fun _ h => by simp [encode] at h

theorem workgroupSave (wg : Nat) : Statement (.workgroupSave wg) := fun _ h => by simp [encode] at h

theorem preemptionDeadline (part : Nat) : Statement (.preemptionDeadline part) := fun _ h => by simp [encode] at h

theorem urgentScanOut (core : Nat) : Statement (.urgentScanOut core) := fun _ h => by simp [encode] at h

theorem translationFaultRecord (idx : Nat) : Statement (.translationFaultRecord idx) := fun _ h => by simp [encode] at h

theorem packetAccept (die : Nat) (part : Nat) : Statement (.packetAccept die part) := fun _ h => by simp [encode] at h

theorem workgroupPlacement (die : Nat) : Statement (.workgroupPlacement die) := fun _ h => by simp [encode] at h

theorem warpBirth (wg : Nat) : Statement (.warpBirth wg) := fun _ h => by simp [encode] at h

theorem warpRelease (core : Nat) (slot : Nat) : Statement (.warpRelease core slot) := fun _ h => by simp [encode] at h

theorem dieStealRequest (ctx : Nat) (lineage : Nat) (thief : Nat) : Statement (.dieStealRequest ctx lineage thief) := fun _ h => by simp [encode] at h

theorem dieStealReply (idx : Nat) : Statement (.dieStealReply idx) := fun _ h => by simp [encode] at h

theorem workgroupSuspend (wg : Nat) : Statement (.workgroupSuspend wg) := fun _ h => by simp [encode] at h

theorem workgroupRestore (wg : Nat) : Statement (.workgroupRestore wg) := fun _ h => by simp [encode] at h

theorem taskStart (core : Nat) (part : Nat) : Statement (.taskStart core part) := fun _ h => by simp [encode] at h

theorem taskStealRequest (thief : Nat) (part : Nat) : Statement (.taskStealRequest thief part) := fun _ h => by simp [encode] at h

theorem taskStealReply (idx : Nat) : Statement (.taskStealReply idx) := fun _ h => by simp [encode] at h

theorem stealBackoffExpiry (core : Nat) (part : Nat) : Statement (.stealBackoffExpiry core part) := fun _ h => by simp [encode] at h

theorem gridRetire (ctx : Nat) (lineage : Nat) : Statement (.gridRetire ctx lineage) := fun _ h => by simp [encode] at h

theorem energyRefill : Statement (.energyRefill) := fun _ h => by simp [encode] at h

theorem copyUnitMove (id : Nat) : Statement (.copyUnitMove id) := fun _ h => by simp [encode] at h

theorem copyComplete (id : Nat) : Statement (.copyComplete id) := fun _ h => by simp [encode] at h

theorem tileOpStart (id : Nat) : Statement (.tileOpStart id) := fun _ h => by simp [encode] at h

theorem tileDrain (id : Nat) : Statement (.tileDrain id) := fun _ h => by simp [encode] at h

theorem tileOpComplete (id : Nat) : Statement (.tileOpComplete id) := fun _ h => by simp [encode] at h

theorem estateArrival (id : Nat) : Statement (.estateArrival id) := fun _ h => by simp [encode] at h

theorem estateExpiry (ctx : Nat) (key : Nat) : Statement (.estateExpiry ctx key) := fun _ h => by simp [encode] at h

theorem strayRecordWrite (ctx : Nat) : Statement (.strayRecordWrite ctx) := fun _ h => by simp [encode] at h

theorem lqdoor (fn : Nat) (die : Nat) (value : BitVec 64) : Statement (.lqdoor fn die value) := fun _ h => by simp [encode] at h

theorem fqanswer (fn : Nat) (seq : Nat) (unresolvable : Bool) : Statement (.fqanswer fn seq unresolvable) := fun _ h => by simp [encode] at h

theorem pstatLostClear (fn : Nat) : Statement (.pstatLostClear fn) := fun _ h => by simp [encode] at h

theorem registerWrite (fn : Nat) (off : Nat) (value : BitVec 64) : Statement (.registerWrite fn off value) := fun _ h => by simp [encode] at h

theorem apertureAccess (fn : Nat) (off : Nat) (write : Bool) (data : List (BitVec 8)) : Statement (.apertureAccess fn off write data) := fun _ h => by simp [encode] at h

theorem preempt (fn : Nat) : Statement (.preempt fn) := fun _ h => by simp [encode] at h

theorem urgent (fn : Nat) : Statement (.urgent fn) := fun _ h => by simp [encode] at h

theorem resume (fn : Nat) : Statement (.resume fn) := fun _ h => by simp [encode] at h

theorem inval (fn : Nat) : Statement (.inval fn) := fun _ h => by simp [encode] at h

theorem replace (fn : Nat) : Statement (.replace fn) := fun _ h => by simp [encode] at h

theorem ctxkill (fn : Nat) : Statement (.ctxkill fn) := fun _ h => by simp [encode] at h

theorem layout (fn : Nat) : Statement (.layout fn) := fun _ h => by simp [encode] at h

theorem carve (fn : Nat) : Statement (.carve fn) := fun _ h => by simp [encode] at h

theorem carveSwitch : Statement (.carveSwitch) := fun _ h => by simp [encode] at h

theorem preset (fn : Nat) : Statement (.preset fn) := fun _ h => by simp [encode] at h

theorem dommap (fn : Nat) : Statement (.dommap fn) := fun _ h => by simp [encode] at h

theorem commandComplete (fn : Nat) : Statement (.commandComplete fn) := fun _ h => by simp [encode] at h

theorem replaceRetired (idx : Nat) : Statement (.replaceRetired idx) := fun _ h => by simp [encode] at h

theorem eventRingWrite (fn : Nat) : Statement (.eventRingWrite fn) := fun _ h => by simp [encode] at h

theorem partitionReset (part : Nat) (cause : Nat) : Statement (.partitionReset part cause) := fun _ h => by simp [encode] at h

theorem functionLevelReset (vf : Nat) : Statement (.functionLevelReset vf) := fun _ h => by simp [encode] at h

theorem vfDisable : Statement (.vfDisable) := fun _ h => by simp [encode] at h

theorem memoryError (pa : Nat) (accessor : Nat) : Statement (.memoryError pa accessor) := fun _ h => by simp [encode] at h

theorem scrubComplete (part : Nat) : Statement (.scrubComplete part) := fun _ h => by simp [encode] at h

theorem ideKm (stream : Nat) (rx : Bool) (keySet : Nat) (key : BitVec 256) : Statement (.ideKm stream rx keySet key) := fun _ h => by simp [encode] at h

theorem ereset (unit : Nat) (index : Nat) : Statement (.ereset unit index) := fun _ h => by simp [encode] at h

theorem engineReset : Statement (.engineReset) := fun _ h => by simp [encode] at h

theorem engineActivation (component : Nat) (ok : Bool) : Statement (.engineActivation component ok) := fun _ h => by simp [encode] at h

theorem packageColdReset : Statement (.packageColdReset) := fun _ h => by simp [encode] at h

theorem warm : Statement (.warm) := fun _ h => by simp [encode] at h

theorem selfTestComplete (failing : List Nat) : Statement (.selfTestComplete failing) := fun _ h => by simp [encode] at h

theorem controllerReset : Statement (.controllerReset) := fun _ h => by simp [encode] at h

theorem watchdog : Statement (.watchdog) := fun _ h => by simp [encode] at h

theorem telemetryRefresh : Statement (.telemetryRefresh) := fun _ h => by simp [encode] at h

theorem gettelem (index : Nat) : Statement (.gettelem index) := fun _ h => by simp [encode] at h

theorem getVersion (req : List (BitVec 8)) : Statement (.getVersion req) := fun _ h => by simp [encode] at h

theorem getCapabilities (req : List (BitVec 8)) : Statement (.getCapabilities req) := fun _ h => by simp [encode] at h

theorem negotiateAlgorithms (req : List (BitVec 8)) : Statement (.negotiateAlgorithms req) := fun _ h => by simp [encode] at h

theorem getCertificate (req : List (BitVec 8)) : Statement (.getCertificate req) := fun _ h => by simp [encode] at h

theorem challenge (req : List (BitVec 8)) : Statement (.challenge req) := fun _ h => by simp [encode] at h

theorem getMeasurements (req : List (BitVec 8)) (index : Nat) : Statement (.getMeasurements req index) := fun _ h => by simp [encode] at h

theorem keyExchange (req : List (BitVec 8)) : Statement (.keyExchange req) := fun _ h => by simp [encode] at h

theorem heartbeat (session : Nat) : Statement (.heartbeat session) := fun _ h => by simp [encode] at h

theorem release (session : Nat) (part : Nat) (ctx : Nat) (gen : Nat) (key : BitVec 256) : Statement (.release session part ctx gen key) := fun _ h => by simp [encode] at h

theorem requestUpdate (session : Nat) : Statement (.requestUpdate session) := fun _ h => by simp [encode] at h

theorem verifyComplete (signatureOk : Bool) (svn : Nat) : Statement (.verifyComplete signatureOk svn) := fun _ h => by simp [encode] at h

theorem activateFirmware : Statement (.activateFirmware) := fun _ h => by simp [encode] at h

theorem requestDelivery (req : List (BitVec 8)) : Statement (.requestDelivery req) := fun _ h => by simp [encode] at h

theorem move (src : Nat) (dst : Nat) (len : Nat) : Statement (.move src dst len) := fun _ h => by simp [encode] at h

theorem hash (src : Nat) (dst : Nat) (len : Nat) : Statement (.hash src dst len) := fun _ h => by simp [encode] at h

theorem rand (dst : Nat) (len : Nat) : Statement (.rand dst len) := fun _ h => by simp [encode] at h

theorem mrread (src : Nat) (dst : Nat) : Statement (.mrread src dst) := fun _ h => by simp [encode] at h

theorem muReset (mask : Nat) : Statement (.muReset mask) := fun _ h => by simp [encode] at h

theorem absorb (mask : Nat) (src : Nat) (len : Nat) : Statement (.absorb mask src len) := fun _ h => by simp [encode] at h

theorem copy (mask : Nat) (src : Nat) : Statement (.copy mask src) := fun _ h => by simp [encode] at h

theorem sign (sctx : Bool) (src : Nat) (dst : Nat) : Statement (.sign sctx src dst) := fun _ h => by simp [encode] at h

theorem send (mask : Nat) (src : Nat) (len : Nat) : Statement (.send mask src len) := fun _ h => by simp [encode] at h

theorem musync (d : BitVec 6) : Statement (.musync d) := fun _ h => by simp [encode] at h

theorem accessDataArrival (who : Agent) : Statement (.accessDataArrival who) := fun _ h => by simp [encode] at h

theorem scTicketRequest (id : Nat) : Statement (.scTicketRequest id) := fun _ h => by simp [encode] at h

theorem muCommandComplete : Statement (.muCommandComplete) := fun _ h => by simp [encode] at h

theorem imageTransfer (off : Nat) (data : List (BitVec 8)) : Statement (.imageTransfer off data) := fun _ h => by simp [encode] at h

theorem completionArrival (tag : Nat) (keySet : Nat) : Statement (.completionArrival tag keySet) := fun _ h => by simp [encode] at h

theorem completionTimeout (tag : Nat) : Statement (.completionTimeout tag) := fun _ h => by simp [encode] at h

end Sys2Proof.Laws.RoundTrip
end

