-- ==== Sys2Proof/Laws/Registers.lean ====
section
/-!
SUPPORT. Laws of the registers of a warp: what a read sees after a write, and what a write leaves alone.
-/
namespace Sys2Proof.Machine

theorem regKey_inj {i j L M : Nat} (hL : L < 64) (hM : M < 64) (h : regKey i L = regKey j M) : i = j ∧ L = M := by
  unfold regKey at h
  omega

theorem sparseGet_setAll_map {f : Nat → Nat} {vals : List (Nat × BitVec 32)} {l : Sparse (BitVec 32)}
    (hf : ∀ e ∈ vals, ∀ e' ∈ vals, f e.1 = f e'.1 → e.1 = e'.1) (hn : (vals.map (·.1)).Nodup)
    (hl : sparseWf 0 l = true) {e : Nat × BitVec 32} (he : e ∈ vals) :
    sparseGet 0 (sparseSetAll 0 l (vals.map fun e => (f e.1, e.2))) (f e.1) = e.2 := by
  apply sparseGet_setAll_mem
  · exact hl
  · intro x hx hk
    obtain ⟨y, hy, rfl⟩ := List.mem_map.mp hx
    have h1 := hf y hy e he hk
    have h2 : y = e := by
      by_contra hne
      exact hne (List.inj_on_of_nodup_map hn hy he h1)
    rw [h2]
  · exact ⟨(f e.1, e.2), List.mem_map.mpr ⟨e, he, rfl⟩, rfl⟩

/-- A lane register or temporary holds what was written to its lane. -/
theorem Warp.read_write_lane {w : Warp} {c : Nat} {vals : List (Nat × BitVec 32)} (hr : sparseWf 0 w.regs = true)
    (ht : sparseWf 0 w.temps = true) (hn : (vals.map (·.1)).Nodup) (hv : ∀ e ∈ vals, e.1 < 64) (hc : c < 52)
    {e : Nat × BitVec 32} (he : e ∈ vals) : (w.write c vals).read c e.1 = e.2 := by
  unfold Warp.write
  by_cases h : c < 44
  · simp only [h, if_true, Warp.read]
    exact sparseGet_setAll_map (f := fun L => regKey ((w.slice (L / 4)).base + c) L)
      (fun x hx y hy hk => (regKey_inj (hv x hx) (hv y hy) hk).2) hn hr he
  · simp only [h, if_false, hc, if_true, Warp.read]
    exact sparseGet_setAll_map (f := fun L => regKey (c - 44) L)
      (fun x hx y hy hk => (regKey_inj (hv x hx) (hv y hy) hk).2) hn ht he

/-- A read that a write does not touch. -/
theorem Warp.read_write_other {w : Warp} {c : Nat} {vals : List (Nat × BitVec 32)} (hv : ∀ e ∈ vals, e.1 < 64) {b L : Nat}
    (hL : L < 64) (h : b ≠ c ∨ (c < 52 ∧ ∀ e ∈ vals, e.1 ≠ L)) : (w.write c vals).read b L = w.read b L := by
  have key : ∀ {i j : Nat} {e : Nat × BitVec 32}, e ∈ vals → regKey i e.1 = regKey j L → i = j ∧ e.1 = L :=
    fun he hk => regKey_inj (hv _ he) hL hk
  unfold Warp.write
  split
  · rename_i h44
    by_cases hb : b < 44
    · simp only [Warp.read, hb, if_true]
      apply sparseGet_setAll_other
      intro x hx hk
      obtain ⟨e, he, rfl⟩ := List.mem_map.mp hx
      obtain ⟨h1, h2⟩ := key he hk
      rcases h with h | h
      · change (w.slice (e.1 / 4)).base + c = (w.slice (L / 4)).base + b at h1
        rw [h2] at h1
        omega
      · exact h.2 e he h2
    · simp only [Warp.read, hb, if_false]
      rfl
  · split
    · rename_i h44 h52
      by_cases hb : b < 44
      · simp only [Warp.read, hb, if_true]
        rfl
      · by_cases hb2 : b < 52
        · simp only [Warp.read, hb, if_false, hb2, if_true]
          apply sparseGet_setAll_other
          intro x hx hk
          obtain ⟨e, he, rfl⟩ := List.mem_map.mp hx
          obtain ⟨h1, h2⟩ := key he hk
          rcases h with h | h
          · omega
          · exact h.2 e he h2
        · simp only [Warp.read, hb, if_false, hb2]
          rfl
    · split
      · rename_i h44 h52 h60
        split
        · rfl
        · have hbc : b ≠ c := by
            rcases h with h | h
            · exact h
            · omega
          by_cases hb : b < 44
          · simp only [Warp.read, hb, if_true]
            rfl
          · by_cases hb2 : b < 52
            · simp only [Warp.read, hb, if_false, hb2, if_true]
            · by_cases hb3 : b < 60
              · simp only [Warp.read, hb, if_false, hb2, hb3, if_true]
                exact sparseGet_set_other _ _ _ _ (by omega) _
              · simp only [Warp.read, hb, if_false, hb2, hb3]
                rfl
      · rfl

/-- A scalar holds, in every lane, the value of the lowest lane written. -/
theorem Warp.read_write_scalar {w : Warp} {c : Nat} {vals : List (Nat × BitVec 32)} (hs : sparseWf 0 w.s = true)
    (h1 : 52 ≤ c) (h2 : c < 60) (L : Nat) :
    (w.write c vals).read c L = (match vals with | [] => w.read c L | e :: _ => e.2) := by
  have a : ¬ c < 44 := by omega
  have b : ¬ c < 52 := by omega
  cases vals with
  | nil => simp [Warp.write, a, b, h2]
  | cons e t =>
    simp only [Warp.write, Warp.read, a, b, h2, if_false, if_true]
    rw [sparseGet_set _ _ _ _ _ hs, if_pos rfl]

end Sys2Proof.Machine
end

