-- ==== Sys2Proof/Tests/Slice0.lean ====
section
/-!
SUPPORT. Tests: words that the spec writes out, ill-formed terms that WellFormed refuses, single steps on a small machine, and
for each statement a state and operands that meet its hypotheses. Expected values are the spec's own or worked by hand from
its rules.
-/
set_option Elab.async false

namespace Sys2Proof.Tests

open Sys2Proof Sys2Proof.Machine

/-! ### Decoding (R23, R45, R52 to R57) -/

/-- Each word decodes to the instruction beside it, and is the word of that instruction. -/
def reads (l : List (Nat × Instr)) : Bool :=
  l.all fun e => (decodeWord e.1).toOption == some e.2 && encode e.2 == some (BitVec.ofNat 32 e.1)

/-- A word from its fields: each value at its lowest bit. -/
def bits (l : List (Nat × Nat)) : Nat := (l.map fun e => e.1 * 2 ^ e.2).sum

/-- The spec writes these words out: words of control and of the integer group (R94 to R112). -/
theorem test_spec_words1 : reads [
    (0x01F0265B, .mode 1 1 1 1 0 9819), (0x01502080, .mode 0 1 0 1 0 8320), (0x01100000, .mode 0 0 0 1 0 0),
    (0x01800009, .mode 1 0 0 0 0 9), (0x03000000, .nop), (0x100C1080, .iadd 3 1 2), (0x1C07DFFE, .iaddi 1 61 (-2)),
    (0x1CDBC040, .iaddi 54 60 64), (0x130400BC, .imad24 1 0 2 60), (0x1A07DF00, .icmp 1 61 60 0),
    (0x1A07D102, .icmp 1 61 4 2), (0x191420C1, .sel 5 2 3 1), (0x1F007F80, .movi 0 32640), (0x200001FE, .movhi 0 510),
    (0x2107CF42, .lea 1 60 61 2), (0x210FDF84, .lea 3 61 62 4), (0x23820000, .smovRs 2 0), (0x24060E80, .sop 0 12 3 20)] = true := by decide

/-- The spec writes these words out: float, cross-lane and control words (R130 to R162). -/
theorem test_spec_words2 : reads [
    (0x40101083, .ffma 4 1 2 3), (0x41081042, .fmul 2 1 1), (0x420420C2, .fcmp 1 2 3 2), (0x43101008, .rcp 4 1 2),
    (0x4707D001, .i2f 1 61), (0x460C2400, .cvt 3 2 4 0), (0x461C3500, .cvt 7 3 5 0), (0x74103000, .matchKey 4 3),
    (0x72182100, .red 6 2 4 0), (0x05100003, .brd 1 3), (0x06000003, .rjoin 3), (0x0F000000, .exit)] = true := by decide

/-- The spec writes these words out: memory words and barriers (R164 to R200, R247). -/
theorem test_spec_words3 : reads [
    (0x82101F08, .lds 4 1 60 2 0), (0x83181F01, .sts 6 1 60 1), (0x88000800, .glq 0 0 0 1 0), (0x89804000, .gsq 2 0 4 0 0),
    (0x89001140, .gsq 0 0 1 5 0), (0x8A080000, .waitq 0 2), (0x8B010000, .popq 0 0 2), (0x8C02013D, .atom 0 0 1 0 4 61),
    (0x91A00000, .fence 5), (0x92422000, .fenceX 2 2 4), (0xEB100500, .barInit 1 5), (0xEC100000, .barArrive 1),
    (0xED100000, .barWait 1 0), (0xED180000, .barWait 1 1), (0xD4100000, .arrive 1)] = true := by decide

/-- The spec writes these words out: Collie, skein and tile words (R236 to R288). -/
theorem test_spec_words4 : reads [
    (0x93200000, .mpost 8), (0xD5240000, .mbx 1 1), (0xD6200000, .mbxw 1), (0xD0400000, .cpy 1), (0xD1800000, .cpySc 2),
    (0xD7000000, .cwait 0), (0xD80C8000, .cstat 3 1), (0xB028B020, .kgw 1 1 2 1 1 1), (0xB1008000, .kpack 0 1 0 0 0 0),
    (0xB1213030, .kpack 1 2 1 1 0 3), (0xB211480C, .kext 4 2 1 0 2 3), (0xB3408000, .kmul 2 0 1),
    (0xC120C400, .tmmaS 8 12 0 1), (0xC3000000, .twait 0), (0xC4320000, .tzero 3 0 0 1 0), (0xC605DB70, .tsta 0 0 1 1 54 55),
    (0xC7927C00, .scacc 9 2 1 1 56), (0xCAD88000, .tdesc 54 8)] = true := by decide

/-- The spec writes these words out: launch, estate and FP64 words (R49, R302 to R329). -/
theorem test_spec_words5 : reads [
    (0xE0D41E00, .launch 53 0 60), (0xE0DC3B00, .launch 55 1 54), (0xE2DB5000, .join 54 53), (0xE3200000, .post 8),
    (0xE4200000, .fork 8), (0xE5000000, .joint), (0xE608BF00, .bequeath 2 1 3 60), (0xE7160000, .estat 5 1),
    (0xE82841AE, .eclaim 10 0 4 6 5 3), (0xE9200000, .erelease 2), (0xE9A18000, .ereleaseKey 2 6),
    (0xEA246400, .eprobe 9 6 2), (0xF810828C, .dfma 4 8 10 12)] = true := by decide

/-- Fields with both end bits set, at the places that the encoding tables give. -/
theorem test_field_places1 : reads [
    (bits [(0x02, 24), (3, 20), (43, 12), (53, 6), (59, 0)], .trl 3 43 53 59),
    (bits [(0x02, 24), (0x400000, 0), (55, 12), (43, 6)], .trlRange 55 43),
    (bits [(0x04, 24), (13, 20), (547435, 0)], .br 13 547435),
    (bits [(0x07, 24), (46295, 0)], .regang 46295),
    (bits [(0x08, 24), (55, 18), (154219, 0)], .call 55 154219),
    (bits [(0x09, 24), (55, 18), (43, 12)], .calli 55 43),
    (bits [(0x0A, 24), (55, 18)], .ret 55),
    (bits [(0x0B, 24), (55, 12)], .brx 55),
    (bits [(0x0C, 24), (570583, 0)], .yield 570583),
    (bits [(0x0D, 24), (13, 20), (547435, 0)], .yieldB 13 547435),
    (bits [(0x0E, 24), (3, 22), (11, 18), (53, 12), (59, 6), (45, 0)], .waitmon 3 11 53 59 45),
    (bits [(0x10, 24), (0x1, 0), (55, 18), (43, 12), (53, 6)], .isub 55 43 53),
    (bits [(0x10, 24), (0x2, 0), (55, 18), (43, 12), (53, 6)], .imin 55 43 53),
    (bits [(0x10, 24), (0x3, 0), (55, 18), (43, 12), (53, 6)], .imax 55 43 53),
    (bits [(0x10, 24), (0x4, 0), (55, 18), (43, 12), (53, 6)], .nmin 55 43 53),
    (bits [(0x10, 24), (0x5, 0), (55, 18), (43, 12), (53, 6)], .nmax 55 43 53),
    (bits [(0x10, 24), (0x6, 0), (55, 18), (43, 12), (53, 6)], .iabsd 55 43 53),
    (bits [(0x11, 24), (55, 18), (43, 12), (53, 6)], .and 55 43 53),
    (bits [(0x11, 24), (0x1, 0), (55, 18), (43, 12), (53, 6)], .or 55 43 53),
    (bits [(0x11, 24), (0x2, 0), (55, 18), (43, 12), (53, 6)], .xor 55 43 53),
    (bits [(0x11, 24), (0x3, 0), (55, 18), (43, 12), (53, 6)], .andn 55 43 53)] = true := by decide

/-- Fields with both end bits set, at the places that the encoding tables give. -/
theorem test_field_places2 : reads [
    (bits [(0x11, 24), (0x4, 0), (55, 18), (43, 12), (53, 6)], .orn 55 43 53),
    (bits [(0x12, 24), (55, 18), (43, 12), (53, 6)], .shl 55 43 53),
    (bits [(0x12, 24), (0x1, 0), (55, 18), (43, 12), (53, 6)], .shr 55 43 53),
    (bits [(0x12, 24), (0x2, 0), (55, 18), (43, 12), (53, 6)], .sar 55 43 53),
    (bits [(0x12, 24), (0x3, 0), (55, 18), (43, 12), (53, 6)], .rol 55 43 53),
    (bits [(0x12, 24), (0x4, 0), (55, 18), (43, 12), (53, 6)], .ror 55 43 53),
    (bits [(0x14, 24), (55, 18), (43, 12), (53, 6), (59, 0)], .nmad24 55 43 53 59),
    (bits [(0x15, 24), (55, 18), (43, 12), (53, 6), (11, 2)], .imul32Lo 55 43 53 11),
    (bits [(0x15, 24), (0x1, 0), (55, 18), (43, 12), (53, 6), (11, 2)], .imul32Hi 55 43 53 11),
    (bits [(0x15, 24), (0x2, 0), (55, 18), (43, 12), (53, 6), (11, 2)], .imul32Nhi 55 43 53 11),
    (bits [(0x16, 24), (55, 18), (43, 12), (53, 6), (59, 0)], .bfe 55 43 53 59),
    (bits [(0x17, 24), (55, 18), (43, 12), (53, 6), (59, 0)], .bfi 55 43 53 59),
    (bits [(0x18, 24), (55, 18), (43, 12)], .popc 55 43),
    (bits [(0x18, 24), (0x1, 0), (55, 18), (43, 12)], .clz 55 43),
    (bits [(0x18, 24), (0x2, 0), (55, 18), (43, 12)], .brev 55 43),
    (bits [(0x18, 24), (0x3, 0), (55, 18), (43, 12)], .ffs 55 43),
    (bits [(0x1B, 24), (55, 18), (43, 12), (53, 6)], .pand 55 43 53),
    (bits [(0x1B, 24), (0x1, 0), (55, 18), (43, 12), (53, 6)], .por 55 43 53),
    (bits [(0x1B, 24), (0x2, 0), (55, 18), (43, 12), (53, 6)], .pxor 55 43 53),
    (bits [(0x1B, 24), (0x3, 0), (55, 18), (43, 12), (53, 6)], .pandn 55 43 53),
    (bits [(0x1D, 24), (55, 18), (43, 12), (3381, 0)], .andi 55 43 3381)] = true := by decide

/-- Fields with both end bits set, at the places that the encoding tables give. -/
theorem test_field_places3 : reads [
    (bits [(0x1E, 24), (55, 18), (43, 12), (3381, 0)], .ori 55 43 3381),
    (bits [(0x22, 24), (55, 18), (43, 12), (53, 6)], .iadd64 55 43 53),
    (bits [(0x22, 24), (0x1, 0), (55, 18), (43, 12), (53, 6)], .isub64 55 43 53),
    (bits [(0x23, 24), (55, 16), (43, 10)], .smovSs 55 43),
    (bits [(0x23, 24), (0x400000, 0), (55, 16), (43, 10)], .smovSr 55 43),
    (bits [(0x41, 24), (55, 18), (43, 12), (53, 6)], .fadd 55 43 53),
    (bits [(0x41, 24), (0x1, 0), (55, 18), (43, 12), (53, 6)], .fsub 55 43 53),
    (bits [(0x41, 24), (0x3, 0), (55, 18), (43, 12), (53, 6)], .fmin 55 43 53),
    (bits [(0x41, 24), (0x4, 0), (55, 18), (43, 12), (53, 6)], .fmax 55 43 53),
    (bits [(0x43, 24), (0x1, 0), (55, 18), (43, 12), (13, 2)], .rsqrt 55 43 13),
    (bits [(0x43, 24), (0x2, 0), (55, 18), (43, 12), (13, 2)], .sqrt 55 43 13),
    (bits [(0x43, 24), (0x3, 0), (55, 18), (43, 12), (53, 6), (11, 2)], .div 55 43 53 11),
    (bits [(0x44, 24), (55, 18), (43, 12), (13, 2)], .exp2 55 43 13),
    (bits [(0x44, 24), (0x1, 0), (55, 18), (43, 12), (13, 2)], .log2 55 43 13),
    (bits [(0x44, 24), (0x2, 0), (55, 18), (43, 12), (13, 2)], .sin 55 43 13),
    (bits [(0x44, 24), (0x3, 0), (55, 18), (43, 12), (13, 2)], .cos 55 43 13),
    (bits [(0x45, 24), (55, 18), (43, 12), (13, 2)], .tanh 55 43 13),
    (bits [(0x45, 24), (0x1, 0), (55, 18), (43, 12), (13, 2)], .sigm 55 43 13),
    (bits [(0x47, 24), (55, 18), (43, 12)], .f2i 55 43),
    (bits [(0x47, 24), (0x2, 0), (55, 18), (43, 12)], .f2n 55 43),
    (bits [(0x47, 24), (0x3, 0), (55, 18), (43, 12)], .n2f 55 43)] = true := by decide

/-- Fields with both end bits set, at the places that the encoding tables give. -/
theorem test_field_places4 : reads [
    (bits [(0x47, 24), (0x4, 0), (55, 18), (43, 12)], .frnd 55 43),
    (bits [(0x48, 24), (55, 18), (43, 12), (53, 6), (59, 0)], .ffma2 55 43 53 59),
    (bits [(0x49, 24), (55, 18), (43, 12), (53, 6)], .fadd2 55 43 53),
    (bits [(0x49, 24), (0x1, 0), (55, 18), (43, 12), (53, 6)], .fmul2 55 43 53),
    (bits [(0x49, 24), (0x2, 0), (55, 18), (43, 12), (53, 6)], .fmin2 55 43 53),
    (bits [(0x49, 24), (0x3, 0), (55, 18), (43, 12), (53, 6)], .fmax2 55 43 53),
    (bits [(0x4A, 24), (55, 18), (43, 12)], .fabs 55 43),
    (bits [(0x4A, 24), (0x1, 0), (55, 18), (43, 12)], .fneg 55 43),
    (bits [(0x4A, 24), (0x2, 0), (55, 18), (43, 12)], .fclass 55 43),
    (bits [(0x70, 24), (55, 18), (43, 12), (53, 6), (59, 0)], .shfl 55 43 53 59),
    (bits [(0x71, 24), (55, 18), (43, 12), (53, 6), (59, 0)], .vote 55 43 53 59),
    (bits [(0x73, 24), (55, 18), (43, 12), (53, 6), (59, 0)], .scan 55 43 53 59),
    (bits [(0x75, 24), (55, 18), (43, 12), (53, 6)], .bcast 55 43 53),
    (bits [(0x80, 24), (55, 18), (43, 12), (53, 6), (11, 2), (3, 0)], .ldl 55 43 53 11 3),
    (bits [(0x81, 24), (55, 18), (43, 12), (53, 6), (3, 0)], .stl 55 43 53 3),
    (bits [(0x84, 24), (55, 18), (43, 12), (53, 6), (11, 2), (3, 0)], .ldc 55 43 53 11 3),
    (bits [(0x85, 24), (55, 18), (43, 12), (53, 6), (3, 0)], .stc 55 43 53 3),
    (bits [(0x86, 24), (55, 18), (43, 12), (53, 6), (11, 2), (3, 0)], .ldd 55 43 53 11 3),
    (bits [(0x87, 24), (55, 18), (43, 12), (53, 6), (3, 0)], .std 55 43 53 3),
    (bits [(0x8D, 24), (13, 20), (1, 19), (3, 17), (1, 16), (13, 12), (39, 6), (51, 0)], .atomSc 13 1 3 1 13 39 51),
    (bits [(0x8E, 24), (13, 20), (11, 16), (53, 10), (1, 9)], .bind 13 11 53 1)] = true := by decide

/-- Fields with both end bits set, at the places that the encoding tables give. -/
theorem test_field_places5 : reads [
    (bits [(0x8F, 24), (55, 18), (11, 14), (53, 8), (5, 5)], .acq 55 11 53 5),
    (bits [(0x90, 24), (13, 14), (43, 8), (5, 5)], .rel 13 43 5),
    (bits [(0xA0, 24), (13, 20), (11, 16)], .cmov 13 11),
    (bits [(0xA1, 24), (13, 20), (11, 16), (53, 10), (59, 4)], .csetb 13 11 53 59),
    (bits [(0xA2, 24), (13, 20), (11, 16), (21, 11)], .candp 13 11 21),
    (bits [(0xA3, 24), (13, 20), (11, 16), (13, 12)], .cseal 13 11 13),
    (bits [(0xA4, 24), (13, 20), (11, 16), (13, 12)], .cunseal 13 11 13),
    (bits [(0xA5, 24), (55, 18), (11, 14), (5, 11)], .cget 55 11 5),
    (bits [(0xA6, 24), (13, 20), (11, 16), (53, 10)], .cldc 13 11 53),
    (bits [(0xA7, 24), (13, 20), (11, 16), (53, 10)], .cstc 13 11 53),
    (bits [(0xB0, 24), (0x800000, 0), (5, 20), (43, 14)], .kgwRd 5 43),
    (bits [(0xB4, 24), (5, 21), (5, 18), (5, 15)], .kmac 5 5 5),
    (bits [(0xB5, 24), (5, 21), (5, 18), (5, 15), (1, 14), (3, 12)], .kadd 5 5 5 1 3),
    (bits [(0xB6, 24), (5, 21), (5, 18), (5, 15), (1, 14), (3, 12)], .ksub 5 5 5 1 3),
    (bits [(0xB7, 24), (5, 21), (5, 18), (1, 17), (3, 15), (205, 7)], .kshl 5 5 1 3 205),
    (bits [(0xB8, 24), (5, 21), (5, 18), (1, 17), (3, 15), (205, 7)], .kshr 5 5 1 3 205),
    (bits [(0xB9, 24), (5, 21), (5, 18), (1, 17), (1, 16)], .kmov 5 5 1 1),
    (bits [(0xBA, 24), (5, 21), (1, 20), (21, 15), (59, 9)], .kld 5 1 21 59),
    (bits [(0xBB, 24), (5, 21), (1, 20), (21, 15), (59, 9)], .kst 5 1 21 59),
    (bits [(0xC0, 24), (55, 18), (43, 12), (1, 11), (1, 10)], .tmma 55 43 1 1),
    (bits [(0xC2, 24), (55, 18), (43, 12)], .tmmaResume 55 43)] = true := by decide

/-- Fields with both end bits set, at the places that the encoding tables give. -/
theorem test_field_places6 : reads [
    (bits [(0xC5, 24), (13, 20), (1, 19), (1, 18), (3, 16), (45, 10), (39, 4)], .tlda 13 1 1 3 45 39),
    (bits [(0xC8, 24), (55, 18), (11, 14), (53, 8), (1, 7)], .axr 55 11 53 1),
    (bits [(0xC9, 24), (55, 18), (11, 14), (53, 8), (1, 7)], .axw 55 11 53 1),
    (bits [(0xD2, 24), (3, 22)], .cpyX 3),
    (bits [(0xD3, 24), (3, 22)], .cpyR 3),
    (bits [(0xE1, 24), (55, 18), (27, 13), (53, 7)], .launchNb 55 27 53),
    (bits [(0xF0, 24), (3287, 12)], .trap 3287),
    (bits [(0xF1, 24), (55, 18), (235, 10)], .rdsr 55 235),
    (bits [(0xF2, 24), (55, 18), (235, 10)], .wrsr 55 235),
    (bits [(0xF3, 24), (55, 18), (5, 15)], .emuget 55 5),
    (bits [(0xF4, 24), (5, 21), (43, 12)], .emuput 5 43),
    (bits [(0xF5, 24), (55, 18), (5, 15), (53, 9), (11, 5)], .emurd 55 5 53 11),
    (bits [(0xF6, 24), (55, 18), (5, 15), (53, 9), (11, 5)], .emuwr 55 5 53 11),
    (bits [(0xF7, 24), (1, 23), (3, 21), (53, 12)], .emuret 1 3 53),
    (bits [(0xF9, 24), (55, 18), (43, 12), (53, 6), (59, 0)], .dop 55 43 53 59),
    (bits [(0xFA, 24), (55, 18), (43, 12), (53, 6), (59, 0)], .dcmp 55 43 53 59),
    (bits [(0xFB, 24), (55, 18), (43, 12), (3, 10)], .dcvt 55 43 3)] = true := by decide

/-! ### Ill-formed terms, one for each check of WellFormed (R45 step 6) -/

/-- A warp of 32 lanes. -/
abbrev warp : Profile := .simt 32

/-- Operands beyond the codes that R25 to R28, R110, R139, R166, R184, R236, R256, R274, R306 and R317 allow. -/
theorem test_ill_formed_operands : [Instr.iadd 61 1 2, .iadd64 3 0 0, .iadd64 0 51 0, .brx 60, .brx 44, .matchKey 43 0, .bcast 0 0 44,
    .ldl 2 0 0 0 2, .ldl 44 0 0 0 1, .stl 2 0 0 2, .ldl 0 0 0 0 3, .stl 0 0 0 3, .lds 0 0 0 0 3, .sts 0 0 0 3, .ldc 0 0 0 0 3, .stc 0 0 0 3,
    .ldd 0 0 0 0 3, .std 0 0 0 3, .glq 0 3 0 0 0, .glq 0 0 0 60 1, .gsq 3 0 0 0 0, .popq 0 3 0, .popq 0 0 61, .mpost 2, .cget 8 0 0, .cldc 0 0 8,
    .cstc 0 0 8, .csetb 0 0 53 60, .csetb 0 0 60 9, .tmma 2 0 0 0, .tmmaS 0 44 0 0, .tmmaResume 0 6, .tdesc 0 0, .tdesc 52 2, .axr 61 0 0 0,
    .post 60, .fork 2, .bequeath 44 0 0 60, .bequeath 0 0 0 1, .eclaim 0 0 0 60 0 0, .ereleaseKey 0 60, .eprobe 0 60 0, .launch 8 0 60,
    .launchNb 60 17 60, .join 60 8, .estat 61 0, .dfma 44 0 0 0, .dop 1 0 0 0].all (fun i => !WellFormed warp i) = true := by decide

/-- Fields beyond the values that their entries give. -/
theorem test_ill_formed_fields : [Instr.mode 0 1 0 0 0 1, .trl 0 1 0 0, .trl 1 44 0 0, .trl 3 1 2 61, .trlRange 5 4, .trlRange 40 44, .br 8 0,
    .brd 0 0, .brd 8 0, .regang 0x0100, .call 0 0, .call 45 0, .calli 0 0, .calli 1 60, .ret 0, .ret 45, .waitmon 1 1 0 0 0, .sel 0 0 0 8,
    .icmp 8 0 0 0, .icmp 0 0 0 6, .pand 8 0 0, .por 0 8 0, .pxor 0 0 8, .pandn 8 0 0, .smovSs 32 0, .smovSr 32 0, .smovRs 0 32, .sop 13 0 0 0,
    .fcmp 0 0 0 5, .cvt 0 0 8 0, .cvt 0 0 0 2, .shfl 0 0 0 4, .vote 0 8 60 0, .vote 8 0 60 1, .vote 1 0 60 2, .vote 0 0 60 3, .red 0 0 60 5,
    .scan 0 0 60 2, .waitq 0 17, .atom 11 0 0 0 0 0, .atom 10 1 0 0 0 0, .atom 0 0 3 0 0 0, .atom 0 0 0 19 0 0, .atom 9 0 0 0 0 1, .atomSc 11 0 0 0 0 0 0,
    .bind 0 1 60 1, .acq 60 0 60 1, .rel 0 60 7, .fence 7, .fenceX 7 1 1, .fenceX 0 0 1, .fenceX 0 1 0].all (fun i => !WellFormed warp i) = true := by
  decide

/-- The same for skeins, tiles, the Collie, estates, special registers, handlers and FP64. -/
theorem test_ill_formed_fields2 : [Instr.kgw 0 0 0 0 0 0, .kgwRd 6 52, .kgwRd 0 0, .kpack 0 0 3 0 0 0, .kext 0 0 0 3 0 0, .kext 0 0 0 0 3 0,
    .kext 0 1 1 0 0 0, .kmul 1 0 0, .kmac 1 0 0, .kadd 0 0 0 0 3, .kadd 1 0 0 1 0, .ksub 0 1 0 1 0, .kshl 0 0 0 3 0, .kshl 1 0 1 0 0, .kshr 0 0 0 3 0,
    .kshr 0 1 1 0 0, .kmov 1 0 1 0, .kmov 0 2 0 1, .kld 1 1 0 60, .kld 0 0 17 60, .kst 0 0 0 8, .tzero 0 1 0 0 1, .tlda 0 0 0 0 52 52, .tlda 0 0 0 1 0 52,
    .tsta 0 0 0 3 52 52, .scacc 0 0 0 0 0, .cwait 33, .cstat 0 5, .cstat 61 0, .barInit 0 0, .rdsr 61 0, .rdsr 0 0x12, .wrsr 0 0x20, .emuget 61 0,
    .emurd 0 6 0 0, .emurd 0 2 32 0, .emuwr 0 4 0 0, .emuret 0 3 0, .emuret 0 0 1, .emuret 0 2 60, .dop 0 0 0 5, .dcmp 8 0 0 0, .dcmp 0 0 0 5,
    .dcvt 1 0 0, .dcvt 0 1 1].all (fun i => !WellFormed warp i) = true := by decide

/-- What only a scalar profile refuses (R27, R93, R153, R159, R176, R235, R378), and a step that has no word. -/
theorem test_ill_formed_scalar : ([Instr.iadd 32 0 0, .iadd 0 44 0, .iadd64 0 31 0, .lds 30 0 0 0 2, .trl 1 32 0 0, .smovSr 0 0, .smovRs 0 0,
    .waitmon 2 0 0 0 0, .atom 0 0 1 0 0 0, .rdsr 0 0x02].all (fun i => !WellFormed .collie i) &&
  [Instr.waitmon 0 0 0 0 0, .rdsr 0 0x01, .iadd 60 61 0].all (fun i => !WellFormed .mc i) &&
  !WellFormed warp (.runStart 0) && !WellFormed .mc .watchdog) = true := by decide

/-- Their neighbours are well formed. -/
theorem test_well_formed : [Instr.iadd 60 63 61, .iadd64 42 58 60, .brx 58, .ldl 40 0 0 0 2, .trl 3 1 43 60, .trlRange 40 43, .br 0 0, .brd 1 0,
    .regang 0x00FF, .call 44 0, .ret 1, .waitmon 0 15 0 0 0, .icmp 7 0 0 5, .sop 12 0 0 0, .cvt 0 0 7 3, .vote 0 7 60 2, .waitq 1 16, .atom 10 0 2 18 0 0,
    .fence 6, .kmul 6 7 7, .kld 6 1 16 60, .tzero 15 0 0 0 1, .cwait 32, .barInit 15 1, .rdsr 60 0x11, .emurd 0 5 7 15, .emuret 1 2 0].all
    (WellFormed warp) = true := by decide

/-! ### A small machine (R75, R231, R386) -/

/-- A warp of 16 lanes on core 0: one gang of four slices inside an open run, with the mode m. -/
def warpM (m : BitVec 32) : Warp :=
  { core := 0, slot := 0, wg := 1, index := 0, birth := 1, wid := 0, wgWarps := 1, width := 16, alloc := 64
    slices := List.replicate 4 { pc := 0x1000, mode := m }, gangs := [{ slices := [0, 1, 2, 3], run := some {} }] }

/-- Its workgroup, with one barrier and a Collie thread. -/
def group1 : Workgroup :=
  { uid := 1, grid := 1, ctx := 0, part := 0, core := 0, lineage := 1, wi := 0, width := 16, warps := 1, alloc := 64
    groupB := 256, privB := 64, sliceB := 192, rows := [0], privRows := [1], bars := [{ count := 1 }], thread := some 0
    entry := 0x1000, born := true }

def ctx0 : Context := { num := 0, owner := 0, loaded := true }
def thread0 : Collie := { core := 0, thread := 0, wg := 1, x := { pc := 0x1000 } }

/-- The small machine in a step of agent a, with warp w. -/
def machine (a : Agent) (w : Warp) : State :=
  { State.reset with
    ctxs := [ctx0], wgs := [group1], warps := [w], collies := [thread0]
    sched := { State.reset.sched with uid := 2, cur := some a } }

/-- Agent gang: its warp has the mode m. -/
abbrev gangM (m : BitVec 32) : State := machine (.gang 0 0 0) (warpM m)
abbrev gang : State := gangM 0
abbrev collie : State := machine (.collie 0 0) (warpM 0)
abbrev mc : State := machine .mc (warpM 0)

/-- The seat of a warp's first gang. -/
def seatOf (w : Warp) : Seat := ⟨w, w.gangs.headD { slices := [] }⟩
abbrev seatM (m : BitVec 32) : Seat := seatOf (warpM m)
abbrev seat : Seat := seatM 0

/-- GangRuns, CollieRuns and McRuns as tests that can be evaluated. -/
def gangRuns (i : Instr) (s : State) (q : Seat) : Bool :=
  s.sched.cur == some (.gang q.w.core q.w.slot q.lead) && s.seat q.w.core q.w.slot q.lead == some q && q.ready &&
    !(s.ctxOf q.w.wg).gated && fateOf q.profile q.inHandler (s.wg q.w.wg).opdis (q.g.slices.map fun j => (q.w.slice j).mode) i == .go &&
    (!q.g.mustExit || i == .exit) && brokenPromise q.profile i q.run (coverOf q.w i) == none && (!fallsThrough i q.exe || !pcWraps q.pc) && !q.waits i
def collieRuns (i : Instr) (s : State) (c : Collie) : Bool :=
  s.sched.cur == some (.collie c.core c.thread) && s.findCollie c.core c.thread == some c && !c.stopped && c.park == .none &&
    c.x.hold == .none && !(s.ctxOf c.wg).gated && !s.collieStops c i && fateOf .collie c.frame.isSome (s.wg c.wg).opdis [c.x.mode] i == .go &&
    brokenPromise .collie i c.x.run 0 == none && (!fallsThrough i (.scal c.x) || !pcWraps c.x.pc) && !waitsFor .collie i c.x.run [0] scalarNames c.x.pend
def mcRuns (i : Instr) (s : State) : Bool :=
  s.sched.cur == some Agent.mc && s.mc.x.hold == .none && !s.mc.parked && fateOf .mc false 0 [s.mc.x.mode] i == .go &&
    brokenPromise .mc i s.mc.x.run 0 == none && (!fallsThrough i (.scal s.mc.x) || !pcWraps s.mc.x.pc) && !waitsFor .mc i s.mc.x.run [0] scalarNames s.mc.x.pend

theorem gangRuns_sound {i : Instr} {s : State} {q : Seat} (h : gangRuns i s q = true) : GangRuns i s q := by
  simp only [gangRuns, Bool.and_eq_true, Bool.or_eq_true, Bool.not_eq_true', beq_iff_eq] at h
  obtain ⟨⟨⟨⟨⟨⟨⟨⟨h1, h2⟩, h3⟩, h4⟩, h5⟩, h6⟩, h7⟩, h8⟩, h9⟩ := h
  exact ⟨h1, h2, h3, h4, h5, fun e => h6.resolve_left (by simp [e]), h7, h8, h9⟩
theorem collieRuns_sound {i : Instr} {s : State} {c : Collie} (h : collieRuns i s c = true) : CollieRuns i s c := by
  simp only [collieRuns, Bool.and_eq_true, Bool.or_eq_true, Bool.not_eq_true', beq_iff_eq] at h
  obtain ⟨⟨⟨⟨⟨⟨⟨⟨⟨⟨h1, h2⟩, h3⟩, h4⟩, h5⟩, h6⟩, h7⟩, h8⟩, h9⟩, h10⟩, h11⟩ := h
  exact ⟨h1, h2, h3, h4, h5, h6, h7, h8, h9, h10, h11⟩
theorem mcRuns_sound {i : Instr} {s : State} (h : mcRuns i s = true) : McRuns i s := by
  simp only [mcRuns, Bool.and_eq_true, Bool.or_eq_true, Bool.not_eq_true', beq_iff_eq] at h
  obtain ⟨⟨⟨⟨⟨⟨h1, h2⟩, h3⟩, h4⟩, h5⟩, h6⟩, h7⟩ := h
  exact ⟨h1, h2, h3, h4, h5, h6, h7⟩

/-- Every instruction of the list executes on the small machine's gang with the mode m, on its Collie thread, on its controller. -/
def onGang (m : BitVec 32) (l : List Instr) : Bool := l.all fun i => gangRuns i (gangM m) (seatM m)
def onCollie (l : List Instr) : Bool := l.all fun i => collieRuns i collie thread0
def onMc (l : List Instr) : Bool := l.all fun i => mcRuns i mc

/-! ### The hypotheses of the statements about words that compute on registers -/

/-- NopHasNoOtherEffect, ModeWritesTheSelectedFields, PackedArithmeticIsElementwise, ConstantsCombineWithRegisters,
LogicShiftsAndMultiplyAdds, BitFieldsAndCounts, PredicatesAndSelection and AddressesAndScalars on a gang. -/
theorem witness_integer_gang : onGang 0 [.nop, .mode 1 0 0 0 0 9, .iadd 3 1 2, .isub 0 43 63, .imin 1 2 3, .imax 1 2 3, .nmin 1 2 3, .nmax 1 2 3,
    .iabsd 1 2 3, .iaddi 1 61 (-2), .andi 60 1 0xFFF, .ori 1 2 3, .movi 0 0x7F80, .movhi 0 0x1FE, .and 1 2 3, .or 1 2 3, .xor 1 2 3, .andn 1 2 3,
    .orn 1 2 3, .shl 1 2 3, .shr 1 2 3, .sar 1 2 3, .rol 1 2 3, .ror 1 2 3, .imad24 1 2 3 4, .nmad24 1 2 3 4, .bfe 1 2 3 4, .bfi 1 2 3 4, .popc 1 2,
    .clz 1 2, .brev 1 2, .ffs 1 2, .icmp 7 2 3 0, .icmp 1 2 3 5, .pand 1 2 3, .por 1 2 3, .pxor 1 2 3, .pandn 1 2 3, .sel 1 2 3 7, .lea 1 2 3 15,
    .iadd64 42 0 2, .isub64 52 0 60, .smovSs 31 0, .smovSr 9 4, .smovRs 4 9, .sop 0 1 2 3, .sop 12 31 30 29] = true := by decide

/-- The same on a Collie thread and on the controller, where the words exist there. -/
theorem witness_integer_scalar : (onCollie [.nop, .mode 1 0 0 0 0 9, .iadd 3 1 2, .isub 31 0 60, .iabsd 1 2 3, .iaddi 1 2 (-2), .movi 0 5, .and 1 2 3,
    .shl 1 2 3, .imad24 1 2 3 4, .bfe 1 2 3 4, .popc 1 2, .icmp 7 2 3 5, .pand 1 2 3, .sel 1 2 3 0, .lea 1 2 3 4, .iadd64 0 2 30, .smovSs 3 4, .sop 12 1 2 3] &&
  onMc [.nop, .mode 1 0 0 0 0 9, .iadd 3 1 2, .iaddi 1 2 (-2), .movi 0 5, .and 1 2 3, .shl 1 2 3, .imad24 1 2 3 4, .bfe 1 2 3 4, .popc 1 2, .icmp 7 2 3 5,
    .pand 1 2 3, .sel 1 2 3 0, .lea 1 2 3 4, .iadd64 0 2 30, .smovSs 3 4, .sop 12 1 2 3]) = true := by decide

/-- LongLatencyWordsArriveLater, FloatWordsRoundOnce and ConversionsAndRounding under the types f32 (0x10), f16 (0x11) and their
packed kinds (0x13, f16x2); CrossLaneWordsCombineTheirGroups. -/
theorem witness_float_gang : (onGang 0x200 [.rcp 1 2 3, .sqrt 1 2 0, .div 1 2 3 4, .rsqrt 1 2 0, .exp2 1 2 0, .log2 1 2 0, .tanh 1 2 0, .sigm 1 2 0,
    .sin 1 2 0, .cos 1 2 15, .ffma 1 2 3 4, .fadd 1 2 3, .fsub 1 2 3, .fmul 1 2 3, .fmin 1 2 3, .fmax 1 2 3, .fcmp 7 2 3 0, .fcmp 1 2 3 4, .fabs 1 2,
    .fneg 1 2, .fclass 1 2, .f2i 1 2, .f2n 1 2, .i2f 1 2, .n2f 1 2, .frnd 1 2, .cvt 1 2 0 1, .cvt 1 2 7 3, .red 6 2 60 0, .scan 6 2 60 1] &&
  onGang 0x220 [.rcp 1 2 3, .ffma 1 2 3 4, .fcmp 0 1 2 3, .fclass 1 2, .f2i 1 2] && onGang 0x260 [.ffma2 1 2 3 4, .fadd2 1 2 3, .fmul2 1 2 3, .fmin2 1 2 3, .fmax2 1 2 3] &&
  onGang 0 [.imul32Lo 1 2 3 0, .imul32Hi 1 2 3 0, .imul32Nhi 1 2 3 15, .shfl 1 2 3 0, .shfl 1 2 3 3, .vote 1 2 60 0, .vote 1 2 42 1, .vote 4 2 60 2,
    .red 1 2 60 1, .red 1 2 60 4, .scan 1 2 0 0, .matchKey 42 3, .bcast 1 2 60]) = true := by decide

/-- The long-latency multiply on the scalar agents. -/
theorem witness_multiply_scalar : (onCollie [.imul32Lo 1 2 3 0] && onMc [.imul32Nhi 1 2 3 0]) = true := by decide

/-! ### The hypotheses of the statements about registers, rounding and control flow -/

/-- RegisterCodesNameTheirRegisters, at the codes where its ranges meet. -/
theorem witness_register_codes : ∃ (w : Warp) (vals : List (Nat × BitVec 32)), sparseWf 0 w.regs = true ∧ sparseWf 0 w.temps = true ∧
    sparseWf 0 w.s = true ∧ (vals.map (·.1)).Nodup ∧ (∀ e ∈ vals, e.1 < 64) ∧ vals ≠ [] ∧ (51 : Nat) < 52 ∧ (52 : Nat) < 60 ∧ (59 : Nat) < 60 ∧
    (w.write 51 vals).read 51 63 = 7 ∧ (w.write 52 vals).read 52 5 = 7 ∧ (w.write 59 vals).read 59 0 = 7 ∧ w.write 60 vals = w :=
  ⟨{ warpM 0 with regs := [(regKey 2 5, 9)], s := [(3, 1)] }, [(63, 7)], by decide⟩

/-- RegisterWordsLeaveTheRest: each kind of target. -/
theorem witness_targets : targetOf (.iadd 3 1 2) = some (.lane 3) ∧ targetOf (.iadd64 42 0 2) = some (.pair 42) ∧ targetOf (.icmp 7 2 3 0) = some (.pred 7) ∧
    targetOf (.sop 12 31 30 29) = some (.scalar 31) ∧ targetOf (.mode 1 0 0 0 0 9) = some .mode ∧ targetOf .nop = some .none := by decide

/-- LongLatencyWordsArriveLater: patterns of its special rows, at the ends of their ranges. -/
theorem witness_special_operands : (FloatFmt.f32.decode 0x7F800001).isNan = true ∧ (FloatFmt.f32.decode 0xFFFFFFFF).isNan = true ∧
    (0x80000001 : BitVec 32).getLsbD 31 = true ∧ (0xFF7FFFFF : BitVec 32).toNat < 0xFF800000 ∧ (0x397FFFFF : BitVec 32).toNat % 2 ^ 31 < 0x39800000 := by
  decide

/-- ConversionsAndRounding: a value between two neighbours, a value that two patterns are equally near, and a CVT that keeps bits. -/
theorem witness_rounding : ((2 ^ 24 + 1 : Nat) : ℚ) * 2 ^ (0 : Int) ≤ FloatFmt.f32.magValue (FloatFmt.f32.infMag - 1) ∧
    FloatFmt.f32.round 1 false false (2 ^ 24 + 1) 0 % 2 ^ FloatFmt.f32.signBit + 1 < FloatFmt.f32.infMag ∧
    FloatFmt.f32.round 0 false false (2 ^ 24 + 1) 0 % 2 ^ FloatFmt.f32.signBit = 0x4B800000 ∧
    |((2 ^ 24 + 1 : Nat) : ℚ) * 2 ^ (0 : Int) - FloatFmt.f32.magValue 0x4B800000| = |((2 ^ 24 + 1 : Nat) : ℚ) * 2 ^ (0 : Int) - FloatFmt.f32.magValue 0x4B800001| := by
  refine ⟨?_, by decide, by decide, ?_⟩ <;> norm_num [FloatFmt.magValue, FloatFmt.f32, FloatFmt.infMag, FloatFmt.mbits, FloatFmt.emin]

/-- The small machine's warp with the predicate p1. -/
def warpP (v : BitVec 64) : Warp := { warpM 0 with p := [(1, v)] }
abbrev gangW (w : Warp) : State := machine (.gang 0 0 0) w

/-- BranchesSplitAndRejoin, BR: slice 0 takes the branch and the others none; slice 0 disagrees; a scalar agent. -/
theorem witness_br :
    (GangRuns (.br 1 5) (gangW (warpP 0x000F)) (seatOf (warpP 0x000F)) ∧ inCode 0x1000 5 ∧ inCode 0x1000 1 ∧
      ∀ j ∈ (seatOf (warpP 0x000F)).g.slices, ((warpP 0x000F).active j).filter (condHolds 1 (warpP 0x000F).p) = (warpP 0x000F).active j ∨
        ((warpP 0x000F).active j).filter (condHolds 1 (warpP 0x000F).p) = []) ∧
    (GangRuns (.br 1 5) (gangW (warpP 0x0003)) (seatOf (warpP 0x0003)) ∧
      ((warpP 0x0003).active 0).filter (condHolds 1 (warpP 0x0003).p) = [0, 1] ∧ (warpP 0x0003).active 0 = [0, 1, 2, 3]) ∧
    CollieRuns (.br 9 5) collie thread0 ∧ McRuns (.br 1 1) mc ∧ inCode 0 1 := by
  refine ⟨⟨gangRuns_sound (by decide), by unfold inCode; decide, by unfold inCode; decide, by decide⟩,
    ⟨gangRuns_sound (by decide), by decide, by decide⟩, collieRuns_sound (by decide), mcRuns_sound (by decide), by unfold inCode; decide⟩

/-- A stack of n entries that no RJOIN here closes. -/
def deep (n : Nat) (w : Warp) : Warp := w.mapSlices [0] fun _ x => { x with stack := List.replicate n ⟨0x4000, 1, false⟩ }

/-- BranchesSplitAndRejoin, BRD: with room for an eighth entry, and with eight. -/
theorem witness_brd :
    (GangRuns (.brd 1 5) (gangW (deep 7 (warpP 0x0003))) (seatOf (deep 7 (warpP 0x0003))) ∧ ((deep 7 (warpP 0x0003)).slice 0).stack.length < 8) ∧
    (GangRuns (.brd 1 5) (gangW (deep 8 (warpP 0x0003))) (seatOf (deep 8 (warpP 0x0003))) ∧ 8 ≤ ((deep 8 (warpP 0x0003)).slice 0).stack.length) ∧
    ((deep 8 (warpP 0x0003)).active 0).filter (fun L => !condHolds 1 (deep 8 (warpP 0x0003)).p L) = [2, 3] := by
  refine ⟨⟨gangRuns_sound (by decide), by decide⟩, ⟨gangRuns_sound (by decide), by decide⟩, by decide⟩

/-- BranchesSplitAndRejoin, RJOIN: slice 0 has a deferred entry for the next word, slice 1 a joined entry for the join address. -/
def warpJ : Warp := ((warpM 0).setSlice 0 { pc := 0x1000, lanemask := 3, stack := [⟨0x1004, 0xC, false⟩] }).setSlice 1
  { pc := 0x1000, lanemask := 3, stack := [⟨0x100C, 0xC, true⟩] }
theorem witness_rjoin : GangRuns (.rjoin 3) (gangW warpJ) (seatOf warpJ) ∧ codeAt 0x1000 1 = 0x1004 ∧ codeAt 0x1000 3 = 0x100C ∧
    inCode 0x1000 3 ∧ inCode 0x1000 1 := by
  refine ⟨gangRuns_sound (by decide), by decide, by decide, by unfold inCode; decide, by unfold inCode; decide⟩

/-- RJOIN switches slice 0 to its deferred lanes, rejoins slice 1, and sends slice 2 to the join address (R151, by hand). -/
theorem test_rjoin : (match exec (.rjoin 3) (gangW warpJ) with
    | .next t => (t.findWarp 0 0).map fun w => [0, 1, 2].map fun j => ((w.slice j).pc, (w.slice j).lanemask, (w.slice j).stack)
    | _ => none) = some [(0x1004, 0xC, [⟨0x100C, 3, true⟩]), (0x100C, 0xF, []), (0x100C, 0xF, [])] := by decide

/-- A warp whose lanes hold the 64-bit value v in w2:w3. -/
def warpV (f : Nat → BitVec 32) : Warp := (warpM 0).write 2 ((List.range 16).map fun L => (L, f L))

/-- BrxSendsEachSliceToItsPair: a code address in every lane, one that is none, lanes that disagree, and a scalar agent. -/
theorem witness_brx :
    (GangRuns (.brx 2) (gangW (warpV fun _ => 0x2000)) (seatOf (warpV fun _ => 0x2000)) ∧
      ∀ j ∈ [0, 1, 2, 3], ∀ L ∈ (warpV fun _ => 0x2000).active j, (seatOf (warpV fun _ => 0x2000)).exe.rd64 2 L = 0x2000) ∧
    (GangRuns (.brx 2) (gangW (warpV fun _ => 0x2002)) (seatOf (warpV fun _ => 0x2002)) ∧
      ∀ L ∈ (warpV fun _ => 0x2002).active 0, (seatOf (warpV fun _ => 0x2002)).exe.rd64 2 L = 0x2002) ∧
    (GangRuns (.brx 2) (gangW (warpV fun L => if L = 1 then 0x2000 else 0x1000)) (seatOf (warpV fun L => if L = 1 then 0x2000 else 0x1000)) ∧
      (seatOf (warpV fun L => if L = 1 then 0x2000 else 0x1000)).exe.rd64 2 1 ≠ (seatOf (warpV fun L => if L = 1 then 0x2000 else 0x1000)).exe.rd64 2 0) ∧
    CollieRuns (.brx 2) collie thread0 ∧ McRuns (.brx 30) mc ∧ (gang.ctxOf 1).fwd = [] := by
  refine ⟨⟨gangRuns_sound (by decide), by decide⟩, ⟨gangRuns_sound (by decide), by decide⟩, ⟨gangRuns_sound (by decide), by decide⟩,
    collieRuns_sound (by decide), mcRuns_sound (by decide), by decide⟩

/-- CallsSlideTheWindow: each of the three words, with a window that fits; a RET that lowers the window to 0. -/
def warpR : Warp := ((warpM 0).mapSlices [0, 1, 2, 3] fun _ x => { x with base := 4 }).write 42 ((List.range 16).map fun L => (L, 0x2000))
theorem witness_calls :
    (GangRuns (.call 4 5) gang seat ∧ GangRuns (.calli 44 2) (gangW (warpV fun _ => 0x2000)) (seatOf (warpV fun _ => 0x2000)) ∧
      ∀ j ∈ [0, 1, 2, 3], (warpM 0).overflows 64 192 j 4 = false ∧ (warpV fun _ => 0x2000).overflows 64 192 j 44 = false) ∧
    (GangRuns (.ret 4) (gangW warpR) (seatOf warpR) ∧ sparseWf 0 warpR.regs = true ∧
      ∀ j ∈ [0, 1, 2, 3], 4 ≤ (warpR.slice j).base ∧ ∀ L ∈ warpR.active j, (seatOf warpR).exe.rd64 42 L = 0x2000) := by
  refine ⟨⟨gangRuns_sound (by decide), gangRuns_sound (by decide), by decide⟩, gangRuns_sound (by decide), by decide, by decide⟩

/-- CALL leaves the return address in the new window's w42 and the caller's w4 as the callee's w0 (R155, by hand). -/
theorem test_call : (match exec (.call 4 5) (gangW ((warpM 0).write 4 [(9, 77)])) with
    | .next t => (t.findWarp 0 0).map fun w => ((w.slice 2).pc, (w.slice 2).base, w.read 42 9, w.read 43 9, w.read 0 9)
    | _ => none) = some (0x1014, 4, 0x1004, 0, 77) := by decide

/-- RunsEndAtTrailersAndExit: trailers on each agent, with a pending result that one of them names; EXIT. -/
def warpPend : Warp := { warpM 0 with pend := [{ id := 1, names := [.lane 5], slices := [0], writes := [] }] }
theorem witness_trailers : GangRuns (.trl 1 5 0 0) (gangW warpPend) (seatOf warpPend) ∧ GangRuns (.trlRange 0 43) (gangW warpPend) (seatOf warpPend) ∧
    CollieRuns (.trl 0 0 0 0) collie thread0 ∧ McRuns (.trlRange 0 31) mc := by
  refine ⟨gangRuns_sound (by decide), gangRuns_sound (by decide), collieRuns_sound (by decide), mcRuns_sound (by decide)⟩
theorem witness_exit : GangRuns .exit gang seat ∧ (∀ h ∈ (warpM 0).gangs, ∀ set, h.park ≠ .regang set) ∧ gang.pillows.ops = [] := by
  refine ⟨gangRuns_sound (by decide), ?_, by decide⟩
  simp [warpM]

/-- WaitingWordsParkTheGang: YIELD; YIELD.B with a second gang whose slice has not marked; REGANG with that gang not waiting, and alone. -/
def warp2 : Warp := { warpM 0 with gangs := [{ slices := [0, 1, 2], run := some {} }, { slices := [3] }] }
theorem witness_waiting : GangRuns (.yield 2) gang seat ∧ GangRuns (.yieldB 0 2) (gangW warp2) (seatOf warp2) ∧
    (∃ h ∈ warp2.gangs, h.slices.head? ≠ some 0 ∧ h.slices ≠ [] ∧ h.yieldBar = none ∧ ∀ j ∈ h.slices, (warp2.slice j).live = true ∧ j ∉ [0, 1, 2]) ∧
    GangRuns (.regang 0xF) (gangW warp2) (seatOf warp2) ∧ (∃ j ∈ regangSet warp2 (seatOf warp2).g 0xF, j = 3) ∧
    GangRuns (.regang 0xF) gang seat ∧ regangSet (warpM 0) seat.g 0xF = seat.g.slices ∧ (warpM 0).gangs = [seat.g] := by
  refine ⟨gangRuns_sound (by decide), gangRuns_sound (by decide), by decide, gangRuns_sound (by decide), by decide, gangRuns_sound (by decide), by decide, by decide⟩

/-! ### The hypotheses of the statements about traps, special registers and handlers -/

/-- A warp that no lane of which executes: the guard is predicate 1, which is clear. -/
abbrev warpG : Warp := warpM 0x9

/-- TrapsEndTheTask: TRAP with and without an executing lane on each agent; a gang, thread and controller that can take a word. -/
theorem witness_trap : GangRuns (.trap 0xFFF) gang seat ∧ seat.exe.lanes.head? = some 0 ∧ GangRuns (.trap 0) (gangW warpG) (seatOf warpG) ∧
    (seatOf warpG).exe.lanes = [] ∧ CollieRuns (.trap 1) collie thread0 ∧ guardHolds thread0.x.mode thread0.x.p 0 = true ∧ McRuns (.trap 1) mc ∧
    guardHolds mc.mc.x.mode mc.mc.x.p 0 = true ∧ mc.mc.etrap = 0 := by
  refine ⟨gangRuns_sound (by decide), by decide, gangRuns_sound (by decide), by decide, collieRuns_sound (by decide), by decide, mcRuns_sound (by decide), by decide, by decide⟩
theorem witness_untrapped : Untrapped gang 1 := by unfold Untrapped; decide
theorem witness_gang_ready : gang.seat 0 0 0 = some seat ∧ seat.ready = true ∧ (gang.ctxOf 1).gated = false ∧ gang.sched.cur = some (.gang 0 0 0) := by decide
theorem collie_ready : CollieReady (.cpy 0) collie thread0 := ⟨rfl, rfl, rfl, rfl, rfl, rfl, rfl⟩
theorem mc_ready : McReady mc := ⟨by decide, by decide, by decide⟩

/-- TRAP reports the lowest executing lane and its code (R225, R211, by hand). -/
theorem test_trap : (match exec (.trap 0xABC) (gangM 0) with
    | .next t => (t.wg 1).fault.map fun r => (r.cause, r.lane, r.arg0, r.pc)
    | _ => none) = some (0x28, 0, 0xABC, 0x1000) := by decide

/-- SpecialRegistersReadAndWrite: every register on a gang, a thread and the controller; a register that may not be written. -/
theorem witness_special_read : (List.range 18).all (fun n => gangRuns (.rdsr 1 (BitVec.ofNat 8 n)) gang seat) = true ∧
    [0, 1, 3, 4, 5, 6, 0xA, 0xB, 0xD, 0xE, 0xF, 0x10, 0x11].all (fun n => collieRuns (.rdsr 1 (BitVec.ofNat 8 n)) collie thread0) = true ∧
    [0, 0xA, 0xD, 0xE, 0xF, 0x10, 0x20, 0x21, 0x22, 0x23].all (fun n => mcRuns (.rdsr 1 (BitVec.ofNat 8 n)) mc) = true := by decide
/-- A frame that a handler of the four slices runs under. -/
def frame0 : Frame :=
  { epc := 0x1000, eword := 0x100C1080, emask := 0xFFFF, ecause := 1, etrap := 0, mode := 0, lanemask := 0xF, stack := [], base := 0
    run := {}, temps := [], cover0 := 0, cover1 := 0, members := [0, 1, 2, 3], owin := [] }
/-- A warp inside a handler. -/
def warpH : Warp := (warpM 0).mapSlices [0, 1, 2, 3] fun _ x => { x with pc := 0x3000, base := 44, frames := [frame0] }
abbrev gangH : State := gangW warpH
abbrev seatH : Seat := seatOf warpH
theorem witness_special_write : [0, 8, 9, 0xB, 0xC].all (fun n => gangRuns (.wrsr 1 (BitVec.ofNat 8 n)) gangH seatH) = true ∧
    seatH.exe.lanes.head? = some 0 ∧ gangRuns (.wrsr 1 0) (gangW warpG) (seatOf warpG) = true ∧
    fieldsOk seat.profile (.wrsr 1 1) = true ∧ disabled (gang.wg 1).opdis 0xF2 = false ∧ seat.inHandler = false ∧
    collieRuns (.wrsr 1 0) collie thread0 = true ∧ [0, 0xA, 0x10, 0x20, 0x23].all (fun n => mcRuns (.wrsr 1 (BitVec.ofNat 8 n)) mc) = true := by decide

/-- The small machine whose context names handlers at 0x3000 with a nesting limit of 2. -/
def handled (a : Agent) (w : Warp) : State :=
  { machine a w with ctxs := [{ ctx0 with emuentry := 0x3000, emunest := 2, collieentry := 0x3100, guardentry := 0x3200 }] }

/-- HandlersAreEntered: a gang below its limit; at it; with no handler; with a result pending; a thread without and with a frame. -/
theorem handler_open : HandlerOpen (handled (.gang 0 0 0) (warpM 0)) seat 0x3000 :=
  ⟨by decide, by decide, by decide, by decide, by decide, by decide, by decide, by decide, by decide, by decide⟩
theorem witness_handler_stops :
    (2 ≤ ((warpH.mapSlices [0] fun _ x => { x with frames := [frame0, frame0] }).slice 0).frames.length) ∧ (gang.ctxOf 1).emuentry = 0 ∧
    warpPend.pend.any (fun p => p.slices.any (seatOf warpPend).g.slices.contains) = true ∧ seat.g.mustExit = false ∧ seat.run.words < Config.runLimit ∧
    encode (.dfma 4 8 10 12) = some 0xF810828C := by decide
theorem witness_scalar_handlers : ((handled (.collie 0 0) (warpM 0)).ctxOf 1).collieentry ≠ 0 ∧ thread0.frame = none ∧ thread0.x.run.words < Config.runLimit ∧
    (collie.ctxOf 1).collieentry = 0 ∧ thread0.x.pend = [] := by decide
theorem witness_collie_ready : CollieReady (.emulationEntry 0 1) (handled (.collie 0 0) (warpM 0)) thread0 := ⟨rfl, rfl, rfl, rfl, rfl, rfl, rfl⟩

/-- A word of an unallocated major enters the handler with its register fields' values in the operand window (R221, by hand). -/
theorem test_emulation_entry : (match exec (.emulationEntry 0x25001080 1) (handled (.gang 0 0 0) ((warpM 0).write 1 [(5, 70)])) with
    | .next t => (t.findWarp 0 0).map fun w => ((w.slice 1).pc, (w.slice 1).base, (w.slice 1).frames.map fun f => (f.epc, f.eword, sparseGet 0 f.owin (regKey 0 5)))
    | _ => none) = some (0x3000, 44, [(0x1000, 0x25001080, 70)]) := by decide

/-- HandlersReachAndRestoreTheCaller: the words of a handler on its gang, and EMURET with a frame that the gang holds whole. -/
theorem witness_handler_words : [Instr.emuget 1 7, .emuput 3 1, .emurd 1 0 43 0, .emurd 1 2 7 0, .emurd 1 3 1 1, .emurd 1 4 15 3, .emurd 1 5 7 15, .emuwr 1 0 43 0,
    .emuwr 1 1 7 0, .emuwr 1 2 7 0, .emuwr 1 3 1 0, .emuwr 1 5 7 0, .emuret 0 0 0, .emuret 1 1 0].all (fun i => gangRuns i gangH seatH) = true ∧
    (∀ j ∈ seatH.g.slices, (warpH.slice j).frames.head? = some frame0 ∧ sparseWf 0 frame0.owin = true ∧ frame0.lanemask ≠ 0 ∧
      ∀ i ∈ frame0.members, i ∈ seatH.g.slices) ∧ sparseWf 0 warpH.regs = true ∧ sparseWf 0 warpH.s = true := by decide
theorem witness_emuret_text : inCode frame0.epc 1 := by unfold inCode; decide
/-- EMURD of a temporary that the caller's run has made valid. -/
theorem witness_emurd_temp : gangRuns (.emurd 1 1 2 0) (gangW (warpH.mapSlices [0, 1, 2, 3] fun _ x => { x with frames := [{ frame0 with run := { temps := 4 } }] }))
    (seatOf (warpH.mapSlices [0, 1, 2, 3] fun _ x => { x with frames := [{ frame0 with run := { temps := 4 } }] })) = true := by decide

/-! ### The hypotheses of the statements about memory words -/

/-- A capability of the partition over length bytes at base, with every permission but V. -/
def capOf (base length : Nat) : Cap := { bits := BitVec.ofNat 128 (base + 2 ^ 56 * length + 2 ^ 117 * 0x1D), valid := true }
/-- The same with V. -/
def capV (base length : Nat) : Cap := { bits := BitVec.ofNat 128 (base + 2 ^ 56 * length + 2 ^ 117 * 0x1F), valid := true }
/-- A sealing key for object 7 (R168). -/
def key7 : Cap := { bits := BitVec.ofNat 128 (2 ^ 100 * 7), valid := true }
/-- The capability sealed under object n. -/
def sealedCap (n : Nat) : Cap := ((capOf 0x2000 64).put 100 16 n).put 127 1 1

/-- The offset of each lane: 4 bytes apart from o on. -/
def warpO (o : Nat) : Warp := (warpM 0).write 1 ((List.range 16).map fun L => (L, BitVec.ofNat 32 (o + 4 * L)))

/-- OnChipWordsIssueTheirAccesses: level 0 to the end of its bytes, level 1 at its last byte, one byte beyond, and misaligned; the
scalar agents. -/
theorem witness_on_chip :
    (GangRuns (.ldl 2 1 60 0 0) (gangW (warpO 0)) (seatOf (warpO 0)) ∧ ∀ L ∈ (seatOf (warpO 0)).exe.lanes, 4 * L + 4 ≤ gang.levelLimit group1 0) ∧
    (GangRuns (.sts 2 1 60 0) (gangW (warpO 192)) (seatOf (warpO 192)) ∧ (seatOf (warpO 192)).exe.lanes.getLast? = some 15 ∧ 192 + 4 * 15 + 4 = gang.levelLimit group1 1) ∧
    (GangRuns (.lds 2 1 60 0 0) (gangW (warpO 196)) (seatOf (warpO 196)) ∧ gang.levelLimit group1 1 < 196 + 4 * 15 + 4) ∧
    (GangRuns (.lds 2 1 60 15 1) (gangW (warpO 0)) (seatOf (warpO 0)) ∧ ((warpO 0).read 1 1).toNat % 8 = 4) ∧
    GangRuns (.ldc 2 1 60 0 0) (gangW (warpO 0)) (seatOf (warpO 0)) ∧ GangRuns (.std 2 1 60 0) (gangW (warpO 0)) (seatOf (warpO 0)) ∧
    CollieRuns (.lds 2 1 60 0 0) collie thread0 ∧ CollieRuns (.sts 2 1 60 0) collie thread0 ∧ McRuns (.lds 2 1 60 0 0) mc ∧ McRuns (.sts 4 1 60 2) mc := by
  refine ⟨⟨gangRuns_sound (by decide), by decide⟩, ⟨gangRuns_sound (by decide), by decide⟩, ⟨gangRuns_sound (by decide), by decide⟩,
    ⟨gangRuns_sound (by decide), by decide⟩, gangRuns_sound (by decide), gangRuns_sound (by decide), collieRuns_sound (by decide),
    collieRuns_sound (by decide), mcRuns_sound (by decide), mcRuns_sound (by decide)⟩

/-- A store to the workgroup's scratchpad and its performance: the bytes stand at the offset, in memory order (R166, R5, by hand). -/
theorem test_store_performed : (match exec (.sts 2 1 60 0) (gangW ((warpO 0).write 2 [(0, 0x11223344)])) with
    | .next t => (match exec (.storePerform 3) t with
      | .next u => some (u.mem.bytes 0 (u.levelKey group1 1 0 0) 4)
      | _ => none)
    | _ => none) = some [0x44, 0x33, 0x22, 0x11] := by decide

/-- CapabilityChecksComeInOrder: each failing check alone, and none. -/
theorem witness_capability_checks : (capOf 0x2000 64).Opens 0 permR 4 [0, 60] ∧ (capOf 0x2000 64).valid = true ∧ (sealedCap 7).sealed = true ∧
    (capOf 0x2000 64).perms &&& 2 ≠ 2 ∧ [((0 : Nat), (60 : Nat)), (1, 61)].find? (fun e => decide ((capOf 0x2000 64).length < e.2 + 4)) = some (1, 61) ∧
    [((0 : Nat), (0 : Nat)), (3, 2)].find? (fun e => e.2 % 4 != 0) = some (3, 2) ∧ (capOf 0x2000 64).owner ≠ 5 ∧ (capOf 0x2000 64).owner ≠ hostShared := by
  refine ⟨⟨by decide, by decide, by decide, by decide, by decide⟩, by decide, by decide, by decide, by decide, by decide, by decide, by decide⟩

/-- A warp with capabilities c0 and c1, the offsets of warpO, and n entries of queue 0, arrived or not. -/
def entry0 (waiting : List Nat) : QEntry := { id := 1, width := 1, mask := 0xFFFF, data := [(4, 9)], waiting := waiting }
def warpQ (n : Nat) (waiting : List Nat) : Warp := { warpO 0 with c := [(0, capOf 0x2000 64), (1, capV 0x2000 64)], q0 := List.replicate n (entry0 waiting) }

/-- QueueWordsAndAtomics: GLQ into the last place and a full queue; WAITQ for arrived, missing and absent entries; POPQ; GSQ plain and
versioned, with room in the quota and without. -/
theorem witness_queue_words :
    (GangRuns (.glq 0 0 0 1 0) (gangW (warpQ 15 [])) (seatOf (warpQ 15 [])) ∧ (warpQ 15 []).q0.length < 16 ∧
      GangRuns (.glq 0 0 0 1 0) (gangW (warpQ 16 [])) (seatOf (warpQ 16 [])) ∧ 16 ≤ (warpQ 16 []).q0.length ∧
      ((warpQ 16 []).cap 0).Opens 0 permR 4 ((seatOf (warpQ 16 [])).exe.lanes.map fun L => ((warpQ 16 []).read 1 L).toNat)) ∧
    (GangRuns (.waitq 0 2) (gangW (warpQ 2 [])) (seatOf (warpQ 2 [])) ∧ GangRuns (.waitq 0 2) (gangW (warpQ 2 [3])) (seatOf (warpQ 2 [3])) ∧
      GangRuns (.waitq 0 2) (gangW (warpQ 1 [])) (seatOf (warpQ 1 []))) ∧
    (GangRuns (.popq 0 0 2) (gangW { warpQ 1 [] with cover0 := 1 }) (seatOf { warpQ 1 [] with cover0 := 1 }) ∧
      GangRuns (.popq 0 1 2) (gangW { warpQ 1 [] with cover0 := 1 }) (seatOf { warpQ 1 [] with cover0 := 1 }) ∧ (entry0 []).width ≠ 2 ^ 1) ∧
    (GangRuns (.gsq 0 0 1 2 0) (gangW (warpQ 0 [])) (seatOf (warpQ 0 [])) ∧ ((warpQ 0 []).cap 1).versioned = true ∧ ((warpQ 0 []).cap 0).versioned = false ∧
      ({ group1 with versionOpen := true } : Workgroup).holds ∧ (linesOf [(0x2000, 4)]).length = 1) ∧
    gang.findWg 1 = some (gang.wg 1) := by
  refine ⟨⟨gangRuns_sound (by decide), by decide, gangRuns_sound (by decide), by decide, ⟨by decide, by decide, by decide, by decide, by decide⟩⟩,
    ⟨gangRuns_sound (by decide), gangRuns_sound (by decide), gangRuns_sound (by decide)⟩,
    ⟨gangRuns_sound (by decide), gangRuns_sound (by decide), by decide⟩, ⟨gangRuns_sound (by decide), by decide, by decide, ⟨by decide, by decide⟩, by decide⟩, by decide⟩

/-- QueueWordsAndAtomics: on a level, through a capability with a queue entry for the old values, with tickets, and on a thread. -/
def threadC : Collie := { thread0 with c := [(0, capOf 0x2000 64), (2, key7), (3, sealedCap 7)] }
def collieC : State := { collie with collies := [threadC] }
theorem witness_atomics : GangRuns (.atom 0 0 0 16 1 2) (gangW (warpQ 0 [])) (seatOf (warpQ 0 [])) ∧ GangRuns (.atom 9 1 1 0 1 4) (gangW (warpQ 15 [])) (seatOf (warpQ 15 [])) ∧
    GangRuns (.atomSc 0 0 0 0 0 1 2) (gangW (warpQ 0 [])) (seatOf (warpQ 0 [])) ∧ GangRuns (.atomSc 0 0 0 1 0 1 2) (gangW (warpQ 0 [])) (seatOf (warpQ 0 [])) ∧
    ((warpQ 0 []).cap 0).Opens 0 (permR + permW) 4 ((seatOf (warpQ 0 [])).exe.lanes.map fun L => ((warpQ 0 []).read 1 L).toNat) ∧
    CollieRuns (.atom 0 0 0 16 1 2) collieC threadC ∧ CollieRuns (.atom 0 0 0 0 1 2) collieC threadC ∧
    (sparseGet ({} : Cap) threadC.c 0).Opens 0 (permR + permW) 4 [0] := by
  refine ⟨gangRuns_sound (by decide), gangRuns_sound (by decide), gangRuns_sound (by decide), gangRuns_sound (by decide),
    ⟨by decide, by decide, by decide, by decide, by decide⟩, collieRuns_sound (by decide), collieRuns_sound (by decide), ⟨by decide, by decide, by decide, by decide, by decide⟩⟩

/-- An access of the gang to the workgroup's scratchpad, and one of the controller to its SRAM. -/
def access0 (act : AccessAct) : Access :=
  { id := 5, who := .gang 0 0 0, word := 5, pc := 0x1000, lane := 0, wg := 1, part := 0, ctx := 0, owner := 0, global := false, addr := rowKey 0 [0] 0, size := 4, act := act }
def accessM (act : AccessAct) (addr size : Nat) : Access :=
  { id := 5, who := .mc, word := 5, pc := 0, lane := 0xFF, wg := 0, part := 0, ctx := 0, owner := 0, global := false, addr := sramKey addr, size := size, act := act }
def withAccess (l : List Access) : State := gang.withMem { gang.mem with access := l }

/-- AccessesArePerformedAndArrive: an access that may be performed, of each kind, behind nothing; one behind another to its bytes. -/
theorem witness_lands (act : AccessAct) :
    (withAccess [access0 act]).mem.access.find? (fun b => b.id == 5) = some (access0 act) ∧ (access0 act).parked = none ∧ (access0 act).sent = none ∧
      isRemote (access0 act).addr = false := ⟨rfl, rfl, rfl, rfl⟩
theorem witness_lands_here : [AccessAct.load (.pend 1 0), .store 7 none false, .store 7 none true, .atom 10 1 2 none, .atom 9 1 2 (some (.pend 1 0))].all (fun act =>
      !(withAccess [access0 act]).blocked (access0 act) && !(withAccess [access0 act]).muWaits (access0 act)) = true ∧
    (withAccess [{ access0 (.store 7 none false) with id := 4 }, access0 (.load (.pend 1 0))]).blocked (access0 (.load (.pend 1 0))) = true ∧
    [accessM (.load (.pend 1 0)) 0x7FFFC 4, accessM (.store 7 none false) 0x5FFF0 16, accessM (.store 7 none false) 0x64000 4, accessM (.store 7 none false) 0x80010 16].all
      (fun a => !(withAccess [a]).blocked a && !(withAccess [a]).muWaits a && !isRemote a.addr) = true := by decide

/-- An access through a capability to an address that the context maps nowhere. -/
def accessG : Access := { access0 (.load (.pend 1 0)) with global := true, addr := 0x123456789000 }
theorem witness_no_translation : (withAccess [accessG]).blocked accessG = false ∧ (gang.wg 1).fault = none ∧
    ∃ r l, (withAccess [accessG]).translate 0 0 0 0 0x123456789000 needR = .error (r, l) := ⟨by decide, by decide, _, _, rfl⟩

/-- AccessesArePerformedAndArrive: results with nothing outstanding and with one access, a queue entry, words that wait, a ticket. -/
theorem witness_arrivals : (∀ a ∈ gang.mem.access, a.feeds 1 = false) ∧ gang.findWarp 0 0 = some (warpM 0) ∧ (warpM 0).claims = [] ∧
    collie.findCollie 0 0 = some thread0 ∧ (withAccess [access0 (.load (.pend 1 0))]).mem.access.filter (·.feeds 1) = [access0 (.load (.pend 1 0))] ∧
    ((gangW (warpQ 1 [0])).findWarp 0 0 = some (warpQ 1 [0]) ∧ (warpQ 1 [0]).q0[0]? = some (entry0 [0])) ∧
    (gangW { warpM 0 with gangs := [{ slices := [0, 1, 2, 3], run := some {}, hold := .data 5 }] }).seat 0 0 0 =
      some (seatOf { warpM 0 with gangs := [{ slices := [0, 1, 2, 3], run := some {}, hold := .data 5 }] }) ∧
    ({ access0 (.atom 0 1 0 none) with seqr := some 1 } : Access).ticket = none := by decide

/-! ### The hypotheses of the statements about ordering, barriers, capabilities and skeins -/

/-- The small machine whose context maps the first gigabyte to itself (R341). -/
def mapped (a : Agent) (w : Warp) : State :=
  { machine a w with mem := State.reset.mem.boot 0, ctxs := [{ ctx0 with troot := bootTable }] }

/-- A translation that answers an address of this device. -/
def here (x : Except (Nat × Nat) (Nat × State)) : Bool := match x with | .ok (k, _) => !isRemote k | .error _ => false
theorem here_sound {x : Except (Nat × Nat) (Nat × State)} (h : here x = true) : ∃ k u, x = .ok (k, u) ∧ isRemote k = false := by
  match x, h with
  | .ok (k, u), h => exact ⟨k, u, rfl, by simpa [here] using h⟩

/-- FencesAndReleasesOrderAccesses: fences with and without an access in flight, on each agent. -/
theorem witness_fences : GangRuns (.fence 5) gang seat ∧ GangRuns (.fenceX 2 1 4) gang seat ∧ GangRuns (.fenceX 2 2 4) gang seat ∧
    ((1 : BitVec 5) ||| 4) &&& 0x11 ≠ 0 ∧ ((2 : BitVec 5) ||| 4) &&& 0x11 = 0 ∧ seat.issued [0] (access0 (.load (.pend 1 0))) ∧
    GangRuns (.fence 0) (withAccess [access0 (.load (.pend 1 0))]) seat ∧ CollieRuns (.fence 0) collie thread0 ∧ McRuns (.fence 6) mc := by
  refine ⟨gangRuns_sound (by decide), gangRuns_sound (by decide), gangRuns_sound (by decide), by decide, by decide, ⟨rfl, rfl, 0, by decide, rfl⟩,
    gangRuns_sound (by decide), collieRuns_sound (by decide), mcRuns_sound (by decide)⟩

/-- The same: BIND with and without the permission, in a table with room and in a full one, and its dissolution; REL with and without a
bound write in flight; ACQ at a mapped object. -/
def boundWrite : Access := { access0 (.store 7 none false) with global := true, addr := 0x2000 }
def bind0 : Binding := { part := 0, ctx := 0, base := 0x2000, length := 64, object := 0x2000 }
theorem witness_entry_consistency : GangRuns (.bind 0 0 60 0) (gangW (warpQ 0 [])) (seatOf (warpQ 0 [])) ∧ GangRuns (.bind 1 0 60 1) (gangW (warpQ 0 [])) (seatOf (warpQ 0 [])) ∧
    ((warpQ 0 []).cap 0).perms &&& permB ≠ 0 ∧ (((capOf 0x2000 64).put 117 5 0x1C).perms &&& permB = 0) ∧ (List.replicate 1024 bind0).length = 1024 ∧
    GangRuns (.rel 0 60 2) (gangW (warpQ 0 [])) (seatOf (warpQ 0 [])) ∧ (boundWrite.global = true ∧ boundWrite.writes = true ∧ bind0.base ≤ boundWrite.addr ∧
      boundWrite.addr + boundWrite.size ≤ bind0.base + bind0.length) ∧ ((warpQ 0 []).cap 0).Opens 0 (permR + permW) 8 [0] ∧
    GangRuns (.acq 52 0 60 6) (mapped (.gang 0 0 0) (warpQ 0 [])) (seatOf (warpQ 0 [])) ∧ (mapped (.gang 0 0 0) (warpQ 0 [])).mem.access = [] ∧
    ∃ k u, (mapped (.gang 0 0 0) (warpQ 0 [])).nextFree.translate 0 0 0 0 0x2000 needR = .ok (k, u) ∧ isRemote k = false := by
  refine ⟨gangRuns_sound (by decide), gangRuns_sound (by decide), by decide, by decide, List.length_replicate, gangRuns_sound (by decide), by decide,
    ⟨by decide, by decide, by decide, by decide, by decide⟩, gangRuns_sound (by decide), by decide, here_sound (by decide)⟩

/-- WaitmonParksOnALine: at a level and through a capability, on each agent; with no lane; a table with room and a full one. -/
def monitor0 (who : Agent) : Monitor := { who := who, core := 0, line := 0, since := 0, limit := 0, hit := true }
theorem witness_waitmon : GangRuns (.waitmon 1 0 60 60 60) gang seat ∧ inCode 0x1000 1 ∧ GangRuns (.waitmon 1 0 60 60 60) (gangW warpG) (seatOf warpG) ∧
    (BitVec.ofNat 32 (gang.mem.read 0 (gang.levelKey group1 1 0 0) 4) = (warpM 0).read 60 0) ∧
    GangRuns (.waitmon 1 0 60 62 60) gang seat ∧ GangRuns (.waitmon 1 0 60 61 60) gang seat ∧
    GangRuns (.waitmon 0 0 60 60 60) (mapped (.gang 0 0 0) (warpQ 0 [])) (seatOf (warpQ 0 [])) ∧ ((warpQ 0 []).cap 0).Opens 0 permR 4 [0] ∧
    (∃ k u, (mapped (.gang 0 0 0) (warpQ 0 [])).nextFree.translate 0 0 0 0 0x2000 needR = .ok (k, u) ∧ isRemote k = false) ∧
    CollieRuns (.waitmon 1 0 60 60 60) collie thread0 ∧ McRuns (.waitmon 1 0 60 60 60) mc ∧ (64 : Nat) ≤ (List.replicate 64 (monitor0 .mc)).length := by
  refine ⟨gangRuns_sound (by decide), by unfold inCode; decide, gangRuns_sound (by decide), by decide, gangRuns_sound (by decide), gangRuns_sound (by decide),
    gangRuns_sound (by decide), ⟨by decide, by decide, by decide, by decide, by decide⟩, here_sound (by decide), collieRuns_sound (by decide), mcRuns_sound (by decide), by simp⟩
theorem witness_wakes : (gang.withMem { gang.mem with monitors := [monitor0 (.gang 0 0 0)] }).monitorOf (.gang 0 0 0) = some (monitor0 (.gang 0 0 0)) ∧
    (gang.withMem { gang.mem with monitors := [monitor0 (.gang 0 0 0)] }).agentFrozen (.gang 0 0 0) = false := by decide

/-- BarriersGatherTheirArrivals: the three words; arrivals short of and equal to the count; a barrier that the workgroup has not. -/
theorem witness_barriers : [Instr.barInit 0 1, .barInit 0 2, .barInit 1 1, .barArrive 0, .barWait 0 0, .barWait 0 1, .barWait 15 0].all
      (fun i => gangRuns i gang seat) = true ∧ gang.findWg 1 = some (gang.wg 1) ∧ group1.bars.length = 1 ∧
    (∀ j, (warpM 0 |>.slice j).live = true → j < 4 → ((0 : Nat), j) ∈ [0, 1, 2, 3].map fun j => ((0 : Nat), j)) ∧ (group1.bars.getD 0 default).before = [] := by
  refine ⟨by decide, by decide, by decide, ?_, by decide⟩
  intro j _ h
  simp; omega

/-- The last live slices of the only warp complete a phase of count 1 (R246, by hand). -/
theorem test_barrier_completes : (match exec (.barArrive 0) gang with
    | .next t => some ((t.wg 1).bars.map fun b => (b.arrivals, b.phase, b.marks))
    | _ => none) = some [(0, 1, [])] := by decide

/-- CapabilitiesDeriveAndMove: each word on a gang and a thread; bounds kept and exceeded; keys good and bad; invalid and sealed sources. -/
def warpC : Warp := { warpM 0 with c := [(0, capOf 0x2000 64), (2, key7), (3, sealedCap 7), (4, sealedCap 8)], s := [(0, 16), (2, 48), (4, 49)] }
theorem witness_capability_words : [Instr.cmov 1 3, .csetb 1 0 52 54, .csetb 1 0 52 56, .csetb 1 5 52 54, .csetb 1 3 52 54, .candp 1 0 16, .candp 1 5 16, .cseal 1 0 2, .cseal 1 0 0,
      .cunseal 1 3 2, .cunseal 1 4 2, .cunseal 1 0 2, .cget 53 0 7, .cldc 1 0 60, .cstc 3 0 60].all (fun i => gangRuns i (gangW warpC) (seatOf warpC)) = true ∧
    [Instr.cmov 1 3, .csetb 1 0 60 60, .candp 1 0 16, .cseal 1 0 2, .cunseal 1 3 2, .cget 1 0 1, .cldc 1 0 60, .cstc 3 0 60].all (fun i => collieRuns i collieC threadC) = true ∧
    key7.isKey = true ∧ (capOf 0x2000 64).isKey = false ∧ (sealedCap 7).objid = key7.objid ∧ (sealedCap 8).objid ≠ key7.objid ∧
    16 + 48 ≤ (capOf 0x2000 64).length ∧ (capOf 0x2000 64).length < 16 + 49 ∧ (sparseGet ({} : Cap) warpC.c 5).valid = false := by decide
theorem witness_capability_moves : ((warpC).cap 0).Opens 0 permW 16 [0] ∧ ((warpC).cap 0).Opens 0 permR 16 [0] ∧ ¬ (((warpC).cap 0).versioned = true ∧ (gang.wg 1).holds) ∧
    capFault ((warpC).cap 0) 0 0 permW 16 [(0xFF, 8)] = some { cause := 0x11, lane := 0xFF, addr := 8 } := by
  refine ⟨⟨by decide, by decide, by decide, by decide, by decide⟩, ⟨by decide, by decide, by decide, by decide, by decide⟩, ?_, by decide⟩
  intro h; exact absurd h.1 (by decide)

/-- SkeinWordsComputeCoefficients: coefficients at the ends of the slot range and beyond it; each word; a slot out of range with and
without a guard handler. -/
theorem witness_slots : (4 : Nat) ≤ 4 ∧ ([7, -7] : List Int).length = 8 / 4 ∧ (∀ e ∈ ([7, -7] : List Int), -(2 ^ (4 - 1) - 1 : Int) ≤ e ∧ e ≤ 2 ^ (4 - 1) - 1) ∧
    kput 4 8 true [7, -8] = .error 1 ∧ kput 4 8 false [15, 16] = .error 1 := by decide
theorem witness_skein_words : [Instr.kgw 1 1 2 1 1 1, .kgwRd 0 52, .kgwRd 5 59, .kpack 0 1 0 0 0 0, .kpack 7 1 2 1 1 255, .kext 4 2 1 0 2 3, .kmul 2 0 1, .kmac 6 7 7, .kadd 1 2 3 0 0,
    .ksub 0 2 4 1 2, .kshl 1 2 0 1 255, .kshr 2 4 1 0 1, .kmov 1 2 0 0, .kmov 6 0 1 1].all (fun i => gangRuns i gang seat) = true ∧ gang.bobbinFree 0 = true ∧
    inSlot 8 true 128 = false ∧ inSlot 8 true 127 = true := by decide
theorem witness_guard_handler : HandlerOpen (handled (.gang 0 0 0) (warpM 0)) seat ((handled (.gang 0 0 0) (warpM 0)).ctxOf 1).guardentry :=
  ⟨by decide, by decide, by decide, by decide, by decide, by decide, by decide, by decide, by decide, by decide⟩

/-- SkeinsMoveToAndFromMemory: through a capability and in the scratchpad, to its last byte and beyond. -/
theorem witness_skein_moves : GangRuns (.kld 0 0 0 60) (gangW warpC) (seatOf warpC) ∧ GangRuns (.kst 2 1 16 60) (gangW warpC) (seatOf warpC) ∧
    ((warpC).cap 0).Opens 0 permR 64 [0] ∧ 128 + 128 ≤ group1.groupB ∧ group1.groupB < 192 + 128 ∧
    capFault ((warpC).cap 0) 0 0 permR 128 [(0xFF, 0)] = some { cause := 0x10, lane := 0xFF, addr := 0, arg0 := 0 } := by
  refine ⟨gangRuns_sound (by decide), gangRuns_sound (by decide), ⟨by decide, by decide, by decide, by decide, by decide⟩, by decide, by decide, by decide⟩

/-! ### The hypotheses of the statements about tiles, the Collie and copies -/

/-- An i8 operand of one k-step of rows of 16 bytes in the workgroup's scratchpad at off (R271, R272). -/
def desc8 (off type len stride : Nat) : Nat :=
  off + 2 ^ 44 * len + 2 ^ 64 * (stride / 16) + 2 ^ 88 * 1 + 2 ^ 117 * type + 2 ^ 122 * 1
/-- A warp that holds descriptors A and B in w8 to w11 and w12 to w15 of lane 0, and 0, 16 in s2 and s3. -/
def warpT (A B : Nat) : Warp :=
  (((List.range 4).foldl (fun w k => w.write (8 + k) [(0, BitVec.ofNat 32 (A / 2 ^ (32 * k)))]) (warpM 0)) |> fun w =>
    (List.range 4).foldl (fun w k => w.write (12 + k) [(0, BitVec.ofNat 32 (B / 2 ^ (32 * k)))]) w) |> fun w => { w with s := [(3, 16)] }
/-- The small machine whose cores 0 and 1 grant the partition tiles, scale memory and Kennel units. -/
def granted (a : Agent) (w : Warp) : State :=
  { machine a w with layout := { State.reset.layout with shares := [(0, { acc := 16, sc := 16, kn := 8 }), (1, { accFirst := 0, acc := 16 })] } }
abbrev gangT (A B : Nat) : State := granted (.gang 0 0 0) (warpT A B)

/-- TileWordsAreCheckedAndQueued, TDESC: a descriptor that passes, and one for each failing detail in turn; no executing lane. -/
theorem witness_tdesc : gangRuns (.tdesc 54 8) (gangT (desc8 0 4 16 16) 0) (seatOf (warpT (desc8 0 4 16 16) 0)) = true ∧
    (seatOf (warpT (desc8 0 4 16 16) 0)).exe.lanes.head? = some 0 ∧ gangRuns (.tdesc 54 8) (gangW warpG) (seatOf warpG) = true ∧
    [(2 ^ 53, 1), (2 ^ 44 * 257, 2), (2 ^ 88 * 2 + 2 ^ 117 * 4 + 2 ^ 44 * 17 + 2 ^ 64, 4), (2 ^ 88 + 8, 5), (2 ^ 88 + 2 ^ 117 * 0xB, 6), (2 ^ 88 + 2 ^ 117 * 4 + 2 ^ 122 * 3, 7)].all
      (fun (e : Nat × Nat) => tileDetail [(BitVec.ofNat 128 e.1, 256)] == some e.2) = true ∧
    (gang.tileBounds group1 {} (BitVec.ofNat 128 (desc8 128 4 16 16))).isNone = true ∧ (gang.tileBounds group1 {} (BitVec.ofNat 128 (desc8 144 4 16 16))).isSome = true := by
  decide

/-- A stopped product and other operations of the warp. -/
def op0 (kind : TileKind) (tiles : List Nat) : TileOp := { id := 9, core := 0, slot := 0, wg := 1, part := 0, ctx := 0, pc := 0x1000, kind := kind, tiles := tiles }
def product0 : TileOp := op0 (.product false 0 (BitVec.ofNat 128 (desc8 0 4 16 16)) (BitVec.ofNat 128 (desc8 128 4 16 16)) {} {}) [0, 1, 2, 3, 4, 5, 6, 7]
def stopped0 : TileOp := { product0 with stop := some { cause := 0x25 } }
def withOps (s : State) (l : List TileOp) : State := { s with pillows := { s.pillows with ops := l } }
/-- The workgroup with a0 to a7 mapped to tiles of core 0, and a8 to a pair. -/
def groupA : Workgroup := { group1 with acc := (List.range 8).map (fun n => (n, [n])) ++ [(8, [8, 32])] }
def gangA (A B : Nat) : State := { gangT A B with wgs := [groupA] }

/-- The same, the words of the queue: checks that pass and fail, tiles and names there and not, room for a word and none, a stopped product
to resume and none, TWAIT with at most n words, more, and more than n that cannot go on. -/
theorem witness_tile_words :
    let A := desc8 0 4 16 16; let B := desc8 128 4 16 16; let w := warpT A B
    [Instr.tmma 8 12 0 1, .tmmaS 8 12 0 1, .tmmaS 8 12 0 0, .tzero 3 0 0 1 0, .tzero 3 0 0 0 1, .tzero 3 1 0 0 0, .tlda 0 0 1 1 54 55, .tsta 8 1 1 1 54 55, .scacc 9 2 1 1 56, .tmmaResume 8 12,
      .twait 0, .twait 3].all (fun i => gangRuns i (gangA A B) (seatOf w)) = true ∧ (seatOf w).exe.lanes.head? = some 0 ∧
    tileDetail [(BitVec.ofNat 128 A, 128), (BitVec.ofNat 128 B, 256)] = none ∧ (gangA A B).tileBounds groupA {} (BitVec.ofNat 128 A) = none ∧
    tileDetail [(BitVec.ofNat 128 (desc8 0 4 129 144), 128), (BitVec.ofNat 128 B, 256)] = some 2 ∧
    ((gangT A B).takeTiles 0 0 8 true).isSome = true ∧ (gang.takeTiles 0 0 1 false).isNone = true ∧ ((gangA A B).warpOps w).length < 4 ∧
    ((withOps (gangA A B) (List.replicate 4 product0)).warpOps w).length = 4 ∧ (gangA A B).nameFault groupA 7 (some false) (some false) = none ∧
    (withOps (gangA A B) [stopped0]).warpOps w = [stopped0] ∧ w.kstep.toNat % 2 ^ 20 = 0 ∧
    ((withOps (gangA A B) [stopped0]).stuckOps.contains 9) = true ∧ (groupA.tilesOf 8).length = 2 := by decide

/-- ElementsAreReadAndWritten: a mapped name, ready and not; a name with one tile only and index bit 12 set; an unmapped name; no lane. -/
theorem witness_elements : let s := gangA 0 0; let w := (warpT 0 0).write 1 [(2, 0x1000)]
    gangRuns (.axr 1 0 2 0) s (seatOf (warpT 0 0)) = true ∧ gangRuns (.axw 1 0 2 1) s (seatOf (warpT 0 0)) = true ∧ groupA.tilesOf 0 = [0] ∧ groupA.tilesOf 9 = [] ∧
    (∀ o ∈ s.pillows.ops, o.touched.any (groupA.tilesOf 0).contains = true → o.id ∈ s.stuckOps) ∧ product0.touched.contains 0 = true ∧
    (withOps s [product0]).stuckOps = [] ∧ (seatOf w).exe.lanes.find? (fun L => decide ((w.read 1 L).toNat / 4096 % 2 = 1)) = some 2 ∧
    gangRuns (.axr 1 0 2 0) (gangW warpG) (seatOf warpG) = true ∧ sparseWf 0 s.pillows.elems = true := by decide

/-- TileOperationsRun: operations that may start, each of its kinds; one behind another on its tiles; bobbins in use; a product whose
rows can be read and one that is drained. -/
def running (o : TileOp) : TileOp := { o with running := true }
theorem witness_tile_ready : TileReady (withOps (gangA 0 0) [product0]) product0 := ⟨by decide, by decide, by decide, by decide⟩
theorem witness_tile_kinds : [TileKind.zero false, .load true false 0 16, .store true true false 0 16, .scale 1 0 true [1]].all (fun k =>
      let o := op0 k [0]; let s := withOps (gangA 0 0) [o]
      (s.pillows.ops.find? (fun e => e.id == 9) == some o) && (s.opsBefore o).all fun e => !e.blocks o) = true ∧
    (withOps (gangA 0 0) [product0, { op0 (.zero false) [3] with id := 10 }]).opsBefore { op0 (.zero false) [3] with id := 10 } = [product0] ∧
    product0.blocks { op0 (.zero false) [3] with id := 10 } = true ∧ (withOps (gangA 0 0) [product0]).bobbinsBusy product0.cores = false ∧
    (withOps (gangA 0 0) [running product0]).bobbinsBusy product0.cores = true := by decide
def rowsGot (x : DrainGot) : Bool := match x with | .rows a b _ => a.length == 8 && b.length == 8 | _ => false
theorem witness_tile_drain : let A : TileDesc := BitVec.ofNat 128 (desc8 0 4 16 16); let B : TileDesc := BitVec.ofNat 128 (desc8 128 4 16 16)
    rowsGot ((withOps (gangA 0 0) [running product0]).drainRows (running product0) A B {} {} 0 1) = true ∧ product0.tiles.Nodup ∧
    (running product0).drained < TileField.ksteps A ∧ tileGroup (TileField.type A) = some 8 ∧
    TileField.ksteps A ≤ { running product0 with drained := 1 }.drained ∧ inSlot (2 * 8 + max (TileField.g A) (TileField.g B)) true 0 = true ∧
    inSlot (2 * 8) true (2 ^ 15) = false ∧ ((handled (.gang 0 0 0) (warpM 0)).ctxOf 1).guardentry ≠ 0 ∧
    (∃ w, (gangA 0 0).findWarp 0 0 = some w ∧ w.wg = 1 ∧ w.slices.any (·.live) = true) := by
  refine ⟨by decide, by decide, by decide, by decide, by decide, by decide, by decide, by decide, _, rfl, by decide, by decide⟩

/-- CopiesStartAndMove and MailboxWordsMoveRecords: each word of a thread with its guard true and false; a mailbox empty, with a record
and full; a workgroup without a thread; arrivals short of the count and equal to it. -/
def withGroup (s : State) (g : Workgroup) : State := { s with wgs := [g] }
def threadG : Collie := { thread0 with x := { thread0.x with mode := 0x9 } }
theorem witness_mailbox : gangRuns (.mpost 8) gang seat = true ∧ gangRuns (.mpost 60) (withGroup gang { group1 with thread := none }) seat = true ∧ group1.thread ≠ none ∧
    (List.replicate 16 (0 : BitVec 128)).length = 16 ∧ gangRuns (.mpost 52) (withGroup gang { group1 with mailbox := List.replicate 15 (0, []) }) seat = true ∧
    [Instr.mbx 7 1, .mbxw 0, .cwait 0, .cwait 32, .cstat 3 4, .cstat 60 0, .arrive 0, .arrive 15].all (fun i => collieRuns i collie thread0 &&
      collieRuns i { collie with collies := [threadG] } threadG) = true ∧ guardHolds thread0.x.mode thread0.x.p 0 = true ∧ guardHolds threadG.x.mode threadG.x.p 0 = false ∧
    collie.findWg 1 = some (collie.wg 1) ∧ ({ thread0 with started := 33, retired := 1 } : Collie).started - 1 = 32 ∧
    (withGroup gang { group1 with bars := [{ count := 2 }] }).wg 1 = { group1 with bars := [{ count := 2 }] } := by decide

/-- A copy of 16 bytes within the scratchpad, from 0 to 128: the block's scalars, its descriptor (R238). -/
def threadK (len : Nat) : Collie :=
  { thread0 with x := { thread0.x with s := [(1, 0x10000), (2, 128), (3, 0x10000), (4, BitVec.ofNat 32 len)] } }
def descK (len : Nat) : Nat := 2 ^ 32 * 0x10000 + 2 ^ 64 * (128 + 2 ^ 32 * 0x10000) + 2 ^ 128 * len
theorem witness_copy_words : (((List.range 8).map fun k => (Exe.rd (.scal (threadK 16).x) k 0).toNat * 2 ^ (32 * k)).sum = descK 16) ∧
    collieRuns (.cpy 0) { collie with collies := [threadK 16] } (threadK 16) = true ∧ descK 16 / 2 ^ 48 % 16 = 1 ∧ descK 16 / 2 ^ 112 % 16 = 1 ∧ descK 16 / 2 ^ 52 % 2 ^ 12 = 0 ∧
    descK 16 / 2 ^ 118 % 2 ^ 10 = 0 ∧ descK 16 / 2 ^ 176 % 2 ^ 16 = 0 ∧ 128 + 16 ≤ collie.spaceLimit group1 0 1 ∧ [(11, 0, 16), (11, 128, 16)].Pairwise
      (fun (a b : Nat × Nat × Nat) => a.1 = b.1 → a.2.1 + a.2.2 ≤ b.2.1 ∨ b.2.1 + b.2.2 ≤ a.2.1) ∧ (descK 15 / 2 ^ 128 % 2 ^ 32) < 16 ∧
    collieRuns (.cpyR 3) collie thread0 = true ∧ collieRuns (.cpyX 0) collie thread0 = true ∧ collieRuns (.cpySc 0) { collie with collies := [threadG] } threadG = true := by decide
def copy0 : Copy :=
  { id := 9, core := 0, thread := 0, wg := 1, ctx := 0, seq := 0, form := 0, desc := BitVec.ofNat 256 (descK 16), src := {}, dst := {}, flag := {}, tag := {}, pc := 0x1000 }
theorem witness_copies : ({ collie with copies := [copy0] } : State).copies.find? (fun d => d.id == 9) = some copy0 ∧ CopyField.units copy0.desc = 1 ∧
    ({ collie with copies := [copy0] } : State).unitBlocked copy0 0 = false ∧ CopyField.staging copy0.desc = false ∧ CopyField.srcSp copy0.desc = 1 ∧ CopyField.dstSp copy0.desc = 1 ∧
    (∀ u, u < CopyField.units ({ copy0 with moved := [0] } : Copy).desc → u ∈ ({ copy0 with moved := [0] } : Copy).moved) ∧ CopyField.arr copy0.desc = false ∧
    CopyField.flag copy0.desc = false ∧ CopyField.arr (copy0.desc ||| 1 <<< 160) = true := by decide

/-- A copy whose unit has moved completes and retires (R240, by hand). -/
theorem test_copy_complete : (match exec (.copyComplete 9) { collie with copies := [{ copy0 with moved := [0] }], collies := [{ thread0 with started := 1 }] } with
    | .next t => some (t.collies.map (·.retired))
    | _ => none) = some [1] := by decide

/-! ### The hypotheses of the statements about launches, tasks and estates -/

/-- A kernel of one warp of 16 lanes with 256 group bytes and 16 words of text (R68), its table entry (R354), and a packet for it of
three workgroups with an energy estimate of 5 (R293). -/
def desc0 (taskmode : Nat) : Nat := 1 + 2 ^ 8 * 9 + 2 ^ 20 * taskmode + 2 ^ 22 + 2 ^ 58 + 2 ^ 96 * 64
def entryK : Nat := 0x1000 + 2 ^ 64 * 0x5000 + 2 ^ 128 * 7 + 2 ^ 192
def packet0 (gx args : Nat) : Nat := 7 + 2 ^ 32 + 2 ^ 64 * gx + 2 ^ 92 * args + 2 ^ 96 + 2 ^ 112 + 2 ^ 128 * 5
/-- A loaded context with its tables and kernel table, and the memory that holds them, the packet at 0x6000 and in the group's row. -/
def ctxK : Context :=
  { ctx0 with troot := bootTable, ktab := 0x4000, kcount := 1, root := { bits := BitVec.ofNat 128 (2 ^ 56 * 0x100000 + 2 ^ 117 * 0x1F), valid := true }
              ringsize := 64, ringbase := 0x8000, strayPtr := 0x9000, strayRing := 0xA000, straySize := 64 }
def memK (packet : Nat) : Memory :=
  ((((State.reset.mem.boot 0x03000000).writeNat 0 0x4000 32 entryK).writeNat 0 0x5000 64 (desc0 0)).writeNat 0 0x6000 64 packet).writeNat 0 (rowKey 0 [0] 0) 64 packet
def layoutK : Layout := { State.reset.layout with shares := [(0, { slots := 4, rg := 256, sp := 64, bars := 8, kn := 8 })] }
def machineK (packet : Nat) (g : Workgroup) (w : Warp) : State :=
  { gangW w with mem := memK packet, layout := layoutK, ctxs := [ctxK], wgs := [g] }

/-- The result of a check is its value; a translation aside. -/
def isOk {ε α : Type} (x : Except ε α) : Bool := match x with | .ok _ => true | .error _ => false
def errs {α : Type} (x : Except Nat α) (n : Nat) : Bool := match x with | .error e => e == n | .ok _ => false

/-- The packet of 64 bytes that a gang reads at an offset of its core scratchpad. -/
def scratchPacket (q : Seat) (t : State) (off : Nat) : BitVec 512 :=
  let g := t.wg q.w.wg
  BitVec.ofNat 512 (natOf ((List.range 4).flatMap fun i => t.mem.bytes g.part (t.levelKey g 1 0 (off + 16 * i)) 16))
/-- Nothing holds that read back. -/
def scratchFree (q : Seat) (t : State) (off : Nat) : Bool :=
  let g := t.wg q.w.wg
  (packetFault (levelFault 1 (t.levelLimit g 1)) off).isNone && !((List.range 4).any fun i =>
    q.conflicts t q.g.slices (q.access g t.sched.uid (4 * q.lead) (t.levelKey g 1 0 (off + 16 * i)) 16 (.load (.cap 0))))
theorem packet_is_read (q : Seat) (t : State) (off : Nat) (h : scratchFree q t off = true) (go : BitVec 512 → State → Eff) :
    q.withPacket t 16 off go = go (scratchPacket q t off) t := by
  simp only [scratchFree, Bool.and_eq_true, Option.isNone_iff_eq_none, Bool.not_eq_true'] at h
  unfold Seat.withPacket
  simp [h.1, List.any_map, Function.comp_def, scratchPacket, List.flatMap_map]
  intro x hx hc
  have := List.any_eq_false.1 h.2 x (List.mem_range.2 hx)
  exact absurd hc this
theorem witness_packet_read : scratchFree (seatOf (warpM 0)) (machineK (packet0 3 0) group1 (warpM 0)).nextFree 0 = true := by decide +kernel

/-- LaunchesAndTasks: LAUNCH with a good packet and room, with a queue full of 64, with each kind of bad packet; no lane and depth 9. -/
theorem witness_launch : let s := machineK (packet0 3 0) group1 (warpM 0)
    [Instr.launch 52 16 53, .launchNb 52 16 53, .join 52 60, .join 60 54].all (fun i => gangRuns i s (seatOf (warpM 0))) = true ∧ s.findWg 1 = some (s.wg 1) ∧
    (seatOf (warpM 0)).exe.lanes ≠ [] ∧ group1.depth ≠ 9 ∧ (s.wg 1).depth = 0 ∧
    (let u := s.nextFree
     let p := scratchPacket (seatOf (warpM 0)) u 0
     p == BitVec.ofNat 512 (packet0 3 0) && (u.findWg 1 == some group1) && (u.warps == s.warps) && isOk (u.checkPacket 0 0 false p) && isOk (u.gather 0 0 p []) &&
       (ringItems u.dist.rings 0 0 0).isEmpty && (u.lineagesTaken 0 0).isEmpty) = true ∧ ctxK.nextLineage < 2 ^ 24 ∧
    errs (s.checkPacket 0 0 false (BitVec.ofNat 512 (packet0 3 0 + 2 ^ 63))) 1 = true ∧ errs (s.checkPacket 0 0 false (BitVec.ofNat 512 (packet0 3 0 + 1))) 2 = true ∧
    errs (s.checkPacket 0 0 false (BitVec.ofNat 512 (packet0 0 0))) 3 = true ∧ errs (s.checkPacket 0 0 true (BitVec.ofNat 512 (packet0 3 0 + 2 ^ 62))) 8 = true ∧
    errs (gang.checkPacket 0 0 false (BitVec.ofNat 512 (packet0 3 0))) 2 = true ∧
    gangRuns (.launch 52 16 53) (machineK 0 { group1 with depth := 9 } (warpM 0)) (seatOf (warpM 0)) = true := by decide +kernel

/-- The same for a full queue and a context that is not loaded; JOIN of a child retired well, retired faulted, and not retired. -/
theorem witness_launch_full :
    let s : State := { machineK (packet0 3 0) group1 (warpM 0) with dist := { queues := [(0, List.replicate 64 default)] }, ctxs := [{ ctxK with loaded := false }] }
    gangRuns (.launchNb 52 16 53) s (seatOf (warpM 0)) = true ∧ 64 ≤ (sparseGet [] s.dist.queues (dieQueue (dieOf 0) 0)).length ∧ (s.ctx 0 0).loaded = false ∧
    scratchFree (seatOf (warpM 0)) s.nextFree 0 = true := by decide +kernel
theorem witness_join : let g : Workgroup := { group1 with children := [4, 5], childStatus := [(4, 0)] }
    (∀ l ∈ [4], ∃ e ∈ g.childStatus, e.1 = l) ∧ (∃ l ∈ [4, 5], ∀ e ∈ g.childStatus, e.1 ≠ l) ∧ (∃ l ∈ [6], l ∉ g.children) ∧
    gangRuns (.join 52 60) (machineK 0 g (warpM 0)) (seatOf (warpM 0)) = true := by decide +kernel

/-- A grid of task mode mode, and a warp whose lane 0 holds a record with the entry in w4 to w7 (R306). -/
def gridOf (mode : Nat) : Grid :=
  { uid := 1, part := 0, ctx := 0, lineage := 1, packet := BitVec.ofNat 512 (packet0 3 0 + 2 ^ 46 * mode), desc := BitVec.ofNat 512 (desc0 mode + 2 ^ 19), text := 0x1000
    caps := [], depth := 0, unstarted := [(0, 1), (0, 2)] }
def withGrid (mode : Nat) (w : Warp) : State := { machineK (packet0 3 0) group1 w with dist := { grids := [gridOf mode] } }
def warpQ4 (entry : Nat) : Warp := (warpM 0).write 4 [(0, BitVec.ofNat 32 entry)]
/-- POST and FORK: the last entry of the text and the first beyond, a reserved bit, the wrong mode; an earlier write in flight; a full deque. -/
theorem witness_tasks : gangRuns (.post 4) (withGrid 1 (warpQ4 15)) (seatOf (warpQ4 15)) = true ∧ gangRuns (.fork 4) (withGrid 2 (warpQ4 15)) (seatOf (warpQ4 15)) = true ∧
    (seatOf (warpQ4 15)).exe.lanes.head? = some 0 ∧ (seatOf (warpQ4 15)).exe.rdGroup 2 4 0 = 15 ∧ (seatOf (warpQ4 0x4000000)).exe.rdGroup 2 4 0 = 2 ^ 26 ∧
    gangRuns (.post 4) (withGrid 1 (warpQ4 0x4000000)) (seatOf (warpQ4 0x4000000)) = true ∧
    pkTaskmode (gridOf 1).packet = 1 ∧ kdTextlen (gridOf 1).desc = 64 ∧ gangRuns (.joint) (withGrid 2 (warpQ4 15)) (seatOf (warpQ4 15)) = true ∧
    ((withGrid 1 (warpQ4 15)).grid ((withGrid 1 (warpQ4 15)).wg 1).grid) = gridOf 1 ∧ inCode 0x1000 1 ∧
    (∃ x ∈ (withAccess [access0 (.store 7 none false)]).mem.access, seat.issued seat.g.slices x ∧ x.writes = true) := by
  and_intros <;> try decide +kernel
  exact ⟨_, List.mem_singleton.2 rfl, ⟨rfl, rfl, 0, by decide, rfl⟩, rfl⟩

/-- EstateWordsNameTheirKeys: a block of two estates of widths 1 and 2 words from w10 on, in a handler and outside, a kernel that bequeaths and
one that does not; keys in range; a lineage in s1; the block's last code 43 and 44. -/
def warpE (f : Nat) : Warp := { (warpM 0).write f [] with s := [(0, 4), (1, 9)] }
theorem witness_estate_words : let w := warpE 10; let s := withGrid 0 w
    [Instr.bequeath 10 1 0 60, .bequeath 41 1 0 60, .bequeath 42 1 0 60, .estat 2 1, .estat 2 0, .eclaim 10 1 0 20 1 3, .eclaim 43 1 0 20 1 3, .erelease 1, .ereleaseKey 1 20, .eprobe 2 20 1].all
      (fun i => gangRuns i s (seatOf w)) = true ∧ (seatOf w).inHandler = false ∧ kdBeq (s.grid 1).desc = true ∧ kdBeq (machineK 0 group1 w |>.grid 1).desc = false ∧
    (sparseGet 0 w.s 0 : BitVec 32).toNat / 4 % 4 = 1 ∧ (sparseGet 0 w.s 1 : BitVec 32) ≠ 0 ∧ (∀ L ∈ (seatOf w).exe.lanes, ((seatOf w).exe.rd64 20 L).toNat < 2 ^ 40) ∧
    s.unitsAt 0 (.kennel 0) + (seatOf w).exe.lanes.length * (1 + 1) ≤ 32 ∧ (({ s with layout := { s.layout with shares := [(0, { kn := 32 })] } } : State).layout.share 0 0).kn = 32 ∧ w.pend = [] ∧ w.claims = [] := by
  intro w s
  and_intros <;> decide +kernel

/-! ### The hypotheses of the statements about steps, memory and encoding -/

/-- What a step leaves, as a value of it. -/
def after {α : Type} (o : Host.Outcome State Fault Refusal) (f : State → α) : Option α := match o with | .next t => some (f t) | _ => none
/-- A fetched word: its address is here and its four bytes decode to i. -/
def fetches (x : Except (Nat × Nat) (Nat × State)) (i : Instr) : Bool :=
  match x with | .ok (k, v) => !isRemote k && decode (v.mem.bytes 0 k 4) == .ok (i, []) | .error _ => false

/-- StepRunsTheNextTurn: the placed word on a gang, on a Collie thread, on the controller; an event; no turn planned. -/
theorem witness_step_gang : let s := State.reset.withFetchWord 32 0x1F007F80
    (s.sched.agenda.map (·.act) == [.word (.gang 0 0 0)]) = true ∧ (s.seat 0 0 0).isSome = true ∧ ((s.seat 0 0 0).map fun q => q.ready && s.portFree 0 q.g.port) = some true ∧
    (s.ctxOf 0).gated = false ∧ fetches (s.translate 0 0 0 0 0x1000 needX) (.movi 0 0x7F80) = true := by decide +kernel
theorem witness_step_collie : let s := State.reset.withFetchWord 32 0xD4100000
    (s.sched.agenda.map (·.act) == [.word (.collie 0 0)]) = true ∧ (s.findCollie 0 0).map (fun c => s.collieRuns c && s.threadFree 0 0) = some true ∧
    fetches (s.translate 0 0 0 0 0x1000 needX) (.arrive 1) = true := by decide +kernel
def turnOf (a : Act) (s : State) : State := { s with sched := { s.sched with agenda := [⟨3, a⟩] } }
def mcText : State := turnOf (.word .mc) (mc.withMem (mc.mem.writeNat 0 (sramKey 0) 4 0x03000000))
theorem witness_step_mc : mcText.mc.x.hold = .none ∧ mcText.mc.parked = false ∧ mcText.mc.x.pc.toNat + 4 ≤ 0x80000 ∧
    (decode (mcText.mem.bytes 0 (sramKey 0) 4) == .ok (.nop, [])) = true ∧ atAgent .energyRefill = false ∧
    (turnOf (.event .energyRefill) gang).sched.agenda = [⟨3, .event .energyRefill⟩] ∧ gang.sched.agenda = [] := by
  and_intros <;> decide +kernel

/-- MOVI r0, 0x7F80 as the first word after reset (R98): r0 of lane 5 holds the constant and the gang is at the next word. -/
theorem test_first_word : after (step (State.reset.withFetchWord 32 0x1F007F80)) (fun t =>
    (t.seat 0 0 0).map fun q => (q.w.read 0 5, q.pc)) = some (some (0x7F80, 0x1004)) := by decide +kernel

/-- The controller takes its word and the three cycles of its turn pass (R33). -/
theorem test_step_counts : after (step mcText) (fun t => (t.mc.x.pc, t.sched.now, t.sched.steps)) = some (4, 3, 1) := by decide +kernel

/-- EveryStepKeepsMemoryCanonical and MemoryReadsWhatWasWritten: a canonical memory, a step from it, a write at the top of physical memory. -/
theorem witness_memory : State.reset.mem.wf = true ∧ mcText.mem.wf = true ∧ (after (step mcText) fun t => t.mem.wf) = some true ∧
    (2 ^ 52 - 2) + [1, (2 : BitVec 8)].length ≤ 2 ^ 52 ∧ ((State.reset.mem.write 3 (2 ^ 52 - 2) [1, 2]).byte 3 (2 ^ 52 - 1)) = 2 := by decide +kernel

/-- DecodeOfEncodeIsTheInstruction, EncodeOfDecodeIsTheWord, DecoderReadsWords. -/
theorem witness_encoding : WellFormed .mc .nop = true ∧ decodeWord 0x1F007F80 = .ok (.movi 0 0x7F80) ∧ field 0x00FFFFFF 24 8 = 0 ∧ field 0xFF000000 24 8 = 0xFF ∧
    [0x25, 0x3F, 0x4B, 0x76, 0x94, 0xA8, 0xBC, 0xCB, 0xD9, 0xEE, 0xFC].all (fun m => !allocatedMajors.contains m) = true ∧ field 0x25FFFFFF 24 8 = 0x25 := by decide

/-! ### The hypotheses of the statements about events -/

/-- RunsBeginAndGangsWake: two warps of which the first outranks the second, ports free and taken, a spill, a yield before and after 64 cycles. -/
def warpB (slot : Nat) (g : Gang) : Warp := { warpM 0 with slot := slot, birth := slot + 1, gangs := [g] }
def gangR : Gang := { slices := [0, 1, 2, 3] }
def twoWarps (g h k : Gang) : State := { gang with warps := [warpB 0 g, warpB 1 h, warpB 2 k] }
theorem witness_run_start : let s := twoWarps gangR { gangR with starv := 63 } { gangR with run := some {} }
    (s.warps.map fun w => (w.core, w.slot)).Nodup ∧ (seatOf (warpB 0 gangR) ∈ s.readySeats 0) ∧
    (∀ r ∈ s.readySeats 0, r = seatOf (warpB 0 gangR) ∨ s.outranks (seatOf (warpB 0 gangR)) r = true) ∧ 1 ∉ s.busyPorts 0 ∧ (∀ p, p < 1 → p ∈ s.busyPorts 0) ∧
    (∃ r ∈ s.readySeats 0, r ≠ seatOf (warpB 0 gangR) ∧ 64 ≤ r.g.starv + 1) ∧
    (∀ w ∈ s.warps, (∀ g ∈ w.gangs, g.slices ≠ []) ∧ w.gangs.Pairwise fun g h => g.slices.head? ≠ h.slices.head?) := by decide +kernel
theorem witness_gang_wakes : let s := twoWarps { gangR with spill := true } { gangR with park := .yield 0x1004 0 0 } gangR
    (s.seat 0 0 0).isSome = true ∧ (s.ctxOf 1).gated = false ∧ (s.ctxOf 1).preempting = none ∧ ((s.seat 0 1 0).map fun q => q.g.park) = some (.yield 0x1004 0 0) ∧
    ({ s with sched := { s.sched with now := 63 } } : State).sched.now < 0 + 64 := by decide +kernel

/-- DomainAccessesAreAnswered: a mapped and an unmapped source; a write and an atomic at the last bytes that the tag opens and past the end; an access
sent to device 3, young and 2^24 cycles old; a grant toward a device reached and one lost. -/
def accessS (act : AccessAct) : Access := { access0 act with global := true, addr := 2 ^ 43 * 3, sent := some 3 }
def domainS (l : List Nat) : State :=
  { withAccess [accessS (.load (.pend 1 0))] with domain := { map := [(3, [some 0])], lost := l, remapped := l } }
theorem witness_domain : (domainS []).domain.tag 3 0 = some 0 ∧ (domainS []).domain.tag 3 1 = none ∧ (∀ k, 0x1000 ≤ k → k < 0x1000 + 8 → (domainS []).layout.opens 0 k = true) ∧
    0x1000 + 8 ≤ 2 ^ 43 ∧ (domainS []).layout.opens 0 (2 ^ 43 - 1) = false ∧ (domainS []).mem.access.find? (fun b => b.id == 5) = some (accessS (.load (.pend 1 0))) ∧
    0 + 2 ^ 24 ≤ ({ domainS [] with sched := { gang.sched with now := 2 ^ 24 } } : State).sched.now ∧ (domainS []).sched.now < 0 + 2 ^ 24 ∧ (domainS []).domain.isLost 3 = false ∧
    3 ∉ (domainS []).domain.remapped ∧ 3 ∈ (domainS [3]).domain.remapped ∧ sparseWf ({} : HostFn) (domainS []).fns = true ∧ 3 ≠ (domainS []).domain.domid := by
  and_intros <;> decide +kernel

/-- A warp whose slices have all ended, and one parked. -/
def warpD : Warp := { warpM 0 with slices := List.replicate 4 { pc := 0x1000, live := false }, gangs := [] }
def warpPark (p : Park) : Warp := { warpM 0 with gangs := [{ slices := [0, 1, 2, 3], park := p }] }
def machineG (g : Workgroup) (w : Warp) : State := machineK (packet0 3 0) g w
def report0 : Report := { id := 1, ctx := 0, owner := 0, taskid := 0, lineage := 1, cause := 2, pc := 0x1000, detail := 0, lane := 0xFF, addr := 0, arg0 := 0, arg1 := 0, core := 0, slot := 0, inHandler := false, ctxFault := false }

/-- TasksEndAndFaultsAreReported: a release; a report with room in the ring and with none; a version to commit and one that has outgrown its quota;
a grid with nothing left. -/
theorem witness_release : let s := machineG { group1 with committed := true } warpD
    s.findWarp 0 0 = some warpD ∧ (s.wg 1).born = true ∧ (∀ x ∈ warpD.slices, x.live = false) ∧ warpD.pend = [] ∧ (s.wg 1).fault = none ∧ (s.wg 1).saved = false ∧
    (∀ v ∈ s.warps.filter fun v => decide ((v.core, v.slot) ≠ (warpD.core, warpD.slot)), v.wg ≠ 1) ∧ s.findWg 1 = some (s.wg 1) ∧ s.mem.access = [] := by decide +kernel
def groupF : Workgroup := { group1 with fault := some report0, ended := true }
theorem witness_report : (machineG groupF warpD).findWg 1 = some groupF ∧ groupF.reported = false ∧ (machineG groupF warpD).taskOver 1 = true ∧
    ((machineG groupF warpD).findCtx 0 0).isSome = true ∧ ringFull ctxK.ringHead ctxK.ringTail ctxK.ringsize = false ∧ ringFull 0 64 64 = true ∧
    sparseWf ({} : HostFn) (machineG groupF warpD).fns = true := by decide +kernel
/-- The task's forker waits at JOINT for it alone. -/
def forkS : State :=
  { machineG { groupF with forker := some (2, 0) } warpD with warps := [{ warpPark .joint with wg := 2, slot := 1, forks := 1 }] }
theorem witness_joined : forkS.taskOver 1 = true ∧ (∃ w ∈ forkS.warps, w.wg = 2 ∧ w.index = 0 ∧ w.forks - 1 = 0) := by decide +kernel
theorem witness_report_written : ((machineG groupF warpD).rootWrite 0 0 (ctxK.ringbase + 64 * 0) (bytesOf 64 0)).isSome = true := by
  obtain ⟨l, -, h⟩ := rootWrite_boot (machineG groupF warpD) (ctxK.ringbase + 64 * 0) (bytesOf 64 0) (by decide +kernel) (by decide +kernel)
  rw [h]
  rfl
def held0 : HeldWrite := { pa := 0x2000, owner := 0, size := 4, data := 0x04030201 }
def groupV : Workgroup := { group1 with held := [held0], versionOpen := true, outgrown := true }
theorem witness_commit : (machineG groupV warpD).taskOver 1 = true ∧ (machineG groupV (warpM 0)).taskOver 1 = false ∧
    (machineG groupV (warpM 0)).oldestOpen groupV = true ∧ (machineG groupV (warpM 0)).begunOver 1 = true ∧ isRemote held0.pa = false ∧
    groupV.born = true ∧ groupV.ended = false ∧ groupV.committed = false ∧ (machineG groupV warpD).copies = [] := by decide +kernel
theorem witness_retire : let g : Grid := { gridOf 0 with unstarted := [] }
    let s : State := { machineG { group1 with released := true } warpD with dist := { grids := [g] } }
    (s.dist.grids.find? (fun h => h.ctx == g.ctx && h.lineage == g.lineage && s.retirable h) = some g) ∧ g.inh = 0 ∧ g.parent = none ∧ pkDone g.packet = 0 ∧
    sparseWf 0 s.dist.balance = true ∧ bootMay 0x7000 8 s = true ∧ s.mem.tlb = [] := by decide +kernel
/-- A write through the placed tables is done. -/
theorem witness_retire_written (s : State) (h : bootMay 0x7000 8 s = true) (hl : s.mem.tlb = []) :
    (s.rootWrite 0 0 0x7000 (bytesOf 8 1)).isSome = true := by
  obtain ⟨l, -, e⟩ := rootWrite_boot s 0x7000 (bytesOf 8 1) h (by rw [hl]; intro e he; cases he)
  rw [e]
  rfl
def xfault0 : XFault := { id := 5, part := 0, ctx := 0, va := 0x123456789000, path := 0, kind := 0, reason := 1, level := 0, core := 0 }
theorem witness_xfaults : let s := gang.withMem { gang.mem with xfaults := [xfault0, { xfault0 with id := 6, seq := 1, recorded := true }] }
    s.mem.xfaults.find? (fun x => x.id == 5 && !x.recorded) = some xfault0 ∧ (s.fnOf 0).fqsize = 0 ∧
    (({ s with fns := [(1, { fqsize := 64 })] } : State).fnOf 0).fqsize ≠ 0 ∧ ringFull 0 0 64 = false ∧
    s.mem.xfaults.find? (fun x => x.part + 1 == 0 + 1 && x.seq == 1 && x.recorded) = some { xfault0 with id := 6, seq := 1, recorded := true } := by decide +kernel

/-- WorkgroupsAreSavedAndRestored: a parked workgroup of a pre-empted context, a running one, a gated context, a suspension that waiting work asks
for; a saved workgroup with room and without; a deadline that has passed. -/
def ctxWith (s : State) (c : Context) : State := { s with ctxs := [c] }
theorem witness_save : let s := ctxWith (machineG group1 (warpPark (.join 60 [4]))) { ctxK with preempting := some 0 }
    s.findWg 1 = some group1 ∧ s.wgQuiet 1 = true ∧ (s.ctx 0 0).preempting ≠ none ∧ (∀ w ∈ s.warps, ∀ h ∈ w.gangs, h.preemptible = true) ∧ s.collieStill 1 = true ∧
    group1.released = false ∧ group1.fault = none ∧ (∃ h ∈ (warpM 0).gangs, h.park = .none) ∧ (ctxWith s { ctxK with gated := true }).wgs = [group1] ∧
    ((ctxWith s { ctxK with gated := true }).ctx 0 0).gated = true ∧ (∀ w ∈ s.warps, w.pend = []) ∧ 0 + 4096 * ctxK.deadline ≤ 4096 := by decide +kernel
/-- The partition has one warp slot on core 0, and a grid waits for it. -/
def suspendS : State :=
  { machineG group1 (warpPark (.join 60 [4])) with
    collies := [{ thread0 with stopped := true }]
    layout := { layoutK with shares := [(0, { slots := 1, rg := 64, sp := 64, bars := 8 })] }
    dist := { grids := [{ gridOf 0 with uid := 2 }] } }
theorem witness_suspend : suspendS.suspendable group1 = true ∧ suspendS.suspendNow group1 = true := by decide +kernel
theorem witness_restore : let g : Workgroup := { group1 with saved := true, savedW := [warpPark (.join 60 [4])], rows := [], privRows := [] }
    let s : State := { machineG g warpD with warps := [], dist := { grids := [gridOf 0] } }
    s.findWg 1 = some g ∧ s.restorable g = true ∧ 0 ∉ s.resetting ∧ 0 ∈ s.layout.coresOf 0 ∧
    (match s.room 0 0 (s.grid 1).desc 1 with | some r => (s.restoreWg 1 0 { r with slots := r.slots.take 1 }).isSome | none => false) = true ∧
    ({ s with layout := State.reset.layout } : State).layout.coresOf 0 = [] := by decide +kernel

/-- PacketsAreAccepted: a doorbell with room and with a full queue; a host's packet that passes, one with 64 bytes that cannot be read, a number out of range;
a child's packet; a balance that defers. -/
def doorS (v : Nat) : State :=
  { machineG group1 (warpM 0) with fns := [(1, { ctxcount := 1 })], dist := { queues := [(0, [{ part := 0, ctx := 0, doorbell := some v }])] } }
theorem witness_packets : let s := doorS 0x6000
    sparseGet [] s.dist.queues (20 * 0 + 0) = [{ part := 0, ctx := 0, doorbell := some 0x6000 }] ∧ s.mgmt.safe = false ∧ s.resetting = [] ∧ s.dist.rings = [] ∧
    sparseWf [] s.dist.queues = true ∧ sparseWf ({} : HostFn) s.fns = true ∧ sparseWf 0 s.dist.balance = true ∧ 0 < (s.fnOf 0).ctxcount ∧ (s.ctx 0 0).loaded = true ∧
    s.rootNat 0 0 0x6000 64 = some (packet0 3 0) ∧ isOk (s.checkPacket 0 0 true (BitVec.ofNat 512 (packet0 3 0))) = true ∧
    isOk (s.gather 0 0 (BitVec.ofNat 512 (packet0 3 0)) []) = true ∧ (s.lineagesTaken 0 0).length + 1 < 2 ^ 24 ∧ min 5 (s.energyOf 0).2 ≤ s.balance 0 ∧
    s.rootNat 0 0 0x200000 64 = none ∧ (s.fnOf 0).ctxcount ≤ 1 ∧ ({ s.mgmt with ready := true } : Mgmt).ready = true ∧
    ¬ min 5 (({ s with layout := { s.layout with energy := [(0, (1, 5))] } } : State).energyOf 0).2 ≤ s.balance 0 := by decide +kernel

/-- WorkIsPlacedAndStolen: a grid of die 0 with room on core 0; a placed workgroup; a refill due and not; a steal by die 1 and its replies; a task; a theft
of a task and its replies; a wait that ends. -/
def placeS : State :=
  { machineG group1 (warpM 0) with
    warps := [], wgs := [{ group1 with born := false }], collies := []
    layout := { layoutK with shares := [(0, { slots := 4, rg := 256, sp := 64, bars := 8, col := 1 }), (1, { slots := 4, rg := 256, sp := 64, bars := 8 }), (48, { slots := 4, rg := 256, sp := 64, bars := 8 })] }
    dist := { grids := [gridOf 0] } }
theorem witness_place : (placeS.served == [gridOf 0]) = true ∧ (gridOf 0).lowest 0 = some 1 ∧ (placeS.findRoom (gridOf 0) 1 0).isSome = true ∧
    (∀ w ∈ placeS.wgs, w.suspended = false) ∧ sparseWf unlisted placeS.mem.cells = true ∧ placeS.findWg 1 = some { group1 with born := false } ∧ (placeS.ctx 0 0).gated = false ∧
    (placeS.grid 1).inh = 0 ∧ group1.thread = some 0 ∧ ({ placeS.sched with now := 2 ^ 20 } : Sched).now = 0 + 2 ^ 20 := by
  and_intros <;> decide +kernel
theorem witness_die_steal : placeS.dist.grids.find? (fun h => h.ctx == 0 && h.lineage == 1) = some (gridOf 0) ∧ (gridOf 0).owned 1 = [] ∧ dieOf 48 = 1 ∧
    (placeS.room 0 48 (gridOf 0).desc (pkWarps (gridOf 0).packet)).isSome = true ∧ 1 ∉ (gridOf 0).dry ∧ placeS.placeable (gridOf 0) = true ∧ ((gridOf 0).owned 0).Nodup ∧
    (∀ d, d < 4 → ((gridOf 0).owned d).length ≤ ((gridOf 0).owned 0).length) ∧ (gridOf 0).owned 0 = [1, 2] := by decide +kernel
def taskS (q d : Sparse (List TaskRec)) : State := { placeS with dist := { grids := [gridOf 2], tasks := q, deques := d } }
theorem witness_task_start : let r : TaskRec := { grid := 1, bits := 3 }
    let s := taskS [(0, [r])] [(20, [r])]
    sparseGet [] s.dist.tasks (20 * 0 + 0) = [r] ∧ sparseGet [] s.dist.deques (20 * 0 + 0) = [] ∧ s.findGrid 1 = some (gridOf 2) ∧ (s.room 0 0 (gridOf 2).desc 1).isSome = true ∧
    (s.ctx 0 0).runs = true ∧ (s.thief 0 0).asking = false ∧ (s.thief 0 0).until_ = 0 ∧ sparseWf [] s.dist.deques = true ∧ sparseWf ({} : Thief) s.dist.thieves = true ∧
    pkTaskmode (gridOf 2).packet = 2 ∧ 1 ∈ s.layout.coresOf 0 ∧ (s.resetting = []) := by decide +kernel
theorem witness_replies : let s : State := { placeS with dist := { grids := [gridOf 0], dieReplies := [⟨1, 1, []⟩, ⟨1, 1, [2]⟩], taskReplies := [⟨0, 0, none⟩, ⟨0, 0, some { grid := 1, bits := 3 }⟩], thieves := [(0, { until_ := 9 })] } }
    s.dist.dieReplies[0]? = some ⟨1, 1, []⟩ ∧ s.dist.dieReplies[1]? = some ⟨1, 1, [2]⟩ ∧ s.findGrid 1 = some (gridOf 0) ∧ s.dist.taskReplies[0]? = some ⟨0, 0, none⟩ ∧
    s.dist.taskReplies[1]? = some ⟨0, 0, some { grid := 1, bits := 3 }⟩ ∧ (s.thief 0 0).until_ ≠ 0 ∧ s.sched.now < (s.thief 0 0).until_ := by decide +kernel

/-- EstatesArriveAndExpire: a claim with its estate taken, with one that stands, and with none that can come; an old estate; a stray with room in the ring. -/
def estate0 : Estate := { id := 3, part := 0, ctx := 0, key := 2 ^ 40 + 7, count := 1, widths := 0, vals := [9], core := 0, place := .kennel 0, born := 0 }
def claim0 (t : Option Estate) : Claim := { id := 8, lane := 0, slot := 1, key := 2 ^ 40 + 7, entries := [(0, 0, [10])], taken := t }
def estateS (t : Option Estate) (l : List Estate) : State := { machineG group1 { warpM 0 with claims := [claim0 t] } with estates := l }
theorem witness_arrival : (estateS (some estate0) []).warps.find? (fun v => v.claims.any fun x => x.id == 8) = some { warpM 0 with claims := [claim0 (some estate0)] } ∧
    ((estateS none []).ctxOf 1).gated = false ∧ (estateS none [estate0]).estateOf 0 0 (2 ^ 40 + 7) = some estate0 ∧ (estateS none []).estateOf 0 0 (2 ^ 40 + 7) = none ∧
    (2 ^ 40 + 7) / 2 ^ 40 = group1.lineage ∧ 0 < estate0.count ∧ sparseWf 0 (warpM 0).regs = true ∧ sparseWf 0 (warpM 0).estat = true := by decide +kernel
def strayS : State := estateS none [{ estate0 with stray := some 2 }]
theorem witness_stray : (∃ e ∈ strayS.estates, e.stray = some 2) ∧ (strayS.ctx 0 0).strayPtr ≠ 0 ∧ strayS.estates.Nodup ∧
    strayS.rootNat 0 0 (strayS.ctx 0 0).strayPtr 8 = some 0 ∧ ringFull 0 0 64 = false := by decide +kernel
theorem witness_stray_written : ∃ u t, strayS.nextFree.rootWrite 0 0 0xA000 (bytesOf 144 5) = some u ∧ u.rootWrite 0 0 (0x9000 + 4) (bytesOf 4 1) = some t :=
  rootWrite_boot_two _ _ _ _ _ (by decide +kernel) (by decide +kernel) (by decide +kernel)

/-! ### The hypotheses of the statements about the functions, resets and the controller -/

def fnS (f : HostFn) (s : State) : State := s.putFn 1 f
/-- RegistersAndCommandsOfFunctions: a context to hold a trap index; events with room, with none, without a ring; the aperture's last byte; each
kind of command that has begun; a layout and a carve-out that may switch; a replaced pair whose grids run and have retired. -/
theorem witness_registers : (machineG group1 (warpM 0)).findCtx 0 0 = some ctxK ∧ (gang.fn 1).cmd = none ∧ (gang.fn 1).cmdarg.length = 4 ∧
    (∀ k, 0x1000 ≤ k → k < 0x1000 + 1 → gang.layout.opens 0 k = true) ∧ gang.layout.opens 0 (2 ^ 43 - 1) = false ∧
    (let f := (fnS { events := [{ code := 1, gen := 0 }], evsize := 128 } gang).fn 1
     f.events = [{ code := 1, gen := 0 }] ∧ f.evsize ≠ 0 ∧ ringFull f.evhead f.evtail f.evsize = false) ∧ ringFull 5 133 128 = true ∧ (gang.fn 1).evsize = 0 := by
  and_intros <;> decide +kernel
def layoutN : Layout := { layoutK with gen := 1 }
def commandS (c : Command) : State :=
  { fnS { cmd := some c } (machineG { group1 with saved := true } warpD) with
    warps := [], newLayout := some layoutN, carving := none, dist := { grids := [gridOf 0] }, replaced := [⟨1, 0, 7, 1, [1]⟩, ⟨1, 0, 7, 2, []⟩] }
theorem witness_command_complete : [1, 2, 3, 4, 5, 6, 16, 17, 18, 19].all (fun n => ((commandS { code := n, args := [0, 0, 0, 0] }).fn 1).cmd == some { code := n, args := [0, 0, 0, 0] }) = true ∧
    (let s := commandS { code := 1, args := [0, 0, 0, 0] }
     s.findCtx 0 0 = some ctxK ∧ (∀ g ∈ s.wgs, g.saved = true) ∧ s.mem.access = [] ∧ s.pillows.ops = [] ∧ s.taskOver 1 = true ∧ s.newLayout = some layoutN ∧
     s.resetting = [] ∧ s.replaced[0]? = some ⟨1, 0, 7, 1, [1]⟩ ∧ (s.findGrid 1).isSome = true ∧ s.replaced[1]? = some ⟨1, 0, 7, 2, []⟩ ∧
     (∀ k ∈ s.layoutContexts layoutN, ∀ g ∈ s.wgs, g.saved = true)) ∧
    (let s : State := { gang with carving := some ⟨1, 2, []⟩ }
     s.carving = some ⟨1, 2, []⟩ ∧ s.layout.carve.length = 4 ∧ s.mem.access = [] ∧ s.copies = [] ∧ s.pillows.ops = [] ∧ sparseWf ({} : DieShare) s.layout.dies = true) := by
  and_intros <;> decide +kernel

/-- CommandsTakeEffect: a function with one context in range; a context stopped, saved and loaded; a range to its end and beyond; the entry of a kernel;
images that parse and do not. -/
def vfS (args : List Nat) : State := fnS { ctxcount := 1, cmdarg := args } (machineG group1 (warpM 0))
def commandP : State := vfS [0, 7, 0x3000, 0x5000]
theorem witness_partition_commands : (commandP.fn 1).cmd = none ∧ commandP.mgmt.safe = false ∧ 0 < (commandP.fn 1).ctxcount ∧ (commandP.fn 1).ctxcount ≤ 1 ∧
    (commandP.ctx 0 0).stopped = false ∧ (commandP.ctx 0 0).loaded = true ∧ (commandP.ctx 0 0).gated = false ∧ 0x7 + 0x3000 ≤ 2 ^ 56 ∧ 2 ^ 56 < 2 ^ 56 + 1 ∧
    commandP.kernelEntry 0 0 7 = some 0x4000 ∧ commandP.rootNat 0 0 0x4014 4 = some 0 ∧ commandP.findCtx 0 0 = some (commandP.ctx 0 0) ∧
    (ctxWith commandP { ctxK with stopped := true }).ctx 0 0 = { ctxK with stopped := true } := by decide +kernel
theorem witness_kernel_replaced : ∃ u t, commandP.rootWrite 0 0 0x4000 (bytesOf 8 0x3000 ++ bytesOf 8 0x5000) = some u ∧ u.rootWrite 0 0 0x4014 (bytesOf 4 1) = some t :=
  rootWrite_boot_two _ _ _ _ _ (by decide +kernel) (by decide +kernel) (by decide +kernel)

/-- The entry and the records of a context (R214, R363, R364) in host-shared memory and in its own: RESUME can read it. -/
def recordS : State :=
  let entry := 0x100000 * 2 ^ 56 + 2 ^ 117 * 0x1F + 2 ^ 128 * bootTable + 2 ^ 192 * 0xB000 + 2 ^ 320 * 0xB100 + 2 ^ 384 * 0xB200 + 2 ^ 448
  let control := 2 ^ (8 * 56) * 0x8000 + 2 ^ (8 * 64) * 64 + 2 ^ (8 * 68)
  let launch := ((List.range 4).map fun d => 2 ^ (8 * (24 * d + 16)) * 0x606).sum
  let code := 0x4000 + 2 ^ 64
  let s := vfS [0, 0, 0, 0]
  s.withMem ((((s.mem.writeNat hostShared 0 64 entry).writeNat 0 0xB000 128 control).writeNat 0 0xB100 128 launch).writeNat 0 0xB200 32 code)
theorem witness_resume : (match recordS.readContext 0 0 with | .ok d => d.loaded && d.ringbase == 0x8000 && d.kcount == 1 | .error _ => false) = true := by decide +kernel

/-- Empty memory reads as an image of zeros, which describes the layout that grants nothing. -/
theorem natOf_zeros (n : Nat) : natOf (List.replicate n 0) = 0 := by
  induction n with
  | zero => rfl
  | succ n ih => rw [List.replicate_succ, natOf, ih]; rfl
theorem gang_zeros (pa n : Nat) (h0 : 0 < n) (h : pa + n ≤ 0x3000000000) : gang.physNat pa n = some 0 := by
  have hb : gang.mem.bytes hostShared pa n = List.replicate n 0 := by
    refine List.eq_replicate_iff.2 ⟨by simp [Memory.bytes], fun b hb => ?_⟩
    obtain ⟨i, hi, rfl⟩ := List.mem_map.1 hb
    have hi := List.mem_range.1 hi
    have hn : gang.mem.noisy hostShared (pa + i) = false := by
      simp [Memory.noisy, Memory.foreign, Memory.writer, machine, State.reset]; omega
    rw [Memory.byte, hn]; rfl
  have ho : ((unitsOf 64 pa n).all fun u => gang.layout.opens hostShared (max pa (64 * u))) = true := by
    refine List.all_eq_true.2 fun u hu => ?_
    have hu := List.mem_range'_1.1 hu
    have : max pa (64 * u) < 0x3000000000 := by omega
    have h2 : max pa (64 * u) < 0x28000000000 := by omega
    simp [Layout.opens, installed, Layout.owner, machine, State.reset, this]; omega
  simp only [State.physNat, ho, if_true, Memory.read, hb, natOf_zeros]
theorem allSome_zeros (f : Nat → Option Nat) (l : List Nat) (h : ∀ i ∈ l, f i = some 0) : allSome (l.map f) = some (List.replicate l.length 0) := by
  induction l with
  | nil => rfl
  | cons a l ih => simp [allSome, h a, ih fun i hi => h i (List.mem_cons_of_mem _ hi), List.replicate_succ]
theorem zero_fields (n : Nat) (p : Nat → Bool) (h : p 0 = true) : (List.replicate n 0).all p = true := by
  simp [h]
theorem witness_image_read : (gang.parseLayout 0).isSome = true := by
  have hr (base size n : Nat) (h0 : 0 < size) (h : base + size * n ≤ 0x3000000000) :
      allSome ((List.range n).map fun i => gang.physNat (base + size * i) size) = some (List.replicate n 0) := by
    rw [allSome_zeros _ _ fun i hi => gang_zeros _ _ h0 (by
      have : size * (i + 1) ≤ size * n := Nat.mul_le_mul_left _ (List.mem_range.1 hi)
      rw [Nat.mul_succ] at this; omega), List.length_range]
  have hz (a b c d : Nat) : plainImage 0 (List.replicate a 0) (List.replicate b 0) (List.replicate c 0) (List.replicate d 0) = true := by
    rw [plainImage, zero_fields _ _ (by decide), zero_fields _ _ (by decide), zero_fields _ _ (by decide), zero_fields _ _ (by decide)]; rfl
  rw [State.parseLayout, gang_zeros 0 64 (by decide) (by decide)]
  dsimp only
  rw [hr (0 + 64) 32 3840 (by decide) (by decide), hr (0 + 64 + 32 * 3840) 32 80 (by decide) (by decide), hr (0 + 64 + 32 * 3840 + 32 * 80) 16 20 (by decide) (by decide),
    hr (0 + 64 + 32 * 3840 + 32 * 80 + 16 * 20) 16 (byteField 0 0 4) (by decide) (by decide)]
  dsimp only
  rw [hz]
  rfl
theorem witness_image_unread : (gang.parseLayout (2 ^ 50)).isNone = true := by decide +kernel
theorem witness_package_commands : (gang.fn 0).cmd = none ∧ gang.mgmt.safe = false ∧ (∀ p, p < 20 → gang.physNat (122944 + 32 * (4 * p)) 32 = some 0) ∧
    gang.domain.map = [] ∧ (∀ d, d < 256 → gang.physNat (32 * d) 32 = some 0) ∧ sparseWf 0 gang.resetCause = true :=
  ⟨by decide +kernel, by decide +kernel, fun p h => gang_zeros _ _ (by decide) (by omega), by decide +kernel, fun d h => gang_zeros _ _ (by decide) (by omega), by decide +kernel⟩

/-- PartitionsAreReset: a partition under each cause; a page of each owner; a scrub under way. -/
theorem witness_partition_reset : let s : State := { gang with resetting := [0, 1], resetCause := [(0, 1), (1, 2)] }
    0 ∈ s.resetting ∧ sparseGet 0 s.resetCause 0 = 1 ∧ sparseGet 0 s.resetCause 1 = 2 ∧ (∀ p ∈ s.resetting, p < 1 → sparseGet 0 s.resetCause p ≠ 2) ∧
    sparseWf ({} : HostFn) s.fns = true ∧ 2 ∉ s.resetting ∧ gang.layout.owner 0 = some 20 ∧ gang.mc.etrap = 0 ∧
    ([⟨0, 0x1000, 3⟩, ⟨0x1000, 0x1000, 21⟩].map fun (r : RangeRec) => ({ gang.layout with ranges := [r] } : Layout).owner r.base) = [some 3, some 21] ∧
    (∃ x ∈ (gang.withMem { gang.mem with noise := [⟨0, 0x1000, 0, true⟩] }).mem.noise, x.part = 0 ∧ x.scrub = true) ∧ sparseWf unlisted gang.mem.cells = true := by
  intro s
  and_intros <;> decide +kernel

/-- ThePackageIsReset: a watchdog that is due with and without an open trap; an engine reset on an idle and a busy core; an activation that waits. -/
theorem witness_package : 0 + 2 ^ 24 ≤ ({ gang.sched with now := 2 ^ 24 } : Sched).now ∧ gang.mc.wdogAt = 0 ∧ gang.mc.etrap = 0 ∧ ({ gang.mc with etrap := 1 } : Mc).etrap ≠ 0 ∧
    (∃ g ∈ gang.wgs, g.core = 0 ∧ g.released = false ∧ g.saved = false) ∧ (∀ g ∈ gang.wgs, g.core = 1 → g.released = true ∨ g.saved = true) ∧
    (∀ c ∈ gang.collies, c.core = 1 → c.stopped = true) ∧ gang.copies = [] ∧ 4 ∈ ({ gang.mgmt with pend := [4] } : Mgmt).pend ∧ gang.mgmt.engines.length = 8 ∧
    gang.mgmt.ready = false ∧ 3 ∉ gang.mgmt.pend := by decide +kernel

/-- TheControllerServesItsUnits: no session and one; a request outstanding; a refresh due and not; RX free and taken; each command of the message unit at
the last place that it may name; a command that is none; MUSYNC with nothing before it and with a command. -/
def muS (c : MuCmd) : State := { mc with mgmt := { mc.mgmt with muq := [c], sessions := [1], rxlen := 4 }, ide := { requests := [(7, 2, false)] } }
def sync0 : Access := { accessM (.load (.pend 6 0)) 0x80020 4 with id := 6 }
def pend0 : Pending := { id := 6, slices := [0], names := [.scalar 3], writes := [], lanes := [(0, [.scalar 3])] }
def syncS (q : List MuCmd) : State :=
  { mc with mgmt := { mc.mgmt with muq := q }, mem := { mc.mem with access := [sync0] }, mc := { mc.mc with x := { mc.mc.x with pend := [pend0] } } }
theorem witness_message_unit : (∀ op : Nat, op < 10 → (muS ⟨5, op, 0x7FFC0, 0x6FFC0, 64⟩).mgmt.muq = [⟨5, op, 0x7FFC0, 0x6FFC0, 64⟩] ∧ op < 2 ^ 12) ∧
    (∀ a ∈ (muS ⟨5, 1, 0, 0, 0⟩).mem.access, a.who = .mc → 5 ≤ a.id) ∧ 0x7FFC0 + 64 ≤ 0x80000 ∧ 0x6FFC0 + 64 ≤ 0x70000 ∧ 0x6C0A0 + 16224 ≤ 0x70000 ∧
    (muS ⟨5, 1, 0, 0, 0⟩).mgmt.mudone = false ∧ (muS ⟨5, 1, 0, 0, 0⟩).mgmt.rxlen ≠ 0 ∧ mc.mgmt.rxlen = 0 ∧ mc.mgmt.rxwait = [] ∧ 2 ^ 12 ≤ 0x1005 ∧ 0x105 % 2 ^ 8 = 5 ∧
    (muS ⟨5, 1, 0, 0, 0⟩).ide.requests.find? (fun r => r.1 == 7) = some (7, 2, false) ∧ sparseGet 0 (muS ⟨5, 1, 0, 0, 0⟩).ide.inUse (2 * 2 + 1) = 0 ∧
    sparseGet 0 (muS ⟨5, 1, 0, 0, 0⟩).ide.former 2 ≠ 1 + 1 ∧ sparseWf 0 mc.ide.keys = true ∧ sparseWf 0 mc.ide.former = true ∧ sparseWf ({} : Telemetry) mc.mgmt.telem = true ∧
    (syncS []).mem.access = [sync0] ∧ sync0.addr = sramKey 0x80020 ∧ (syncS []).mc.x.pend = [pend0] ∧ (∃ c ∈ (syncS [⟨5, 1, 0, 0, 0⟩]).mgmt.muq, c.id < sync0.id) := by
  refine ⟨fun op h => ⟨rfl, by omega⟩, by decide +kernel⟩

/-- RequestsAreAnsweredAndFirmwareUpdated: each stage; requests whose fields let them through; a session and none; a layout that is current and one that is
stale; an update under way and verified. -/
theorem witness_requests : (∀ n : Nat, ({ mc with mgmt := { mc.mgmt with stage := n } } : State).mgmt.stage = n) ∧
    ([0x12, 0x83, 0, 0] : List (BitVec 8)).getD 2 0 = 0 ∧ (([0x12, 0xE0, 1, 0] : List (BitVec 8)).getD 2 0).getLsbD 0 = true ∧ mc.mgmt.sessions = [] ∧
    1 ∈ (muS ⟨5, 1, 0, 0, 0⟩).mgmt.sessions ∧ mc.layout.gen = 0 ∧ mc.findCtx 0 7 = none ∧ mc.findCtx 0 0 = some ctx0 ∧
    mc.mgmt.update = none ∧ mc.mgmt.pend = [] ∧ ({ mc.mgmt with update := some 1, verified := some 4 } : Mgmt).verified = some 4 ∧ sparseWf 0 mc.mgmt.image = true ∧
    2 ^ 24 - 4 + ([1, 2, 3, 4] : List (BitVec 8)).length ≤ 2 ^ 24 ∧ (Config.fusedMinSvn ≤ Config.fusedMinSvn) := by
  and_intros <;> first | decide +kernel | exact fun n => rfl | exact le_refl _

/-! ### The hypotheses of further clauses: operand ranges, waiting words, handlers, schedules and overlooked writes -/

/-- StepRunsTheNextTurn, a schedule without a plan: the next turn is fair or not, and an access can be performed or none can. -/
def fairS (s : State) (n : Nat) : State := { s with sched := { s.sched with gap := n, agenda := [] } }
theorem witness_step_schedule : let s := withAccess [access0 (.load (.pend 1 0))]
    (fairS s 0).mem.access.find? (fairS s 0).performable = some (access0 (.load (.pend 1 0))) ∧ (∀ a ∈ (fairS gang 0).mem.access, (fairS gang 0).performable a = false) ∧
    (fairS gang 3).sched.gap = 2 + 1 ∧ (fairS gang 3).sched.agenda = [] := by decide +kernel

/-- MemoryReadsWhatWasWritten: the last byte of a unit; a read by the writer, under another tag, after the write in its own order or by a
fence of the writer's workgroup; another agent's read that nothing orders after it. -/
theorem witness_overlooked : let m := State.reset.mem; let p : Place := ⟨0, 0, 1, 0⟩; let r : Place := ⟨1, 0, 2, 0⟩
    m.wf = true ∧ 15 % 16 + [(7 : BitVec 8)].length ≤ 16 ∧ m.past = [] ∧ (m.publish p 0 15 [7]).noisy 0 15 = false ∧ (m.publish p 0 15 [7]).noisy 1 15 = true ∧
    r.covers 5 p = true ∧ r.covers 2 p = false ∧ p ≠ r ∧ m.clock + 1 ≤ 1 ∧
    ((m.publish p 0 15 [7]).glance 1 r 0 0 [] 15 1).1 = [0] ∧ ((m.publish p 0 15 [7]).glance 1 r 0 0 [(5, 1)] 15 1).1 = [7] ∧
    ((m.publish p 0 15 [7]).glance 1 p 0 0 [] 15 1).1 = [7] := by decide +kernel

/-- LongLatencyWordsArriveLater: a positive and a negative operand of each range of its bounds, at the ends: 1/2, 2, 128, -200.00002, 2^20 and 100. -/
theorem witness_function_operands :
    ([0x3F000000, 0x40000000, 0x43000000, 0xC3480001, 0x49800000, 0x49800001, 0x39800000, 0x42C80000] : List (BitVec 32)).map
      (fun x => FloatFmt.f32.decode x.toNat) = [.fin false 0x800000 (-24), .fin false 0x800000 (-22), .fin false 0x800000 (-16), .fin true 0xC80001 (-16),
        .fin false 0x800000 (-3), .fin false 0x800001 (-3), .fin false 0x800000 (-35), .fin false 0xC80000 (-17)] ∧
    FloatFmt.f32.decode 0x7F800000 = .inf false ∧ FloatFmt.f32.decode 0x80000000 = .fin true 0 (-149) ∧ (FloatFmt.f16.decode 0x7E00).isNan = true := by decide
theorem witness_function_ranges : (128 : ℚ) ≤ (0x800000 : Nat) * 2 ^ (-16 : Int) ∧ (200 : ℚ) < (0xC80001 : Nat) * 2 ^ (-16 : Int) ∧
    ((0x800000 : Nat) * 2 ^ (-22 : Int) : ℚ) < 128 := by norm_num

/-- WaitingWordsParkTheGang, YIELD.B: a gang that has not marked; one that has marked at the same barrier, so that the warp arrives; a barrier that the
workgroup has not; a gang that waits at another barrier. REGANG: with all of its set waiting, alike and of two modes. -/
def warpY (p : Park) (m : BitVec 32) : Warp :=
  { warpM 0 with gangs := [{ slices := [0, 1, 2], run := some {}, starv := 2 }, { slices := [3], park := p, starv := 7 }] }.setSlice 3 { pc := 0x1000, mode := m }
theorem witness_yieldb : [Instr.yieldB 0 2, .yieldB 1 2].all (fun i => gangRuns i (gangW (warpY (.yieldB 0 0x1008 0) 0)) (seatOf (warpY (.yieldB 0 0x1008 0) 0))) = true ∧
    (∀ h ∈ (warpY (.yieldB 0 0x1008 0) 0).gangs, h.slices.head? ≠ some 0 → h.yieldBar = some 0) ∧ group1.bars.length ≤ 1 ∧
    (let s := { gangW (warpY (.yieldB 1 0x1008 0) 0) with wgs := [{ group1 with bars := [{ count := 1 }, { count := 1 }] }] }
     gangRuns (.yieldB 0 2) s (seatOf (warpY (.yieldB 1 0x1008 0) 0)) = true ∧ 0 < (s.wg 1).bars.length ∧ ∃ h ∈ (warpY (.yieldB 1 0x1008 0) 0).gangs, h.yieldBar = some 1) := by decide
theorem witness_regang : [0, 0x30].all (fun m => gangRuns (.regang 0xF) (gangW (warpY (.regang 0xF) m)) (seatOf (warpY (.regang 0xF) m)) &&
      regangSet (warpY (.regang 0xF) m) (seatOf (warpY (.regang 0xF) m)).g 0xF == [0, 1, 2, 3]) = true ∧
    ((warpY (.regang 0xF) 0).gangs.map (·.slices)) = [[0, 1, 2], [3]] ∧ ((warpY (.regang 0xF) 0x30).slice 3).mode ≠ ((warpY (.regang 0xF) 0x30).slice 0).mode := by decide

/-- The merged gang has all slices and the higher starvation count; two modes raise REGANG-MISMATCH item 3 with slice 3 (R79, by hand). -/
theorem test_regang : after (exec (.regang 0xF) (gangW (warpY (.regang 0xF) 0))) (fun t => (t.findWarp 0 0).map fun w => w.gangs.map fun g => (g.slices, g.starv)) =
      some (some [([0, 1, 2, 3], 7)]) ∧
    after (exec (.regang 0xF) (gangW (warpY (.regang 0xF) 0x30))) (fun t => (t.wg 1).fault.map fun r => (r.cause, r.detail, r.arg1, r.pc)) = some (some (7, 3, 8, 0x1000)) := by
  decide
/-- Slices parked at two barriers raise BARRIER-SPLIT with both barriers and the slices of the other (R158, by hand). -/
theorem test_barrier_split : after (exec (.yieldB 0 2) { gangW (warpY (.yieldB 1 0x1008 0) 0) with wgs := [{ group1 with bars := [{ count := 1 }, { count := 1 }] }] })
    (fun t => (t.wg 1).fault.map fun r => (r.cause, r.arg0, r.arg1)) = some (some (0xD, 3, 8)) := by decide

/-- HandlersAreEntered: a gang that owes a result, and a controller whose run is full; HandlersReachAndRestoreTheCaller: a skein that a KLD of
another gang still fills. -/
theorem witness_handler_waits : (seatOf warpPend).owed = true ∧ (let x := { mc.mc.x with run := { words := Config.runLimit } }
    McReady { mc with mc := { mc.mc with x := x } } ∧ Config.runLimit ≤ x.run.words) := by
  refine ⟨by decide, ⟨rfl, rfl, rfl⟩, by decide⟩
theorem witness_skein_busy : let s := gangH.withMem { gangH.mem with access := [access0 (.load (.skein 2 0 4))] }
    gangRuns (.emurd 1 5 2 0) s seatH = true ∧ gangRuns (.emuwr 1 5 2 0) s seatH = true ∧ s.skeinBusy seatH.w [2] = true ∧ s.skeinBusy seatH.w [7] = false := by decide

/-! ### The hypotheses of further clauses: queues, held writes, fences and barriers -/

/-- QueueWordsAndAtomics: a POPQ of an empty queue; an ATOM for a full one, on a level, through a capability, and past the level's end; a version
with room for the lines that a store newly touches and without. -/
theorem witness_queue_faults : gangRuns (.popq 0 0 2) (gangW { warpQ 0 [] with cover0 := 1 }) (seatOf { warpQ 0 [] with cover0 := 1 }) = true ∧ (warpQ 0 []).queue 0 = [] ∧
    [Instr.atom 0 0 1 16 1 2, .atom 0 0 1 0 1 2, .atomSc 0 0 1 0 0 1 2].all (fun i => gangRuns i (gangW (warpQ 16 [])) (seatOf (warpQ 16 []))) = true ∧
    16 ≤ ((warpQ 16 []).queue (1 - 1)).length ∧ gangRuns (.atom 0 0 0 16 1 2) (gangW (warpO 196)) (seatOf (warpO 196)) = true ∧
    gang.levelLimit group1 1 < 196 + 4 * 15 + 4 ∧ [16, 0].all (fun sp => collieRuns (.atom 0 0 0 sp 1 2) collie thread0) = true ∧
    (let s := mapped (.gang 0 0 0) (warpQ 0 [])
     let g : Workgroup := { group1 with versionOpen := true, lines := List.replicate 4095 0 }
     (s.nextFree.linesAt 0 g 0 [(0x2000, 4), (0x2040, 4)]).length = 2 ∧ g.lines.length + 1 ≤ 4096 ∧ 4096 < g.lines.length + 2) := by decide +kernel
theorem witness_versioned_store : ((warpQ 0 []).cap 1).Opens 0 (permW + permV) 4 ((seatOf (warpQ 0 [])).exe.lanes.map fun L => ((warpQ 0 []).read 1 L).toNat) ∧
    capFault (capOf 0x2000 64) 1 0 (permW + permV) 4 [(0, 0)] = some { cause := 0x12, lane := 0, arg0 := 1, arg1 := 10 } :=
  ⟨⟨by decide, by decide, by decide, by decide, by decide⟩, by decide⟩

/-- AccessesArePerformedAndArrive: held writes over memory; a load that lies in its agent's own latest store; a store beyond its version's quota;
an access of a task that has ended. -/
theorem witness_held : let g : Workgroup := { group1 with versionOpen := true, held := [held0] }
    g.versionOpen = true ∧ g.overlay 0x2002 [9, 9, 9] = [3, 4, 9] ∧ group1.overlay 0x2002 [9] = [9] := by decide
theorem witness_own_value : let b : Access := { access0 (.store 0x0807060504030201 none false) with id := 4, word := 4, size := 8 }
    let a : Access := { access0 (.load (.pend 1 0)) with addr := rowKey 0 [0] 4 }
    let s := withAccess [b, a]
    s.mem.access.find? (fun x => x.id == a.id) = some a ∧ s.before a = [] ++ [b] ∧ b.word ≠ a.word ∧ b.addr ≤ a.addr ∧ a.addr + a.size ≤ b.addr + b.size ∧
    0x0807060504030201 / 2 ^ (8 * (a.addr - b.addr)) % 2 ^ (8 * a.size) = 0x08070605 := by decide +kernel
theorem witness_over_quota : let g : Workgroup := { group1 with versionOpen := true, lines := List.range 4096 }
    let a : Access := { access0 (.store 7 none true) with global := true, addr := 0x100000 }
    let s : State := { mapped (.gang 0 0 0) (warpM 0) with wgs := [g], mem := { State.reset.mem.boot 0 with access := [a] } }
    s.blocked a = false ∧ s.muWaits a = false ∧ (match s.translate 0 0 0 0 0x100000 needW with | .ok (k, t) => t.overQuota a k | .error _ => false) = true ∧
    (({ group1 with fault := some report0 } : Workgroup).fault ≠ none) := by decide +kernel

/-- queueDataArrival: the one access that an entry of a queue waits for, which may be performed, and an entry that waits for none. -/
def accessQ : Access := { access0 (.load (.queue 0 1 0)) with addr := rowKey 0 [0] 0 }
theorem witness_queue_data : let s := (gangW (warpQ 1 [0])).withMem { gang.mem with access := [accessQ] }
    s.findWarp 0 0 = some (warpQ 1 [0]) ∧ ((warpQ 1 [0]).queue 0)[0]? = some (entry0 [0]) ∧ sparseWf 0 (entry0 [0]).data = true ∧
    (s.mem.access.filter fun a => match a.act with
      | .load (.queue _ i _) => i == (entry0 [0]).id
      | .atom _ _ _ (some (.queue _ i _)) => i == (entry0 [0]).id
      | _ => false) = [accessQ] ∧ s.blocked accessQ = false ∧ s.muWaits accessQ = false ∧ accessQ.parked = none ∧ accessQ.sent = none ∧
    (∀ a ∈ (gangW (warpQ 1 [])).mem.access, a.id ≠ 0) := by decide
/-- The entry of lane 0 becomes ready (R171, by hand). -/
theorem test_queue_data : after (exec (.queueDataArrival 0 0 0 0) ((gangW (warpQ 1 [0])).withMem { gang.mem with access := [accessQ] })) (fun t =>
    (t.mem.access.length, (t.findWarp 0 0).map fun w => w.q0.map (·.waiting))) = some (0, some [[]]) := by decide +kernel

/-- Tickets of a second word of the same slice, in program order. -/
theorem witness_ticket_order : let a : Access := { access0 (.atom 0 1 0 none) with seqr := some 1 }
    let b : Access := { a with id := 4, word := 4, ticket := some 0 }
    ∀ x ∈ [b, a].takeWhile (fun x => x.id != a.id), x.seqr = some 1 → x.word = a.word ∨ (x.who = a.who ∧ x.wg = a.wg) → x.ticket ≠ none := by decide

/-- FencesAndReleasesOrderAccesses: a FENCE.X whose ends are not the load and store path, and one that is; the other agents' accesses. -/
theorem witness_fence_x : gangRuns (.fenceX 2 2 2) (withAccess [access0 (.load (.pend 1 0))]) seat = true ∧ gangRuns (.fenceX 2 1 1) (withAccess [access0 (.load (.pend 1 0))]) seat = true ∧
    collieRuns (.fenceX 2 2 4) collie thread0 = true ∧ mcRuns (.fence 6) (mc.withMem { mc.mem with access := [accessM (.load (.pend 1 0)) 0 4] }) = true ∧
    (accessM (.load (.pend 1 0)) 0 4).note = none ∧ (accessM (.load (.pend 1 0)) 0 4).wg = 0 := by decide

/-- WaitmonParksOnALine: a WAITMON of the controller at MUSYNC behind a command. -/
theorem witness_waitmon_musync : let s : State := { mc with mgmt := { mc.mgmt with muq := [⟨0, 0, 0, 0, 0⟩] }, sched := { mc.sched with uid := 2 }, mc := { mc.mc with x := { mc.mc.x with s := [(1, 0x80020)] } } }
    mcRuns (.waitmon 1 0 1 60 60) s = true ∧ (Exe.rd (.scal s.mc.x) 1 0).toNat = 0x80020 ∧ (∃ m ∈ s.mgmt.muq, m.id < s.sched.uid) ∧ Exe.lanes (.scal s.mc.x) ≠ [] := by decide

/-- BarriersGatherTheirArrivals: a count set to what has arrived and above it; a phase whose gangs still wait for accesses; marks made and not. -/
def barS (x : Barrier) : State := { gang with wgs := [{ group1 with bars := [x] }] }
theorem witness_barrier_phases : [Instr.barInit 0 1, .barInit 0 3, .barArrive 0, .barWait 0 1].all (fun i => gangRuns i (barS { count := 2, arrivals := 1, waking := [⟨0, [9], 0, 0⟩] }) seat) = true ∧
    ((barS { count := 2, before := [9] }).wg 1).bars.getD 0 default = { count := 2, before := [9] } ∧
    (∀ j ∈ seat.g.slices, ((0 : Nat), j) ∈ (List.range 4).map fun j => ((0 : Nat), j)) ∧ (∃ j ∈ seat.g.slices, ((0 : Nat), j) ∉ [((0 : Nat), (0 : Nat))]) := by decide

/-! ### The hypotheses of further clauses: tile words -/

/-- TileWordsAreCheckedAndQueued: operands that fail each detail and none; an operand inside its level and beyond it; a capability that is not one; a
name that fits, that is unmapped, that has the other form, that has one tile where two are asked for. -/
theorem witness_descriptor_details : (∀ e ∈ [(desc8 0 4 16 16, 0), (2 ^ 53, 1), (2 ^ 44 * 257, 2), (2 ^ 88 * 2 + 2 ^ 117 * 4 + 2 ^ 44 * 17 + 2 ^ 64, 4), (2 ^ 88 + 8, 5),
      (2 ^ 88 + 2 ^ 117 * 0xB, 6), (2 ^ 88 + 2 ^ 117 * 4 + 2 ^ 122 * 3, 7)], DescDetail [(BitVec.ofNat 128 e.1, 256)] e.2) ∧
    DescDetail [(BitVec.ofNat 128 (desc8 0 4 16 16), 128), (BitVec.ofNat 128 (desc8 0 4 16 16 + 2 ^ 88), 256)] 3 ∧
    DescDetail [(BitVec.ofNat 128 (desc8 0 4 16 16), 128), (BitVec.ofNat 128 (desc8 0 2 16 32), 256)] 6 := by
  unfold DescDetail descBits descRow
  decide
theorem witness_operands : OperandFits gang group1 {} (BitVec.ofNat 128 (desc8 128 4 16 16)) ∧
    OperandFails gang group1 {} (BitVec.ofNat 128 (desc8 144 4 16 16)) { cause := 0x10, addr := 144, arg0 := 0x101 } ∧
    OperandFails gang group1 {} (BitVec.ofNat 128 (desc8 0 4 16 16 - 2 ^ 122)) { cause := 0x13, arg0 := 0 } := by
  unfold OperandFits OperandFails
  decide
def formS : State := { gangA 0 0 with pillows := { forms := [(32, true)] } }
theorem witness_names :
    NameFits (gangA 0 0) groupA 0 (some false) (some false) ∧ NameFits (gangA 0 0) groupA 8 none (some true) ∧ NameFails (gangA 0 0) groupA 9 none none { cause := 0x4A, detail := 1 } ∧
    NameFails (gangA 0 0) groupA 0 (some true) none { cause := 0x4A, detail := 2 } ∧ NameFails (gangA 0 0) groupA 0 none (some true) { cause := 0x4A, detail := 3 } ∧
    NameFails formS groupA 8 (some false) none { cause := 0x4A, detail := 2 } := by
  refine ⟨?_, ?_, .inl ⟨by decide, rfl⟩, .inr (.inl ⟨by decide, ?_, rfl⟩), .inr (.inr ⟨?_, ?_, rfl⟩), .inr (.inl ⟨by decide, ?_, rfl⟩)⟩ <;>
    unfold NameFits <;> decide

/-- The same, the words: a TLDA with an offset and a stride off by 4, past its level, and inside it; a SCACC whose destination has the AF32 form, past the
scale memory and not; a resumed product with its own descriptors and others, and a count beyond the product; a word that cannot go on. -/
def groupL : Workgroup := { groupA with groupB := 4096 }
def warpL : Warp := { warpT 0 0 with s := [(1, 4), (3, 16), (4, 16384)] }
def tileS : State := { granted (.gang 0 0 0) warpL with wgs := [groupL], pillows := { forms := [(1, true)] } }
theorem witness_tile_moves : [Instr.tlda 0 0 1 1 53 55, .tlda 0 0 1 1 54 53, .tsta 9 0 0 1 54 55, .tsta 1 1 1 1 54 55, .tlda 8 1 1 1 54 55, .tlda 0 0 1 1 55 56, .scacc 1 0 0 0 54,
      .scacc 2 0 0 0 54, .scacc 1 0 0 0 53, .scacc 1 0 0 0 56, .scacc 10 0 3 1 54].all (fun i => gangRuns i tileS (seatOf warpL)) = true ∧ tileS.findWg 1 = some (tileS.wg 1) ∧
    ((seatOf warpL).exe.rd 53 0).toNat % 16 = 4 ∧ 0 + 63 * 16 + 64 * 4 ≤ tileS.levelLimit groupL 1 ∧ tileS.levelLimit groupL 1 < 0 + 63 * 16384 ∧ (groupL.tilesOf 0).length < 2 ∧
    1 < (groupL.tilesOf 8).length ∧ tileS.formOf 1 = true ∧ tileS.formOf 0 = false ∧ 0 + 4 * 1 ≤ 1024 * (tileS.layout.share 0 0).sc ∧
    1024 * (tileS.layout.share 0 0).sc < 16384 + 4 * 1 := by decide +kernel
def resumeS : State := withOps (gangA (desc8 0 4 16 16) (desc8 128 4 16 16)) [stopped0]
theorem witness_resume_product : (resumeS.warpOps (warpT 0 0)).find? (fun o => o.stop.isSome) = some stopped0 ∧
    stopped0.kind = .product false 0 (BitVec.ofNat 128 (desc8 0 4 16 16)) (BitVec.ofNat 128 (desc8 128 4 16 16)) {} {} ∧
    (seatOf (warpT (desc8 0 4 16 16) 0)).exe.tileDesc 8 0 = BitVec.ofNat 128 (desc8 0 4 16 16) ∧ resumeS.warpOps (warpT 0 0) ≠ [] ∧
    (∃ k, k < 128 ∧ k < 108 ∧ (BitVec.ofNat 128 (desc8 0 4 16 16)).getLsbD k ≠ (BitVec.ofNat 128 (desc8 128 4 16 16)).getLsbD k) ∧
    descBits (BitVec.ofNat 128 (desc8 0 4 16 16)) 88 20 = 1 ∧ descBits (BitVec.ofNat 128 (desc8 0 4 16 16)) 108 4 + 1 = 1 ∧
    ((resumeS.warpOps (warpT 0 0)).filter fun o => (resumeS.opsBehind fun o => (resumeS.warpOps (warpT 0 0)).any fun e => e.id == o.id).contains o.id).length = 1 := by decide +kernel
theorem witness_twait_guard : let s : State := { handled (.gang 0 0 0) (warpM 0) with pillows := { ops := [stopped0] } }
    HandlerOpen s.nextFree seat ((s.ctxOf 1).guardentry) := ⟨rfl, rfl, by decide, rfl, rfl, by decide, by decide, by decide, by decide, by decide⟩

/-! ### The hypotheses of further clauses: drains -/

/-- A read of memory that no read can overlook a write to returns the bytes that stand there. -/
theorem glance_settled (m : Memory) (h : m.past = []) (i : Nat) (p : Place) (o floor : Nat) (floors : Sparse Nat) (k n : Nat) :
    (m.glance i p o floor floors k n).1 = m.bytes o k n := by
  have : m.older p o floor floors k n = [] := by
    unfold Memory.older Memory.recent
    rw [h]
    split <;> rfl
  simp [Memory.glance, this]
theorem fetchUnits_settled (s : State) (h : s.mem.past = []) (p : Place) (floors : Sparse Nat) (o k n : Nat) :
    s.fetchUnits p floors o k n = (unitsOf 16 k n).flatMap fun u => s.mem.bytes o (max k (16 * u)) (min (k + n) (16 * u + 16) - max k (16 * u)) := by
  unfold State.fetchUnits Memory.glances
  generalize (Config.overlooked _) = i
  suffices H : ∀ (us : List Nat) (acc : List (BitVec 8) × Nat), (us.foldl (fun acc u =>
      let lo := max k (16 * u)
      let r := s.mem.glance (i u) p o 0 floors lo (min (k + n) (16 * u + 16) - lo)
      (acc.1 ++ r.1, max acc.2 r.2)) acc).1 =
      acc.1 ++ us.flatMap fun u => s.mem.bytes o (max k (16 * u)) (min (k + n) (16 * u + 16) - max k (16 * u)) by
    exact H _ _
  intro us
  induction us with
  | nil => intro acc; simp
  | cons u us ih =>
    intro acc
    rw [List.foldl_cons, ih, List.flatMap_cons, ← List.append_assoc]
    simp only [glance_settled _ h]

def drainS (p : Pillows) (l : List (BitVec 8)) : State :=
  { gangA 0 0 with pillows := { p with ops := [running product0] }, mem := { ((gangA 0 0).mem.write 0 (rowKey 0 [0] 0) l).write 0 (rowKey 0 [0] 128) l with past := [] } }
abbrev descA (type : Nat) : TileDesc := BitVec.ofNat 128 (desc8 0 type 16 16)
abbrev descB (type : Nat) : TileDesc := BitVec.ofNat 128 (desc8 128 type 16 16)
/-- The rows of a drain of one k-step, where each is read without a translation. -/
theorem drainRows_one (s : State) (o : TileOp) (A B : TileDesc) (ca cb : Cap) (f g : Nat → List (BitVec 8)) (hA : TileField.type A ≠ 0xA)
    (hB : TileField.type B ≠ 0xA) (h : ∀ k, s.tileRow o A ca k = .bytes (f k) s ∧ s.tileRow o B cb k = .bytes (g k) s) :
    s.drainRows o A B ca cb 0 1 = .rows ((List.range 8).map f) ((List.range 8).map g) s := by
  have hw : ((List.range' (8 * 0) (8 * (1 - 0))).flatMap fun k => [(false, k), (true, k)]) = [(false, 0), (true, 0), (false, 1), (true, 1), (false, 2), (true, 2),
    (false, 3), (true, 3), (false, 4), (true, 4), (false, 5), (true, 5), (false, 6), (true, 6), (false, 7), (true, 7)] := rfl
  unfold State.drainRows
  rw [hw]
  simp [h, hA, hB, List.range, List.range.loop]
/-- Row k of an operand of 16 bytes a row in the group's scratchpad. -/
def rowAt (m : Memory) (d : TileDesc) (k : Nat) : List (BitVec 8) :=
  let at_ := TileField.off d + k * TileField.stride d
  (unitsOf 16 at_ 16).flatMap fun u =>
    let lo := max at_ (16 * u)
    let k := rowKey 0 [0] lo
    let n := min (at_ + 16) (16 * u + 16) - lo
    (unitsOf 16 k n).flatMap fun v => m.bytes 0 (max k (16 * v)) (min (k + n) (16 * v + 16) - max k (16 * v))
theorem tileRow_settled (s : State) (o : TileOp) (h : s.mem.past = []) (d : TileDesc) (hd : rowBytes (TileField.type d) (TileField.len d) = 16 ∧ TileField.space d = 1)
    (hk : (s.wg o.wg).core = 0 ∧ (s.wg o.wg).rows = [0]) (hp : o.part = 0) (k : Nat) : s.tileRow o d {} k = .bytes (rowAt s.mem d k) s := by
  unfold State.tileRow State.tileBytes rowAt
  have hl (off : Nat) : s.levelKey (s.wg o.wg) 1 0 off = rowKey 0 [0] off := by
    simp only [State.levelKey, hk.1, hk.2]
  simp only [hd.1, hd.2, fetchUnits_settled s h, hl, hp]
  rw [if_neg (by decide), if_neg (by decide)]
/-- TileOperationsRun: a drain whose rows are zero, all of whose elements are inside; one whose first element is outside the accumulator; rows of
tapered elements, and values that align. -/
theorem drain_rows (l : List (BitVec 8)) (p : Pillows) (A B : TileDesc) (hA : A ∈ [descA 4, descB 4, descA 0x15]) (hB : B ∈ [descA 4, descB 4, descA 0x15]) :
    (drainS p l).nextFree.drainRows (running product0) A B {} {} 0 1 =
      .rows ((List.range 8).map (rowAt (drainS p l).mem A)) ((List.range 8).map (rowAt (drainS p l).mem B)) (drainS p l).nextFree := by
  have hq : [descA 4, descB 4, descA 0x15].all (fun d => TileField.type d != 0xA && rowBytes (TileField.type d) (TileField.len d) == 16 && TileField.space d == 1) = true := by
    decide
  have ht (d : TileDesc) (hd : d ∈ [descA 4, descB 4, descA 0x15]) :
      TileField.type d ≠ 0xA ∧ rowBytes (TileField.type d) (TileField.len d) = 16 ∧ TileField.space d = 1 := by
    have := List.all_eq_true.1 hq d hd
    simpa [and_assoc] using this
  exact drainRows_one _ _ _ _ _ _ _ _ (ht A hA).1 (ht B hB).1 fun k =>
    ⟨tileRow_settled _ _ rfl A (ht A hA).2 ⟨rfl, rfl⟩ rfl k, tileRow_settled _ _ rfl B (ht B hB).2 ⟨rfl, rfl⟩ rfl k⟩
theorem witness_drain_rows : ([descA 4, descB 4].all fun d => (List.range 8).map (rowAt (drainS {} []).mem d) == List.replicate 8 (List.replicate 16 0)) = true ∧
    ([descA 4, descB 4, descA 0x15].all fun d => (List.range 8).map (rowAt (drainS {} [1]).mem d) == (1 :: List.replicate 15 0) :: List.replicate 7 (List.replicate 16 0)) = true ∧
    descBits (descA 4) 122 2 ≠ 0 ∧ descBits (descA 4) 0 44 % 16 = 0 ∧ rowBytes 4 16 = 16 ∧ product0.drained < descBits (descA 4) 88 20 := by decide +kernel
theorem witness_drain_zero (r c : Nat) : let z : List (List (BitVec 8)) := List.replicate 8 (List.replicate 16 0)
    let value (bs : List (BitVec 8)) (j : Nat) : Int := if j < 16 then (intElem 4 bs j).getD 0 else 0
    ((z.zip z).map fun e => value e.1 r * value e.2 c).sum = 0 ∧ inSlot 16 true 0 = true ∧ (product0.drained < 1) ∧ (drainS {} []).pillows.elems = [] := by
  have h (j : Nat) (hj : j < 16) : (intElem 4 (List.replicate 16 0) j).getD 0 = 0 := by
    revert j
    decide
  have v (j : Nat) : (if j < 16 then (intElem 4 (List.replicate 16 (0 : BitVec 8)) j).getD 0 else 0) = 0 := by
    split
    · exact h j (by assumption)
    · rfl
  refine ⟨?_, by decide, by decide, rfl⟩
  dsimp only
  rw [List.zip_replicate', List.map_replicate]
  simp only [v]
  decide
theorem witness_drain_outside : ((drainS { elems := [(0, 2 ^ 47 - 1)] } [1]).pillows.elem 0 0 0).toInt + 1 = 2 ^ 47 ∧ inSlot 16 true 1 = true ∧
    (intElem 4 (1 :: List.replicate 15 0) 0).getD 0 = 1 := by decide
theorem witness_tapered : TileField.type (descA 0x15) = 0x15 ∧ tapElem 0x15 (0x40 :: List.replicate 15 0) 0 = some (false, 0, 16) ∧ tapElem 0x15 [0x80] 0 = none ∧
    tapElem 0x15 (List.replicate 16 0) 0 = some (false, 0, 0) := by decide
theorem witness_aligns : Aligns (fun k => if k = 0 then some (false, 0, 16) else some (false, 0, 0)) (fun k => if k = 0 then 64 else 0) 0 := by
  refine ⟨?_, ?_, ?_, ?_, ?_⟩
  · decide
  · intro k _ sg E h
    by_cases hk : k = 0
    · simp [hk] at h
    · simp [hk]
  · intro h
    obtain ⟨sg, E, h⟩ := h 0 (by decide)
    simp at h
  · intro k _ sg E M h hM
    by_cases hk : k = 0
    · simp only [hk, if_true, Option.some.injEq, Prod.mk.injEq] at h
      obtain ⟨rfl, rfl, rfl⟩ := h
      exact ⟨le_refl _, 64, by simp [hk], by decide, by decide⟩
    · simp only [hk, if_false, Option.some.injEq, Prod.mk.injEq] at h
      exact absurd h.2.2.symm hM
  · exact fun _ => ⟨0, by decide, false, 16, rfl, by decide⟩
theorem witness_store_units : (withOps (gangA 0 0) [running (op0 (.store true true false 0 16) [0])]).mem.access = [] := by decide

/-! ### The hypotheses of further clauses: versions and copies -/

/-- CapabilitiesDeriveAndMove and SkeinsMoveToAndFromMemory: a store through a versioned capability whose lines the version has room for, and one that
outgrows it; the permissions that it needs. -/
def versionS (n : Nat) : State := { mapped (.gang 0 0 0) (warpQ 0 []) with wgs := [{ group1 with versionOpen := true, lines := List.replicate n 0 }], collies := [{ threadC with c := [(1, capV 0x2000 64)] }] }
theorem witness_versioned_moves : [Instr.cstc 3 1 60, .kst 2 0 1 60].all (fun i => gangRuns i (versionS 4095) (seatOf (warpQ 0 [])) && gangRuns i (versionS 4096) (seatOf (warpQ 0 []))) = true ∧
    (capV 0x2000 64).versioned = true ∧ ((versionS 9).wg 1).versionOpen = true ∧ ((versionS 9).wg 1).irr = false ∧
    (((versionS 9).nextFree.linesAt 0 ((versionS 9).wg 1) 0 [(0x2000, 16)]).filter fun l => !((versionS 9).wg 1).lines.contains l).length = 1 ∧
    ((versionS 9).nextFree.linesAt 0 ((versionS 9).wg 1) 0 ((List.range (64 / 16)).map fun u => ((0x2000 + (0 + 16 * u)) % 2 ^ 56, 16))).length = 1 ∧
    capFault (capOf 0x2000 64) 1 0 (permW + permV) 64 [(0xFF, 0)] = some { cause := 0x12, lane := 0xFF, arg0 := 1, arg1 := 10 } := by decide +kernel
theorem witness_versioned_opens : (capV 0x2000 64).Opens 0 (permW + permV) 64 [0] ∧ (capV 0x2000 64).Opens 0 permW 16 [0] :=
  ⟨⟨by decide, by decide, by decide, by decide, by decide⟩, by decide, by decide, by decide, by decide, by decide⟩
theorem witness_collie_version : CollieRuns (.cstc 3 1 60) { versionS 9 with sched := collie.sched } { threadC with c := [(1, capV 0x2000 64)] } :=
  collieRuns_sound (by decide +kernel)

/-- CopiesStartAndMove: the copy whose turn it is and one behind it; a unit from memory to the scratchpad; a flag that can be translated; a flag sent and
one whose device has still to answer. -/
def copyS (l : List Copy) : State := { mapped (.collie 0 0) (warpM 0) with copies := l }
def copyF : Copy := { copy0 with desc := copy0.desc ||| 1 <<< 167, moved := [0], flag := capOf 0x2000 64 }
theorem witness_copy_turns : (copyS [copy0, { copy0 with id := 10 }]).copyFirst copy0 = true ∧ (copyS [copy0, { copy0 with id := 10 }]).copyFirst { copy0 with id := 10 } = false ∧
    ((copyS [copy0]).ctx 0 0).gated = false ∧ CopyField.srcOff copy0.desc % 16 = 0 ∧ CopyField.flag copyF.desc = true ∧ copyF.flagged = false ∧
    (∀ a ∈ (copyS [copyF]).mem.access, ∀ n, n < 1 → a.note ≠ some (n, copyF.id)) ∧ here ((copyS [copyF]).translate 0 0 0 0 0x2000 needRW) = true ∧
    ({ access0 (.atom 0 1 0 none) with note := some (0, 9), addr := 2 ^ 51 } : Access).note = some (0, copyF.id) ∧ isRemote (2 ^ 51 + 2 ^ 43) = true := by decide +kernel

/-! ### The hypotheses of further clauses: packets, tasks and estates -/

/-- LaunchesAndTasks, the rows of R294: a sound kernel and one of a reserved bit; a core that holds a workgroup and a share that holds none; an argument
that the warp passes, one that it has not, and a block that is not there; an inheritance descriptor for a kernel of one estate, and none. -/
def descI : BitVec 512 := BitVec.ofNat 512 (desc0 0 + 2 ^ 409 + 2 ^ 412)
theorem witness_kernel_sound : KernelSound (BitVec.ofNat 512 (desc0 0)) := by
  unfold KernelSound bits512
  and_intros <;> decide +kernel
theorem witness_kernel_inherits : KernelSound descI := by
  unfold KernelSound bits512
  and_intros <;> decide +kernel
theorem witness_core_holds : CoreHolds (layoutK.share 0 0) (BitVec.ofNat 512 (packet0 3 0)) (BitVec.ofNat 512 (desc0 0)) := by
  unfold CoreHolds bits512
  decide +kernel
def inhI : BitVec 512 := BitVec.ofNat 512 (2 ^ 464 + 2 ^ 177 + 2 ^ 180)
theorem witness_inheritance : InheritanceSound inhI descI := by
  unfold InheritanceSound bits512
  and_intros <;> decide +kernel
theorem witness_packet_unsound : ¬ KernelSound (BitVec.ofNat 512 (desc0 0 + 2 ^ 16)) ∧
    ¬ CoreHolds {} (BitVec.ofNat 512 (packet0 3 0)) (BitVec.ofNat 512 (desc0 0)) ∧ ¬ InheritanceSound 0 descI :=
  ⟨fun h => absurd h.1 (by decide +kernel), fun h => absurd h.1 (by decide +kernel), fun h => absurd h.2.2.2.1 (by decide +kernel)⟩
theorem witness_argument_forms : bits512 (BitVec.ofNat 512 (packet0 3 1 + 2 ^ 62)) 62 1 = 1 ∧ bits512 (BitVec.ofNat 512 (packet0 3 1)) 62 1 = 0 ∧
    bits512 (BitVec.ofNat 512 (packet0 3 1)) 288 56 = 0 ∧ bits512 (BitVec.ofNat 512 (packet0 3 1)) 92 4 = 1 := by decide +kernel
theorem witness_arguments (s : State) (p : BitVec 512) :
    (bits512 p 62 1 = 1 → Argument s 0 0 p [(0, capOf 0x2000 64)] 0 (capOf 0x2000 64) ∧ ∀ d, ¬ Argument s 0 0 p [] 0 d) ∧
    (bits512 p 62 1 = 0 → bits512 p 288 56 = 0 → ∀ d, ¬ Argument s 0 0 p [] 0 d) := by
  unfold Argument
  refine ⟨fun h => ?_, fun h0 h1 d h => ?_⟩
  · simp only [h, if_true]
    exact ⟨by decide, fun d h => absurd h.2.1 (by rw [h.1]; decide)⟩
  · rw [if_neg (by rw [h0]; decide)] at h
    exact h.1 h1

/-- The same, LAUNCH and POST with a full queue: the ring empty, with an item, and full; a store of the gang in flight; FORK with a full deque. -/
def fullS (n : Nat) : State :=
  { machineK (packet0 3 0) group1 (warpM 0) with
    dist := { queues := [(0, List.replicate 64 default)], rings := ringSet [] 0 0 0 (List.replicate n default) }, ctxs := [{ ctxK with lk := [1, 1, 1, 1] }] }
theorem witness_full_queue : [0, 1, 2].all (fun n => [Instr.launch 52 16 53, .launchNb 52 16 53].all (fun i => gangRuns i (fullS n) (seatOf (warpM 0))) &&
      scratchFree (seatOf (warpM 0)) (fullS n).nextFree 0 && isOk ((fullS n).checkPacket 0 0 false (BitVec.ofNat 512 (packet0 3 0))) &&
      (ringItems (fullS n).dist.rings 0 0 0).length == n) = true ∧
    ((fullS 1).ctx 0 0).loaded = true ∧ 1 < 2 ^ ((fullS 1).ctx 0 0).lk.getD 0 6 ∧ ¬ 2 < 2 ^ ((fullS 1).ctx 0 0).lk.getD 0 6 ∧
    (∃ x ∈ ((fullS 1).withMem { (fullS 1).mem with access := [access0 (.store 7 none false)] }).mem.access, x.wg = 1 ∧ x.writes = true) := by decide +kernel
def postS (n m : Nat) : State :=
  { withGrid 1 (warpQ4 15) with dist := { grids := [gridOf 1], tasks := [(0, List.replicate n default)], taskRings := ringSet [] 0 0 0 (List.replicate m default) }
                                ctxs := [{ ctxK with tk := [1, 1, 1, 1] }] }
theorem witness_full_tasks : [(63, 0), (64, 0), (0, 1), (64, 2)].all (fun e => gangRuns (.post 4) (postS e.1 e.2) (seatOf (warpQ4 15))) = true ∧
    (postS 0 0).layout.taskHome 0 15 = (0, 0) ∧ (∀ x ∈ ringItems (postS 64 0).dist.taskRings 0 0 0, x.bits ≠ 0) ∧
    (∃ x ∈ ringItems (postS 0 1).dist.taskRings 0 0 0, ((postS 0 1).layout.taskHome 0 x.bits).2 = 0) ∧
    2 ^ ((postS 64 2).ctx 0 0).tk.getD 0 6 ≤ (ringItems (postS 64 2).dist.taskRings 0 0 0).length ∧
    (let s : State := { withGrid 2 (warpQ4 15) with dist := { grids := [gridOf 2], deques := [(0, List.replicate 64 default)] } }
     gangRuns (.fork 4) s (seatOf (warpQ4 15)) = true ∧ 64 ≤ (sparseGet [] s.dist.deques (coreQueue 0 0)).length) := by decide +kernel

/-- EstateWordsNameTheirKeys: a block that the Kennel's memory has no room for; keys out of range in lane 2; a lineage of 0 and one beyond 24 bits; an
estate that stands, that moves, of another lineage. -/
def warpK3 : Warp := { (warpE 10).write 21 [(2, 0x100)] with s := [(0, 4), (1, 9), (2, 0x1000000), (3, 0x10000)] }
theorem witness_estate_faults : [Instr.bequeath 10 1 0 60, .bequeath 10 1 3 60, .bequeath 10 1 0 20, .eclaim 10 0 0 20 1 3, .eclaim 10 0 0 22 5 3, .eclaim 10 0 0 22 2 3,
      .erelease 1, .erelease 2, .ereleaseKey 1 20, .ereleaseKey 1 22, .eprobe 2 20 1, .eprobe 2 22 5].all (fun i => gangRuns i (withGrid 0 warpK3) (seatOf warpK3)) = true ∧
    (withGrid 0 warpK3).unitsAt 0 (.kennel 0) + 16 * (1 + 1) > ((withGrid 0 warpK3).layout.share 0 0).kn ∧ (withGrid 0 warpK3).estates = [] ∧
    (seatOf warpK3).exe.lanes.find? (fun L => decide (2 ^ 40 ≤ ((seatOf warpK3).exe.rd64 20 L).toNat)) = some 2 ∧
    (∀ L ∈ (seatOf warpK3).exe.lanes, ((seatOf warpK3).exe.rd64 22 L).toNat < 2 ^ 40) ∧ ¬ (sparseGet 0 warpK3.s 3 : BitVec 32).toNat < 2 ^ 16 := by decide +kernel
def estate1 (moving : Bool) (place : EstatePlace) : Estate :=
  { id := 3, part := 0, ctx := 0, key := 9 * 2 ^ 40, count := 1, widths := 0, vals := [9], core := 0, place := place, born := 0, moving := moving }
theorem witness_probed : [estate1 true (.kennel 0), estate1 false (.kennel 0), estate1 false (.kennel 1), estate1 false (.reserve 0), estate1 false (.area 0)].all (fun e =>
      e.stray == none && e.key == 9 * 2 ^ 40 + 0 && gangRuns (.eprobe 2 22 1) { withGrid 0 warpK3 with estates := [e] } (seatOf warpK3)) = true ∧
    (sparseGet 0 warpK3.s 1 : BitVec 32) = 9 := by decide +kernel

/-! ### The hypotheses of further clauses: saving, doorbells, placement and strays -/

/-- WorkgroupsAreSavedAndRestored: a gated workgroup whose storage a grid of a running context claims, and one that nothing claims. -/
def gatedS (l : List Grid) : State :=
  { suspendS with ctxs := [{ ctxK with gated := true }, { ctxK with num := 1 }], wgs := [group1], warps := [warpM 0], dist := { grids := l } }
theorem witness_scan_out : (gatedS [{ gridOf 0 with uid := 2, ctx := 1 }]).claimed group1 = true ∧ (gatedS []).claimed group1 = false ∧
    ((gatedS []).gatedOn 0 0).contains 1 = true ∧ ((gatedS []).ctx 0 0).gated = true ∧ (gatedS []).wgQuiet 1 = true := by decide +kernel
/-- Two suspended workgroups of a grid, both of which fit; a scanned-out one goes back to its slot and thread. -/
def groupZ (uid wi : Nat) : Workgroup := { group1 with uid := uid, wi := wi, saved := true, suspended := true, savedW := [warpM 0], rows := [], privRows := [] }
def backS (l : List Workgroup) : State := { machineG group1 warpD with warps := [], collies := [], wgs := l, dist := { grids := [gridOf 0] } }
theorem witness_restore_order : (backS [groupZ 1 1, groupZ 3 0]).restorable (groupZ 1 1) = true ∧ (backS [groupZ 1 1, groupZ 3 0]).restorable (groupZ 3 0) = true ∧
    (backS [groupZ 1 1, groupZ 3 0]).restoresBefore (groupZ 3 0) (groupZ 1 1) = true ∧ ((backS [groupZ 1 1, groupZ 3 0]).returns (groupZ 3 0)).isEmpty = false ∧
    (backS [groupZ 1 1, groupZ 3 0]).restoresBefore (groupZ 1 1) (groupZ 3 0) = false ∧ dieOf (groupZ 1 1).core = 0 := by decide +kernel
theorem witness_restore_exact : let g : Workgroup := { groupZ 1 0 with suspended := false, scanned := true, savedW := [{ warpM 0 with slot := 2 }], thread := none }
    (match (backS [g]).roomFor g 0 with | some r => r.slots == [2] && ((backS [g]).restoreWg 1 0 r).isSome | none => false) = true := by decide +kernel

/-- PacketsAreAccepted: a doorbell with room in the queue, with room in the ring alone, and with none; two contexts whose rings wait for the last place
of the queue; a context that is not loaded, whose entry is not valid or is not good. -/
def bellS (n m : Nat) : State :=
  { doorS 0x6000 with mgmt := { mc.mgmt with ready := true }, ctxs := [{ ctxK with lk := [1, 1, 1, 1] }]
                      dist := { queues := [(0, List.replicate n default)], rings := ringSet [] 0 0 0 (List.replicate m default) } }
theorem witness_doorbells : [(63, 0), (64, 1), (64, 2)].all (fun e => (bellS e.1 e.2).mgmt.ready && !(bellS e.1 e.2).mgmt.safe &&
      (sparseGet [] (bellS e.1 e.2).dist.queues 0).length == e.1 && (ringItems (bellS e.1 e.2).dist.rings 0 0 (0x6000 / 2 ^ 56)).length == e.2) = true ∧
    ((bellS 64 1).ctx 0 0).loaded = true ∧ 1 < 2 ^ ((bellS 64 1).ctx 0 0).lk.getD 0 6 ∧ ¬ 2 < 2 ^ ((bellS 64 2).ctx 0 0).lk.getD 0 6 := by decide +kernel
theorem witness_two_rings : let x : Submission := { part := 0, ctx := 1, seq := 4 }; let y : Submission := { part := 0, ctx := 2, seq := 3 }
    let s : State := { bellS 63 0 with dist := { (bellS 63 0).dist with rings := [⟨0, 0, 1, [x]⟩, ⟨0, 0, 2, [y]⟩] } }
    y.seq < x.seq ∧ (sparseGet [] s.dist.queues 0).length = 63 ∧ sparseWf [] s.dist.queues = true ∧
    [1, 2].all (fun c => !s.disturbed 0 c ((s.ctx 0 c).lring.getD 0 0) (64 * 2 ^ (s.ctx 0 c).lk.getD 0 6)) = true := by decide +kernel
theorem witness_unloaded : errs (gang.readContext 0 0) 255 = true ∧
    errs ((gang.withMem (gang.mem.writeNat hostShared 0 64 (2 ^ 448 + 2 ^ 500))).readContext 0 0) 0 = true := by decide +kernel

/-- WorkIsPlacedAndStolen: a suspended workgroup that can come back; a die that can steal and one that cannot; a task in a queue and one in a deque. -/
theorem witness_return_first : (groupZ 1 1).suspended = true ∧ (backS [groupZ 1 1]).restorable (groupZ 1 1) = true ∧ ((backS [groupZ 1 1]).returns (groupZ 1 1)).isEmpty = false ∧
    (∀ w ∈ (backS [group1]).wgs, w.suspended = false) := by decide +kernel
theorem witness_steals : (∃ g ∈ placeS.dist.grids, g.ctx = 0 ∧ g.lineage = 1 ∧ g.owned 1 = [] ∧ 1 ∉ g.dry ∧ placeS.placeable g = true) ∧ placeS.dist.dieReplies = [] ∧
    (∀ g ∈ placeS.dist.grids, ¬ (g.ctx = 0 ∧ g.lineage = 2)) ∧
    (let r : TaskRec := { grid := 1, bits := 3 }
     sparseGet [] (taskS [(0, [r])] []).dist.tasks 0 = [r] ∧ sparseGet [] (taskS [(0, [r])] []).dist.deques 0 = [] ∧
     sparseGet [] (taskS [] [(0, [r])]).dist.tasks 0 = [] ∧ sparseGet [] (taskS [] [(0, [r])]).dist.deques 0 = [r] ∧ (taskS [] []).dist.taskRings = []) := by decide +kernel

/-- EstatesArriveAndExpire: an estate under way to a reserve, to its area, and to an area that is not mapped; strays of one retirement, of which the first is
that of the lower key. -/
def movingE (place : EstatePlace) (addr : Nat) : Estate := { estate0 with moving := true, place := place, addr := addr }
def movingS (e : Estate) : State := { machineG group1 (warpM 0) with estates := [e] }
theorem witness_moving : [movingE (.reserve 0) 0, movingE (.area 0) 0x7000, movingE (.area 0) 0x123456789000].all (fun e =>
      (movingS e).estates.find? (fun f => f.id == 3 && f.moving && f.parked.isNone) == some e) = true ∧ (warpM 0).claims = [] ∧
    ((unitsOf 16 0x7000 (16 * (movingE (.area 0) 0x7000).units)).all fun u => here ((movingS (movingE (.area 0) 0x7000)).translate 0xFFFF 0 0 0 (16 * u) needW)) = true ∧
    ((unitsOf 16 0x123456789000 16).head?.map fun u => here ((movingS estate0).translate 0xFFFF 0 0 0 (16 * u) needW)) = some false := by decide +kernel
theorem witness_stray_order : let e : Estate := { estate0 with stray := some 1, strayAt := 5 }
    let f : Estate := { e with id := 4, key := 2 ^ 40 + 8 }
    ({ strayS with estates := [e, f] } : State).estates.Nodup ∧ (∀ x ∈ [e, f], x.ctx = e.ctx → x.stray ≠ none →
      x = e ∨ (e.stray = some 1 ∧ x.stray = some 1 ∧ x.part = e.part ∧ x.strayAt = e.strayAt ∧ e.key < x.key)) := by decide +kernel

/-! ### The hypotheses of further clauses: functions, resets and requests -/

/-- RegistersAndCommandsOfFunctions: a stream without keys; one with a key whose set 0 is live and whose set 1 is not, or is the former one. -/
theorem witness_streams (st : Nat) : (sparseGet 0 gang.ide.keys (4 * st + 2 + 0) = 0 ∧ sparseGet 0 gang.ide.keys (4 * st + 2 + 1) = 0) ∧
    (let d : Ide := { keys := [(4 * st + 2 + 0, 5)] }
     sparseGet 0 d.keys (4 * st + 2 + 0) ≠ 0 ∧ 0 = sparseGet 0 d.inUse (2 * st + 1) ∧ ¬ (1 = sparseGet 0 d.inUse (2 * st + 1) ∨ sparseGet 0 d.former st = 1 + 1)) ∧
    sparseGet 0 ({ former := [(st, 2)] } : Ide).former st = 1 + 1 := by
  simp [sparseGet, machine, State.reset]
/-- The same, commands that wait and that do not: an invalidation behind a copy's write, a write sent through the range and a running product; a context
killed whose task runs; a layout that a context of its own PREEMPT and one of the layout wait for; a carve-out behind an access to the die's memory. -/
def invalS (a : List Access) (o : List TileOp) : State := (withOps (fnS { cmd := some { code := 4, args := [0, 0x2000, 64] }, ctxcount := 1 } gang) o).withMem { gang.mem with access := a }
theorem witness_command_waits : (∃ a ∈ (invalS [{ access0 (.store 7 none false) with note := some (0, 9) }] []).mem.access, a.part = 0 ∧ a.ctx = 0 ∧ a.note.isSome = true) ∧
    (∃ a ∈ (invalS [{ accessS (.store 7 none false) with addr := 0x203F }] []).mem.access, a.global = true ∧ a.sent.isSome = true ∧ a.addr < 0x2000 + 64 ∧ 0x2000 < a.addr + a.size) ∧
    (∃ o ∈ (invalS [] [running product0]).pillows.ops, o.part = 0 ∧ o.ctx = 0 ∧ o.running = true) ∧
    ((invalS [] []).mem.access = [] ∧ (invalS [] []).pillows.ops = []) ∧ gang.taskOver 1 = false ∧ (1 : Nat) < 1 + 1 ∧
    ((commandS { code := 16, args := [0] }).ctxs.map fun k => k.laid) = [false] ∧
    (¬ ∀ a ∈ (withAccess [{ access0 (.load (.pend 1 0)) with addr := dieKey 1 5 }]).mem.access, a.global = false → ¬ (dieKey 1 0 ≤ a.addr ∧ a.addr < dieKey 1 0 + 2 ^ 26)) := by decide +kernel

/-- CommandsTakeEffect: RESUME of an entry that is not valid, of one that is rejected, while a layout that changes the partition is under way; a function with
a command under way and a package in its safe state. -/
theorem witness_resumes : errs (commandP.readContext 0 0) 255 = true ∧ errs ((commandP.withMem (commandP.mem.writeNat hostShared 0 64 (2 ^ 448 + 2 ^ 500))).readContext 0 0) 0 = true ∧
    (({ commandP with newLayout := some State.reset.layout } : State).newLayout.map fun y => commandP.layout.differs y 0) = some true ∧ commandP.newLayout = none ∧
    (({ commandP.fn 1 with cmd := some { code := 3, args := [] } } : HostFn).cmd).isSome = true ∧ ({ commandP.mgmt with safe := true } : Mgmt).safe = true := by decide +kernel

/-- ThePackageIsReset: a self-test after an activation and at power-up; a controller whose reset is due; units that wait for their activation, one at its
idle point and one not; a Kennel that can be emptied; each kind of unit, whichever kind the unit number names. -/
theorem witness_engines : ({ gang.mgmt with ready := true, testing := true } : Mgmt).testing = true ∧ ({ gang.mgmt with due := true } : Mgmt).due = true ∧ gang.mgmt.due = false ∧
    gang.engineIdle 0 1 = true ∧ gang.engineIdle 0 0 = false ∧ gang.engineIdle 1 0 = false ∧ gang.engineIdle 4 0 = true ∧
    ((gang.nextFree.resetEngine 0 1).map fun t => t.mgmt == gang.mgmt) = some true ∧ (gang.emptyKennel 1).isSome = true ∧
    (0, 1) ∈ ({ gang.mgmt with pend := [(0, 0), (0, 1)] } : Mgmt).pend ∧ ({ gang.mgmt with ereset := [(5, 1)] } : Mgmt).ereset = [(5, 1)] ∧ gang.mgmt.engines.length = 8 := by decide +kernel
theorem witness_unit_kinds (unit : Nat) : Config.unitKind unit < 8 ∨ 8 ≤ Config.unitKind unit := by omega

/-- RequestsAreAnsweredAndFirmwareUpdated: the fields that let a request through and those that do not, at the ends of the block numbers; units that wait. -/
theorem witness_request_fields : ([0x12, 0xE4, 0, 1] : List (BitVec 8)).getD 3 0 ≠ 0 ∧ ([0x12, 0xE4, 0xFF, 0] : List (BitVec 8)).getD 3 0 = 0 ∧
    ([0x12, 0x83, 1, 0] : List (BitVec 8)).getD 2 0 ≠ 0 ∧ (([0x12, 0xE0, 0, 0] : List (BitVec 8)).getD 2 0).getLsbD 0 = false ∧ (1 : Nat) ≤ 18 ∧ 18 < 19 ∧
    ({ mc.mgmt with pend := [(0, 0)] } : Mgmt).pend ≠ [] ∧ mc.findCtx 0 7 = none := by decide +kernel

/-! ### The hypotheses of further clauses: rings, estates of an area, held writes and ports -/

/-- PacketsAreAccepted: the ring of one entry of a context whose tables stand, as the spill left it; its item and one of another context, earlier and later. -/
def ringS : State :=
  { (bellS 63 0).withMem { (bellS 63 0).mem with noise := [⟨0x7000, 0x7040, 0, false⟩] } with
    ctxs := [{ ctxK with lk := [0, 0, 0, 0], lring := [0x7000] }] }
theorem witness_ring_item : let x : Submission := { part := 0, ctx := 0, seq := 3 }
    ringS.disturbed 0 0 ((ringS.ctx 0 0).lring.getD 0 0) (64 * 2 ^ (ringS.ctx 0 0).lk.getD 0 6) = false ∧ x.parked = none ∧
    (ringS.spansOf 0 0 0x7000 64).isEmpty = false := by decide +kernel
theorem witness_ring_entry : (ringS.ringEntry 0 0 3 64 3 needRW ((ringS.ctx 0 0).lring.getD 0 0, 64 * 2 ^ (ringS.ctx 0 0).lk.getD 0 6)).1 = none := by
  have h : (match ringS.translate 0xFFFF 0 0 0 0x7000 needRW with | .ok _ => true | .error _ => false) = true := by decide +kernel
  have hz : Config.freeChoice 3 (64 * 2 ^ (ringS.ctx 0 0).lk.getD 0 6 / 64) % (64 * 2 ^ (ringS.ctx 0 0).lk.getD 0 6 / 64) = 0 := Nat.mod_one _
  have hv : (ringS.ctx 0 0).lring.getD 0 0 = 0x7000 := by decide +kernel
  unfold State.ringEntry
  dsimp only
  rw [hz, hv]
  revert h
  cases ringS.translate 0xFFFF 0 0 0 (0x7000 + 64 * 0) needRW <;> simp

/-- EstatesArriveAndExpire: a claim of an estate that leaves its area, from memory that translates, that does not, and with the fault still open; a stray
that stands in its area. -/
def areaE (addr : Nat) (parked : Option Nat) : Estate := { estate0 with place := .area 0, addr := addr, parked := parked }
def areaS (e : Estate) : State := { estateS none [e] with layout := layoutK }
theorem witness_leaves_area : [areaE 0x7000 none, areaE 0x123456789000 none, areaE 0x123456789000 (some 2)].all (fun e =>
      (areaS e).estateOf 0 0 (2 ^ 40 + 7) == some e && !((areaS e).ctxOf 1).gated && !e.moving) = true ∧
    ((unitsOf 16 0x7000 (16 * (areaE 0x7000 none).units)).all fun u => here ((areaS (areaE 0x7000 none)).translate 0xFFFF 0 0 0 (max 0x7000 (16 * u)) needR)) = true ∧
    ((unitsOf 16 0x123456789000 16).map fun u => here ((areaS estate0).translate 0xFFFF 0 0 0 (max 0x123456789000 (16 * u)) needR)) = [false] := by decide +kernel
theorem witness_stray_area : let e : Estate := { areaE 0x7000 none with stray := some 2 }
    (areaS e).estates = [e] ∧ ((areaS e).ctx 0 0).strayPtr ≠ 0 ∧ e.moving = false ∧
    (areaS e).nextFree.failing e.part e.ctx e.addr (16 * e.units) 16 needR = none := by decide +kernel

/-- RegistersAndCommandsOfFunctions: an invalidation behind a held write, whose last byte is the range's first. CommandsTakeEffect: RESUME of a context that
is not loaded, with and without work of it. -/
theorem witness_held_waits : let s : State := { invalS [] [] with wgs := [{ group1 with held := [{ held0 with va := 0x1FFD }] }] }
    (s.fn 1).cmd = some { code := 4, args := [0, 0x2000, 64] } ∧ ∃ g ∈ s.wgs, g.part = 0 ∧ g.ctx = 0 ∧ ∃ h ∈ g.held, h.va < 0x2000 + 64 ∧ 0x2000 < h.va + h.size := by
  decide +kernel
theorem witness_resume_work : let s := ctxWith commandP { ctxK with loaded := false }
    (s.ctx 0 0).loaded = false ∧ (s.ctx 0 0).stopped = false ∧ (∃ g ∈ s.wgs, g.part = 0 ∧ g.ctx = 0) ∧ ¬ ∃ g ∈ ({ s with wgs := [] } : State).wgs, g.part = 0 ∧ g.ctx = 0 := by
  decide +kernel

/-- ThePackageIsReset: a port with a device toward which a grant stands, and one whose device has used its window or is lost. PartitionsAreReset: an
uncorrectable error in memory of the host, with no error counted yet. -/
theorem witness_granted (h : 0 < Config.windowFlits) : let s := domainS []
    (3 < 256 ∧ Config.portOf 3 = Config.portOf 3 ∧ sparseGet [] s.domain.map 3 ≠ [] ∧ s.domain.isLost 3 = false ∧ sparseGet 0 s.domain.flits 3 < Config.windowFlits) :=
  ⟨by decide, rfl, by decide, by decide, h⟩
theorem witness_not_granted (d : Nat) : ¬ (sparseGet [] (domainS [3]).domain.map d ≠ [] ∧ (domainS [3]).domain.isLost d = false) := by
  rintro ⟨h, hl⟩
  rcases Nat.decEq d 3 with hd | rfl
  · exact h (by simp [domainS, withAccess, sparseGet, hd])
  · exact absurd hl (by decide)
theorem witness_error_counted : gang.layout.owner 0x1000 = some hostShared ∧ gang.mgmt.ue = [] ∧ sparseWf 0 gang.mgmt.ue = true := by decide +kernel

end Sys2Proof.Tests
end

section
/-!
SUPPORT. The major that the decoder reads from a word is the major of the instruction that it answers.
-/
namespace Sys2Proof.Machine

/-! ### The major of a decoded word (R23, R45) -/

/-- A decoder's answer: an error, or an instruction of major m. -/
inductive HasMajor (m : Nat) : Except DecodeError Instr → Prop where
  | error (e : DecodeError) : HasMajor m (.error e)
  | ok (i : Instr) (h : majorOf i = m) : HasMajor m (.ok i)

theorem HasMajor.ite {m : Nat} {c : Prop} [Decidable c] {r t : Except DecodeError Instr} (hr : HasMajor m r)
    (ht : HasMajor m t) : HasMajor m (if c then r else t) := by
  split
  · exact hr
  · exact ht

theorem HasMajor.majorOf_eq {m : Nat} {r : Except DecodeError Instr} {i : Instr} (h : HasMajor m r) (hr : r = .ok i) :
    majorOf i = m := by
  subst hr
  cases h
  assumption

/-! A group's decoder splits by the low four bits of the major, and each major's by its function codes. -/

theorem decodeGroup0_hasMajor (low w : Nat) : HasMajor (0x00 + low) (decodeGroup0 low w) := by
  unfold decodeGroup0
  split
  all_goals repeat' apply HasMajor.ite
  all_goals constructor <;> rfl

theorem decodeGroup1_hasMajor (low w : Nat) : HasMajor (0x10 + low) (decodeGroup1 low w) := by
  unfold decodeGroup1
  split
  all_goals repeat' apply HasMajor.ite
  all_goals constructor <;> rfl

theorem decodeGroup2_hasMajor (low w : Nat) : HasMajor (0x20 + low) (decodeGroup2 low w) := by
  unfold decodeGroup2
  split
  all_goals repeat' apply HasMajor.ite
  all_goals constructor <;> rfl

theorem decodeGroup4_hasMajor (low w : Nat) : HasMajor (0x40 + low) (decodeGroup4 low w) := by
  unfold decodeGroup4
  split
  all_goals repeat' apply HasMajor.ite
  all_goals constructor <;> rfl

theorem decodeGroup7_hasMajor (low w : Nat) : HasMajor (0x70 + low) (decodeGroup7 low w) := by
  unfold decodeGroup7
  split
  all_goals repeat' apply HasMajor.ite
  all_goals constructor <;> rfl

theorem decodeGroup8_hasMajor (low w : Nat) : HasMajor (0x80 + low) (decodeGroup8 low w) := by
  unfold decodeGroup8
  split
  all_goals repeat' apply HasMajor.ite
  all_goals constructor <;> rfl

theorem decodeGroup9_hasMajor (low w : Nat) : HasMajor (0x90 + low) (decodeGroup9 low w) := by
  unfold decodeGroup9
  split
  all_goals repeat' apply HasMajor.ite
  all_goals constructor <;> rfl

theorem decodeGroupA_hasMajor (low w : Nat) : HasMajor (0xA0 + low) (decodeGroupA low w) := by
  unfold decodeGroupA
  split
  all_goals repeat' apply HasMajor.ite
  all_goals constructor <;> rfl

theorem decodeGroupB_hasMajor (low w : Nat) : HasMajor (0xB0 + low) (decodeGroupB low w) := by
  unfold decodeGroupB
  split
  all_goals repeat' apply HasMajor.ite
  all_goals constructor <;> rfl

theorem decodeGroupC_hasMajor (low w : Nat) : HasMajor (0xC0 + low) (decodeGroupC low w) := by
  unfold decodeGroupC
  split
  all_goals repeat' apply HasMajor.ite
  all_goals constructor <;> rfl

theorem decodeGroupD_hasMajor (low w : Nat) : HasMajor (0xD0 + low) (decodeGroupD low w) := by
  unfold decodeGroupD
  split
  all_goals repeat' apply HasMajor.ite
  all_goals constructor <;> rfl

theorem decodeGroupE_hasMajor (low w : Nat) : HasMajor (0xE0 + low) (decodeGroupE low w) := by
  unfold decodeGroupE
  split
  all_goals repeat' apply HasMajor.ite
  all_goals constructor <;> rfl

theorem decodeGroupF_hasMajor (low w : Nat) : HasMajor (0xF0 + low) (decodeGroupF low w) := by
  unfold decodeGroupF
  split
  all_goals repeat' apply HasMajor.ite
  all_goals constructor <;> rfl

/-- The decoder reads from a word only instructions of the word's major. -/
theorem decodeWord_hasMajor (w : Nat) : HasMajor (field w 24 8) (decodeWord w) := by
  have hf : field w 24 8 = 16 * field w 28 4 + field w 24 4 := by
    unfold field
    omega
  rw [hf]
  unfold decodeWord
  split
  next h => rw [h]; exact decodeGroup0_hasMajor _ _
  next h => rw [h]; exact decodeGroup1_hasMajor _ _
  next h => rw [h]; exact decodeGroup2_hasMajor _ _
  next h => rw [h]; exact decodeGroup4_hasMajor _ _
  next h => rw [h]; exact decodeGroup7_hasMajor _ _
  next h => rw [h]; exact decodeGroup8_hasMajor _ _
  next h => rw [h]; exact decodeGroup9_hasMajor _ _
  next h => rw [h]; exact decodeGroupA_hasMajor _ _
  next h => rw [h]; exact decodeGroupB_hasMajor _ _
  next h => rw [h]; exact decodeGroupC_hasMajor _ _
  next h => rw [h]; exact decodeGroupD_hasMajor _ _
  next h => rw [h]; exact decodeGroupE_hasMajor _ _
  next h => rw [h]; exact decodeGroupF_hasMajor _ _
  next => exact .error _

/-- The major of an instruction's word is the instruction's major. -/
theorem field_major_encode {i : Instr} {w : BitVec 32} (hr : Laws.RoundTrip.Statement i) (h : encode i = some w) :
    field w.toNat 24 8 = majorOf i :=
  ((decodeWord_hasMajor w.toNat).majorOf_eq (hr w h)).symm

end Sys2Proof.Machine
end

section
/-!
NOP, the logic words, shifts and 24-bit multiply-adds, and the compares, predicate words and SEL (R95, R99 to R101, R106 to
R108). Each word has a shape whose effect on every agent Laws/Issue.lean gives; what is left is what one lane
computes, and the word's encoding.
-/
namespace Sys2Proof.Machine

/-! ### Words of one shape (R91) -/

theorem keepsPlace_id : KeepsPlace id := fun w _ => .rfl' w

theorem laneWord_computes {i : Instr} {d : RegCode} {f v : Exe → Nat → BitVec 32}
    (he : ∀ s, exec i s = laneWord i d s f) (hv : ∀ x L, f x L = v x L) : ComputesLanes i d v := by
  obtain rfl : f = v := funext₂ hv
  exact aluWord_computes he (keepsPlace_wr d.toNat _)

theorem binWord_computes {i : Instr} {d : RegCode} (a b : RegCode) (f : BitVec 32 → BitVec 32 → BitVec 32)
    {v : Exe → Nat → BitVec 32} (he : ∀ s, exec i s = binWord i d a b s f)
    (hv : ∀ x L, f (x.rd a.toNat L) (x.rd b.toNat L) = v x L) : ComputesLanes i d v :=
  laneWord_computes he hv

theorem icmp_computes (d a b fn : RegCode) {v : Exe → Nat → Bool}
    (hv : ∀ x L, icmpRel fn.toNat (x.rd a.toNat L) (x.rd b.toNat L) = v x L) : ComputesPred (.icmp d a b fn) d v := by
  obtain rfl : _ = v := funext₂ hv
  exact aluWord_computes (fun s => show _ = execIcmp d a b fn s from rfl) (keepsPlace_wrPr d.toNat _)

theorem predWord_computes {i : Instr} {d : RegCode} (a b : RegCode) (f : Bool → Bool → Bool) {v : Exe → Nat → Bool}
    (he : ∀ s, exec i s = predWord i d a b s f) (hv : ∀ x L, f (x.pr a.toNat L) (x.pr b.toNat L) = v x L) :
    ComputesPred i d v := by
  obtain rfl : _ = v := funext₂ hv
  exact aluWord_computes he (keepsPlace_wrPr d.toNat _)

/-! ### Shifts, rotates and multiply-adds of a lane (R100, R101) -/

theorem shl_eq (a n : BitVec 32) :
    shl a n = if 32 ≤ n.toNat then 0 else BitVec.ofNat 32 (a.toNat * 2 ^ n.toNat) := by
  have h : a <<< n.toNat = BitVec.ofNat 32 (a.toNat * 2 ^ n.toNat) :=
    BitVec.eq_of_toNat_eq (by simp [Nat.shiftLeft_eq])
  rw [shl, h]

theorem shr_eq (a n : BitVec 32) :
    shr a n = if 32 ≤ n.toNat then 0 else BitVec.ofNat 32 (a.toNat / 2 ^ n.toNat) := by
  have h : a >>> n.toNat = BitVec.ofNat 32 (a.toNat / 2 ^ n.toNat) := by
    rw [← Nat.shiftRight_eq_div_pow, ← BitVec.toNat_ushiftRight, BitVec.ofNat_toNat, BitVec.setWidth_eq]
  rw [shr, h]

theorem sar_eq (a n : BitVec 32) :
    sar a n = if 32 ≤ n.toNat then (if a.getLsbD 31 then 0xFFFFFFFF else 0)
      else BitVec.ofInt 32 (a.toInt / 2 ^ n.toNat) := by
  rw [sar, BitVec.sshiftRight, Int.shiftRight_eq_div_pow, BitVec.msb_eq_getLsbD_last]
  norm_cast

theorem rol_eq (a n : BitVec 32) : rol a n = (a <<< (n.toNat % 32)) ||| (a >>> (32 - n.toNat % 32)) :=
  BitVec.rotateLeft_eq_rotateLeftAux_of_lt (Nat.mod_lt _ (by decide))

theorem ror_eq (a n : BitVec 32) : ror a n = (a >>> (n.toNat % 32)) ||| (a <<< (32 - n.toNat % 32)) :=
  BitVec.rotateRight_eq_rotateRightAux_of_lt (Nat.mod_lt _ (by decide))

theorem clampInt_eq_min_max {lo hi : Int} (h : lo ≤ hi) (v : Int) : clampInt lo hi v = min (max v lo) hi := by
  unfold clampInt
  split_ifs <;> omega

theorem sext_toNat_eq_toInt {n k : Nat} (hn : 0 < n) (x : BitVec k) : sext x.toNat n = (x.setWidth n).toInt := by
  obtain ⟨m, rfl⟩ : ∃ m, n = m + 1 := ⟨n - 1, by omega⟩
  have hp : 2 ^ (m + 1) = 2 * 2 ^ m := Nat.pow_succ'
  simp only [sext, BitVec.toInt_eq_toNat_cond, BitVec.toNat_setWidth, Nat.add_sub_cancel]
  split_ifs <;> omega

theorem imad24_eq (sat : Bool) (a b c : BitVec 32) :
    imad24 sat a b c =
      let v : Int := (a.setWidth 24).toInt * (b.setWidth 24).toInt + c.toInt
      BitVec.ofInt 32 (if sat then min (max v (-2 ^ 31)) (2 ^ 31 - 1) else v) := by
  have h24 : 0 < 24 := by decide
  have hr : (-2 ^ 31 : Int) ≤ 2 ^ 31 - 1 := by decide
  rw [imad24, word32, sext_toNat_eq_toInt h24, sext_toNat_eq_toInt h24, clampInt_eq_min_max hr]

theorem nmad24_eq (sat : Bool) (a b c : BitVec 32) :
    nmad24 sat a b c =
      let v : Nat := (a.setWidth 24).toNat * (b.setWidth 24).toNat + c.toNat
      BitVec.ofNat 32 (if sat then min v (2 ^ 32 - 1) else v) := by
  rw [nmad24, BitVec.toNat_setWidth, BitVec.toNat_setWidth]

/-! ### The majors of listed instructions -/

theorem inMajor_nil (m : Nat) : InMajor m [] := nofun

theorem inMajor_cons {m : Nat} {i : Instr} {l : List Instr} {w : BitVec 32} (he : encode i = some w)
    (hr : Laws.RoundTrip.Statement i) (hm : majorOf i = m) (hl : InMajor m l) : InMajor m (i :: l) := by
  intro j hj
  rcases List.mem_cons.mp hj with rfl | hj
  · exact ⟨w, he, (field_major_encode hr he).trans hm⟩
  · exact hl j hj

/-! ### NOP (R95) -/

theorem decodeWord_eq_decode03 {w : Nat} (h : field w 24 8 = 3) : decodeWord w = decode03 w := by
  have hhi : field w 28 4 = 0 := by
    unfold field at *
    omega
  have hlo : field w 24 4 = 3 := by
    unfold field at *
    omega
  simp only [decodeWord, hhi, decodeGroup0, hlo]

theorem word_eq_nop {w : BitVec 32} (h : decodeWord w.toNat = .ok .nop) : w = 0x03000000 := by
  have hm : field w.toNat 24 8 = 3 := ((decodeWord_hasMajor _).majorOf_eq h).symm
  rw [decodeWord_eq_decode03 hm, decode03] at h
  split at h
  next h0 =>
    apply BitVec.eq_of_toNat_eq
    have hw := w.isLt
    unfold field at hm h0
    change _ = 0x03000000
    omega
  next => cases h

theorem nopOnlyCountsInItsRun : Claims.NopOnlyCountsInItsRun :=
  ⟨rfl, aluWord_computes (fun s => show _ = execNop s from rfl) keepsPlace_id⟩

theorem onlyOneWordIsNop : Claims.OnlyOneWordIsNop := fun _ =>
  ⟨word_eq_nop, fun h => h ▸ Laws.RoundTrip.nop _ rfl⟩

/-- Settles O8: NOP computes the identity, and a word that decodes to it has major 3 and no other bit. -/
theorem nopHasNoOtherEffect : Obligations.NopHasNoOtherEffect :=
  ⟨nopOnlyCountsInItsRun, onlyOneWordIsNop⟩

/-! ### Logic, shifts and multiply-adds (R99 to R101) -/

theorem logicWordsCombineBits : Claims.LogicWordsCombineBits := fun _ a b =>
  ⟨binWord_computes a b (· &&& ·) (fun _ => rfl) fun _ _ => rfl,
    binWord_computes a b (· ||| ·) (fun _ => rfl) fun _ _ => rfl,
    binWord_computes a b (· ^^^ ·) (fun _ => rfl) fun _ _ => rfl,
    binWord_computes a b andn (fun _ => rfl) fun _ _ => rfl,
    binWord_computes a b orn (fun _ => rfl) fun _ _ => rfl⟩

theorem shiftsAndRotatesTakeTheWholeCount : Claims.ShiftsAndRotatesTakeTheWholeCount := fun _ a b =>
  ⟨binWord_computes a b shl (fun _ => rfl) fun _ _ => shl_eq _ _,
    binWord_computes a b shr (fun _ => rfl) fun _ _ => shr_eq _ _,
    binWord_computes a b sar (fun _ => rfl) fun _ _ => sar_eq _ _,
    binWord_computes a b rol (fun _ => rfl) fun _ _ => rol_eq _ _,
    binWord_computes a b ror (fun _ => rfl) fun _ _ => ror_eq _ _⟩

theorem multiplyAddsUseTwentyFourBits : Claims.MultiplyAddsUseTwentyFourBits := fun d a b c =>
  ⟨laneWord_computes (fun s => show _ = execImad24 d a b c s from rfl) fun _ _ => imad24_eq _ _ _ _,
    laneWord_computes (fun s => show _ = execNmad24 d a b c s from rfl) fun _ _ => nmad24_eq _ _ _ _⟩

theorem logicShiftMajors : Claims.LogicShiftMajors := fun d a b c =>
  ⟨inMajor_cons rfl (Laws.RoundTrip.and d a b) rfl <|
      inMajor_cons rfl (Laws.RoundTrip.or d a b) rfl <|
      inMajor_cons rfl (Laws.RoundTrip.xor d a b) rfl <|
      inMajor_cons rfl (Laws.RoundTrip.andn d a b) rfl <|
      inMajor_cons rfl (Laws.RoundTrip.orn d a b) rfl <| inMajor_nil _,
    inMajor_cons rfl (Laws.RoundTrip.shl d a b) rfl <|
      inMajor_cons rfl (Laws.RoundTrip.shr d a b) rfl <|
      inMajor_cons rfl (Laws.RoundTrip.sar d a b) rfl <|
      inMajor_cons rfl (Laws.RoundTrip.rol d a b) rfl <|
      inMajor_cons rfl (Laws.RoundTrip.ror d a b) rfl <| inMajor_nil _,
    inMajor_cons rfl (Laws.RoundTrip.imad24 d a b c) rfl <| inMajor_nil _,
    inMajor_cons rfl (Laws.RoundTrip.nmad24 d a b c) rfl <| inMajor_nil _⟩

/-- Settles O12: each word is lane-wise in a function of one lane, which the spec's formula equals. -/
theorem logicShiftsAndMultiplyAdds : Obligations.LogicShiftsAndMultiplyAdds :=
  ⟨logicWordsCombineBits, shiftsAndRotatesTakeTheWholeCount, multiplyAddsUseTwentyFourBits, logicShiftMajors⟩

/-! ### Comparison, predicates and selection (R106 to R108) -/

theorem icmpWritesTheRelation : Claims.IcmpWritesTheRelation := fun d a b =>
  ⟨icmp_computes d a b 0 fun _ _ => beq_eq_decide _ _,
    icmp_computes d a b 1 fun _ _ => (congrArg not (beq_eq_decide _ _)).trans decide_not.symm,
    icmp_computes d a b 2 fun _ _ => rfl,
    icmp_computes d a b 3 fun _ _ => rfl,
    icmp_computes d a b 4 fun _ _ => rfl,
    icmp_computes d a b 5 fun _ _ => rfl⟩

theorem predicateWordsAndSelection : Claims.PredicateWordsAndSelection := fun d a b c =>
  ⟨predWord_computes a b (· && ·) (fun _ => rfl) fun _ _ => rfl,
    predWord_computes a b (· || ·) (fun _ => rfl) fun _ _ => rfl,
    predWord_computes a b (· != ·) (fun _ => rfl) fun _ _ => rfl,
    predWord_computes a b (fun u v => u && !v) (fun _ => rfl) fun _ _ => rfl,
    laneWord_computes (fun s => show _ = execSel d a b c s from rfl) fun _ _ => rfl⟩

theorem predicateMajors : Claims.PredicateMajors := fun d a b c fn =>
  ⟨inMajor_cons rfl (Laws.RoundTrip.icmp d a b fn) rfl <| inMajor_nil _,
    inMajor_cons rfl (Laws.RoundTrip.pand d a b) rfl <|
      inMajor_cons rfl (Laws.RoundTrip.por d a b) rfl <|
      inMajor_cons rfl (Laws.RoundTrip.pxor d a b) rfl <|
      inMajor_cons rfl (Laws.RoundTrip.pandn d a b) rfl <| inMajor_nil _,
    inMajor_cons rfl (Laws.RoundTrip.sel d a b c) rfl <| inMajor_nil _⟩

/-- Settles O14: each word writes its lanes of a predicate or a register from values read before the write. -/
theorem predicatesAndSelection : Obligations.PredicatesAndSelection :=
  ⟨icmpWritesTheRelation, predicateWordsAndSelection, predicateMajors⟩

end Sys2Proof.Machine
end

section
/-!
The float words that complete at their issue: arithmetic with one rounding, FCMP, the packed halves, signs and classes (R116,
R128, R130 to R134). Laws/Issue.lean gives the effect of each word's shape on every agent; what is left is what one lane
computes: which half, which bit or which class of a pattern, and the major of FCMP.
-/
namespace Sys2Proof.Machine

/-! ### Words of one shape (R116, R128, R132) -/

theorem floatWord_computes {i : Instr} {d : RegCode} {srcs : List RegCode} {g : FloatFmt → RoundCfg → List Nat → Nat}
    {v : Exe → Nat → BitVec 32} (he : ∀ s, exec i s = floatWord i d srcs s g)
    (hv : ∀ x L, BitVec.ofNat 32 (g (x.fmtAt L) (x.roundAt L)
      (srcs.map fun c => floatOperand (modeType (x.modeAt L)) (x.rd c.toNat L))) = v x L) : ComputesLanes i d v :=
  laneWord_computes he hv

theorem fcmp_computes (d a b fn : RegCode) {v : Exe → Nat → Bool}
    (hv : ∀ x L, (x.fmtAt L).fcmp (x.roundAt L).sub fn.toNat (floatOperand (modeType (x.modeAt L)) (x.rd a.toNat L))
      (floatOperand (modeType (x.modeAt L)) (x.rd b.toNat L)) = v x L) : ComputesPred (.fcmp d a b fn) d v := by
  obtain rfl : _ = v := funext₂ hv
  exact aluWord_computes (fun s => show _ = execFcmp d a b fn s from rfl) (keepsPlace_wrPr d.toNat _)

/-! ### The halves of a packed pair (R116, R133) -/

theorem elem_sixteen (v : BitVec 32) (k : Nat) : elem v 16 k = v.toNat / 2 ^ (16 * k) % 2 ^ 16 := by
  rw [elem, field, Nat.mul_comm]

/-- Each half of a packed result stands in its own sixteen bits, so the other half has no effect on it. -/
theorem bothHalves_half (g : Nat → Nat → Nat → Nat) (u v w : BitVec 32) {k : Nat} (hk : k < 2) :
    (bothHalves g u v w).toNat / 2 ^ (16 * k) % 2 ^ 16 = g (elem u 16 k) (elem v 16 k) (elem w 16 k) % 2 ^ 16 := by
  rw [bothHalves, BitVec.toNat_ofNat]
  match k, hk with
  | 0, _ => omega
  | 1, _ => omega

theorem packedWord_halves {i : Instr} {d a b c : RegCode} {g : FloatFmt → RoundCfg → Nat → Nat → Nat → Nat}
    (he : ∀ s, exec i s = packedWord i d a b c s g) :
    ∃ r : Exe → Nat → BitVec 32, ComputesLanes i d r ∧ ∀ (x : Exe) (L k : Nat), k < 2 →
      (r x L).toNat / 2 ^ (16 * k) % 2 ^ 16 = g (x.fmtAt L) (x.roundAt L)
        ((x.rd a.toNat L).toNat / 2 ^ (16 * k) % 2 ^ 16) ((x.rd b.toNat L).toNat / 2 ^ (16 * k) % 2 ^ 16)
        ((x.rd c.toNat L).toNat / 2 ^ (16 * k) % 2 ^ 16) % 2 ^ 16 := by
  refine ⟨_, laneWord_computes he fun _ _ => rfl, fun x L k hk => ?_⟩
  simp only [← elem_sixteen]
  exact (elem_sixteen _ _).trans (bothHalves_half _ _ _ _ hk)

/-! ### Sign bits and classes of patterns (R134) -/

theorem getLsbD_resultMask (ty : Nat) {k : Nat} (hk : k < 32) :
    (resultMask ty).getLsbD k = (decide (k < 16) || (ty != 0x11 && ty != 0x12)) := by
  have low : ∀ j < 32, (0xFFFF : BitVec 32).getLsbD j = decide (j < 16) := by decide
  have all : ∀ j < 32, (0xFFFFFFFF : BitVec 32).getLsbD j = true := by decide
  unfold resultMask
  split_ifs with h
  · rw [low k hk]
    rcases h with rfl | rfl <;> simp
  · rw [all k hk]
    obtain ⟨h11, h12⟩ := not_or.mp h
    simp [h11, h12]

/-- The number of a pattern's class, read off its magnitude: at, above or below infinity's, zero, or below the first normal one. -/
def FloatFmt.classBit (f : FloatFmt) (p : Nat) : Nat :=
  let neg := p.testBit f.signBit
  let mag := p % 2 ^ f.signBit
  if mag = f.infMag then (if neg then 0 else 7)
  else if f.infMag < mag then (if mag.testBit (f.mbits - 1) then 9 else 8)
  else if mag = 0 then (if neg then 3 else 4)
  else if mag < 2 ^ f.mbits then (if neg then 2 else 5)
  else (if neg then 1 else 6)

/-- A magnitude is its exponent field above its fraction. -/
theorem FloatFmt.mag_eq (f : FloatFmt) (p : Nat) :
    p % 2 ^ f.signBit = field p f.mbits f.ebits * 2 ^ f.mbits + p % 2 ^ f.mbits := by
  rw [signBit, Nat.add_comm f.ebits, Nat.pow_add, Nat.mod_mul, field, Nat.mul_comm, Nat.add_comm]

theorem FloatFmt.testBit_quiet (f : FloatFmt) {p : Nat} (h : p % 2 ^ f.mbits ≠ 0) :
    (p % 2 ^ f.signBit).testBit (f.mbits - 1) = (p % 2 ^ f.mbits).testBit (f.mbits - 1) := by
  have hm : f.mbits ≠ 0 := fun h0 => h (by rw [h0, Nat.pow_zero, Nat.mod_one])
  have hs : f.mbits - 1 < f.signBit := by
    unfold signBit
    omega
  rw [Nat.testBit_mod_two_pow, Nat.testBit_mod_two_pow, decide_eq_true hs, decide_eq_true (Nat.sub_one_lt hm)]

theorem FloatFmt.mag_lt_infMag (f : FloatFmt) {p : Nat} (h : field p f.mbits f.ebits ≠ 2 ^ f.ebits - 1) :
    p % 2 ^ f.signBit < f.infMag := by
  have hex : field p f.mbits f.ebits < 2 ^ f.ebits := Nat.mod_lt _ (Nat.two_pow_pos _)
  have hfr : p % 2 ^ f.mbits < 2 ^ f.mbits := Nat.mod_lt _ (Nat.two_pow_pos _)
  calc p % 2 ^ f.signBit
      < (field p f.mbits f.ebits + 1) * 2 ^ f.mbits := by rw [mag_eq, Nat.succ_mul]; omega
    _ ≤ f.infMag := Nat.mul_le_mul_right _ (by omega)

/-- The class by exponent field and fraction is the class by magnitude. -/
theorem FloatFmt.fclass_eq (f : FloatFmt) (p : Nat) : f.fclass p = 2 ^ f.classBit p := by
  have hmag := f.mag_eq p
  simp only [fclass, classBit, apply_ite (HPow.hPow 2), Nat.pow_zero]
  by_cases htop : field p f.mbits f.ebits = 2 ^ f.ebits - 1
  · replace hmag : p % 2 ^ f.signBit = f.infMag + p % 2 ^ f.mbits := by rw [hmag, htop, infMag]
    rw [if_pos htop]
    by_cases hfr : p % 2 ^ f.mbits = 0
    · have hinf : p % 2 ^ f.signBit = f.infMag := by omega
      rw [if_pos hfr, if_pos hinf]
    · have hnan : f.infMag < p % 2 ^ f.signBit := by omega
      rw [if_neg hfr, if_neg hnan.ne', if_pos hnan, f.testBit_quiet hfr]
  · have hlt := f.mag_lt_infMag htop
    rw [if_neg htop, if_neg hlt.ne, if_neg hlt.not_gt]
    by_cases hsub : field p f.mbits f.ebits = 0
    · replace hmag : p % 2 ^ f.signBit = p % 2 ^ f.mbits := by rw [hmag, hsub, Nat.zero_mul, Nat.zero_add]
      rw [if_pos hsub, hmag, if_pos (Nat.mod_lt p (Nat.two_pow_pos _))]
    · have hnormal : 2 ^ f.mbits ≤ p % 2 ^ f.signBit :=
        hmag ▸ Nat.le_add_right_of_le (Nat.le_mul_of_pos_left _ (Nat.pos_of_ne_zero hsub))
      have hzero : p % 2 ^ f.signBit ≠ 0 := ((Nat.two_pow_pos _).trans_le hnormal).ne'
      rw [if_neg hsub, if_neg hzero, if_neg hnormal.not_gt]

/-! ### Float words (R130 to R134) -/

theorem floatArithmeticRoundsOnce : Claims.FloatArithmeticRoundsOnce := fun d a b c =>
  ⟨floatWord_computes (fun s => show _ = execFfma d a b c s from rfl) fun _ _ => rfl,
    floatWord_computes (fun s => show _ = execFadd d a b s from rfl) fun _ _ => rfl,
    floatWord_computes (fun s => show _ = execFsub d a b s from rfl) fun _ _ => rfl,
    floatWord_computes (fun s => show _ = execFmul d a b s from rfl) fun _ _ => rfl,
    floatWord_computes (fun s => show _ = execFmin d a b s from rfl) fun _ _ => rfl,
    floatWord_computes (fun s => show _ = execFmax d a b s from rfl) fun _ _ => rfl⟩

theorem fcmpComparesExactValues : Claims.FcmpComparesExactValues := fun d a b =>
  ⟨fcmp_computes d a b 0 fun _ _ => (Bool.and_assoc _ _ _).trans (congrArg _ (Bool.not_or _ _).symm),
    fcmp_computes d a b 1 fun _ _ => Bool.or_assoc _ _ _,
    fcmp_computes d a b 2 fun _ _ => rfl,
    fcmp_computes d a b 3 fun _ _ => rfl,
    fcmp_computes d a b 4 fun _ _ => rfl⟩

theorem packedFloatsWorkOnHalves : Claims.PackedFloatsWorkOnHalves := fun d a b c =>
  ⟨packedWord_halves fun s => show _ = execFfma2 d a b c s from rfl,
    packedWord_halves (c := b) fun s => show _ = execFadd2 d a b s from rfl,
    packedWord_halves (c := b) fun s => show _ = execFmul2 d a b s from rfl,
    packedWord_halves (c := b) fun s => show _ = execFmin2 d a b s from rfl,
    packedWord_halves (c := b) fun s => show _ = execFmax2 d a b s from rfl⟩

theorem signAndClassActOnPatterns : Claims.SignAndClassActOnPatterns := by
  intro d a
  refine ⟨⟨_, laneWord_computes (fun s => show _ = execFabs d a s from rfl) fun _ _ => rfl, fun x L k hk => ?_⟩,
    ⟨_, laneWord_computes (fun s => show _ = execFneg d a s from rfl) fun _ _ => rfl, fun x L k hk => ?_⟩,
    floatWord_computes (fun s => show _ = execFclass d a s from rfl) fun x L =>
      congrArg (BitVec.ofNat 32) ((x.fmtAt L).fclass_eq _)⟩
  · rw [BitVec.getLsbD_and, BitVec.getLsbD_and, BitVec.getLsbD_not, decide_eq_true hk, Bool.true_and, getLsbD_resultMask _ hk]
  · rw [BitVec.getLsbD_and, BitVec.getLsbD_xor, getLsbD_resultMask _ hk]

theorem fcmpHasItsMajor : Claims.FcmpHasItsMajor := fun d a b fn =>
  inMajor_cons rfl (Laws.RoundTrip.fcmp d a b fn) rfl <| inMajor_nil _

/-- Settles O19: each word is lane-wise in a function of one lane; a packed word's halves do not meet, the relations of FCMP
are those of the exact values, and the class by exponent field and fraction is the class by magnitude. -/
theorem floatWordsRoundOnce : Obligations.FloatWordsRoundOnce :=
  ⟨floatArithmeticRoundsOnce, fcmpComparesExactValues, packedFloatsWorkOnHalves, signAndClassActOnPatterns, fcmpHasItsMajor⟩

end Sys2Proof.Machine
end
